-- ==== Sys2Proof/Word.lean ====
section
/-! DEFINITION. The device's words: bytes, 32-bit words and parcels, 64-bit device addresses (R5, R82), and the
sparse table that stands for memories, register files and other numbered state. -/

namespace Sys2Proof

abbrev Byte := BitVec 8
abbrev Word := BitVec 32
/-- A device address (R82): buffer index in bits 63:48, offset in bits 47:0. -/
abbrev Addr := BitVec 64
/-- Numbered things of one kind, the numbers strictly rising. -/
abbrev Sparse (α : Type) := List (Nat × α)

end Sys2Proof
end

