-- ==== Sys2Proof/Machine/Map.lean ====
section
/-! DEFINITION. Sparse tables: lists of numbered entries in one canonical form, the numbers strictly rising. -/

namespace Sys2Proof.Map

/-- The entry at k. -/
def get? {α : Type} : Sparse α → Nat → Option α
  | [], _ => none
  | (a, v) :: m, k => if k = a then some v else get? m k

/-- The entry at k, or what an unlisted number reads as. -/
def getD {α : Type} (m : Sparse α) (d : α) (k : Nat) : α := (get? m k).getD d

/-- The table with v at k. -/
def set {α : Type} : Sparse α → Nat → α → Sparse α
  | [], k, v => [(k, v)]
  | (a, w) :: m, k, v => if k < a then (k, v) :: (a, w) :: m else if k = a then (k, v) :: m else (a, w) :: set m k v

/-- The table with nothing at k. -/
def erase {α : Type} : Sparse α → Nat → Sparse α
  | [], _ => []
  | (a, w) :: m, k => if k = a then m else (a, w) :: erase m k

/-- The table with v at k, where an unlisted number reads d: writing d removes the entry. -/
def put {α : Type} [DecidableEq α] (d : α) (m : Sparse α) (k : Nat) (v : α) : Sparse α :=
  if v = d then erase m k else set m k v

/-- The entry at k changed by f, if there is one. -/
def modify {α : Type} : Sparse α → Nat → (α → α) → Sparse α
  | [], _, _ => []
  | (a, w) :: m, k, f => if k = a then (a, f w) :: m else (a, w) :: modify m k f

/-- The numbers rise strictly from above lo. -/
def risingFrom {α : Type} : Option Nat → Sparse α → Bool
  | _, [] => true
  | lo, (a, _) :: m => (match lo with | none => true | some b => decide (b < a)) && risingFrom (some a) m

/-- The canonical form: numbers strictly rising, and no entry equal to what an unlisted number reads as. -/
def canon {α : Type} [DecidableEq α] (d : α) (m : Sparse α) : Bool :=
  risingFrom none m && m.all (fun e => decide (e.2 ≠ d))

def contains {α : Type} (m : Sparse α) (k : Nat) : Bool := (get? m k).isSome

/-- The values, in order of their numbers. -/
def vals {α : Type} (m : Sparse α) : List α := m.map (·.2)
/-- A list in order: of two neither of which goes before the other, the earlier stays first. -/
def insertBy {α : Type} (le : α → α → Bool) (x : α) : List α → List α
  | [] => [x]
  | y :: ys => if le x y then x :: y :: ys else y :: insertBy le x ys
def sortBy {α : Type} (le : α → α → Bool) : List α → List α
  | [] => []
  | x :: xs => insertBy le x (sortBy le xs)

end Sys2Proof.Map
end

