-- ==== Sys2Proof/Config.lean ====
section
/-! DEFINITION. What the spec leaves to the implementation: constants without a body. No proof can see what they are, so a
statement about them holds whatever they are (log 5). -/

namespace Sys2Proof.Config

/-- The device's `frcp` (R162): TYPE code and operand pattern to result pattern; taken where it lies within the bound. -/
opaque frcpValue : Nat → Nat → Nat
/-- The device's `frsq` (R162). -/
opaque frsqValue : Nat → Nat → Nat
/-- The device's `sfn` (R163): function 0 EX2 to 6 ERF and FP32 operand pattern to result pattern. -/
opaque sfnValue : Nat → Nat → Nat
/-- An FP32 accumulation whose order of terms is unspecified (R165): indexed by the state's counter of free values. -/
opaque accValue : Nat → Nat
/-- Which of the entries the core may pick when no rule orders them (R41), and the other unordered choices. -/
opaque stepping : Nat
/-- Digests, identity key and versions of the attestation report (R251): byte k of the report. -/
opaque attestByte : Nat → Byte
/-- SHA-384 (R247): byte k of the digest. -/
opaque sha384 : List Byte → Nat → Byte
/-- The signature over the first 0x168 bytes of a report (R251): byte k. -/
opaque signByte : List Byte → Nat → Byte
/-- The slot sizes of compressed pages (R103): bytes that a packed page's slots occupy, and that its unit map does. -/
opaque packedBytes : Nat → Nat
opaque unitMapBytes : Nat
/-- Whether a write to a compressed page that no thread makes fits (R104, log 12): by the state's counter of free values. -/
opaque writeFits : Nat → Bool
/-- How often a level that a planar line fills has to make room for it, and which of the lines it holds its recency rule names (R97,
R138): by the state's counter of free values, the level, and the search. -/
opaque planeSheds : Nat → Nat → Nat
opaque planeVictim : Nat → Nat → Nat → Nat
/-- The set of the LLC a planar line belongs to (R97): context, handle and line number. -/
opaque planeSet : Nat → Nat → Nat → Nat
/-- The bank of a physical address in its channel (R435): the spec gives the record the field and no mapping. -/
opaque bankOf : Nat → Nat
/-- The set of the 16-way L2 that a 128-byte line belongs to (R95): the spec gives the ways and no mapping. -/
opaque l2Set : Nat → Nat
/-- Which of two values the fetch of a parcel returns, that at the item's admission or the newest (R173, log 87): by the time, the item and
the parcel's address. -/
opaque fetchOld : Nat → Nat → Nat → Bool
/-- A word the device reads where the spec states none: a group constant of an unreadable parameter block (R61). -/
opaque freeWord : Nat → BitVec 32
/-- Bytes the device writes in a form the spec does not give: spill entries and saved images (R80, R217, R228). -/
opaque freeByte : Nat → Nat → Byte
/-- The LLC slice that is home to a physical address (R23): the spec gives the hash no form. -/
opaque llcSlice : Nat → Nat
/-- `PNOW`, the measured package power at a device time (R254). -/
opaque measuredPower : Nat → Nat

end Sys2Proof.Config
end

