-- ==== Sys2Proof/Syntax.lean ====
section
/-! DEFINITION. The instruction set and the device's other steps: one constructor of Instr for each row of the opcode
table. A row that is an instruction carries its fields (R257, R261); a row that is an operation of the device, of its
host or of its surroundings carries what is chosen or supplied from outside it. -/

namespace Sys2Proof

/-- The TYPE codes 0 to 15, in code order (R265). -/
inductive Ty
  | b32 | s32 | n32 | b64 | s64 | n64 | s16 | n16 | s8 | n8 | f64 | f32 | f16 | bf16 | f8 | s4
deriving DecidableEq, Repr

/-- The width forms of loads and stores, 1 to 16 bytes (R332). -/
inductive Width
  | b1 | b2 | b4 | b8 | b16
deriving DecidableEq, Repr

/-- Operand `B` of a full or long instruction (R261 to R263): the field read as a number (`IB` 0), an 8-bit immediate
(`IB` 1), or the literal parcel of the long form. -/
inductive BForm
  | num (n : BitVec 8)
  | imm (n : BitVec 8)
  | lit (w : Word)
deriving DecidableEq, Repr

/-- The fields of a full instruction but its opcode and length (R261). -/
structure Full where
  g : BitVec 3
  gn : Bool
  d : BitVec 8
  a : BitVec 8
  b : BForm
  c : BitVec 8
  ty : Ty
  mod : BitVec 4
  pd : BitVec 3
  ext : BitVec 4
  s : Bool
deriving DecidableEq, Repr

/-- The fields of a compact instruction but its opcode and length (R257). `a` is operand `A` or `IMM8`. -/
structure Compact where
  sub : BitVec 3
  i : Bool
  a : BitVec 8
  d : BitVec 8
  gn : Bool
  g : BitVec 3
deriving DecidableEq, Repr

/-- One compact instruction of a pair: its compact opcode and its fields (R260). -/
structure CompactWord where
  cop : BitVec 6
  f : Compact
deriving DecidableEq, Repr

/-- The bring-up failure codes 0x01 to 0x08 (R503), in code order. -/
inductive BootFail
  | fuses | imageAbsent | imageSignature | imageVersion | hbmInit | arrayInit | coreSignature | coreVersion
deriving DecidableEq, Repr

/-- The BAR 0 registers the host writes that have no row of their own (R254, R436). -/
inductive BarReg
  | plim | podid | hwbase | hwsize | elbase | elsize | eltail
  /-- `MCTL`, where the value asks neither for a reset nor for a retrain: those are events of their own -/
  | mctl
  /-- the HDM decoder's base, which the host programs at enumeration (R235) -/
  | hdmbase
  /-- Oromel sets a context's share of the power pool, in tenths of a watt (R252, log 85) -/
  | share (ctx : Nat)
deriving DecidableEq, Repr

/-- What a checkpoint manifest shows when it is read (R247, R249). -/
structure Manifest where
  finalWord : Nat
  byteCount : Nat
  sameDevice : Bool
deriving DecidableEq, Repr

/-- What is admitted: the head record of a hardware queue, or an issued engine job (R66, R69, R184). -/
inductive AdmitSel
  | queue (hwq : Nat)
  | job (id : Nat)
deriving DecidableEq, Repr

/-- Whether a write to a compressed page fits (R104, R472): the codec is not visible to programs. -/
inductive Room
  | fits | noRoom
deriving DecidableEq, Repr

/-- A peer's answer to a remote access (R190, R495): the bytes read, or the port cause of its refusal, or no trained
port. -/
inductive PeerAnswer
  | done (bytes : List Byte)
  | refused (cause : Nat)
  | unreachable
deriving DecidableEq, Repr

/-- What an inbound UALink access does (R244, R245). -/
inductive PeerOp
  | read (len : Nat)
  | write (bytes : List Byte)
  /-- the operation by its index in R336, its TYPE, operand and swap value, and whether the old value is asked for -/
  | atomic (op : Nat) (ty : Ty) (operand swap : Nat) (ret : Bool)
deriving DecidableEq, Repr

/-- What the host writes to device memory (R234): bytes, or an atomic of R336 by its index, TYPE, operand and swap value. -/
inductive HostOp
  | write (bytes : List Byte)
  | atomic (op : Nat) (ty : Ty) (operand swap : Nat)
deriving DecidableEq, Repr

/-- How a page service ends (R465): Oromel names the physical page it wrote into the entry, or declines; the page
walker takes its page from the pool. -/
inductive PageAnswer
  | walker
  | oromel (ppage : Nat)
  | declined
deriving DecidableEq, Repr

/-- The units whose duplicated control logic is compared (R451). -/
inductive ControlUnit
  | core (n : Nat)
  | dispatcher (die : Nat)
  | commandProcessor (die : Nat)
deriving DecidableEq, Repr

/-- Where the scrubber or an access finds an array error (R477), and the duplicate of the datapath check (R425); a line is named by its
number, 128 bytes each. `hbm`: a codeword of HBM4 that no scrub of the stack has reported (R474, log 91). -/
inductive ArrayWord
  | l1 (core line : Nat) | l2 (die line : Nat) | hbm (phys : Nat) | translation (core : Nat) | pde (core : Nat) | stamp (die : Nat)
  | target (core : Nat) | llcClean (slice : Nat)
  | llcDirty (slice : Nat) (phys : Nat) | hold (slice : Nat) (phys : Nat)
  | register (group : Nat) (tid : Nat) (reg : Nat) | planarTag (group : Nat) (tid : Nat) (reg : Nat)
  | scratchpad (group : Nat) | tile (group : Nat) | accumulator (group : Nat) | twill (group : Nat)
  | unallocated (core : Nat)
  | bank (core : Nat) (n : Nat)
  | hitch (line entry : Nat)
  | datapath (core : Nat)
deriving DecidableEq, Repr

/-- One constructor per row of the opcode table, in its order. -/
inductive Instr
  | powerOnReset (fail : Option BootFail)
  | linkTrainingComplete (port : Nat) (ok : Bool)
  | q0descWrite (value : Addr)
  | mctlDeviceReset (fail : Option BootFail)
  | mctlUalinkRetrain
  | elstatOvfClear (value : Addr)
  | registerWrite (reg : BarReg) (value : Addr)
  | queueTailPush (queue : Nat)
  | launchCommand (queue : Nat)
  | relaunchCommand (queue : Nat)
  | planemap (queue : Nat)
  | bufmap (queue : Nat)
  | share (queue : Nat)
  | ctxcreate (queue : Nat)
  | ctxdestroy (queue : Nat)
  | qcreate (queue : Nat)
  | qdestroy (queue : Nat)
  | preempt (queue : Nat)
  | resume (queue : Nat)
  | poolAdd (queue : Nat)
  | poolReport (queue : Nat)
  | ckpt (queue : Nat)
  | attest (queue : Nat)
  | quiesce (queue : Nat)
  | release (queue : Nat)
  | restore (queue : Nat) (manifest : Manifest)
  | restoreStreamEnd (image : List (Nat × Byte)) (poison : List Nat)
  | itemAdmit (which : AdmitSel)
  | itemComplete (item : Nat)
  | gangPlace (item : Nat) (cores : List Nat)
  | taskSteal (thief : Nat) (victim : Nat)
  | activeSetTrade (group : Nat)
  | requeue (group : Nat)
  | threadStarved (group : Nat) (tid : Nat)
  | progressWatchdog (group : Nat) (warp : Nat)
  | joinDeadlock (group : Nat) (warp : Nat)
  | spliceRelease (group : Nat) (pc : Addr)
  | spawnRecordWrite (group : Nat) (tid : Nat)
  | forcedSave (group : Nat)
  | leaveGrant (group : Nat)
  | leaveTimeout (group : Nat) (level : Nat)
  | loadDataReturn (access : Nat)
  | storePlaced (access : Nat) (room : Room)
  | repackComplete (page : Nat)
  | overflowHoldTimeout (page : Nat)
  | overflowHoldKill (page : Nat)
  | remoteAck (access : Nat) (answer : PeerAnswer)
  | remoteAccessTimeout (access : Nat)
  | peerRemoteAccess (podctx : Nat) (addr : Addr) (op : PeerOp)
  | engineSectorLand (job : Nat) (unit : Nat)
  | engineJobComplete (job : Nat)
  | nmcStackFailure (job : Nat) (stack : Nat)
  | tileOpComplete (op : Nat)
  | matrixLoopStep (group : Nat)
  | matrixLoopEnd (group : Nat)
  | pageServiceComplete (service : Nat) (answer : PageAnswer)
  | pageServiceTimeout (service : Nat)
  | hitchRegistered (access : Nat)
  | hitchPushLand (group : Nat) (slot : Nat)
  | unhitchConfirm (group : Nat) (slot : Nat)
  | hitchHomeFailure (line : Nat)
  | tawaitWake (group : Nat) (tid : Nat)
  | leaseExpiry (group : Nat) (lease : Nat)
  | ptsSelfAdvance (core : Nat) (ticks : Nat)
  | cachedCopyExpiry (core : Nat) (line : Nat)
  | relaunchSelectionDone (item : Nat)
  | relaunchHostContinue (item : Nat) (goOn : Bool)
  | relaunchContinueTimeout (item : Nat)
  | controlCompareMismatch (unit : ControlUnit)
  | scrubberFinding (where_ : ArrayWord) (correctable : Bool)
  | ecsUncorrectableFinding (phys : Nat) (bank : Nat)
  | ecsCountPoll (stack : Nat) (chan : Nat) (bank : Nat) (rise : Nat)
  | flitReplay (port : Nat) (ok : Bool)
  | replayCountReport (port : Nat)
  | linkRetrain (port : Nat) (ok : Bool)
  | linkPortDown (port : Nat)
  | wymbiynRetrainRetry (ok : Bool)
  | hostHdmRead (phys : Nat) (len : Nat)
  | hostHdmWrite (phys : Nat) (op : HostOp)
  | snoopAck (line : Nat)
  | snoopTimeout (line : Nat)
  | thermalStateChange (tj : Nat)
  | ckptStreamEnd
  | ckptInterrupted (units : Nat)
  | compactPair (lead : CompactWord) (second : CompactWord)
  | nopCompact (c : Compact)
  | movCompact (c : Compact)
  | moviCompact (c : Compact)
  | iaddCompact (c : Compact)
  | isubCompact (c : Compact)
  | imulLoCompact (c : Compact)
  | iminCompact (c : Compact)
  | imaxCompact (c : Compact)
  | iandCompact (c : Compact)
  | iorCompact (c : Compact)
  | ixorCompact (c : Compact)
  | ishlCompact (c : Compact)
  | ishrLCompact (c : Compact)
  | ishrACompact (c : Compact)
  | irotCompact (c : Compact)
  | inotCompact (c : Compact)
  | inegCompact (c : Compact)
  | iabsCompact (c : Compact)
  | ipopcCompact (c : Compact)
  | iclzCompact (c : Compact)
  | ictzCompact (c : Compact)
  | ibrevCompact (c : Compact)
  | aaddCompact (c : Compact)
  | faddCompact (c : Compact)
  | fsubCompact (c : Compact)
  | fmulCompact (c : Compact)
  | fminCompact (c : Compact)
  | fmaxCompact (c : Compact)
  | fabsCompact (c : Compact)
  | fnegCompact (c : Compact)
  | frcpCompact (c : Compact)
  | frsqCompact (c : Compact)
  | fsqrtCompact (c : Compact)
  | plvalCompact (c : Compact)
  | ldCompact (c : Compact)
  | stCompact (c : Compact)
  | ldsCompact (c : Compact)
  | stsCompact (c : Compact)
  | shflIdxCompact (c : Compact)
  | shflXorCompact (c : Compact)
  | lredCompact (c : Compact)
  | yieldCompact (c : Compact)
  | wsyncCompact (c : Compact)
  | hclrCompact (c : Compact)
  | fenceCompact (c : Compact)
  | wtanyCompact (c : Compact)
  | wtallCompact (c : Compact)
  | shflUpCompact (c : Compact)
  | shflDownCompact (c : Compact)
  | iadd (f : Full)
  | isub (f : Full)
  | iaddc (f : Full)
  | isubb (f : Full)
  | imulLo (f : Full)
  | imulHi (f : Full)
  | imulWide (f : Full)
  | imadLo (f : Full)
  | imadHi (f : Full)
  | imadWide (f : Full)
  | idiv (f : Full)
  | irem (f : Full)
  | imin (f : Full)
  | imax (f : Full)
  | iabs (f : Full)
  | ineg (f : Full)
  | icmpEq (f : Full)
  | icmpNe (f : Full)
  | icmpLt (f : Full)
  | icmpLe (f : Full)
  | icmpGt (f : Full)
  | icmpGe (f : Full)
  | isel (f : Full)
  | iclamp (f : Full)
  | iand (f : Full)
  | ior (f : Full)
  | ixor (f : Full)
  | inot (f : Full)
  | ilop3 (f : Full)
  | ishl (f : Full)
  | ishrL (f : Full)
  | ishrA (f : Full)
  | irot (f : Full)
  | ibfx (f : Full)
  | ibfi (f : Full)
  | ipopc (f : Full)
  | iclz (f : Full)
  | ictz (f : Full)
  | ibrev (f : Full)
  | amk (f : Full)
  | aadd (f : Full)
  | aoff (f : Full)
  | ahnd (f : Full)
  | fadd (f : Full)
  | fsub (f : Full)
  | fmul (f : Full)
  | ffma (f : Full)
  | fdiv (f : Full)
  | fsqrt (f : Full)
  | frcp (f : Full)
  | frsq (f : Full)
  | fmin (f : Full)
  | fmax (f : Full)
  | fabs (f : Full)
  | fneg (f : Full)
  | fcmpEq (f : Full)
  | fcmpNe (f : Full)
  | fcmpLt (f : Full)
  | fcmpLe (f : Full)
  | fcmpGt (f : Full)
  | fcmpGe (f : Full)
  | fcmpUn (f : Full)
  | fcmpOr (f : Full)
  | fclass (f : Full)
  | frnd (f : Full)
  | cvtpk (f : Full)
  | cvtup (f : Full)
  | sfnEx2 (f : Full)
  | sfnLg2 (f : Full)
  | sfnSin (f : Full)
  | sfnCos (f : Full)
  | sfnTanh (f : Full)
  | sfnSigm (f : Full)
  | sfnErf (f : Full)
  | act (f : Full)
  | cvt (src : Ty) (f : Full)
  | actld (f : Full)
  | actsel (f : Full)
  | plpack (f : Full)
  | plval (f : Full)
  | pltag (f : Full)
  | plsett (f : Full)
  | pltrim (f : Full)
  | part (f : Full)
  | wsync (f : Full)
  | voteAll (f : Full)
  | voteAny (f : Full)
  | voteEq (f : Full)
  | voteBallot (f : Full)
  | shflIdx (f : Full)
  | shflUp (f : Full)
  | shflDown (f : Full)
  | shflXor (f : Full)
  | lred (f : Full)
  | lredF (f : Full)
  | lscan (f : Full)
  | lscanF (f : Full)
  | selk (f : Full)
  | selkI (f : Full)
  | permx (f : Full)
  | mov (f : Full)
  | movi (f : Full)
  | rdsr (f : Full)
  | wrsr (f : Full)
  | pand (f : Full)
  | por (f : Full)
  | pxor (f : Full)
  | pnot (f : Full)
  | pmov (f : Full)
  | pmovGet (f : Full)
  | pmovSet (f : Full)
  | bra (f : Full)
  | brx (f : Full)
  | call (f : Full)
  | calx (f : Full)
  | ret (f : Full)
  | exit (f : Full)
  | sbra (f : Full)
  | join (f : Full)
  | yield (f : Full)
  | nop (f : Full)
  | waitc (f : Full)
  | wtany (f : Full)
  | wtall (f : Full)
  | ffrdy (f : Full)
  | fence (f : Full)
  | binit (f : Full)
  | barr (f : Full)
  | bwait (f : Full)
  | btxIn (f : Full)
  | btxOut (f : Full)
  | bplw (f : Full)
  | rinit (f : Full)
  | acqs (f : Full)
  | acqsTry (f : Full)
  | coms (f : Full)
  | peeks (f : Full)
  | peeksTry (f : Full)
  | rels (f : Full)
  | rinitG (f : Full)
  | acqsG (f : Full)
  | acqsTryG (f : Full)
  | comsG (f : Full)
  | peeksG (f : Full)
  | peeksTryG (f : Full)
  | relsG (f : Full)
  | launch (f : Full)
  | relaunch (f : Full)
  | tspawn (f : Full)
  | tawait (f : Full)
  | ld (w : Width) (f : Full)
  | st (w : Width) (f : Full)
  | lds (w : Width) (f : Full)
  | sts (w : Width) (f : Full)
  | ldsG (w : Width) (f : Full)
  | stsG (w : Width) (f : Full)
  | ldp (f : Full)
  | prf (f : Full)
  | pst (f : Full)
  | pstMerge (f : Full)
  | atomAdd (f : Full)
  | atomMin (f : Full)
  | atomMax (f : Full)
  | atomAnd (f : Full)
  | atomOr (f : Full)
  | atomXor (f : Full)
  | atomInc (f : Full)
  | atomDec (f : Full)
  | atomFadd (f : Full)
  | atomFmin (f : Full)
  | atomFmax (f : Full)
  | atomrAdd (f : Full)
  | atomrMin (f : Full)
  | atomrMax (f : Full)
  | atomrAnd (f : Full)
  | atomrOr (f : Full)
  | atomrXor (f : Full)
  | atomrInc (f : Full)
  | atomrDec (f : Full)
  | atomrFadd (f : Full)
  | atomrFmin (f : Full)
  | atomrFmax (f : Full)
  | atomrExch (f : Full)
  | atomrCas (f : Full)
  | hitch (f : Full)
  | hitchEach (f : Full)
  | unhitch (f : Full)
  | hclr (f : Full)
  | hclrEq (f : Full)
  | lpf (f : Full)
  | copy (f : Full)
  | copyIn (f : Full)
  | copyOut (f : Full)
  | copySs (f : Full)
  | copyLs (f : Full)
  | pcopyIn (f : Full)
  | pcopyOut (f : Full)
  | pcopyLs (f : Full)
  | txfm (f : Full)
  | lease (f : Full)
  | leaseQ (f : Full)
  | unlease (f : Full)
  | nmc (f : Full)
  | tld (f : Full)
  | tldPl (f : Full)
  | tldS (f : Full)
  | tldT (f : Full)
  | tst (f : Full)
  | tstS (f : Full)
  | tzero (f : Full)
  | tzeroPl (f : Full)
  | mma (f : Full)
  | mloop (f : Full)
  | mlsp (f : Full)
  | mlspT (f : Full)
  | mrst (f : Full)
  | mrstOff (f : Full)
  | accz (f : Full)
  | accld (f : Full)
  | accldS (f : Full)
  | accst (f : Full)
  | accstS (f : Full)
  | accmv (f : Full)
  | accmvT (f : Full)
  | permxT (f : Full)
  | permxTAdd (f : Full)
  | twld (f : Full)
  | twrow (f : Full)
  | twcol (f : Full)
  | twnext (f : Full)
  | twsave (f : Full)
  | twrest (f : Full)
  | trap (f : Full)
  | sethdl (f : Full)
  | rte (f : Full)
  | preemptd (f : Full)
  | brkpt (f : Full)
  | leave (f : Full)
  | endlv (f : Full)
  | evph (f : Full)
  | evphSet (f : Full)
  | restoreInterrupted (image : List (Nat × Byte)) (poison : List Nat) (bytes : Nat)
  | oromelPolicyKill (ctx : Nat)
deriving DecidableEq, Repr

end Sys2Proof
end

