-- ==== Sys2Proof/Machine/Shape.lean ====
section
/-! DEFINITION. What each full instruction does with its fields: the encoding tables of R277 to R303, R307 to R326, R332 to
R352, R367 and R381 as data, the reason codes of an illegal encoding (R457), and the register operands of stage 3 (R453). -/

namespace Sys2Proof

/-- TYPE code to suffix (R265). -/
def Ty.ofCode (n : Nat) : Ty :=
  [Ty.b32, .s32, .n32, .b64, .s64, .n64, .s16, .n16, .s8, .n8, .f64, .f32, .f16, .bf16, .f8, .s4].getD n .b32

/-- Suffix to TYPE code (R265). -/
def Ty.code : Ty → Nat
  | .b32 => 0 | .s32 => 1 | .n32 => 2 | .b64 => 3 | .s64 => 4 | .n64 => 5 | .s16 => 6 | .n16 => 7
  | .s8 => 8 | .n8 => 9 | .f64 => 10 | .f32 => 11 | .f16 => 12 | .bf16 => 13 | .f8 => 14 | .s4 => 15

/-- Width in bits (R265). -/
def Ty.bits : Ty → Nat
  | .b32 | .s32 | .n32 | .f32 => 32 | .b64 | .s64 | .n64 | .f64 => 64
  | .s16 | .n16 | .f16 | .bf16 => 16 | .s8 | .n8 | .f8 => 8 | .s4 => 4

def Ty.is64 (t : Ty) : Bool := t.bits == 64

def Ty.signed : Ty → Bool
  | .s32 | .s64 | .s16 | .s8 | .s4 => true
  | _ => false

def Ty.isFloat : Ty → Bool
  | .f64 | .f32 | .f16 | .bf16 | .f8 => true
  | _ => false

/-- Bytes of a width form (R332). -/
def Width.bytes : Width → Nat
  | .b1 => 1 | .b2 => 2 | .b4 => 4 | .b8 => 8 | .b16 => 16

/-- The number w of a width form (R332). -/
def Width.code : Width → Nat
  | .b1 => 0 | .b2 => 1 | .b4 => 2 | .b8 => 3 | .b16 => 4

def Width.ofCode (n : Nat) : Width := [Width.b1, .b2, .b4, .b8, .b16].getD n .b1

/-- The instruction classes of R75, in the order of R456. -/
inductive Cls
  | scalar | vector | memory | copy | pattern | matrix
deriving DecidableEq, Repr

def Cls.code : Cls → Nat
  | .scalar => 0 | .vector => 1 | .memory => 2 | .copy => 3 | .pattern => 4 | .matrix => 5

/-- How wide a register operand is: a count of registers, or the width of the TYPE. -/
inductive OpW
  | one | two | four | ty
deriving DecidableEq, Repr

/-- What an operand field D, A or C holds (R275). -/
inductive Use
  | no
  | rd (w : OpW) | wr (w : OpW) | rw (w : OpW)
  /-- v0 to v15, checked at decode (R276) -/
  | tagRd | tagWr | tagRw
  /-- a register group vN.. with N a multiple of its size, v only (R336, R381); read or read and written -/
  | quadRd | grpRw (n : Nat)
  /-- data of a width form (R332) -/
  | stData (w : Width) | ldDest (w : Width)
  /-- a number held in the field -/
  | num (lo hi : Nat)
  /-- a copy tag held in the field, or with S a register (R342) -/
  | tagOrReg
  /-- a plane count held in the field, or with S a register (R338) -/
  | depthOrReg
  /-- a special register number (R264) -/
  | sregRd | sregWr
deriving DecidableEq, Repr

/-- What operand B holds. -/
inductive BUse
  | no
  | value (w : OpW)
  /-- an integer whatever the TYPE (R262) -/
  | int
  /-- a register only -/
  | reg
  | num (hi : Nat)
  | memDisp
  | jump
  /-- an immediate or a literal (movi) -/
  | immOnly
  /-- `mrst.off`: B 0 with IB 1 -/
  | disarm
deriving DecidableEq, Repr

inductive PdUse
  | none | any | must
deriving DecidableEq, Repr

inductive SUse
  | zero | any | one
deriving DecidableEq, Repr

inductive ExtUse
  | none
  /-- binary8 variant with TYPE 14 -/
  | b8
  /-- the operation code of a reduction -/
  | redop
  | upTo (hi : Nat)
  | all
  /-- bit 59 only, with S 1 (R342) -/
  | gbar
deriving DecidableEq, Repr

inductive ModUse
  /-- the bits that may be set; with `b8`, bit 3 as well for TYPE 14 -/
  | mask (m : Nat) (b8 : Bool)
  | scope | barScope
  /-- `hitch.each`: bits 3:2 from 1 to 3 -/
  | each
  /-- `lpf`: 0 to 2 -/
  | level
deriving DecidableEq, Repr

structure Shape where
  d : Use := .no
  a : Use := .no
  b : BUse := .no
  c : Use := .no
  tys : List Ty := [.b32]
  mod : ModUse := .mask 0 false
  pd : PdUse := .none
  ext : ExtUse := .none
  s : SUse := .zero
  cls : Cls := .scalar
  /-- the cross-lane class of R40 -/
  cross : Bool := false
deriving DecidableEq, Repr

def setI : List Ty := [.s32, .n32, .s64, .n64, .s16, .n16, .s8, .n8]
def setX : List Ty := [.b32, .s32, .n32, .b64, .s64, .n64, .s16, .n16, .s8, .n8]
def setF : List Ty := [.f64, .f32, .f16, .bf16]
def setM : List Ty := [.s8, .n8, .f32, .f16, .bf16, .f8, .s4]

def Width.tys : Width → List Ty
  | .b1 => [.s8, .n8, .f8] | .b2 => [.s16, .n16, .f16, .bf16] | .b4 => [.b32, .s32, .n32, .f32]
  | .b8 => [.b64, .s64, .n64, .f64] | .b16 => [.b64]

/-- D; A; B value, all of the TYPE's width. -/
def shBin (tys : List Ty) : Shape := { d := .wr .ty, a := .rd .ty, b := .value .ty, tys := tys }
/-- D; A, of the TYPE's width. -/
def shUn (tys : List Ty) : Shape := { d := .wr .ty, a := .rd .ty, tys := tys }
/-- A device memory operand in A, C and B (R269). -/
def shMem : Shape := { a := .rd .two, b := .memDisp, c := .rd .one }
/-- A scratchpad operand in A, C and B (R269). -/
def shPad : Shape := { a := .rd .one, b := .memDisp, c := .rd .one, cls := .memory }
def satMod : ModUse := .mask 4 false
def arithMod : ModUse := .mask 7 false

/-- Integer, bit and address instructions, 0x000 to 0x02A (R277 to R281). -/
def shapeInt (op : Nat) : Option Shape :=
  if op ≤ 0x001 then some { shBin setI with mod := satMod }
  else if op ≤ 0x003 then
    some { shBin [.s32, .n32, .s64, .n64] with c := .num 0 7, pd := .any, s := .any }
  else if op = 0x004 then some { shBin setI with mod := satMod }
  else if op = 0x005 then some (shBin setI)
  else if op = 0x006 then some { d := .wr .two, a := .rd .one, b := .value .one, tys := [.s32, .n32] }
  else if op = 0x007 then some { shBin setI with c := .rd .ty, mod := satMod }
  else if op = 0x008 then some { shBin setI with c := .rd .ty }
  else if op = 0x009 then
    some { d := .wr .two, a := .rd .one, b := .value .one, c := .rd .two, tys := [.s32, .n32] }
  else if op ≤ 0x00D then some (shBin setI)
  else if op ≤ 0x00F then some { shUn setI with mod := satMod }
  else if op ≤ 0x015 then some { a := .rd .ty, b := .value .ty, tys := setX, pd := .any }
  else if op = 0x016 then some { shBin [.b32, .b64] with c := .num 0 7 }
  else if op = 0x017 then some { shBin setI with c := .rd .ty }
  else if op ≤ 0x01A then some (shBin setX)
  else if op = 0x01B then some (shUn setX)
  else if op = 0x01C then some { shBin [.b32, .b64] with c := .rd .ty, mod := .mask 15 false, ext := .all }
  else if op ≤ 0x021 then some (shBin setX)
  else if op = 0x022 then some { shBin setX with c := .rd .ty }
  else if op ≤ 0x026 then some (shUn setX)
  else if op = 0x027 then some { d := .wr .two, a := .rd .one, b := .value .two, tys := [.b64] }
  else if op = 0x028 then some { d := .wr .two, a := .rd .two, b := .value .one, tys := [.b64] }
  else if op = 0x029 then some { d := .wr .two, a := .rd .two, tys := [.b64] }
  else if op = 0x02A then some { d := .wr .one, a := .rd .two }
  else none

/-- Floating, conversion, special-function and planar-register instructions, 0x040 to 0x076 (R282 to R293). -/
def shapeFloat (op : Nat) : Option Shape :=
  let sh : Option Shape :=
    if op ≤ 0x042 then some { shBin setF with mod := arithMod }
    else if op = 0x043 then some { shBin setF with c := .rd .ty, mod := arithMod }
    else if op = 0x044 then some { shBin setF with mod := arithMod }
    else if op ≤ 0x047 then some { shUn setF with mod := arithMod }
    else if op ≤ 0x049 then some (shBin setF)
    else if op ≤ 0x04B then some { shUn setF with mod := .mask 15 false }
    else if op ≤ 0x053 then some { a := .rd .ty, b := .value .ty, tys := setF, pd := .any }
    else if op = 0x054 then
      some { d := .wr .one, a := .rd .ty, tys := setF ++ [.f8], mod := .mask 0 true, ext := .b8 }
    else if op = 0x055 then some { shUn setF with mod := arithMod }
    else if op = 0x056 then
      some { d := .rw .one, a := .rd .one, b := .value .one, c := .num 0 3,
             tys := [.s16, .n16, .s8, .n8, .f16, .bf16, .f8, .s4], mod := .mask 7 true, ext := .b8 }
    else if op = 0x057 then
      some { d := .wr .one, a := .rd .one, c := .num 0 7,
             tys := [.s16, .n16, .s8, .n8, .f16, .bf16, .f8, .s4], mod := .mask 0 true, ext := .b8 }
    else if op ≤ 0x05F then some { d := .wr .one, a := .rd .one, tys := [.f32] }
    else if op ≤ 0x06F then
      some { d := .wr .ty, a := .rd (if (Ty.ofCode (op - 0x060)).is64 then .two else .one), c := .num 0 255,
             tys := setX ++ setF ++ [.f8, .s4], mod := .mask 7 true, ext := .b8 }
    else if op = 0x070 then some { shMem with s := .any }
    else if op = 0x071 then some { b := .value .one }
    else if op = 0x072 then
      some { d := .tagWr, a := .rd .one, b := .int, tys := [.f32, .f16, .bf16], s := .any, cross := true }
    else if op = 0x073 then some { d := .wr .one, a := .tagRd, tys := [.f32], mod := arithMod }
    else if op = 0x074 then some { d := .wr .one, a := .tagRd }
    else if op = 0x075 then some { d := .tagWr, a := .rd .one }
    else if op = 0x076 then some { d := .tagWr, a := .tagRd, b := .value .one }
    else none
  sh.map fun s => { s with cls := .vector }

/-- Cross-lane, move and predicate instructions, 0x080 to 0x099 (R295, R301). -/
def shapeLane (op : Nat) (s : Bool) (ext : Nat) : Option Shape :=
  let v (x : Shape) : Option Shape := some { x with cls := .vector, cross := true }
  if op = 0x080 then v { b := .value .one }
  else if op = 0x081 then some { cross := true }
  else if op ≤ 0x084 then v { a := .num 0 7, pd := .any }
  else if op = 0x085 then v { d := .wr .one, a := .num 0 7 }
  else if op ≤ 0x089 then v { shBin [.b32, .b64] with pd := .any }
  else if op = 0x08A then v { shUn setI with mod := satMod, ext := .redop }
  else if op = 0x08B then v { shUn setF with mod := arithMod, ext := .redop }
  else if op = 0x08C then v { shUn setI with mod := satMod, ext := .redop, s := .any }
  else if op = 0x08D then v { shUn setF with mod := arithMod, ext := .redop, s := .any }
  else if op ≤ 0x08F then
    v { d := .rw .ty, a := .rd .ty, b := .int, tys := setI ++ setF, pd := .any }
  else if op = 0x090 then
    if s then v { d := .wr .ty, a := .rd .ty, b := .reg, tys := [.b32, .b64], s := .any }
    else v { d := .wr .ty, a := .rd .ty, b := .reg, tys := [.s32, .n32, .s64, .n64] ++ setF, mod := arithMod, s := .any }
  else if op = 0x091 then some (shUn [.b32, .b64])
  else if op = 0x092 then
    some { d := .wr .ty, b := .immOnly, tys := [.b32, .s32, .n32, .b64, .s64, .n64, .f64, .f32] }
  else if op = 0x093 then some { d := .wr .one, a := .sregRd }
  else if op = 0x094 then some { d := .sregWr, a := .rd .one }
  else if op ≤ 0x097 then some { a := .num 0 7, b := .num 7, pd := .any, ext := .upTo 3 }
  else if op = 0x098 then some { a := .num 0 7, pd := .any }
  else if op = 0x099 then
    if s then
      if ext = 1 then some { a := .rd .one, s := .one, ext := .upTo 1 }
      else some { d := .wr .one, s := .one, ext := .upTo 0 }
    else some { a := .num 0 7, pd := .any, ext := .upTo 1 }
  else none

/-- Control, synchronisation, ring, task and launch instructions, 0x0A0 to 0x0C5 (R307 to R319). -/
def shapeCtl (op : Nat) : Option Shape :=
  let ring (k : Nat) : Option Shape :=
    if k = 0 then some { a := .rd .one, b := .value .one, c := .rd .one }
    else if k = 1 ∨ k = 4 then some { d := .wr .one, a := .rd .one }
    else if k = 2 ∨ k = 5 then some { d := .wr .one, a := .rd .one, pd := .must }
    else some { a := .rd .one, b := .value .one }
  if op = 0x0A0 then some { b := .jump }
  else if op = 0x0A1 then some { a := .rd .two }
  else if op = 0x0A2 then some { d := .wr .two, b := .jump }
  else if op = 0x0A3 then some { d := .wr .two, a := .rd .two }
  else if op = 0x0A4 then some { a := .rd .two }
  else if op = 0x0A5 then some {}
  else if op = 0x0A6 then some { b := .jump, c := .num 0 64, cross := true }
  else if op = 0x0A7 then some { a := .rd .one, b := .jump }
  else if op ≤ 0x0A9 then some {}
  else if op = 0x0AA then some { d := .num 0 63, a := .num 0 63, b := .num 63, c := .num 0 15 }
  else if op ≤ 0x0AC then some { b := .value .ty, tys := [.b32, .b64] }
  else if op = 0x0AD then some { d := .wr .one, b := .value .ty, tys := [.b32, .b64], pd := .any }
  else if op = 0x0AE then some { mod := .scope }
  else if op = 0x0AF then some { a := .rd .one, b := .value .one, mod := .barScope }
  else if op = 0x0B0 then some { d := .wr .one, a := .rd .one, mod := .barScope }
  else if op = 0x0B1 then some { a := .rd .one, b := .value .one, mod := .barScope }
  else if op = 0x0B2 then some { a := .rd .one, b := .value .one, mod := .barScope, s := .any }
  else if op = 0x0B3 then some { a := .rd .one, b := .value .one, mod := .barScope }
  else if op ≤ 0x0BA then ring (op - 0x0B4)
  else if op ≤ 0x0C1 then ring (op - 0x0BB)
  else if op = 0x0C3 then some { shMem with d := .rd .two }
  else if op ≤ 0x0C5 then some shMem
  else none

/-- Memory, planar memory, atomic and hitch instructions, 0x0D0 to 0x10F (R332 to R341). -/
def shapeMem (op : Nat) : Option Shape :=
  let dev (x : Shape) : Option Shape :=
    some { x with a := .rd .two, b := .memDisp, c := .rd .one, cls := .memory }
  let width (k : Nat) : Width := Width.ofCode (k % 5)
  let wty (k : Nat) : List Ty := (width k).tys
  let atomTy (i : Nat) : List Ty :=
    if i ≤ 2 then [.s32, .n32, .s64, .n64] else if i ≤ 5 then [.b32, .b64]
    else if i ≤ 7 then [.n32, .n64] else if i ≤ 10 then [.f64, .f32] else [.b32, .b64]
  let planar (x : Shape) : Option Shape :=
    some { x with a := .rd .one, b := .value .one, c := .depthOrReg, s := .any, cls := .memory }
  if op ≤ 0x0D4 then dev { d := .ldDest (width (op - 0x0D0)), tys := wty (op - 0x0D0), ext := .b8 }
  else if op ≤ 0x0D9 then dev { d := .stData (width (op - 0x0D5)), tys := wty (op - 0x0D5), ext := .b8 }
  else if op ≤ 0x0DE then some { shPad with d := .ldDest (width (op - 0x0DA)), tys := wty (op - 0x0DA), ext := .b8 }
  else if op ≤ 0x0E3 then some { shPad with d := .stData (width (op - 0x0DF)), tys := wty (op - 0x0DF), ext := .b8 }
  else if op ≤ 0x0E8 then some { shPad with d := .ldDest (width (op - 0x0E4)), tys := wty (op - 0x0E4), ext := .b8 }
  else if op ≤ 0x0ED then some { shPad with d := .stData (width (op - 0x0E9)), tys := wty (op - 0x0E9), ext := .b8 }
  else if op = 0x0EE then planar { d := .tagWr }
  else if op = 0x0EF then planar { d := .tagRw, pd := .any }
  else if op = 0x0F0 then planar { d := .tagRd }
  else if op = 0x0F1 then planar { d := .tagRd, pd := .any }
  else if op ≤ 0x0FC then dev { d := .rd .ty, tys := atomTy (op - 0x0F2), mod := .scope }
  else if op ≤ 0x108 then dev { d := .rw .ty, tys := atomTy (op - 0x0FD), mod := .scope }
  else if op = 0x109 then dev { d := .grpRw 2, tys := [.b32, .b64], mod := .scope, pd := .any }
  else if op = 0x10A then dev { d := .rd .one, mod := .mask 3 false, ext := .all, pd := .must }
  else if op = 0x10B then dev { d := .rd .one, mod := .each, ext := .all, pd := .must }
  else if op ≤ 0x10D then some shPad
  else if op = 0x10E then some { shPad with d := .rd .one, pd := .any }
  else if op = 0x10F then dev { mod := .level }
  else none

/-- Copy, transform, lease and near-memory instructions, 0x120 to 0x12C (R342 to R352). -/
def shapeCopy (op : Nat) : Option Shape :=
  let job (d a : Use) : Option Shape :=
    some { d := d, a := a, b := .value .one, c := .tagOrReg, mod := .scope, pd := .any, ext := .gbar, s := .any }
  let sh : Option Shape :=
    if op = 0x120 then job (.rd .two) (.rd .two)
    else if op = 0x121 then job (.rd .one) (.rd .two)
    else if op = 0x122 then job (.rd .two) (.rd .one)
    else if op = 0x123 then job (.rd .one) (.rd .one)
    else if op = 0x124 then job (.num 0 3) (.rd .two)
    else if op ≤ 0x126 then job (.rd .one) (.rd .two)
    else if op = 0x127 then job (.num 0 3) (.rd .two)
    else if op = 0x128 then job (.rd .two) (.rd .two)
    else if op = 0x129 then some { d := .wr .one, a := .rd .one, b := .value .one, pd := .must }
    else if op = 0x12A then some { d := .wr .two, a := .rd .one, pd := .any }
    else if op = 0x12B then some { a := .rd .one }
    else if op = 0x12C then some { a := .rd .two, b := .memDisp, c := .rd .one, mod := .scope }
    else none
  sh.map fun s => { s with cls := .copy }

/-- Matrix instructions, 0x150 to 0x161 (R381). -/
def shapeMat (op : Nat) (s : Bool) : Option Shape :=
  let m8 : ModUse := .mask 0 true
  let setT : List Ty := [.s8, .n8, .f32, .f16, .bf16, .f8]
  let setA : List Ty := [.b32, .s32, .s8, .n8, .f32, .f16, .bf16, .f8]
  let tile : Use := .num 0 15
  let acc : Use := .num 0 7
  let sh : Option Shape :=
    if op = 0x150 then
      if s then some { d := tile, a := .rd .one, b := .value .one, c := .num 1 24, s := .any }
      else some { d := tile, a := .rd .two, b := .value .one, tys := setM, mod := m8, ext := .b8, s := .any }
    else if op = 0x151 then some { d := tile, a := .rd .one, b := .value .one, tys := setM, mod := m8, ext := .b8 }
    else if op = 0x152 then some { d := tile, a := .rd .two, b := .value .one, tys := setT, mod := m8, ext := .b8 }
    else if op = 0x153 then some { d := tile, a := .rd .two, b := .value .one }
    else if op = 0x154 then some { d := tile, a := .rd .one, b := .value .one }
    else if op = 0x155 then
      if s then some { d := tile, s := .any }
      else some { d := tile, tys := setM, mod := m8, ext := .b8, s := .any }
    else if op = 0x156 then some { d := acc, a := tile, b := .num 15, c := .num 0 3, mod := satMod }
    else if op = 0x157 then some { d := acc, a := .quadRd, b := .value .one, c := .quadRd, mod := satMod }
    else if op ≤ 0x159 then some { d := acc, b := .value .one, c := .quadRd, mod := arithMod }
    else if op = 0x15A then
      if s then some { b := .disarm, s := .any } else some { b := .jump, s := .any }
    else if op = 0x15B then some { d := acc }
    else if op = 0x15C then some { d := acc, a := .rd .two, b := .value .one }
    else if op = 0x15D then some { d := acc, a := .rd .one, b := .value .one }
    else if op = 0x15E then some { d := acc, a := .rd .two, b := .value .one, tys := setA, mod := .mask 7 true, ext := .b8 }
    else if op = 0x15F then some { d := acc, a := .rd .one, b := .value .one, tys := setA, mod := .mask 7 true, ext := .b8 }
    else if op = 0x160 then
      if s then some { d := tile, a := acc, tys := setM, mod := .mask 7 true, ext := .b8, s := .any }
      else some { d := acc, a := acc, s := .any }
    else if op = 0x161 then some { d := tile, a := tile, b := .num 15, s := .any }
    else none
  sh.map fun x => { x with cls := .matrix, cross := true }

/-- Twill instructions, 0x190 to 0x195 (R367). -/
def shapeTwill (op : Nat) : Option Shape :=
  let ctx : ModUse := .mask 3 false
  let sh : Option Shape :=
    if op = 0x190 then some { shMem with d := .rd .one, mod := ctx }
    else if op ≤ 0x192 then some { d := .wr .two, b := .value .one, mod := ctx, pd := .any }
    else if op = 0x193 then some { d := .wr .two, mod := ctx, pd := .any }
    else if op ≤ 0x195 then some { shPad with mod := ctx }
    else none
  sh.map fun s => { s with cls := .pattern, cross := true }

/-- System instructions, 0x1B0 to 0x1B8 (R320). -/
def shapeSys (op : Nat) : Option Shape :=
  if op = 0x1B0 ∨ op = 0x1B5 ∨ op = 0x1B8 then some { b := .value .one }
  else if op = 0x1B1 then some { a := .rd .two }
  else if op ≤ 0x1B8 then some {}
  else none

/-- The shape of an opcode; `none` when it is unassigned (R271). -/
def shapeOf (op : Nat) (s : Bool) (ext : Nat) : Option Shape :=
  if op ≤ 0x02A then shapeInt op
  else if op < 0x040 then none
  else if op ≤ 0x076 then shapeFloat op
  else if op < 0x080 then none
  else if op ≤ 0x099 then shapeLane op s ext
  else if op < 0x0A0 then none
  else if op ≤ 0x0C5 then shapeCtl op
  else if op < 0x0D0 then none
  else if op ≤ 0x10F then shapeMem op
  else if op < 0x120 then none
  else if op ≤ 0x12C then shapeCopy op
  else if op < 0x150 then none
  else if op ≤ 0x161 then shapeMat op s
  else if op < 0x190 then none
  else if op ≤ 0x195 then shapeTwill op
  else if op < 0x1B0 then none
  else shapeSys op

/-- A full or long instruction as its fields stand in its parcels (R261, R263). -/
structure Raw where
  op : BitVec 9
  g : BitVec 3
  gn : Bool
  d : BitVec 8
  a : BitVec 8
  b : BitVec 8
  c : BitVec 8
  ty : BitVec 4
  mod : BitVec 4
  pd : BitVec 3
  ib : Bool
  ext : BitVec 4
  s : Bool
  long : Bool
  lit : Word
deriving DecidableEq, Repr

/-- Whether B may be a literal (R263). -/
def BUse.hasLong : BUse → Bool
  | .value _ | .int | .memDisp | .jump | .immOnly => true
  | .no | .reg | .num _ | .disarm => false

def Use.reasons (u : Use) (n : Nat) (s : Bool) : List Nat :=
  match u with
  | .no => if n = 0 then [] else [3]
  | .num lo hi => if lo ≤ n ∧ n ≤ hi then [] else [13]
  | .depthOrReg => if s ∨ (1 ≤ n ∧ n ≤ 24) then [] else [13]
  | _ => []

def BUse.reasons (u : BUse) (r : Raw) : List Nat :=
  if r.long ∧ u.hasLong then (if r.b = 0 ∧ r.ib = false then [] else [7])
  else (if r.long then [7] else []) ++
    match u with
    | .no => (if r.b = 0 ∧ r.ib = false then [] else [3])
    | .value _ | .int => []
    | .reg => if r.ib then [3] else []
    | .num hi => (if r.ib then [3] else []) ++ (if r.b.toNat ≤ hi then [] else [13])
    | .memDisp => if r.ib ∨ r.b = 0xF0 then [] else [14]
    | .jump => if r.ib then [] else [7]
    | .immOnly => if r.ib then [] else [15]
    | .disarm => if r.ib ∧ r.b = 0 then [] else [3]

def ModUse.reasons (u : ModUse) (m : Nat) (t : Ty) : List Nat :=
  match u with
  | .mask k b8 => if m &&& (15 - (k ||| (if b8 ∧ t = .f8 then 8 else 0))) = 0 then [] else [3]
  | .scope => if m ≤ 8 then [] else [5]
  | .barScope => if m = 3 ∨ m = 4 then [] else [5]
  | .each => if 4 ≤ m then [] else [3]
  | .level => if m ≤ 2 then [] else [3]

def ExtUse.reasons (u : ExtUse) (e : Nat) (t : Ty) (s : Bool) : List Nat :=
  match u with
  | .none => if e = 0 then [] else [3]
  | .b8 => if t = .f8 then (if e % 8 = 0 then [6] else []) else (if e = 0 then [] else [3])
  | .redop => if e ≤ (if t.isFloat then 2 else 5) then [] else [13]
  | .upTo hi => if e ≤ hi then [] else [3]
  | .all => []
  | .gbar => if e = 0 ∨ (e = 1 ∧ s) then [] else [3]

/-- The largest k of `cvtpk` and `cvtup` for a packed TYPE (R286). -/
def packMax (t : Ty) (up : Bool) : Nat :=
  let n := 32 / t.bits
  if up then n - 1 else n / 2 - 1

/-- Conditions that a field breaks beside its own shape: `iaddc` (R277), `cvt` (R285), `cvtpk` and `cvtup` (R286). -/
def extraReasons (r : Raw) : List Nat :=
  let op := r.op.toNat
  let c := r.c.toNat
  let t := Ty.ofCode r.ty.toNat
  if op = 0x002 ∨ op = 0x003 then (if r.s ∧ c ≠ 0 then [3] else [])
  else if op = 0x056 then (if c ≤ packMax t false then [] else [13])
  else if op = 0x057 then (if c ≤ packMax t true then [] else [13])
  else if op = 0x06E then (if c ≥ 32 then [3] else []) ++ (if c % 8 = 0 then [6] else [])
  else if 0x060 ≤ op ∧ op ≤ 0x06F then (if c = 0 then [] else [3])
  else []

/-- Every reason of R457 that a full or long encoding breaks. -/
def Raw.reasons (r : Raw) : List Nat :=
  match shapeOf r.op.toNat r.s r.ext.toNat with
  | none => [1]
  | some sh =>
    let ok : Bool := Ty.ofCode r.ty.toNat ∈ sh.tys
    -- TYPE 14 names a binary8 variant only where it is accepted (R148)
    let t := if ok then Ty.ofCode r.ty.toNat else .b32
    (if ok then [] else [4])
      ++ sh.d.reasons r.d.toNat r.s ++ sh.a.reasons r.a.toNat r.s ++ sh.c.reasons r.c.toNat r.s
      ++ sh.b.reasons r ++ sh.mod.reasons r.mod.toNat t ++ sh.ext.reasons r.ext.toNat t r.s
      ++ (match sh.pd with
          | .none => if r.pd = 7 then [] else [3]
          | .any => []
          | .must => if r.pd = 7 then [15] else [])
      ++ (match sh.s with
          | .zero => if r.s then [3] else []
          | .any => []
          | .one => if r.s then [] else [3])
      ++ extraReasons r

/-- The reason an illegal encoding reports: the lowest (R457); `none` for a legal one. -/
def Raw.reason? (r : Raw) : Option Nat :=
  match r.reasons with
  | [] => none
  | x :: xs => some (xs.foldl Nat.min x)

/-- How many registers an operand of a width names, for the TYPE. -/
def OpW.count (w : OpW) (t : Ty) : Nat :=
  match w with
  | .one => 1 | .two => 2 | .four => 4 | .ty => if t.is64 then 2 else 1

/-- Special register numbers that are 64 bits wide (R264). -/
def sreg64 (n : Nat) : Bool := n == 3 || n == 4 || n == 9 || n == 0xB

/-- A register operand that stage 3 checks: the field (0 D, 1 A, 2 B, 3 C), the operand number, how many registers it
covers, and what is done with it. -/
structure OpRef where
  field : Nat
  num : Nat
  count : Nat
  reads : Bool
  writes : Bool
  tagged : Bool := false
  /-- must be a v register (a register group of R336 or R381) -/
  vOnly : Bool := false
deriving DecidableEq, Repr

def Use.ref (u : Use) (field n : Nat) (t : Ty) (s : Bool) : List OpRef :=
  match u with
  | .rd w => [⟨field, n, w.count t, true, false, false, false⟩]
  | .wr w => [⟨field, n, w.count t, false, true, false, false⟩]
  | .rw w => [⟨field, n, w.count t, true, true, false, false⟩]
  | .tagRd => [⟨field, n, 1, true, false, true, false⟩]
  | .tagWr => [⟨field, n, 1, false, true, true, false⟩]
  | .tagRw => [⟨field, n, 1, true, true, true, false⟩]
  | .quadRd => [⟨field, n, 4, true, false, false, true⟩]
  | .grpRw k => [⟨field, n, k * (if t.is64 then 2 else 1), true, true, false, true⟩]
  | .stData w => [⟨field, n, if w = .b16 then 4 else if w = .b8 then 2 else 1, true, false, false, false⟩]
  | .ldDest w => [⟨field, n, if w = .b16 then 4 else if w = .b8 then 2 else 1, false, true, false, false⟩]
  | .tagOrReg | .depthOrReg => if s then [⟨field, n, 1, true, false, false, false⟩] else []
  | .no | .num _ _ | .sregRd | .sregWr => []

/-- The register operands of an instruction, in the order D, A, B, C (R453). -/
def opRefs (sh : Shape) (f : Full) : List OpRef :=
  let t := f.ty
  let dref : List OpRef :=
    if sh.a = .sregRd ∧ sreg64 f.a.toNat then [⟨0, f.d.toNat, 2, false, true, false, false⟩] else sh.d.ref 0 f.d.toNat t f.s
  let aref : List OpRef :=
    if sh.d = .sregWr ∧ sreg64 f.d.toNat then [⟨1, f.a.toNat, 2, true, false, false, false⟩] else sh.a.ref 1 f.a.toNat t f.s
  let bref : List OpRef :=
    match sh.b, f.b with
    | .value w, .num n => [⟨2, n.toNat, w.count t, true, false, false, false⟩]
    | .int, .num n => [⟨2, n.toNat, 1, true, false, false, false⟩]
    | .reg, .num n => [⟨2, n.toNat, 1, true, false, false, false⟩]
    | _, _ => []
  dref ++ aref ++ bref ++ sh.c.ref 3 f.c.toNat t f.s

/-- Whether an operand number may be used so under `NREG` (R264, R332, R336, R381). -/
def OpRef.ok (o : OpRef) (nreg : Nat) : Bool :=
  let v := decide (o.num < 0xC0)
  let inV := v && o.num % o.count == 0 && decide (o.num + o.count ≤ nreg)
  let inK := decide (0xC0 ≤ o.num ∧ o.num < 0xF0) && (o.num - 0xC0) % o.count == 0
  if o.tagged then decide (o.num < 16) && inV
  else if o.vOnly then inV
  else if o.num == 0xF0 then true
  else if o.writes then inV
  else inV || inK || (decide (0xF1 ≤ o.num ∧ o.num ≤ 0xFE) && decide (o.count ≤ 2))

/-- The first operand that fails stage 3: its field and operand number (R453, R456). `sbra` n above NREG (R309) and the
special register numbers of `rdsr` and `wrsr` (R302) are checked here as well. -/
def badOperand (sh : Shape) (f : Full) (op nreg : Nat) : Option (Nat × Nat) :=
  match (opRefs sh f).find? (fun o => !o.ok nreg) with
  | some o =>
    if sh.d = .sregWr ∧ ¬ (f.d.toNat ∈ [0, 1, 3, 8, 9, 0xA, 0xB]) then some (0, f.d.toNat) else some (o.field, o.num)
  | none =>
    if op = 0x0A6 ∧ nreg < f.c.toNat then some (3, f.c.toNat)
    else if sh.a = .sregRd ∧ 0xC ≤ f.a.toNat then some (1, f.a.toNat)
    else if sh.d = .sregWr ∧ ¬ (f.d.toNat ∈ [0, 1, 3, 8, 9, 0xA, 0xB]) then some (0, f.d.toNat)
    else none

/-- The operand form of B that the fields hold (R262, R263). -/
def Raw.bform (r : Raw) : BForm :=
  if r.long then .lit r.lit else if r.ib then .imm r.b else .num r.b

/-- The fields of a raw instruction. -/
def Raw.full (r : Raw) : Full :=
  { g := r.g, gn := r.gn, d := r.d, a := r.a, b := r.bform, c := r.c, ty := Ty.ofCode r.ty.toNat, mod := r.mod,
    pd := r.pd, ext := r.ext, s := r.s }

/-- The raw instruction of an opcode and its fields. -/
def Full.raw (op : Nat) (f : Full) : Raw :=
  let base : Raw :=
    { op := BitVec.ofNat 9 op, g := f.g, gn := f.gn, d := f.d, a := f.a, b := 0, c := f.c,
      ty := BitVec.ofNat 4 f.ty.code, mod := f.mod, pd := f.pd, ib := false, ext := f.ext, s := f.s, long := false, lit := 0 }
  match f.b with
  | .num n => { base with b := n }
  | .imm n => { base with b := n, ib := true }
  | .lit w => { base with long := true, lit := w }

end Sys2Proof
end

