-- ==== Sys2Proof/Machine/Num.lean ====
section
/-! DEFINITION. Numbers: two's complement and exact dyadic values, the IEEE and binary8 formats (R145 to R149), rounding (R154),
conversions (R156 to R158), arithmetic with its flags (R161 to R163) and reductions (R298). -/

namespace Sys2Proof

/-- `trunc(x, n)` of R10. -/
def truncI (x : Int) (n : Nat) : Nat := (x % (2 ^ n : Nat)).toNat
/-- `sext(x, n)` of R10, of the low n bits. -/
def sextN (x n : Nat) : Int := let y := x % 2 ^ n; if y < 2 ^ (n - 1) then y else (y : Int) - (2 ^ n : Nat)
/-- `clamp` of R10. -/
def clampI (x lo hi : Int) : Int := if x < lo then lo else if hi < x then hi else x
/-- `bits(x, hi, lo)` of R10. -/
def bitsN (x hi lo : Nat) : Nat := x / 2 ^ lo % 2 ^ (hi + 1 - lo)
/-- Bit k of x. -/
def bitN (x k : Nat) : Nat := x / 2 ^ k % 2

/-- Flags of `$fstat` (R159) as a mask. -/
abbrev Flg := Nat
def flNV : Flg := 1
def flDZ : Flg := 2
def flOF : Flg := 4
def flUF : Flg := 8
def flNX : Flg := 16
def flS4 : Flg := 32

/-- An exact value: NaN (signalling or not), an infinity, or (−1)^neg × m × 2^e. -/
inductive FVal
  | nan (sig : Bool)
  | inf (neg : Bool)
  | fin (neg : Bool) (m : Nat) (e : Int)
deriving DecidableEq, Repr

/-- A floating format: IEEE with fraction and exponent widths, or binary8 of a precision and variant (R145, R147). -/
inductive FFmt
  | ieee (t w : Nat)
  | b8 (p : Nat) (uns inf : Bool)
deriving DecidableEq, Repr

def FFmt.f64 : FFmt := .ieee 52 11
def FFmt.f32 : FFmt := .ieee 23 8
def FFmt.f16 : FFmt := .ieee 10 5
def FFmt.bf16 : FFmt := .ieee 7 8

/-- Fraction width T. -/
def FFmt.frac : FFmt → Nat | .ieee t _ => t | .b8 p _ _ => p - 1
/-- Exponent bias. -/
def FFmt.bias : FFmt → Nat | .ieee _ w => 2 ^ (w - 1) - 1 | .b8 p u _ => 2 ^ (if u then 8 - p else 7 - p)
/-- Exponent of the smallest normal. -/
def FFmt.emin (f : FFmt) : Int := 1 - (f.bias : Int)
/-- The greatest code of a finite magnitude. -/
def FFmt.maxCode : FFmt → Nat
  | .ieee t w => (2 ^ w - 1) * 2 ^ t - 1
  | .b8 _ u i => if u then (if i then 0xFD else 0xFE) else (if i then 0x7E else 0x7F)
def FFmt.hasInf : FFmt → Bool | .ieee _ _ => true | .b8 _ _ i => i
def FFmt.signBit : FFmt → Nat | .ieee t w => 2 ^ (t + w) | .b8 _ _ _ => 0x80
/-- The canonical NaN (R145, R155). -/
def FFmt.nan : FFmt → Nat
  | .ieee t w => (2 ^ w - 1) * 2 ^ t + 2 ^ (t - 1)
  | .b8 _ u _ => if u then 0xFF else 0x80

/-- A pattern of a magnitude code and a sign; binary8 has no negative zero. -/
def FFmt.withSign (f : FFmt) (neg : Bool) (code : Nat) : Nat :=
  match f with
  | .ieee _ _ => if neg then code + f.signBit else code
  | .b8 _ u _ => if neg && !u && code != 0 then code + 0x80 else code
def FFmt.infPat (f : FFmt) (neg : Bool) : Nat :=
  match f with
  | .ieee t w => f.withSign neg ((2 ^ w - 1) * 2 ^ t)
  | .b8 _ u _ => if u then 0xFE else if neg then 0xFF else 0x7F

/-- The value of a magnitude code: m and e. -/
def FFmt.codeVal (f : FFmt) (code : Nat) : Nat × Int :=
  let t := f.frac
  let x := code / 2 ^ t
  let fr := code % 2 ^ t
  if x = 0 then (fr, f.emin - t) else (2 ^ t + fr, f.emin - t + (x - 1 : Nat))

/-- `decode(p, f)` of R10 (R145, R147). -/
def FFmt.decode (f : FFmt) (p : Nat) : FVal :=
  match f with
  | .ieee t w =>
    let neg := bitN p (t + w) == 1
    let code := p % 2 ^ (t + w)
    if code / 2 ^ t = 2 ^ w - 1 then
      (if code % 2 ^ t = 0 then .inf neg else .nan (bitN p (t - 1) == 0))
    else let v := f.codeVal code; .fin neg v.1 v.2
  | .b8 _ u i =>
    let p := p % 256
    if u then
      if p = 0xFF then .nan false else if i ∧ p = 0xFE then .inf false
      else let v := f.codeVal p; .fin false v.1 v.2
    else
      if p = 0x80 then .nan false
      else if i ∧ p = 0x7F then .inf false else if i ∧ p = 0xFF then .inf true
      else let v := f.codeVal (p % 128); .fin (decide (128 ≤ p)) v.1 v.2

/-- Whether to round up a truncated magnitude: mode (R153), sign, odd low bit, discarded part against one half (0 none, 1
below, 2 equal, 3 above). -/
def roundUp (mode : Nat) (neg odd : Bool) (rest : Nat) : Bool :=
  match mode with
  | 0 => rest == 3 || (rest == 2 && odd)
  | 1 => false
  | 2 => rest != 0 && !neg
  | _ => rest != 0 && neg

/-- m × 2^e (and a little more when sticky) as a multiple of 2^q, rounded; and whether it is inexact. `base` is what the quotient is
added to in its code: a tie goes to the even code (log 27). -/
def roundAt (mode : Nat) (neg : Bool) (m : Nat) (e q : Int) (sticky : Bool) (base : Nat := 0) : Nat × Bool :=
  if q ≤ e then (m * 2 ^ (e - q).toNat, sticky)
  else
    let k := (q - e).toNat
    let n := m / 2 ^ k
    let r := m % 2 ^ k
    let half := 2 ^ (k - 1)
    let rest : Nat :=
      if r = 0 ∧ ¬ sticky then 0 else if r < half then 1 else if r = half ∧ ¬ sticky then 2 else 3
    (if roundUp mode neg ((n + base) % 2 == 1) rest then n + 1 else n, rest != 0)

/-- Result of an overflow (R154, R157). -/
def overflowPat (f : FFmt) (mode : Nat) (sat neg : Bool) : Nat :=
  let maxp := f.withSign neg f.maxCode
  if sat then maxp
  else
    let toInf := match mode with | 0 => true | 1 => false | 2 => !neg | _ => neg
    if toInf then (if f.hasInf then f.infPat neg else f.nan) else maxp

/-- `round` of a finite exact value (R154, R157): pattern and flags. With `sticky` the value lies a little above m × 2^e, and
m must then hold more bits than the format. -/
def roundFin (f : FFmt) (mode : Nat) (sat neg : Bool) (m : Nat) (e : Int) (sticky : Bool := false) : Nat × Flg :=
  if m = 0 then (f.withSign neg 0, 0)
  else
    let t : Int := f.frac
    let mode := match f with | .ieee _ _ => mode | .b8 _ _ _ => 0
    match f with
    | .b8 _ true _ => if neg then (if sat then 0 else 0xFF, flNV) else go f mode sat false m e sticky t
    | _ => go f mode sat neg m e sticky t
where
  go (f : FFmt) (mode : Nat) (sat neg : Bool) (m : Nat) (e : Int) (sticky : Bool) (t : Int) : Nat × Flg :=
    let top : Int := e + (Nat.log2 m : Nat)
    let q := max top f.emin - t
    let base (q : Int) : Nat := ((q + t - f.emin) % 2).toNat * 2 ^ f.frac
    let (n, nx) := roundAt mode neg m e q sticky (base q)
    let code : Nat := n + ((q + t - f.emin).toNat) * 2 ^ f.frac
    if f.maxCode < code then (overflowPat f mode sat neg, flOF ||| flNX)
    else
      let un := roundAt mode neg m e (top - t) sticky (base (top - t))
      let tiny : Bool := nx && decide (top < f.emin) &&
        decide (¬ (un.1 = 2 ^ (f.frac + 1) ∧ top + 1 = f.emin))
      (f.withSign neg code, (if nx then flNX else 0) ||| (if tiny then flUF else 0))

/-- `round` of any value, an operand's infinity or NaN included (R154, R155, R157): no flag for a quiet NaN. -/
def roundVal (f : FFmt) (mode : Nat) (sat : Bool) (v : FVal) : Nat × Flg :=
  match v with
  | .nan _ => (f.nan, 0)
  | .inf neg =>
    match f with
    | .b8 _ true i =>
      if neg then (if sat then 0 else 0xFF, flNV)
      else if sat then (f.maxCode, 0) else if i then (f.infPat false, 0) else (f.nan, flNV)
    | _ => if sat then (f.withSign neg f.maxCode, 0) else if f.hasInf then (f.infPat neg, 0) else (f.nan, flNV)
  | .fin neg m e => roundFin f mode sat neg m e

/-- Invalid for a signalling NaN operand (R155). -/
def sigFlg (v : FVal) : Flg := match v with | .nan true => flNV | _ => 0
def FVal.isNaN : FVal → Bool | .nan _ => true | _ => false
def FVal.isInf : FVal → Bool | .inf _ => true | _ => false
def FVal.isZero : FVal → Bool | .fin _ m _ => m == 0 | _ => false
def FVal.neg : FVal → FVal | .nan s => .nan s | .inf n => .inf !n | .fin n m e => .fin (!n) m e
def FVal.sign : FVal → Bool | .nan _ => false | .inf n => n | .fin n _ _ => n

/-- Signed mantissa at exponent q, for q at or below e. -/
def atExp (neg : Bool) (m : Nat) (e q : Int) : Int :=
  let x : Int := (m * 2 ^ (e - q).toNat : Nat)
  if neg then -x else x

/-- Exact sum of finite values; the sign of an exact zero sum by R161 and R298: −0 when every term is −0, or under RDN. -/
def finSum (mode : Nat) (ts : List (Bool × Nat × Int)) : FVal :=
  let q : Int := ts.foldl (fun q t => if t.2.1 = 0 then q else min q t.2.2) 0
  let s : Int := ts.foldl (fun s t => if t.2.1 = 0 then s else s + atExp t.1 t.2.1 t.2.2 q) 0
  if s = 0 then .fin (if ts.all (fun t => t.2.1 == 0 && t.1) then true else if ts.all (fun t => t.2.1 == 0 && !t.1) then false
                      else mode == 3) 0 0
  else .fin (decide (s < 0)) s.natAbs q

/-- Exact sum of any values (R298): NaN terms and opposite infinities. -/
def exactSum (mode : Nat) (vs : List FVal) : FVal × Flg :=
  let sig := vs.foldl (fun a v => a ||| sigFlg v) 0
  if vs.any FVal.isNaN then (.nan false, sig)
  else
    let pos := vs.any (· == .inf false)
    let neg := vs.any (· == .inf true)
    if pos && neg then (.nan false, flNV)
    else if pos then (.inf false, 0) else if neg then (.inf true, 0)
    else (finSum mode (vs.filterMap fun v => match v with | .fin n m e => some (n, m, e) | _ => none), 0)

/-- Exact product with the invalid case 0 × ∞ (R161). -/
def exactMul (a b : FVal) : FVal × Flg :=
  match a, b with
  | .nan _, _ | _, .nan _ => (.nan false, sigFlg a ||| sigFlg b)
  | .inf s, .inf t => (.inf (s != t), 0)
  | .inf s, .fin t m _ | .fin t m _, .inf s => if m = 0 then (.nan false, flNV) else (.inf (s != t), 0)
  | .fin s m e, .fin t n g => (.fin (s != t) (m * n) (e + g), 0)

def withFlg (r : Nat × Flg) (fl : Flg) : Nat × Flg := (r.1, r.2 ||| fl)

/-- `fadd` (R161); `fsub` negates the second operand, whose signalling NaN still counts. -/
def fAdd (f : FFmt) (mode : Nat) (sat : Bool) (a b : FVal) : Nat × Flg :=
  let (x, fl) := exactSum mode [a, b]
  withFlg (roundVal f mode sat x) fl
def fMul (f : FFmt) (mode : Nat) (sat : Bool) (a b : FVal) : Nat × Flg :=
  let (x, fl) := exactMul a b
  withFlg (roundVal f mode sat x) fl
/-- `ffma`: one rounding; 0 × ∞ is invalid even with a quiet NaN addend (R161). -/
def fFma (f : FFmt) (mode : Nat) (sat : Bool) (a b c : FVal) : Nat × Flg :=
  let (p, fl) := exactMul a b
  if p.isNaN then (f.nan, fl ||| sigFlg c)
  else
    let (x, fl2) := exactSum mode [p, c]
    withFlg (roundVal f mode sat x) (fl ||| fl2)

/-- A quotient with enough bits for one rounding: m, e and sticky. -/
def divParts (m n : Nat) (e g : Int) (bits : Nat) : Nat × Int × Bool :=
  let k := bits + Nat.log2 n + 2
  let x := m * 2 ^ k
  (x / n, e - g - (k : Nat), x % n != 0)

/-- `fdiv` (R161). -/
def fDiv (f : FFmt) (mode : Nat) (sat : Bool) (a b : FVal) : Nat × Flg :=
  match a, b with
  | .nan _, _ | _, .nan _ => (f.nan, sigFlg a ||| sigFlg b)
  | .inf _, .inf _ => (f.nan, flNV)
  | .inf s, .fin t _ _ => roundVal f mode sat (.inf (s != t))
  | .fin s _ _, .inf t => (f.withSign (s != t) 0, 0)
  | .fin s m e, .fin t n g =>
    if n = 0 then
      (if m = 0 then (f.nan, flNV) else withFlg (roundVal f mode sat (.inf (s != t))) flDZ)
    else if m = 0 then (f.withSign (s != t) 0, 0)
    else
      let (q, x, st) := divParts m n e g (f.frac + 4)
      roundFin f mode sat (s != t) q x st

/-- Integer square root, by bits from the top. -/
def isqrtTop (n : Nat) : Nat :=
  (List.range (Nat.log2 n / 2 + 1)).reverse.foldl (fun r i => if (r + 2 ^ i) * (r + 2 ^ i) ≤ n then r + 2 ^ i else r) 0

/-- `fsqrt` (R161). -/
def fSqrt (f : FFmt) (mode : Nat) (sat : Bool) (a : FVal) : Nat × Flg :=
  match a with
  | .nan _ => (f.nan, sigFlg a)
  | .inf true => (f.nan, flNV)
  | .inf false => roundVal f mode sat a
  | .fin s m e =>
    if m = 0 then (f.withSign s 0, 0)
    else if s then (f.nan, flNV)
    else
      let odd : Nat := if e % 2 = 0 then 0 else 1
      let k : Nat := 2 * (f.frac + 4)
      let x := m * 2 ^ (k + odd)
      let r := isqrtTop x
      roundFin f mode sat false r ((e - (k + odd : Nat)) / 2) (r * r != x)

/-- Comparison of two numeric values: −1, 0 or 1; −0 equals +0. -/
def fCmp (a b : FVal) : Int :=
  let key (v : FVal) (q : Int) : Int := match v with | .fin n m e => atExp n m e q | _ => 0
  match a, b with
  | .inf s, .inf t => if s = t then 0 else if s then -1 else 1
  | .inf s, _ => if s then -1 else 1
  | _, .inf t => if t then 1 else -1
  | .fin _ _ e, .fin _ _ g =>
    let q := min e g
    let x := key a q
    let y := key b q
    if x < y then -1 else if x = y then 0 else 1
  | _, _ => 0
/-- The order of R283: as `fCmp`, with −0 below +0. -/
def fLtZ (a b : FVal) : Bool :=
  let c := fCmp a b
  c == -1 || (c == 0 && a.isZero && b.isZero && a.sign && !b.sign)

/-- `fmin` and `fmax` (R283) on patterns: the operand's bit pattern, a returned NaN canonical. -/
def fMinMax (f : FFmt) (isMax : Bool) (p q : Nat) : Nat × Flg :=
  let a := f.decode p
  let b := f.decode q
  let fl := sigFlg a ||| sigFlg b
  if a.isNaN && b.isNaN then (f.nan, fl)
  else if a.isNaN then (q, fl) else if b.isNaN then (p, fl)
  else if isMax then (if fLtZ a b then q else p, fl) else (if fLtZ b a then q else p, fl)

/-- floor(log2) of a positive dyadic. -/
def flog2 (m : Nat) (e : Int) : Int := e + (Nat.log2 m : Nat)
/-- ulp exponent of a value whose floor(log2) is l (R162). -/
def ulpExp (f : FFmt) (l : Int) : Int := max l f.emin - f.frac

/-- |r − 1/y| ≤ ulp(1/y) for y = m × 2^e > 0 and a finite r ≥ 0. -/
def rcpWithin (f : FFmt) (r : Nat × Int) (m : Nat) (e : Int) : Bool :=
  let pow2 := m == 2 ^ Nat.log2 m
  let l : Int := if pow2 then -(flog2 m e) else -(flog2 m e) - 1
  let u := ulpExp f l
  -- |r·y − 1| ≤ 2^u · y, all scaled by 2^−q
  let q := min (min (r.2 + e) 0) (u + e)
  let ry : Int := (r.1 * m * 2 ^ (r.2 + e - q).toNat : Nat)
  let one : Int := (2 ^ (0 - q).toNat : Nat)
  let b : Int := (m * 2 ^ (u + e - q).toNat : Nat)
  decide (ry - one ≤ b ∧ one - ry ≤ b)

/-- A device value is taken where it is a finite non-negative pattern of the format that passes the check. -/
def takeFree (f : FFmt) (free exact : Nat) (ok : Nat × Int → Bool) : Nat :=
  if free ≤ f.maxCode ∧ ok (f.codeVal free) then free else exact

/-- `frcp` (R162). A quotient too large for every value within the bound is the infinity, or with `.sat` the largest finite number, and
sets no flag (log 82). -/
def fRcp (f : FFmt) (code : Nat) (sat : Bool) (p : Nat) : Nat × Flg :=
  match f.decode p with
  | .nan sg => (f.nan, if sg then flNV else 0)
  | .inf s => (f.withSign s 0, 0)
  | .fin s m e =>
    if m = 0 then withFlg (roundVal f 0 sat (.inf s)) flDZ
    else
      let (q, x, st) := divParts 1 m 0 e (f.frac + 4)
      let exact := (roundFin f 0 sat false q x st).1
      let mag := takeFree f (Config.frcpValue code p % f.signBit) exact (fun r => rcpWithin f r m e)
      (f.withSign s mag, 0)

/-- |r − 1/√y| ≤ ulp(1/√y). -/
def rsqWithin (f : FFmt) (r : Nat × Int) (m : Nat) (e : Int) : Bool :=
  let ll := flog2 m e
  let pow2 := m == 2 ^ Nat.log2 m
  let l : Int := if pow2 then -((ll + 1) / 2) else -(ll / 2 + 1)
  let u := ulpExp f l
  let q := min r.2 u
  let rv : Int := (r.1 * 2 ^ (r.2 - q).toNat : Nat)
  let uv : Int := (2 ^ (u - q).toNat : Nat)
  -- (rv ± uv)² · 2^(2q) · m · 2^e against 1
  let ex := 2 * q + e
  let cmp (x : Int) : Bool × Bool :=
    let y : Int := x * x * (m : Int)
    if 0 ≤ ex then (decide (y * (2 ^ ex.toNat : Nat) ≤ 1), decide (1 ≤ y * (2 ^ ex.toNat : Nat)))
    else let one : Int := (2 ^ (0 - ex).toNat : Nat); (decide (y ≤ one), decide (one ≤ y))
  let lo := rv - uv
  (decide (lo ≤ 0) || (cmp lo).1) && (cmp (rv + uv)).2

/-- `frsq` (R162). -/
def fRsq (f : FFmt) (code : Nat) (sat : Bool) (p : Nat) : Nat × Flg :=
  match f.decode p with
  | .nan sg => (f.nan, if sg then flNV else 0)
  | .inf true => (f.nan, flNV)
  | .inf false => (0, 0)
  | .fin s m e =>
    if m = 0 then (if s then withFlg (roundVal f 0 sat (.inf true)) flDZ else withFlg (roundVal f 0 sat (.inf false)) flDZ)
    else if s then (f.nan, flNV)
    else
      let odd : Nat := if e % 2 = 0 then 0 else 1
      let k : Nat := 2 * (f.frac + 8)
      -- 1/√(m·2^e): √(2^K / m') with m' = m · 2^odd and an even exponent
      let big := 2 ^ (2 * (Nat.log2 m + 2 + k))
      let r := isqrtTop (big / (m * 2 ^ odd))
      let exact := (roundFin f 0 sat false r (-(((e - (odd : Nat)) / 2)) - (Nat.log2 m + 2 + k : Nat)) true).1
      let mag := takeFree f (Config.frsqValue code p % f.signBit) exact (fun r => rsqWithin f r m e)
      (mag, 0)

/-! Fixed point with 160 fraction bits, for the bounds of R163. -/

def fxOne : Int := (2 ^ 160 : Nat)
def fxMul (a b : Int) : Int := a * b / fxOne
def fxDiv (a b : Int) : Int := if b = 0 then 0 else a * fxOne / b
/-- A finite value in fixed point. -/
def fxOf (neg : Bool) (m : Nat) (e : Int) : Int :=
  let k := e + 160
  let x : Int := if 0 ≤ k then (m * 2 ^ k.toNat : Nat) else (m / 2 ^ (-k).toNat : Nat)
  if neg then -x else x
def fxTwoPi : Int := 9182885614096437842769610399486622256908310048836
def fxLn2 : Int := 1013035739299659071135698605846798551586536899366
def fxLog2e : Int := 2108501164428393954197770173035669514763056903506
def fxTwoRtPi : Int := 1649128000240172121335468122222580532118151184855

/-- e^x for a fixed-point x in [−1, 1], by its series. -/
def fxExpSmall (x : Int) : Int :=
  ((List.range 48).foldl (fun (s, t) k => let t := fxMul t x / ((k + 1 : Nat) : Int); (s + t, t)) (fxOne, fxOne)).1
/-- 2^x as (fixed point in [1, 2), integer exponent). -/
def fxExp2 (x : Int) : Int × Int :=
  let n := x / fxOne
  (fxExpSmall (fxMul (x - n * fxOne) fxLn2), n)
/-- e^x in fixed point, for x ≤ 64. -/
def fxExp (x : Int) : Int :=
  let (m, n) := fxExp2 (fxMul x fxLog2e)
  if 0 ≤ n then m * (2 ^ n.toNat : Nat) else m / (2 ^ (-n).toNat : Nat)
/-- log2 of a fixed-point value in [1, 2). -/
def fxLog2 (m : Int) : Int :=
  ((List.range 80).foldl
    (fun (x, s) k =>
      let y := fxMul x x
      if 2 * fxOne ≤ y then (y / 2, s + (2 ^ (159 - k) : Nat)) else (y, s)) (m, (0 : Int))).2
def fxSin (x : Int) : Int :=
  let r0 := x % fxTwoPi
  let r := if fxTwoPi < 2 * r0 then r0 - fxTwoPi else r0
  let r2 := fxMul r r
  ((List.range 28).foldl
    (fun (s, t) k => let t := -(fxMul t r2) / (((2 * k + 2) * (2 * k + 3) : Nat) : Int); (s + t, t)) (r, r)).1
def fxErf (x : Int) : Int :=
  let a := if x < 0 then -x else x
  if 6 * fxOne ≤ a then (if x < 0 then -fxOne else fxOne)
  else
    let x2 := fxMul x x
    let s := ((List.range 160).foldl
      (fun (s, t) k => let t := -(fxMul t x2) / ((k + 1 : Nat) : Int); (s + t / ((2 * k + 3 : Nat) : Int), t)) (x, x)).1
    fxMul s fxTwoRtPi

/-- A fixed-point value rounded to FP32. -/
def fxRound (x : Int) (e : Int := 0) : Nat := (roundFin .f32 0 false (decide (x < 0)) x.natAbs (e - 160) true).1

/-- Whether an FP32 pattern lies within `tol` (fixed point) of a fixed-point value. -/
def fxWithin (p : Nat) (x tol : Int) : Bool :=
  match FFmt.f32.decode p with
  | .fin n m e => let r := fxOf n m e; decide (r - x ≤ tol ∧ x - r ≤ tol)
  | _ => false

/-- `sfn` (R163): function 0 EX2, 1 LG2, 2 SIN, 3 COS, 4 TANH, 5 SIGM, 6 ERF. The device's value stands where it lies
within the stated bound of the function, else the value of the bound's centre; above every number EX2 is the infinity (log 82). -/
def sfn (fn p : Nat) : Nat × Flg :=
  let f := FFmt.f32
  let free := Config.sfnValue fn p % 2 ^ 32
  let one := 0x3F800000
  match f.decode p with
  | .nan sg => (f.nan, if sg then flNV else 0)
  | .inf neg =>
    match fn with
    | 0 => (if neg then 0 else f.infPat false, 0)
    | 1 => if neg then (f.nan, flNV) else (f.infPat false, 0)
    | 2 | 3 => (f.nan, flNV)
    | 5 => (if neg then 0 else one, 0)
    | _ => (f.withSign neg one, 0)
  | .fin neg m e =>
    match fn with
    | 0 =>
      if m ≠ 0 ∧ 11 ≤ flog2 m e then
        -- below 2^(−2048): within 2 ulp lie the numbers up to twice the smallest
        (if neg then (if free ≤ 2 ∨ free = 2 ^ 31 ∨ free = 2 ^ 31 + 1 then free else 0) else f.infPat false, 0)
      else
        let x := fxOf neg m e
        let (v, n) := fxExp2 x
        let exact := if x % fxOne = 0 then (roundFin f 0 false false 1 n).1 else fxRound v n
        let intg : Bool := decide (0 ≤ e) || m % 2 ^ (-e).toNat == 0
        if intg && decide (-149 ≤ n ∧ n ≤ 127) then ((roundFin f 0 false false 1 n).1, 0)
        else
          let ok : Bool := match f.decode free with
            | .fin s rm re =>
              let tol : Int := if 0 ≤ 160 + 1 + ulpExp f n - n then (2 ^ (160 + 1 + ulpExp f n - n).toNat : Nat) else 0
              let r := fxOf s rm (re - n)
              decide (r - v ≤ tol ∧ v - r ≤ tol)
            | _ => false
          (if ok then free else exact, 0)
    | 1 =>
      if m = 0 then (f.infPat true, flDZ)
      else if neg then (f.nan, flNV)
      else
        let k := Nat.log2 m
        let l : Int := e + (k : Nat)
        if m = 2 ^ k then ((roundFin f 0 false (decide (l < 0)) l.natAbs 0).1, 0)
        else
          let fx := fxLog2 (fxOf false m (-(k : Int)))
          let v := l * fxOne + fx
          let near : Bool := decide (l = 0 ∨ l = -1)
          let tol : Int := if near then (2 ^ 138 : Nat) else (2 ^ (160 + 1 + (ulpExp f (flog2 v.natAbs (-160)))).toNat : Nat)
          (if fxWithin free v tol then free else fxRound v, 0)
    | 2 | 3 =>
      if decide (flog2 (m + 1) e ≤ 16) && decide (fxOf false m e ≤ 65536 * fxOne) then
        let x := fxOf neg m e
        let v := if fn = 2 then fxSin x else fxSin (x + fxTwoPi / 4)
        (if fxWithin free v (2 ^ 139 : Nat) then free else fxRound v, 0)
      else (if fxWithin free 0 fxOne then free else 0, 0)
    | 4 =>
      let v : Int := if decide (5 ≤ flog2 (m + 1) e) then (if neg then -fxOne else fxOne)
        else let t := fxExp (2 * fxOf neg m e); fxDiv (t - fxOne) (t + fxOne)
      (if fxWithin free v (2 ^ 139 : Nat) then free else fxRound v, 0)
    | 5 =>
      let v : Int := if decide (6 ≤ flog2 (m + 1) e) then (if neg then 0 else fxOne)
        else fxDiv fxOne (fxOne + fxExp (-(fxOf neg m e)))
      (if fxWithin free v (2 ^ 138 : Nat) then free else fxRound v, 0)
    | _ =>
      let v : Int := if decide (3 ≤ flog2 (m + 1) e) then (if neg then -fxOne else fxOne) else fxErf (fxOf neg m e)
      (if fxWithin free v (2 ^ 139 : Nat) then free else fxRound v, 0)

/-- The value of |v| rounded to an integer in a mode (R158, R284): signed result and inexact. -/
def roundInt (mode : Nat) (neg : Bool) (m : Nat) (e : Int) : Int × Bool :=
  let (n, nx) := roundAt mode neg m e 0 false
  (if neg then -(n : Int) else n, nx)

/-- `frnd` (R284). -/
def fRnd (f : FFmt) (mode p : Nat) : Nat × Flg :=
  match f.decode p with
  | .nan sg => (f.nan, if sg then flNV else 0)
  | .inf n => (f.infPat n, 0)
  | .fin s m e => let (n, _) := roundInt mode s m e; ((roundFin f 0 false s n.natAbs 0).1, 0)

/-- The class mask of `fclass` (R284). -/
def fClass (f : FFmt) (p : Nat) : Nat :=
  match f.decode p with
  | .nan sg => if sg then 2 ^ 8 else 2 ^ 9
  | .inf n => if n then 1 else 2 ^ 7
  | .fin n m e =>
    if m = 0 then (if n then 2 ^ 3 else 2 ^ 4)
    else
      let sub : Bool := decide (flog2 m e < f.emin)
      if n then (if sub then 4 else 2) else (if sub then 2 ^ 5 else 2 ^ 6)

/-- The floating format of a TYPE; for TYPE 14 the variant of `EXT` and `MOD` bit 3 (R148). -/
def fmtOf (t : Ty) (ext mod : Nat) : FFmt :=
  match t with
  | .f64 => .f64 | .f16 => .f16 | .bf16 => .bf16
  | .f8 => .b8 (ext % 8) (ext / 8 == 1) (mod / 8 == 1)
  | _ => .f32

/-- Least and greatest values of an integer type; s4 is symmetric (R150, R151). -/
def minVal (t : Ty) : Int := if t = .s4 then -7 else if t.signed then -((2 ^ (t.bits - 1) : Nat) : Int) else 0
def maxVal (t : Ty) : Int := if t = .s4 then 7 else ((2 ^ (if t.signed then t.bits - 1 else t.bits) : Nat) : Int) - 1

/-- The integer value of a pattern in a type; the reserved s4 code reads 0 and sets S4 (R150, R151). -/
def intVal (t : Ty) (p : Nat) : Int × Flg :=
  if t = .s4 then (if p % 16 = 8 then (0, flS4) else (sextN p 4, 0))
  else if t.signed then (sextN p t.bits, 0) else ((p % 2 ^ t.bits : Nat), 0)

/-- An integer as an exact value. -/
def intFVal (x : Int) : FVal := .fin (decide (x < 0)) x.natAbs 0

/-- A conversion of an exact floating value into an integer type (R158); whether a source lies outside the range is judged on its
rounded integer (log 81). -/
def cvtToInt (t : Ty) (mode : Nat) (v : FVal) : Int × Flg :=
  match v with
  | .nan _ => (0, flNV)
  | .inf n => (if n then minVal t else maxVal t, flNV)
  | .fin s m e =>
    let (x, nx) := roundInt mode s m e
    if x < minVal t then (minVal t, flNV) else if maxVal t < x then (maxVal t, flNV)
    else (x, if nx then flNX else 0)

/-- A conversion between any two TYPEs (R156 to R158): the destination pattern of the type's width and the flags.
`src` with its binary8 variant, `dst` with its own. -/
def convert (src : Ty) (sf : FFmt) (dst : Ty) (df : FFmt) (mode : Nat) (sat : Bool) (p : Nat) : Nat × Flg :=
  if src.isFloat then
    let v := sf.decode p
    if dst.isFloat then withFlg (roundVal df mode sat v) (sigFlg v)
    else let (x, fl) := cvtToInt dst mode v; (truncI x dst.bits, fl)
  else
    let (x, fl) := intVal src p
    if dst.isFloat then withFlg (roundVal df mode sat (intFVal x)) fl
    else if dst = .s4 then (truncI (clampI x (-7) 7) 4, fl)
    else (truncI (if sat then clampI x (minVal dst) (maxVal dst) else x) dst.bits, fl)

/-- The register word of a pattern: sign-extended to 32 bits for s4, s8 and s16, else zero-extended (R274). -/
def putWord (t : Ty) (p : Nat) : Nat :=
  match t with
  | .s4 | .s8 | .s16 => truncI (sextN p t.bits) 32
  | _ => p % 2 ^ t.bits

end Sys2Proof
end

