-- ==== Sys2Proof/Machine/State.lean ====
section
/-! DEFINITION. The machine's state as plain data: everything the spec gives the device, from a thread's registers to the
links; and the state right after reset. -/

namespace Sys2Proof.Machine

/-- The launch record as admitted (R59). -/
structure LaunchRec where
  entry : Addr := 0
  ngroups : Nat := 0
  gsize : Nat := 32
  gang : Nat := 1
  nreg : Nat := 8
  scratch : Nat := 0
  tagbase : Nat := 0
  tagcnt : Nat := 0
  flags : Nat := 0
  roles : Nat := 0
  param : Addr := 0
  paramlen : Nat := 0
  fpcount : Nat := 0
  prio : Nat := 0
  queue : Nat := 0
  footprint : Addr := 0
  trace : Addr := 0
  handler : Addr := 0
  cont : Addr := 0
  join : Addr := 0
  tiles : Nat := 0
  accs : Nat := 0
  twctx : Nat := 0
deriving DecidableEq, Repr

inductive Role
  | general | copy | matrix
deriving DecidableEq, Repr

/-- What the other instruction of a pair does in a thread once its remote load has the answer (R260). -/
structure Late where
  regs : List (Nat × Nat) := []
  tags : List (Nat × Nat) := []
  preds : List (Nat × Bool) := []
  flags : Nat := 0
deriving DecidableEq, Repr

/-- What ends a thread's wait (R39). -/
inductive Cond
  /-- per-class counters at or below the values (R99) -/
  | counters (l s c t : Nat)
  /-- copy tags: any or all of the mask (R313) -/
  | tags (all : Bool) (mask : Nat)
  /-- GEN of a barrier object other than the value (R316) -/
  | barGen (grp off gen : Nat)
  /-- an early arrival: GEN changes (R316) -/
  | barRetry (grp off gen : Nat)
  | plwm (grp off w : Nat)
  /-- a ring block, retried in order of arrival at each update; D, `PD`, the PC after the instruction, the offset
as the instruction names it, and `PWAIT` or `CWAIT` as the wait found it (R232) -/
  | ring (grp off : Nat) (consumer : Bool) (d pd : Nat) (next : Addr) (addr : Nat) (was : Bool)
  /-- the PC after it (R46) -/
  | wsync (next : Addr)
  | join (mask : Word) (target : Addr)
  /-- `tawait`: the next write of the line of the counter at this physical address; due once it is written (R229) -/
  | line (phys : Nat) (due : Bool)
  /-- power leave (R76) -/
  | leave (level : Nat)
  /-- a page under service, with the access kind of R463 and the address (R466) -/
  | page (service kind addr : Nat)
  /-- a fence's scope (R181) -/
  | fence (scope : Nat)
  /-- a full queue, count or unit: tried again when something changes -/
  | resource
  /-- `preemptd`: until the group resumes (R78) -/
  | preempted
  /-- a trap held behind an open delivery of the home warp (R433) -/
  | heldTrap
  /-- ended by a split branch: the record of n registers waits for the counters; its place in the spawn area, or none in the
  core's reserve (R47, R50) -/
  | ended (resume : Addr) (n : Nat) (area : Option Nat)
  /-- the answer to its own remote load; the PC after it, and what a pair does then (R190, R260, R495) -/
  | answer (next : Addr) (late : Late)
  /-- the next part of the image that the instruction at the PC reads first; the issue that asked for it (R352, R368, R370) -/
  | image (order : Nat)
deriving DecidableEq, Repr

inductive Wait
  /-- ready, the instruction at the PC not yet tried -/
  | ready
  /-- ready, the wait of the instruction at the PC being over -/
  | passed
  | on (c : Cond) (since arrival : Nat)
deriving DecidableEq, Repr

/-- How a thread entered its handler (R321, R324). -/
inductive HMode
  | none | user | preempt
deriving DecidableEq, Repr

/-- A trap to deliver: cause, ARG and `$taddr` (R430). -/
structure Trap where
  cause : Nat
  arg : Nat := 0
  addr : Nat := 0
  /-- 0 precise, 1 deferred-precise, 2 asynchronous -/
  cls : Nat := 0
deriving DecidableEq, Repr

/-- A deferred-precise fault a thread holds, with the order of its access (R428, R429). -/
structure HeldFault where
  order : Nat
  trap : Trap
  /-- the matrix accumulator of a stopped loop, whose naming is a fault point too (R467) -/
  acc : Option Nat := none
  /-- a refused store that still counts in ST (R464) -/
  countsSt : Bool := false
deriving DecidableEq, Repr

structure Thread where
  lane : Nat := 0
  slot : Nat := 0
  warp : Nat := 0
  pc : Addr := 0
  /-- v0 to v191; an unlisted register reads 0 -/
  regs : Sparse Word := []
  /-- planar tags of v0 to v15 (R126) -/
  tags : Sparse Word := []
  /-- p0 to p6 in bits 0 to 6 -/
  preds : BitVec 7 := 0
  /-- registers whose word is poisoned, tags from 256 (R449, R450) -/
  poison : List Nat := []
  ld : Nat := 0
  st : Nat := 0
  cp : Nat := 0
  tl : Nat := 0
  hmode : HMode := .none
  tcause : Word := 0
  tpc : Addr := 0
  tlanes : Word := 0
  taddr : Addr := 0
  held : List HeldFault := []
  /-- asynchronous traps pending while in handler mode (R434) -/
  pending : List Trap := []
  /-- restart label of `mrst` (R391) -/
  restart : Option Addr := none
  wait : Wait := .ready
  readySince : Nat := 0
  lastIssue : Nat := 0
  /-- counted cycles of readiness for the progress watchdog (R441) -/
  watched : Nat := 0
  starved : Bool := false
  /-- released from a `wsync`: the threads of one release issue their next instruction together (R46) -/
  synced : Option Nat := none
  /-- released together from a `join`: they issue their next instruction in one pick (R52) -/
  joined : Option Nat := none
  /-- ready at its PC when the last step ended: `readySince` runs from the start of that (R39, R40) -/
  ready : Bool := false
  /-- whether `preemptd` of the present delivery was executed (R78) -/
  parked : Bool := false
  /-- the image the instruction at the PC has read so far, and the Twill context it is for (R352, R368, R370) -/
  image : Option (Option Nat × List Byte) := none
deriving DecidableEq, Repr

/-- A tile register: rows of 128 bytes, the tile tag's fields and the row tags (R375). -/
structure Tile where
  /-- byte 128 i + k of row i; an unlisted byte reads 0 -/
  data : Sparse Byte := []
  fmt : Nat := 0
  valid : Bool := false
  b8p : Nat := 0
  b8u : Bool := false
  b8inf : Bool := false
  /-- row tags in the layout of R126; an unlisted one reads 0 -/
  rowTags : Sparse Word := []
deriving DecidableEq, Repr

inductive TwState
  | loaded | active | done
deriving DecidableEq, Repr

/-- A Twill context that is not EMPTY (R365). -/
structure TwCtx where
  /-- address of the descriptor, or offset of the image, it was loaded from (R486) -/
  desc : Nat
  values : Addr
  rowptr : Addr
  rows : Nat
  cols : Nat
  fmtb : Nat
  words : List Nat
  seed : Nat
  st : TwState
  dirCol : Bool
  line : Nat
  pos : Nat
deriving DecidableEq, Repr

/-- An operand descriptor of a loop (R388). -/
structure MDesc where
  addr : Addr
  stride : Int
  inc : Int
  fmt : Nat
  b8p : Nat
  b8u : Bool
  b8inf : Bool
  trans : Bool
  blk : Nat
  handle : Nat
  depth : Nat
deriving DecidableEq, Repr

/-- The exact running sum of one accumulator element of a chain (R165, R166). -/
structure Sum where
  /-- (−1)^neg × m × 2^e of the exact sum, and of the sum of magnitudes -/
  m : Int := 0
  e : Int := 0
  am : Nat := 0
  ae : Int := 0
  /-- a NaN or opposite infinities; infinities met -/
  nan : Bool := false
  pinf : Bool := false
  ninf : Bool := false
  /-- every term so far was −0 -/
  allNegZero : Bool := true
  terms : Nat := 0
deriving DecidableEq, Repr

inductive LoopKind
  /-- `mloop` with its two descriptors -/
  | dense (a b : MDesc)
  /-- `mlsp` or `mlsp.t`: context, first line, X descriptor -/
  | sparse (ctx row0 : Nat) (x : MDesc) (trans : Bool)
deriving DecidableEq, Repr

/-- A loop of the matrix engine in progress (R389, R393). -/
structure MLoop where
  order : Nat
  kind : LoopKind
  acc : Nat
  sat : Bool
  /-- steps in all and done, rows done in the step; for a sparse loop lines done and entries done of the line -/
  steps : Nat
  step : Nat := 0
  rows : Nat := 0
  pos : Nat := 0
  sums : Sparse Sum := []
  isInt : Bool
  tids : List Nat
  /-- the page service it waits for, and the address (R467) -/
  service : Option (Nat × Addr) := none
  /-- S4 met so far (R160) -/
  flags : Nat := 0
  /-- the charge it was started under, 0 for none (R325) -/
  charge : Nat := 0
deriving DecidableEq, Repr

/-- A tile or accumulator load or store not yet complete (R380). -/
structure TileOp where
  id : Nat
  order : Nat
  tids : List Nat
  isAcc : Bool
  num : Nat
  load : Bool
  pad : Bool
  addr : Addr
  off : Nat
  stride : Int
  ty : Ty
  ext : Nat
  mod : Nat
  trans : Bool := false
  /-- handle, first block and depth of `tld.pl` -/
  planar : Option (Nat × Nat × Nat) := none
  service : Option (Nat × Addr) := none
  /-- its events still to come, by number (R182, R380); page table entries of stamp words whose service ended unresolved, and whether
  the service it waits for is of one (R514) -/
  units : List Nat := []
  /-- what a load's events have read: byte k of row i at 128 i + k, and row tags -/
  got : Sparse Byte := []
  gotTags : Sparse Word := []
  dead : List Nat := []
  stampWait : Bool := false
deriving DecidableEq, Repr

structure Lease where
  /-- a number of its own: a copy that pins under it knows it by that (R95) -/
  id : Nat := 0
  budget : Nat
  expiry : Nat
  short : Nat := 0
  /-- physical lines pinned in the die's L2 -/
  lines : List Nat := []
deriving DecidableEq, Repr

/-- A live hitch slot as the core's slot table and the home keep it (R209 to R219). -/
structure Slot where
  line : Nat
  addr : Addr
  each : Bool
  nent : Nat
  tag : Nat
  head : Nat := 0
  fresh : List Bool := []
  seqs : List Nat := []
  coal : Nat := 0
  /-- a push sent and not landed: data, q, n -/
  sent : Option (List Byte × Nat × Nat) := none
  /-- the newest push waiting to be sent -/
  next : Option (List Byte × Nat × Nat) := none
  credits : Nat := 0
  removing : Bool := false
  severed : Bool := false
  /-- the confirmation has landed: only the slot's bits stay (R218) -/
  gone : Bool := false
deriving DecidableEq, Repr

/-- Who subscribes to a line: a slot of a group, or a host queue (R216, R220). -/
inductive HSub
  | slot (grp off : Nat)
  | queue (n : Nat)
deriving DecidableEq, Repr
/-- A hitch table entry of a line's home slice (R216, R217): the context of its first subscriber, none for the firmware's; its place in
that context's spill area where it is spilled. -/
structure HEntry where
  line : Nat
  ctx : Option Nat
  subs : List HSub
  spill : Option Nat := none
deriving DecidableEq, Repr

/-- A spawn record: its bytes in the core's reserve, or its place in the context's spawn area (R48, R50). -/
structure SpawnRec where
  pc : Addr
  since : Nat
  /-- 16-byte units -/
  units : Nat
  bytes : List Byte
  area : Option Nat
  held : List HeldFault := []
deriving DecidableEq, Repr

/-- An open delivery of a home warp: the threads in it (R433). -/
structure Delivery where
  warp : Nat
  tids : List Nat
  preempt : Bool
  /-- the cycle of entry, and the threads as they stood before it: a delivery of a lower lane in the same cycle goes first -/
  cycle : Nat := 0
  undo : List (Nat × Thread × Trap) := []
deriving DecidableEq, Repr

/-- A delivery held behind an open one of its warp (R433). -/
structure HeldDelivery where
  warp : Nat
  traps : List (Nat × Trap)
  preempt : Bool
deriving DecidableEq, Repr

/-- One extent of a trace record (R196). -/
structure Extent where
  buf : Nat
  first : Nat
  count : Nat
deriving DecidableEq, Repr

/-- A group's trace record while it runs (R196 to R200). -/
structure Trace where
  reads : List Extent := []
  writes : List Extent := []
  vcause : Nat := 0
  all : Bool := false
  readAll : Bool := false
  writeAll : Bool := false
  coarsened : Bool := false
  /-- ranges of granules the group has written -/
  wrote : List Extent := []
deriving DecidableEq, Repr

inductive Residency
  | resident
  /-- pre-empted: its regions claimable, in order of pre-emption (R78, R80) -/
  | preempted (order : Nat) (saved : Bool)
  /-- re-queued with its state in the save area (R73) -/
  | requeued
deriving DecidableEq, Repr

structure Group where
  ctx : Nat
  item : Nat
  gidx : Nat
  grank : Nat
  /-- the gang, by a number of its own -/
  gang : Nat
  core : Nat
  role : Role
  lr : LaunchRec
  lsn : Nat
  /-- the thread slots it holds in every lane -/
  tslots : List Nat := []
  active : Bool := false
  placed : Nat := 0
  res : Residency := .resident
  /-- where its image lies in the save area, while it is saved (R80) -/
  saveAt : Nat := 0
  ks : List Word := []
  part : Nat := 32
  /-- what `part` and `actsel` of this cycle have set: it holds from the next cycle (R45, R169) -/
  partNext : Option Nat := none
  bankNext : Option Nat := none
  fstat : Nat := 0
  sched : Word := 0
  handler : Addr := 0
  bank : Nat := 0
  /-- scratchpad bytes; an unlisted byte reads 0 -/
  pad : Sparse Byte := []
  /-- copy tag bits at 0 (every other bit is 1) and outstanding counts (R100) -/
  tagsLow : List Nat := []
  tagCnt : Sparse Nat := []
  tiles : Sparse Tile := []
  /-- accumulator words: number × 1024 + 32 i + j; an unlisted word reads 0 -/
  accs : Sparse Word := []
  mrow : Word := 0
  loop : Option MLoop := none
  tileOps : List TileOp := []
  tw : Sparse TwCtx := []
  leases : Sparse Lease := []
  /-- the current grant and the charges still held (R325) -/
  grant : Nat := 0
  slots : Sparse Slot := []
  recs : List SpawnRec := []
  open_ : List Delivery := []
  heldDel : List HeldDelivery := []
  /-- the cycle by which `preemptd` must have been executed (R78) -/
  deadline : Option Nat := none
  trace : Option Trace := none
  /-- the page service that the write of its record waits for, and the page table entries it gave up (R197, R465, R514) -/
  recWait : Option Nat := none
  recDead : List Nat := []
  /-- the last exit or end in each warp, and the entry into the active set: the deadlock count runs from them (R442) -/
  lastJoin : Sparse Nat := []
  activeSince : Nat := 0
  exiting : Bool := false
  threads : Sparse Thread := []
deriving DecidableEq, Repr

structure Bank where
  lo : Word := 0
  scale : Word := 0
  /-- coefficient 4 s + j of segment s; an unlisted one reads 0 -/
  seg : Sparse Word := []
  owner : Option Nat := none
deriving DecidableEq, Repr

/-- A core's own state; an unlisted core is in its reset state. -/
structure Core where
  retired : Bool := false
  bank0 : Bank := {}
  bank1 : Bank := {}
  /-- task deque: item and cycle of its entry, the bottom last (R225); spilled entries, oldest first, with their
  places in the spill area (R228) -/
  deque : List (Nat × Nat) := []
  spilled : List (Nat × Nat × Nat) := []
  /-- program timestamp (R175) -/
  pts : Nat := 0
  /-- keys of the PC hash table's entries, then of the overflow list, in order of arrival: item and PC (R39) -/
  pcs : List (Nat × Addr) := []
  /-- entries moved to the back for one pick: item and PC (R56) -/
  yielded : List (Nat × Addr) := []
  /-- the cycle of the last issue, and the entries issued in it: item and PC (R41) -/
  issuedAt : Nat := 0
  issued : List (Nat × Addr) := []
deriving DecidableEq, Repr

inductive AtomOp
  | add | min | max | and | or | xor | inc | dec | fadd | fmin | fmax | exch | cas
deriving DecidableEq, Repr

/-- What a pending access of a thread does (R99, R331). -/
inductive AccKind
  /-- a load of a width and TYPE into register d; `pad`: the group whose scratchpad it reads -/
  | load (w : Width) (ty : Ty) (d : Nat) (addr : Addr) (pad : Option Nat)
  | store (addr : Addr) (data : List Byte) (pad : Option Nat)
  | atom (op : AtomOp) (ty : Ty) (data swap : Nat) (ret : Option Nat) (pd : Nat) (addr : Addr) (scope : Nat)
  | ldp (h blk depth d : Nat)
  | prf (h blk n d pd : Nat)
  /-- one block of a planar store: the lanes L, their groups, threads and words, and the tag of the lowest (R133) -/
  | pst (merge : Bool) (h blk depth : Nat) (lanes : List (Nat × Nat × Nat × Word)) (tag : Word) (pd : Nat)
  | hitch (off : Nat) (addr : Addr) (line : Nat) (n : Nat) (each : Bool) (tag pd : Nat)
  | hclr (off : Nat) (cond : Option Word) (pd : Nat)
  | actld (bank : Nat) (addr : Addr) (part : Nat)
  /-- the image an instruction reads before it acts, of device memory or a group's scratchpad, and the threads that wait for it
  (R352, R368, R370) -/
  | image (addr : Addr) (pad : Option Nat) (lanes : List (Nat × Nat))
  /-- a Twill delivery into a pair and a predicate (R367, R369) -/
  | deliver (d x pd : Nat) (ends : Bool)
  /-- a Twill image saved to scratchpad, and the threads that issued it (R370) -/
  | twsave (off : Nat) (data : List Byte) (lanes : List (Nat × Nat))
deriving DecidableEq, Repr

structure Access where
  id : Nat
  /-- the issue it belongs to: accesses are listed in order of issue and lane -/
  order : Nat
  grp : Nat
  tid : Nat
  lane : Nat
  kind : AccKind
  /-- events still to come, as offsets and lengths in the access (R172) -/
  parts : List (Nat × Nat)
  /-- bytes the events so far returned -/
  got : List Byte := []
  /-- an access to a REMOTE buffer: peer, its address, and the cycle it was sent (R190) -/
  remote : Option (Nat × Nat × Nat) := none
  /-- the page service or hold its next event waits for -/
  service : Option Nat := none
  /-- a stalled write: its order among them, and the page (R472) -/
  stalled : Option (Nat × Nat) := none
  /-- the page of its stamp word was not resolved: it goes on without that stamp (R514) -/
  noStamp : Bool := false
deriving DecidableEq, Repr

/-- A place a copy reads or writes: device memory, or a group's scratchpad. -/
inductive Place
  | dev (a : Addr)
  | pad (grp off : Nat)
deriving DecidableEq, Repr

/-- A layout record (R122). -/
structure Layout where
  fmt : Nat
  b8p : Nat
  b8u : Bool
  b8inf : Bool
  rank : Nat
  phnd : Nat
  pdepth : Nat
  base : Addr
  dims : List Nat
  strides : List Nat
deriving DecidableEq, Repr

inductive JobKind
  | copy (dst src : Place) (n : Nat)
  | copyLs (lease : Nat) (src : Addr) (n : Nat)
  | pcopyIn (off h blk n k m : Nat)
  | pcopyOut (off h blk n m : Nat)
  | pcopyLs (lease h blk n k m : Nat)
  | txfm (code : Nat) (dst src : Addr)
  /-- a near-memory card: OP, CFL, COUNT, X, Y, G, SA, SB (R106) -/
  | nmc (op cfl count : Nat) (x y g : Addr) (sa sb : Nat) (legal : Bool)
deriving DecidableEq, Repr

/-- A page of a buffer that an item or a job sees elsewhere than the page table: a fresh page an item writes as a RENAME writer, or
the old page it keeps when a later writer completes (R68). -/
structure Rename where
  buf : Nat
  page : Nat
  fresh : Nat
  own : Bool
deriving DecidableEq, Repr

/-- What a job reports through (R342). -/
inductive Bind
  | tag (n : Nat)
  | bar (grp off : Nat)
deriving DecidableEq, Repr

/-- A footprint range: buffer, first granule, count, mode (R64). -/
structure Fp where
  buf : Nat
  first : Nat
  count : Nat
  mode : Nat
deriving DecidableEq, Repr

structure Job where
  id : Nat
  ctx : Nat
  grp : Nat
  tid : Nat
  item : Nat
  core : Nat
  /-- the LSN its writes stamp with, if they stamp (R63) -/
  stamp : Option Nat
  kind : JobKind
  scope : Nat
  bind : Bind
  /-- the engine whose queue holds it; none for `nmc` -/
  engine : Option Nat
  /-- the charge it was started under, 0 for none (R325) -/
  charge : Nat := 0
  admitted : Bool := false
  fp : List Fp := []
  edges : List Nat := []
  /-- units still to land, by number; units that failed (R479) -/
  units : List Nat := []
  failed : List Nat := []
  /-- blocks and indices as read once: word 32 b + k, with word 32 b + 31 set once read (R129, R349); a card's results: element i at
  word 2 i, with word 2 i + 1 set once its unit has begun (R107) -/
  image : Sparse Word := []
  layouts : List Layout := []
  /-- the first fault met: reason, underlying cause, address (R480) -/
  fault : Option (Nat × Nat × Nat) := none
  /-- barrier counts its units have still to take off -/
  owedIn : Nat := 0
  owedOut : Nat := 0
  /-- the watermark it has still to set (R183) -/
  owedMark : Option Nat := none
  /-- the lease its lines are pinned under, by its own number, 0 for none (R95) -/
  lease : Nat := 0
  /-- answers a unit that waits for a peer has had, and the bytes they carried (R244) -/
  part : Nat := 0
  got : List Byte := []
  /-- its place among the admissions, and old pages it keeps (R66, R68) -/
  seq : Nat := 0
  renames : List Rename := []
  /-- page services it waits for, and pages whose service ended unresolved, by page table entry (R466) -/
  waits : List Nat := []
  dead : List Nat := []
deriving DecidableEq, Repr

/-- The entry of a host queue an item came from: queue, status word address, MSI flag. -/
structure HostRef where
  queue : Nat
  stata : Addr
  msi : Bool
  ctx : Nat
  priv : Bool
deriving DecidableEq, Repr

/-- Progress of a relaunch (R204). -/
structure Relaunch where
  trace : Addr
  /-- rounds run, the groups of the round running or asked for, and group executions -/
  k : Nat := 0
  sel : List Nat := []
  nrun : Nat := 0
  selecting : Bool := true
  askedAt : Option Nat := none
  /-- ended: whether a host entry gets FAILED -/
  ended : Option Bool := none
deriving DecidableEq, Repr

inductive ItemKind
  | launch | task | relaunch
deriving DecidableEq, Repr

structure Item where
  id : Nat
  ctx : Nat
  kind : ItemKind
  addr : Addr
  lr : LaunchRec
  lsn : Nat
  fp : List Fp
  edges : List Nat
  /-- whether one that it had an edge to has completed: its cores follow it (R187) -/
  after : Bool := false
  /-- the timestamp its groups follow: of its admission, of the last of those completions, of its round (R186, R187, R205, R222) -/
  ts : Nat := 0
  /-- its parent and the parent's ancestors (R66) -/
  anc : List Nat
  /-- the core whose deque a ready task joins, later the core that took it -/
  core : Nat := 0
  inDeque : Bool := false
  taken : Bool := false
  /-- gangs placed so far of the launch, or of the round -/
  nextGang : Nat := 0
  groupsLeft : Nat := 0
  host : Option HostRef := none
  rel : Option Relaunch := none
  renames : List Rename := []
  /-- device memory as its admission found it, where the item fetches code that was written since (R173) -/
  code : Option (List Host.Cell) := none
  /-- the first group record that could not be written (R483) -/
  failedRecord : Option Addr := none
  /-- page services it waits for, and entries whose service ended unresolved (R466) -/
  waits : List Nat := []
  dead : List Nat := []
deriving DecidableEq, Repr

/-- A record waiting in a hardware queue (R69). -/
structure Waiting where
  ctx : Nat
  kind : ItemKind
  addr : Addr
  /-- the record as `launch` or `tspawn` read it, none where it could not (R319); whether its increment was refused (R491) -/
  bytes : Option (List Byte) := none
  joinBad : Bool := false
  param : Addr := 0
  /-- the thread whose CP it counts in, and its core: group, thread, core -/
  issuer : Option (Nat × Nat × Nat) := none
  anc : List Nat := []
  joined : Bool := false
  /-- the place of its issue among the thread's accesses (R429) -/
  order : Nat := 0
  host : Option HostRef := none
  waits : List Nat := []
  dead : List Nat := []
deriving DecidableEq, Repr

structure HostQueue where
  desc : Nat
  ring : Addr
  taila : Addr
  heada : Addr
  nent : Nat
  hwq : Nat
  priv : Bool
  ctx : Nat
  /-- 0 IDLE, 1 ACTIVE, 2 OVERRUN, 3 FAULT -/
  state : Nat := 0
  head : Nat := 0
  tail : Nat := 0
  /-- page services its head waits for, and entries whose service ended unresolved (R466) -/
  waits : List Nat := []
  dead : List Nat := []
  /-- its LATEST hitch on the tail line, in the command processor's own storage (R220) -/
  hitch : Option Slot := none
deriving DecidableEq, Repr

/-- A command being executed at the head of its queue that ends in a later event (R242). -/
inductive Running
  | preempt (ctx : Nat)
  | ctxdestroy (ctx : Nat)
  | qdestroy (queue : Nat)
  | quiesce
  /-- `own`: the command runs steps 1 to 3 and 5 of R247 itself; `resume`: its `RESUME` bit -/
  | ckpt (own resume : Bool)
  | restore
deriving DecidableEq, Repr

/-- A context (R239). -/
structure Ctx where
  killed : Bool := false
  /-- under ERRPOL 1, the `SEQ` of the record that handed its kill to Oromel: the kill is in progress (R437, R438) -/
  doomed : Option Nat := none
  desc : Nat
  btab : Nat
  btlen : Nat
  svc : Nat
  podctx : Nat
  sched : Nat
  lquota : Nat
  evs : Addr
  pdir : Addr
  pdlen : Nat
  hspa : Addr
  hspn : Nat
  tqsa : Addr
  tqsn : Nat
  spbase : Addr
  spsize : Nat
  svbase : Addr
  svsize : Nat
  lsn : Nat
  /-- eviction phase, items completed in it, whether the schedule is usable (R96) -/
  phase : Nat := 0
  phaseDone : Nat := 0
  usable : Bool := false
  nphase : Nat := 0
  advcnt : Nat := 0
  /-- the phase's entries as read, and the header's default class and floor (R96) -/
  entries : List Nat := []
  defclass : Nat := 3
  deffloor : Nat := 0
  /-- phase entries to make, in order: of a phase, or of the next one; page services they wait for, and entries whose service ended
  unresolved (R96, R466) -/
  phaseAsks : List (Option Nat) := []
  schedWaits : List Nat := []
  schedDead : List Nat := []
  /-- being pre-empted, or pre-empted: no new group of it is placed (R77) -/
  held : Bool := false
  tspillBad : Bool := false
  /-- bytes of its save area that hold images of groups (R80) -/
  saveUsed : Nat := 0
  /-- buffers whose stamp failure was reported since their last BUFMAP (R514) -/
  stampBad : List Nat := []
  /-- free pages of the rename pools, by buffer (R68, R468) -/
  pools : Sparse (List Nat) := []
deriving DecidableEq, Repr

/-- A line's timestamps at its home (R175, R176). -/
structure LineTs where
  wts : Nat := 0
  rts : Nat := 0
  lease : Nat := 64
deriving DecidableEq, Repr

/-- A cached copy: level 0 an L1 of a core, 1 an L2 of a die (R94, R175). -/
structure Copy where
  level : Nat
  unit : Nat
  line : Nat
  wc : Nat
  rc : Nat
  fill : Nat
  /-- the 128 bytes as the fill or the last renewal found them -/
  data : List Byte
deriving DecidableEq, Repr

/-- A planar line held in a cache: level 0 L1, 1 L2, 2 LLC; plane set and first block over 8; held depth (R136). -/
structure PlaneLine where
  level : Nat
  unit : Nat
  ctx : Nat
  handle : Nat
  line : Nat
  depth : Nat
  fill : Nat
  /-- the sectors it holds besides planes: 1 headers, 2 signs -/
  parts : Nat := 3
deriving DecidableEq, Repr

/-- A page service, known by the physical address of its page table entry: one page is served once (R465, R466). -/
structure Service where
  id : Nat
  pte : Nat
  ctx : Nat
  buf : Nat
  page : Nat
  start : Nat
deriving DecidableEq, Repr

/-- A back-invalidation snoop not yet acknowledged, with the writer's group and thread (R188, R496). -/
structure Snoop where
  line : Nat
  sent : Nat
  grp : Nat
  tid : Nat
  job : Nat
  /-- the access that caused it, 0 for none (R337) -/
  acc : Nat := 0
deriving DecidableEq, Repr

/-- A request for leave (R76, R252). -/
structure LeaveReq where
  grp : Nat
  level : Nat
  since : Nat
deriving DecidableEq, Repr

/-- The charge of a granted leave, in tenths of a watt: held while the group keeps it or an operation runs (R325). -/
structure Charge where
  id : Nat
  grp : Nat
  ctx : Nat := 0
  level : Nat
  ended : Bool := false
deriving DecidableEq, Repr

/-- The memory system behind the port. -/
structure Port where
  /-- poisoned 32-byte sectors, by number (R476) -/
  poison : List Nat := []
  /-- placement STRIPE and CHMASK of 64 KiB pages, by page (R89) -/
  placed : Sparse (Nat × Nat) := []
  ts : Sparse LineTs := []
  copies : List Copy := []
  planes : List PlaneLine := []
  /-- free pages: 64 KiB and 2 MiB, by physical address (R465) -/
  pool64 : List Nat := []
  pool2m : List Nat := []
  services : List Service := []
  /-- pages stored compressed, by physical page (R103), and repack requests (R104) -/
  packed : List Nat := []
  repack : List Nat := []
  /-- lines in the overflow hold, by physical line, and the first stall of each page with whether it was reported (R472, R473) -/
  hold : List Nat := []
  stalls : Sparse (Nat × Bool) := []
  /-- store sequence numbers of hitched lines, by physical 64-byte line (R211) -/
  lineSeq : Sparse Nat := []
  /-- the hitch tables of the home slices and what they spilled, in order of entry (R216, R217) -/
  table : List HEntry := []
  /-- lines the host caches (R236) and snoops out (R188) -/
  snooped : List Nat := []
  snoops : List Snoop := []
deriving DecidableEq, Repr

/-- The package edge: BAR 0, links, thermal state, checkpoint and what the host sees. -/
structure Edge where
  /-- MSTAT fields (R254) -/
  booterr : Nat := 0
  therm : Nat := 0
  ckpt : Bool := false
  quiesced : Bool := false
  bstage : Nat := 0
  mctl : Addr := 0
  q0desc : Addr := 0
  plim : Nat := 3600
  tjmax : Nat := 0
  podid : Nat := 0
  hwbase : Nat := 0
  hwsize : Nat := 0
  elbase : Nat := 0
  elsize : Nat := 0
  elhead : Nat := 0
  eltail : Nat := 0
  ovf : Bool := false
  lost : Nat := 0
  /-- ECNT 1 to 15, by class -/
  ecnt : Sparse Nat := []
  seq : Nat := 0
  /-- the cycle of the newest event of the error log, and its class, unit and unit number as one number (R436) -/
  logged : Nat × Nat := (0, 0)
  /-- device-fatal: only a device reset makes the device usable (R426) -/
  fatal : Bool := false
  /-- trained ports: 0 the Wymbiyn Link, 1 to 32 UALink; recovery form (R494, R503) -/
  trained : List Nat := []
  /-- UALink ports whose training has ended, well or not (R250) -/
  tried : List Nat := []
  wymDown : Bool := false
  recovery : Bool := false
  /-- the cycles of the failed retrains of a port within 100 ms, oldest first; replays of the present second -/
  fails : Sparse (List Nat) := []
  replays : Sparse Nat := []
  /-- consecutive failed replays of the flit a port sends (R494) -/
  streak : Sparse Nat := []
  /-- MSI-X vectors raised, newest first (R234) -/
  msix : List Nat := []
  /-- what the last host read returned; poisoned (R235, R476) -/
  hostRead : List Byte := []
  hostPoison : Bool := false
  /-- the answer to the last inbound peer access: refused, or its bytes (R245) -/
  peerRefused : Bool := false
  peerRead : List Byte := []
  /-- page services that accesses from outside wait for, and page table entries whose service ended unresolved (R466, R514) -/
  outWaits : List Nat := []
  outDead : List Nat := []
  running : List (Nat × HostRef × Running) := []
  /-- the receiver of a checkpoint stream and its base there (R246); number, LSN and descriptor of each context as step 3 left
  them; the manifest streamed last (R247) -/
  ckptPod : Nat := 0
  ckptDest : Addr := 0
  ckptCtxs : List (Nat × Nat × Nat) := []
  manifest : List Byte := []
  /-- the memory image streamed last: the bytes that are not 0 (R247) -/
  image : List Host.Cell := []
  /-- the HDM decoder's base (R235) -/
  hdmbase : Nat := 0
  /-- the die the governor served last (R252), and the hardware queue admission served last (R69) -/
  leaveDie : Nat := 7
  hwLast : Nat := 63
  /-- the share of the power pool that Oromel has set for a context, in tenths of a watt (R252, log 85) -/
  shares : Sparse Nat := []
deriving DecidableEq, Repr

/-- The issue group in flight: its core, its threads in ascending lane order (group, thread), its PC and the instruction's
length in bytes. -/
structure Issue where
  core : Nat
  refs : List (Nat × Nat)
  pc : Addr
  len : Nat
deriving DecidableEq, Repr

/-- Who moves next, and how many cycles pass before: a step of the device named as an instruction of the table, or the issue
of an entry of a core's PC hash table: core, item and PC (R39, R41). -/
inductive Move
  | event (dt : Nat) (i : Instr)
  | issue (dt core item : Nat) (pc : Addr)
deriving DecidableEq, Repr

/-- The machine's state. -/
structure State where
  /-- core cycles since device reset (`$clock`, R264) -/
  clock : Nat
  /-- device time in 1/13 ns (TIME, R254) -/
  time13 : Nat
  /-- device memory at physical addresses, 768 GiB (R24); an unlisted byte reads 0 (log 2) -/
  mem : List Host.Cell
  port : Port
  ctxs : Sparse Ctx
  groups : Sparse Group
  cores : Sparse Core
  accesses : List Access
  jobs : List Job
  items : List Item
  /-- waiting records of the 64 hardware queues, by queue (R69) -/
  hwq : Sparse (List Waiting)
  queues : Sparse HostQueue
  leaves : List LeaveReq
  charges : List Charge
  edge : Edge
  /-- retired items' pages to return: items to wait for, then pages of a pool (R68) -/
  pageReturns : List (List Nat × Nat × Nat × Nat)
  /-- the next number of an item, access, job, group, issue and arrival -/
  next : Nat
  /-- the model's own: the counter of free values (log 5) -/
  free : Nat
  /-- the model's own: who moves next (log 3); an empty list leaves it to the default order -/
  agenda : List Move
  /-- the issue group in flight -/
  issue : Option Issue
  /-- the model's own: a physical address that does not exist was touched -/
  absent : Option Nat
deriving DecidableEq, Repr

/-- Why the machine stops with a fault. -/
inductive Fault
  /-- Raised by an access, walk or job that reaches a physical address at or beyond 768 GiB (R24): the spec gives the device
  no such memory. Safe: the hardware's answer is not modelled, no claim can rest on it. -/
  | noSuchMemory (phys : Nat)
deriving DecidableEq, Repr

/-- Why the machine refuses a step. -/
inductive Refusal
  /-- Raised by a dispatch arm whose instruction has no meaning yet. Safe: nothing can be proved of a run through it. -/
  | notModelled (mnemonic : String)
deriving DecidableEq, Repr

/-- The device right after reset: no context, no group, no queue, memory with nothing listed, BAR 0 at its reset values (R250,
R254, R436), the links untrained. -/
def State.reset : State :=
  { clock := 0, time13 := 0, mem := [], port := {}, ctxs := [], groups := [], cores := [], accesses := [], jobs := [],
    items := [], hwq := [], queues := [], leaves := [], charges := [], edge := {}, pageReturns := [], next := 1, free := 0,
    agenda := [], issue := none, absent := none }

end Sys2Proof.Machine
end

