-- ==== Sys2Proof/Machine/Ops.lean ====
section
/-! DEFINITION. The named operations over memory, contexts, the memory port, the error log, traps and kills: every meaning and
every event goes through these. -/

namespace Sys2Proof.Machine

/-! ## Fields of the state -/

def State.modG (s : State) (g : Nat) (f : Group → Group) : State := { s with groups := Map.modify s.groups g f }
def Group.modT (G : Group) (t : Nat) (f : Thread → Thread) : Group := { G with threads := Map.modify G.threads t f }
def State.modT (s : State) (g t : Nat) (f : Thread → Thread) : State := s.modG g (·.modT t f)
/-- Every thread of the device changed. -/
def State.modThreads (s : State) (f : Thread → Thread) : State :=
  { s with groups := s.groups.map fun (g, G) => (g, { G with threads := G.threads.map fun (t, T) => (t, f T) }) }
def State.group? (s : State) (g : Nat) : Option Group := Map.get? s.groups g
def State.thread? (s : State) (g t : Nat) : Option Thread := (s.group? g).bind fun G => Map.get? G.threads t
def State.core (s : State) (c : Nat) : Core := Map.getD s.cores {} c
def State.modCore (s : State) (c : Nat) (f : Core → Core) : State :=
  { s with cores := Map.put {} s.cores c (f (s.core c)) }
def State.ctx? (s : State) (c : Nat) : Option Ctx := Map.get? s.ctxs c
def State.modCtx (s : State) (c : Nat) (f : Ctx → Ctx) : State := { s with ctxs := Map.modify s.ctxs c f }
def State.modPort (s : State) (f : Port → Port) : State := { s with port := f s.port }
def State.modEdge (s : State) (f : Edge → Edge) : State := { s with edge := f s.edge }
def State.modItem (s : State) (i : Nat) (f : Item → Item) : State :=
  { s with items := s.items.map fun x => if x.id = i then f x else x }
def State.item? (s : State) (i : Nat) : Option Item := s.items.find? (·.id == i)
def State.modJob (s : State) (j : Nat) (f : Job → Job) : State :=
  { s with jobs := s.jobs.map fun x => if x.id = j then f x else x }
/-- A fresh number: identifiers and orders are drawn from one counter. -/
def State.fresh (s : State) : Nat × State := (s.next, { s with next := s.next + 1 })
/-- Device time in ns (R254). -/
def State.ns (s : State) : Nat := s.time13 / 13
/-- Cycles and time pass together: a core cycle is 10/13 ns at 1.3 GHz (R6), twice that from T2 (R253). -/
def State.pass (s : State) (dt : Nat) : State :=
  { s with clock := s.clock + dt, time13 := s.time13 + (if s.edge.therm < 2 then 10 else 20) * dt }
/-- Cycles of a time in microseconds at 1.3 GHz. -/
def cyclesUs (us : Nat) : Nat := us * 1300
def dieOf (core : Nat) : Nat := core / 64

/-! ## Physical memory -/

/-- Bytes of device memory: 768 GiB (R24). -/
def memSize : Nat := 768 * 2 ^ 30

/-- A byte of memory; what nothing has written reads 0 (log 2). -/
def memByte (m : List Host.Cell) (a : Nat) : Byte := Map.getD (α := Byte) m 0 a
def memPut (m : List Host.Cell) (a : Nat) (b : Byte) : List Host.Cell := Map.put (α := Byte) 0 m a b
def memBytes (m : List Host.Cell) (a n : Nat) : List Byte := (List.range n).map fun k => memByte m (a + k)
def memWrite : List Host.Cell → Nat → List Byte → List Host.Cell
  | m, _, [] => m
  | m, a, b :: bs => memWrite (memPut m a b) (a + 1) bs
/-- Bytes at a list of addresses, in order. -/
def memScatter : List Host.Cell → List (Nat × Byte) → List Host.Cell
  | m, [] => m
  | m, (a, b) :: r => memScatter (memPut m a b) r

/-- The canonical form of memory: addresses strictly rising, no entry that reads as an unlisted byte does. -/
def Memory.wf (m : List Host.Cell) : Bool := Map.canon (0 : Byte) m

/-- Little-endian bytes to a number and back (R5). -/
def leNat : List Byte → Nat
  | [] => 0
  | b :: bs => b.toNat + 256 * leNat bs
def leBytes : Nat → Nat → List Byte
  | 0, _ => []
  | n + 1, x => BitVec.ofNat 8 (x % 256) :: leBytes n (x / 256)

/-- A number of n bytes at a physical address. -/
def State.phys (s : State) (a n : Nat) : Nat := leNat (memBytes s.mem a n)
/-- Note the use of an address the device does not have. -/
def State.checkPhys (s : State) (a n : Nat) : State :=
  if a + n ≤ memSize then s else { s with absent := some (match s.absent with | some x => x | none => a) }
/-! ## Timestamps (R175, R176) -/

/-- The program timestamp of a core: it advances by itself one tick every 64 cycles (R176). -/
def State.pts (s : State) (core : Nat) : Nat := (s.core core).pts + s.clock / 64
/-- A core's program timestamp rises to a tick. -/
def State.raisePts (s : State) (core t : Nat) : State := s.modCore core fun c => { c with pts := max c.pts (t - s.clock / 64) }
/-- The latest write timestamp of the device. -/
def State.topTs (s : State) : Nat := s.port.ts.foldl (fun m e => max m e.2.wts) 0
/-- What a core does next follows every write so far: where something other than its own loads tells it of them (R171). -/
def State.catchUp (s : State) (core : Nat) : State := s.raisePts core s.topTs
/-- What a group's core does next follows every write so far. -/
def State.tell (s : State) (g : Nat) : State := match s.group? g with | some G => s.catchUp G.core | none => s
/-- The copies of lines that a test names are gone. -/
def State.dropCopiesOf (s : State) (p : Copy → Bool) : State := s.modPort fun q => { q with copies := q.copies.filter fun c => !p c }
/-- A core acts on the scratchpad of a group: two cores that meet there follow all writes so far. -/
def State.meet (s : State) (core g : Nat) : State :=
  match s.group? g with
  | some G => if G.core = core then s else (s.catchUp core).catchUp G.core
  | none => s

/-- Who makes a write: the table it goes through, the LSN it stamps with if it stamps (R63), and whose it is: the thread's
access, or the engine job. -/
structure Writer where
  ctx : Nat
  stamp : Option Nat
  grp : Nat := 0
  tid : Nat := 0
  job : Nat := 0
  acc : Nat := 0
  /-- a unit of a near-memory card: its pushes come with the card's completion (R211) -/
  quiet : Bool := false
deriving DecidableEq, Repr

/-- The timestamps of a written line (R175): beyond every lease granted. -/
def LineTs.write (t : LineTs) (pts : Nat) : LineTs :=
  let w := max pts (t.rts + 1)
  { wts := w, rts := w, lease := 64 }
/-- A written 64-byte line at its home: its timestamps, and the snoop of a line the host caches (R175, R188, R515). -/
def State.homeWrite (s : State) (w : Writer) (pts l : Nat) : State :=
  s.modPort fun p =>
    let p := { p with ts := Map.put {} p.ts (l / 2) ((Map.getD p.ts {} (l / 2)).write pts) }
    if p.snooped.contains l then
      { p with snooped := p.snooped.erase l, snoops := p.snoops ++ [(⟨l, s.clock, w.grp, w.tid, w.job, w.acc⟩ : Snoop)] }
    else p
/-- A write by the device itself to its own structures (records, status words, tables): no stamp, no push; a line the host caches is
snooped (R515). -/
def State.pokeRaw (s : State) (a : Nat) (bs : List Byte) : State :=
  ((List.range ((a + bs.length + 63) / 64 - a / 64)).foldl (fun (s : State) k => s.homeWrite { ctx := 0, stamp := none } s.topTs (a / 64 + k))
    { s with mem := memWrite s.mem a bs }).checkPhys a bs.length

/-! ## Contexts, buffers and translation -/

/-- A buffer table entry (R84). -/
structure BufEntry where
  base : Nat
  size : Nat
  rights : Nat
  owner : Nat
  attr : Nat
  stripe : Nat
  chmask : Nat
  stamps : Addr
  rpool : Addr
  poddev : Nat
deriving DecidableEq, Repr

def BufEntry.valid (e : BufEntry) : Bool := bitN e.attr 0 == 1
def BufEntry.paged (e : BufEntry) : Bool := bitN e.attr 1 == 1
def BufEntry.pg2m (e : BufEntry) : Bool := bitN e.attr 2 == 1
def BufEntry.compress (e : BufEntry) : Bool := bitN e.attr 3 == 1
def BufEntry.stamp (e : BufEntry) : Bool := bitN e.attr 4 == 1
def BufEntry.hostcoh (e : BufEntry) : Bool := bitN e.attr 5 == 1
def BufEntry.remote (e : BufEntry) : Bool := bitN e.attr 6 == 1
def BufEntry.rename (e : BufEntry) : Bool := bitN e.attr 7 == 1
def BufEntry.shared (e : BufEntry) : Bool := bitN e.attr 8 == 1
def BufEntry.pageSize (e : BufEntry) : Nat := if e.pg2m then 2 ^ 21 else 2 ^ 16

/-- The 64 bytes of an entry read as R84 lays them out. -/
def bufOfBytes (b : List Byte) : BufEntry :=
  let f (o n : Nat) : Nat := leNat ((b.drop o).take n)
  { base := f 0 8, size := f 8 8, rights := f 0x10 1, owner := f 0x11 1, attr := f 0x12 2, stripe := f 0x14 4 % 16,
    chmask := f 0x18 8, stamps := BitVec.ofNat 64 (f 0x20 8), rpool := BitVec.ofNat 64 (f 0x28 8), poddev := f 0x30 2 }

/-- Entry i of a context's buffer table; index 0 and an index beyond the table are not valid (R82, R84). -/
def State.buf (s : State) (c : Ctx) (i : Nat) : BufEntry :=
  if i = 0 ∨ c.btlen ≤ i then bufOfBytes [] else bufOfBytes (memBytes s.mem (c.btab + 64 * i) 64)

def bufOf (a : Addr) : Nat := (a.extractLsb' 48 16).toNat
def offOf (a : Addr) : Nat := (a.extractLsb' 0 48).toNat
def mkAddr (buf off : Nat) : Addr := BitVec.ofNat 16 buf ++ BitVec.ofNat 48 off
/-- An address advanced within its 48-bit offset (R83). -/
def addOff (a : Addr) (x : Int) : Addr := mkAddr (bufOf a) (truncI (offOf a + x) 48)

/-- The kinds of access the port checks (R86), with the numbers of R463. -/
inductive PKind
  | load | store | atomic | atomicRet | fetch
deriving DecidableEq, Repr

/-- The rights an access needs, as bits of `RIGHTS`. -/
def PKind.need : PKind → Nat
  | .load => 1 | .store => 2 | .atomic => 4 | .atomicRet => 5 | .fetch => 8

/-- What the port answers. -/
inductive PortRes
  /-- the physical address of each byte -/
  | ok (phys : List Nat)
  /-- a refusal: cause 0x10, 0x11 or 0x12 and the rights missing (R463) -/
  | refused (cause need : Nat)
  /-- a page without a valid translation: buffer and page (R465) -/
  | page (buf pg : Nat)
  /-- a REMOTE buffer: pod device and the peer's device address (R190, R245) -/
  | remote (pod addr : Nat)
deriving DecidableEq, Repr

/-- The checks of R86 for a range, without translation: cause and missing rights. -/
def portCheck (e : BufEntry) (ctx : Nat) (k : PKind) (off len : Nat) : Option (Nat × Nat) :=
  if ¬ e.valid ∨ e.size < off + len ∨ (len = 0 ∧ e.size ≤ off ∧ 0 < off) then some (0x10, 0)
  else
    let miss := k.need &&& (31 - (e.rights &&& 31))
    if miss ≠ 0 then some (0x11, miss)
    else if e.owner ≠ ctx ∧ ¬ e.shared then some (0x12, 0)
    else none

/-- Translation of one byte of a paged buffer (R87, R465): its physical address, or none for an invalid page. -/
def State.pageByte (s : State) (e : BufEntry) (off : Nat) : Option Nat :=
  let pte := s.phys (e.base + 8 * (off / e.pageSize)) 8
  let p := bitsN pte 39 16 * 2 ^ 16
  let bad := bitsN pte 15 2 ≠ 0 ∨ bitsN pte 63 40 ≠ 0 ∨ memSize < p + e.pageSize ∨ (e.pg2m ∧ bitsN pte 20 16 ≠ 0)
  if bitN pte 0 = 0 ∨ bad then none else some (p + off % e.pageSize)

/-- Physical address of a byte under the fresh pages a RENAME writer holds (R68). -/
def State.physByte (s : State) (e : BufEntry) (ren : List Rename) (buf off : Nat) : Option Nat :=
  match ren.find? (fun r => r.buf == buf && r.page == off / 2 ^ 16) with
  | some r => some (r.fresh + off % 2 ^ 16)
  | none => if e.paged then s.pageByte e off else some (e.base + off)

/-- Physical addresses of a run of bytes, or the first page without a translation. -/
def State.physRun (s : State) (e : BufEntry) (ren : List Rename) (buf : Nat) : Nat → Nat → Except Nat (List Nat)
  | _, 0 => .ok []
  | off, n + 1 =>
    match s.physByte e ren buf off with
    | none => .error (off / e.pageSize)
    | some p => match s.physRun e ren buf (off + 1) n with
      | .ok ps => .ok (p :: ps)
      | .error g => .error g

/-- The memory port (R86, R87): one access of a context. -/
def State.port_ (s : State) (ctx : Nat) (ren : List Rename) (k : PKind) (a : Addr) (len : Nat) : PortRes :=
  match s.ctx? ctx with
  | none => .refused 0x10 0
  | some c =>
    let e := s.buf c (bufOf a)
    match portCheck e ctx k (offOf a) len with
    | some (cause, miss) => .refused cause miss
    | none =>
      if e.remote then .remote e.poddev (e.base + offOf a)
      else match s.physRun e ren (bufOf a) (offOf a) len with
        | .ok ps => .ok ps
        | .error g => .page (bufOf a) g

/-- Bytes at physical addresses. -/
def State.gather (s : State) (ps : List Nat) : List Byte := ps.map (memByte s.mem)
/-- Note the first address of a list that the device does not have. -/
def State.checkAll (s : State) (ps : List Nat) : State :=
  match ps.find? (fun p => decide (memSize ≤ p)) with
  | none => s
  | some p => { s with absent := some (match s.absent with | some x => x | none => p) }
/-- A read by the device as an access of a context (records, tables, schedules): the bytes, or none when the port refuses it or
has no translation. No bytes are no access. -/
def State.readDev (s : State) (ctx : Nat) (a : Addr) (len : Nat) : Option (List Byte) :=
  if len = 0 then some []
  else match s.port_ ctx [] .load a len with
  | .ok ps => some (s.gather ps)
  | _ => none
def State.readDevNat (s : State) (ctx : Nat) (a : Addr) (len : Nat) : Option Nat := (s.readDev ctx a len).map leNat

/-! ## Write events (R171, R211, R213) -/

/-- Whether a slot is subscribed: registered, not removed and not severed. -/
def Slot.live (x : Slot) : Bool := !x.removing && !x.severed && !x.gone

/-- A push event for one subscriber: sent at once when none is undelivered and a credit is held, else it replaces the one that
waits (R213). -/
def Slot.push (x : Slot) (data : List Byte) (q : Nat) : Slot :=
  if ¬ x.live then x
  else match x.sent, x.next with
    | none, none =>
      if x.each then (if 0 < x.credits then { x with sent := some (data, q, 0), credits := x.credits - 1 }
        else { x with next := some (data, q, 0) })
      else { x with sent := some (data, q, 0) }
    | _, none => { x with next := some (data, q, 0) }
    | _, some (_, _, n) => { x with next := some (data, q, n + 1) }

/-- Send the waiting push if the subscriber may receive it (R213). -/
def Slot.advance (x : Slot) : Slot :=
  match x.sent, x.next with
  | none, some p =>
    if ¬ x.each then { x with sent := some p, next := none }
    else if 0 < x.credits then { x with sent := some p, next := none, credits := x.credits - 1 } else x
  | _, _ => x

def Group.modSlots (G : Group) (f : Slot → Slot) : Group := { G with slots := G.slots.map fun e => (e.1, f e.2) }

/-! ## The hitch tables of the home slices (R211, R216, R217, R220) -/

def sliceOf (line : Nat) : Nat := Config.llcSlice (64 * line) % 256
/-- Entries of a slice that stand in its table. -/
def State.tableUse (s : State) (slice : Nat) : Nat := (s.port.table.filter fun e => e.spill.isNone && sliceOf e.line == slice).length
/-- The lowest free place of a spill area: a context's own, or the firmware's, which has no end (R217, R220). -/
def State.hitchPlace (s : State) (ctx : Option Nat) : Option Nat :=
  let used := s.port.table.filterMap fun e => if e.ctx = ctx then e.spill else none
  let n := match ctx with
    | none => used.length + 1
    | some c => match s.ctx? c with | some C => if C.hspa = 0 then 0 else C.hspn | none => 0
  (List.range (min n (used.length + 1))).find? fun k => !used.contains k
def State.setEntry (s : State) (e x : HEntry) : State :=
  s.modPort fun p => { p with table := p.table.map fun y => if y = e then x else y }
/-- Bytes of the device's own form at physical addresses (log 5), without an event of the total order. -/
def State.ownBytes (s : State) (ctx : Nat) (a : Addr) (n : Nat) : State :=
  match s.port_ ctx [] .store a n with
  | .ok ps =>
    let s := { s with mem := memScatter s.mem (ps.zip ((List.range n).map fun k => Config.freeByte s.free k)), free := s.free + 1 }
    ((ps.map (· / 64)).eraseDups).foldl (fun (s : State) l => s.homeWrite { ctx := ctx, stamp := none } s.topTs l) s
  | _ => s
/-- An entry moves to a place of its spill area. -/
def State.spillAt (s : State) (e : HEntry) (n : Nat) : State :=
  let s := s.setEntry e { e with spill := some n }
  match e.ctx with
  | some c => (match s.ctx? c with | some C => s.ownBytes c (addOff C.hspa (64 * n : Nat)) 64 | none => s)
  | none => s
/-- Room for an entry of a line in the table of its slice: as it stands, or after one entry of another line moves to its spill area. -/
def State.tableRoom (s : State) (line : Nat) : Option State :=
  if s.tableUse (sliceOf line) < 8192 then some s
  else s.port.table.findSome? fun e =>
    if e.spill.isSome ∨ e.line = line ∨ sliceOf e.line ≠ sliceOf line then none else (s.hitchPlace e.ctx).map (s.spillAt e)
/-- A subscriber of a context enters at the home of a line: in an entry of the line with a free place, in a new one of the table, or
in a spilled one; none where there is no entry for it (R210, R217). -/
def State.homeJoin (s : State) (line : Nat) (ctx : Option Nat) (x : HSub) : Option State :=
  match s.port.table.find? fun e => e.line == line && decide (e.subs.length < 8) with
  | some e => some (s.setEntry e { e with subs := e.subs ++ [x] })
  | none =>
    let e : HEntry := { line := line, ctx := ctx, subs := [x] }
    match s.tableRoom line with
    | some s => some (s.modPort fun p => { p with table := p.table ++ [e] })
    | none => (s.hitchPlace ctx).map fun n => (s.modPort fun p => { p with table := p.table ++ [e] }).spillAt e n
/-- An event on a line brings its spilled entries back, where the table has or makes room (R217). -/
def State.unspill (s : State) (line : Nat) : State :=
  (s.port.table.filter fun e => e.line == line && e.spill.isSome).foldl (fun (s : State) e =>
    match (s.setEntry e { e with spill := none }).tableRoom line with
    | some t => if t.tableUse (sliceOf line) ≤ 8192 then t else s
    | none => s) s

/-- One write event on a hitched line: its sequence number rises and every subscriber receives a push (R211, R213). -/
def State.pushLine (s : State) (line : Nat) : State :=
  match Map.get? s.port.lineSeq line with
  | none => s
  | some q =>
    let s := s.unspill line
    let q := (q + 1) % 2 ^ 32
    let data := memBytes s.mem (64 * line) 64
    let one (x : Slot) : Slot := if x.line = line then x.push data q else x
    let s := s.modPort fun p => { p with lineSeq := Map.set p.lineSeq line q }
    { s with groups := s.groups.map fun e => (e.1, e.2.modSlots one),
             queues := s.queues.map fun e => (e.1, { e.2 with hitch := e.2.hitch.map one }) }

/-- Threads watching a line by `tawait` are due (R229); host queue tails are read by their own event. -/
def Thread.lineWritten (T : Thread) (line : Nat) : Thread :=
  match T.wait with
  | .on (.line l _) a b => if l / 64 = line then { T with wait := .on (.line l true) a b } else T
  | _ => T

/-- The core whose thread makes a write itself. -/
def State.writerCore (s : State) (w : Writer) : Option Nat := if w.job = 0 then (s.group? w.grp).map (·.core) else none
/-- One line of a write event: the push, the watches, the timestamps and the snoop. A write that no thread makes follows every
write before it. -/
def State.lineWritten (s : State) (w : Writer) (l : Nat) : State :=
  let s := (if w.quiet then s else s.pushLine l).modThreads (·.lineWritten l)
  match s.writerCore w with
  | some c => let s := s.homeWrite w (s.pts c) l; s.raisePts c (Map.getD s.port.ts {} (l / 2)).wts
  | none => s.homeWrite w s.topTs l
/-- A write event of the total order at physical addresses: the bytes, the poison it clears, and what follows on each line
(R171, R175, R188, R211, R229, R476). -/
def State.writeEvent (s : State) (w : Writer) (cells : List (Nat × Byte)) : State :=
  let ps := cells.map (·.1)
  let s := s.checkAll ps
  let s := { s with mem := memScatter s.mem cells }
  let sectors := (ps.map (· / 32)).eraseDups
  let whole := sectors.filter fun x => (ps.filter (· / 32 == x)).length == 32
  let s := s.modPort fun p => { p with poison := p.poison.filter (fun x => !(whole.contains x)) }
  ((ps.map (· / 64)).eraseDups).foldl (fun (s : State) l => s.lineWritten w l) s

/-- Bytes of a form the spec does not give, written by the device: a free value each (log 5). -/
def State.scribble (s : State) (ctx : Nat) (a : Addr) (n : Nat) : State :=
  match s.port_ ctx [] .store a n with
  | .ok ps =>
    ({ s with free := s.free + 1 }).writeEvent { ctx := ctx, stamp := none } (ps.zip ((List.range n).map fun k => Config.freeByte s.free k))
  | _ => s

/-! ## The error log (R435, R436) -/

/-- The fields of an error record that its event gives. -/
structure ErrRec where
  cls : Nat
  sev : Nat
  ctx : Nat := 0xFF
  rfl : Nat := 0
  unit : Nat := 0
  unitNo : Nat := 0
  ppage : Nat := 0
  stack : Nat := 0
  chan : Nat := 0
  bank : Nat := 0
  detail : Nat := 0
  addr : Nat := 0
deriving DecidableEq, Repr

/-- The order of the events of one cycle: by class, unit and unit number (R436). -/
def ErrRec.key (r : ErrRec) : Nat := (r.cls * 2 ^ 16 + r.unit % 2 ^ 16) * 2 ^ 16 + r.unitNo % 2 ^ 16
def elsizeOk (n : Nat) : Bool := [64, 128, 256, 512, 1024, 2048, 4096, 8192, 16384, 32768, 65536].contains n

/-- Raise an MSI-X vector; while the Wymbiyn Link is down interrupts are discarded (R497). -/
def State.msi (s : State) (v : Nat) : State :=
  if s.edge.wymDown then s else s.modEdge fun e => { e with msix := v :: e.msix }

/-- The 64 bytes of an error record, of its class's count and of the state in which it is written (R435). -/
def State.errBytes (s : State) (r : ErrRec) (cnt : Nat) : List Byte :=
  let lsn := match s.ctx? r.ctx with | some c => c.lsn | none => 0
  leBytes 1 r.cls ++ leBytes 1 r.sev ++ leBytes 1 r.ctx ++ leBytes 1 r.rfl ++ leBytes 2 r.unit
    ++ leBytes 2 r.unitNo ++ leBytes 8 r.ppage ++ leBytes 1 r.stack ++ leBytes 1 r.chan ++ leBytes 1 r.bank ++ leBytes 1 0
    ++ leBytes 4 r.detail ++ leBytes 8 s.edge.seq ++ leBytes 8 cnt ++ leBytes 8 s.ns ++ leBytes 8 r.addr ++ leBytes 4 lsn
    ++ leBytes 4 0
/-- One detected event: its counter, its sequence number, its record or its loss, and the interrupt (R436). -/
def State.log (s : State) (r : ErrRec) : State :=
  let e := s.edge
  let cnt := (Map.getD e.ecnt 0 r.cls + 1) % 2 ^ 64
  let bytes := s.errBytes r cnt
  let room := decide (e.elbase ≠ 0) && elsizeOk e.elsize && decide ((e.elhead + 2 ^ 64 - e.eltail) % 2 ^ 64 < e.elsize)
  let s := s.modEdge fun e => { e with ecnt := Map.put 0 e.ecnt r.cls cnt, seq := e.seq + 1, logged := (s.clock, r.key) }
  let s :=
    if room then (s.pokeRaw (e.elbase + 64 * (e.elhead % e.elsize)) bytes).modEdge
      fun e => { e with elhead := (e.elhead + 1) % 2 ^ 64 }
    else s.modEdge fun e => { e with ovf := true, lost := (e.lost + 1) % 2 ^ 63 }
  s.msi (if 2 ≤ r.sev then 1 else 3)

/-! ## Room in compressed pages (R104, R472) -/

/-- Lines of a slice in its overflow hold; a page's home slice stands for its lines. -/
def State.holdCount (s : State) (page : Nat) : Nat :=
  (s.port.hold.filter fun l => Config.llcSlice (l / 512 * 65536) % 256 == Config.llcSlice (page * 65536) % 256).length
/-- A write that does not fit asks for a repack of its page. -/
def State.askRepack (s : State) (page : Nat) : State :=
  s.modPort fun p => { p with repack := if p.repack.contains page then p.repack else page :: p.repack }
/-- Its lines stand in the overflow hold. -/
def State.toHold (s : State) (ps : List Nat) : State :=
  s.modPort fun p => { p with hold := ((ps.map (· / 128)).eraseDups).foldl (fun h l => if h.contains l then h else l :: h) p.hold }
/-- The first stall of a page (R472, R473). -/
def State.noteStall (s : State) (page : Nat) : State :=
  if Map.contains s.port.stalls page then s else s.modPort fun p => { p with stalls := Map.set p.stalls page (s.clock, false) }
/-- Room for a write that no thread makes: in a compressed page whether it fits is free (log 12); where the overflow hold is full the
write stalls. -/
def State.devRoom (s : State) (ps : List Nat) : State × Bool :=
  match ps.find? fun p => s.port.packed.contains (p / 65536) with
  | none => (s, true)
  | some p =>
    let n := s.free
    let s := { s with free := n + 1 }
    if Config.writeFits n then (s, true)
    else
      let s := s.askRepack (p / 65536)
      if 4096 ≤ s.holdCount (p / 65536) then (s.noteStall (p / 65536), false) else (s.toHold ps, true)

/-! ## Writes to memory: stamps, hitch pushes, timestamps, snoops -/

/-- LSN comparison by serial arithmetic (R193). -/
def later (a b : Nat) : Bool := let d := (a + 2 ^ 32 - b) % 2 ^ 32; decide (1 ≤ d ∧ d < 2 ^ 31)
def laterOf (a b : Nat) : Nat := if later a b then a else b

/-- The stamp word of a granule: its physical bytes, a page to serve, or none where it fails R86 (R514). -/
def State.stampWord (s : State) (ctx : Nat) (e : BufEntry) (gran : Nat) : PortRes :=
  s.port_ ctx [] .store (addOff e.stamps (4 * gran : Nat)) 4

/-- Update one granule's stamp with the later of an LSN and the old stamp (R194, R514); in a compressed page it takes the room it
needs (log 12). -/
def State.stampOne (s : State) (ctx buf : Nat) (e : BufEntry) (gran lsn : Nat) : State :=
  match s.stampWord ctx e gran with
  | .ok ps => (s.devRoom ps).1.writeEvent { ctx := ctx, stamp := none } (ps.zip (leBytes 4 (laterOf lsn (leNat (s.gather ps)))))
  | _ =>
    let bad := match s.ctx? ctx with | some c => c.stampBad | none => []
    if buf ∈ bad then s
    else (s.log { cls := 9, sev := 1, ctx := ctx, detail := 0x1C, addr := (addOff e.stamps (4 * gran : Nat)).toNat }).modCtx ctx
      fun c => { c with stampBad := buf :: c.stampBad }

/-- Stamp every granule of a range of a buffer, when the buffer keeps stamps (R194). -/
def State.stampRange (s : State) (ctx : Nat) (a : Addr) (len lsn : Nat) : State :=
  match s.ctx? ctx with
  | none => s
  | some c =>
    let e := s.buf c (bufOf a)
    if ¬ e.stamp ∨ len = 0 then s
    else
      let g0 := offOf a / 4096
      let g1 := (offOf a + len - 1) / 4096
      (List.range (g1 + 1 - g0)).foldl (fun s k => s.stampOne ctx (bufOf a) e (g0 + k) lsn) s

/-- A write through a buffer: the event and the stamps of its granules (R194). -/
def State.writeDev (s : State) (w : Writer) (a : Addr) (cells : List (Nat × Byte)) : State :=
  let s := s.writeEvent w cells
  match w.stamp with
  | none => s
  | some lsn => s.stampRange w.ctx a cells.length lsn

/-- Whether a copy serves a load of a core at its timestamp (R175, R176). -/
def Copy.serves (c : Copy) (level unit line pts now : Nat) : Bool :=
  c.level == level && c.unit == unit && c.line == line && decide (c.wc ≤ pts ∧ pts ≤ c.rc ∧ now ≤ c.fill + 65536)
/-- The copy that serves a core's load of a 128-byte line: its own L1's, else its die's L2's. -/
def State.copyFor (s : State) (core line : Nat) : Option Copy :=
  (s.port.copies.find? (·.serves 0 core line (s.pts core) s.clock)).orElse fun _ =>
    s.port.copies.find? (·.serves 1 (dieOf core) line (s.pts core) s.clock)
/-- A fetch or renewal of a line at its home (R175): the lease doubles at a renewal that finds the line unwritten (R176). -/
def State.renew (s : State) (core line : Nat) : State :=
  let t := Map.getD s.port.ts {} line
  let r := max t.rts (max (s.pts core + t.lease) (t.wts + t.lease))
  let mine (c : Copy) : Bool := c.line == line && ((c.level == 0 && c.unit == core) || (c.level == 1 && c.unit == dieOf core))
  let again := s.port.copies.any fun c => mine c && c.wc == t.wts
  let mk (lv u : Nat) : Copy := ⟨lv, u, line, t.wts, r, s.clock, memBytes s.mem (128 * line) 128⟩
  (s.modPort fun p =>
    { p with ts := Map.put {} p.ts line { t with rts := r, lease := if again then min 4096 (2 * t.lease) else t.lease },
             copies := mk 0 core :: mk 1 (dieOf core) :: p.copies.filter fun c => !mine c }).raisePts core t.wts
/-- A core's load of a line: from a copy, or renewed. -/
def State.readTouch (s : State) (core line : Nat) : State := if (s.copyFor core line).isSome then s else s.renew core line
/-- One read of a core at physical addresses (R175): where a copy serves every line it touches the copies answer, else those lines are
renewed and memory answers. -/
def State.readAt (s : State) (core : Nat) (ps : List Nat) : State × List Byte :=
  let s := s.checkAll ps
  let ls := (ps.map (· / 128)).eraseDups
  if ls.all fun l => (s.copyFor core l).isSome then
    (s, ps.map fun p => match s.copyFor core (p / 128) with | some c => c.data.getD (p % 128) 0 | none => memByte s.mem p)
  else (ls.foldl (fun (s : State) l => s.renew core l) s, s.gather ps)

/-! ## Scratchpad -/

/-- The allocation of a group (R61): the greater of 256 and SCRATCH rounded up to a power of two. -/
def LaunchRec.alloc (r : LaunchRec) : Nat :=
  if r.scratch ≤ 256 then 256 else 2 ^ (Nat.log2 (r.scratch - 1) + 1)
/-- Bytes of a scratchpad; offsets wrap within the allocation (R91). A byte nothing has written reads 0 (R92). -/
def Group.padByte (G : Group) (o : Nat) : Byte := Map.getD G.pad 0 (o % G.lr.alloc)
def Group.padBytes (G : Group) (o n : Nat) : List Byte := (List.range n).map fun k => G.padByte (o + k)
def Group.padWrite (G : Group) (o : Nat) (bs : List Byte) : Group :=
  let pad := (List.range bs.length).foldl (fun m k => Map.put 0 m ((o + k) % G.lr.alloc) (bs.getD k 0)) G.pad
  { G with pad := pad }
def State.padWrite (s : State) (g o : Nat) (bs : List Byte) : State := s.modG g (·.padWrite o bs)
def State.padBytes (s : State) (g o n : Nat) : List Byte :=
  match s.group? g with | some G => G.padBytes o n | none => List.replicate n 0

/-- The group and offset a gang access reaches (R93). -/
def State.gangTarget (s : State) (G : Group) (g o : Nat) : Nat × Nat :=
  let q := (o / 2 ^ 27 % 32) % G.lr.gang
  let o' := o % 2 ^ 27
  match s.groups.find? (fun e => e.2.gang == G.gang && e.2.grank == q) with
  | some e => (e.1, o')
  | none => (g, o')

/-! ## Copy tags (R71, R100) -/

/-- The bit of a group's tag n, inside its range. -/
def Group.tagBit (G : Group) (n : Nat) : Bool := !(G.tagsLow.contains n)
def Group.inTags (G : Group) (n : Nat) : Bool := decide (G.lr.tagbase ≤ n ∧ n < G.lr.tagbase + G.lr.tagcnt)
def Group.setTag (G : Group) (n : Nat) (v : Bool) : Group :=
  { G with tagsLow := if v then G.tagsLow.filter (· != n) else if G.tagsLow.contains n then G.tagsLow else n :: G.tagsLow }
/-- `$ctags` as the group reads it (R71). -/
def Group.ctags (G : Group) : Nat :=
  (List.range G.lr.tagcnt).foldl (fun x k => if G.tagBit (G.lr.tagbase + k) then x + 2 ^ (G.lr.tagbase + k) else x) 0
def Group.tagIssue (G : Group) (n : Nat) : Group :=
  ({ G with tagCnt := Map.put 0 G.tagCnt n (Map.getD G.tagCnt 0 n + 1) } : Group).setTag n false
def Group.tagDone (G : Group) (n : Nat) : Group :=
  let c := Map.getD G.tagCnt 0 n - 1
  let G := { G with tagCnt := Map.put 0 G.tagCnt n c }
  if c = 0 then G.setTag n true else G

/-! ## Barrier objects (R101, R102) -/

structure Bar where
  gen : Nat
  pend : Nat
  exp : Nat
  txin : Nat
  txout : Nat
  plwm : Nat
  plhi : Nat
  pmode : Nat
  rest : Nat
deriving DecidableEq, Repr

def Bar.ofNat (x : Nat) : Bar :=
  { gen := bitsN x 3 0, pend := bitsN x 15 4, exp := bitsN x 27 16, txin := bitsN x 51 28, txout := bitsN x 75 52,
    plwm := bitsN x 80 76, plhi := bitsN x 85 81, pmode := bitN x 86, rest := bitsN x 127 87 }
def Bar.toNat (b : Bar) : Nat :=
  b.gen % 16 + 2 ^ 4 * (b.pend % 2 ^ 12) + 2 ^ 16 * (b.exp % 2 ^ 12) + 2 ^ 28 * (b.txin % 2 ^ 24) + 2 ^ 52 * (b.txout % 2 ^ 24)
    + 2 ^ 76 * (b.plwm % 32) + 2 ^ 81 * (b.plhi % 32) + 2 ^ 86 * (b.pmode % 2) + 2 ^ 87 * b.rest
/-- The completion test of every update (R102). -/
def Bar.test (b : Bar) : Bar :=
  if b.pend = 0 ∧ b.txin = 0 ∧ b.txout = 0 then { b with gen := (b.gen + 1) % 16, pend := b.exp } else b
def State.bar (s : State) (g o : Nat) : Bar := Bar.ofNat (leNat (s.padBytes g o 16))
def State.setBar (s : State) (g o : Nat) (b : Bar) : State := s.padWrite g o (leBytes 16 b.toNat)

/-! ## Trace records (R196 to R200) -/

/-- The merge of two extents of one buffer whose ranges meet or overlap, within 65,535 granules. -/
def Extent.join? (a b : Extent) (gap : Bool) : Option Extent :=
  if a.buf ≠ b.buf then none
  else
    let lo := min a.first b.first
    let hi := max (a.first + a.count) (b.first + b.count)
    let meets := decide (a.first ≤ b.first + b.count ∧ b.first ≤ a.first + a.count)
    if (meets || gap) && decide (hi - lo ≤ 65535) then some ⟨a.buf, lo, hi - lo⟩ else none

def joinInto (e : Extent) : List Extent → Option (List Extent)
  | [] => none
  | x :: xs => match x.join? e false with
    | some y => some (y :: xs)
    | none => (joinInto e xs).map (x :: ·)

/-- The pair of extents of one buffer with the smallest gap, lower index first on ties (R200). -/
def bestPair (l : List Extent) : Option (Nat × Nat × Nat) :=
  let n := l.length
  (List.range n).foldl
    (fun best i => (List.range n).foldl
      (fun best j =>
        if i < j then
          match l[i]?, l[j]? with
          | some a, some b =>
            match a.join? b true with
            | none => best
            | some _ =>
              let gap := max a.first b.first - min (a.first + a.count) (b.first + b.count)
              match best with
              | some (g, _, _) => if gap < g then some (gap, i, j) else best
              | none => some (gap, i, j)
          | _, _ => best
        else best) best) none

/-- Add an extent to a list of at most `cap` (R200): the list, whether it was coarsened, and whether nothing more fits. -/
def addExtent (cap : Nat) (l : List Extent) (e : Extent) : List Extent × Bool × Bool :=
  match joinInto e l with
  | some r => (r, false, false)
  | none =>
    if l.length < cap then (l ++ [e], false, false)
    else match bestPair l with
      | none => (l, false, true)
      | some (_, i, j) =>
        match l[i]?, l[j]? with
        | some a, some b =>
          match a.join? b true with
          | some u => ((joinInto e ((l.set i u).eraseIdx j)).getD ((l.set i u).eraseIdx j ++ [e]), true, false)
          | none => (l, false, true)
        | _, _ => (l, false, true)

def Trace.note (t : Trace) (write : Bool) (e : Extent) : Trace :=
  if write then
    if t.writeAll then t
    else
      let (l, c, a) := addExtent 6 t.writes e
      { t with writes := l, coarsened := t.coarsened || c, writeAll := a, all := t.all || a }
  else
    if t.readAll then t
    else
      let (l, c, a) := addExtent 24 t.reads e
      { t with reads := l, coarsened := t.coarsened || c, readAll := a, all := t.all || a }

/-- Add a volatility cause (R199). -/
def Group.vols (G : Group) (m : Nat) : Group :=
  { G with trace := G.trace.map fun t => { t with vcause := t.vcause ||| m } }
def Group.vol (G : Group) (k : Nat) : Group := G.vols (2 ^ k)

/-- Whether a range read holds a granule whose stamp is the group's LSN and which the group has not written (R199). -/
def State.stampClash (s : State) (G : Group) (x : Extent) : Bool :=
  let own := (G.trace.map (·.wrote)).getD []
  match s.ctx? G.ctx with
  | none => false
  | some c =>
    let e := s.buf c x.buf
    e.stamp && (List.range x.count).any fun k =>
      !(own.any fun w => w.buf == x.buf && decide (w.first ≤ x.first + k ∧ x.first + k < w.first + w.count)) &&
      (match s.stampWord G.ctx e (x.first + k) with | .ok ps => leNat (s.gather ps) == G.lsn | _ => false)
/-- A range noted as extents of at most 65,535 granules (R200). -/
def Trace.noteRange (write : Bool) (buf : Nat) : Nat → Nat → Nat → Trace → Trace
  | 0, _, _, t => t
  | fuel + 1, first, count, t =>
    if count = 0 then t
    else Trace.noteRange write buf fuel (first + 65535) (count - 65535) (t.note write ⟨buf, first % 2 ^ 32, min count 65535⟩)
/-- The granules of a run of bytes. -/
def granules (a : Addr) (len : Nat) : Extent := ⟨bufOf a, offOf a / 4096, (offOf a + len - 1) / 4096 + 1 - offOf a / 4096⟩
def Trace.noteRun (t : Trace) (write : Bool) (x : Extent) : Trace :=
  let t := Trace.noteRange write x.buf (x.count / 65535 + 1) x.first x.count t
  if write ∧ ¬ t.wrote.contains x then { t with wrote := x :: t.wrote } else t
/-- Record the granules of an access of a traced group (R198), with the stamp test of cause 4 (R199). -/
def State.traceNote (s : State) (g : Nat) (write : Bool) (a : Addr) (len : Nat) : State :=
  match s.group? g with
  | none => s
  | some G =>
    if G.trace.isNone ∨ len = 0 then s
    else
      let x := granules a len
      let clash := !write && s.stampClash G x
      s.modG g fun G =>
        let G := { G with trace := G.trace.map (·.noteRun write x) }
        if clash then G.vol 4 else G

/-! ## Page services (R465, R466) -/

/-- The service of a page, started by the first access that reaches it. -/
def State.startPage (s : State) (ctx buf pg : Nat) : Nat × State :=
  let pte := match s.ctx? ctx with | some c => (s.buf c buf).base + 8 * pg | none => 0
  match s.port.services.find? (·.pte == pte) with
  | some v => (v.id, s)
  | none =>
    let (id, s) := s.fresh
    (id, s.modPort fun p => { p with services := p.services ++ [{ id := id, pte := pte, ctx := ctx, buf := buf, page := pg, start := s.clock }] })

/-- The page table entry of a page of a buffer. -/
def State.pteOf (s : State) (ctx buf pg : Nat) : Nat :=
  match s.ctx? ctx with | some c => (s.buf c buf).base + 8 * pg | none => 0
/-- The first page of a range's stamp words that has no translation and is not given up: the stamped write waits for it (R514). -/
def State.stampMiss (s : State) (ctx : Nat) (stamp : Option Nat) (dead : List Nat) (a : Addr) (len : Nat) : Option (Nat × Nat) :=
  match stamp, s.ctx? ctx with
  | some _, some c =>
    let e := s.buf c (bufOf a)
    if ¬ e.stamp ∨ len = 0 then none
    else
      let g0 := offOf a / 4096
      (List.range ((offOf a + len - 1) / 4096 + 1 - g0)).findSome? fun k => match s.stampWord ctx e (g0 + k) with
        | .page buf pg => if dead.contains (s.pteOf ctx buf pg) then none else some (buf, pg)
        | _ => none
  | _, _ => none
/-- Whether a page of these bytes stalls writes for want of room (R472). -/
def State.stalledAt (s : State) (ps : List Nat) : Bool := ps.any fun p => Map.contains s.port.stalls (p / 65536)
/-- Fresh pages of a RENAME writer's item, or the old pages it keeps (R68). -/
def State.renOf (s : State) (item : Nat) : List Rename := match s.item? item with | some i => i.renames | none => []

/-! ## Killing a context (R437) -/

/-- Write the status word of a host entry (R241) and raise its interrupt. -/
def State.status (s : State) (h : HostRef) (code detail lsn : Nat) : State :=
  if h.stata = 0 then (if h.msi then s.msi 0 else s)
  else
    let bytes := leBytes 1 code ++ leBytes 3 detail ++ leBytes 4 lsn ++ leBytes 8 s.ns
    let s :=
      if h.priv then s.writeEvent { ctx := 0, stamp := none } (((List.range 16).zip bytes).map (fun (e : Nat × Byte) => (h.stata.toNat + e.1, e.2)))
      else match s.port_ h.ctx [] .store h.stata 16 with
        | .ok ps => s.writeEvent { ctx := h.ctx, stamp := none } (ps.zip bytes)
        | _ => s
    if h.msi then s.msi 0 else s

/-- Set a host queue's STATE, in the queue and in its descriptor (R240). -/
def State.queueState (s : State) (q st : Nat) : State :=
  match Map.get? s.queues q with
  | none => s
  | some Q => ({ s with queues := Map.set s.queues q { Q with state := st } }).pokeRaw (Q.desc + 0x1E) (leBytes 1 st)

/-- Remove a group with everything that acts for it: pending accesses, leave, charges (R437 steps 2 and 4, R308). -/
def State.dropGroup (s : State) (g : Nat) : State :=
  { s with groups := Map.erase s.groups g, accesses := s.accesses.filter (·.grp != g),
           leaves := s.leaves.filter (·.grp != g), charges := s.charges.filter (·.grp != g) }

/-- Whether a subscription of a line stands. -/
def State.subscribed (s : State) (line : Nat) : HSub → Bool
  | .slot g off => ((s.group? g).bind fun G => Map.get? G.slots off).any fun x => x.line == line && x.live
  | .queue n => ((Map.get? s.queues n).bind (·.hitch)).any fun x => x.line == line && x.live
/-- Subscribers that have left free their places at the homes; lines without a subscriber lose their sequence number (R211, R217). -/
def State.trimLines (s : State) : State :=
  let table := (s.port.table.map fun e => { e with subs := e.subs.filter (s.subscribed e.line) }).filter fun e => !e.subs.isEmpty
  s.modPort fun p => { p with table := table, lineSeq := p.lineSeq.filter fun q => table.any (·.line == q.1) }

/-! ## Entries of host queues (R240 to R242) -/

/-- A queue entry as read (R241). -/
structure Entry where
  cmd : Nat
  cfl : Nat
  a0 : Nat
  a1 : Nat
  a2 : Nat
  stata : Addr
  /-- a reserved byte, or a reserved bit of `CFL`, is not 0 -/
  bad : Bool
deriving DecidableEq, Repr

def Entry.ofBytes (b : List Byte) : Entry :=
  let f (o n : Nat) : Nat := leNat ((b.drop o).take n)
  { cmd := f 0 1, cfl := f 1 1, a0 := f 8 8, a1 := f 0x10 8, a2 := f 0x18 8, stata := BitVec.ofNat 64 (f 0x20 8),
    bad := decide (f 2 6 ≠ 0) || decide (f 0x28 0x18 ≠ 0) || decide (4 ≤ f 1 1) }
def HostQueue.entryAddr (q : HostQueue) (n : Nat) : Addr :=
  if q.priv then BitVec.ofNat 64 (q.ring.toNat + 64 * (n % q.nent)) else addOff q.ring (64 * (n % q.nent) : Nat)

def Waiting.hostQueue (w : Waiting) : Option Nat := w.host.map (·.queue)
/-- Records of a queue that wait for admission: entered in their hardware queue and not yet taken. -/
def State.untaken (s : State) (qn : Nat) : Nat :=
  (s.hwq.map fun e => (e.2.filter fun w => w.hostQueue == some qn).length).foldl (· + ·) 0
/-- The number of the entry the command processor looks at next, and how many there are from it. -/
def State.pointer (s : State) (qn : Nat) (q : HostQueue) : Nat := (q.head + s.untaken qn) % 2 ^ 32
def State.ahead (s : State) (qn : Nat) (q : HostQueue) : Nat := (q.tail + 2 ^ 32 - s.pointer qn q) % 2 ^ 32
def hostRef (qn : Nat) (q : HostQueue) (e : Entry) (ctx : Nat) : HostRef :=
  { queue := qn, stata := e.stata, msi := bitN e.cfl 1 == 1, ctx := ctx, priv := q.priv }
/-- Physical bytes of a range a queue names: physical for a privileged queue, else through its context's table. -/
def State.queueBytes (s : State) (q : HostQueue) (k : PKind) (a : Addr) (n : Nat) : Option (List Nat) :=
  if q.priv then (if a.toNat + n ≤ memSize then some ((List.range n).map (a.toNat + ·)) else none)
  else match s.port_ q.ctx [] k a n with | .ok ps => some ps | _ => none
/-- The LAUNCH and RELAUNCH entries of a queue that were pushed and not taken. -/
def State.ringRefs (s : State) (qn : Nat) (q : HostQueue) : List HostRef :=
  if q.state ≠ 1 then []
  else (List.range (min q.nent (s.ahead qn q))).filterMap fun k =>
    (s.queueBytes q .load (q.entryAddr (s.pointer qn q + k)) 64).bind fun ps =>
      let e := Entry.ofBytes (s.gather ps)
      if (e.cmd = 1 ∨ e.cmd = 2) ∧ ¬ e.bad then some (hostRef qn q e q.ctx) else none
/-- The LSN a status word of an item shows: a launch's, or that of the last round a relaunch ran (R241). -/
def Item.shownLsn (it : Item) : Nat := match it.rel with | some r => if r.k = 0 then 0 else it.lsn | none => it.lsn
/-- The host entries of a context that are outstanding, with the LSN each shows (R437, R516). -/
def State.outstanding (s : State) (c : Nat) : List (HostRef × Nat) :=
  (s.items.filterMap fun (i : Item) => if i.ctx = c then i.host.map (·, i.shownLsn) else none)
    ++ (s.hwq.flatMap fun (e : Nat × List Waiting) => e.2.filterMap fun w => if w.ctx = c then w.host.map (·, 0) else none)
    ++ (s.queues.flatMap fun (e : Nat × HostQueue) => if ¬ e.2.priv ∧ e.2.ctx = c then (s.ringRefs e.1 e.2).map (·, 0) else [])

/-- The sectors still to land of a card's units that have begun: a killed card stops at a unit boundary (R107, R437). -/
def Job.begunUnits (j : Job) : List Nat :=
  let heads := (j.image.filter fun e => e.1 % 2 == 1).map fun e => e.1 / 2
  j.units.filter fun u => heads.any fun v => decide (4 * v ≤ u ∧ u < 4 * v + 256) && (Map.contains j.image (2 * (u / 4)) || heads.contains (u / 4))
/-- Kill a context: `detail` goes into the status of its outstanding entries (R437, R516). A context already killed is left. -/
def State.kill (s : State) (c detail : Nat) : State :=
  match s.ctx? c with
  | none => s
  | some C =>
    if C.killed then s
    else
      let hosts := s.outstanding c
      let s := s.modCtx c fun C => { C with killed := true }
      let s := (s.queues.filter fun (e : Nat × HostQueue) => !e.2.priv && e.2.ctx == c).foldl (fun (s : State) e => s.queueState e.1 3) s
      let mine := (s.groups.filter fun (e : Nat × Group) => e.2.ctx == c).map (·.1)
      let s : State := mine.foldl (fun (s : State) g => s.dropGroup g) s
      let s : State := { s with
        items := s.items.filter (·.ctx != c),
        hwq := s.hwq.map fun ((q, l) : Nat × List Waiting) => (q, l.filter (·.ctx != c)),
        cores := s.cores.map fun ((n, C) : Nat × Core) => (n, { C with
          deque := C.deque.filter (fun d => (s.items.find? (·.id == d.1)).all (·.ctx != c)),
          spilled := C.spilled.filter (fun d => (s.items.find? (·.id == d.1)).all (·.ctx != c)) }),
        jobs := (s.jobs.filter fun (j : Job) => j.ctx != c || j.admitted).map fun (j : Job) =>
          if j.ctx = c then (match j.kind with | .nmc .. => { j with units := j.begunUnits } | _ => j) else j }
      let s := hosts.foldl (fun s h => s.status h.1 3 detail h.2) s
      s.trimLines

/-- Write an error record and kill its context with the record's SEQ (R437 step 6); under ERRPOL 1 the kill is handed to Oromel
and is in progress from here (R438). -/
def State.logKill (s : State) (r : ErrRec) : State :=
  match s.ctx? r.ctx with
  | some C =>
    let seq := s.edge.seq % 2 ^ 24
    if C.killed ∨ C.doomed.isSome then s.log r
    else if bitN C.svc 4 = 1 then (s.log { r with rfl := r.rfl ||| 2 }).modCtx r.ctx fun C => { C with doomed := some seq }
    else (s.log r).kill r.ctx seq
  | none => s.log r
/-- A context whose kill is in progress: its threads issue nothing and its accesses take no place. -/
def State.frozen (s : State) (c : Nat) : Bool :=
  match s.ctx? c with | some C => C.killed || C.doomed.isSome | none => false

/-- Retire a core: its resident contexts are killed, then the records are written (R426); the tasks left in its deque are for other cores
to take (log 90). `cls` names the fault. -/
def State.retire (s : State) (core cls detail : Nat) : State :=
  let cs := ((s.groups.filter fun e => e.2.core == core).map (·.2.ctx)).eraseDups
  let ordered := (List.range 64).filter (cs.contains ·)
  let base : ErrRec := { cls := cls, sev := 1, rfl := 4, unit := 1, unitNo := core, detail := detail }
  -- each killed context's own record is the one its kill names: they follow the core's record in the log's sequence
  let seq0 := s.edge.seq
  let s := (ordered.zip (List.range ordered.length)).foldl (fun s e => s.kill e.1 ((seq0 + 1 + e.2) % 2 ^ 24)) s
  let s := s.log base
  let s := ordered.foldl (fun s c => s.log { base with sev := 2, ctx := c, rfl := 0 }) s
  s.modCore core fun c => { c with retired := true }

/-! ## Taking a trap and returning (R430 to R434) -/

/-- The handler address of a group: the one `sethdl` set, else the record's; 0 means the firmware's (R321, R432). -/
def Group.handlerAt (G : Group) : Addr := if G.handler ≠ 0 then G.handler else G.lr.handler

/-- `$tcause` (R430). -/
def causeWord (t : Trap) (held : Bool) : Word :=
  BitVec.ofNat 32 (t.cause + (if held then 2 ^ 13 else 0) + t.cls % 4 * 2 ^ 14 + t.arg % 2 ^ 16 * 2 ^ 16)

/-- What entering a handler writes in a thread (R432). PREEMPT returns to an armed restart label (R78). -/
def Thread.enter (T : Thread) (t : Trap) (handler : Addr) (lanes : Word) (held : Bool) (now : Nat) : Thread :=
  { T with
    tcause := causeWord t held,
    tpc := if t.cause = 0x20 then (match T.restart with | some l => l | none => T.pc) else T.pc,
    tlanes := lanes, taddr := BitVec.ofNat 64 t.addr,
    hmode := if t.cause = 0x20 then .preempt else .user, pc := handler, wait := .ready, readySince := now, watched := 0,
    parked := false, synced := none, joined := none, image := none }

def lanesOf (G : Group) (tids : List Nat) : Word :=
  BitVec.ofNat 32 ((tids.map fun t => match Map.get? G.threads t with | some T => 2 ^ T.lane | none => 0).foldl (· ||| ·) 0)
def lowestLane (G : Group) (tids : List Nat) : Nat :=
  (tids.map fun t => match Map.get? G.threads t with | some T => T.lane | none => 32).foldl min 32

/-- Enter the threads of one delivery of one home warp (R432, R433). The firmware's handler saves the group for PREEMPT and
otherwise records the trap and kills the context. -/
def State.enter (s : State) (g warp : Nat) (traps : List (Nat × Trap)) (held : Bool) : State :=
  match s.group? g with
  | none => s
  | some G =>
    let h := G.handlerAt
    let tids := traps.map (·.1)
    let lanes := lanesOf G tids
    let pre := traps.any fun t => t.2.cause == 0x20
    if h = 0 ∧ ¬ pre then
      match traps.head? with
      | none => s
      | some (t, tr) =>
        let pc := match Map.get? G.threads t with | some T => T.pc.toNat | none => 0
        s.logKill { cls := 9, sev := 2, ctx := G.ctx, unit := 1, unitNo := G.core, detail := tr.cause, addr := pc }
    else
      s.modG g fun G =>
        let undo := traps.filterMap fun (t, tr) => (Map.get? G.threads t).map fun T => (t, T, tr)
        let G := traps.foldl (fun G (t, tr) => G.modT t fun T =>
          let T := T.enter tr h lanes held s.clock
          if h = 0 then { T with parked := true, pc := T.tpc, hmode := .none, wait := .on .preempted s.clock 0 } else T) G
        if h = 0 then G else { G with open_ := G.open_ ++ [{ warp := warp, tids := tids, preempt := pre, cycle := s.clock, undo := undo }] }

/-- Threads held at their faulting instruction behind the open delivery of their warp (R433). -/
def State.holdTraps (s : State) (g warp : Nat) (traps : List (Nat × Trap)) (pre front : Bool) : State :=
  s.modG g fun G =>
    let d : HeldDelivery := { warp := warp, traps := traps, preempt := pre }
    let G := { G with heldDel := if front then d :: G.heldDel else G.heldDel ++ [d] }
    traps.foldl (fun G e => G.modT e.1 fun T => { T with wait := .on .heldTrap s.clock 0 }) G

/-- Whether a thread of the group is in a handler. -/
def Group.inHandler (G : Group) (t : Nat) : Bool := match Map.get? G.threads t with | some T => T.hmode != .none | none => false
/-- A fault of a thread in a handler kills its context (R434). -/
def State.doubleFault (s : State) (G : Group) (t : Nat) (x : Trap) : State :=
  s.logKill { cls := 10, sev := 2, ctx := G.ctx, unit := 1, unitNo := G.core, detail := x.cause,
              addr := match Map.get? G.threads t with | some T => T.pc.toNat | none => 0 }
/-- Asynchronous traps of threads in a handler wait for their `rte` (R434). -/
def Group.pend (G : Group) (traps : List (Nat × Trap)) : Group :=
  traps.foldl (fun G e => G.modT e.1 fun T => { T with pending := T.pending ++ [e.2] }) G
/-- A delivery of a warp that has an open one: of two entered in one cycle the one whose lowest lane is lower goes first and the other
is put back, held; else it is held behind the open one (R433). -/
def State.holdBehind (s : State) (g warp : Nat) (G : Group) (traps : List (Nat × Trap)) (d : Delivery) : State :=
  let pre := traps.any fun e => e.2.cause == 0x20
  if d.cycle = s.clock ∧ lowestLane G (traps.map (·.1)) < lowestLane G d.tids ∧ ¬ d.undo.isEmpty ∧ ¬ pre then
    let s := s.modG g fun G =>
      let G := d.undo.foldl (fun G (t, T, _) => { G with threads := Map.set G.threads t T }) G
      { G with open_ := G.open_.filter (·.warp != warp) }
    (s.enter g warp traps true).holdTraps g warp (d.undo.map fun (t, _, tr) => (t, tr)) d.preempt false
  else
    let s := if d.cycle = s.clock then
        s.modG g fun G => d.tids.foldl (fun G t => G.modT t fun T => { T with tcause := T.tcause ||| 0x2000 }) G
      else s
    s.holdTraps g warp traps pre false
/-- Deliver traps of the threads of one home warp: a double fault in handler mode, a held delivery behind an open one, else
entry (R433, R434). -/
def State.deliverWarp (s : State) (g warp : Nat) (traps : List (Nat × Trap)) : State :=
  match s.group? g with
  | none => s
  | some G =>
    match traps.find? fun e => e.2.cls != 2 && G.inHandler e.1 with
    | some e => s.doubleFault G e.1 e.2
    | none =>
      let rest := traps.filter fun e => !G.inHandler e.1
      let s := s.modG g (·.pend (traps.filter fun e => G.inHandler e.1))
      if rest = [] then s
      else match G.open_.find? (·.warp == warp) with
        | none => s.enter g warp rest (G.heldDel.any (·.warp == warp))
        | some d => s.holdBehind g warp G rest d

/-- Deliver the traps of one issue group: one delivery for each home warp (R433). -/
def State.deliver (s : State) (traps : List (Nat × Nat × Trap)) : State :=
  let key (e : Nat × Nat × Trap) : Nat × Nat :=
    (e.1, match s.thread? e.1 e.2.1 with | some T => T.warp | none => 0)
  let keys := (traps.map key).eraseDups
  keys.foldl (fun st k => st.deliverWarp k.1 k.2 ((traps.filter (key · == k)).map (·.2))) s

/-- Deliver one trap to given threads of a group, by home warp. -/
def State.deliverTo (s : State) (g : Nat) (tids : List Nat) (t : Trap) : State := s.deliver (tids.map fun x => (g, x, t))

/-- A held delivery of a warp enters when the open one closes; the next held one then sets HELD (R433). -/
def State.nextDelivery (s : State) (g warp : Nat) : State :=
  match s.group? g with
  | none => s
  | some G =>
    if G.open_.any (·.warp == warp) then s
    else match G.heldDel.find? (·.warp == warp) with
      | none => s
      | some d =>
        -- a PREEMPT reaches every thread of the warp in one delivery
        let same := if d.preempt then G.heldDel.filter (fun x => x.warp == warp && x.preempt) else [d]
        let s := s.modG g fun G => { G with heldDel := G.heldDel.filter fun x => !(same.contains x) }
        let more := match s.group? g with | some G => G.heldDel.any (·.warp == warp) | none => false
        s.enter g warp (same.flatMap (·.traps)) more

/-- `rte` of one thread in handler mode, its `$tpc` aligned: a pending trap of its own is delivered first (R323, R433). -/
def State.rte (s : State) (g t : Nat) : State :=
  match s.group? g with
  | none => s
  | some G =>
    match Map.get? G.threads t with
    | none => s
    | some T =>
      let s := s.modG g fun G =>
        let G := G.modT t fun T => { T with hmode := .none, pc := T.tpc, wait := .ready, readySince := s.clock, watched := 0, parked := false }
        let G := { G with open_ := (G.open_.map fun d => { d with tids := d.tids.filter (· != t), undo := [] }).filter (·.tids != []) }
        -- the last return from a watchdog trap arms the warp's watchdog again (R440)
        if T.tcause.toNat % 256 = 0x21 then
          { G with threads := G.threads.map fun e => (e.1, if e.2.warp = T.warp then { e.2 with watched := 0 } else e.2) }
        else G
      let s := match T.pending with
        | [] => s
        | p :: ps =>
          (s.modT g t fun T => { T with pending := ps }).holdTraps g T.warp [(t, p)] (p.cause == 0x20) true
      s.nextDelivery g T.warp

/-! ## The end of a meaning -/

/-- A meaning's answer: the next state, or a fault where an address was touched that the device does not have. -/
def finish (s : State) : Host.Outcome State Fault Refusal :=
  match s.absent with
  | none => .next s
  | some a => .fault (.noSuchMemory a)

end Sys2Proof.Machine
end

