-- ==== Sys2Proof/Machine/Operands.lean ====
section
/-! DEFINITION. Operands: reading the registers, constants and special operands of R264, the immediates and literals of R262
and R263, the memory operands of R269, and writing results (R264, R274). -/

namespace Sys2Proof.Machine

/-- A thread of the issue group, with its group: their numbers, and how they stood when the instruction issued. -/
structure Ref where
  g : Nat
  t : Nat
  G : Group
  T : Thread
deriving DecidableEq, Repr

/-- Register vN, and its planar tag for N below 16 (R126). -/
def Thread.v (T : Thread) (n : Nat) : Nat := (Map.getD T.regs 0 n).toNat
def Thread.tag (T : Thread) (n : Nat) : Nat := (Map.getD T.tags 0 n).toNat
/-- Predicate n; p7 reads true (R90). -/
def Thread.pred (T : Thread) (n : Nat) : Bool := n == 7 || T.preds.getLsbD n
/-- Whether a guard holds (R267). -/
def Thread.guard (T : Thread) (g : BitVec 3) (gn : Bool) : Bool := T.pred g.toNat != gn

/-- A write of vN clears its poison (R450). -/
def Thread.setV (T : Thread) (n x : Nat) : Thread :=
  { T with regs := Map.put 0 T.regs n (BitVec.ofNat 32 x), poison := T.poison.filter (· != n) }
def Thread.setTag (T : Thread) (n x : Nat) : Thread :=
  { T with tags := Map.put 0 T.tags n (BitVec.ofNat 32 x), poison := T.poison.filter (· != 256 + n) }
/-- A write of p7 is discarded (R90). -/
def Thread.setP (T : Thread) (n : Nat) (b : Bool) : Thread :=
  if n = 7 then T
  else { T with preds := if b then T.preds ||| BitVec.ofNat 7 (2 ^ n) else T.preds &&& ~~~(BitVec.ofNat 7 (2 ^ n)) }

/-- The special operands 0xF0 to 0xFE (R264). -/
def State.special (s : State) (r : Ref) (n : Nat) : Nat :=
  if n = 0xF1 then r.T.lane
  else if n = 0xF2 then r.t
  else if n = 0xF3 then r.G.gidx
  else if n = 0xF4 then r.G.grank
  else if n = 0xF5 then r.G.core
  else if n = 0xF6 then r.T.warp
  else if n = 0xF7 then r.T.slot
  else if n = 0xF8 then r.G.part
  else if n = 0xF9 then r.G.ctags % 2 ^ 32
  else if n = 0xFA then r.G.lsn
  else if n = 0xFB then s.clock % 2 ^ 32
  else if n = 0xFC then r.G.lr.ngroups % 2 ^ 32
  else if n = 0xFD then r.G.lr.gsize
  else if n = 0xFE then r.G.mrow.toNat
  else 0

/-- A 32-bit operand (R264). -/
def State.op32 (s : State) (r : Ref) (n : Nat) : Nat :=
  if n < 0xC0 then r.T.v n else if n < 0xF0 then (r.G.ks.getD (n - 0xC0) 0).toNat else s.special r n
/-- A 64-bit operand: a pair, the low word in the even register, or a special zero-extended (R264). -/
def State.op64 (s : State) (r : Ref) (n : Nat) : Nat :=
  if n < 0xF0 then s.op32 r n + 2 ^ 32 * s.op32 r (n + 1) else s.special r n
/-- A quad of registers, first word lowest (R332, R336). -/
def State.op128 (s : State) (r : Ref) (n : Nat) : Nat :=
  if n < 0xF0 then s.op64 r n + 2 ^ 64 * s.op64 r (n + 2) else 0
/-- The TYPE's bit pattern of an operand (R274). -/
def State.opTy (s : State) (r : Ref) (t : Ty) (n : Nat) : Nat :=
  if t.is64 then s.op64 r n else s.op32 r n % 2 ^ t.bits

/-- An integer as a pattern of n bits. -/
def sextImm (n : BitVec 8) (bits : Nat) : Nat := truncI n.toInt bits
/-- Operand B of an integer or bit TYPE as its pattern (R262, R263). -/
def State.bInt (s : State) (r : Ref) (t : Ty) (b : BForm) : Nat :=
  match b with
  | .num n => s.opTy r t n.toNat
  | .imm n => sextImm n t.bits
  | .lit w => match t with
    | .n32 | .n64 | .n16 | .n8 => w.toNat % 2 ^ t.bits
    | _ => truncI w.toInt t.bits
/-- Operand B of a floating TYPE as its pattern (R262, R263). -/
def State.bFloat (s : State) (r : Ref) (t : Ty) (b : BForm) : Nat :=
  let f := fmtOf t 0 0
  match b with
  | .num n => s.opTy r t n.toNat
  | .imm n => (roundVal f 0 false (intFVal n.toInt)).1
  | .lit w => match t with
    | .f64 => (roundVal .f64 0 false (FFmt.decode .f32 w.toNat)).1
    | _ => w.toNat % 2 ^ t.bits
/-- Operand B of a 32-bit value, and of a 64-bit one sign-extended from an immediate or literal. -/
def State.b32 (s : State) (r : Ref) (b : BForm) : Nat := s.bInt r .b32 b
def State.b64 (s : State) (r : Ref) (b : BForm) : Nat := s.bInt r .b64 b

/-- The value of a pattern under an integer TYPE (R274). -/
def tyVal (t : Ty) (p : Nat) : Int := if t.signed then sextN p t.bits else ((p % 2 ^ t.bits : Nat) : Int)
def State.valA (s : State) (r : Ref) (t : Ty) (n : Nat) : Int := tyVal t (s.opTy r t n)
def State.valB (s : State) (r : Ref) (t : Ty) (b : BForm) : Int := tyVal t (s.bInt r t b)

/-! ## Addresses -/

/-- The displacement of a memory operand (R269). -/
def dispOf (b : BForm) : Int :=
  match b with
  | .num _ => 0
  | .imm n => n.toInt
  | .lit w => w.toInt
/-- The device address of a memory operand (R83). -/
def State.ea (s : State) (r : Ref) (f : Full) : Addr :=
  addOff (BitVec.ofNat 64 (s.op64 r f.a.toNat)) (sextN (s.op32 r f.c.toNat) 32 + dispOf f.b)
/-- The scratchpad offset of a memory operand (R269). -/
def State.eo (s : State) (r : Ref) (f : Full) : Nat :=
  truncI ((s.op32 r f.a.toNat + s.op32 r f.c.toNat : Nat) + dispOf f.b) 32
/-- A target counted in parcels from a PC (R306). -/
def rel (pc : Addr) (x : Int) : Addr := addOff pc (4 * x)

/-! ## Results -/

/-- An access that a thread starts (R331). -/
structure NewAcc where
  kind : AccKind
  parts : List (Nat × Nat) := [(0, 0)]
  remote : Option (Nat × Nat × Nat) := none
deriving DecidableEq, Repr

/-- What an instruction writes in one thread, and the accesses it starts. -/
structure TRes where
  regs : List (Nat × Nat) := []
  tags : List (Nat × Nat) := []
  preds : List (Nat × Bool) := []
  flags : Nat := 0
  /-- causes of volatility of a traced group (R199) -/
  vol : Nat := 0
  pc : Option Addr := none
  accs : List NewAcc := []
  /-- counts in ST for an access another lane makes, and in CP (R133, R331) -/
  st : Nat := 0
  cp : Nat := 0
deriving DecidableEq, Repr

/-- Writes of a result of one, two or four registers to D; 0xF0 discards it (R264). -/
def wr1 (d x : Nat) : List (Nat × Nat) := if d = 0xF0 then [] else [(d, x % 2 ^ 32)]
def wr2 (d x : Nat) : List (Nat × Nat) :=
  if d = 0xF0 then [] else [(d, x % 2 ^ 32), (d + 1, x / 2 ^ 32 % 2 ^ 32)]
def wr4 (d x : Nat) : List (Nat × Nat) := if d = 0xF0 then [] else wr2 d x ++ wr2 (d + 2) (x / 2 ^ 64)
/-- `put` of R274: a pattern of the TYPE's width into D. -/
def wrTy (t : Ty) (d p : Nat) : List (Nat × Nat) := if t.is64 then wr2 d p else wr1 d (putWord t p)
/-- `put` of an integer. -/
def putI (t : Ty) (d : Nat) (x : Int) : List (Nat × Nat) := wrTy t d (truncI x t.bits)

def Thread.setRegs (T : Thread) (l : List (Nat × Nat)) : Thread := l.foldl (fun T e => T.setV e.1 e.2) T
def Thread.setTags (T : Thread) (l : List (Nat × Nat)) : Thread := l.foldl (fun T e => T.setTag e.1 e.2) T
def Thread.setPreds (T : Thread) (l : List (Nat × Bool)) : Thread := l.foldl (fun T e => T.setP e.1 e.2) T

end Sys2Proof.Machine
end

