-- ==== Sys2Proof/Machine/Flags.lean ====
section
/-! DEFINITION. The status register `$fstat` (R159, R160). The flags each computation raises stand beside its value in
Num.lean. -/

namespace Sys2Proof.Machine

/-- `setflag`: flags are sticky and are the group's (R159). -/
def Group.raise (G : Group) (fl : Flg) : Group := { G with fstat := G.fstat ||| (fl &&& 63) }
/-- `wrsr` of `$fstat` replaces it; bits above 5 are ignored (R159, R160). -/
def Group.setFstat (G : Group) (x : Nat) : Group := { G with fstat := x % 64 }

end Sys2Proof.Machine
end

