-- ==== Sys2Proof/Machine/Pack.lean ====
section
/-! DEFINITION. The compact format: what each compact opcode stands for (R258, R259, R334), its illegal encodings (R457), and
the rules of a pair (R260). -/

namespace Sys2Proof

/-- How a compact opcode forms its full instruction (R258, R259, R334). -/
inductive CKind
  | nop | mov | binary | unary | ld | st | lds | sts | none | hclr | fence | mask
deriving DecidableEq, Repr

/-- How `SUB` is read (R259). -/
inductive SubUse
  | zero | one | int | int5 | flt | width | any
deriving DecidableEq, Repr

inductive PairCls
  | n | i | f | m | x | s
deriving DecidableEq, Repr

structure CRow where
  op : Nat
  kind : CKind
  sub : SubUse
  pc : PairCls
deriving DecidableEq, Repr

/-- The compact opcodes 0 to 47 (R259). -/
def cTable : List CRow :=
  [⟨0x0A9, .nop, .zero, .n⟩, ⟨0x091, .mov, .one, .i⟩]
  ++ [0x000, 0x001, 0x004, 0x00C, 0x00D, 0x018, 0x019, 0x01A, 0x01D, 0x01E, 0x01F, 0x020].map (⟨·, .binary, .int, .i⟩)
  ++ [0x01B, 0x00F, 0x00E, 0x023, 0x024, 0x025, 0x026].map (⟨·, .unary, .int, .i⟩)
  ++ [⟨0x028, .binary, .zero, .i⟩]
  ++ [0x040, 0x041, 0x042, 0x048, 0x049].map (⟨·, .binary, .flt, .f⟩)
  ++ [0x04A, 0x04B, 0x046, 0x047, 0x045].map (⟨·, .unary, .flt, .f⟩)
  ++ [⟨0x073, .unary, .zero, .f⟩, ⟨0x0D0, .ld, .width, .m⟩, ⟨0x0D5, .st, .width, .m⟩, ⟨0x0DA, .lds, .width, .m⟩,
      ⟨0x0DF, .sts, .width, .m⟩, ⟨0x086, .binary, .zero, .x⟩, ⟨0x089, .binary, .zero, .x⟩, ⟨0x08A, .unary, .int5, .x⟩,
      ⟨0x0A8, .none, .zero, .s⟩, ⟨0x081, .none, .zero, .s⟩, ⟨0x10D, .hclr, .zero, .m⟩, ⟨0x0AE, .fence, .any, .s⟩,
      ⟨0x0AB, .mask, .zero, .s⟩, ⟨0x0AC, .mask, .zero, .s⟩, ⟨0x087, .binary, .zero, .x⟩, ⟨0x088, .binary, .zero, .x⟩]

/-- `SUB` as an integer type. -/
def subInt (s : Nat) : Ty := [Ty.s32, .n32, .s16, .n16, .s8, .n8, .s64, .n64].getD s .s32
/-- `SUB` as a floating type and its `MOD`. -/
def subFlt (s : Nat) : Ty × Nat :=
  [(Ty.f32, 0), (.f32, 1), (.f32, 2), (.f32, 3), (.f16, 0), (.bf16, 0), (.f64, 0), (.f32, 4)].getD s (.f32, 0)
/-- `SUB` as a width and its type (R334). -/
def subWidth (s : Nat) : Nat × Ty := [(2, Ty.b32), (3, .b64), (0, .s8), (0, .n8), (1, .s16), (1, .n16)].getD s (2, .b32)

/-- The reasons a compact instruction's own fields break (R259, R457). -/
def CRow.reasons (r : CRow) (f : Compact) : List Nat :=
  let sub := f.sub.toNat
  let z (b : Bool) : List Nat := if b then [] else [3]
  (match r.sub with
    | .zero => z (sub == 0)
    | .one => z (decide (sub ≤ 1))
    | .int5 | .width => z (decide (sub ≤ 5))
    | .int | .flt | .any => [])
  ++ (match r.kind with
    | .nop | .none | .fence => z (f.a == 0 && f.d == 0 && !f.i)
    | .unary | .ld | .st | .sts => z (!f.i)
    | .hclr | .mask => z (f.d == 0)
    | .mov | .binary | .lds => [])

/-- The full opcode and fields a compact instruction stands for (R258, R259, R334). -/
def CRow.expand (r : CRow) (f : Compact) : Nat × Full :=
  let sub := f.sub.toNat
  let base : Full := { g := f.g, gn := f.gn, d := 0, a := 0, b := .num 0, c := 0, ty := .b32, mod := 0, pd := 7, ext := 0, s := false }
  let (ty, mod) : Ty × Nat :=
    match r.sub with
    | .int | .int5 => (subInt sub, 0)
    | .flt => subFlt sub
    | .width => ((subWidth sub).2, 0)
    | .any => (.b32, sub)
    | .one => (if sub = 1 then .b64 else .b32, 0)
    | .zero => (if r.op = 0x028 then .b64 else if r.op = 0x073 then .f32 else .b32, 0)
  let mod := if 0x048 ≤ r.op ∧ r.op ≤ 0x04B then 0 else mod
  let base := { base with ty := ty, mod := BitVec.ofNat 4 mod }
  let w := (subWidth sub).1
  let num8 : BForm := .num 0xF0
  match r.kind with
  | .nop | .none | .fence => (r.op, base)
  | .mov => if f.i then (0x092, { base with d := f.d, b := .imm f.a }) else (r.op, { base with d := f.d, a := f.a })
  | .binary => (r.op, { base with d := f.d, a := f.d, b := if f.i then .imm f.a else .num f.a })
  | .unary => (r.op, { base with d := f.d, a := f.a })
  | .ld => (r.op + w, { base with d := f.d, a := f.a, b := num8, c := 0xF0 })
  | .st => (r.op + w, { base with d := f.a, a := f.d, b := num8, c := 0xF0 })
  | .lds =>
    if f.i then (r.op + w, { base with d := f.d, a := 0xF0, b := .imm f.a, c := 0xF0 })
    else (r.op + w, { base with d := f.d, a := f.a, b := num8, c := 0xF0 })
  | .sts => (r.op + w, { base with d := f.a, a := f.d, b := num8, c := 0xF0 })
  | .hclr =>
    if f.i then (r.op, { base with a := 0xF0, b := .imm f.a, c := 0xF0 })
    else (r.op, { base with a := f.a, b := num8, c := 0xF0 })
  | .mask => (r.op, { base with b := if f.i then .imm f.a else .num f.a })

/-- The row of a compact word; `none` for the unassigned opcodes 48 to 63. -/
def CompactWord.row (w : CompactWord) : Option CRow := cTable[w.cop.toNat]?

/-- The reasons one compact word breaks (R457). -/
def CompactWord.reasons (w : CompactWord) : List Nat :=
  match w.row with
  | none => [2]
  | some r => r.reasons w.f

/-- The full opcode and fields of a compact word; those of `nop` for an unassigned one. -/
def CompactWord.full (w : CompactWord) : Nat × Full :=
  match w.row with
  | none => (0x0A9, (CRow.expand ⟨0x0A9, .nop, .zero, .n⟩ w.f).2)
  | some r => r.expand w.f

/-- The register operands of a full opcode and its fields. -/
def refsOf (op : Nat) (f : Full) : List OpRef :=
  match shapeOf op f.s f.ext.toNat with
  | none => []
  | some sh => opRefs sh f

/-- The bank set of R260 rule 1: banks 0 to 3, and 4 for a k register or special operand. -/
def bankSet (op : Nat) (f : Full) : List Nat :=
  (refsOf op f).flatMap fun o =>
    if !o.reads then []
    else if o.num < 0xC0 then (List.range o.count).map fun j => (o.num + j) % 4
    else if o.num = 0xF0 then [] else [4]

/-- The v registers an instruction writes (R260 rule 2). -/
def destSet (op : Nat) (f : Full) : List Nat :=
  (refsOf op f).flatMap fun o =>
    if o.writes && decide (o.num < 0xC0) then (List.range o.count).map (o.num + ·) else []

/-- The pair classes two instructions may have together (R260 rule 3). -/
def pairClsOk (a b : PairCls) : Bool :=
  if a = .n ∨ b = .n then true
  else if a = .s ∨ b = .s then false
  else decide (a ≠ b)

/-- The reasons a pair breaks beside its place and its second parcel's length (R260, R457). -/
def pairReasons (x y : CompactWord) : List Nat :=
  match x.row, y.row with
  | some rx, some ry =>
    let own := x.reasons ++ y.reasons
    if own ≠ [] then own
    else
      let fx := x.full
      let fy := y.full
      (if (bankSet fx.1 fx.2).any (· ∈ bankSet fy.1 fy.2) then [10] else [])
      ++ (if (destSet fx.1 fx.2).any (· ∈ destSet fy.1 fy.2) then [11] else [])
      ++ (if pairClsOk rx.pc ry.pc then [] else [12])
  | _, _ => x.reasons ++ y.reasons

/-- The lowest of a list of reasons. -/
def lowest? : List Nat → Option Nat
  | [] => none
  | x :: xs => some (xs.foldl Nat.min x)

end Sys2Proof
end

