-- ==== Sys2Proof/Machine/Issue.lean ====
section
/-! DEFINITION. The issue of one instruction over an issue group: the stages of checking (R453, R454), the guard, the effect in
each thread, and the delivery of the traps (R433, R455). -/

namespace Sys2Proof.Machine

/-- The classes a role permits (R75). -/
def Role.permits (r : Role) (c : Cls) : Bool :=
  match r, c with
  | _, .scalar | _, .memory => true
  | .general, .matrix => false
  | .general, _ => true
  | .copy, .copy => true
  | .copy, _ => false
  | .matrix, .pattern | .matrix, .matrix => true
  | .matrix, _ => false
def Role.code : Role → Nat
  | .general => 0 | .copy => 1 | .matrix => 2

/-- What the first stages decide for a thread. -/
inductive Gate
  | trap (stage : Nat) (t : Trap)
  /-- the guard is false -/
  | skip
  | go
deriving DecidableEq, Repr

/-- What an instruction does in one thread. -/
inductive TOut
  | done (r : TRes)
  | trap (t : Trap)
  /-- the earliest held fault is delivered (R428, R429) -/
  | fault
  /-- a page without a translation: access kind, buffer, page and address (R465) -/
  | page (kind buf pg : Nat) (a : Addr)
  | wait (c : Cond)
  /-- everything is in the state already -/
  | stay
deriving DecidableEq, Repr

/-- The threads of an issue group that still exist. -/
def State.refsOf (s : State) (is : Issue) : List Ref :=
  is.refs.filterMap fun e =>
    match s.group? e.1 with
    | none => none
    | some G => (Map.get? G.threads e.2).map fun T => ⟨e.1, e.2, G, T⟩

/-- The first poisoned word a thread would read: field and operand number; `pltag` reads the tag alone (R449). -/
def poisoned (sh : Shape) (op : Nat) (f : Full) (T : Thread) : Option (Nat × Nat) :=
  if T.poison.isEmpty then none
  else
    ((opRefs sh f).filter (·.reads)).findSome? fun o =>
      let words := if op = 0x074 then [] else (List.range o.count).map (o.num + ·)
      if o.num < 0xC0 ∧ words.any (T.poison.contains ·) then some (o.field, o.num)
      else if o.tagged ∧ T.poison.contains (256 + o.num) then some (4, o.num)
      else none

/-- Whether an operand field is taken from one lane for the whole issue group (R276, R367, R378). -/
def oneLane (sh : Shape) (op field : Nat) : Bool :=
  sh.cls == .matrix || sh.cls == .pattern || ((op == 0x072 || op == 0x08E || op == 0x08F || op == 0x080) && field == 2)

/-- The threads that act for their groups: of each group in the issue group, the one of the lowest lane (R45, R322). -/
def leads (rs : List Ref) : List Ref := rs.filter fun r => rs.find? (·.g == r.g) == some r
/-- A change that the lowest lane's thread of each group makes in its group. -/
def State.modLeads (s : State) (rs : List Ref) (f : Ref → Group → Group) : State := (leads rs).foldl (fun (s : State) r => s.modG r.g (f r)) s

/-- Stages 3 and 4, the guard, and the poison check of an instruction (R449, R453, R454). -/
def gates (op : Nat) (f : Full) (rs : List Ref) : List (Ref × Gate) :=
  match shapeOf op f.s f.ext.toNat with
  | none => rs.map fun r => (r, .trap 2 { cause := 0x01, arg := 1 })
  | some sh =>
    let nreg := match rs.head? with | some r => r.G.lr.nreg | none => 0
    match badOperand sh f op nreg with
    | some (field, num) => rs.map fun r => (r, .trap 3 { cause := 0x02, arg := field + 256 * num })
    | none =>
      let first := rs.map fun r =>
        if ¬ r.G.role.permits sh.cls then (r, Gate.trap 4 { cause := 0x06, arg := r.G.role.code + 256 * sh.cls.code })
        else if op ≠ 0x0A6 ∧ ¬ r.T.guard f.g f.gn then (r, Gate.skip)
        else (r, Gate.go)
      let lead := first.find? fun e => e.2 == Gate.go
      let shared : Option Trap :=
        match lead with
        | none => none
        | some (r, _) => match poisoned sh op f r.T with
          | some (field, num) => if oneLane sh op field then some { cause := 0x15, arg := field, addr := num } else none
          | none => none
      first.map fun e =>
        match e.2 with
        | .go => match shared with
          | some t => (e.1, .trap 5 t)
          | none => match poisoned sh op f e.1.T with
            | some (field, num) => (e.1, if oneLane sh op field ∧ op ≠ 0x080 then .go else .trap 5 { cause := 0x15, arg := field, addr := num })
            | none => e
        | _ => e

/-- Whether `$clock` or `$lsn` is read as an operand (R264): volatility cause 1. -/
def readsClock (op : Nat) (f : Full) : Bool :=
  match shapeOf op f.s f.ext.toNat with
  | none => false
  | some sh => (opRefs sh f).any fun o => o.reads && (o.num == 0xFA || o.num == 0xFB)

/-- A thread goes on at an address: it is ready there from now. -/
def Thread.goTo (T : Thread) (pc : Addr) (now : Nat) : Thread :=
  { T with pc := pc, wait := .ready, readySince := now, lastIssue := now, watched := 0, starved := false, synced := none, joined := none,
           image := none }
def Thread.waitOn (T : Thread) (c : Cond) (now arrival : Nat) : Thread :=
  { T with wait := .on c now arrival, lastIssue := now, watched := 0, starved := false, synced := none, joined := none }
def State.skipTo (s : State) (g t len : Nat) : State := s.modT g t fun T => T.goTo (addOff T.pc len) s.clock
/-- A thread waits; waits are numbered in order of their arrival. -/
def State.waitOn (s : State) (g t : Nat) (c : Cond) : State :=
  { s.modT g t (fun T => T.waitOn c s.clock s.next) with next := s.next + 1 }

/-- The threads in whose program order an access stands: group and thread. -/
def Access.owners (a : Access) : List (Nat × Nat) :=
  match a.kind with
  | .pst _ _ _ _ lanes _ _ => lanes.map fun l => (l.2.1, l.2.2.1)
  | .image _ _ lanes | .twsave _ _ lanes => lanes
  | _ => [(a.grp, a.tid)]
/-- How an access counts (R331). -/
def AccKind.countsLd : AccKind → Bool
  | .load .. | .ldp .. | .prf .. | .hitch .. | .actld .. | .image .. | .deliver .. => true
  | .atom _ _ _ _ ret _ _ _ => ret.isSome
  | _ => false
def AccKind.countsSt : AccKind → Bool
  | .store .. | .pst .. | .hclr .. | .atom .. | .twsave .. => true
  | _ => false

def TRes.lds (r : TRes) : Nat := (r.accs.filter (·.kind.countsLd)).length
def TRes.sts (r : TRes) : Nat := (r.accs.filter (·.kind.countsSt)).length + r.st
/-- A load from a peer is precise: its thread stays at it until the answer (R427, R495). -/
def NewAcc.precise (a : NewAcc) : Bool :=
  a.remote.isSome && (match a.kind with | .load .. | .actld .. => true | _ => false)

def TRes.precise (r : TRes) : Bool := r.accs.any NewAcc.precise
/-- What takes place at the issue, and what only with the answer: a pair whose load is refused has no effect (R260, R495). -/
def TRes.now (r : TRes) : TRes := if r.precise then { r with regs := [], tags := [], preds := [], flags := 0 } else r
def TRes.late (r : TRes) : Late := ⟨r.regs, r.tags, r.preds, r.flags⟩
/-- Enter a thread's accesses, in order (R331). -/
def State.addAccs (s : State) (r : Ref) (order : Nat) : List NewAcc → State
  | [] => s
  | a :: as =>
    let x : Access := { id := s.next, order := order, grp := r.g, tid := r.t, lane := r.T.lane, kind := a.kind, parts := a.parts, remote := a.remote }
    ({ s with accesses := s.accesses ++ [x], next := s.next + 1 }).addAccs r order as

/-- A thread completes an instruction: its writes, its counts and the next PC; a thread that loads from a peer waits for the
answer. -/
def Thread.completed (T : Thread) (now len : Nat) (res : TRes) : Thread :=
  let q := res.now
  let T := ((T.setRegs q.regs).setTags q.tags).setPreds q.preds
  let T := { T with ld := T.ld + res.lds, st := T.st + res.sts, cp := T.cp + res.cp }
  let next := match res.pc with | some p => p | none => addOff T.pc len
  if res.precise then T.waitOn (.answer next res.late) now 0 else T.goTo next now
/-- The group's share: the thread, the flags and the causes of volatility. -/
def Group.completed (G : Group) (t now len vol : Nat) (res : TRes) : Group :=
  ((G.modT t fun T => T.completed now len res).raise res.now.flags).vols (res.vol ||| vol)
/-- A thread completes an instruction, and its accesses are entered. -/
def State.complete (s : State) (r : Ref) (len order vol : Nat) (res : TRes) : State :=
  (s.modG r.g fun G => G.completed r.t s.clock len vol res).addAccs r order res.accs

/-- The earliest-issued held fault and the rest (R429). -/
def Thread.earliest (T : Thread) : Option HeldFault :=
  T.held.foldl (fun b h => match b with | none => some h | some x => if h.order < x.order then some h else some x) none
/-- A held fault leaves its thread: it is delivered once; a refused store then leaves ST (R428, R464). -/
def Thread.dropHeld (T : Thread) (h : HeldFault) : Thread :=
  { T with held := T.held.erase h, st := if h.countsSt then T.st - 1 else T.st }

/-- The causes of volatility of the operands an instruction has read, whatever came of it (R199, R264). -/
def State.volAt (s : State) (g vol : Nat) : State := if vol = 0 then s else s.modG g (·.vols vol)
/-- One thread's outcome entered in the state; its trap joins the delivery. -/
def applyOut (len order vol : Nat) (acc : State × List (Nat × Nat × Trap)) (e : Ref × TOut) : State × List (Nat × Nat × Trap) :=
  let (s, ts) := acc
  let r := e.1
  match e.2 with
  | .done res =>
    if r.T.ld + res.lds > 63 ∨ r.T.st + res.sts > 63 ∨ r.T.cp + res.cp > 63 then (s.waitOn r.g r.t .resource, ts)
    else (s.complete r len order vol res, ts)
  | .trap t => (s.volAt r.g vol, ts ++ [(r.g, r.t, t)])
  | .fault => match r.T.earliest with
    | none => (s, ts)
    | some h => (s.modT r.g r.t (·.dropHeld h), ts ++ [(r.g, r.t, h.trap)])
  | .page kind buf pg a =>
    let (id, s) := s.startPage r.G.ctx buf pg
    ((s.volAt r.g vol).waitOn r.g r.t (.page id kind a.toNat), ts)
  | .wait c => ((s.volAt r.g vol).waitOn r.g r.t c, ts)
  | .stay => (s.volAt r.g vol, ts)

/-- The threads that execute the instruction, and what the others take. -/
def Gate.trap? (e : Ref × Gate) : Option (Nat × Nat × Trap) :=
  match e.2 with | .trap _ t => some (e.1.g, e.1.t, t) | _ => none

/-- One instruction over the issue group: `fn` gives the effect in the threads that execute it, in ascending lane order. -/
def issueAll (op : Nat) (f : Full) (fn : State → List Ref → State × List (Ref × TOut)) (s : State) :
    Host.Outcome State Fault Refusal :=
  match s.issue with
  | none => .next s
  | some is =>
    let order := s.next
    let gs := gates op f (s.refsOf is)
    let s := (gs.filter (·.2 == Gate.skip)).foldl (fun s e => s.skipTo e.1.g e.1.t is.len) s
    let (s, outs) := fn s ((gs.filter (·.2 == Gate.go)).map (·.1))
    let (s, traps) := outs.foldl (applyOut is.len order (if readsClock op f then 2 else 0)) (s, gs.filterMap Gate.trap?)
    finish (s.deliver traps)

/-- An effect that each thread has alone, on the state as the instruction found it. -/
def issueEach (op : Nat) (f : Full) (plan : State → Ref → TOut) (s : State) : Host.Outcome State Fault Refusal :=
  issueAll op f (fun s rs => (s, rs.map fun r => (r, plan s r))) s

/-- An effect each thread has in turn, on the state the lower lanes leave. -/
def issueTurn (op : Nat) (f : Full) (act : State → Ref → State × TOut) (s : State) : Host.Outcome State Fault Refusal :=
  issueAll op f
    (fun s rs => rs.foldl (fun (acc : State × List (Ref × TOut)) r =>
        let (s, o) := act acc.1 r
        (s, acc.2 ++ [(r, o)])) (s, [])) s

/-- A fault point (R427, R428): a thread that holds a fault takes it before anything else. -/
def faultPoint (act : State → Ref → State × TOut) (s : State) (r : Ref) : State × TOut :=
  if r.T.held.isEmpty then act s r else (s, .fault)

/-! ## Pairs (R260) -/

/-- The earlier stage of two traps is reported, the lead's first. -/
def Gate.both (a b : Gate) : Option Trap :=
  match a, b with
  | .trap n t, .trap m u => some (if m < n then u else t)
  | .trap _ t, _ => some t
  | _, .trap _ u => some u
  | _, _ => none

def TOut.res : TOut → TRes
  | .done r => r
  | _ => {}
def TOut.stops : TOut → Bool
  | .done _ => false
  | _ => true
def TRes.join (a b : TRes) : TRes :=
  { regs := a.regs ++ b.regs, tags := a.tags ++ b.tags, preds := a.preds ++ b.preds, flags := a.flags ||| b.flags,
    vol := a.vol ||| b.vol, pc := none, accs := a.accs ++ b.accs, st := a.st + b.st, cp := a.cp + b.cp }

/-- The result with the volatility that reading the clock as an operand causes (R199). -/
def TRes.clocked (op : Nat) (f : Full) (r : TRes) : TRes := { r with vol := r.vol ||| (if readsClock op f then 2 else 0) }

def outOf (l : List (Ref × TOut)) (r : Ref) : Option TOut := (l.find? (·.1 == r)).map (·.2)

/-- Two instructions in one issue: both read before either writes, and a thread that takes a trap from one takes no effect
from the other (R260). -/
def issuePair (op1 : Nat) (f1 : Full) (plan1 : State → List Ref → List (Ref × TOut)) (op2 : Nat) (f2 : Full)
    (plan2 : State → List Ref → List (Ref × TOut)) (s : State) : Host.Outcome State Fault Refusal :=
  match s.issue with
  | none => .next s
  | some is =>
    let order := s.next
    let rs := s.refsOf is
    let both := (gates op1 f1 rs).zip (gates op2 f2 rs)
    let traps : List (Nat × Nat × Trap) := both.filterMap fun e => (Gate.both e.1.2 e.2.2).map fun t => (e.1.1.g, e.1.1.t, t)
    let live := both.filter fun e => (Gate.both e.1.2 e.2.2).isNone
    let go1 := (live.filter (·.1.2 == Gate.go)).map (·.1.1)
    let go2 := (live.filter (·.2.2 == Gate.go)).map (·.1.1)
    let stops := (plan1 s go1 ++ plan2 s go2).filter (·.2.stops)
    let free := fun r => (outOf stops r).isNone
    let o1 := plan1 s (go1.filter free)
    let o2 := plan2 s (go2.filter free)
    let outs := live.map fun e =>
      let r := e.1.1
      match outOf stops r with
      | some o => (r, o)
      | none =>
        let a := match outOf o1 r with | some o => o.res.clocked op1 f1 | none => {}
        let b := match outOf o2 r with | some o => o.res.clocked op2 f2 | none => {}
        (r, TOut.done (a.join b))
    let (s, traps) := outs.foldl (applyOut is.len order 0) (s, traps)
    finish (s.deliver traps)

end Sys2Proof.Machine
end

