-- ==== Sys2Proof/Machine/Integer.lean ====
section
/-! DEFINITION. Integer arithmetic, compare, logic, shifts, bit fields and address instructions (R277 to R281). -/

namespace Sys2Proof.Machine

/-- `put` of an integer into D as the only effect. -/
def doneI (f : Full) (x : Int) : TOut := .done { regs := putI f.ty f.d.toNat x }
/-- `put`, or the clamp of `.sat` in `MOD` bit 2 (R278). -/
def doneSat (f : Full) (x : Int) : TOut :=
  doneI f (if f.mod.getLsbD 2 then clampI x (minVal f.ty) (maxVal f.ty) else x)
/-- A pattern of the TYPE's width into D as the only effect. -/
def doneP (f : Full) (p : Nat) : TOut := .done { regs := wrTy f.ty f.d.toNat p }
def doneWide (f : Full) (p : Nat) : TOut := .done { regs := wr2 f.d.toNat p }
def doneWord (f : Full) (p : Nat) : TOut := .done { regs := wr1 f.d.toNat p }
def donePred (f : Full) (b : Bool) : TOut := .done { preds := [(f.pd.toNat, b)] }

/-! ## The operands as values -/

def State.ia (s : State) (r : Ref) (f : Full) : Int := s.valA r f.ty f.a.toNat
def State.ib (s : State) (r : Ref) (f : Full) : Int := s.valB r f.ty f.b
def State.ic (s : State) (r : Ref) (f : Full) : Int := s.valA r f.ty f.c.toNat
def State.pa (s : State) (r : Ref) (f : Full) : Nat := s.opTy r f.ty f.a.toNat
def State.pb (s : State) (r : Ref) (f : Full) : Nat := s.bInt r f.ty f.b
def State.pc_ (s : State) (r : Ref) (f : Full) : Nat := s.opTy r f.ty f.c.toNat

/-! ## Arithmetic (R278) -/

def planIadd (f : Full) (s : State) (r : Ref) : TOut := doneSat f (s.ia r f + s.ib r f)
def planIsub (f : Full) (s : State) (r : Ref) : TOut := doneSat f (s.ia r f - s.ib r f)
def planImulLo (f : Full) (s : State) (r : Ref) : TOut := doneSat f (s.ia r f * s.ib r f)
def planImulHi (f : Full) (s : State) (r : Ref) : TOut := doneI f (s.ia r f * s.ib r f / (2 ^ f.ty.bits : Nat))
def planImulWide (f : Full) (s : State) (r : Ref) : TOut := doneWide f (truncI (s.ia r f * s.ib r f) 64)
def planImadLo (f : Full) (s : State) (r : Ref) : TOut := doneSat f (s.ia r f * s.ib r f + s.ic r f)
def planImadHi (f : Full) (s : State) (r : Ref) : TOut :=
  doneI f ((s.ia r f * s.ib r f + s.ic r f) / (2 ^ f.ty.bits : Nat))
def planImadWide (f : Full) (s : State) (r : Ref) : TOut :=
  let c := tyVal (if f.ty = .s32 then .s64 else .n64) (s.op64 r f.c.toNat)
  doneWide f (truncI (s.ia r f * s.ib r f + c) 64)

/-- The carry-in of `iaddc` and `isubb` (R278). -/
def carryIn (f : Full) (r : Ref) : Nat := if f.s then 0 else if r.T.pred f.c.toNat then 1 else 0
def planIaddc (f : Full) (s : State) (r : Ref) : TOut :=
  let u := s.pa r f + s.pb r f + carryIn f r
  .done { regs := putI f.ty f.d.toNat u, preds := [(f.pd.toNat, decide (2 ^ f.ty.bits ≤ u))] }
def planIsubb (f : Full) (s : State) (r : Ref) : TOut :=
  let u : Int := (s.pa r f : Int) - s.pb r f - carryIn f r
  .done { regs := putI f.ty f.d.toNat u, preds := [(f.pd.toNat, decide (u < 0))] }

/-- Quotient and remainder of R152. -/
def divRem (t : Ty) (a b : Int) : Int × Int :=
  if b = 0 then (-1, a)
  else if t.signed ∧ a = minVal t ∧ b = -1 then (a, 0)
  else (Int.tdiv a b, Int.tmod a b)
def planIdiv (f : Full) (s : State) (r : Ref) : TOut := doneI f (divRem f.ty (s.ia r f) (s.ib r f)).1
def planIrem (f : Full) (s : State) (r : Ref) : TOut := doneI f (divRem f.ty (s.ia r f) (s.ib r f)).2
def planImin (f : Full) (s : State) (r : Ref) : TOut := doneI f (min (s.ia r f) (s.ib r f))
def planImax (f : Full) (s : State) (r : Ref) : TOut := doneI f (max (s.ia r f) (s.ib r f))
def planIabs (f : Full) (s : State) (r : Ref) : TOut := doneSat f ((s.ia r f).natAbs : Int)
def planIneg (f : Full) (s : State) (r : Ref) : TOut := doneSat f (-(s.ia r f))

/-! ## Compare, select, clamp (R279) -/

def planIcmp (rel : Int → Int → Bool) (f : Full) (s : State) (r : Ref) : TOut := donePred f (rel (s.ia r f) (s.ib r f))
def planIsel (f : Full) (s : State) (r : Ref) : TOut := doneP f (if r.T.pred f.c.toNat then s.pa r f else s.pb r f)
def planIclamp (f : Full) (s : State) (r : Ref) : TOut := doneI f (min (max (s.ia r f) (s.ib r f)) (s.ic r f))

/-! ## Logic, shifts, bit fields and counts (R280) -/

def planIand (f : Full) (s : State) (r : Ref) : TOut := doneP f (s.pa r f &&& s.pb r f)
def planIor (f : Full) (s : State) (r : Ref) : TOut := doneP f (s.pa r f ||| s.pb r f)
def planIxor (f : Full) (s : State) (r : Ref) : TOut := doneP f (s.pa r f ^^^ s.pb r f)
def planInot (f : Full) (s : State) (r : Ref) : TOut := doneP f (2 ^ f.ty.bits - 1 - s.pa r f)

/-- A pattern of n bits from its bits. -/
def ofBits (n : Nat) (b : Nat → Bool) : Nat := (List.range n).foldl (fun x j => if b j then x + 2 ^ j else x) 0
def planIlop3 (f : Full) (s : State) (r : Ref) : TOut :=
  let lut := f.ext.toNat * 16 + f.mod.toNat
  let (a, b, c) := (s.pa r f, s.pb r f, s.pc_ r f)
  doneP f (ofBits f.ty.bits fun j => bitN lut (4 * bitN a j + 2 * bitN b j + bitN c j) == 1)

/-- The shift count, and the packed position and length: bits 31:0 of B, whatever the TYPE's width. -/
def State.count (s : State) (r : Ref) (f : Full) : Nat := s.b32 r f.b
def shlP (n a c : Nat) : Nat := if c < n then a * 2 ^ c % 2 ^ n else 0
def shrP (n a c : Nat) : Nat := if c < n then a / 2 ^ c else 0
def rotP (n a c : Nat) : Nat := let k := c % n; (a * 2 ^ k + a / 2 ^ (n - k)) % 2 ^ n
def planIshl (f : Full) (s : State) (r : Ref) : TOut := doneP f (shlP f.ty.bits (s.pa r f) (s.count r f))
def planIshrL (f : Full) (s : State) (r : Ref) : TOut := doneP f (shrP f.ty.bits (s.pa r f) (s.count r f))
/-- `val(A)` of an unsigned type is not negative: zeros shift in. -/
def planIshrA (f : Full) (s : State) (r : Ref) : TOut :=
  doneI f (s.ia r f / (2 ^ min (s.count r f) f.ty.bits : Nat))
def planIrot (f : Full) (s : State) (r : Ref) : TOut := doneP f (rotP f.ty.bits (s.pa r f) (s.count r f))

def planIbfx (f : Full) (s : State) (r : Ref) : TOut :=
  let n := f.ty.bits
  let c := s.count r f
  let (pos, len) := (bitsN c 7 0, min (bitsN c 15 8) n)
  let x := if pos < n then s.pa r f / 2 ^ pos % 2 ^ len else 0
  if len = 0 then doneI f 0 else if f.ty.signed then doneI f (sextN x len) else doneI f x
def planIbfi (f : Full) (s : State) (r : Ref) : TOut :=
  let n := f.ty.bits
  let c := s.count r f
  let (pos, len) := (bitsN c 7 0, min (bitsN c 15 8) n)
  let (a, w) := (s.pa r f, s.pc_ r f)
  doneP f (ofBits n fun j => if pos ≤ j ∧ j < pos + len then bitN a (j - pos) == 1 else bitN w j == 1)
def planIpopc (f : Full) (s : State) (r : Ref) : TOut :=
  let a := s.pa r f
  doneI f ((List.range f.ty.bits).foldl (fun x j => x + bitN a j) 0 : Nat)
def clzP (n a : Nat) : Nat := if a = 0 then n else n - 1 - Nat.log2 a
def ctzP (n a : Nat) : Nat := ((List.range n).find? fun j => bitN a j == 1).getD n
def planIclz (f : Full) (s : State) (r : Ref) : TOut := doneI f (clzP f.ty.bits (s.pa r f) : Nat)
def planIctz (f : Full) (s : State) (r : Ref) : TOut := doneI f (ctzP f.ty.bits (s.pa r f) : Nat)
def planIbrev (f : Full) (s : State) (r : Ref) : TOut :=
  let a := s.pa r f
  let n := f.ty.bits
  doneP f (ofBits n fun j => bitN a (n - 1 - j) == 1)

/-! ## Addresses (R281) -/

def planAmk (f : Full) (s : State) (r : Ref) : TOut :=
  doneWide f (s.op32 r f.a.toNat % 2 ^ 16 * 2 ^ 48 + s.b64 r f.b % 2 ^ 48)
def planAadd (f : Full) (s : State) (r : Ref) : TOut :=
  doneWide f (addOff (BitVec.ofNat 64 (s.op64 r f.a.toNat)) (sextN (s.b32 r f.b) 32)).toNat
def planAoff (f : Full) (s : State) (r : Ref) : TOut := doneWide f (s.op64 r f.a.toNat % 2 ^ 48)
def planAhnd (f : Full) (s : State) (r : Ref) : TOut := doneWord f (s.op64 r f.a.toNat / 2 ^ 48)

/-! ## The instructions -/

def execIadd (f : Full) (s : State) : Host.Outcome State Fault Refusal := issueEach 0x000 f (planIadd f) s
def execIsub (f : Full) (s : State) : Host.Outcome State Fault Refusal := issueEach 0x001 f (planIsub f) s
def execIaddc (f : Full) (s : State) : Host.Outcome State Fault Refusal := issueEach 0x002 f (planIaddc f) s
def execIsubb (f : Full) (s : State) : Host.Outcome State Fault Refusal := issueEach 0x003 f (planIsubb f) s
def execImulLo (f : Full) (s : State) : Host.Outcome State Fault Refusal := issueEach 0x004 f (planImulLo f) s
def execImulHi (f : Full) (s : State) : Host.Outcome State Fault Refusal := issueEach 0x005 f (planImulHi f) s
def execImulWide (f : Full) (s : State) : Host.Outcome State Fault Refusal := issueEach 0x006 f (planImulWide f) s
def execImadLo (f : Full) (s : State) : Host.Outcome State Fault Refusal := issueEach 0x007 f (planImadLo f) s
def execImadHi (f : Full) (s : State) : Host.Outcome State Fault Refusal := issueEach 0x008 f (planImadHi f) s
def execImadWide (f : Full) (s : State) : Host.Outcome State Fault Refusal := issueEach 0x009 f (planImadWide f) s
def execIdiv (f : Full) (s : State) : Host.Outcome State Fault Refusal := issueEach 0x00A f (planIdiv f) s
def execIrem (f : Full) (s : State) : Host.Outcome State Fault Refusal := issueEach 0x00B f (planIrem f) s
def execImin (f : Full) (s : State) : Host.Outcome State Fault Refusal := issueEach 0x00C f (planImin f) s
def execImax (f : Full) (s : State) : Host.Outcome State Fault Refusal := issueEach 0x00D f (planImax f) s
def execIabs (f : Full) (s : State) : Host.Outcome State Fault Refusal := issueEach 0x00E f (planIabs f) s
def execIneg (f : Full) (s : State) : Host.Outcome State Fault Refusal := issueEach 0x00F f (planIneg f) s
def execIcmpEq (f : Full) (s : State) : Host.Outcome State Fault Refusal := issueEach 0x010 f (planIcmp (· == ·) f) s
def execIcmpNe (f : Full) (s : State) : Host.Outcome State Fault Refusal := issueEach 0x011 f (planIcmp (· != ·) f) s
def execIcmpLt (f : Full) (s : State) : Host.Outcome State Fault Refusal :=
  issueEach 0x012 f (planIcmp (fun a b => decide (a < b)) f) s
def execIcmpLe (f : Full) (s : State) : Host.Outcome State Fault Refusal :=
  issueEach 0x013 f (planIcmp (fun a b => decide (a ≤ b)) f) s
def execIcmpGt (f : Full) (s : State) : Host.Outcome State Fault Refusal :=
  issueEach 0x014 f (planIcmp (fun a b => decide (b < a)) f) s
def execIcmpGe (f : Full) (s : State) : Host.Outcome State Fault Refusal :=
  issueEach 0x015 f (planIcmp (fun a b => decide (b ≤ a)) f) s
def execIsel (f : Full) (s : State) : Host.Outcome State Fault Refusal := issueEach 0x016 f (planIsel f) s
def execIclamp (f : Full) (s : State) : Host.Outcome State Fault Refusal := issueEach 0x017 f (planIclamp f) s
def execIand (f : Full) (s : State) : Host.Outcome State Fault Refusal := issueEach 0x018 f (planIand f) s
def execIor (f : Full) (s : State) : Host.Outcome State Fault Refusal := issueEach 0x019 f (planIor f) s
def execIxor (f : Full) (s : State) : Host.Outcome State Fault Refusal := issueEach 0x01A f (planIxor f) s
def execInot (f : Full) (s : State) : Host.Outcome State Fault Refusal := issueEach 0x01B f (planInot f) s
def execIlop3 (f : Full) (s : State) : Host.Outcome State Fault Refusal := issueEach 0x01C f (planIlop3 f) s
def execIshl (f : Full) (s : State) : Host.Outcome State Fault Refusal := issueEach 0x01D f (planIshl f) s
def execIshrL (f : Full) (s : State) : Host.Outcome State Fault Refusal := issueEach 0x01E f (planIshrL f) s
def execIshrA (f : Full) (s : State) : Host.Outcome State Fault Refusal := issueEach 0x01F f (planIshrA f) s
def execIrot (f : Full) (s : State) : Host.Outcome State Fault Refusal := issueEach 0x020 f (planIrot f) s
def execIbfx (f : Full) (s : State) : Host.Outcome State Fault Refusal := issueEach 0x021 f (planIbfx f) s
def execIbfi (f : Full) (s : State) : Host.Outcome State Fault Refusal := issueEach 0x022 f (planIbfi f) s
def execIpopc (f : Full) (s : State) : Host.Outcome State Fault Refusal := issueEach 0x023 f (planIpopc f) s
def execIclz (f : Full) (s : State) : Host.Outcome State Fault Refusal := issueEach 0x024 f (planIclz f) s
def execIctz (f : Full) (s : State) : Host.Outcome State Fault Refusal := issueEach 0x025 f (planIctz f) s
def execIbrev (f : Full) (s : State) : Host.Outcome State Fault Refusal := issueEach 0x026 f (planIbrev f) s
def execAmk (f : Full) (s : State) : Host.Outcome State Fault Refusal := issueEach 0x027 f (planAmk f) s
def execAadd (f : Full) (s : State) : Host.Outcome State Fault Refusal := issueEach 0x028 f (planAadd f) s
def execAoff (f : Full) (s : State) : Host.Outcome State Fault Refusal := issueEach 0x029 f (planAoff f) s
def execAhnd (f : Full) (s : State) : Host.Outcome State Fault Refusal := issueEach 0x02A f (planAhnd f) s

end Sys2Proof.Machine
end

