-- ==== Sys2Proof/Machine/Planes.lean ====
section
/-! DEFINITION. The value of a planar block and the packing of numbers into one (R116, R117, R118). -/

namespace Sys2Proof.Machine

/-- The value of an element from its magnitude bits as a number of `dh` bits (R116). -/
def planeVal (E : Nat) (neg : Bool) (mag dh : Nat) (centre : Bool) : FVal :=
  if E = 0 then .fin false 0 0
  else if centre then .fin neg (2 * mag + 1) ((E : Int) - 126 - dh - 1)
  else .fin neg mag ((E : Int) - 126 - dh)

/-- A packed block: sign and magnitude (d bits, an integer) of each element (R117). -/
structure Packed where
  E : Nat
  els : List (Bool × Nat)
  sat : Bool
  nanz : Bool
  flags : Flg
deriving DecidableEq, Repr

/-- `qround` of R117, as a count of 2^(−d), with whether it is exact; an infinity gives 1. -/
def qround (v : FVal) (E d : Nat) : Nat × Bool :=
  match v with
  | .nan _ => (0, true)
  | .inf _ => (2 ^ d, false)
  | .fin _ m e => let (q, nx) := roundAt 0 false m (e + 126 - E + d) 0 false; (q, !nx)

/-- The largest finite magnitude's ⌊log2⌋, if any is not 0. -/
def topLog (xs : List FVal) : Option Int :=
  xs.foldl (fun b v => match v with
    | .fin _ m e => if m = 0 then b else match b with
      | none => some (flog2 m e)
      | some x => some (max x (flog2 m e))
    | _ => b) none

/-- Packing at depth d (R117), with the flags of `plpack` (R118). -/
def packBlock (xs : List FVal) (d : Nat) : Packed :=
  let nanz := xs.any FVal.isNaN
  let inf := xs.any FVal.isInf
  let E0 : Nat := if inf then 254 else match topLog xs with
    | none => 0
    | some l => (max 1 (127 + l)).toNat
  if E0 = 0 then
    { E := 0, els := xs.map fun v => (v.sign, 0), sat := false, nanz := nanz, flags := if nanz then flNV else 0 }
  else
    let q0 := xs.map fun v => qround v E0 d
    let E := if q0.any (fun q => q.1 == 2 ^ d) && decide (E0 < 254) then E0 + 1 else E0
    let qs := xs.map fun v => qround v E d
    let sat := qs.any fun q => decide (2 ^ d ≤ q.1)
    let inex := qs.any fun q => !q.2
    let lost := (xs.zip qs).any fun e => match e.1 with
      | .fin _ m _ => m != 0 && e.2.1 == 0
      | _ => false
    { E := E, els := (xs.zip qs).map fun e => (e.1.sign, min e.2.1 (2 ^ d - 1)), sat := sat, nanz := nanz,
      flags := (if nanz then flNV else 0) ||| (if sat then flOF ||| flNX else 0) ||| (if inex then flNX else 0)
        ||| (if lost then flUF ||| flNX else 0) }

end Sys2Proof.Machine
end

