-- ==== Sys2Proof/Machine/Float.lean ====
section
/-! DEFINITION. Floating arithmetic, compares, conversions, special functions, activation tables and planar registers (R282 to
R293). -/

namespace Sys2Proof.Machine

/-- A floating pattern and its flags into D (R274, R159). -/
def doneF (f : Full) (x : Nat × Flg) : TOut := .done { regs := wrTy f.ty f.d.toNat x.1, flags := x.2 }
def fmtF (f : Full) : FFmt := fmtOf f.ty f.ext.toNat f.mod.toNat
def rmode (f : Full) : Nat := f.mod.toNat % 4
def fsat (f : Full) : Bool := f.mod.getLsbD 2
/-- Operands A, B and C as floating values, and A and B as patterns. -/
def State.fpB (s : State) (r : Ref) (f : Full) : Nat := s.bFloat r f.ty f.b
def State.fa (s : State) (r : Ref) (f : Full) : FVal := (fmtF f).decode (s.pa r f)
def State.fb (s : State) (r : Ref) (f : Full) : FVal := (fmtF f).decode (s.fpB r f)
def State.fc (s : State) (r : Ref) (f : Full) : FVal := (fmtF f).decode (s.pc_ r f)

def planFadd (f : Full) (s : State) (r : Ref) : TOut := doneF f (fAdd (fmtF f) (rmode f) (fsat f) (s.fa r f) (s.fb r f))
def planFsub (f : Full) (s : State) (r : Ref) : TOut := doneF f (fAdd (fmtF f) (rmode f) (fsat f) (s.fa r f) (s.fb r f).neg)
def planFmul (f : Full) (s : State) (r : Ref) : TOut := doneF f (fMul (fmtF f) (rmode f) (fsat f) (s.fa r f) (s.fb r f))
def planFfma (f : Full) (s : State) (r : Ref) : TOut :=
  doneF f (fFma (fmtF f) (rmode f) (fsat f) (s.fa r f) (s.fb r f) (s.fc r f))
def planFdiv (f : Full) (s : State) (r : Ref) : TOut := doneF f (fDiv (fmtF f) (rmode f) (fsat f) (s.fa r f) (s.fb r f))
def planFsqrt (f : Full) (s : State) (r : Ref) : TOut := doneF f (fSqrt (fmtF f) (rmode f) (fsat f) (s.fa r f))
def planFrcp (f : Full) (s : State) (r : Ref) : TOut := doneF f (fRcp (fmtF f) f.ty.code (fsat f) (s.pa r f))
def planFrsq (f : Full) (s : State) (r : Ref) : TOut := doneF f (fRsq (fmtF f) f.ty.code (fsat f) (s.pa r f))
def planFmin (f : Full) (s : State) (r : Ref) : TOut := doneF f (fMinMax (fmtF f) false (s.pa r f) (s.fpB r f))
def planFmax (f : Full) (s : State) (r : Ref) : TOut := doneF f (fMinMax (fmtF f) true (s.pa r f) (s.fpB r f))
/-- Bit operations on the sign (R155). -/
def planFabs (f : Full) (s : State) (r : Ref) : TOut := doneP f (s.pa r f % 2 ^ (f.ty.bits - 1))
def planFneg (f : Full) (s : State) (r : Ref) : TOut := doneP f (s.pa r f ^^^ 2 ^ (f.ty.bits - 1))

/-- `fcmp` (R284): the relation of two numbers, its answer when one is a NaN, and whether a quiet NaN sets invalid. -/
def planFcmp (rel : Int → Bool) (onNaN quietToo : Bool) (f : Full) (s : State) (r : Ref) : TOut :=
  let a := s.fa r f
  let b := s.fb r f
  let nan := a.isNaN || b.isNaN
  .done { preds := [(f.pd.toNat, if nan then onNaN else rel (fCmp a b))],
          flags := if nan && quietToo then flNV else sigFlg a ||| sigFlg b }
def planFclass (f : Full) (s : State) (r : Ref) : TOut := doneWord f (fClass (fmtF f) (s.pa r f))
def planFrnd (f : Full) (s : State) (r : Ref) : TOut := doneF f (fRnd (fmtF f) (rmode f) (s.pa r f))

/-! ## Conversions (R285, R286) -/

/-- `cvt` from a source type: the binary8 variant of the source stands in C. -/
def planCvt (src : Ty) (f : Full) (s : State) (r : Ref) : TOut :=
  let c := f.c.toNat
  let sf := if src = .f8 then FFmt.b8 (c % 8) (bitN c 3 == 1) (bitN c 4 == 1) else fmtOf src 0 0
  doneF f (convert src sf f.ty (fmtF f) (rmode f) (fsat f) (s.opTy r src f.a.toNat))

/-- The wide type of a packed TYPE (R286). -/
def wideTy (t : Ty) : Ty := if t.isFloat then .f32 else .s32
/-- A word with element e of n bits replaced. -/
def setElem (w n e x : Nat) : Nat := w - w / 2 ^ (n * e) % 2 ^ n * 2 ^ (n * e) + x % 2 ^ n * 2 ^ (n * e)
def planCvtpk (f : Full) (s : State) (r : Ref) : TOut :=
  let w := wideTy f.ty
  let k := f.c.toNat
  let conv (p : Nat) := convert w .f32 f.ty (fmtF f) (rmode f) (fsat f) p
  let x := conv (s.op32 r f.a.toNat)
  let y := conv (if w = .f32 then s.bFloat r .f32 f.b else s.bInt r .s32 f.b)
  let d := setElem (setElem (s.op32 r f.d.toNat) f.ty.bits (2 * k) x.1) f.ty.bits (2 * k + 1) y.1
  .done { regs := wr1 f.d.toNat d, flags := x.2 ||| y.2 }
def planCvtup (f : Full) (s : State) (r : Ref) : TOut :=
  let n := f.ty.bits
  let x := convert f.ty (fmtF f) (wideTy f.ty) .f32 0 false (s.op32 r f.a.toNat / 2 ^ (n * f.c.toNat) % 2 ^ n)
  .done { regs := wr1 f.d.toNat x.1, flags := x.2 }

/-! ## Special functions and activation tables (R287 to R289, R167 to R170) -/

def planSfn (fn : Nat) (f : Full) (s : State) (r : Ref) : TOut := doneF f (sfn fn (s.pa r f))

/-- The bank an `act` of a context reads: another context's bank reads as zeros (R169). -/
def Core.bankFor (c : Core) (n ctx : Nat) : Bank :=
  let b := if n = 0 then c.bank0 else c.bank1
  if b.owner = some ctx then b else {}
/-- `act` (R168). -/
def actValue (b : Bank) (p : Nat) : Nat × Flg :=
  let f := FFmt.f32
  let x := f.decode p
  if x.isNaN then (f.nan, sigFlg x)
  else
    let d := fAdd f 0 false x (f.decode b.lo.toNat).neg
    let u := fMul f 0 false (f.decode d.1) (f.decode b.scale.toNat)
    let uv := f.decode u.1
    let (idx, t) : Nat × FVal :=
      match uv with
      | .nan _ => (0, .fin false 0 0)
      | .inf neg => if neg then (0, .fin false 0 0) else (255, .fin false 1 0)
      | .fin neg m e =>
        let k := (roundAt 1 false m e 0 false).1
        if neg ∧ m ≠ 0 then (0, .fin false 0 0)
        else if 256 ≤ k then (255, .fin false 1 0)
        else (k, (exactSum 0 [uv, .fin true k 0]).1)
    let c (j : Nat) : FVal := f.decode (Map.getD b.seg 0 (4 * idx + j)).toNat
    let y3 := fFma f 0 false (c 3) t (c 2)
    let y2 := fFma f 0 false (f.decode y3.1) t (c 1)
    let y1 := fFma f 0 false (f.decode y2.1) t (c 0)
    (y1.1, d.2 ||| u.2 ||| y3.2 ||| y2.2 ||| y1.2)
/-- A pending load of a bank of a core (R170). -/
def State.bankLoading (s : State) (core bank : Nat) : Bool :=
  s.accesses.any fun a => match a.kind, s.group? a.grp with
    | .actld b _ _, some G => b == bank && G.core == core
    | _, _ => false
def planAct (f : Full) (s : State) (r : Ref) : TOut :=
  if s.bankLoading r.G.core r.G.bank then .wait .resource
  else doneF f (actValue ((s.core r.G.core).bankFor r.G.bank r.G.ctx) (s.pa r f))

/-- The trap of a refused direct access (R463). -/
def portTrap (kind cause need : Nat) (a : Addr) (cls : Nat) : Trap :=
  { cause := cause, arg := kind + 256 * need, addr := a.toNat, cls := cls }
/-- The port's answer to a load at issue: what to do, or that it may start (R463, R465). -/
def State.loadAt (s : State) (r : Ref) (kind : Nat) (a : Addr) (len : Nat) (start : Option (Nat × Nat × Nat) → TOut) : TOut :=
  match s.port_ r.G.ctx (s.renOf r.G.item) .load a len with
  | .refused cause need => .trap (portTrap kind cause need a 0)
  | .page buf pg => .page kind buf pg a
  | .remote pod x => start (some (pod, x, s.clock))
  | .ok _ => start none
/-- `actld` (R288): 257 events of 16 bytes. -/
def planActld (f : Full) (s : State) (r : Ref) : TOut :=
  let a := s.ea r f
  if a.toNat % 16 ≠ 0 then .trap { cause := 0x04, arg := 4, addr := a.toNat }
  else s.loadAt r 8 a 4112 fun rem =>
    .done { accs := [{ kind := .actld (if f.s then 1 else 0) a 0, parts := (List.range 257).map fun k => (16 * k, 16), remote := rem }],
            vol := if rem.isSome then 32 else 0 }
/-- `actsel` (R289): of one issue, in each group the lowest valid lane's value
stands, from the next cycle (R45, R169). -/
def actActsel (f : Full) (s : State) (rs : List Ref) : State × List (Ref × TOut) :=
  let ok := rs.filter fun r => decide (s.b32 r f.b ≤ 1)
  (s.modLeads ok fun r G => { G with bankNext := some (s.b32 r f.b) }, rs.map fun r => (r, if s.b32 r f.b ≤ 1 then .done {} else .trap { cause := 0x03, arg := 2 }))

/-! ## Planar registers (R290 to R293) -/

/-- `plpack` (R291); its depth is an integer whatever the TYPE. -/
def actPlpack (f : Full) (s : State) (rs : List Ref) : State × List (Ref × TOut) :=
  match rs.head? with
  | none => (s, [])
  | some lo =>
    let d := s.b32 lo f.b
    if d < 1 ∨ 24 < d then (s, rs.map fun r => (r, .trap { cause := 0x03, arg := 2 }))
    else
      let xs := (List.range 32).map fun i => match rs.find? (·.T.lane == i) with
        | some r => s.fa r f
        | none => FVal.fin false 0 0
      let p := packBlock xs d
      let b (x : Bool) : Nat := if x then 1 else 0
      let tag := (2 * b p.sat + b p.nanz) * 2 ^ 16 + 2 ^ 15 + b f.s * 2 ^ 14 + 2 ^ 13 + d * 2 ^ 8 + p.E
      (s, rs.map fun r =>
        let (sg, q) := p.els.getD r.T.lane (false, 0)
        (r, .done { regs := [(f.d.toNat, b sg * 2 ^ 31 + q * 2 ^ (31 - d))], tags := [(f.d.toNat, tag)], flags := p.flags }))

/-- `plval` (R292). -/
def planPlval (f : Full) (_ : State) (r : Ref) : TOut :=
  let w := r.T.v f.a.toNat
  let t := r.T.tag f.a.toNat
  if bitN t 15 = 0 then doneWord f w
  else
    let hd := bitsN t 12 8
    let v := planeVal (t % 256) (bitN w 31 == 1) (w % 2 ^ 31 / 2 ^ (31 - hd)) hd (bitN t 14 == 1 && bitN t 13 == 0)
    doneF f (roundVal .f32 (rmode f) (fsat f) v)
def planPltag (f : Full) (_ : State) (r : Ref) : TOut := doneWord f (r.T.tag f.a.toNat)
def planPlsett (f : Full) (s : State) (r : Ref) : TOut := .done { tags := [(f.d.toNat, s.op32 r f.a.toNat)] }
/-- `pltrim` (R293). -/
def planPltrim (f : Full) (s : State) (r : Ref) : TOut :=
  let n := s.b32 r f.b
  if 24 < n then .trap { cause := 0x03, arg := 2 }
  else
    let w := r.T.v f.a.toNat
    let t := r.T.tag f.a.toNat
    if bitN t 15 = 0 then .done { regs := [(f.d.toNat, w)], tags := [(f.d.toNat, t)] }
    else
      let hd := bitsN t 12 8
      let nh := min hd n
      let x := if nh = hd then bitN t 13 else if t % 256 = 0 then 1 else 0
      .done { regs := [(f.d.toNat, w / 2 ^ (31 - nh) * 2 ^ (31 - nh))],
              tags := [(f.d.toNat, t / 2 ^ 14 * 2 ^ 14 + x * 2 ^ 13 + nh * 2 ^ 8 + t % 256)] }

/-! ## The instructions -/

def execFadd (f : Full) (s : State) : Host.Outcome State Fault Refusal := issueEach 0x040 f (planFadd f) s
def execFsub (f : Full) (s : State) : Host.Outcome State Fault Refusal := issueEach 0x041 f (planFsub f) s
def execFmul (f : Full) (s : State) : Host.Outcome State Fault Refusal := issueEach 0x042 f (planFmul f) s
def execFfma (f : Full) (s : State) : Host.Outcome State Fault Refusal := issueEach 0x043 f (planFfma f) s
def execFdiv (f : Full) (s : State) : Host.Outcome State Fault Refusal := issueEach 0x044 f (planFdiv f) s
def execFsqrt (f : Full) (s : State) : Host.Outcome State Fault Refusal := issueEach 0x045 f (planFsqrt f) s
def execFrcp (f : Full) (s : State) : Host.Outcome State Fault Refusal := issueEach 0x046 f (planFrcp f) s
def execFrsq (f : Full) (s : State) : Host.Outcome State Fault Refusal := issueEach 0x047 f (planFrsq f) s
def execFmin (f : Full) (s : State) : Host.Outcome State Fault Refusal := issueEach 0x048 f (planFmin f) s
def execFmax (f : Full) (s : State) : Host.Outcome State Fault Refusal := issueEach 0x049 f (planFmax f) s
def execFabs (f : Full) (s : State) : Host.Outcome State Fault Refusal := issueEach 0x04A f (planFabs f) s
def execFneg (f : Full) (s : State) : Host.Outcome State Fault Refusal := issueEach 0x04B f (planFneg f) s
def execFcmpEq (f : Full) (s : State) : Host.Outcome State Fault Refusal :=
  issueEach 0x04C f (planFcmp (fun c => c == 0) false false f) s
def execFcmpNe (f : Full) (s : State) : Host.Outcome State Fault Refusal :=
  issueEach 0x04D f (planFcmp (fun c => c != 0) true false f) s
def execFcmpLt (f : Full) (s : State) : Host.Outcome State Fault Refusal :=
  issueEach 0x04E f (planFcmp (fun c => decide (c < 0)) false true f) s
def execFcmpLe (f : Full) (s : State) : Host.Outcome State Fault Refusal :=
  issueEach 0x04F f (planFcmp (fun c => decide (c ≤ 0)) false true f) s
def execFcmpGt (f : Full) (s : State) : Host.Outcome State Fault Refusal :=
  issueEach 0x050 f (planFcmp (fun c => decide (0 < c)) false true f) s
def execFcmpGe (f : Full) (s : State) : Host.Outcome State Fault Refusal :=
  issueEach 0x051 f (planFcmp (fun c => decide (0 ≤ c)) false true f) s
def execFcmpUn (f : Full) (s : State) : Host.Outcome State Fault Refusal :=
  issueEach 0x052 f (planFcmp (fun _ => false) true false f) s
def execFcmpOr (f : Full) (s : State) : Host.Outcome State Fault Refusal :=
  issueEach 0x053 f (planFcmp (fun _ => true) false false f) s
def execFclass (f : Full) (s : State) : Host.Outcome State Fault Refusal := issueEach 0x054 f (planFclass f) s
def execFrnd (f : Full) (s : State) : Host.Outcome State Fault Refusal := issueEach 0x055 f (planFrnd f) s
def execCvtpk (f : Full) (s : State) : Host.Outcome State Fault Refusal := issueEach 0x056 f (planCvtpk f) s
def execCvtup (f : Full) (s : State) : Host.Outcome State Fault Refusal := issueEach 0x057 f (planCvtup f) s
def execSfnEx2 (f : Full) (s : State) : Host.Outcome State Fault Refusal := issueEach 0x058 f (planSfn 0 f) s
def execSfnLg2 (f : Full) (s : State) : Host.Outcome State Fault Refusal := issueEach 0x059 f (planSfn 1 f) s
def execSfnSin (f : Full) (s : State) : Host.Outcome State Fault Refusal := issueEach 0x05A f (planSfn 2 f) s
def execSfnCos (f : Full) (s : State) : Host.Outcome State Fault Refusal := issueEach 0x05B f (planSfn 3 f) s
def execSfnTanh (f : Full) (s : State) : Host.Outcome State Fault Refusal := issueEach 0x05C f (planSfn 4 f) s
def execSfnSigm (f : Full) (s : State) : Host.Outcome State Fault Refusal := issueEach 0x05D f (planSfn 5 f) s
def execSfnErf (f : Full) (s : State) : Host.Outcome State Fault Refusal := issueEach 0x05E f (planSfn 6 f) s
def execAct (f : Full) (s : State) : Host.Outcome State Fault Refusal := issueEach 0x05F f (planAct f) s
def execCvt (src : Ty) (f : Full) (s : State) : Host.Outcome State Fault Refusal :=
  issueEach (0x060 + src.code) f (planCvt src f) s
def execActld (f : Full) (s : State) : Host.Outcome State Fault Refusal := issueEach 0x070 f (planActld f) s
def execActsel (f : Full) (s : State) : Host.Outcome State Fault Refusal := issueAll 0x071 f (actActsel f) s
def execPlpack (f : Full) (s : State) : Host.Outcome State Fault Refusal := issueAll 0x072 f (actPlpack f) s
def execPlval (f : Full) (s : State) : Host.Outcome State Fault Refusal := issueEach 0x073 f (planPlval f) s
def execPltag (f : Full) (s : State) : Host.Outcome State Fault Refusal := issueEach 0x074 f (planPltag f) s
def execPlsett (f : Full) (s : State) : Host.Outcome State Fault Refusal := issueEach 0x075 f (planPlsett f) s
def execPltrim (f : Full) (s : State) : Host.Outcome State Fault Refusal := issueEach 0x076 f (planPltrim f) s

end Sys2Proof.Machine
end

