-- ==== Sys2Proof/Machine/Lane.lean ====
section
/-! DEFINITION. Cross-lane instructions (R294 to R300) and moves, special registers and predicates (R301 to R303). -/

namespace Sys2Proof.Machine

/-- The contributors of a thread's lane tile, in lane order (R294). -/
def tileOf (rs : List Ref) (r : Ref) : List Ref := rs.filter fun q => q.T.lane / r.G.part == r.T.lane / r.G.part
def tileBase (r : Ref) : Nat := r.T.lane / r.G.part * r.G.part
/-- An effect each thread has from its tile's contributors. -/
def perTile (rs : List Ref) (h : Ref → List Ref → TOut) : List (Ref × TOut) := rs.map fun r => (r, h r (tileOf rs r))
/-- A cross-lane effect on registers alone: every thread reads before any writes. -/
def issueTile (op : Nat) (f : Full) (plan : State → List Ref → List (Ref × TOut)) (s : State) :
    Host.Outcome State Fault Refusal := issueAll op f (fun s rs => (s, plan s rs)) s

/-- `part` (R45, R296): the new width holds from the next cycle. -/
def actPart (f : Full) (s : State) (rs : List Ref) : State × List (Ref × TOut) :=
  match rs.head? with
  | none => (s, [])
  | some lo =>
    if rs.all fun r => [2, 4, 8, 16, 32].contains (s.b32 r f.b) then
      (s.modG lo.g fun G => { G with partNext := some (s.b32 lo f.b) }, rs.map fun r => (r, .done {}))
    else (s, rs.map fun r => (r, .trap { cause := 0x03, arg := 2 }))

/-- `wsync` (R46): the thread goes on when its warp is released. -/
def planWsync (_ : Full) (s : State) (r : Ref) : TOut :=
  .wait (.wsync (addOff r.T.pc (match s.issue with | some is => is.len | none => 8)))

/-! ## Votes and shuffles (R297) -/

def voteQ (f : Full) (r : Ref) : Bool := r.T.pred f.a.toNat
def planVoteAll (f : Full) (_ : State) (rs : List Ref) : List (Ref × TOut) :=
  perTile rs fun _ c => donePred f (c.all (voteQ f))
def planVoteAny (f : Full) (_ : State) (rs : List Ref) : List (Ref × TOut) :=
  perTile rs fun _ c => donePred f (c.any (voteQ f))
def planVoteEq (f : Full) (_ : State) (rs : List Ref) : List (Ref × TOut) :=
  perTile rs fun _ c => donePred f (c.all (voteQ f) || !(c.any (voteQ f)))
def planVoteBallot (f : Full) (_ : State) (rs : List Ref) : List (Ref × TOut) :=
  perTile rs fun _ c => doneWord f (ofBits 32 fun j => c.any fun q => q.T.lane == j && voteQ f q)

/-- A shuffle: `src` gives the source lane of a thread, if it lies in the tile. -/
def planShfl (src : Ref → Nat → Option Nat) (f : Full) (s : State) (rs : List Ref) : List (Ref × TOut) :=
  perTile rs fun r c =>
    let hit := (src r (s.b32 r f.b)).bind fun j => c.find? (·.T.lane == j)
    match hit with
    | some q => .done { regs := wrTy f.ty f.d.toNat (s.pa q f), preds := [(f.pd.toNat, true)] }
    | none => .done { regs := wrTy f.ty f.d.toNat (s.pa r f), preds := [(f.pd.toNat, false)] }
def srcIdx (r : Ref) (b : Nat) : Option Nat := some (tileBase r + b % r.G.part)
def srcUp (r : Ref) (b : Nat) : Option Nat := if tileBase r + b ≤ r.T.lane then some (r.T.lane - b) else none
def srcDown (r : Ref) (b : Nat) : Option Nat :=
  if r.T.lane + b < tileBase r + r.G.part then some (r.T.lane + b) else none
def srcXor (r : Ref) (b : Nat) : Option Nat := some (tileBase r + ((r.T.lane - tileBase r) ^^^ (b % r.G.part)))

/-! ## Reductions and scans (R298) -/

/-- An integer combination: 0 add, 1 min, 2 max, 3 and, 4 or, 5 xor. No term gives the identity. -/
def redInt (op : Nat) (t : Ty) (sat : Bool) (ps : List Nat) : Int :=
  let vs := ps.map (tyVal t)
  match op with
  | 0 => let x := vs.foldl (· + ·) 0; if sat then clampI x (minVal t) (maxVal t) else x
  | 1 => vs.foldl min (maxVal t)
  | 2 => vs.foldl max (minVal t)
  | 3 => (ps.foldl (· &&& ·) (2 ^ t.bits - 1) : Nat)
  | 4 => (ps.foldl (· ||| ·) 0 : Nat)
  | _ => (ps.foldl (· ^^^ ·) 0 : Nat)
/-- The exact sum of lane terms, with the zero sign of R298. -/
def laneSum (mode : Nat) (vs : List FVal) : FVal × Flg :=
  let (v, fl) := exactSum mode vs
  match v with
  | .fin _ 0 e => (.fin (vs.all (fun x => x.isZero && x.sign) || mode == 3) 0 e, fl)
  | _ => (v, fl)
/-- A floating combination: 0 add, 1 min, 2 max. -/
def redFloat (op : Nat) (f : FFmt) (mode : Nat) (sat : Bool) (ps : List Nat) : Nat × Flg :=
  match op, ps with
  | 0, [] => (f.withSign true 0, 0)
  | 0, ps =>
    let (v, fl) := laneSum mode (ps.map f.decode)
    withFlg (roundVal f mode sat v) fl
  | 1, [] => (f.infPat false, 0)
  | _, [] => (f.infPat true, 0)
  | op, p :: rest => rest.foldl (fun a q => withFlg (fMinMax f (op != 1) a.1 q) a.2) (fMinMax f (op != 1) p p)

/-- The terms a scan gives a lane: those at or below it, or below it (R298). -/
def scanTerms (f : Full) (r : Ref) (c : List Ref) : List Ref :=
  c.filter fun q => if f.s then decide (q.T.lane < r.T.lane) else decide (q.T.lane ≤ r.T.lane)
def planLred (f : Full) (s : State) (rs : List Ref) : List (Ref × TOut) :=
  perTile rs fun _ c => doneI f (redInt f.ext.toNat f.ty (fsat f) (c.map fun q => s.pa q f))
def planLredF (f : Full) (s : State) (rs : List Ref) : List (Ref × TOut) :=
  perTile rs fun _ c => doneF f (redFloat f.ext.toNat (fmtOf f.ty 0 0) (rmode f) (fsat f) (c.map fun q => s.pa q f))
def planLscan (f : Full) (s : State) (rs : List Ref) : List (Ref × TOut) :=
  perTile rs fun r c => doneI f (redInt f.ext.toNat f.ty (fsat f) ((scanTerms f r c).map fun q => s.pa q f))
def planLscanF (f : Full) (s : State) (rs : List Ref) : List (Ref × TOut) :=
  perTile rs fun r c =>
    doneF f (redFloat f.ext.toNat (fmtOf f.ty 0 0) (rmode f) (fsat f) ((scanTerms f r c).map fun q => s.pa q f))

/-! ## Ranking and lane matrices (R299, R300) -/

/-- Whether lane value p ranks before q: descending, NaNs last. -/
def ranksBefore (t : Ty) (p q : Nat) : Bool :=
  if t.isFloat then
    let f := fmtOf t 0 0
    let a := f.decode p
    let b := f.decode q
    if a.isNaN then false else if b.isNaN then true else fLtZ b a
  else decide (tyVal t q < tyVal t p)
/-- Insertion into a ranking: ties keep the lower lane first. -/
def rankInsert (t : Ty) (x : Ref × Nat) : List (Ref × Nat) → List (Ref × Nat)
  | [] => [x]
  | y :: ys => if ranksBefore t x.2 y.2 then x :: y :: ys else y :: rankInsert t x ys
/-- k of a tile's lowest contributor (R299). -/
def kOf (f : Full) (s : State) (r : Ref) : Int :=
  match f.b with
  | .num n => if f.ty.signed || f.ty.isFloat then sextN (s.op32 r n.toNat) 32 else s.op32 r n.toNat
  | .imm n => n.toInt
  | .lit w => w.toInt
def planSelk (lanes : Bool) (f : Full) (s : State) (rs : List Ref) : List (Ref × TOut) :=
  let low (r : Ref) : Ref := ((tileOf rs r).head?).getD r
  if rs.any fun r => decide (kOf f s (low r) < 0) then rs.map fun r => (r, .trap { cause := 0x03, arg := 2 })
  else perTile rs fun r c =>
    let k := min (kOf f s (low r)).toNat r.G.part
    let ranked := (c.map fun q => (q, s.pa q f)).foldl (fun l x => rankInsert f.ty x l) []
    let j := r.T.lane - tileBase r
    match (if j < k then ranked[j]? else none) with
    | some (q, p) =>
      .done { regs := if lanes then wrTy f.ty f.d.toNat q.T.lane else wrTy f.ty f.d.toNat p, preds := [(f.pd.toNat, true)] }
    | none => donePred f false

def planPermx (f : Full) (s : State) (rs : List Ref) : List (Ref × TOut) :=
  perTile rs fun r c =>
    let mask := s.b32 r f.b
    let js := c.filter fun q => bitN mask q.T.lane == 1
    let ps := js.map fun q => s.pa q f
    if f.s then doneP f (ps.headD 0)
    else if f.ty.isFloat then
      if js = [] then doneF f (0, 0) else doneF f (redFloat 0 (fmtOf f.ty 0 0) (rmode f) (fsat f) ps)
    else doneI f (redInt 0 f.ty (fsat f) ps)

/-! ## Moves (R301) -/

def planMov (f : Full) (s : State) (r : Ref) : TOut := doneP f (s.pa r f)
def planMovi (f : Full) (s : State) (r : Ref) : TOut := doneP f (if f.ty.isFloat then s.fpB r f else s.pb r f)

/-! ## Special registers (R302) -/

/-- `$sched` as a write leaves it (R54). -/
def schedWrite (x : Nat) : Word :=
  let w := min 30 (max 10 (bitsN x 31 27))
  let sl := min 20 (bitsN x 26 22)
  let fi := min 65536 (max 64 (bitsN x 16 0))
  BitVec.ofNat 32 (w * 2 ^ 27 + sl * 2 ^ 22 + bitN x 17 * 2 ^ 17 + fi)
/-- `$wcnt` (R99). -/
def Thread.wcnt (T : Thread) : Nat :=
  T.tl % 16 * 2 ^ 24 + T.cp % 64 * 2 ^ 16 + T.st % 64 * 2 ^ 8 + T.ld % 64
/-- A special register's value (R264). -/
def State.sreg (s : State) (r : Ref) (n : Nat) : Nat :=
  match n with
  | 0 => r.G.fstat
  | 1 => r.G.sched.toNat
  | 2 => r.T.wcnt
  | 3 => r.G.ctags
  | 4 => s.clock % 2 ^ 64
  | 5 => r.G.lsn
  | 6 => r.G.mrow.toNat
  | 7 => r.G.part
  | 8 => r.T.tcause.toNat
  | 9 => r.T.tpc.toNat
  | 0xA => r.T.tlanes.toNat
  | _ => r.T.taddr.toNat
/-- Whether a matrix loop of a thread is in flight: it may still raise S4 (R160). -/
def Group.loopOf (G : Group) (t : Nat) : Bool := match G.loop with | some l => l.tids.contains t | none => false
/-- `rdsr`; of `$fstat` it waits for the thread's earlier flag-raising instructions (R160). -/
def planRdsr (f : Full) (s : State) (r : Ref) : TOut :=
  let n := f.a.toNat
  let x := s.sreg r n
  if n = 0 ∧ r.G.loopOf r.t then .wait .resource
  else .done { regs := if sreg64 n then wr2 f.d.toNat x else wr1 f.d.toNat x, vol := if n = 4 ∨ n = 5 then 2 else 0 }

/-- `wrsr` of `$ctags` (R100): tags with a count stay at 0. -/
def Group.setCtags (G : Group) (x : Nat) : Group :=
  (List.range G.lr.tagcnt).foldl (fun G k =>
    let n := G.lr.tagbase + k
    if Map.getD G.tagCnt 0 n = 0 then G.setTag n (bitN x n == 1) else G) G
/-- `wrsr` of `$sched`: fairness disarms the progress watchdog, and without it no thread is starved (R54, R55, R441). -/
def Group.setSched (G : Group) (x : Nat) : Group :=
  { G with sched := schedWrite x, threads := G.threads.map fun e =>
      (e.1, if bitN x 17 = 1 then { e.2 with watched := 0 } else { e.2 with starved := false }) }
def actWrsr (f : Full) (s : State) (r : Ref) : State × TOut :=
  let n := f.d.toNat
  let x := if sreg64 n then s.op64 r f.a.toNat else s.op32 r f.a.toNat
  let s := match n with
    | 0 => s.modG r.g (·.setFstat x)
    | 1 => s.modG r.g (·.setSched x)
    | 3 => s.modG r.g (·.setCtags x)
    | 8 => s.modT r.g r.t fun T => { T with tcause := BitVec.ofNat 32 x &&& 0xFFFFE0FF }
    | 9 => s.modT r.g r.t fun T => { T with tpc := BitVec.ofNat 64 x }
    | 0xA => s.modT r.g r.t fun T => { T with tlanes := BitVec.ofNat 32 x }
    | _ => s.modT r.g r.t fun T => { T with taddr := BitVec.ofNat 64 x }
  (s, .done {})

/-! ## Predicates (R303) -/

def predA (f : Full) (r : Ref) : Bool := r.T.pred f.a.toNat != f.ext.getLsbD 0
def predB (f : Full) (r : Ref) : Bool :=
  match f.b with | .num n => r.T.pred n.toNat != f.ext.getLsbD 1 | _ => false
def planPand (f : Full) (_ : State) (r : Ref) : TOut := donePred f (predA f r && predB f r)
def planPor (f : Full) (_ : State) (r : Ref) : TOut := donePred f (predA f r || predB f r)
def planPxor (f : Full) (_ : State) (r : Ref) : TOut := donePred f (predA f r != predB f r)
def planPnot (f : Full) (_ : State) (r : Ref) : TOut := donePred f (!(r.T.pred f.a.toNat))
def planPmov (f : Full) (_ : State) (r : Ref) : TOut := donePred f (predA f r)
def planPmovGet (f : Full) (_ : State) (r : Ref) : TOut := doneWord f (0x80 + r.T.preds.toNat)
def planPmovSet (f : Full) (s : State) (r : Ref) : TOut :=
  let x := s.op32 r f.a.toNat
  .done { preds := (List.range 7).map fun k => (k, bitN x k == 1) }

/-! ## The instructions -/

def execPart (f : Full) (s : State) : Host.Outcome State Fault Refusal := issueAll 0x080 f (actPart f) s
def execWsync (f : Full) (s : State) : Host.Outcome State Fault Refusal := issueEach 0x081 f (planWsync f) s
def execVoteAll (f : Full) (s : State) : Host.Outcome State Fault Refusal := issueTile 0x082 f (planVoteAll f) s
def execVoteAny (f : Full) (s : State) : Host.Outcome State Fault Refusal := issueTile 0x083 f (planVoteAny f) s
def execVoteEq (f : Full) (s : State) : Host.Outcome State Fault Refusal := issueTile 0x084 f (planVoteEq f) s
def execVoteBallot (f : Full) (s : State) : Host.Outcome State Fault Refusal := issueTile 0x085 f (planVoteBallot f) s
def execShflIdx (f : Full) (s : State) : Host.Outcome State Fault Refusal := issueTile 0x086 f (planShfl srcIdx f) s
def execShflUp (f : Full) (s : State) : Host.Outcome State Fault Refusal := issueTile 0x087 f (planShfl srcUp f) s
def execShflDown (f : Full) (s : State) : Host.Outcome State Fault Refusal := issueTile 0x088 f (planShfl srcDown f) s
def execShflXor (f : Full) (s : State) : Host.Outcome State Fault Refusal := issueTile 0x089 f (planShfl srcXor f) s
def execLred (f : Full) (s : State) : Host.Outcome State Fault Refusal := issueTile 0x08A f (planLred f) s
def execLredF (f : Full) (s : State) : Host.Outcome State Fault Refusal := issueTile 0x08B f (planLredF f) s
def execLscan (f : Full) (s : State) : Host.Outcome State Fault Refusal := issueTile 0x08C f (planLscan f) s
def execLscanF (f : Full) (s : State) : Host.Outcome State Fault Refusal := issueTile 0x08D f (planLscanF f) s
def execSelk (f : Full) (s : State) : Host.Outcome State Fault Refusal := issueTile 0x08E f (planSelk false f) s
def execSelkI (f : Full) (s : State) : Host.Outcome State Fault Refusal := issueTile 0x08F f (planSelk true f) s
def execPermx (f : Full) (s : State) : Host.Outcome State Fault Refusal := issueTile 0x090 f (planPermx f) s
def execMov (f : Full) (s : State) : Host.Outcome State Fault Refusal := issueEach 0x091 f (planMov f) s
def execMovi (f : Full) (s : State) : Host.Outcome State Fault Refusal := issueEach 0x092 f (planMovi f) s
def execRdsr (f : Full) (s : State) : Host.Outcome State Fault Refusal := issueEach 0x093 f (planRdsr f) s
def execWrsr (f : Full) (s : State) : Host.Outcome State Fault Refusal := issueTurn 0x094 f (actWrsr f) s
def execPand (f : Full) (s : State) : Host.Outcome State Fault Refusal := issueEach 0x095 f (planPand f) s
def execPor (f : Full) (s : State) : Host.Outcome State Fault Refusal := issueEach 0x096 f (planPor f) s
def execPxor (f : Full) (s : State) : Host.Outcome State Fault Refusal := issueEach 0x097 f (planPxor f) s
def execPnot (f : Full) (s : State) : Host.Outcome State Fault Refusal := issueEach 0x098 f (planPnot f) s
def execPmov (f : Full) (s : State) : Host.Outcome State Fault Refusal := issueEach 0x099 f (planPmov f) s
def execPmovGet (f : Full) (s : State) : Host.Outcome State Fault Refusal := issueEach 0x099 f (planPmovGet f) s
def execPmovSet (f : Full) (s : State) : Host.Outcome State Fault Refusal := issueEach 0x099 f (planPmovSet f) s

end Sys2Proof.Machine
end

