-- ==== Sys2Proof/Machine/Groups.lean ====
section
/-! DEFINITION. The end of threads and groups (R308), spawn records (R47 to R50), and the group's trace record (R196, R197). -/

namespace Sys2Proof.Machine

/-! ## Trace records -/

def Extent.bytes (e : Extent) : List Byte := leBytes 2 e.buf ++ leBytes 4 e.first ++ leBytes 2 e.count
def padTo (n : Nat) (l : List Byte) : List Byte := l ++ List.replicate (n - l.length) 0
/-- The 256 bytes of a group record (R196). -/
def Trace.bytes (t : Trace) (rlsn : Nat) : List Byte :=
  let flags := (if t.vcause ≠ 0 then 1 else 0) + (if t.all then 2 else 0) + (if t.coarsened then 4 else 0) + 8
  leBytes 4 rlsn ++ leBytes 2 flags ++ leBytes 1 t.reads.length ++ leBytes 1 t.writes.length
    ++ padTo 192 (t.reads.flatMap Extent.bytes) ++ padTo 48 (t.writes.flatMap Extent.bytes) ++ leBytes 2 t.vcause ++ leBytes 6 0

/-- Write an exited group's record as one store, once the loop it started is over (log 86) and the pages of the record and its stamps are
there; a record that cannot be written is lost (R197, R465, R483, R514). -/
def State.writeTrace (s : State) (g : Nat) : State :=
  match s.group? g with
  | none => s
  | some G =>
    match G.trace with
    | none => s
    | some t =>
      let a := addOff G.lr.trace (256 * (G.gidx + 1) : Nat)
      let written (s : State) : State := s.modG g fun G => { G with trace := none }
      let wait (buf pg : Nat) : State := let (id, s) := s.startPage G.ctx buf pg; s.modG g fun G => { G with recWait := some id }
      let fail : State :=
        written (s.modItem G.item fun i => { i with failedRecord := match i.failedRecord with | some x => some x | none => some a })
      if G.loop.isSome ∨ G.recWait.isSome then s
      else match s.port_ G.ctx (s.renOf G.item) .store a 256 with
      | .ok ps => match s.stampMiss G.ctx (some G.lsn) G.recDead a 256 with
        | some (buf, pg) => wait buf pg
        | none => written ((s.devRoom ps).1.writeDev { ctx := G.ctx, stamp := some G.lsn, grp := g } a (ps.zip (t.bytes G.lsn)))
      | .page buf pg => if G.recDead.contains (s.pteOf G.ctx buf pg) then fail else wait buf pg
      | _ => fail

/-! ## Groups -/

/-- A slot's removal begins (R218); on a severed slot it is complete at once (R490). -/
def Slot.remove (x : Slot) : Slot :=
  if x.gone then x else if x.severed then { x with removing := true, gone := true, next := none }
  else { x with removing := true, next := none }
/-- A group's leave goes back: its charges end when no operation started under them runs (R325). -/
def State.endLeave (s : State) (g : Nat) : State :=
  { s.modG g fun G => { G with grant := 0 } with
    charges := s.charges.map fun c => if c.grp = g then { c with ended := true } else c }
/-- The Twill contexts an exited group still holds: the one its loop reads until it ends. -/
def Group.loopTw (G : Group) : Sparse TwCtx :=
  match G.loop with
  | some l => (match l.kind with | .sparse c .. => G.tw.filter (·.1 == c) | .dense .. => [])
  | none => []
/-- The exit of a group (R308): hitches are removed, leave and leases returned, contexts freed, the trace record written. A loop it
started runs on, and its item waits for it (R67). -/
def State.groupExit (s : State) (g : Nat) : State :=
  let s := s.endLeave g
  let s := s.modG g fun G => { (G.modSlots Slot.remove) with exiting := true, leases := [], tw := G.loopTw }
  { s.writeTrace g with leaves := s.leaves.filter (·.grp != g) }.trimLines

/-- A thread leaves the deliveries it stands in; the last to leave closes its delivery (R433). -/
def State.leaveDeliveries (s : State) (g t warp : Nat) : State :=
  (s.modG g fun G =>
    { G with
      open_ := (G.open_.map fun d => { d with tids := d.tids.filter (· != t), undo := [] }).filter (·.tids != []),
      heldDel := (G.heldDel.map fun d => { d with traps := d.traps.filter (·.1 != t) }).filter (·.traps != []) }).nextDelivery g warp
/-- An exit or end in a warp (R442). -/
def State.noteEnd (s : State) (g warp : Nat) : State :=
  s.modG g fun G => { G with lastJoin := Map.set G.lastJoin warp s.clock }
/-- A thread stops being live: its slot and registers are freed (R308). -/
def State.endThread (s : State) (g t : Nat) : State :=
  match s.thread? g t with
  | none => s
  | some T =>
    let s := (s.modG g fun G => { G with threads := Map.erase G.threads t }).noteEnd g T.warp
    let s := s.leaveDeliveries g t T.warp
    match s.group? g with
    | some G => if G.threads = [] ∧ G.recs = [] ∧ ¬ G.exiting then s.groupExit g else s
    | none => s

/-! ## Spawn records (R48, R50) -/

/-- The 16-byte units of a record of n registers. -/
def recUnits (n : Nat) : Nat := (16 + 4 * n + 4 * min n 16 + 15) / 16
def spawnReserve : Nat := 16384
def padTotal : Nat := 524288

/-- Units in use in a core's reserve, written or reserved. -/
def State.reserveUse (s : State) (core : Nat) : Nat :=
  (s.groups.map fun (_, G) =>
    if G.core ≠ core then 0
    else ((G.recs.map fun r => if r.area.isNone then r.units else 0).foldl (· + ·) 0)
      + ((G.threads.map fun (_, T) => match T.wait with
          | .on (.ended _ n none) _ _ => recUnits n
          | _ => 0).foldl (· + ·) 0)).foldl (· + ·) 0
/-- Whether a group's regions stand on its core: resident, or pre-empted and not claimed (R78, R80). -/
def Group.holds (G : Group) : Bool :=
  match G.res with | .resident => true | .preempted _ saved => !saved | .requeued => false
/-- Bytes of a group's image in a save area: its form is the device's own (log 22). -/
def Group.saveBytes (G : Group) : Nat :=
  (G.threads.map fun _ => 4 * G.lr.nreg + 128).foldl (· + ·) 0 + G.lr.alloc + (if G.role = .matrix then G.lr.tiles else 0) * 8192
/-- Whether a group's image lies in the save area. -/
def Group.saved (G : Group) : Bool := match G.res with | .preempted _ saved => saved | .requeued => true | .resident => false
/-- The image of a saved group follows a change of its state: its form is the device's own (R80, log 22). -/
def State.reimage (s : State) (g : Nat) : State :=
  match s.group? g with
  | some G => if G.saved then (match s.ctx? G.ctx with | some c => s.scribble G.ctx (addOff c.svbase (G.saveAt : Nat)) G.saveBytes | none => s) else s
  | none => s
/-- Scratchpad of a core that its resident groups hold. -/
def State.padUse (s : State) (core : Nat) : Nat :=
  (s.groups.map fun (_, G) => if G.core = core ∧ G.holds = true then G.lr.alloc else 0).foldl (· + ·) 0
def State.reserveCap (s : State) (core : Nat) : Nat := min spawnReserve (padTotal - s.padUse core)

/-- Places in use in a context's spawn area: offset and units. -/
def State.areaUse (s : State) (ctx : Nat) : List (Nat × Nat) :=
  s.groups.flatMap fun (_, G) =>
    if G.ctx ≠ ctx then []
    else (G.recs.filterMap fun r => r.area.map fun o => (o, r.units))
      ++ (G.threads.filterMap fun (_, T) => match T.wait with
          | .on (.ended _ n (some o)) _ _ => some (o, recUnits n)
          | _ => none)
/-- The lowest free place of n units in a spawn area of a size. -/
def firstFit (used : List (Nat × Nat)) (size n : Nat) : Option Nat :=
  let starts := 0 :: used.map fun u => u.1 + 16 * u.2
  let fits := starts.filter fun o =>
    decide (o + 16 * n ≤ size) && used.all fun u => decide (o + 16 * n ≤ u.1 ∨ u.1 + 16 * u.2 ≤ o)
  fits.foldl (fun b o => match b with | none => some o | some x => some (min x o)) none
/-- Room for k records of n registers each, in order: the core's reserve first, then the spawn area (R444). -/
def reserve (cap size n : Nat) : Nat → Nat → List (Nat × Nat) → Option (List (Option Nat))
  | 0, _, _ => some []
  | k + 1, used, area =>
    if 16 * (used + recUnits n) ≤ cap then (reserve cap size n k (used + recUnits n) area).map (none :: ·)
    else match firstFit area size (recUnits n) with
      | none => none
      | some o => (reserve cap size n k used ((o, recUnits n) :: area)).map (some o :: ·)

/-- `GSLOT` of a group: its rank by number among the groups that hold regions on its core at the time (R48, log 74). -/
def State.gslot (s : State) (g : Nat) : Nat :=
  match s.group? g with
  | none => 0
  | some G => (s.groups.filter fun e => e.2.core == G.core && e.2.holds && decide (e.1 < g)).length % 32
/-- The bytes of a spawn record (R48). -/
def spawnBytes (T : Thread) (tid gslot n : Nat) (pc : Addr) : List Byte :=
  let word := tid % 1024 + 2 ^ 10 * n + 2 ^ 17 * T.preds.toNat + 2 ^ 24 * gslot
  padTo (16 * recUnits n)
    (leBytes 8 pc.toNat ++ leBytes 4 word ++ leBytes 4 0 ++ ((List.range n).flatMap fun k => leBytes 4 (T.v k))
      ++ ((List.range (min n 16)).flatMap fun k => leBytes 4 (T.tag k)))
/-- A respawned thread (R49): what its record keeps, everything else as at the start. -/
def spawnThread (r : SpawnRec) (lane slot warp now : Nat) : Nat × Thread :=
  let w (o n : Nat) : Nat := leNat ((r.bytes.drop o).take n)
  let x := w 8 4
  let n := bitsN x 16 10
  let T : Thread := { lane := lane, slot := slot, warp := warp, pc := r.pc, preds := BitVec.ofNat 7 (bitsN x 23 17),
                      held := r.held, readySince := now, lastIssue := now }
  let T := (List.range n).foldl (fun T k => T.setV k (w (16 + 4 * k) 4)) T
  (x % 1024, (List.range (min n 16)).foldl (fun T k => T.setTag k (w (16 + 4 * n + 4 * k) 4)) T)

end Sys2Proof.Machine
end

