-- ==== Sys2Proof/Machine/Control.lean ====
section
/-! DEFINITION. Branches, calls, exit, split branch, join, yield, waits and fences (R304 to R314). -/

namespace Sys2Proof.Machine

/-- Bytes of the instruction in issue. -/
def State.len (s : State) : Nat := match s.issue with | some is => is.len | none => 8
/-- The PC after a thread's instruction (R306). -/
def State.nextPc (s : State) (r : Ref) : Addr := addOff r.T.pc s.len
/-- The target of a displacement (R306). -/
def relB (r : Ref) (b : BForm) : Addr := rel r.T.pc (dispOf b)
/-- A thread goes to an address. -/
def goPc (a : Addr) (regs : List (Nat × Nat) := []) : TOut := .done { pc := some a, regs := regs }
/-- A register target must be 4-byte aligned (R307). -/
def goReg (x : Nat) (regs : List (Nat × Nat) := []) : TOut :=
  if x % 4 ≠ 0 then .trap { cause := 0x03, arg := 1, addr := x } else goPc (BitVec.ofNat 64 x) regs

def planBra (f : Full) (_ : State) (r : Ref) : TOut := goPc (relB r f.b)
def planBrx (f : Full) (s : State) (r : Ref) : TOut := goReg (s.op64 r f.a.toNat)
def planCall (f : Full) (s : State) (r : Ref) : TOut := goPc (relB r f.b) (wr2 f.d.toNat (s.nextPc r).toNat)
def planCalx (f : Full) (s : State) (r : Ref) : TOut := goReg (s.op64 r f.a.toNat) (wr2 f.d.toNat (s.nextPc r).toNat)
def planRet (f : Full) (s : State) (r : Ref) : TOut := goReg (s.op64 r f.a.toNat)

/-! ## Counters and waits -/

/-- The condition of `waitc` (R99). -/
def Thread.within (T : Thread) (l s c t : Nat) : Bool := decide (T.ld ≤ l ∧ T.st ≤ s ∧ T.cp ≤ c ∧ T.tl ≤ t)
/-- A wait that a condition ends: over when the thread passed it, or when it holds already. -/
def waitUntil (r : Ref) (holds : Bool) (c : Cond) (res : TRes := {}) : TOut :=
  if r.T.wait = .passed ∨ holds then .done res else .wait c

/-- `exit` (R308). -/
def actExit (_ : Full) (s : State) (r : Ref) : State × TOut :=
  if r.T.within 0 0 0 0 then (s.endThread r.g r.t, .stay) else (s, .wait (.counters 0 0 0 0))

/-- `sbra` (R47, R309, R444). -/
def actSbra (f : Full) (s : State) (rs : List Ref) : State × List (Ref × TOut) :=
  let taken := rs.filter fun r => r.T.guard f.g f.gn
  let fall := rs.filter fun r => !(r.T.guard f.g f.gn)
  let stay (r : Ref) : Ref × TOut := (r, if r.T.guard f.g f.gn then goPc (relB r f.b) else .done {})
  if taken = [] ∨ fall = [] then (s, rs.map stay)
  else
    let takenStays := decide (fall.length ≤ taken.length)
    let (kept, gone) := if takenStays then (taken, fall) else (fall, taken)
    let n := f.c.toNat
    match rs.head? with
    | none => (s, [])
    | some lo =>
      let (base, size) := match s.ctx? lo.G.ctx with
        | some c => (c.spbase.toNat, c.spsize)
        | none => (0, 0)
      match reserve (s.reserveCap lo.G.core) (if base = 0 then 0 else size) n gone.length (s.reserveUse lo.G.core)
          (s.areaUse lo.G.ctx) with
      | none =>
        let need := gone.length * recUnits n
        (s, rs.map fun r => (r, .trap { cause := 0x1E, arg := min need 65535 }))
      | some places =>
        (gone.foldl (fun s r => s.noteEnd r.g r.T.warp) s, (kept.map stay) ++ (gone.zip places).map fun (r, place) =>
          (r, TOut.wait (.ended (if takenStays then s.nextPc r else relB r f.b) n place)))

/-- `join` (R52, R310). The own lane's bit has no effect. -/
def actJoin (f : Full) (s : State) (r : Ref) : State × TOut :=
  let mask := BitVec.ofNat 32 (s.op32 r f.a.toNat)
  let others := mask &&& ~~~(BitVec.ofNat 32 (2 ^ r.T.lane))
  if others = 0 then (s, goPc (relB r f.b))
  else (s, .wait (.join mask (relB r f.b)))

/-- `yield` (R56): the entry of the PC after it goes to the back for one pick of the core. -/
def actYield (_ : Full) (s : State) (r : Ref) : State × TOut :=
  let e := (r.G.item, s.nextPc r)
  (s.modCore r.G.core fun c => { c with yielded := if c.yielded.contains e then c.yielded else e :: c.yielded }, .done {})
def planNop (_ : Full) (_ : State) (_ : Ref) : TOut := .done {}

def numB (f : Full) : Nat := match f.b with | .num n => n.toNat | _ => 0
def actWaitc (f : Full) (s : State) (r : Ref) : State × TOut :=
  let (l, st, c, t) := (f.d.toNat, f.a.toNat, numB f, f.c.toNat)
  (s, waitUntil r (r.T.within l st c t) (.counters l st c t))

/-! ## Copy tags (R313) -/

/-- The bits of a mask inside a group's range. -/
def Group.maskTags (G : Group) (m : Nat) : List Nat :=
  ((List.range G.lr.tagcnt).map (G.lr.tagbase + ·)).filter fun n => bitN m n == 1
def Group.anyTag (G : Group) (m : Nat) : Bool := (G.maskTags m).any G.tagBit
def Group.allTags (G : Group) (m : Nat) : Bool := (G.maskTags m).all G.tagBit
def actWtany (f : Full) (s : State) (r : Ref) : State × TOut :=
  let m := s.bInt r f.ty f.b
  (s, waitUntil r (r.G.maskTags m == [] || r.G.anyTag m) (.tags false m))
def actWtall (f : Full) (s : State) (r : Ref) : State × TOut :=
  let m := s.bInt r f.ty f.b
  (s, waitUntil r (r.G.allTags m) (.tags true m))
def actFfrdy (f : Full) (s : State) (r : Ref) : State × TOut :=
  match (r.G.maskTags (s.bInt r f.ty f.b)).find? r.G.tagBit with
  | some n => (s, .done { regs := wr1 f.d.toNat n, preds := [(f.pd.toNat, true)] })
  | none => (s, .done { regs := wr1 f.d.toNat 64, preds := [(f.pd.toNat, false)] })

/-! ## Fences (R181) -/

/-- The thread's accesses that have no place yet. -/
def State.pendingOf (s : State) (g t : Nat) : List Access :=
  s.accesses.filter fun a => a.owners.contains (g, t) && !(a.parts == [])
/-- Whether every earlier access of a thread to this device has its place (R171, R182). -/
def State.drained (s : State) (g t : Nat) : Bool := (s.pendingOf g t).all (·.remote.isSome)
/-- The condition of a fence of a scope. -/
def State.fenceOver (s : State) (g t scope : Nat) : Bool :=
  match s.thread? g t with
  | none => true
  | some T =>
    let mine := s.pendingOf g t
    let placed := (mine.all fun a => a.remote.isSome || !a.kind.countsSt) && T.cp == 0
    let remote := mine.all (·.remote.isNone)
    let host := s.port.snoops.all fun x => !(x.grp == g && x.tid == t && x.job == 0)
    placed && (decide (scope < 7) || remote) && (decide (scope < 8) || host)
def actFence (f : Full) (s : State) (r : Ref) : State × TOut :=
  let scope := f.mod.toNat
  -- with the Wymbiyn Link down an operation of scope 8 takes reason 5 (R497)
  if scope = 8 ∧ s.edge.wymDown then (s, .trap { cause := 0x16, arg := 5, cls := 1 })
  else (s, waitUntil r (s.fenceOver r.g r.t scope) (.fence scope))

/-! ## The instructions -/

def execBra (f : Full) (s : State) : Host.Outcome State Fault Refusal := issueEach 0x0A0 f (planBra f) s
def execBrx (f : Full) (s : State) : Host.Outcome State Fault Refusal := issueEach 0x0A1 f (planBrx f) s
def execCall (f : Full) (s : State) : Host.Outcome State Fault Refusal := issueEach 0x0A2 f (planCall f) s
def execCalx (f : Full) (s : State) : Host.Outcome State Fault Refusal := issueEach 0x0A3 f (planCalx f) s
def execRet (f : Full) (s : State) : Host.Outcome State Fault Refusal := issueEach 0x0A4 f (planRet f) s
def execExit (f : Full) (s : State) : Host.Outcome State Fault Refusal := issueTurn 0x0A5 f (faultPoint (actExit f)) s
def execSbra (f : Full) (s : State) : Host.Outcome State Fault Refusal := issueAll 0x0A6 f (actSbra f) s
def execJoin (f : Full) (s : State) : Host.Outcome State Fault Refusal := issueTurn 0x0A7 f (actJoin f) s
def execYield (f : Full) (s : State) : Host.Outcome State Fault Refusal := issueTurn 0x0A8 f (actYield f) s
def execNop (f : Full) (s : State) : Host.Outcome State Fault Refusal := issueEach 0x0A9 f (planNop f) s
def execWaitc (f : Full) (s : State) : Host.Outcome State Fault Refusal := issueTurn 0x0AA f (faultPoint (actWaitc f)) s
def execWtany (f : Full) (s : State) : Host.Outcome State Fault Refusal := issueTurn 0x0AB f (faultPoint (actWtany f)) s
def execWtall (f : Full) (s : State) : Host.Outcome State Fault Refusal := issueTurn 0x0AC f (faultPoint (actWtall f)) s
def execFfrdy (f : Full) (s : State) : Host.Outcome State Fault Refusal := issueTurn 0x0AD f (faultPoint (actFfrdy f)) s
def execFence (f : Full) (s : State) : Host.Outcome State Fault Refusal := issueTurn 0x0AE f (faultPoint (actFence f)) s

end Sys2Proof.Machine
end

