-- ==== Sys2Proof/Machine/Sync.lean ====
section
/-! DEFINITION. Barriers (R101, R102, R315, R316) and ring control blocks (R231 to R233, R317). -/

namespace Sys2Proof.Machine

/-- The scratchpad and offset an object is named in: the group's own, or a gang member's (R93, R315). -/
def State.place (s : State) (r : Ref) (gang : Bool) (o : Nat) : Nat × Nat :=
  if gang then s.gangTarget r.G r.g o else (r.g, o)
def operandTrap (source : Nat) : TOut := .trap { cause := 0x03, arg := source }
def alignTrap (log2 addr : Nat) : TOut := .trap { cause := 0x04, arg := log2, addr := addr }
def useTrap (reason addr : Nat) : TOut := .trap { cause := 0x05, arg := reason, addr := addr }

/-! ## Barriers -/

/-- The barrier an instruction names: its offset aligned, then what it does with the object's place (R315). -/
def atBar (f : Full) (s : State) (r : Ref) (act : Nat → Nat → State × TOut) : State × TOut :=
  let o := s.op32 r f.a.toNat
  if o % 16 ≠ 0 then (s, alignTrap 4 o)
  else
    let (g, x) := s.place r (f.mod == 4) o
    let e := act g x
    (e.1.meet r.G.core g, e.2)

def actBinit (f : Full) (s : State) (r : Ref) : State × TOut :=
  let n := s.b32 r f.b
  if n < 1 ∨ 4095 < n then (s, operandTrap 2)
  else atBar f s r fun g o =>
    let b := s.bar g o
    if b.txin ≠ 0 ∨ b.txout ≠ 0 then (s, operandTrap 4)
    else (s.setBar g o { gen := 0, pend := n, exp := n, txin := 0, txout := 0, plwm := 31, plhi := 0, pmode := 0, rest := 0 }, .done {})

/-- An arrival comes after the thread's earlier accesses (R180, R316). -/
def actBarr (f : Full) (s : State) (r : Ref) : State × TOut :=
  atBar f s r fun g o =>
    let b := s.bar g o
    if b.exp = 0 then (s, operandTrap 4)
    else if ¬ s.drained r.g r.t then (s, .wait .resource)
    else if b.pend = 0 then (s, .wait (.barRetry g o b.gen))
    else (s.setBar g o { b with pend := b.pend - 1 }.test, .done { regs := wr1 f.d.toNat b.gen })

def actBwait (f : Full) (s : State) (r : Ref) : State × TOut :=
  atBar f s r fun g o =>
    let gen := s.b32 r f.b % 16
    (s, waitUntil r ((s.bar g o).gen != gen) (.barGen g o gen))

def actBtx (out : Bool) (f : Full) (s : State) (r : Ref) : State × TOut :=
  atBar f s r fun g o =>
    let b := s.bar g o
    let x : Int := ((if out then b.txout else b.txin : Nat) : Int) + sextN (s.b32 r f.b) 32
    if x < 0 ∨ 2 ^ 24 - 1 < x then (s, operandTrap 2)
    else (s.setBar g o (if out then { b with txout := x.toNat } else { b with txin := x.toNat }).test, .done {})

/-- The watermark of a plane copy has reached w (R102). -/
def Bar.reached (b : Bar) (w : Nat) : Bool := b.plwm != 31 && decide (w ≤ b.plwm)
def actBplw (f : Full) (s : State) (r : Ref) : State × TOut :=
  let w := s.b32 r f.b
  if 24 < w then (s, operandTrap 2)
  else atBar f s r fun g o =>
    let b := s.bar g o
    if b.pmode = 0 then (s, operandTrap 4)
    else (s, waitUntil r (b.reached w) (.plwm g o w))

/-! ## Rings -/

/-- A ring control block (R231). -/
structure Ring where
  base : Nat
  ssize : Nat
  scount : Nat
  rsv1 : Nat
  rflags : Nat
  tail : Nat
  head : Nat
  rsv2 : Nat
  phase : Nat
  held : Nat
deriving DecidableEq, Repr

def Ring.ofNat (x : Nat) : Ring :=
  { base := bitsN x 31 0, ssize := bitsN x 47 32, scount := bitsN x 54 48, rsv1 := bitN x 55, rflags := bitsN x 63 56,
    tail := bitsN x 71 64, head := bitsN x 79 72, rsv2 := bitsN x 127 80, phase := bitsN x 191 128, held := bitsN x 255 192 }
def Ring.toNat (k : Ring) : Nat :=
  k.base % 2 ^ 32 + 2 ^ 32 * (k.ssize % 2 ^ 16) + 2 ^ 48 * (k.scount % 2 ^ 7) + 2 ^ 55 * (k.rsv1 % 2) + 2 ^ 56 * (k.rflags % 2 ^ 8)
    + 2 ^ 64 * (k.tail % 2 ^ 8) + 2 ^ 72 * (k.head % 2 ^ 8) + 2 ^ 80 * (k.rsv2 % 2 ^ 48) + 2 ^ 128 * (k.phase % 2 ^ 64)
    + 2 ^ 192 * (k.held % 2 ^ 64)
/-- The fields keep R231. -/
def Ring.ok (k : Ring) : Bool :=
  decide (k.base % 16 = 0 ∧ 16 ≤ k.ssize ∧ k.ssize ≤ 65520 ∧ k.ssize % 16 = 0 ∧ 1 ≤ k.scount ∧ k.scount ≤ 64 ∧ k.rsv1 = 0
    ∧ k.rflags < 4 ∧ k.tail < 2 * k.scount ∧ k.head < 2 * k.scount ∧ k.rsv2 = 0)
def State.ring (s : State) (g o : Nat) : Ring := Ring.ofNat (leNat (s.padBytes g o 32))
def State.setRing (s : State) (g o : Nat) (k : Ring) : State := s.padWrite g o (leBytes 32 k.toNat)

/-- `acqs`: the next free slot and the block after it. -/
def Ring.acquire (k : Ring) : Option (Nat × Ring) :=
  let i := k.tail % k.scount
  if (k.tail + 2 * k.scount - k.head) % (2 * k.scount) < k.scount ∧ bitN k.held i = 0 then
    some (i, { k with held := k.held + 2 ^ i, tail := (k.tail + 1) % (2 * k.scount) })
  else none
/-- `peeks`: the oldest slot if it is full. -/
def Ring.peek (k : Ring) : Option (Nat × Ring) :=
  let i := k.head % k.scount
  if bitN k.phase i ≠ k.head / k.scount ∧ bitN k.held i = 0 then
    some (i, { k with held := k.held + 2 ^ i, head := (k.head + 1) % (2 * k.scount) })
  else none
def Ring.take (k : Ring) (consumer : Bool) : Option (Nat × Ring) := if consumer then k.peek else k.acquire
/-- The note that a producer or consumer waits. -/
def Ring.waiting (k : Ring) (consumer : Bool) : Ring := { k with rflags := k.rflags ||| (if consumer then 2 else 1) }

/-- The bit of the note is set. -/
def Ring.noted (k : Ring) (consumer : Bool) : Bool := bitN k.rflags (if consumer then 1 else 0) == 1
def Ring.unwaiting (k : Ring) (consumer : Bool) : Ring :=
  { k with rflags := if k.noted consumer then k.rflags - (if consumer then 2 else 1) else k.rflags }

/-- The place of the block an instruction names, aligned; what it does there comes after the thread's earlier accesses (R171, R232). -/
def atBlock (gang : Bool) (f : Full) (s : State) (r : Ref) (act : Nat → Nat → State × TOut) : State × TOut :=
  let o := s.op32 r f.a.toNat
  if o % 32 ≠ 0 then (s, alignTrap 5 o)
  else if ¬ s.drained r.g r.t then (s, .wait .resource)
  else
    let (g, x) := s.place r gang o
    let e := act g x
    (e.1.meet r.G.core g, e.2)
/-- The block an instruction names, as R231 has it (R317). -/
def atRing (gang : Bool) (f : Full) (s : State) (r : Ref) (act : Nat → Nat → Ring → State × TOut) : State × TOut :=
  atBlock gang f s r fun g x =>
    let k := s.ring g x
    if k.ok then act g x k else (s, useTrap 11 (s.op32 r f.a.toNat))

/-- `rinit` (R232, R317). -/
def actRinit (gang : Bool) (f : Full) (s : State) (r : Ref) : State × TOut :=
  let base := s.b32 r f.b
  let c := s.op32 r f.c.toNat
  let (ss, sc) := (bitsN c 15 0, bitsN c 22 16)
  if base % 16 ≠ 0 then (s, .trap { cause := 0x03, arg := 2, addr := base })
  else if ss < 16 ∨ ss % 16 ≠ 0 ∨ sc = 0 ∨ 64 < sc then (s, operandTrap 3)
  else
    atBlock gang f s r fun g x =>
      let k : Ring := { base := base, ssize := ss, scount := sc, rsv1 := 0, rflags := 0, tail := 0, head := 0, rsv2 := 0, phase := 0, held := 0 }
      (s.setRing g x k, .done {})
/-- `acqs` and `peeks`, waiting or `.try` (R232). -/
def actTake (gang consumer try_ : Bool) (f : Full) (s : State) (r : Ref) : State × TOut :=
  atRing gang f s r fun g x k =>
    match k.take consumer with
    | some (i, k) => (s.setRing g x k, .done { regs := wr1 f.d.toNat i, preds := [(f.pd.toNat, true)] })
    | none =>
      if try_ then (s, donePred f false)
      else (s.setRing g x (k.waiting consumer), .wait (.ring g x consumer f.d.toNat f.pd.toNat (s.nextPc r) (s.op32 r f.a.toNat) (k.noted consumer)))
/-- `coms` and `rels` (R232, R233). -/
def actGive (gang commit : Bool) (f : Full) (s : State) (r : Ref) : State × TOut :=
  atRing gang f s r fun g x k =>
    let i := s.b32 r f.b
    if k.scount ≤ i ∨ bitN k.held i = 0 then (s, useTrap 10 (s.op32 r f.a.toNat))
    else
      let k := { k with held := k.held - 2 ^ i }
      (s.setRing g x (if commit then { k with phase := k.phase ^^^ 2 ^ i } else k), .done {})

/-- Waiters on rings, in order of their arrival: the arrival, group and thread. -/
def State.ringQueue (s : State) : List (Nat × Nat × Nat) :=
  Map.sortBy (fun a b => decide (a.1 ≤ b.1)) (s.groups.flatMap fun e => e.2.threads.filterMap fun (x : Nat × Thread) => match x.2.wait with
    | .on (.ring ..) _ n => some (n, e.1, x.1)
    | _ => none)
/-- A ring wait is abandoned without an effect on its block (R232, R304): the note it left goes to the next waiter of its role on the
block, or is taken back. -/
def State.unring (s : State) (g t : Nat) : State :=
  match s.thread? g t with
  | none => s
  | some T => match T.wait with
    | .on (.ring bg off consumer _ _ _ _ false) _ _ =>
      let mate (e : Nat × Nat × Nat) : Bool := e.2 != (g, t) && (match s.thread? e.2.1 e.2.2 with
        | some U => (match U.wait with | .on (.ring bg' off' c' _ _ _ _ _) _ _ => bg' == bg && off' == off && c' == consumer | _ => false)
        | none => false)
      match s.ringQueue.find? mate with
      | some (_, g', t') => s.modT g' t' fun U => match U.wait with
        | .on (.ring bg off c d pd next a _) n k => { U with wait := .on (.ring bg off c d pd next a false) n k }
        | _ => U
      | none => s.setRing bg off ((s.ring bg off).unwaiting consumer)
    | _ => s

/-! ## The instructions -/

def execBinit (f : Full) (s : State) : Host.Outcome State Fault Refusal := issueTurn 0x0AF f (actBinit f) s
def execBarr (f : Full) (s : State) : Host.Outcome State Fault Refusal := issueTurn 0x0B0 f (actBarr f) s
def execBwait (f : Full) (s : State) : Host.Outcome State Fault Refusal := issueTurn 0x0B1 f (faultPoint (actBwait f)) s
def execBtxIn (f : Full) (s : State) : Host.Outcome State Fault Refusal := issueTurn 0x0B2 f (actBtx false f) s
def execBtxOut (f : Full) (s : State) : Host.Outcome State Fault Refusal := issueTurn 0x0B2 f (actBtx true f) s
def execBplw (f : Full) (s : State) : Host.Outcome State Fault Refusal := issueTurn 0x0B3 f (faultPoint (actBplw f)) s
def execRinit (f : Full) (s : State) : Host.Outcome State Fault Refusal := issueTurn 0x0B4 f (actRinit false f) s
def execAcqs (f : Full) (s : State) : Host.Outcome State Fault Refusal := issueTurn 0x0B5 f (actTake false false false f) s
def execAcqsTry (f : Full) (s : State) : Host.Outcome State Fault Refusal := issueTurn 0x0B6 f (actTake false false true f) s
def execComs (f : Full) (s : State) : Host.Outcome State Fault Refusal := issueTurn 0x0B7 f (actGive false true f) s
def execPeeks (f : Full) (s : State) : Host.Outcome State Fault Refusal := issueTurn 0x0B8 f (actTake false true false f) s
def execPeeksTry (f : Full) (s : State) : Host.Outcome State Fault Refusal := issueTurn 0x0B9 f (actTake false true true f) s
def execRels (f : Full) (s : State) : Host.Outcome State Fault Refusal := issueTurn 0x0BA f (actGive false false f) s
def execRinitG (f : Full) (s : State) : Host.Outcome State Fault Refusal := issueTurn 0x0BB f (actRinit true f) s
def execAcqsG (f : Full) (s : State) : Host.Outcome State Fault Refusal := issueTurn 0x0BC f (actTake true false false f) s
def execAcqsTryG (f : Full) (s : State) : Host.Outcome State Fault Refusal := issueTurn 0x0BD f (actTake true false true f) s
def execComsG (f : Full) (s : State) : Host.Outcome State Fault Refusal := issueTurn 0x0BE f (actGive true true f) s
def execPeeksG (f : Full) (s : State) : Host.Outcome State Fault Refusal := issueTurn 0x0BF f (actTake true true false f) s
def execPeeksTryG (f : Full) (s : State) : Host.Outcome State Fault Refusal := issueTurn 0x0C0 f (actTake true true true f) s
def execRelsG (f : Full) (s : State) : Host.Outcome State Fault Refusal := issueTurn 0x0C1 f (actGive true false f) s

end Sys2Proof.Machine
end

