-- ==== Sys2Proof/Machine/Phases.lean ====
section
/-! DEFINITION. Shared by instructions and events: poisoned memory (R476), the placement of pages on channels (R88, R89), join
counters (R221, R222), the room of the dependence table (R67), and eviction schedules (R96, R98). -/

namespace Sys2Proof.Machine

/-! ## Placement and poison -/

/-- `STRIPE` and `CHMASK` of a 64 KiB page; a page never mapped has a 4 KiB stripe over every channel (R89). -/
def State.placement (s : State) (phys : Nat) : Nat × Nat := Map.getD s.port.placed (4, 2 ^ 44 - 1) (phys / 65536)
/-- The channels a mask names: stack and channel, in order (R88). -/
def channels (mask : Nat) : List (Nat × Nat) :=
  (List.range 12).flatMap fun st =>
    if bitN mask (32 + st) = 1 then ((List.range 32).filter fun c => bitN mask c == 1).map fun c => (st, c) else []
def State.channelOf (s : State) (phys : Nat) : Nat × Nat :=
  let (stripe, mask) := s.placement phys
  let l := channels mask
  (l[phys / 2 ^ (stripe + 8) % l.length]?).getD (0, 0)

/-- The record of an uncorrectable HBM4 word at a physical address (R435, R476). -/
def State.hbmRecord (s : State) (ctx phys sev : Nat) (a : Nat) : ErrRec :=
  let (st, ch) := s.channelOf phys
  { cls := 2, sev := sev, ctx := ctx, rfl := 1, unit := 4, unitNo := st, ppage := phys / 65536 * 65536, stack := st, chan := ch,
    bank := Config.bankOf phys % 256, addr := a }
/-- The poisoned sector an access meets; a write of a whole sector meets none (R476). -/
def State.poisonedIn (s : State) (write : Bool) (ps : List Nat) : Option Nat :=
  if s.port.poison.isEmpty then none
  else ((ps.map (· / 32)).eraseDups).find? fun x =>
    s.port.poison.contains x && !(write && (ps.filter (· / 32 == x)).length == 32)
/-- The contexts an access that met poison kills: the owner of the mapping and the one that accessed. -/
def State.poisonKill (s : State) (ctx : Nat) (a : Addr) (sector : Nat) : State :=
  let owner := match s.ctx? ctx with | some c => (s.buf c (bufOf a)).owner | none => ctx
  ([owner, ctx].eraseDups).foldl (fun s c => s.logKill (s.hbmRecord c (32 * sector) 2 a.toNat)) s

/-! ## Reads and writes of the command processor -/

/-- The first of some accesses whose page has no translation and was not given up (R465, R466). -/
def State.cpMiss (s : State) (ctx : Nat) (dead : List Nat) (l : List (PKind × Addr × Nat)) : Option (Nat × Nat) :=
  l.findSome? fun e => match s.port_ ctx [] e.1 e.2.1 e.2.2 with
    | .page buf pg => if dead.contains (s.pteOf ctx buf pg) then none else some (buf, pg)
    | _ => none
/-- The first poisoned sector among some reads, with its address (R476). -/
def State.cpPoison (s : State) (ctx : Nat) (l : List (PKind × Addr × Nat)) : Option (Addr × Nat) :=
  l.findSome? fun e => match s.port_ ctx [] e.1 e.2.1 e.2.2 with
    | .ok ps => (s.poisonedIn false ps).map fun x => (e.2.1, x)
    | _ => none
/-- One byte in every 64 KiB of a range, and its last: its pages. -/
def probes (k : PKind) (a : Addr) (n : Nat) : List (PKind × Addr × Nat) :=
  if n = 0 then []
  else ((List.range (n / 65536 + 1)).filter fun i => decide (65536 * i < n)).map (fun (i : Nat) => (k, addOff a (65536 * i : Nat), 1))
    ++ [(k, addOff a (n - 1 : Nat), 1)]
/-- A write of the command processor through a context's table: no stamp (R63, R194); none where it is not possible. -/
def State.cpWrite (s : State) (ctx : Nat) (a : Addr) (bs : List Byte) : Option State :=
  match s.port_ ctx [] .store a bs.length with
  | .ok ps => match s.poisonedIn true ps with
    | some x => some (s.poisonKill ctx a x)
    | none => some ((s.devRoom ps).1.writeEvent { ctx := ctx, stamp := none } (ps.zip bs))
  | _ => none

/-! ## Rename pools (R68) -/

def Ctx.pool (c : Ctx) (buf : Nat) : List Nat := Map.getD c.pools [] buf
def State.poolOf (s : State) (ctx buf : Nat) : List Nat := match s.ctx? ctx with | some c => c.pool buf | none => []
/-- Set a pool's free pages and its `NFREE`. -/
def State.setPool (s : State) (ctx buf : Nat) (l : List Nat) : State :=
  let s := s.modCtx ctx fun c => { c with pools := Map.set c.pools buf l }
  match s.ctx? ctx with
  | none => s
  | some c => (s.cpWrite ctx (addOff (s.buf c buf).rpool 12) (leBytes 4 l.length)).getD s
/-- An item or job is gone: old pages no reader holds go back to their pools. -/
def State.returnPages (s : State) (id : Nat) : State :=
  let l := s.pageReturns.map fun p => (p.1.filter (· != id), p.2)
  let s := { s with pageReturns := l.filter fun p => p.1 != [] }
  (l.filter fun p => p.1 == []).foldl (fun (s : State) p => s.setPool p.2.1 p.2.2.1 (s.poolOf p.2.1 p.2.2.1 ++ [p.2.2.2])) s

/-! ## Join counters -/

/-- One atomic add to a join counter by the command processor, as an atomic of a context: the sum as two's complement, or none
where R86 refuses it (R221, R222, R491). -/
def State.joinAdd (s : State) (ctx : Nat) (j : Addr) (d : Int) : State × Option Int :=
  match s.port_ ctx [] .atomic j 8 with
  | .ok ps =>
    match s.poisonedIn true ps with
    | some x => (s.poisonKill ctx j x, none)
    | none =>
      let x := truncI ((leNat (s.gather ps) : Nat) + d) 64
      ((s.devRoom ps).1.writeEvent { ctx := ctx, stamp := none } (ps.zip (leBytes 8 x)), some (sextN x 64))
  | _ => (s, none)

/-- A full dependence table: 16,384 items and admitted jobs (R67). -/
def State.tableFull (s : State) : Bool :=
  decide (16384 ≤ s.items.length + (s.jobs.filter (·.admitted)).length)
def State.pushHw (s : State) (q : Nat) (w : Waiting) : State :=
  { s with hwq := Map.set s.hwq q (Map.getD s.hwq [] q ++ [w]) }

/-! ## Eviction schedules (R96, R98) -/

/-- A phase as read: entries of 16 bytes as numbers. -/
structure PhaseRead where
  nphase : Nat
  advcnt : Nat
  entries : List Nat
  /-- of the header: `DEFCLASS` and `DEFFLOOR` -/
  defclass : Nat
  deffloor : Nat
deriving DecidableEq, Repr

def PhaseRead.trim (e : Nat) : Bool := bitN e 121 == 1
def PhaseRead.floor (e : Nat) : Nat := bitsN e 117 113
def PhaseRead.cls (e : Nat) : Nat := bitsN e 120 118
/-- Whether an entry covers a granule of a buffer (R65). -/
def PhaseRead.covers (e buf gran : Nat) : Bool :=
  bitsN e 15 0 == buf && decide ((gran + 2 ^ 36 - bitsN e 80 49) % 2 ^ 32 < bitsN e 112 81)

/-- The header of a schedule: `NPHASE`, `PHASES`; or the address that makes it unusable. -/
def State.schedHeader (s : State) (ctx : Nat) (evs : Addr) : Except Addr (Nat × Addr) :=
  match s.readDev ctx evs 64 with
  | none => .error evs
  | some b =>
    let x := leNat b
    let n := bitsN x 6 0
    let used := (2 ^ 7 - 1) + 2 ^ 8 * 7 + 2 ^ 16 * 31 + 2 ^ 64 * (2 ^ 64 - 1)
    if n = 0 ∨ 64 < n ∨ x &&& used ≠ x then .error evs else .ok (n, BitVec.ofNat 64 (bitsN x 127 64))
/-- A phase of a schedule. -/
def State.schedPhase (s : State) (ctx : Nat) (evs : Addr) (phase : Nat) : Except Addr PhaseRead :=
  match s.schedHeader ctx evs with
  | .error a => .error a
  | .ok (n, phases) =>
    let pa := addOff phases (16 * phase : Nat)
    match s.readDev ctx pa 16 with
    | none => .error pa
    | some b =>
      let x := leNat b
      let ne := bitsN x 8 0
      let used := (2 ^ 9 - 1) + 2 ^ 16 * (2 ^ 16 - 1) + 2 ^ 64 * (2 ^ 64 - 1)
      if 256 < ne ∨ x &&& used ≠ x then .error evs
      else
        let ea := BitVec.ofNat 64 (bitsN x 127 64)
        match s.readDev ctx ea (16 * ne) with
        | none => .error ea
        | some bs =>
          let es := (List.range ne).map fun k => leNat ((bs.drop (16 * k)).take 16)
          if es.any fun e => bitsN e 127 122 ≠ 0 ∨ bitsN e 48 16 ≠ 0 then .error evs
          else
            let h := (s.readDevNat ctx evs 4).getD 0
            .ok ⟨n, bitsN x 31 16, es, bitsN h 10 8, bitsN h 20 16⟩
/-- The class and the plane floor that the lines of a granule have under a context's current phase (R96, R97). -/
def State.classFloor (s : State) (ctx buf gran : Nat) : Nat × Nat :=
  match s.ctx? ctx with
  | none => (3, 0)
  | some c =>
    if c.evs = 0 ∨ ¬ c.usable then (3, 0)
    else match c.entries.find? fun e => PhaseRead.covers e buf gran with
      | some e => (PhaseRead.cls e, PhaseRead.floor e)
      | none => (c.defclass, c.deffloor)

/-- The header's granule of a planar line stands for the line (R98): buffer and granule. -/
def State.planarGran (s : State) (ctx h line : Nat) : Option (Nat × Nat) :=
  match s.ctx? ctx with
  | none => none
  | some c => (s.readDevNat ctx (addOff c.pdir (32 * h : Nat)) 8).map fun hb =>
      let a := addOff (BitVec.ofNat 64 hb) (32 * line : Nat)
      (bufOf a, offOf a / 4096)
/-- The trims of a phase entry: covered planar lines keep at most the floor (R98). -/
def State.trimPlanes (s : State) (ctx : Nat) (p : PhaseRead) : State :=
  let f (l : PlaneLine) : PlaneLine :=
    if l.ctx ≠ ctx then l
    else match s.planarGran ctx l.handle l.line with
      | none => l
      | some (buf, g) => match p.entries.find? fun e => PhaseRead.covers e buf g with
        | some e => if PhaseRead.trim e then { l with depth := min l.depth (PhaseRead.floor e) } else l
        | none => l
  s.modPort fun q => { q with planes := q.planes.map f }
/-- A phase entry: the descriptors are read and the trims made; an unusable schedule is logged (R96). -/
def State.enterPhase (s : State) (ctx phase : Nat) : State :=
  match s.ctx? ctx with
  | none => s
  | some c =>
    match s.schedPhase ctx c.evs phase with
    | .error a =>
      (s.log { cls := 9, sev := 1, ctx := ctx, addr := a.toNat }).modCtx ctx fun c => { c with usable := false, phase := phase }
    | .ok p =>
      (s.trimPlanes ctx p).modCtx ctx fun c =>
        { c with usable := true, phase := phase, phaseDone := 0, nphase := p.nphase, advcnt := p.advcnt, entries := p.entries,
                 defclass := p.defclass, deffloor := p.deffloor }
/-- The phase an entry is to: one that is named, or the next. Past the last comes phase 0, and an unusable schedule found usable enters
phase 0. -/
def State.phaseOf (s : State) (ctx : Nat) (c : Ctx) : Option Nat → Nat
  | some k => k
  | none => match s.schedHeader ctx c.evs with
    | .error _ => c.phase
    | .ok (n, _) => if c.usable ∧ c.phase + 1 < n then c.phase + 1 else 0
/-- The next phase is entered. -/
def State.nextPhase (s : State) (ctx : Nat) : State :=
  match s.ctx? ctx with
  | none => s
  | some c => if c.evs = 0 then s else s.enterPhase ctx (s.phaseOf ctx c none)
/-- What a phase entry reads, as far as it can be followed. -/
def State.schedReads (s : State) (ctx : Nat) (evs : Addr) (phase : Nat) : List (PKind × Addr × Nat) :=
  (.load, evs, 64) :: (match s.schedHeader ctx evs with
    | .error _ => []
    | .ok (n, phases) =>
      let pa := addOff phases (16 * phase : Nat)
      if n ≤ phase then []
      else (.load, pa, 16) :: (match s.readDevNat ctx pa 16 with
        | none => []
        | some x => probes .load (BitVec.ofNat 64 (bitsN x 127 64)) (16 * min 256 (bitsN x 8 0))))
/-- The page that a phase entry needs first (R465). -/
def State.phaseMiss (s : State) (ctx : Nat) (ask : Option Nat) : Option (Nat × Nat) :=
  match s.ctx? ctx with
  | none => none
  | some c => if c.evs = 0 then none else s.cpMiss ctx c.schedDead (s.schedReads ctx c.evs (s.phaseOf ctx c ask))
/-- A page of a schedule is served. -/
def State.schedWait (s : State) (ctx buf pg : Nat) : State :=
  let (id, s) := s.startPage ctx buf pg
  s.modCtx ctx fun c => { c with schedWaits := if c.schedWaits.contains id then c.schedWaits else id :: c.schedWaits }
/-- The phase entries asked for are made, each once the pages it reads are served. -/
def State.runPhases (ctx : Nat) : Nat → State → State
  | 0, s => s
  | n + 1, s => match s.ctx? ctx with
    | none => s
    | some c => match c.phaseAsks with
      | [] => s
      | a :: r =>
        if c.schedWaits ≠ [] then s
        else match s.phaseMiss ctx a with
          | some (buf, pg) => s.schedWait ctx buf pg
          | none => State.runPhases ctx n ((s.enterPhase ctx (s.phaseOf ctx c a)).modCtx ctx fun c => { c with phaseAsks := r, schedDead := [] })
/-- The command processor is to enter a phase, after the entries asked for before (R96, R326). -/
def State.askPhase (s : State) (ctx : Nat) (a : Option Nat) : State :=
  let s := s.modCtx ctx fun c => { c with phaseAsks := c.phaseAsks ++ [a] }
  State.runPhases ctx (match s.ctx? ctx with | some c => c.phaseAsks.length | none => 0) s

end Sys2Proof.Machine
end

