-- ==== Sys2Proof/Machine/Tasks.lean ====
section
/-! DEFINITION. Launch and task instructions (R318, R319, R224, R229). -/

namespace Sys2Proof.Machine

/-- The issue of an item by a thread: after its earlier accesses, with room in CP and in the table (R182, R319). -/
def mayIssueItem (s : State) (r : Ref) : Bool := s.drained r.g r.t && decide (r.T.cp < 63) && !s.tableFull
/-- The item a group belongs to, and its ancestors (R66). -/
def State.ancestry (s : State) (item : Nat) : List Nat := match s.item? item with | some i => item :: i.anc | none => [item]
def issuedItem : TOut := .done { cp := 1, vol := 64 }

/-- `launch` and `tspawn`: the record is read and its counter raised at the issue event (R221, R319). -/
def actItem (kind : ItemKind) (f : Full) (s : State) (r : Ref) : State × TOut :=
  let a := s.ea r f
  if a.toNat % 128 ≠ 0 then (s, alignTrap 7 a.toNat)
  else if ¬ mayIssueItem s r then (s, .wait .resource)
  else
    let w : Waiting := { ctx := r.G.ctx, kind := kind, addr := a, issuer := some (r.g, r.t, r.G.core), anc := s.ancestry r.G.item, joined := true }
    match s.port_ r.G.ctx [] .load a 128 with
    | .page buf pg => (s, .page 0 buf pg a)
    | .ok ps =>
      match s.poisonedIn false ps with
      | some x => (s.poisonKill r.G.ctx a x, .stay)
      | none =>
        let b := s.gather ps
        let j := BitVec.ofNat 64 (leNat ((b.drop 0x50).take 8))
        let q := leNat ((b.drop 0x2F).take 1) % 64
        if j = 0 then (s.pushHw q { w with bytes := some b }, issuedItem)
        else match s.port_ r.G.ctx [] .atomic j 8 with
          | .page buf pg => (s, .page 2 buf pg j)
          | _ =>
            let (s, x) := s.joinAdd r.G.ctx j 1
            (s.pushHw q { w with bytes := some b, joinBad := x.isNone }, issuedItem)
    | _ => (s.pushHw 0 w, issuedItem)

/-- `relaunch`: it enters the queue of the recorded launch, queue 0 where the port refuses that byte; all else is
admission's (R319). -/
def actRelaunch (f : Full) (s : State) (r : Ref) : State × TOut :=
  let a := s.ea r f
  if a.toNat % 256 ≠ 0 then (s, alignTrap 8 a.toNat)
  else if ¬ mayIssueItem s r then (s, .wait .resource)
  else
    let w : Waiting := { ctx := r.G.ctx, kind := .relaunch, addr := a, param := BitVec.ofNat 64 (s.op64 r f.d.toNat),
                         issuer := some (r.g, r.t, r.G.core), anc := s.ancestry r.G.item, order := s.next }
    let b := addOff a 0xAF
    match s.port_ r.G.ctx [] .load b 1 with
    | .page buf pg => (s, .page 0 buf pg b)
    | .ok ps => (match s.poisonedIn false ps with
      | some x => (s.poisonKill r.G.ctx b x, .stay)
      | none => (s.pushHw (leNat (s.gather ps) % 64) w, issuedItem))
    | _ => (s.pushHw 0 w, issuedItem)

/-- `tawait` (R229, R491): a negative counter is a deferred fault at the instruction. -/
def actTawait (f : Full) (s : State) (r : Ref) : State × TOut :=
  let a := s.ea r f
  if a.toNat % 8 ≠ 0 then (s, alignTrap 3 a.toNat)
  else if r.T.ld ≠ 0 then (s, .wait (.counters 0 63 63 15))
  else if ¬ s.drained r.g r.t then (s, .wait .resource)
  else match s.port_ r.G.ctx (s.renOf r.G.item) .load a 8 with
    | .refused cause need => (s, .trap (portTrap 0 cause need a 0))
    | .page buf pg => (s, .page 0 buf pg a)
    | .remote _ _ => (s, useTrap 9 (a.toNat / 64 * 64))
    | .ok ps =>
      match s.poisonedIn false ps with
      | some x => (s.poisonKill r.G.ctx a x, .stay)
      | none =>
        let p := ps.headD 0
        -- it is read at its home, where its line is watched: one read as 0 comes after every decrement (R187)
        let s := ((s.checkAll ps).traceNote r.g false a 8).renew r.G.core (p / 128)
        let c := sextN (leNat (s.gather ps)) 64
        if c = 0 then (s, .done {})
        else if c < 0 then (s, .trap { cause := 0x1D, addr := a.toNat, cls := 1 })
        else (s, .wait (.line p false))

def execLaunch (f : Full) (s : State) : Host.Outcome State Fault Refusal := issueTurn 0x0C2 f (actItem .launch f) s
def execRelaunch (f : Full) (s : State) : Host.Outcome State Fault Refusal := issueTurn 0x0C3 f (actRelaunch f) s
def execTspawn (f : Full) (s : State) : Host.Outcome State Fault Refusal := issueTurn 0x0C4 f (actItem .task f) s
def execTawait (f : Full) (s : State) : Host.Outcome State Fault Refusal := issueTurn 0x0C5 f (faultPoint (actTawait f)) s

end Sys2Proof.Machine
end

