-- ==== Sys2Proof/Machine/System.lean ====
section
/-! DEFINITION. System instructions (R320 to R326): traps, handlers, return, pre-emption, power leave and eviction phases. -/

namespace Sys2Proof.Machine

/-- A trap that returns behind its instruction (R321). -/
def actRaise (t : Nat → Trap) (f : Full) (s : State) (r : Ref) : State × TOut :=
  let arg := s.b32 r f.b
  let next := s.nextPc r
  (s.modT r.g r.t fun T => { T with pc := next }, .trap (t arg))

/-- `sethdl` (R322): of one issue, in each group the lowest valid lane's address stands. -/
def actSethdl (f : Full) (s : State) (rs : List Ref) : State × List (Ref × TOut) :=
  let ok (r : Ref) : Bool := s.op64 r f.a.toNat % 4 == 0
  (s.modLeads (rs.filter ok) fun r G => { G with handler := BitVec.ofNat 64 (s.op64 r f.a.toNat) }, rs.map fun r => (r, if ok r then .done {} else .trap { cause := 0x03, arg := 1, addr := s.op64 r f.a.toNat }))

/-- `rte` (R323). -/
def actRte (_ : Full) (s : State) (r : Ref) : State × TOut :=
  if r.T.hmode = .none then (s, useTrap 1 0)
  else if r.T.tpc.toNat % 4 ≠ 0 then (s, .trap { cause := 0x03, arg := 5, addr := r.T.tpc.toNat })
  else (s.rte r.g r.t, .stay)

/-- `preemptd` (R324, R78); after a forced save closed its delivery it completes at once (R445). -/
def actPreemptd (_ : Full) (s : State) (r : Ref) : State × TOut :=
  if r.T.hmode ≠ .preempt then (s, useTrap 2 0)
  else if ¬ (r.G.open_.any fun d => d.preempt && d.tids.contains r.t) then (s, .done {})
  else
    let next := s.nextPc r
    (s.modT r.g r.t fun T => { T with pc := next, parked := true }, .wait .preempted)

/-! ## Power leave (R76, R252, R325) -/

/-- A request for leave; threads that ask for one level in one issue share it (R501). -/
def State.askLeave (s : State) (g level : Nat) : State :=
  let q : LeaveReq := ⟨g, level, s.clock⟩
  if s.leaves.contains q then s else { s with leaves := s.leaves ++ [q] }
/-- The charge of a group's present leave. -/
def State.leaveId (s : State) (g : Nat) : Nat :=
  match s.charges.find? fun c => c.grp == g && !c.ended with | some c => c.id | none => 0
/-- Go on with leave of a level, or wait for it. -/
def withLeave (level : Nat) (s : State) (r : Ref) (act : State → State × TOut) : State × TOut :=
  if level ≤ r.G.grant ∨ r.T.wait = .passed then act s else (s.askLeave r.g level, .wait (.leave level))
def actLeave (f : Full) (s : State) (r : Ref) : State × TOut :=
  let v := s.b32 r f.b
  if v < 1 ∨ 3 < v then (s, operandTrap 2) else withLeave v s r fun s => (s, .done {})
def actEndlv (_ : Full) (s : State) (r : Ref) : State × TOut := (s.endLeave r.g, .done {})

/-! ## Eviction phases (R326) -/

/-- An entry of the command processor's order: it waits for the entries asked for before, and for the pages its reads need. -/
def phaseTry (s : State) (ctx : Nat) (c : Ctx) (ask : Option Nat) (go : State × TOut) : State × TOut :=
  if c.phaseAsks ≠ [] then (s, .wait .resource)
  else match s.phaseMiss ctx ask with
    | some (buf, pg) => (s.schedWait ctx buf pg, .wait .resource)
    | none => (go.1.modCtx ctx fun c => { c with schedDead := [] }, go.2)
def actEvph (_ : Full) (s : State) (r : Ref) : State × TOut :=
  match s.ctx? r.G.ctx with
  | none => (s, .done {})
  | some c => if c.evs = 0 then (s, .done {}) else phaseTry s r.G.ctx c none (s.nextPhase r.G.ctx, .done {})
def actEvphSet (f : Full) (s : State) (r : Ref) : State × TOut :=
  let v := s.b32 r f.b
  match s.ctx? r.G.ctx with
  | none => (s, .done {})
  | some c =>
    if c.evs = 0 then (s, .done {})
    else phaseTry s r.G.ctx c (some v) (match s.schedHeader r.G.ctx c.evs with
      | .error _ => (s.enterPhase r.G.ctx c.phase, .done {})
      | .ok (n, _) => if n ≤ v then (s, operandTrap 2) else (s.enterPhase r.G.ctx v, .done {}))

/-! ## The instructions -/

def execTrap (f : Full) (s : State) : Host.Outcome State Fault Refusal :=
  issueTurn 0x1B0 f (actRaise (fun x => { cause := 0x08, arg := x % 65536 }) f) s
def execSethdl (f : Full) (s : State) : Host.Outcome State Fault Refusal := issueAll 0x1B1 f (actSethdl f) s
def execRte (f : Full) (s : State) : Host.Outcome State Fault Refusal := issueTurn 0x1B2 f (actRte f) s
def execPreemptd (f : Full) (s : State) : Host.Outcome State Fault Refusal := issueTurn 0x1B3 f (actPreemptd f) s
def execBrkpt (f : Full) (s : State) : Host.Outcome State Fault Refusal := issueTurn 0x1B4 f (actRaise (fun _ => { cause := 0x09 }) f) s
def execLeave (f : Full) (s : State) : Host.Outcome State Fault Refusal := issueTurn 0x1B5 f (actLeave f) s
def execEndlv (f : Full) (s : State) : Host.Outcome State Fault Refusal := issueTurn 0x1B6 f (actEndlv f) s
def execEvph (f : Full) (s : State) : Host.Outcome State Fault Refusal := issueTurn 0x1B7 f (actEvph f) s
def execEvphSet (f : Full) (s : State) : Host.Outcome State Fault Refusal := issueTurn 0x1B8 f (actEvphSet f) s

end Sys2Proof.Machine
end

