-- ==== Sys2Proof/Machine/Memory.lean ====
section
/-! DEFINITION. Loads, stores, prefetch, atomics and hitch instructions (R328 to R341). Each starts an access, whose place in the
total order an event of the device gives it (R171). -/

namespace Sys2Proof.Machine

/-! ## Loads and stores (R332, R333) -/

/-- The events of an access: one when it is naturally aligned, one per byte otherwise (R172). -/
def partsOf (addr len : Nat) : List (Nat × Nat) :=
  if addr % len = 0 then [(0, len)] else (List.range len).map fun k => (k, 1)
/-- A request to a peer is split at its 64-byte lines (R333). -/
def remoteParts (addr len : Nat) : List (Nat × Nat) :=
  if addr % 64 + len ≤ 64 then [(0, len)] else let k := 64 - addr % 64; [(0, k), (k, len - k)]
/-- The peer, the address there and the cycle, where a buffer is REMOTE (R190). -/
def remoteOf (s : State) (r : Ref) (k : PKind) (a : Addr) (len : Nat) : Option (Nat × Nat × Nat) :=
  match s.port_ r.G.ctx (s.renOf r.G.item) k a len with
  | .remote pod x => some (pod, x, s.clock)
  | _ => none
def accParts (rem : Option (Nat × Nat × Nat)) (addr len : Nat) : List (Nat × Nat) :=
  match rem with
  | some (_, x, _) => remoteParts x len
  | none => partsOf addr len

def planLd (w : Width) (f : Full) (s : State) (r : Ref) : TOut :=
  let a := s.ea r f
  s.loadAt r 0 a w.bytes fun rem =>
    .done { accs := [{ kind := .load w f.ty f.d.toNat a none, parts := accParts rem a.toNat w.bytes, remote := rem }],
            vol := if rem.isSome then 32 else 0 }
/-- Store data: the low bytes of a register, pair or quad (R333). -/
def State.stData (s : State) (r : Ref) (w : Width) (d : Nat) : List Byte :=
  leBytes w.bytes (match w with | .b16 => s.op128 r d | .b8 => s.op64 r d | _ => s.op32 r d)
def planSt (w : Width) (f : Full) (s : State) (r : Ref) : TOut :=
  let a := s.ea r f
  let rem := remoteOf s r .store a w.bytes
  .done { accs := [{ kind := .store a (s.stData r w f.d.toNat) none, parts := accParts rem a.toNat w.bytes, remote := rem }] }
/-- Scratchpad forms: the group's own, or a gang member's (R91, R93). -/
def planLds (gang : Bool) (w : Width) (f : Full) (s : State) (r : Ref) : TOut :=
  let (g, o) := s.place r gang (s.eo r f)
  .done { accs := [{ kind := .load w f.ty f.d.toNat (BitVec.ofNat 64 o) (some g), parts := partsOf o w.bytes }] }
def planSts (gang : Bool) (w : Width) (f : Full) (s : State) (r : Ref) : TOut :=
  let (g, o) := s.place r gang (s.eo r f)
  .done { accs := [{ kind := .store (BitVec.ofNat 64 o) (s.stData r w f.d.toNat) (some g), parts := partsOf o w.bytes }] }

/-- `lpf` (R335): the line is fetched into the L1 or L2 with its lease; a refused address or a page without a translation does
nothing. -/
def actLpf (f : Full) (s : State) (r : Ref) : State × TOut :=
  match s.port_ r.G.ctx (s.renOf r.G.item) .load (s.ea r f) 1 with
  | .ok ps =>
    let pts := (s.core r.G.core).pts
    let s' := if f.mod.toNat < 2 then s.readTouch r.G.core (ps.headD 0 / 128) else s
    let s' := s'.modCore r.G.core fun c => { c with pts := pts }
    let s' := if f.mod = 1 then
        s'.modPort fun p => { p with copies := p.copies.filter fun c =>
          !(c.line == ps.headD 0 / 128 && c.level == 0 && c.unit == r.G.core) || s.port.copies.contains c }
      else s'
    (s', .done {})
  | _ => (s, .done {})

/-! ## Atomics (R336, R337) -/

/-- The bytes of an atomic's word. -/
def atomLen (t : Ty) : Nat := if t.is64 then 8 else 4
/-- `ret`: the old value goes to D; the swap value of `.cas` follows the compare value. -/
def planAtom (op : AtomOp) (ret : Bool) (f : Full) (s : State) (r : Ref) : TOut :=
  let a := s.ea r f
  let len := atomLen f.ty
  if a.toNat % len ≠ 0 then alignTrap (if len = 8 then 3 else 2) a.toNat
  else
    let rem := remoteOf s r (if ret then .atomicRet else .atomic) a len
    let d := f.d.toNat
    let swap := if op = .cas then (if f.ty.is64 then s.op64 r (d + 2) else s.op32 r (d + 1)) else 0
    .done { accs := [{ kind := .atom op f.ty (s.opTy r f.ty d) swap (if ret then some d else none) f.pd.toNat a f.mod.toNat,
                       parts := [(0, len)], remote := rem }],
            vol := if ret then (if rem.isSome then 33 else 1) else 0 }

/-! ## Hitches (R209 to R219, R340, R341) -/

def hitchTag (f : Full) : Nat := f.ext.toNat * 4 + f.mod.toNat % 4
/-- Whether two runs of a scratchpad of A bytes share a byte. -/
def ringOverlap (A o n p m : Nat) : Bool := decide ((p + A - o % A) % A < n ∨ (o + A - p % A) % A < m)
/-- Offsets and lengths of a group's live slots and of the hitches the home has not answered. -/
def State.slotRuns (s : State) (g : Nat) : List (Nat × Nat) :=
  (match s.group? g with
    | some G => (G.slots.filter fun x => !x.2.gone).map fun (x : Nat × Slot) => (x.1, 80 * x.2.nent)
    | none => [])
  ++ s.accesses.filterMap fun a => match a.kind with
    | .hitch off _ _ n _ _ _ => if a.grp = g then some (off, 80 * n) else none
    | _ => none
/-- One thread's `hitch`, beside the runs that are taken. -/
def hitchOne (each : Bool) (f : Full) (s : State) (taken : List (Nat × Nat)) (r : Ref) : TOut :=
  let n := if each then f.mod.toNat / 4 + 1 else 1
  let off := s.op32 r f.d.toNat
  let A := r.G.lr.alloc
  let a := s.ea r f
  let line := a &&& ~~~(63#64)
  if A < 80 * n then .trap { cause := 0x03, arg := 0, addr := off }
  else if off % 16 ≠ 0 then alignTrap 4 off
  else if taken.any fun (x : Nat × Nat) => ringOverlap A (off % A) (80 * n) x.1 x.2 then useTrap 8 off
  else
    let e := match s.ctx? r.G.ctx with | some c => s.buf c (bufOf a) | none => bufOfBytes []
    if e.valid ∧ e.remote then useTrap 9 line.toNat
    else s.loadAt r 6 line 64 fun _ =>
      .done { accs := [{ kind := .hitch (off % A) line 0 n each (hitchTag f) f.pd.toNat, parts := [(0, 64)] }], vol := 4 }
def actHitch (each : Bool) (f : Full) (s : State) (rs : List Ref) : State × List (Ref × TOut) :=
  match rs.head? with
  | none => (s, [])
  | some lo =>
    if ¬ lo.G.inTags (hitchTag f) then (s, rs.map fun r => (r, useTrap 7 0))
    else
      let outs := rs.foldl (fun (acc : List (Ref × TOut) × List (Nat × Nat × Nat)) r =>
        let o := hitchOne each f s (s.slotRuns r.g ++ (acc.2.filter fun x => x.1 == r.g).map fun x => (x.2.1, x.2.2)) r
        let claim := (o.res.accs.filterMap fun a => match a.kind with
          | .hitch off _ _ n _ _ _ => some (r.g, off, 80 * n)
          | _ => none)
        (acc.1 ++ [(r, o)], acc.2 ++ claim)) ([], [])
      (s, outs.1)

/-- What the core writes of a slot's header at each event, entry j (R209). -/
def Slot.header (x : Slot) (j : Nat) : Nat :=
  let fresh := if x.fresh.getD j false then 2 ^ 48 else 0
  let seq := x.seqs.getD j 0 % 2 ^ 32
  if j = 0 then
    seq + 2 ^ 32 * (x.coal % 2 ^ 16) + fresh + (if x.each then 2 ^ 49 else 0) + 2 ^ 50 * (x.tag % 64)
      + 2 ^ 56 * ((x.nent - 1) % 4) + 2 ^ 58 * (x.head % 4) + (if x.gone then 2 ^ 60 else 0)
      + (if x.severed then 2 ^ 61 else 0) + 2 ^ 64 * x.addr.toNat
  else seq + fresh
/-- The headers of a slot in its group's scratchpad. -/
def State.slotHeaders (s : State) (g off : Nat) (x : Slot) : State :=
  (List.range x.nent).foldl (fun s j => s.padWrite g (off + 80 * j + 64) (leBytes 16 (x.header j))) s
def State.setSlot (s : State) (g off : Nat) (x : Slot) : State :=
  (s.modG g fun G => { G with slots := Map.set G.slots off x }).slotHeaders g off x
/-- Whether a group's slot that names a tag has a FRESH entry (R100). -/
def Group.freshTag (G : Group) (tag : Nat) : Bool := G.slots.any fun x => x.2.tag == tag && x.2.fresh.any (· == true)

/-- `unhitch` (R218, R490). -/
def actUnhitch (f : Full) (s : State) (r : Ref) : State × TOut :=
  let off := s.eo r f % r.G.lr.alloc
  match s.group? r.g with
  | none => (s, .done {})
  | some G => match Map.get? G.slots off with
    | none => (s, .done {})
    | some x =>
      if x.gone ∨ x.removing then (s, .done {})
      else
        let s := s.modG r.g fun G => { G with slots := Map.set G.slots off x.remove }
        ((if x.severed then (s.slotHeaders r.g off x.remove).modG r.g (·.setTag x.tag true) else s).trimLines, .done {})
/-- `hclr` and `hclr.eq` (R214): a read-modify-write of the scratchpad's order. -/
def planHclr (cond : Bool) (f : Full) (s : State) (r : Ref) : TOut :=
  let off := s.eo r f
  if off % 16 ≠ 0 then alignTrap 4 off
  else
    let c := if cond then some (BitVec.ofNat 32 (s.op32 r f.d.toNat)) else none
    .done { accs := [{ kind := .hclr (off % r.G.lr.alloc) c f.pd.toNat, parts := [(0, 16)] }] }

/-! ## The instructions -/

def execLd (w : Width) (f : Full) (s : State) : Host.Outcome State Fault Refusal := issueEach (0x0D0 + w.code) f (planLd w f) s
def execSt (w : Width) (f : Full) (s : State) : Host.Outcome State Fault Refusal := issueEach (0x0D5 + w.code) f (planSt w f) s
def execLds (w : Width) (f : Full) (s : State) : Host.Outcome State Fault Refusal :=
  issueEach (0x0DA + w.code) f (planLds false w f) s
def execSts (w : Width) (f : Full) (s : State) : Host.Outcome State Fault Refusal :=
  issueEach (0x0DF + w.code) f (planSts false w f) s
def execLdsG (w : Width) (f : Full) (s : State) : Host.Outcome State Fault Refusal :=
  issueEach (0x0E4 + w.code) f (planLds true w f) s
def execStsG (w : Width) (f : Full) (s : State) : Host.Outcome State Fault Refusal :=
  issueEach (0x0E9 + w.code) f (planSts true w f) s
def execAtomAdd (f : Full) (s : State) : Host.Outcome State Fault Refusal := issueEach 0x0F2 f (planAtom .add false f) s
def execAtomMin (f : Full) (s : State) : Host.Outcome State Fault Refusal := issueEach 0x0F3 f (planAtom .min false f) s
def execAtomMax (f : Full) (s : State) : Host.Outcome State Fault Refusal := issueEach 0x0F4 f (planAtom .max false f) s
def execAtomAnd (f : Full) (s : State) : Host.Outcome State Fault Refusal := issueEach 0x0F5 f (planAtom .and false f) s
def execAtomOr (f : Full) (s : State) : Host.Outcome State Fault Refusal := issueEach 0x0F6 f (planAtom .or false f) s
def execAtomXor (f : Full) (s : State) : Host.Outcome State Fault Refusal := issueEach 0x0F7 f (planAtom .xor false f) s
def execAtomInc (f : Full) (s : State) : Host.Outcome State Fault Refusal := issueEach 0x0F8 f (planAtom .inc false f) s
def execAtomDec (f : Full) (s : State) : Host.Outcome State Fault Refusal := issueEach 0x0F9 f (planAtom .dec false f) s
def execAtomFadd (f : Full) (s : State) : Host.Outcome State Fault Refusal := issueEach 0x0FA f (planAtom .fadd false f) s
def execAtomFmin (f : Full) (s : State) : Host.Outcome State Fault Refusal := issueEach 0x0FB f (planAtom .fmin false f) s
def execAtomFmax (f : Full) (s : State) : Host.Outcome State Fault Refusal := issueEach 0x0FC f (planAtom .fmax false f) s
def execAtomrAdd (f : Full) (s : State) : Host.Outcome State Fault Refusal := issueEach 0x0FD f (planAtom .add true f) s
def execAtomrMin (f : Full) (s : State) : Host.Outcome State Fault Refusal := issueEach 0x0FE f (planAtom .min true f) s
def execAtomrMax (f : Full) (s : State) : Host.Outcome State Fault Refusal := issueEach 0x0FF f (planAtom .max true f) s
def execAtomrAnd (f : Full) (s : State) : Host.Outcome State Fault Refusal := issueEach 0x100 f (planAtom .and true f) s
def execAtomrOr (f : Full) (s : State) : Host.Outcome State Fault Refusal := issueEach 0x101 f (planAtom .or true f) s
def execAtomrXor (f : Full) (s : State) : Host.Outcome State Fault Refusal := issueEach 0x102 f (planAtom .xor true f) s
def execAtomrInc (f : Full) (s : State) : Host.Outcome State Fault Refusal := issueEach 0x103 f (planAtom .inc true f) s
def execAtomrDec (f : Full) (s : State) : Host.Outcome State Fault Refusal := issueEach 0x104 f (planAtom .dec true f) s
def execAtomrFadd (f : Full) (s : State) : Host.Outcome State Fault Refusal := issueEach 0x105 f (planAtom .fadd true f) s
def execAtomrFmin (f : Full) (s : State) : Host.Outcome State Fault Refusal := issueEach 0x106 f (planAtom .fmin true f) s
def execAtomrFmax (f : Full) (s : State) : Host.Outcome State Fault Refusal := issueEach 0x107 f (planAtom .fmax true f) s
def execAtomrExch (f : Full) (s : State) : Host.Outcome State Fault Refusal := issueEach 0x108 f (planAtom .exch true f) s
def execAtomrCas (f : Full) (s : State) : Host.Outcome State Fault Refusal := issueEach 0x109 f (planAtom .cas true f) s
def execHitch (f : Full) (s : State) : Host.Outcome State Fault Refusal := issueAll 0x10A f (actHitch false f) s
def execHitchEach (f : Full) (s : State) : Host.Outcome State Fault Refusal := issueAll 0x10B f (actHitch true f) s
def execUnhitch (f : Full) (s : State) : Host.Outcome State Fault Refusal := issueTurn 0x10C f (actUnhitch f) s
def execHclr (f : Full) (s : State) : Host.Outcome State Fault Refusal := issueEach 0x10D f (planHclr false f) s
def execHclrEq (f : Full) (s : State) : Host.Outcome State Fault Refusal := issueEach 0x10E f (planHclr true f) s
def execLpf (f : Full) (s : State) : Host.Outcome State Fault Refusal := issueTurn 0x10F f (actLpf f) s

end Sys2Proof.Machine
end

