-- ==== Sys2Proof/Machine/Planar.lean ====
section
/-! DEFINITION. Plane sets in memory (R108 to R121), planar reads and writes of one block (R128 to R135), and the planar memory
instructions (R338, R339, R470, R471). -/

namespace Sys2Proof.Machine

/-! ## The plane directory -/

/-- A plane-directory entry (R112). -/
structure Pde where
  hbase : Addr
  pbase : Addr
  pstride : Nat
  nblk : Nat
  d : Nat
  centre : Bool
  valid : Bool
  ro : Bool
  reserved : Bool
deriving DecidableEq, Repr

def Pde.ofBytes (b : List Byte) : Pde :=
  let x := leNat b
  { hbase := BitVec.ofNat 64 (bitsN x 63 0), pbase := BitVec.ofNat 64 (bitsN x 127 64), pstride := bitsN x 175 128,
    nblk := bitsN x 223 192, d := bitsN x 228 224, centre := bitN x 229 == 1, valid := bitN x 230 == 1, ro := bitN x 231 == 1,
    reserved := decide (bitsN x 191 176 ≠ 0 ∨ bitsN x 255 232 ≠ 0) }

/-- The address of block b's header, and of its word of plane k (R114). -/
def Pde.header (p : Pde) (b : Nat) : Addr := addOff p.hbase (4 * b : Nat)
def Pde.plane (p : Pde) (b k : Nat) : Addr := addOff p.pbase (k * p.pstride + 4 * b : Nat)

/-- Why a planar access fails. -/
inductive PlFail
  /-- the reason of R470 -/
  | dir (reason : Nat)
  | port (cause need : Nat) (a : Addr)
  | page (buf pg : Nat) (a : Addr)
  | poison (sector : Nat) (a : Addr)
deriving DecidableEq, Repr

/-- The entry of a handle (R111, R113, R470). -/
def State.pde (s : State) (ctx h : Nat) : Except PlFail Pde :=
  match s.ctx? ctx with
  | none => .error (.dir 1)
  | some c =>
    if c.pdir = 0 ∨ c.pdlen ≤ h then .error (.dir 1)
    else match s.readDev ctx (addOff c.pdir (32 * h : Nat)) 32 with
      | none => .error (.dir 6)
      | some b =>
        let p := Pde.ofBytes b
        if p.valid then .ok p else .error (.dir 2)
/-- The entry for an access to one block, with the checks of R113 and R339. -/
def State.pdeFor (s : State) (ctx h b : Nat) (write : Bool) : Except PlFail Pde :=
  match s.pde ctx h with
  | .error e => .error e
  | .ok p =>
    let remote (a : Addr) : Bool := match s.ctx? ctx with | some c => (s.buf c (bufOf a)).valid && (s.buf c (bufOf a)).remote | none => false
    if p.nblk ≤ b then .error (.dir 3)
    else if write ∧ p.ro then .error (.dir 4)
    else if remote p.hbase ∨ remote p.pbase then .error (.dir 5)
    else .ok p

/-- The physical bytes of a list of planar words, each checked by R86 (R463, R470, R476). -/
def State.plWords (s : State) (ctx : Nat) (ren : List Rename) (k : PKind) : List Addr → Except PlFail (List (List Nat))
  | [] => .ok []
  | a :: as =>
    match s.port_ ctx ren k a 4 with
    | .refused cause need => .error (.port cause need a)
    | .page buf pg => .error (.page buf pg a)
    | .remote _ _ => .error (.dir 5)
    | .ok ps =>
      match s.poisonedIn (k == .store) ps with
      | some x => .error (.poison x a)
      | none => match s.plWords ctx ren k as with
        | .error e => .error e
        | .ok r => .ok (ps :: r)

/-- A header word's fields (R109, R110). -/
def hdV (h : Nat) : Nat := bitsN h 31 16
def hdE (h : Nat) : Nat := bitsN h 7 0
def hdVd (h : Nat) (d : Nat) : Nat := min (bitsN h 12 8) d

/-- One block as a planar read sees it: header, sign plane and planes, by number (R115, R129). -/
structure Block where
  hd : Nat
  planes : List (Nat × Nat)
deriving DecidableEq, Repr
def Block.bit (x : Block) (k i : Nat) : Nat := match x.planes.find? (·.1 == k) with | some p => bitN p.2 i | none => 0

/-- A block as memory shows it: the header, then the planes `want` names of it; beside it the addresses and the bytes read (R121,
R129). -/
def State.blockIn (s : State) (mem : List Host.Cell) (ctx : Nat) (ren : List Rename) (p : Pde) (b : Nat) (want : Nat → List Nat) :
    Except PlFail (Block × List Addr × List Nat) :=
  let see (w : List Nat) : Nat := leNat (w.map (memByte mem))
  match s.plWords ctx ren .load [p.header b] with
  | .error e => .error e
  | .ok hp =>
    let hd := see (hp.headD [])
    let ks := want hd
    match s.plWords ctx ren .load (ks.map (p.plane b)) with
    | .error e => .error e
    | .ok ws => .ok (⟨hd, ks.zip (ws.map see)⟩, p.header b :: ks.map (p.plane b), hp.flatten ++ ws.flatten)
/-- The snapshot of a block at its home. -/
def State.readBlock (s : State) (ctx : Nat) (ren : List Rename) (p : Pde) (b : Nat) (want : Nat → List Nat) :
    Except PlFail (Block × List Addr) :=
  (s.blockIn s.mem ctx ren p b want).map fun x => (x.1, x.2.1)
/-- Memory as the copies that serve a core show it. -/
def State.copiesMem (s : State) (core : Nat) : List Host.Cell :=
  let put (m : List Host.Cell) (c : Copy) : List Host.Cell := memWrite m (128 * c.line) c.data
  let at_ (lv u : Nat) : List Copy := s.port.copies.filter fun c => c.serves lv u c.line (s.pts core) s.clock
  (at_ 0 core).reverse.foldl put ((at_ 1 (dieOf core)).reverse.foldl put s.mem)
/-- A core's planar read of a block (R129): at one program timestamp, from copies where they serve all of it, else with every line
renewed at its home. -/
def State.seeBlock (s : State) (core ctx : Nat) (ren : List Rename) (p : Pde) (b : Nat) (want : Nat → List Nat) :
    Except PlFail (State × Block × List Addr) :=
  let lines (ps : List Nat) : List Nat := (ps.map (· / 128)).eraseDups
  let home := (s.blockIn s.mem ctx ren p b want).map fun x => ((lines x.2.2).foldl (fun (s : State) l => s.renew core l) s, x.1, x.2.1)
  match s.blockIn (s.copiesMem core) ctx ren p b want with
  | .ok x => if (lines x.2.2).all fun l => (s.copyFor core l).isSome then .ok (s, x.1, x.2.1) else home
  | .error _ => home
/-- Planes 0 to min(d, effective VD) of a block whose E is not 0 (R115). -/
def planesTo (p : Pde) (d hd : Nat) : List Nat := if hdE hd = 0 then [] else List.range (min d (hdVd hd p.d) + 1)

/-! ## Planar lines in caches (R136 to R138) -/

/-- A lease that has not expired (R95). -/
def Lease.live (l : Lease) (now : Nat) : Bool := decide (now < l.expiry)
/-- The leases of a die: context and pinned lines. -/
def State.pins (s : State) (die : Nat) : List (Nat × List Nat) :=
  s.groups.flatMap fun (e : Nat × Group) =>
    if dieOf e.2.core = die then (e.2.leases.filter fun x => x.2.live s.clock).map fun (x : Nat × Lease) => (e.2.ctx, x.2.lines) else []
/-- The same planar line at the same level. -/
def PlaneLine.same (l x : PlaneLine) : Bool :=
  l.level == x.level && l.unit == x.unit && l.ctx == x.ctx && l.handle == x.handle && l.line == x.line
/-- Whether the deepest sector of a planar line of an L2 is pinned by a lease (R95). -/
def State.pinned (s : State) (l : PlaneLine) : Bool :=
  l.level == 1 && (match s.pde l.ctx l.handle with
    | .ok p => (match s.port_ l.ctx [] .load (p.plane (8 * l.line) l.depth) 1 with
      | .ok (x :: _) => (s.pins l.unit).any fun e => e.2.contains (x / 128)
      | _ => false)
    | .error _ => false)
/-- Class and floor of a planar line: those of its header's granule. -/
def State.lineClass (s : State) (l : PlaneLine) : Nat × Nat :=
  match s.planarGran l.ctx l.handle l.line with | some (buf, g) => s.classFloor l.ctx buf g | none => (3, 0)
/-- What is left of a victim: it gives up its deepest plane sector first, and goes whole at its floor (R138). -/
def State.shed (s : State) (l : PlaneLine) : Option PlaneLine :=
  if (s.lineClass l).2 < l.depth then some { l with depth := l.depth - 1 } else none
/-- The victim of a search for room for x: in the LLC the line of the lowest class in x's set, the oldest fill among equals (R97); in an
L1 or L2 the one its own recency rule names, of the lines no lease pins. -/
def State.victim (s : State) (held : List PlaneLine) (x : PlaneLine) (k : Nat) : Option PlaneLine :=
  let cand := held.filter fun l => l.level == x.level && l.unit == x.unit && !l.same x
  if x.level = 2 then
    let set_ (l : PlaneLine) : Nat := Config.planeSet l.ctx l.handle l.line
    let key (l : PlaneLine) : Nat × Nat := ((s.lineClass l).1, l.fill)
    (Map.sortBy (fun a b => decide ((key a).1 < (key b).1) || ((key a).1 == (key b).1 && decide ((key a).2 ≤ (key b).2)))
      (cand.filter fun l => set_ l == set_ x)).head?
  else (cand.filter fun l => !s.pinned l)[Config.planeVictim s.free x.level k]?
/-- A level holds x, its depth raised to what was needed; lines it already held may have to make room (R137, R138). -/
def State.holdLine (s : State) (held : List PlaneLine) (x : PlaneLine) : List PlaneLine :=
  let held := if held.any (·.same x) then
      held.map fun l => if l.same x then { l with depth := max l.depth x.depth, parts := l.parts ||| x.parts } else l
    else x :: held
  (List.range (Config.planeSheds s.free x.level)).foldl (fun (held : List PlaneLine) k =>
    match s.victim held x k with
    | none => held
    | some v => held.flatMap fun l => if l = v then (s.shed l).toList else [l]) held
/-- A planar line filled, or written through: its held depth at each level rises to what was needed (R137). A core's own accesses fill
its L1 too. -/
def State.planeFill (s : State) (l1 : Bool) (ctx core h b d : Nat) (parts : Nat := 3) : State :=
  let at_ (lv un : Nat) : PlaneLine := ⟨lv, un, ctx, h, b / 8, d, s.clock, parts⟩
  let xs := (if l1 then [at_ 0 core] else []) ++ [at_ 1 (dieOf core), at_ 2 0]
  { s with port := { s.port with planes := xs.foldl s.holdLine s.port.planes }, free := s.free + 1 }
/-- The fill of a block read at depth d, as its header stands. -/
def State.blockFill (s : State) (l1 : Bool) (ctx : Nat) (ren : List Rename) (core h b d : Nat) : State :=
  match s.pdeFor ctx h b false with
  | .ok p => (match s.readBlock ctx ren p b (planesTo p d) with
    | .ok (_, as) => s.planeFill l1 ctx core h b (as.length - 2)
    | .error _ => s)
  | .error _ => s

/-! ## Planar loads and refines -/

/-- The word and tag of `ldp` at depth d (R128). -/
def ldpResult (p : Pde) (d lane : Nat) (x : Block) : Nat × Nat :=
  let vd := hdVd x.hd p.d
  let dh := min d vd
  let e := hdE x.hd
  let w := if e = 0 then 0
    else (List.range dh).foldl (fun w k => w + x.bit (k + 1) lane * 2 ^ (30 - k)) (x.bit 0 lane * 2 ^ 31)
  let ex := if dh = vd ∨ e = 0 then 1 else 0
  (w, hdV x.hd * 2 ^ 16 + 2 ^ 15 + (if p.centre then 2 ^ 14 else 0) + ex * 2 ^ 13 + dh * 2 ^ 8 + e)
/-- Whether a refine goes on from its tag (R131, R135). -/
def refines (hd t : Nat) : Bool := bitN t 15 == 1 && hdV hd == bitsN t 31 16 && hdE hd == bitsN t 7 0
/-- The planes a `prf` of n planes reads of a block (R131, R132, R135); one that refines a block of E 0 reads those of R131 (R110, log 79). -/
def prfWant (p : Pde) (n t hd : Nat) : List Nat :=
  let dh := bitsN t 12 8
  if refines hd t then
    let dn := min (dh + n) (hdVd hd p.d)
    (List.range (dn - dh)).map (dh + 1 + ·)
  else planesTo p (if bitN t 15 = 0 then n else min (dh + n) 24) hd
/-- The word, tag and predicate of `prf`. -/
def prfResult (p : Pde) (n w t lane : Nat) (x : Block) : Nat × Nat × Bool :=
  let dh := bitsN t 12 8
  if refines x.hd t then
    let vd := hdVd x.hd p.d
    let dn := min (dh + n) vd
    let w := (List.range (dn - dh)).foldl (fun w k => w ||| x.bit (dh + 1 + k) lane * 2 ^ (31 - (dh + 1 + k))) w
    let nd := max dh dn
    (w, t / 2 ^ 14 * 2 ^ 14 + (if vd ≤ nd then 2 ^ 13 else 0) + nd * 2 ^ 8 + t % 256, false)
  else
    let (w, t) := ldpResult p (if bitN t 15 = 0 then n else min (dh + n) 24) lane x
    (w, t, true)

/-- The trap of a planar failure (R463, R470). -/
def PlFail.trap (e : PlFail) (kind cls h b : Nat) : Trap :=
  match e with
  | .dir reason => { cause := 0x14, arg := kind + 16 * reason, addr := h % 65536 * 2 ^ 32 + b, cls := cls }
  | .port cause need a => portTrap kind cause need a cls
  | .page _ _ a => portTrap kind 0x13 0 a cls
  | .poison _ a => portTrap kind 0x10 0 a cls

/-- Handle, block and depth operands of a thread, in the order of their checks (R338, R459). -/
def planarOps (f : Full) (s : State) (r : Ref) : Except TOut (Nat × Nat × Nat) :=
  let b := s.op32 r f.a.toNat
  let h := s.b32 r f.b
  let d := if f.s then s.op32 r f.c.toNat else f.c.toNat
  if 65536 ≤ h then .error (operandTrap 2)
  else if d < 1 ∨ 24 < d then .error (operandTrap 3)
  else .ok (h, b, d)

/-- A planar read at issue: it may start, or it traps or waits (R427, R465, R471). -/
def State.planarStart (s : State) (r : Ref) (h b : Nat) (want : Pde → Nat → List Nat) (ok : TOut) : TOut :=
  match s.pdeFor r.G.ctx h b false with
  | .error e => .trap (e.trap 4 0 h b)
  | .ok p => match s.readBlock r.G.ctx (s.renOf r.G.item) p b (want p) with
    | .error (.page buf pg a) => .page 4 buf pg a
    | .error (.poison _ _) => ok
    | .error e => .trap (e.trap 4 0 h b)
    | .ok _ => ok

def planLdp (f : Full) (s : State) (r : Ref) : TOut :=
  match planarOps f s r with
  | .error o => o
  | .ok (h, b, d) => s.planarStart r h b (planesTo · d) (.done { accs := [{ kind := .ldp h b d f.d.toNat }] })
/-- An exhausted register is left as it is, without an access (R131). -/
def planPrf (f : Full) (s : State) (r : Ref) : TOut :=
  match planarOps f s r with
  | .error o => o
  | .ok (h, b, n) =>
    let t := r.T.tag f.d.toNat
    if bitN t 15 = 1 ∧ bitN t 13 = 1 then donePred f false
    else s.planarStart r h b (prfWant · n t) (.done { accs := [{ kind := .prf h b n f.d.toNat f.pd.toNat }] })

/-! ## Planar stores -/

/-- The header a planar write leaves: V rises by 1, bits 15:13 as given (R120, R133). -/
def headerWord (old top vd e : Nat) : Nat := (hdV old + 1) % 65536 * 2 ^ 16 + top % 8 * 2 ^ 13 + vd % 32 * 2 ^ 8 + e % 256
/-- The 32-bit words a planar store leaves in planes 0 to dw (R133). -/
def pstPlanes (old : Block) (ovd dw : Nat) (lanes : List (Nat × Nat)) : List Nat :=
  (List.range (dw + 1)).map fun k =>
    (List.range 32).foldl (fun x i =>
      x + 2 ^ i * (match lanes.find? (·.1 == i) with
        | some l => bitN l.2 (31 - k)
        | none => if hdE old.hd ≠ 0 ∧ k ≤ ovd then old.bit k i else 0)) 0

/-- One planar write: its cells, the addresses it writes, and whether it merged; or why it fails. -/
def State.pstCells (s : State) (ctx : Nat) (ren : List Rename) (merge : Bool) (h b d : Nat) (lanes : List (Nat × Nat)) (t : Nat) :
    Except PlFail (List (Nat × Byte) × List Addr × Bool) :=
  match s.pdeFor ctx h b true with
  | .error e => .error e
  | .ok p =>
    let dw := min d p.d
    let as := p.header b :: (List.range (dw + 1)).map (p.plane b)
    match s.plWords ctx ren .store as with
    | .error e => .error e
    | .ok ws =>
      let word (k : Nat) : Nat := leNat (s.gather (ws.getD k []))
      let old : Block := ⟨word 0, (List.range (dw + 1)).map fun k => (k, word (k + 1))⟩
      let ovd := hdVd old.hd p.d
      let merged := merge && hdV old.hd == bitsN t 31 16 && hdE old.hd == bitsN t 7 0
      let hd := headerWord old.hd (bitsN old.hd 15 13) (if merged then max ovd dw else dw) (bitsN t 7 0)
      let vals := hd :: pstPlanes old ovd dw lanes
      .ok ((ws.zip vals).flatMap fun x => x.1.zip (leBytes 4 x.2), as, merged)

/-- The planar stores of an issue group: one access per block named, in the order of the blocks' lowest lanes (R133 to R135). A thread
whose ST is full waits, and has no part in its block's write. -/
def planPst (merge : Bool) (f : Full) (s : State) (rs : List Ref) : List (Ref × TOut) :=
  let ops := rs.map fun r => (r, planarOps f s r)
  let good := ops.filterMap fun e => match e.2 with | .ok (h, b, d) => if e.1.T.st < 63 then some (e.1, h, b, d) else none | .error _ => none
  ops.map fun e =>
    let r := e.1
    match e.2 with
    | .error o => (r, o)
    | .ok (h, b, _) =>
      let L := good.filter fun x => x.2.1 == h && x.2.2.1 == b
      match L.head? with
      | none => (r, .wait .resource)
      | some (lo, _, _, d) =>
        let t := lo.T.tag f.d.toNat
        if 63 ≤ r.T.st then (r, .wait .resource)
        else if bitN t 15 = 0 then (r, useTrap 12 0)
        else if lo.t = r.t ∧ lo.g = r.g then
          let lanes := L.map fun x => (x.1.T.lane, x.1.g, x.1.t, BitVec.ofNat 32 (x.1.T.v f.d.toNat))
          (r, .done { accs := [{ kind := .pst merge h b d lanes (BitVec.ofNat 32 t) f.pd.toNat }] })
        else (r, .done { st := 1 })

/-! ## The instructions -/

def execLdp (f : Full) (s : State) : Host.Outcome State Fault Refusal := issueEach 0x0EE f (planLdp f) s
def execPrf (f : Full) (s : State) : Host.Outcome State Fault Refusal := issueEach 0x0EF f (planPrf f) s
def execPst (f : Full) (s : State) : Host.Outcome State Fault Refusal := issueTile 0x0F0 f (planPst false f) s
def execPstMerge (f : Full) (s : State) : Host.Outcome State Fault Refusal := issueTile 0x0F1 f (planPst true f) s

end Sys2Proof.Machine
end

