-- ==== Sys2Proof/Machine/Engines.lean ====
section
/-! DEFINITION. Engine jobs: their issue (R342 to R348, R352), leases (R95, R350, R351), layout records (R122 to R124),
footprints (R66, R346 to R348), the checks of admission (R480, R482), their units (R105, R107, R140 to R143, R182, R479) and
completion (R183, R479, R481). -/

namespace Sys2Proof.Machine

/-! ## Engine queues, places and sectors -/

def State.queueLen (s : State) (e : Nat) : Nat := (s.jobs.filter (·.engine == some e)).length
/-- The engine of a die whose queue holds the fewest jobs, the lowest on ties (R20). -/
def State.pickEngine (s : State) (die : Nat) : Nat :=
  (List.range 16).foldl (fun b k => if s.queueLen (16 * die + k) < s.queueLen b then 16 * die + k else b) (16 * die)
def State.enginesFull (s : State) (die : Nat) : Bool := (List.range 16).all fun k => decide (64 ≤ s.queueLen (16 * die + k))

def Place.off : Place → Nat
  | .dev a => offOf a
  | .pad _ o => o
/-- Bytes of the space a place lies in: a buffer's offsets, or a scratchpad allocation. -/
def State.space (s : State) : Place → Nat
  | .dev _ => 2 ^ 48
  | .pad g _ => match s.group? g with | some G => G.lr.alloc | none => 256
/-- Aligned 32-byte sectors that n bytes from a place touch (R344), and the sector of byte j. -/
def State.secCount (s : State) (p : Place) (n : Nat) : Nat :=
  if n = 0 then 0 else min ((p.off + n - 1) / 32 + 1 - p.off / 32) (s.space p / 32)
def State.secAt (s : State) (p : Place) (j : Nat) : Nat := (p.off + j) / 32 % (s.space p / 32)
/-- S of R139. -/
def planeS (n : Nat) : Nat := (4 * n + 31) / 32 * 32
/-- Planar lines of 8 blocks that n blocks from b touch (R136). -/
def planeLines (b n : Nat) : Nat := if n = 0 then 0 else (b + n - 1) / 8 + 1 - b / 8

/-! ## Layout records (R122, R123) -/

def Layout.ofBytes (b : List Byte) : Option Layout :=
  let x := leNat b
  let fmt := bitsN x 7 0
  let b8p := bitsN x 10 8
  let rank := bitsN x 18 16
  let dims := (List.range 4).map fun k => bitsN x (159 + 32 * k) (128 + 32 * k)
  let strides := (List.range 3).map fun k => bitsN x (319 + 64 * k) (256 + 64 * k)
  let planar := fmt == 16
  let used := decide (fmt ≤ 16 ∧ bitsN x 15 13 = 0 ∧ bitsN x 31 19 = 0 ∧ bitsN x 63 53 = 0 ∧ bitsN x 511 448 = 0 ∧ 1 ≤ rank ∧ rank ≤ 4)
  let b8 := if fmt = 14 then decide (1 ≤ b8p) else b8p == 0
  let dimsOk := (List.range 4).all fun k => if k < rank then decide (1 ≤ dims.getD k 0) else dims.getD k 0 == 0
  let strOk := (List.range 3).all fun k =>
    if planar ∨ rank ≤ k + 1 then strides.getD k 0 == 0 else decide (strides.getD k 0 < 2 ^ 48)
  let baseOk := !planar || bitsN x 127 96 == 0
  let handle := planar || bitsN x 47 32 == 0
  if used && b8 && dimsOk && strOk && baseOk && handle then
    some { fmt := fmt, b8p := b8p, b8u := bitN x 11 == 1, b8inf := bitN x 12 == 1, rank := rank, phnd := bitsN x 47 32,
           pdepth := bitsN x 52 48, base := BitVec.ofNat 64 (bitsN x 127 64), dims := dims, strides := strides }
  else none

def Layout.planar (l : Layout) : Bool := l.fmt == 16
def Layout.ty (l : Layout) : Ty := Ty.ofCode l.fmt
/-- The number format of the elements. -/
def Layout.ffmt (l : Layout) : FFmt :=
  fmtOf l.ty (l.b8p + (if l.b8u then 8 else 0)) (if l.b8inf then 8 else 0)
def Layout.dim (l : Layout) (k : Nat) : Nat := l.dims.getD k 0
def Layout.total (l : Layout) : Nat := (List.range l.rank).foldl (fun x k => x * l.dim k) 1
/-- Coordinates of element e, dimension 0 fastest. -/
def Layout.coords (l : Layout) (e : Nat) : List Nat :=
  ((List.range l.rank).foldl (fun (acc : List Nat × Nat) k => (acc.1 ++ [acc.2 % l.dim k], acc.2 / l.dim k)) ([], e)).1
/-- The place of an element in units of 4 bits from the start of its buffer. -/
def Layout.nib (l : Layout) (c : List Nat) : Nat :=
  let row := (List.range 3).foldl (fun x k => x + c.getD (k + 1) 0 * l.strides.getD k 0) (offOf l.base)
  2 * (row % 2 ^ 48) + c.getD 0 0 * (l.ty.bits / 4)
def Layout.elemBytes (l : Layout) : Nat := max 1 (l.ty.bits / 8)
def Layout.byteAddr (l : Layout) (c : List Nat) : Addr := mkAddr (bufOf l.base) (l.nib c / 2)
/-- The runs of a dense layout: one per index of the outer dimensions. -/
def Layout.rows (l : Layout) : List (Addr × Nat) :=
  (List.range (l.total / l.dim 0)).map fun r =>
    (l.byteAddr (l.coords (r * l.dim 0)), (l.dim 0 * l.ty.bits + 7) / 8)
/-- A dense layout that R123 allows; a destination's elements must not overlap. -/
def Layout.denseOk (l : Layout) (dst : Bool) : Bool :=
  let w := l.elemBytes
  let al := offOf l.base % w == 0 && (List.range 3).all fun k => l.dim (k + 1) ≤ 1 || l.strides.getD k 0 % w == 0
  let nibs := Map.sortBy (fun x y => decide (x ≤ y)) ((List.range l.total).map fun e => l.nib (l.coords e))
  !l.planar && al && (l.fmt != 15 || l.dim 0 % 2 == 0) && l.pdepth == 0
    && (!dst || (nibs.zip (nibs.drop 1)).all fun x => decide (x.1 + max 1 (l.ty.bits / 4) ≤ x.2))
/-- Bytes of a layout's range (R348). -/
def Layout.size (l : Layout) (d : Nat) : Nat := if l.planar then l.total / 32 * 4 * (d + 2) else (l.total * l.ty.bits + 7) / 8
def Layout.sameFmt (a b : Layout) : Bool := a.fmt == b.fmt && a.b8p == b.b8p && a.b8u == b.b8u && a.b8inf == b.b8inf
def Layout.isFloat (l : Layout) : Bool := [11, 12, 13].contains l.fmt

/-- The layout at an address, where the context may read it (R123). -/
def State.layoutAt (s : State) (ctx : Nat) (a : Addr) : Option Layout := (s.readDev ctx a 64).bind Layout.ofBytes
/-- The layouts of a transform, if R122 to R124 and R349 accept them: source, destination and index. -/
def State.txLayouts (s : State) (ctx code : Nat) (dst src : Addr) : Option (List Layout) :=
  match s.layoutAt ctx src, s.layoutAt ctx dst with
  | some a, some b =>
    let ok :=
      if code = 0 then a.denseOk false && a.isFloat && b.planar && decide (1 ≤ b.pdepth ∧ b.pdepth ≤ 24 ∧ b.dim 0 % 32 = 0 ∧ a.total = b.total)
      else if code = 1 then a.planar && a.pdepth == 0 && decide (a.dim 0 % 32 = 0 ∧ a.total = b.total) && b.denseOk true && b.isFloat
      else if code = 2 then
        a.denseOk false && b.denseOk true && a.sameFmt b
          && decide (a.dim 0 = b.dim 1 ∧ a.dim 1 = b.dim 0 ∧ a.dim 2 = b.dim 2 ∧ a.dim 3 = b.dim 3)
      else if code = 3 then a.denseOk false && b.denseOk true && decide (a.rank = b.rank ∧ a.dims = b.dims)
      else true
    if code = 4 then
      match s.layoutAt ctx (addOff src 64) with
      | none => none
      | some x =>
        let o := a.rank - 1
        if a.denseOk false && b.denseOk true && x.denseOk false && a.sameFmt b
            && decide (x.fmt = 2 ∧ x.rank = 1 ∧ a.rank = b.rank ∧ b.dim o = x.dim 0 ∧ a.dims.take o = b.dims.take o) then some [a, b, x]
        else none
    else if ok then some [a, b] else none
  | _, _ => none

/-- The bytes of a dense destination by sector: its number and how many of its bytes the elements cover. -/
def Layout.bytesOf (l : Layout) (e : Nat) : List Nat :=
  let b := l.nib (l.coords e) / 2
  (List.range l.elemBytes).map (b + ·)
def Layout.allBytes (l : Layout) : List Nat := ((List.range l.total).flatMap l.bytesOf).eraseDups
/-- Sectors the elements of a destination touch (R344). -/
def Layout.sectors (l : Layout) : Nat :=
  if l.planar then planeLines (l.base.toNat % 2 ^ 32) (l.total / 32) * (l.pdepth + 2)
  else ((l.allBytes.map (· / 32)).eraseDups).length

/-! ## Footprints (R66, R198, R346 to R348) -/

def fpOf (mode : Nat) (a : Addr) (n : Nat) : List Fp :=
  if n = 0 then [] else [⟨bufOf a, offOf a / 4096 % 2 ^ 32, (offOf a + n - 1) / 4096 + 1 - offOf a / 4096, mode⟩]
/-- The planes a read of n blocks at depth d uses, as their headers stand: header and plane runs (R121). A block whose header page has no
translation adds its header alone (log 77). -/
def State.planeReads (s : State) (ctx : Nat) (p : Pde) (blk n d : Nat) : List (Addr × Nat) :=
  (p.header blk, 4 * n) :: (List.range n).flatMap fun i =>
    match s.readDevNat ctx (p.header (blk + i)) 4 with
    | some hd => (planesTo p d hd).map fun k => (p.plane (blk + i) k, 4)
    | none => []
def planeWrites (p : Pde) (blk n d : Nat) : List (Addr × Nat) :=
  (p.header blk, 4 * n) :: (List.range (d + 1)).map fun k => (p.plane blk k, 4 * n)
/-- Operands of a card in use with their modes: 0 READ, 1 WRITE, 2 READWRITE (R106, R107). -/
def JobKind.nmcOps : JobKind → List (Addr × Nat)
  | .nmc op _ _ x y g _ _ _ =>
    if op = 1 then [(x, 0), (y, 2)] else if op = 2 then [(x, 2)] else if op = 3 then [(x, 1)] else if op = 4 then [(x, 2), (g, 0)] else []
  | _ => []
/-- What a job reads and writes in memory: address, bytes, mode (0 READ, 1 WRITE, 2 READWRITE). -/
def State.kindRanges (s : State) (ctx : Nat) (k : JobKind) (ls : List Layout) : List (Addr × Nat × Nat) :=
  let md (m : Nat) (l : List (Addr × Nat)) : List (Addr × Nat × Nat) := l.map fun e => (e.1, e.2, m)
  let pl (h : Nat) (act : Pde → List (Addr × Nat)) : List (Addr × Nat) := match s.pde ctx h with | .ok p => act p | .error _ => []
  match k with
  | .copy d a n =>
    (match a with | .dev a => [(a, n, 0)] | _ => []) ++ (match d with | .dev d => [(d, n, 1)] | _ => [])
  | .copyLs _ a n => [(a, n, 0)]
  | .pcopyIn _ h blk n _ m => md 0 (pl h fun p => s.planeReads ctx p blk n m)
  | .pcopyLs _ h blk n _ m => md 0 (pl h fun p => s.planeReads ctx p blk n m)
  | .pcopyOut _ h blk n m => md 1 (pl h fun p => planeWrites p blk n (min m p.d))
  | .txfm code _ _ =>
    match ls with
    | a :: b :: r =>
      let blk (l : Layout) : Nat := l.base.toNat % 2 ^ 32
      (if code = 1 then md 0 (pl a.phnd fun p => s.planeReads ctx p (blk a) (a.total / 32) 24) else md 0 a.rows)
        ++ md 0 (r.flatMap Layout.rows)
        ++ (if code = 0 then md 1 (pl b.phnd fun p => planeWrites p (blk b) (b.total / 32) b.pdepth) else md 1 b.rows)
    | _ => []
  | .nmc _ _ n _ _ _ _ _ _ => k.nmcOps.map fun e => (e.1, 4 * n, e.2)
/-- The layouts of a transform; of another kind, none are needed. -/
def State.kindLayouts (s : State) (ctx : Nat) : JobKind → Option (List Layout)
  | .txfm code d a => s.txLayouts ctx code d a
  | _ => some []
/-- The ranges as the layouts stand now. -/
def State.rangesOf (s : State) (ctx : Nat) (k : JobKind) : List (Addr × Nat × Nat) := s.kindRanges ctx k ((s.kindLayouts ctx k).getD [])
/-- The footprint of a job. -/
def State.jobFp (s : State) (j : Job) : List Fp := (s.rangesOf j.ctx j.kind).flatMap fun e => fpOf e.2.2 e.1 e.2.1
def State.inRemote (s : State) (ctx : Nat) (a : Addr) : Bool :=
  match s.ctx? ctx with | some c => (s.buf c (bufOf a)).valid && (s.buf c (bufOf a)).remote | none => false
/-- The leave a transform needs (R76, R348): level 1 where its source or destination exceeds 1 MiB. -/
def State.txLevel (s : State) (ctx : Nat) (ls : List Layout) : Nat :=
  let size (l : Layout) (dst : Bool) : Nat := l.size (if dst then l.pdepth else match s.pde ctx l.phnd with | .ok p => p.d | .error _ => 24)
  match ls with
  | a :: b :: _ => if 2 ^ 20 < max (size a false) (size b true) then 1 else 0
  | _ => 0

/-! ## The issue of a job (R343) -/

/-- What an instruction asks of the engines. -/
structure JobReq where
  kind : JobKind
  cin : Nat := 0
  cout : Nat := 0
  /-- the leave it needs (R76) -/
  level : Nat := 0
  /-- the deepest plane of a plane copy to bind (R102) -/
  planes : Option Nat := none
  /-- a failed alignment (R453 stage 6) -/
  align : Option TOut := none

def Group.stampLsn (G : Group) : Option Nat :=
  if bitN G.lr.flags 0 = 1 ∨ bitN G.lr.flags 3 = 1 then some G.lsn else none

/-- The lease a job names, by its own number (R95). -/
def Group.leaseOf (G : Group) (now : Nat) (k : JobKind) : Nat :=
  let id (n : Nat) : Nat := match Map.get? G.leases n with | some l => if l.live now then l.id else 0 | none => 0
  match k with
  | .copyLs n _ _ => id n
  | .pcopyLs n _ _ _ _ _ => id n
  | _ => 0
/-- The reads, then the writes, of a job noted in its group's trace; a read of a peer's memory is volatility cause 5 (R198, R199). -/
def State.noteRanges (s : State) (g ctx : Nat) (l : List (Addr × Nat × Nat)) : State :=
  let s := (l.filter (·.2.2 != 1)).foldl (fun (s : State) e => s.traceNote g false e.1 e.2.1) s
  let s := (l.filter (·.2.2 != 0)).foldl (fun (s : State) e => s.traceNote g true e.1 e.2.1) s
  if l.any fun e => e.2.2 != 1 && e.2.1 != 0 && s.inRemote ctx e.1 then s.modG g (·.vol 5) else s
/-- A job enters its queue: tag or barrier counted, a plane copy bound, the trace noted (R343, R198). -/
def State.enterJob (s : State) (r : Ref) (q : JobReq) (scope : Nat) (bind : Bind) (engine : Option Nat) : State :=
  let (id, s) := s.fresh
  let j : Job := { id := id, ctx := r.G.ctx, grp := r.g, tid := r.t, item := r.G.item, core := r.G.core, stamp := r.G.stampLsn,
                   kind := q.kind, scope := scope, bind := bind, engine := engine,
                   charge := if q.level = 0 then 0 else s.leaveId r.g, lease := r.G.leaseOf s.clock q.kind,
                   owedIn := q.cin, owedOut := q.cout }
  let s := { s with jobs := s.jobs ++ [j] }
  let s := match bind with
    | .tag n => s.modG r.g (·.tagIssue n)
    | .bar g o =>
      let b := s.bar g o
      let b := { b with txin := b.txin + q.cin, txout := b.txout + q.cout }
      s.setBar g o (match q.planes with | some m => { b with pmode := 1, plhi := m, plwm := 31 } | none => b).test
  s.noteRanges r.g r.G.ctx (s.rangesOf r.G.ctx q.kind)

/-- Whether a tag takes no more jobs (R100). -/
def State.tagFull (s : State) (g n : Nat) : Bool :=
  match s.group? g with | some G => decide (255 ≤ Map.getD G.tagCnt 0 n) | none => false

/-- The issue of one thread's job (R342, R343), its checks in the order of R453. -/
def startJob (req : Full → State → Ref → Except TOut JobReq) (f : Full) (s : State) (r : Ref) : State × TOut :=
  match req f s r with
  | .error o => (s, o)
  | .ok q =>
    let n := f.c.toNat
    let o := s.op32 r n
    if ¬ f.s ∧ ¬ r.G.inTags n then (s, useTrap 6 0)
    else match q.align with
    | some t => (s, t)
    | none =>
      if f.s ∧ o % 16 ≠ 0 then (s, alignTrap 4 o)
      else
        let (g, x) := s.place r (f.ext.getLsbD 0) o
        let b := s.bar g x
        if f.s ∧ (b.exp = 0 ∨ 2 ^ 24 ≤ b.txin + q.cin ∨ 2 ^ 24 ≤ b.txout + q.cout) then (s, operandTrap 4)
        else withLeave q.level s r fun s =>
          if 63 ≤ r.T.cp ∨ ¬ s.drained r.g r.t ∨ s.tableFull ∨ (¬ f.s ∧ s.tagFull r.g n) then (s, .wait .resource)
          else if s.enginesFull (dieOf r.G.core) then
            if f.pd = 7 then (s, .wait .resource) else (s, donePred f false)
          else
            (s.enterJob r q f.mod.toNat (if f.s then .bar g x else .tag n) (some (s.pickEngine (dieOf r.G.core))),
              .done { cp := 1, preds := [(f.pd.toNat, true)] })

/-! ## Copies (R346) -/

def devA (s : State) (r : Ref) (n : BitVec 8) : Addr := BitVec.ofNat 64 (s.op64 r n.toNat)
def padLen (r : Ref) (n : Nat) : Bool := decide (n ≤ r.G.lr.alloc)
def reqCopy (f : Full) (s : State) (r : Ref) : Except TOut JobReq :=
  let n := s.b32 r f.b
  let (d, a) := (devA s r f.d, devA s r f.a)
  .ok { kind := .copy (.dev d) (.dev a) n, cin := s.secCount (.dev d) n }
def reqCopyIn (f : Full) (s : State) (r : Ref) : Except TOut JobReq :=
  let n := s.b32 r f.b
  let (d, a) := (Place.pad r.g (s.op32 r f.d.toNat), devA s r f.a)
  if padLen r n then .ok { kind := .copy d (.dev a) n, cin := s.secCount d n } else .error (operandTrap 2)
def reqCopyOut (f : Full) (s : State) (r : Ref) : Except TOut JobReq :=
  let n := s.b32 r f.b
  let (d, a) := (devA s r f.d, Place.pad r.g (s.op32 r f.a.toNat))
  if padLen r n then .ok { kind := .copy (.dev d) a n, cout := s.secCount a n } else .error (operandTrap 2)
def reqCopySs (f : Full) (s : State) (r : Ref) : Except TOut JobReq :=
  let n := s.b32 r f.b
  let d := s.place r true (s.op32 r f.d.toNat)
  let a := s.place r true (s.op32 r f.a.toNat)
  let (d, a) := (Place.pad d.1 d.2, Place.pad a.1 a.2)
  if padLen r n then .ok { kind := .copy d a n, cin := s.secCount d n, cout := s.secCount a n } else .error (operandTrap 2)
def reqCopyLs (f : Full) (s : State) (r : Ref) : Except TOut JobReq :=
  let n := s.b32 r f.b
  let a := devA s r f.a
  .ok { kind := .copyLs f.d.toNat a n, cin := s.secCount (.dev a) n }

/-! ## Plane copies (R347) -/

/-- First block and count, and handle, k and m, within their limits. -/
def pcopyOps (f : Full) (s : State) (r : Ref) (out : Bool) : Except TOut (Nat × Nat × Nat × Nat × Nat) :=
  let x := s.op64 r f.a.toNat
  let (blk, n) := (x % 2 ^ 32, x / 2 ^ 32)
  let y := s.b32 r f.b
  let (h, k, m) := (bitsN y 15 0, bitsN y 20 16, bitsN y 25 21)
  if n < 1 ∨ 2 ^ 24 ≤ n then .error (operandTrap 1)
  else if bitsN y 31 26 ≠ 0 ∨ k < 1 ∨ m < k ∨ 24 < m ∨ (out ∧ k ≠ 1) then .error (operandTrap 2)
  else .ok (blk, n, h, k, m)
/-- A plane copy above 1 MiB needs leave (R347). -/
def pcopyLevel (units : Nat) : Nat := if 32768 < units then 1 else 0
/-- The image of a plane copy: within the allocation, 32-byte aligned (R139, R347). -/
def pcopyImage (f : Full) (s : State) (r : Ref) (out : Bool) : Except TOut JobReq :=
  match pcopyOps f s r out with
  | .error o => .error o
  | .ok (blk, n, h, k, m) =>
    let off := s.op32 r f.d.toNat
    let S := planeS n
    if r.G.lr.alloc < (m + 2) * S then .error (.trap { cause := 0x03, arg := 0, addr := off })
    else
      let cin := if out then 0 else (m - k + 3) * S / 32
      let cout := if out then (m + 2) * S / 32 else 0
      .ok { kind := if out then .pcopyOut off h blk n m else .pcopyIn off h blk n k m, cin := cin, cout := cout,
            level := pcopyLevel (cin + cout), planes := some m, align := if off % 32 = 0 then none else some (alignTrap 5 off) }
def reqPcopyIn (f : Full) (s : State) (r : Ref) : Except TOut JobReq := pcopyImage f s r false
def reqPcopyOut (f : Full) (s : State) (r : Ref) : Except TOut JobReq := pcopyImage f s r true
def reqPcopyLs (f : Full) (s : State) (r : Ref) : Except TOut JobReq :=
  match pcopyOps f s r false with
  | .error o => .error o
  | .ok (blk, n, h, k, m) =>
    let cin := (m + 2) * planeLines blk n
    .ok { kind := .pcopyLs f.d.toNat h blk n k m, cin := cin, level := pcopyLevel cin, planes := some m }

/-! ## Transforms (R348) -/

/-- At issue the layouts give the counts and the leave, as far as they can be read; what cannot is settled at admission (log 20). -/
def reqTxfm (f : Full) (s : State) (r : Ref) : Except TOut JobReq :=
  let code := s.b32 r f.b
  let (d, a) := (devA s r f.d, devA s r f.a)
  if 4 < code then .error (operandTrap 2)
  else
    let al := if d.toNat % 64 ≠ 0 then some (alignTrap 6 d.toNat) else if a.toNat % 64 ≠ 0 then some (alignTrap 6 a.toNat) else none
    let q : JobReq := { kind := .txfm code d a, align := al }
    match s.txLayouts r.G.ctx code d a with
    | some (x :: y :: l) => .ok { q with cin := y.sectors, level := s.txLevel r.G.ctx (x :: y :: l) }
    | _ => .ok q

/-! ## Leases (R95, R350, R351) -/

def actLease (f : Full) (s : State) (r : Ref) : State × TOut :=
  let budget := s.op32 r f.a.toNat
  let life := s.b32 r f.b
  if budget < 1 ∨ 393216 < budget then (s, operandTrap 1)
  else if life < 1 then (s, operandTrap 2)
  else
    let L : Sparse Lease := match s.group? r.g with | some G => G.leases | none => []
    match (List.range 4).find? fun n => !((Map.get? L n).any (·.live s.clock)) with
    | none => (s, donePred f false)
    | some n =>
      let (id, s) := s.fresh
      (s.modG r.g fun G => { G with leases := Map.set G.leases n { id := id, budget := budget, expiry := s.clock + life } },
        .done { regs := wr1 f.d.toNat n, preds := [(f.pd.toNat, true)] })
/-- A lease number of the group. -/
def leaseNo (f : Full) (s : State) (r : Ref) : Except TOut Nat :=
  let n := s.op32 r f.a.toNat
  if 3 < n then .error (operandTrap 1) else .ok n
def actLeaseQ (f : Full) (s : State) (r : Ref) : State × TOut :=
  match leaseNo f s r with
  | .error o => (s, o)
  | .ok n =>
    match ((s.group? r.g).bind fun G => Map.get? G.leases n).filter (·.live s.clock) with
    | none => (s, .done { regs := wr2 f.d.toNat 0, preds := [(f.pd.toNat, false)] })
    | some l => (s, .done { regs := wr2 f.d.toNat (min l.short (2 ^ 32 - 1) + 2 ^ 32 * l.lines.length), preds := [(f.pd.toNat, true)] })
def actUnlease (f : Full) (s : State) (r : Ref) : State × TOut :=
  match leaseNo f s r with
  | .error o => (s, o)
  | .ok n => (s.modG r.g fun G => { G with leases := Map.erase G.leases n }, .done {})

/-- A line lands in the lease a copy was issued under: pinned where budget, quota and the 12 ways of its set allow, else one more in the
short count (R95). A lease that has ended takes none. Lines that two leases of a context pin count in each (log 78). -/
def State.landLine (s : State) (g id line : Nat) : State :=
  match (s.group? g).bind fun G => (G.leases.find? fun e => e.2.id == id && e.2.live s.clock).map fun e => (G, e.1, e.2) with
  | none => s
  | some (G, n, l) =>
    if l.lines.contains line then s
    else
      let all := s.pins (dieOf G.core)
      let mine : Nat := ((all.filter (·.1 == G.ctx)).map fun (x : Nat × List Nat) => x.2.length).foldl (· + ·) 0
      let set_ (x : Nat) : Nat := Config.l2Set x % 32768
      let inSet : Nat := (((all.flatMap (·.2)).eraseDups).filter fun x => set_ x == set_ line && x != line).length
      let quota : Nat := match s.ctx? G.ctx with | some c => c.lquota * 8192 | none => 0
      let l' := if l.lines.length < l.budget ∧ mine < quota ∧ inSet < 12 then { l with lines := line :: l.lines }
        else { l with short := l.short + 1 }
      s.modG g fun G => { G with leases := Map.set G.leases n l' }

/-! ## Near-memory commands (R106, R352) -/

def nmcOf (x : Nat) : JobKind :=
  .nmc (bitsN x 7 0) (bitsN x 15 8) (bitsN x 63 32) (BitVec.ofNat 64 (bitsN x 127 64)) (BitVec.ofNat 64 (bitsN x 191 128))
    (BitVec.ofNat 64 (bitsN x 255 192)) (bitsN x 287 256) (bitsN x 319 288)
    (decide (bitsN x 31 16 = 0 ∧ bitsN x 511 352 = 0 ∧ bitsN x 15 9 = 0))
/-! ## Images read before an instruction acts (R352, R368, R370) -/

/-- The next part of an image is asked for: an access in whose program order every thread of the issue waits, in LD of each. -/
def State.askImage (s : State) (lo : Ref) (rs : List Ref) (tw : Option Nat) (a : Addr) (pad : Option Nat) (parts : List (Nat × Nat)) : State × TOut :=
  if rs.any fun r => decide (63 ≤ r.T.ld) then (s, .wait .resource)
  else
    let order := s.next
    let x : Access := { id := order, order := order, grp := lo.g, tid := lo.t, lane := lo.T.lane, parts := parts,
                        kind := .image a pad (rs.map fun r => (r.g, r.t)) }
    let s := { s with accesses := s.accesses ++ [x], next := order + 1 }
    let s := s.modT lo.g lo.t fun T => { T with image := some (T.image.getD (tw, [])) }
    (rs.foldl (fun (s : State) r => s.modT r.g r.t fun T => { T with ld := T.ld + 1 }) s, .wait (.image order))
/-- The events of n bytes in whole pieces. -/
def pieces (from_ n size : Nat) : List (Nat × Nat) := (List.range (n / size)).map fun k => (from_ + size * k, size)

/-- `nmc`: leave, then the card as one load of four events; that image is what is issued (R352). -/
def actNmc (f : Full) (s : State) (r : Ref) : State × TOut :=
  let a := s.ea r f
  if a.toNat % 64 ≠ 0 then (s, alignTrap 6 a.toNat)
  else withLeave 3 s r fun s =>
    if 63 ≤ r.T.cp ∨ ¬ s.drained r.g r.t ∨ s.tableFull then (s, .wait .resource)
    else match r.T.image with
    | none => (match s.port_ r.G.ctx (s.renOf r.G.item) .load a 64 with
      | .refused cause need => (s, .trap (portTrap 0 cause need a 0))
      | .page buf pg => (s, .page 0 buf pg a)
      | .remote _ _ => (s, .trap (portTrap 0 0x12 0 a 0))
      | .ok _ => s.askImage r [r] none a none (pieces 0 64 16))
    | some (_, bs) =>
      let x := leNat bs
      let tag := bitsN x 325 320
      let o := bitsN x 351 320
      let q : JobReq := { kind := nmcOf x, cin := bitN x 8, level := 3 }
      let done : TOut := .done { cp := 1 }
      if bitN x 8 = 0 then
        if ¬ r.G.inTags tag then (s, useTrap 6 0)
        else if s.tagFull r.g tag then (s, .wait .resource)
        else (s.enterJob r q f.mod.toNat (.tag tag) none, done)
      else if o % 16 ≠ 0 then (s, alignTrap 4 o)
      else (s.enterJob r q f.mod.toNat (.bar r.g o) none, done)

/-! ## The checks of admission (R480, R482) -/

/-- The first byte of a range that the port refuses, with the cause (R86). -/
def State.rangeCheck (s : State) (ctx : Nat) (k : PKind) (a : Addr) (n : Nat) : Option (Nat × Nat) :=
  match s.ctx? ctx with
  | none => some (0x10, a.toNat)
  | some c =>
    let e := s.buf c (bufOf a)
    match portCheck e ctx k (offOf a) n with
    | none => none
    | some (cause, _) =>
      some (cause, if cause = 0x10 ∧ e.valid ∧ offOf a < e.size then (mkAddr (bufOf a) e.size).toNat else a.toNat)
/-- The plane directory's answer to n blocks from b. -/
def State.pdeRange (s : State) (ctx h blk n : Nat) (write : Bool) : Bool :=
  n == 0 || (match s.pdeFor ctx h blk write, s.pdeFor ctx h (blk + n - 1) write with | .ok _, .ok _ => true | _, _ => false)
/-- A refused range: underlying cause and address. -/
def State.refusedRange (s : State) (ctx : Nat) (l : List (Addr × Nat × Nat)) : Option (Nat × Nat) :=
  (l.filter fun e => e.2.1 != 0).findSome? fun e =>
    if e.2.2 = 0 then s.rangeCheck ctx .load e.1 e.2.1
    else match s.rangeCheck ctx .store e.1 e.2.1 with
      | some x => some x
      | none => if e.2.2 = 2 then s.rangeCheck ctx .load e.1 e.2.1 else none
/-- The pages a job sees elsewhere than the page table: its own old ones, then its item's (R68). -/
def State.renJob (s : State) (j : Job) : List Rename := j.renames ++ s.renOf j.item
/-- Physical address of a byte as a job sees it, where it has one. -/
def State.physOf (s : State) (j : Job) (a : Addr) : Option Nat :=
  match s.ctx? j.ctx with | some c => s.physByte (s.buf c (bufOf a)) (s.renJob j) (bufOf a) (offOf a) | none => none
/-- The first elements of a card's 256-byte units, by X (R107). -/
def State.nmcStarts (s : State) (j : Job) : List Nat :=
  match j.kind with
  | .nmc _ _ n x _ _ _ _ _ =>
    let p := match s.physOf j x with | some p => p % 256 | none => offOf x % 256
    (List.range n).filter fun i => i == 0 || (p + 4 * i) % 256 == 0
  | _ => []
/-- Whether a card keeps R106; the placement of the pages governs the congruence (R89). An operand whose page has no translation is left
out of that test (log 77). -/
def State.nmcLegal (s : State) (j : Job) : Bool :=
  match j.kind with
  | .nmc op _ _ _ _ _ _ _ legal =>
    let ops := j.kind.nmcOps
    let ent (a : Addr) : Nat × Nat := match s.ctx? j.ctx with | some c => ((s.buf c (bufOf a)).stripe, (s.buf c (bufOf a)).chmask) | none => (0, 0)
    let first := (ops.headD (0, 0)).1
    let same := ops.all fun e => ent e.1 == ent first
    let cong := (s.nmcStarts j).all fun i =>
      match s.physOf j (addOff first (4 * i : Nat)) with
      | none => true
      | some p =>
        let span := 2 ^ ((s.placement p).1 + 8) * (channels (s.placement p).2).length
        ops.all fun e => match s.physOf j (addOff e.1 (4 * i : Nat)) with
          | some q => s.placement p == s.placement q && p % span == q % span
          | none => true
    legal && decide (1 ≤ op ∧ op ≤ 4) && (ops.all fun e => offOf e.1 % 4 == 0) && same && cong
  | _ => true

/-- Why a job is refused at admission: reason, underlying cause, address; the lowest reason (R480, R482). -/
def State.jobRefused (s : State) (j : Job) (ls : Option (List Layout)) : Option (Nat × Nat × Nat) :=
  let ranges := s.kindRanges j.ctx j.kind (ls.getD [])
  let port := (s.refusedRange j.ctx ranges).map fun e => (1, e.1, e.2)
  let remote := (ranges.find? fun e => e.2.1 != 0 && s.inRemote j.ctx e.1).map fun e => (4, 0, e.1.toNat)
  let plane (ok : Bool) : Option (Nat × Nat × Nat) := if ok then none else some (3, 0x14, 0)
  match j.kind with
  | .copy .. => port
  | .copyLs .. => port.orElse fun _ => remote
  | .pcopyIn _ h blk n _ _ => port.orElse fun _ => plane (s.pdeRange j.ctx h blk n false)
  | .pcopyLs _ h blk n _ _ => port.orElse fun _ => plane (s.pdeRange j.ctx h blk n false)
  | .pcopyOut _ h blk n _ => port.orElse fun _ => plane (s.pdeRange j.ctx h blk n true)
  | .txfm code _ _ =>
    match ls with
    | some (a :: b :: _) =>
      let blk (l : Layout) : Nat := l.base.toNat % 2 ^ 32
      let dir := if code = 0 then (match s.pde j.ctx b.phnd with
          | .ok p => s.pdeRange j.ctx b.phnd (blk b) (b.total / 32) true && decide (b.pdepth ≤ p.d)
          | .error _ => false)
        else if code = 1 then s.pdeRange j.ctx a.phnd (blk a) (a.total / 32) false else true
      let deep := code == 0 && (match s.pde j.ctx b.phnd with | .ok p => decide (p.d < b.pdepth) | .error _ => false)
      port.orElse fun _ => if deep then some (5, 0, 0) else (plane dir).orElse fun _ => remote
    | _ => some (5, 0, 0)
  | .nmc .. =>
    if ¬ s.nmcLegal j then some (1, 0, 0)
    else (port.map fun e => (2, e.2.1, e.2.2)).orElse fun _ => (ranges.find? fun e => e.2.1 != 0 && s.inRemote j.ctx e.1).map fun e => (2, 0x12, e.1.toNat)

/-- The events of a write of n bytes at o in aligned units of w bytes (R182, R380): whole units, and the single bytes of partial ones. -/
def cutsOf (w o n : Nat) : List (Nat × Nat) :=
  (List.range n).filterMap fun i =>
    let first := (o + i) / w * w
    if o ≤ first ∧ first + w ≤ o + n then (if (o + i) % w = 0 then some (i, w) else none) else some (i, 1)
/-- The operand a card writes. -/
def JobKind.nmcDst : JobKind → Addr
  | .nmc op _ _ x y _ _ _ _ => if op = 1 then y else x
  | _ => 0
/-- The events of a card: byte and length within its operands. -/
def State.nmcCuts (s : State) (j : Job) : List (Nat × Nat) :=
  match j.kind with
  | .nmc _ _ n _ _ _ _ _ _ => cutsOf 32 ((s.physOf j j.kind.nmcDst).getD (offOf j.kind.nmcDst)) (4 * n)
  | _ => []
/-- Sector keys of a dense destination: twice a sector's first byte, plus 1, for a whole sector; twice a byte for one of a
partial sector (R182). -/
def Layout.units (l : Layout) : List Nat :=
  let bs := l.allBytes
  let secs := (bs.map (· / 32)).eraseDups
  secs.flatMap fun x =>
    let own := bs.filter (· / 32 == x)
    if own.length = 32 then [64 * x + 1] else own.map (2 * ·)
/-- The units of an admitted job, by number. -/
def State.jobUnits (s : State) (j : Job) (ls : List Layout) : List Nat :=
  match j.kind with
  | .copy d _ n => (List.range n).filter fun i =>
      let o := d.off
      let sec := (o + i) / 32 * 32
      if o ≤ sec ∧ sec + 32 ≤ o + n then o + i == sec else true
  | .copyLs _ a n => List.range (s.secCount (.dev a) n)
  | .pcopyIn _ _ _ n k m => List.range ((m - k + 3) * planeS n / 32)
  | .pcopyOut _ _ _ n _ => List.range n
  | .pcopyLs _ _ blk n _ m => List.range ((m + 2) * planeLines blk n)
  | .txfm code _ _ => match ls with
    | _ :: b :: _ => if code = 0 then List.range (b.total / 32) else b.units
    | _ => []
  | .nmc .. => (s.nmcCuts j).map (·.1)

/-! ## The units of a job (R479) -/

/-- How one unit's event ends. -/
inductive UnitRes
  | ok (s : State)
  /-- unwritten: reason, underlying cause, address -/
  | fail (reason under addr : Nat)
  /-- what passes is written, the rest is not -/
  | partly (s : State)
  /-- met poison: the kills are made (R476) -/
  | poisoned (s : State)
  | page (buf pg : Nat) (a : Addr)
  /-- an earlier region, or the peer's answer, comes first -/
  | blocked
  /-- the first write of its page to stall for want of room (R472) -/
  | stalled (s : State)
  /-- one of the answers it waits for has come, with these bytes (R244) -/
  | more (bs : List Byte)

/-- Bytes a unit reads on this device. -/
def State.unitRead (s : State) (j : Job) (p : Place) (i n : Nat) : Except UnitRes (List Byte) :=
  match p with
  | .pad g o => .ok (s.padBytes g (o + i) n)
  | .dev a =>
    let a := addOff a (i : Nat)
    match s.port_ j.ctx (s.renJob j) .load a n with
    | .refused cause _ => .error (.fail 1 cause a.toNat)
    | .page buf pg => .error (.page buf pg a)
    | .remote _ _ => .error .blocked
    | .ok ps => match s.poisonedIn false ps with
      | some x => .error (.poisoned (s.poisonKill j.ctx a x))
      | none => .ok (s.gather ps)
def Job.writer (j : Job) : Writer :=
  { ctx := j.ctx, stamp := j.stamp, grp := j.grp, tid := j.tid, job := j.id, quiet := match j.kind with | .nmc .. => true | _ => false }
/-- A write of a job to bytes of this device, its stamps, or what it meets (R194, R472, R476, R514). -/
def State.jobWrite (s : State) (j : Job) (a : Addr) (ps : List Nat) (bs : List Byte) : UnitRes :=
  if s.stalledAt ps then .blocked
  else match s.poisonedIn true ps, s.stampMiss j.ctx j.stamp j.dead a bs.length with
    | some x, _ => .poisoned (s.poisonKill j.ctx a x)
    | none, some (buf, pg) => .page buf pg a
    | none, none => let r := s.devRoom ps; if r.2 then .ok (r.1.writeDev j.writer a (ps.zip bs)) else .stalled r.1
/-- What follows a scratchpad write of a job is ordered behind it. -/
def State.unitWrite (s : State) (j : Job) (p : Place) (i : Nat) (bs : List Byte) : UnitRes :=
  match p with
  | .pad g o => .ok ((s.padWrite g (o + i) bs).tell g)
  | .dev a =>
    let a := addOff a (i : Nat)
    match s.port_ j.ctx (s.renJob j) .store a bs.length with
    | .refused cause _ => .fail 1 cause a.toNat
    | .page buf pg => .page buf pg a
    | .remote _ _ => .blocked
    | .ok ps => s.jobWrite j a ps bs

/-- A planar failure as a unit's. -/
def PlFail.unit (e : PlFail) (s : State) (j : Job) : UnitRes :=
  match e with
  | .dir _ => .fail 3 0x14 0
  | .port c _ a => .fail 1 c a.toNat
  | .page buf pg a => .page buf pg a
  | .poison x a => .poisoned (s.poisonKill j.ctx a x)
/-- Block b of a handle read in one snapshot, once for the job (R129): the words 32 i + k of its image. -/
def State.snapBlock (s : State) (j : Job) (h b d i : Nat) : Except UnitRes (State × Job) :=
  if Map.getD j.image 0 (32 * i + 31) = 1 then .ok (s, j)
  else match s.pdeFor j.ctx h b false with
    | .error e => .error (e.unit s j)
    | .ok p => match s.readBlock j.ctx (s.renJob j) p b (planesTo p d) with
      | .error e => .error (e.unit s j)
      | .ok (x, as) =>
        let im := Map.put 0 (Map.put 0 j.image (32 * i + 31) 1) (32 * i) (BitVec.ofNat 32 x.hd)
        let im := x.planes.foldl (fun im e => Map.put 0 im (32 * i + 1 + e.1) (BitVec.ofNat 32 e.2)) im
        let j := { j with image := im }
        let s := s.modJob j.id fun _ => j
        let s := s.planeFill false j.ctx j.core h b (as.length - 2)
        .ok (as.foldl (fun s a => s.traceNote j.grp false a 4) s, j)
def Job.word (j : Job) (i k : Nat) : Nat := (Map.getD j.image 0 (32 * i + k)).toNat
/-- The fault a job reports: the lowest reason, the first of it (R480); reason 0 adds none. -/
def Job.noteFault (j : Job) (reason under addr : Nat) : Job :=
  if reason = 0 then j
  else match j.fault with
    | some f => if reason < f.1 then { j with fault := some (reason, under, addr) } else j
    | none => { j with fault := some (reason, under, addr) }
/-- Whether a block failed (R479): its words stay as they are. -/
def Job.bad (j : Job) (i : Nat) : Bool := Map.getD j.image 0 (32 * i + 31) == 2

/-- The regions of an inbound plane copy, and the group a unit lands in: headers and signs first (R140). -/
def pinRegion (n u : Nat) : Nat × Nat := let q := planeS n / 32; (u / q, u % q)
def regionRank (r : Nat) : Nat := r - 1

/-- One sector of an inbound plane copy; a region's words past the last block stay as they are (log 80). -/
def State.landPin (s : State) (j : Job) (off h blk n k m u : Nat) : UnitRes :=
  let (ri, q) := pinRegion n u
  if j.units.any fun v => regionRank (pinRegion n v).1 < regionRank ri then .blocked
  else
    let blocks := (List.range 8).filterMap fun i => if 8 * q + i < n then some (8 * q + i) else none
    let step (acc : Except UnitRes (State × Job)) (i : Nat) : Except UnitRes (State × Job) :=
      match acc with
      | .error e => .error e
      | .ok (s, j) => if j.bad i then .ok (s, j) else
        match s.snapBlock j h (blk + i) m i with
        | .ok x => .ok x
        | .error (.page buf pg a) =>
          let pte := match s.ctx? j.ctx with | some c => (s.buf c buf).base + 8 * pg | none => 0
          if j.dead.contains pte then
            let j := ({ j with image := Map.set j.image (32 * i + 31) 2 } : Job).noteFault 2 0x13 a.toNat
            .ok (s.modJob j.id fun _ => j, j)
          else .error (.page buf pg a)
        | .error (.fail x c a) =>
          let j := ({ j with image := Map.set j.image (32 * i + 31) 2 } : Job).noteFault x c a
          .ok (s.modJob j.id fun _ => j, j)
        | .error (.poisoned s) =>
          let j := { j with image := Map.set j.image (32 * i + 31) 2 }
          .ok (s.modJob j.id fun _ => j, j)
        | .error e => .error e
    match blocks.foldl step (.ok (s, j)) with
    | .error e => e
    | .ok (s, j) =>
      -- image regions: header 0, sign 1, plane p at p + 1
      let reg := if ri < 2 then ri else k + ri - 1
      let s := blocks.foldl (fun (s : State) i =>
        if j.bad i then s
        else s.padWrite j.grp (off + reg * planeS n + 4 * i) (leBytes 4 (j.word i reg))) (s.tell j.grp)
      if blocks.any j.bad then .partly s else .ok s

/-- A planar write by a job, unless its page stalls or a stamp word waits for its page: one event, its stamps, its trace, and the lines
it leaves held (R120, R121, R137, R472, R514). -/
def State.planarPut (s : State) (j : Job) (h b : Nat) (as : List Addr) (cells : List (Nat × Byte)) : UnitRes :=
  let ps := cells.map (·.1)
  if s.stalledAt ps then .blocked
  else match as.findSome? fun a => (s.stampMiss j.ctx j.stamp j.dead a 4).map fun x => (x.1, x.2, a) with
  | some (buf, pg, a) => .page buf pg a
  | none =>
    let r := s.devRoom ps
    if ¬ r.2 then .stalled r.1
    else
      let s := r.1.writeEvent j.writer cells
      let s := as.foldl (fun (s : State) a =>
        let s := match j.stamp with | some lsn => s.stampRange j.ctx a 4 lsn | none => s
        s.traceNote j.grp true a 4) s
      .ok (s.planeFill false j.ctx j.core h b (as.length - 2))
/-- One block of an outbound plane copy: one planar write (R142). -/
def State.landPout (s : State) (j : Job) (off h blk n m u : Nat) : UnitRes :=
  match s.pdeFor j.ctx h (blk + u) true with
  | .error e => e.unit s j
  | .ok p =>
    let dw := min m p.d
    let as := p.header (blk + u) :: (List.range (dw + 1)).map (p.plane (blk + u))
    match s.plWords j.ctx (s.renJob j) .store as with
    | .error e => e.unit s j
    | .ok ws =>
      let im (r : Nat) : Nat := leNat (s.padBytes j.grp (off + r * planeS n + 4 * u) 4)
      let old := leNat (s.gather (ws.headD []))
      let vals := headerWord old (bitsN (im 0) 14 13) dw (im 0) :: (List.range (dw + 1)).map fun k => im (k + 1)
      let cells := (ws.zip vals).flatMap fun x => x.1.zip (leBytes 4 x.2)
      s.planarPut j h (blk + u) as cells

end Sys2Proof.Machine
end

