-- ==== Sys2Proof/Machine/Jobs.lean ====
section
/-! DEFINITION. The landing of an engine job's units (R105, R107, R143, R344, R349, R479), its completion (R183, R479 to R482), and
the copy, transform, lease and near-memory instructions (R346 to R352). -/

namespace Sys2Proof.Machine

/-! ## Copies -/

/-- Bytes of unit i of a copy of n bytes: a whole destination sector, or one byte of a partial one (R182). -/
def copyLen (d : Place) (n i : Nat) : Nat := if (d.off + i) % 32 = 0 ∧ i + 32 ≤ n then 32 else 1
/-- The requests to a peer for n bytes of a place: none where it is on this device; they are split at 64-byte lines (R244). -/
def State.peerParts (s : State) (j : Job) (k : PKind) (p : Place) (i n : Nat) : List (Nat × Nat) :=
  match p with
  | .pad _ _ => []
  | .dev a => match s.port_ j.ctx (s.renJob j) k (addOff a (i : Nat)) n with | .remote _ x => remoteParts x n | _ => []
/-- A unit of a copy. From or to a peer it takes one answer for each request, reads first; below scope 7 a write to a peer is not waited
for (R181, R190). -/
def State.landCopy (s : State) (j : Job) (d a : Place) (n u : Nat) (ans : Option PeerAnswer) : UnitRes :=
  let len := copyLen d n u
  let rp := s.peerParts j .load a u len
  let wp := s.peerParts j .store d u len
  let wait := if j.scope < 7 then [] else wp
  let fails (p : Place) : Nat := match p with | .dev a => (addOff a (u : Nat)).toNat | .pad _ _ => 0
  let at_ := if j.part < rp.length then a else d
  let fin (bs : List Byte) : UnitRes := if wp = [] then s.unitWrite j d u bs else .ok s
  if rp = [] ∧ wait = [] then
    match s.unitRead j a u len with
    | .error e => e
    | .ok bs => fin bs
  else match (if j.part = 0 ∧ rp = [] then (match s.unitRead j a u len with | .error e => some e | .ok _ => none) else none), ans with
    | some e, _ => e
    | none, none => .blocked
    | none, some .unreachable => .fail 7 0 (fails at_)
    | none, some (.refused c) => .fail 7 c (fails at_)
    | none, some (.done bs) =>
      if j.part < rp.length ∧ bs.length ≠ ((rp.drop j.part).headD (0, 0)).2 then .blocked
      else
        let bs := if j.part < rp.length then bs else []
        if j.part + 1 < rp.length + wait.length then .more bs else fin (j.got ++ bs)

/-- A sector of a leased copy: its line lands with its last sector (R95, R346). -/
def State.landCopyLs (s : State) (j : Job) (a : Addr) (u : Nat) : UnitRes :=
  let sec (v : Nat) : Nat := (offOf a / 32 + v) * 32
  let at_ := mkAddr (bufOf a) (max (offOf a) (sec u))
  match s.port_ j.ctx (s.renJob j) .load at_ 1 with
  | .refused cause _ => .fail 1 cause at_.toNat
  | .page buf pg => .page buf pg at_
  | .remote _ _ => .fail 4 0 at_.toNat
  | .ok ps => match s.poisonedIn false ps with
    | some x => .poisoned (s.poisonKill j.ctx at_ x)
    | none =>
      let line (v : Nat) : Nat := (sec v) / 128
      if j.units.any fun v => v != u && line v == line u then .ok s else .ok (s.landLine j.grp j.lease (ps.headD 0 / 128))

/-- A sector of a leased plane copy (R143): unit u is region u / lines of line u mod lines. The header, the sign and each plane up to the
deepest of the line's blocks is fetched where the L2 lacks it, and pinned or counted by itself. -/
def State.landPls (s : State) (j : Job) (h blk n u : Nat) : UnitRes :=
  let q := planeLines blk n
  let (ri, li) := (u / q, blk / 8 + u % q)
  if j.units.any fun v => regionRank (v / q) < regionRank ri then .blocked
  else
    let b0 := if 8 * li < blk then blk else 8 * li
    match s.pdeFor j.ctx h b0 false with
    | .error e => e.unit s j
    | .ok p =>
      match s.plWords j.ctx (s.renJob j) .load (((List.range 8).map (8 * li + ·)).filterMap fun b => if b < p.nblk then some (p.header b) else none) with
      | .error e => e.unit s j
      | .ok hs =>
        let deep := (hs.map fun w => hdVd (leNat (s.gather w)) p.d).foldl max 0
        let x : PlaneLine := ⟨1, dieOf j.core, j.ctx, h, li, ri - 1, s.clock, if ri = 0 then 1 else if ri = 1 then 2 else 0⟩
        let have_ (l : PlaneLine) : Bool := l.same x && (if ri < 2 then bitN l.parts ri == 1 else decide (x.depth ≤ l.depth))
        if deep < x.depth ∨ s.port.planes.any have_ then .ok s
        else match s.plWords j.ctx (s.renJob j) .load [if ri = 0 then p.header b0 else p.plane b0 x.depth] with
          | .error e => e.unit s j
          | .ok ws =>
            let s := s.landLine j.grp j.lease ((ws.headD []).headD 0 / 128)
            .ok { s with port := { s.port with planes := s.holdLine s.port.planes x }, free := s.free + 1 }

/-! ## Transforms (R105, R349) -/

/-- The pattern of a dense element. -/
def State.readElem (s : State) (j : Job) (l : Layout) (c : List Nat) : Except UnitRes Nat :=
  match s.unitRead j (.dev (l.byteAddr c)) 0 l.elemBytes with
  | .error e => .error e
  | .ok bs => .ok (if l.fmt = 15 then leNat bs / 2 ^ (4 * (l.nib c % 2)) % 16 else leNat bs)
/-- The index of a destination row, read once (R349). -/
def State.rowIndex (s : State) (j : Job) (x : Layout) (row : Nat) : Except UnitRes (State × Job × Nat) :=
  if Map.getD j.image 0 (32 * row + 31) = 1 then .ok (s, j, j.word row 0)
  else match s.readElem j x [row] with
    | .error e => .error e
    | .ok v =>
      let j := { j with image := Map.put 0 (Map.put 0 j.image (32 * row + 31) 1) (32 * row) (BitVec.ofNat 32 v) }
      .ok (s.modJob j.id fun _ => j, j, v)
/-- The new pattern of destination element e. -/
def State.txElem (s : State) (j : Job) (code e : Nat) : Except UnitRes (State × Job × Nat) :=
  match j.layouts with
  | a :: b :: r =>
    let c := b.coords e
    let plain (c : List Nat) (f : Nat → Nat) : Except UnitRes (State × Job × Nat) := (s.readElem j a c).map fun v => (s, j, f v)
    if code = 1 then
      match s.snapBlock j a.phnd (a.base.toNat % 2 ^ 32 + e / 32) 24 (e / 32) with
      | .error x => .error x
      | .ok (s, j) =>
        let d := match s.pde j.ctx a.phnd with | .ok p => hdVd (j.word (e / 32) 0) p.d | .error _ => 0
        let mag := (List.range d).foldl (fun m k => 2 * m + bitN (j.word (e / 32) (k + 2)) (e % 32)) 0
        let v := planeVal (hdE (j.word (e / 32) 0)) (bitN (j.word (e / 32) 1) (e % 32) == 1) mag d false
        .ok (s, j, (roundVal b.ffmt 0 false v).1)
    else if code = 2 then plain (c.getD 1 0 :: c.getD 0 0 :: c.drop 2) id
    else if code = 3 then plain c fun v => (convert a.ty a.ffmt b.ty b.ffmt 0 true v).1
    else match r with
      | [] => .error .blocked
      | x :: _ =>
        let o := a.rank - 1
        match s.rowIndex j x (c.getD o 0) with
        | .error x => .error x
        | .ok (s, j, i) => if a.dim o ≤ i then .error (.fail 6 0 (x.byteAddr [c.getD o 0]).toNat)
          else (s.readElem j a (c.set o i)).map fun v => (s, j, v)
  | _ => .error .blocked

/-- One packed block (R117, R120). -/
def State.landPack (s : State) (j : Job) (u : Nat) : UnitRes :=
  match j.layouts with
  | a :: b :: _ =>
    let xs := (List.range 32).foldl (fun (acc : Except UnitRes (List FVal)) i =>
      match acc with
      | .error e => .error e
      | .ok l => (s.readElem j a (a.coords (32 * u + i))).map fun v => l ++ [a.ffmt.decode v]) (.ok [])
    match xs with
    | .error e => e
    | .ok xs =>
      let blk := b.base.toNat % 2 ^ 32 + u
      match s.pdeFor j.ctx b.phnd blk true with
      | .error e => e.unit s j
      | .ok p =>
        let d := b.pdepth
        let as := p.header blk :: (List.range (d + 1)).map (p.plane blk)
        match s.plWords j.ctx (s.renJob j) .store as with
        | .error e => e.unit s j
        | .ok ws =>
          let k := packBlock xs d
          let old := leNat (s.gather (ws.headD []))
          let word (f : Bool × Nat → Nat) : Nat := (List.range 32).foldl (fun x i => x + 2 ^ i * f (k.els.getD i (false, 0))) 0
          let vals := headerWord old ((if k.nanz then 2 else 0) + (if k.sat then 1 else 0)) d k.E
            :: word (fun e => if e.1 then 1 else 0) :: (List.range d).map fun q => word fun e => bitN e.2 (d - 1 - q)
          s.planarPut j b.phnd blk as ((ws.zip vals).flatMap fun x => x.1.zip (leBytes 4 x.2))
  | _ => .blocked

/-- The destination elements of a dense unit (R182). -/
def Layout.unitElems (l : Layout) (u : Nat) : List Nat :=
  (List.range l.total).filter fun e => (l.bytesOf e).any fun b => if u % 2 = 1 then b / 32 == u / 64 else b == u / 2
/-- A sector, or a byte of a partial sector, of a dense destination: elements whose sources pass are written. -/
def State.landDense (s : State) (j : Job) (code u : Nat) : UnitRes :=
  match j.layouts with
  | _ :: b :: _ =>
    let step (acc : Except UnitRes (State × Job × List (Nat × Nat) × Bool)) (e : Nat) : Except UnitRes (State × Job × List (Nat × Nat) × Bool) :=
      match acc with
      | .error x => .error x
      | .ok (s, j, l, bad) => match s.txElem j code e with
        | .ok (s, j, v) => .ok (s, j, l ++ [(e, v)], bad)
        | .error (.fail x c a) => let j := j.noteFault x c a; .ok (s.modJob j.id fun _ => j, j, l, true)
        | .error (.poisoned s) => .ok (s, j, l, true)
        | .error (.page buf pg a) =>
          let pte := match s.ctx? j.ctx with | some c => (s.buf c buf).base + 8 * pg | none => 0
          if j.dead.contains pte then let j := j.noteFault 2 0x13 a.toNat; .ok (s.modJob j.id fun _ => j, j, l, true)
          else .error (.page buf pg a)
        | .error x => .error x
    match (b.unitElems u).foldl step (.ok (s, j, [], false)) with
    | .error x => x
    | .ok (s, j, l, bad) =>
      let first := if u % 2 = 1 then u / 64 * 32 else u / 2
      let len := if u % 2 = 1 then 32 else 1
      let a := mkAddr (bufOf b.base) first
      match s.port_ j.ctx (s.renJob j) .store a len with
      | .refused cause _ => .fail 1 cause a.toNat
      | .page buf pg => .page buf pg a
      | .remote _ _ => .fail 4 0 a.toNat
      | .ok ps =>
        let put (o : Nat) (p : Nat) : Option (Nat × Byte) :=
          let hits := l.filter fun e => (b.bytesOf e.1).contains (first + o)
          if hits = [] then none
          else
            let old := (memByte s.mem p).toNat
            let v := hits.foldl (fun x e =>
              if b.fmt = 15 then let k := 4 * (b.nib (b.coords e.1) % 2); x - x / 2 ^ k % 16 * 2 ^ k + e.2 % 16 * 2 ^ k
              else e.2 / 2 ^ (8 * (first + o - b.nib (b.coords e.1) / 2)) % 256) old
            some (p, BitVec.ofNat 8 v)
        let cells := ((List.range len).zip ps).filterMap fun e => put e.1 e.2
        if cells = [] then (if bad then .partly s else .ok s)
        else if s.stalledAt ps then .blocked
        else match s.poisonedIn true (cells.map (·.1)), s.stampMiss j.ctx j.stamp j.dead a len with
        | some x, _ => .poisoned (s.poisonKill j.ctx a x)
        | none, some (buf, pg) => .page buf pg a
        | none, none =>
          let r := s.devRoom (cells.map (·.1))
          if ¬ r.2 then .stalled r.1
          else
            let s := r.1.writeEvent j.writer cells
            let s := match j.stamp with | some lsn => s.stampRange j.ctx a len lsn | none => s
            if bad then .partly s else .ok s
  | _ => .blocked

/-! ## Near-memory cards (R107) -/

def nmcElem (op sa sb x y g : Nat) : Nat :=
  let d (p : Nat) : FVal := FFmt.f32.decode p
  let mul (a b : Nat) : Nat := (fMul .f32 0 false (d a) (d b)).1
  if op = 1 then (fFma .f32 0 false (d sb) (d y) (d (mul sa x))).1
  else if op = 2 then mul sa x
  else if op = 3 then sa
  else
    let w := (fAdd .f32 0 false (.fin false 1 0) (d (mul sa sb)).neg).1
    (fFma .f32 0 false (d x) (d w) (d (mul sa g)).neg).1
/-- A 256-byte unit of a stack's part begins, at elements v to stop: its cached copies go first, its operands are read and its results are
known. -/
def State.nmcBegin (s : State) (j : Job) (v stop : Nat) : Except UnitRes (State × Job) :=
  match j.kind with
  | .nmc op _ _ x y g sa sb _ =>
    let cnt := stop - v
    let rd (need : Bool) (a : Addr) : Except UnitRes (List Byte) :=
      if need then s.unitRead j (.dev (addOff a (4 * v : Nat))) 0 (4 * cnt) else .ok []
    match rd (op != 3) x, rd (op == 1) y, rd (op == 4) g with
    | .ok bx, .ok bby, .ok bg =>
      let w (b : List Byte) (i : Nat) : Nat := leNat ((b.drop (4 * i)).take 4)
      let im := (List.range cnt).foldl (fun m i =>
        Map.put 0 m (2 * (v + i)) (BitVec.ofNat 32 (nmcElem op sa sb (w bx i) (w bby i) (w bg i)))) j.image
      let j := { j with image := Map.put 0 im (2 * v + 1) 1 }
      let lines := (j.kind.nmcOps.flatMap fun e => (List.range cnt).filterMap fun i => (s.physOf j (addOff e.1 (4 * (v + i) : Nat))).map (· / 128))
      .ok ((s.dropCopiesOf fun c => lines.contains c.line).modJob j.id fun _ => j, j)
    | .error e, _, _ | _, .error e, _ | _, _, .error e => .error e
  | _ => .error .blocked
/-- The 256-byte unit that byte u of the operands lies in, by its first element, and where the next begins. -/
def State.nmcUnit (s : State) (j : Job) (u : Nat) : Nat × Nat :=
  let starts := s.nmcStarts j
  let n := match j.kind with | .nmc _ _ n _ _ _ _ _ _ => n | _ => 0
  let v := (starts.filter fun i => decide (4 * i ≤ u)).getLastD 0
  (v, (starts.find? fun i => decide (v < i)).getD n)
/-- Whether the unit of byte u has begun. -/
def State.nmcBegun (s : State) (j : Job) (u : Nat) : Bool := Map.getD j.image 0 (2 * (s.nmcUnit j u).1 + 1) == 1
/-- One sector of a card's destination. -/
def State.landNmc (s : State) (j : Job) (u : Nat) : UnitRes :=
  let (v, stop) := s.nmcUnit j u
  match (if s.nmcBegun j u then .ok (s, j) else s.nmcBegin j v stop) with
  | .error e => e
  | .ok (s, j) =>
    let len := (((s.nmcCuts j).find? (·.1 == u)).map (·.2)).getD 1
    let byte (k : Nat) : Byte := BitVec.ofNat 8 ((Map.getD j.image 0 (2 * (k / 4))).toNat / 2 ^ (8 * (k % 4)))
    s.unitWrite j (.dev j.kind.nmcDst) u ((List.range len).map fun k => byte (u + k))
/-- The pushes of a card: one event on each hitched line of its footprint (R211). -/
def State.nmcPush (s : State) (j : Job) : State :=
  match j.kind with
  | .nmc _ _ n _ _ _ _ _ _ =>
    if j.fp = [] then s
    else
      let lines := ((j.kind.nmcOps.flatMap fun e => (List.range n).filterMap fun i => (s.physOf j (addOff e.1 (4 * i : Nat))).map (· / 64))).eraseDups
      lines.foldl (fun (s : State) l => s.pushLine l) s
  | _ => s

/-! ## A unit's end -/

/-- The event of unit u; `ans` is a peer's answer (R190). -/
def State.unitRes (s : State) (j : Job) (u : Nat) (ans : Option PeerAnswer) : UnitRes :=
  match j.kind with
  | .copy d a n => s.landCopy j d a n u ans
  | .copyLs _ a _ => s.landCopyLs j a u
  | .pcopyIn off h blk n k m => s.landPin j off h blk n k m u
  | .pcopyOut off h blk n m => s.landPout j off h blk n m u
  | .pcopyLs _ h blk n _ _ => s.landPls j h blk n u
  | .txfm code _ _ => if code = 0 then s.landPack j u else s.landDense j code u
  | .nmc .. => s.landNmc j u

/-- The counts a landed unit takes off TXIN and TXOUT, and the watermark it sets (R102, R140, R344). `left` are the units that
have not landed. -/
def State.unitCounts (s : State) (j : Job) (u : Nat) (left : List Nat) : Nat × Nat × Option Nat :=
  let last (same : Nat → Bool) : Bool := !(left.any same)
  match j.kind with
  | .copy d a n =>
    let cin := if last (fun v => s.secAt d v == s.secAt d u) then 1 else 0
    let touch (v : Nat) : List Nat := [s.secAt a v, s.secAt a (v + copyLen d n v - 1)].eraseDups
    let cout := ((touch u).filter fun x => last fun v => (touch v).contains x).length
    (match d, a with
      | .dev _, .pad _ _ => (0, cout, none)
      | .pad _ _, .pad _ _ => (cin, cout, none)
      | _, _ => (cin, 0, none))
  | .copyLs .. => (1, 0, none)
  | .pcopyIn _ _ _ n k _ =>
    let rk (v : Nat) : Nat := regionRank (pinRegion n v).1
    (1, 0, if last (fun v => rk v == rk u) = true ∧ j.failed = [] then some (k + rk u - 1) else none)
  | .pcopyOut _ _ _ _ m =>
    (0, if last (fun v => v / 8 == u / 8) then m + 2 else 0, if left = [] then some m else none)
  | .pcopyLs _ _ blk n k _ =>
    let rk (v : Nat) : Nat := regionRank (v / planeLines blk n)
    let w := if rk u = 0 then k - 1 else rk u
    (1, 0, if last (fun v => rk v == rk u) = true ∧ j.failed = [] ∧ k ≤ w + 1 then some w else none)
  | .txfm code _ _ =>
    match j.layouts with
    | _ :: b :: _ =>
      if code = 0 then
        let ln (v : Nat) : Nat := (b.base.toNat % 2 ^ 32 + v) / 8
        (if last (fun v => ln v == ln u) then b.pdepth + 2 else 0, 0, none)
      else (if last (fun v => v / 64 == u / 64) then 1 else 0, 0, none)
    | _ => (0, 0, none)
  | .nmc .. => (0, 0, none)

/-- Counts leave a bound barrier in one update (R102); its group's core follows the job's writes (R183). -/
def State.barTake (s : State) (j : Job) (cin cout : Nat) (wm : Option Nat) : State :=
  match j.bind with
  | .tag _ => s
  | .bar g o =>
    if cin = 0 ∧ cout = 0 ∧ wm.isNone then s
    else
      let b := s.bar g o
      (s.setBar g o { b with txin := b.txin - cin, txout := b.txout - cout, plwm := wm.getD b.plwm }.test).tell g
/-- A unit has landed. The counts of the last one of a job of scope 8 leave the barrier only at the job's completion (R183). -/
def State.unitDone (s : State) (jid u : Nat) : State :=
  match s.jobs.find? (·.id == jid) with
  | none => s
  | some j =>
    let units := j.units.filter (· != u)
    let (ci, co, wm) := s.unitCounts j u (units ++ j.failed)
    let (ci, co) := (min ci j.owedIn, min co j.owedOut)
    if 8 ≤ j.scope ∧ units = [] then s.modJob jid fun j => { j with units := [], part := 0, got := [], owedMark := wm }
    else (s.modJob jid fun j => { j with units := units, part := 0, got := [], owedIn := j.owedIn - ci, owedOut := j.owedOut - co }).barTake j ci co wm
def State.unitFail (s : State) (jid u : Nat) (reason under addr : Nat) : State :=
  s.modJob jid fun j => ({ j with units := j.units.filter (· != u), failed := u :: j.failed, part := 0, got := [] } : Job).noteFault reason under addr

/-- ENGINE_SECTOR_LAND, or the peer's answer to a unit (R102, R182, R479). -/
def State.landUnit (s : State) (jid u : Nat) (ans : Option PeerAnswer) : State :=
  match s.jobs.find? (·.id == jid) with
  | none => s
  | some j =>
    if ¬ j.admitted ∨ j.edges ≠ [] ∨ ¬ j.units.contains u then s
    else match s.unitRes j u ans with
      | .ok s => s.unitDone jid u
      | .partly s => s.unitFail jid u 0 0 0
      | .fail x c a => s.unitFail jid u x c a
      | .poisoned s => s.unitFail jid u 0 0 0
      | .blocked => s
      | .stalled s => s
      | .more bs => s.modJob jid fun j => { j with part := j.part + 1, got := j.got ++ bs }
      | .page buf pg a =>
        let pte := match s.ctx? j.ctx with | some c => (s.buf c buf).base + 8 * pg | none => 0
        if j.dead.contains pte then s.unitFail jid u 2 0x13 a.toNat
        else
          let (id, s) := s.startPage j.ctx buf pg
          s.modJob jid fun j => { j with waits := if j.waits.contains id then j.waits else id :: j.waits }

/-! ## Completion (R183, R479 to R482) -/

/-- The cause and ARG of a job's fault; reasons from 256 are those of R495. -/
def Job.trap (j : Job) : Option Trap :=
  j.fault.map fun f =>
    if 256 ≤ f.1 then { cause := 0x16, arg := f.1 - 256, addr := f.2.2, cls := 1 }
    else { cause := match j.kind with | .nmc .. => 0x19 | _ => 0x18, arg := f.1 + 256 * f.2.1, addr := f.2.2, cls := 1 }
/-- The thread a record keeps (R48). -/
def SpawnRec.tid (r : SpawnRec) : Nat := leNat ((r.bytes.drop 8).take 4) % 1024
/-- A deferred fault is held by its thread, or by the record of its respawn; one without a thread is logged (R428, R481). -/
def State.holdFault (s : State) (ctx g t : Nat) (h : HeldFault) : State :=
  match s.group? g with
  | some G =>
    if Map.contains G.threads t then s.modT g t fun T => { T with held := T.held ++ [h] }
    else if G.recs.any (fun r => r.tid == t) then
      let add (r : SpawnRec) : SpawnRec := if r.tid = t then { r with held := r.held ++ [h] } else r
      s.modG g fun G => { G with recs := G.recs.map add }
    else s.log { cls := 9, sev := 1, ctx := ctx, detail := h.trap.cause, addr := h.trap.addr }
  | none => s.log { cls := 9, sev := 1, ctx := ctx, detail := h.trap.cause, addr := h.trap.addr }
/-- Items and jobs that waited for one of the dependence table (R66). -/
def State.clearEdges (s : State) (id : Nat) : State :=
  { s with items := s.items.map fun (i : Item) =>
             { i with edges := i.edges.filter (· != id), after := i.after || i.edges.contains id, ts := if i.edges.contains id then s.topTs else i.ts },
           jobs := s.jobs.map fun (j : Job) => { j with edges := j.edges.filter (· != id) } }
/-- Whether a job may complete: every unit done; at scope 8 no snoop of its own is open (R183). -/
def State.jobOver (s : State) (j : Job) : Bool :=
  j.admitted && j.edges.isEmpty && j.units.isEmpty && (decide (j.scope < 8) || s.port.snoops.all fun x => x.job != j.id)
/-- ENGINE_JOB_COMPLETE. -/
def State.completeJob (s : State) (jid : Nat) : State :=
  match s.jobs.find? (·.id == jid) with
  | none => s
  | some j =>
    if ¬ s.jobOver j then s
    else
      let s := (s.nmcPush j).tell j.grp
      let s := s.barTake j j.owedIn j.owedOut j.owedMark
      let s := match j.bind with | .tag n => s.modG j.grp (·.tagDone n) | .bar .. => s
      let j := if 8 ≤ j.scope ∧ s.edge.wymDown then j.noteFault (256 + 5) 0 0 else j
      let s := match j.trap with | some t => s.holdFault j.ctx j.grp j.tid { order := j.id, trap := t } | none => s
      (State.clearEdges { s with jobs := s.jobs.filter (·.id != jid) } jid).returnPages jid

/-! ## The instructions -/

def execCopy (f : Full) (s : State) : Host.Outcome State Fault Refusal := issueTurn 0x120 f (startJob reqCopy f) s
def execCopyIn (f : Full) (s : State) : Host.Outcome State Fault Refusal := issueTurn 0x121 f (startJob reqCopyIn f) s
def execCopyOut (f : Full) (s : State) : Host.Outcome State Fault Refusal := issueTurn 0x122 f (startJob reqCopyOut f) s
def execCopySs (f : Full) (s : State) : Host.Outcome State Fault Refusal := issueTurn 0x123 f (startJob reqCopySs f) s
def execCopyLs (f : Full) (s : State) : Host.Outcome State Fault Refusal := issueTurn 0x124 f (startJob reqCopyLs f) s
def execPcopyIn (f : Full) (s : State) : Host.Outcome State Fault Refusal := issueTurn 0x125 f (startJob reqPcopyIn f) s
def execPcopyOut (f : Full) (s : State) : Host.Outcome State Fault Refusal := issueTurn 0x126 f (startJob reqPcopyOut f) s
def execPcopyLs (f : Full) (s : State) : Host.Outcome State Fault Refusal := issueTurn 0x127 f (startJob reqPcopyLs f) s
def execTxfm (f : Full) (s : State) : Host.Outcome State Fault Refusal := issueTurn 0x128 f (startJob reqTxfm f) s
def execLease (f : Full) (s : State) : Host.Outcome State Fault Refusal := issueTurn 0x129 f (actLease f) s
def execLeaseQ (f : Full) (s : State) : Host.Outcome State Fault Refusal := issueTurn 0x12A f (actLeaseQ f) s
def execUnlease (f : Full) (s : State) : Host.Outcome State Fault Refusal := issueTurn 0x12B f (actUnlease f) s
def execNmc (f : Full) (s : State) : Host.Outcome State Fault Refusal := issueTurn 0x12C f (actNmc f) s

end Sys2Proof.Machine
end

