-- ==== Sys2Proof/Machine/Twill.lean ====
section
/-! DEFINITION. Twill pattern programs (R354 to R373): pattern words and their checks, both enumerations, value indices, and the
Twill instructions. -/

namespace Sys2Proof.Machine

/-! ## Pattern words (R355, R356) -/

def nodeKind (w : Nat) : Nat := bitsN w 63 60
def nodeX (w : Nat) : Nat := bitsN w 59 54
def nodeY (w : Nat) : Nat := bitsN w 53 48
def param (w hi lo : Nat) : Nat := bitsN w hi lo
def paramS (w hi lo : Nat) : Int := sextN (bitsN w hi lo) (hi + 1 - lo)
/-- Whether a kind names X, and Y. -/
def usesX (k : Nat) : Bool := k == 4 || k == 6 || k == 7 || k == 8
def usesY (k : Nat) : Bool := k == 4 || k == 6
def combines (k : Nat) : Bool := usesX k
/-- A reserved kind, or a reserved or unused bit set. -/
def nodeBits (w : Nat) : Bool :=
  let k := nodeKind w
  let p :=
    if k = 0 ∨ k = 6 then bitsN w 47 0 == 0
    else if k = 3 then bitsN w 47 32 == 0
    else if k = 5 then bitsN w 37 32 == 0 && (bitN w 38 == 0 || bitsN w 31 0 == 0)
    else true
  decide (k ≤ 8) && (usesX k || nodeX w == 0) && (usesY k || nodeY w == 0) && p
/-- The limits of R356 on the parameters. -/
def nodeLimits (w : Nat) : Bool :=
  let k := nodeKind w
  if k = 1 then decide (paramS w 47 24 ≤ paramS w 23 0)
  else if k = 2 then decide (1 ≤ param w 47 32 ∧ 1 ≤ param w 31 16)
  else if k = 3 then decide (1 ≤ param w 31 0)
  else if k = 4 then decide (1 ≤ param w 47 24 ∧ 1 ≤ param w 23 0)
  else if k = 5 then decide (1 ≤ param w 47 40)
  else true

/-- A node as the root reaches it: its shape and the combining nodes on the longest path to it (R357, R358). -/
structure NodeInfo where
  nr : Nat
  nc : Nat
  depth : Nat
  clash : Bool := false
deriving DecidableEq, Repr

def reachAdd (m : Sparse NodeInfo) (i nr nc depth : Nat) : Sparse NodeInfo :=
  match Map.get? m i with
  | none => Map.set m i ⟨nr, nc, depth, false⟩
  | some x => Map.set m i { x with depth := max x.depth depth, clash := x.clash || x.nr != nr || x.nc != nc }
/-- The nodes the root reaches, with their shapes; operands stand below their nodes. -/
def reach (words : List Nat) : Nat → Sparse NodeInfo → Sparse NodeInfo
  | 0, m => m
  | i + 1, m =>
    let w := words.getD i 0
    let k := nodeKind w
    let m := match Map.get? m i with
      | none => m
      | some x =>
        let d := x.depth + (if combines k then 1 else 0)
        let m := if usesX k ∧ nodeX w < i then
            (if k = 4 then reachAdd m (nodeX w) (x.nr / param w 47 24) (x.nc / param w 23 0) d else reachAdd m (nodeX w) x.nr x.nc d)
          else m
        if usesY k ∧ nodeY w < i then
          (if k = 4 then reachAdd m (nodeY w) (param w 47 24) (param w 23 0) d else reachAdd m (nodeY w) x.nr x.nc d)
        else m
    reach words i m
def reached (words : List Nat) (rows cols : Nat) : Sparse NodeInfo :=
  let root := words.length - 2
  reach words (root + 1) [(root, ⟨rows, cols, 0, false⟩)]

/-! ## Hashes (R361) -/

def mul32 (a b : Nat) : Nat := a * b % 2 ^ 32
def mix32 (x : Nat) : Nat :=
  let x := mul32 (x ^^^ (x / 2 ^ 16)) 0x9E3779B1
  let x := mul32 (x ^^^ (x / 2 ^ 15)) 0x85EBCA77
  x ^^^ (x / 2 ^ 16)
/-- The least h at least 1 with 2^(2h) at least M. -/
def feistelH (M : Nat) : Nat := ((List.range 16).find? fun h => decide (M ≤ 2 ^ (2 * (h + 1)))).getD 15 + 1
def feistel (inv : Bool) (seed h x : Nat) : Nat :=
  let key (i : Nat) : Nat := mix32 (seed ^^^ i)
  let r := (List.range 4).foldl (fun (p : Nat × Nat) i =>
    if inv then (p.2 ^^^ (mix32 (p.1 ^^^ key (3 - i)) % 2 ^ h), p.1)
    else (p.2, p.1 ^^^ (mix32 (p.2 ^^^ key i) % 2 ^ h))) (x / 2 ^ h, x % 2 ^ h)
  r.1 * 2 ^ h + r.2
/-- Cycle-walking into [0, M). -/
def walk (inv : Bool) (seed h M : Nat) : Nat → Nat → Nat
  | 0, y => y
  | n + 1, y => if y < M then y else walk inv seed h M n (feistel inv seed h y)
def permP (inv : Bool) (seed M x : Nat) : Nat :=
  let h := feistelH M
  walk inv seed h M (2 ^ (2 * h)) (feistel inv seed h x)

/-! ## Enumeration (R359, R360, R363) -/

/-- Integers from lo to hi. -/
def upTo (lo hi : Int) : List Int := (List.range (hi + 1 - lo).toNat).map fun (k : Nat) => lo + (k : Int)
/-- Those that are column or row numbers below n. -/
def keep (n : Nat) (l : List Int) : List Nat := l.filterMap fun (x : Int) => if 0 ≤ x ∧ x < n then some x.toNat else none
def hashSeed (w seed : Nat) : Nat := if bitN w 38 = 1 then seed else bitsN w 31 0
/-- The ascending union of two lists, each value once. -/
def mergeOnce (a b : List Nat) : List Nat := Map.sortBy (fun x y => decide (x ≤ y)) ((a ++ b).eraseDups)

/-- The columns of row r of node i of shape (nr, nc), in order (R359); `fuel` bounds the depth of the program. -/
def forward (words : List Nat) (seed : Nat) : Nat → Nat → Nat → Nat → Nat → List Nat
  | 0, _, _, _, _ => []
  | fuel + 1, i, nr, nc, r =>
    if nr ≤ r then []
    else
      let w := words.getD i 0
      let k := nodeKind w
      if k = 1 then keep nc (upTo (max 0 (r + paramS w 47 24)) (min (nc - 1) (r + paramS w 23 0)))
      else if k = 2 then keep nc ((List.range (param w 31 16)).map fun (j : Nat) => paramS w 15 0 + r + j * (param w 47 32 : Int))
      else if k = 3 then
        let z := param w 31 0
        keep nc (upTo (r / z * z : Nat) ((min nc ((r / z + 1) * z) : Nat) - 1))
      else if k = 5 then
        let K := param w 47 40
        let sd := hashSeed w seed
        (List.range K).map fun j =>
          if bitN w 39 = 1 then permP false sd (nr * K) (r * K + j) % nc else mix32 (sd ^^^ ((r * K + j) % 2 ^ 32)) % nc
      else if k = 4 then
        let (ir, ic) := (param w 47 24, param w 23 0)
        let ys := forward words seed fuel (nodeY w) ir ic (r % ir)
        (forward words seed fuel (nodeX w) (nr / ir) (nc / ic) (r / ir)).flatMap fun co => ys.map fun ci => co * ic + ci
      else if k = 6 then mergeOnce (forward words seed fuel (nodeX w) nr nc r) (forward words seed fuel (nodeY w) nr nc r)
      else if k = 7 then
        if param w 47 24 ≤ r then [] else (forward words seed fuel (nodeX w) nr nc r).filter fun c => decide (c < param w 23 0)
      else if k = 8 then
        let r' : Int := r - paramS w 47 24
        if r' < 0 ∨ nr ≤ r' then []
        else keep nc ((forward words seed fuel (nodeX w) nr nc r'.toNat).map fun (c : Nat) => (c : Int) + paramS w 23 0)
      else []

/-- The rows of column c of an invertible node, in order, each with its rank in its row (R360, R363). -/
def transposed (words : List Nat) (seed : Nat) : Nat → Nat → Nat → Nat → Nat → List (Nat × Nat)
  | 0, _, _, _, _ => []
  | fuel + 1, i, nr, nc, c =>
    if nc ≤ c then []
    else
      let w := words.getD i 0
      let k := nodeKind w
      let fwd (i nr nc r : Nat) : List Nat := forward words seed (fuel + 1) i nr nc r
      let ranked (l : List Nat) : List (Nat × Nat) := l.map fun r => (r, (fwd i nr nc r).idxOf c)
      if k = 1 then ranked (keep nr (upTo (max 0 (c - paramS w 23 0)) (min (nr - 1) (c - paramS w 47 24))))
      else if k = 2 then
        let n := param w 31 16
        ranked (keep nr ((List.range n).map fun (j : Nat) => (c : Int) - paramS w 15 0 - (n - 1 - j : Nat) * (param w 47 32 : Int)))
      else if k = 3 then
        let z := param w 31 0
        ranked (keep nr (upTo (c / z * z : Nat) ((min nr ((c / z + 1) * z) : Nat) - 1)))
      else if k = 5 then
        let K := param w 47 40
        (List.range (nr * K / nc)).map fun j =>
          let y := permP true (hashSeed w seed) (nr * K) (c + j * nc)
          (y / K, y % K)
      else if k = 4 then
        let (ir, ic) := (param w 47 24, param w 23 0)
        let ys := transposed words seed fuel (nodeY w) ir ic (c % ic)
        (transposed words seed fuel (nodeX w) (nr / ir) (nc / ic) (c / ic)).flatMap fun o => ys.map fun y =>
          (o.1 * ir + y.1, o.2 * (fwd (nodeY w) ir ic y.1).length + y.2)
      else if k = 7 then
        if param w 23 0 ≤ c then []
        else ((transposed words seed fuel (nodeX w) nr nc c).filter fun e => decide (e.1 < param w 47 24)).map fun e =>
          (e.1, (((fwd (nodeX w) nr nc e.1).take e.2).filter fun x => decide (x < param w 23 0)).length)
      else if k = 8 then
        let c' : Int := c - paramS w 23 0
        let dr := paramS w 47 24
        if c' < 0 ∨ nc ≤ c' then []
        else (transposed words seed fuel (nodeX w) nr nc c'.toNat).filterMap fun e =>
          let r : Int := e.1 + dr
          if 0 ≤ r ∧ r < nr then
            some (r.toNat, (keep nc (((fwd (nodeX w) nr nc e.1).take e.2).map fun (x : Nat) => (x : Int) + paramS w 23 0)).length)
          else none
      else []

/-- Whether start(r) is computed without enumeration (R363). -/
def closedForm (words : List Nat) : Nat → Nat → Bool
  | 0, _ => false
  | fuel + 1, i =>
    let w := words.getD i 0
    let k := nodeKind w
    let leaf (x : Nat) : Bool := let q := nodeKind (words.getD x 0); q == 1 || q == 2 || q == 3
    leaf i || k == 5 || (k == 4 && closedForm words fuel (nodeX w) && closedForm words fuel (nodeY w))
      || ((k == 7 || k == 8) && leaf (nodeX w))
/-- The sum of t cut to [0, C] over t below x. -/
def rampSum (C : Nat) (x : Int) : Int := let n := x.toNat; if n ≤ C then (n * (n - 1) / 2 : Nat) else (C * (C - 1) / 2 + (n - C) * C : Nat)
/-- Entries of a band, dil or bdg in the first R rows and the first C columns. -/
def leafCount (w R C : Nat) : Int :=
  let k := nodeKind w
  if k = 1 then
    let below (d : Int) : Int := rampSum C (R + d + 1) - rampSum C (d + 1)
    below (paramS w 23 0) - below (paramS w 47 24 - 1)
  else if k = 2 then
    (List.range (param w 31 16)).foldl (fun (x : Int) (j : Nat) =>
      let e : Int := paramS w 15 0 + j * (param w 47 32 : Int)
      x + max 0 (min (R : Int) (C - e) - max 0 (-e))) 0
  else if k = 3 then
    let z := param w 31 0
    let q := R / z
    (z * min C (q * z) + R % z * (min C ((q + 1) * z) - min C (q * z)) : Nat)
  else 0
/-- start(r) of a node of shape (nr, nc) whose closed form R363 names. -/
def startOf (words : List Nat) (seed : Nat) : Nat → Nat → Nat → Nat → Nat → Int
  | 0, _, _, _, _ => 0
  | fuel + 1, i, nr, nc, r =>
    let w := words.getD i 0
    let k := nodeKind w
    let x := words.getD (nodeX w) 0
    if k = 5 then (r * param w 47 40 : Nat)
    else if k = 4 then
      let (ir, ic) := (param w 47 24, param w 23 0)
      let outer (ro : Nat) : Int := startOf words seed fuel (nodeX w) (nr / ir) (nc / ic) ro
      let inner (ri : Nat) : Int := startOf words seed fuel (nodeY w) ir ic ri
      let cnt : Int := if r / ir < nr / ir then outer (r / ir + 1) - outer (r / ir) else 0
      outer (r / ir) * inner ir + cnt * inner (r % ir)
    else if k = 7 then leafCount x (min r (param w 47 24)) (min nc (param w 23 0))
    else if k = 8 then
      let (dr, dc) := (paramS w 47 24, paramS w 23 0)
      let (a, b) := ((max 0 (-dr)).toNat, (min (nr : Int) (r - dr)).toNat)
      let (u, v) := ((max 0 (-dc)).toNat, (min (nc : Int) (nc - dc)).toNat)
      if b ≤ a ∨ v ≤ u then 0 else leafCount x b v - leafCount x a v - leafCount x b u + leafCount x a u
    else leafCount w r nc
/-- A node that is a union or a forward hash, or reaches one (R362). -/
def forwardOnly (words : List Nat) : Nat → Nat → Bool
  | 0, _ => false
  | fuel + 1, i =>
    let w := words.getD i 0
    let k := nodeKind w
    k == 6 || (k == 5 && bitN w 39 == 0) || (usesX k && forwardOnly words fuel (nodeX w)) || (usesY k && forwardOnly words fuel (nodeY w))

def TwCtx.root (c : TwCtx) : Nat := c.words.length - 2
def TwCtx.rowList (c : TwCtx) (r : Nat) : List Nat := forward c.words c.seed 64 c.root c.rows c.cols r
/-- Values before row r (R363). -/
def TwCtx.countTo (c : TwCtx) (r : Nat) : Nat :=
  if closedForm c.words 64 c.root then (startOf c.words c.seed 64 c.root c.rows c.cols r).toNat
  else (List.range r).foldl (fun x k => x + (c.rowList k).length) 0

/-! ## The checks of a program (R354, R358, R362, R486) -/

/-- Descriptor fields that R354 allows. -/
def twFieldsOk (rows cols fmtb nwords : Nat) : Bool :=
  let fmt := fmtb % 256
  let p := bitsN fmtb 10 8
  decide (1 ≤ rows ∧ 1 ≤ cols ∧ fmt ≤ 15 ∧ bitsN fmtb 15 13 = 0 ∧ 2 ≤ nwords ∧ nwords ≤ 64) && (if fmt = 14 then decide (1 ≤ p) else p == 0)
/-- The lowest reason of a malformed program with its lowest node (R486), reasons 2 to 8. -/
def TwCtx.malformed (c : TwCtx) : Option (Nat × Nat) :=
  let n := c.words.length
  let idx := List.range n
  let w (i : Nat) : Nat := c.words.getD i 0
  let info := reached c.words c.rows c.cols
  let first (reason : Nat) (p : Nat → Bool) : Option (Nat × Nat) := (idx.find? p).map fun i => (reason, i)
  let at_ (i : Nat) (p : NodeInfo → Bool) : Bool := match Map.get? info i with | some x => p x | none => false
  (first 2 fun i => !nodeBits (w i)).orElse fun _ =>
  (first 3 fun i => (nodeKind (w i) == 0) != (i + 1 == n)).orElse fun _ =>
  (first 4 fun i => (usesX (nodeKind (w i)) && decide (i ≤ nodeX (w i))) || (usesY (nodeKind (w i)) && decide (i ≤ nodeY (w i)))).orElse fun _ =>
  (first 5 fun i => !nodeLimits (w i) || at_ i fun x => x.clash ||
    (nodeKind (w i) == 4 && (x.nr % param (w i) 47 24 != 0 || x.nc % param (w i) 23 0 != 0))).orElse fun _ =>
  (first 6 fun i => at_ i fun x => combines (nodeKind (w i)) && decide (4 ≤ x.depth)).orElse fun _ =>
  (first 7 fun i => at_ i fun x => nodeKind (w i) == 5 && bitN (w i) 39 == 1 &&
    (let M := x.nr * param (w i) 47 40; M % x.nc != 0 || M / x.nc == 0 || decide (2 ^ 32 < M))).orElse fun _ =>
  if closedForm c.words 64 c.root ∧ 2 ^ 32 - 1 ≤ c.countTo c.rows then some (8, 0) else none

/-- A Twill read: access kind 9, precise (R463, R488). -/
def twRead (s : State) (r : Ref) (a : Addr) (n : Nat) : Except TOut (List Nat) :=
  match s.port_ r.G.ctx (s.renOf r.G.item) .load a n with
  | .refused cause need => .error (.trap (portTrap 9 cause need a 0))
  | .page buf pg => .error (.page 9 buf pg a)
  | .remote _ _ => .error (.trap { cause := 0x18, arg := 4, addr := a.toNat })
  | .ok ps => .ok ps

/-- Whether another thread of a group is reading the image of a context: the contexts are served in the order of issue (R371). -/
def Group.twTaken (G : Group) (t c : Nat) : Bool :=
  G.threads.any fun x => x.1 != t && match x.2.image with | some (tw, _) => tw == some c | none => false
/-- The granted context an instruction names, free of a loop and of an earlier instruction's reads (R367, R371). -/
def twCheck (f : Full) (needs : Bool) (s : State) (lo : Ref) : Option TOut :=
  let c := f.mod.toNat % 4
  match s.group? lo.g with
  | none => some .stay
  | some G =>
    if G.lr.twctx ≤ c then some (useTrap 4 0)
    else if G.twTaken lo.t c then some (.wait .resource)
    else if needs ∧ ¬ Map.contains G.tw c then some (useTrap 5 0)
    else if G.loop.any (fun l => match l.kind with | .sparse x _ _ _ => x == c | _ => false) then some (.wait .resource)
    else none
def State.tw (s : State) (g c : Nat) : Option TwCtx := (s.group? g).bind fun G => Map.get? G.tw c
def State.setTw (s : State) (g c : Nat) (x : TwCtx) : State := s.modG g fun G => { G with tw := Map.set G.tw c x }
def State.emptyTw (s : State) (g c : Nat) : State := s.modG g fun G => { G with tw := Map.erase G.tw c }
def patternTrap (reason node addr : Nat) : TOut := .trap { cause := 0x1A, arg := reason + 256 * node, addr := addr }

/-- One act per issue group on the lowest contributing lane's operands (R367); every earlier access of the threads is placed. -/
def twStep (act : Ref → State → List Ref → State × (Nat → Ref → TOut)) (s : State) (rs : List Ref) : State × List (Ref × TOut) :=
  match rs.head? with
  | none => (s, [])
  | some lo =>
    if ¬ (rs.all fun r => s.drained r.g r.t) then (s, rs.map fun r => (r, .wait .resource))
    else
      let (s, o) := act lo s rs
      (s, ((List.range rs.length).zip rs).map fun e => (e.2, o e.1 e.2))
def allOut (s : State) (o : TOut) : State × (Nat → Ref → TOut) := (s, fun _ _ => o)
/-- The bytes the instruction has read so far. -/
def Ref.imageBytes (lo : Ref) : List Byte := match lo.T.image with | some (_, bs) => bs | none => []
/-- The next part of a context's image is asked for: of device memory, once the port refuses none of its words, or of scratchpad. -/
def twAsk (s : State) (lo : Ref) (rs : List Ref) (n : Nat) (a : Addr) (pad : Option Nat) (parts : List (Nat × Nat)) : State × (Nat → Ref → TOut) :=
  let refused := if pad.isSome then none else parts.findSome? fun p => match twRead s lo (addOff a (p.1 : Nat)) p.2 with
    | .error (.trap t) => some t
    | _ => none
  match refused with
  | some t => allOut s (.trap t)
  | none => let (s, o) := s.askImage lo rs (some n) a pad parts; allOut s o

/-- A program as read, checked and entered (R368, R370). -/
def State.enterTw (s : State) (g n : Nat) (c : TwCtx) (reason10 : Bool) (word : Nat → Nat) : State × TOut :=
  let bad : Option (Nat × Nat) := if twFieldsOk c.rows c.cols c.fmtb c.words.length then c.malformed else some (1, 0)
  match bad, reason10 with
  | some (reason, node), _ => (s.emptyTw g n, patternTrap reason node (if 2 ≤ reason ∧ reason ≤ 7 then word node else c.desc))
  | none, true => (s.emptyTw g n, patternTrap 10 0 c.desc)
  | none, false => (s.setTw g n c, .done {})
/-- Pattern words from the bytes behind a descriptor or an image's head. -/
def wordsOf (bs : List Byte) (nw : Nat) : List Nat := (List.range nw).map fun i => leNat ((bs.drop (64 + 8 * i)).take 8)

/-- `twld` (R368): the descriptor as four events, then its words, then the checks. -/
def actTwld (f : Full) (lo : Ref) (s : State) (rs : List Ref) : State × (Nat → Ref → TOut) :=
  let n := f.mod.toNat % 4
  let a := s.ea lo f
  match twCheck f false s lo with
  | some o => allOut s o
  | none =>
    if a.toNat % 64 ≠ 0 then allOut s (alignTrap 6 a.toNat)
    else
      let bs := lo.imageBytes
      if bs.length < 64 then twAsk s lo rs n a none (pieces 0 64 16)
      else
        let x := leNat (bs.take 64)
        let nw := bitsN x 214 208
        let prog := BitVec.ofNat 64 (bitsN x 127 64)
        let base : TwCtx := { desc := a.toNat, values := BitVec.ofNat 64 (bitsN x 63 0), rowptr := BitVec.ofNat 64 (bitsN x 319 256),
                              rows := bitsN x 159 128, cols := bitsN x 191 160, fmtb := bitsN x 207 192, words := [],
                              seed := s.op32 lo f.d.toNat, st := .loaded, dirCol := false, line := 0, pos := 0 }
        let ok := bitN x 215 == 0 && bitsN x 255 216 == 0 && bitsN x 511 320 == 0 && prog.toNat % 8 == 0
        if ¬ ok ∨ ¬ twFieldsOk base.rows base.cols base.fmtb nw then
          allOut (s.emptyTw lo.g n) (patternTrap 1 0 a.toNat)
        else if bs.length < 64 + 8 * nw then twAsk s lo rs n prog none (pieces 0 (8 * nw) 8)
        else
          let words := wordsOf bs nw
          let c := { base with words := words }
          let (s, o) := s.enterTw lo.g n c false fun i => (addOff prog (8 * i : Nat)).toNat
          let sreg := (reached words c.rows c.cols).any fun e => nodeKind (words.getD e.1 0) == 5 && bitN (words.getD e.1 0) 38 == 1
          allOut (if sreg ∧ o == TOut.done {} then s.modG lo.g (·.vol 3) else s) o

/-- Whether start(r) comes from the `ROWPTR` table: no closed form, and a table (R363, R364). -/
def TwCtx.tabled (c : TwCtx) : Bool := !closedForm c.words 64 c.root && c.rowptr != 0
/-- start(r): from the table where the root needs it and one is given, else by counting (R363, R364). -/
def twStart (s : State) (lo : Ref) (c : TwCtx) (r : Nat) : Except TOut (State × Nat) :=
  if !c.tabled then .ok (s, c.countTo r)
  else
    let a := addOff c.rowptr (4 * r : Nat)
    match twRead s lo a 4 with
    | .error o => .error o
    | .ok ps => .ok ((s.checkAll ps).traceNote lo.g false a 4, leNat (s.gather ps))
/-- The entries of a line in order: column or row, row, and rank in the row (R359, R360, R363). -/
def TwCtx.lineOf (c : TwCtx) (dirCol : Bool) (line : Nat) : List (Nat × Nat × Nat) :=
  if dirCol then (transposed c.words c.seed 64 c.root c.rows c.cols line).map fun e => (e.1, e.1, e.2)
  else let l := c.rowList line; (l.zip (List.range l.length)).map fun e => (e.1, line, e.2)
/-- The entries of a line with their value indices (R363, R369). -/
def twEntries (s : State) (lo : Ref) (c : TwCtx) (dirCol : Bool) (line : Nat) : Except TOut (State × List (Nat × Nat)) :=
  (c.lineOf dirCol line).foldl (fun (acc : Except TOut (State × List (Nat × Nat))) e =>
    match acc with
    | .error o => .error o
    | .ok (s, l) => match twStart s lo c e.2.1 with
      | .error o => .error o
      | .ok (s, st) => .ok (s, l ++ [(e.1, st + e.2.2)])) (.ok (s, []))

/-- A delivery (R369): the table's words for its entries are read first; the deliveries count in LD until they reach the registers
(R367). -/
def twDeliver (f : Full) (lo : Ref) (s : State) (rs : List Ref) (c : TwCtx) : State × (Nat → Ref → TOut) :=
  let n := f.mod.toNat % 4
  let all := c.lineOf c.dirCol c.line
  let sel := (all.drop c.pos).take rs.length
  let rows := if c.tabled then (sel.map (·.2.1)).eraseDups else []
  let bs := lo.imageBytes
  if bs.length < 4 * rows.length then twAsk s lo rs n c.rowptr none (rows.map fun r => (4 * r, 4))
  else
    let start (r : Nat) : Nat := if c.tabled then leNat ((bs.drop (4 * rows.idxOf r)).take 4) else c.countTo r
    let l := sel.map fun e => (e.1, start e.2.1 + e.2.2)
    if l.any fun e => decide (2 ^ 32 - 1 ≤ e.2) then allOut s (patternTrap 9 0 c.desc)
    else if rs.any fun r => decide (63 ≤ r.T.ld) then allOut s (.wait .resource)
    else
      let pos := c.pos + l.length
      let st := if pos = all.length then TwState.done else c.st
      (s.setTw lo.g n { c with pos := pos, st := st }, fun i _ =>
        let x := match l[i]? with | some e => e.1 + 2 ^ 32 * e.2 | none => 2 ^ 64 - 1
        .done { accs := [{ kind := .deliver f.d.toNat x f.pd.toNat (st == .done) }] })
/-- The lowest forward-only node that the root reaches (R487). -/
def TwCtx.oneWay (c : TwCtx) : Option Nat :=
  (List.range c.words.length).find? fun i => Map.contains (reached c.words c.rows c.cols) i && forwardOnly c.words 64 i
def actTwline (col : Bool) (f : Full) (lo : Ref) (s : State) (rs : List Ref) : State × (Nat → Ref → TOut) :=
  match twCheck f true s lo, s.tw lo.g (f.mod.toNat % 4) with
  | some o, _ => allOut s o
  | none, none => allOut s (useTrap 5 0)
  | none, some c =>
    let line := s.b32 lo f.b
    if (if col then c.cols else c.rows) ≤ line then allOut s (operandTrap 2)
    else match (if col then c.oneWay else none) with
    | some i => allOut s (.trap { cause := 0x1B, arg := 256 * i })
    | none => twDeliver f lo s rs { c with dirCol := col, line := line, pos := 0, st := .active }
def actTwnext (f : Full) (lo : Ref) (s : State) (rs : List Ref) : State × (Nat → Ref → TOut) :=
  match twCheck f true s lo, s.tw lo.g (f.mod.toNat % 4) with
  | some o, _ => allOut s o
  | none, none => allOut s (useTrap 5 0)
  | none, some c =>
    if c.st ≠ .active then
      allOut s (.done { accs := [{ kind := .deliver f.d.toNat (2 ^ 64 - 1) f.pd.toNat true }] })
    else twDeliver f lo s rs c

/-! ## Save images (R366, R370) -/

def TwState.code : TwState → Nat
  | .loaded => 0 | .active => 1 | .done => 2
def TwCtx.image (c : TwCtx) : List Byte :=
  leBytes 8 c.values.toNat ++ leBytes 8 c.rowptr.toNat ++ leBytes 4 c.rows ++ leBytes 4 c.cols ++ leBytes 2 c.fmtb
    ++ leBytes 1 c.words.length ++ leBytes 1 (1 + 2 * c.st.code + (if c.dirCol then 8 else 0)) ++ leBytes 4 c.seed
    ++ leBytes 4 c.line ++ leBytes 4 c.pos ++ leBytes 24 0 ++ c.words.flatMap (leBytes 8 ·)
/-- `twsave` (R370): the image as it stands, written in 16-byte units (R182), in ST of every thread of the issue. -/
def actTwsave (f : Full) (lo : Ref) (s : State) (rs : List Ref) : State × (Nat → Ref → TOut) :=
  let o := s.eo lo f
  match twCheck f false s lo with
  | some x => allOut s x
  | none =>
    if o % 64 ≠ 0 then allOut s (alignTrap 6 o)
    else if rs.any fun r => decide (63 ≤ r.T.st) then allOut s (.wait .resource)
    else
      let img := match s.tw lo.g (f.mod.toNat % 4) with | some c => c.image | none => List.replicate 64 0
      let x : NewAcc := { kind := .twsave o img (rs.map fun r => (r.g, r.t)), parts := cutsOf 16 o img.length }
      (s, fun i _ => .done (if i = 0 then { accs := [x] } else { st := 1 }))
/-- `twrest` (R370): the head as 16-byte events, then the words it counts, then the checks. -/
def actTwrest (f : Full) (lo : Ref) (s : State) (rs : List Ref) : State × (Nat → Ref → TOut) :=
  let o := s.eo lo f
  let n := f.mod.toNat % 4
  match twCheck f false s lo with
  | some x => allOut s x
  | none =>
    if o % 64 ≠ 0 then allOut s (alignTrap 6 o)
    else
      let bs := lo.imageBytes
      if bs.length < 64 then twAsk s lo rs n (BitVec.ofNat 64 o) (some lo.g) (pieces 0 64 16)
      else
        let x := leNat (bs.take 64)
        let nw := if bitN x 215 = 1 ∨ 64 < bitsN x 214 208 then 0 else bitsN x 214 208
        if bitN x 216 = 0 then allOut (s.emptyTw lo.g n) (.done {})
        else if bs.length < 64 + 8 * nw then twAsk s lo rs n (BitVec.ofNat 64 o) (some lo.g) (pieces 64 (8 * nw) 8)
        else
          let st := bitsN x 218 217
          let c : TwCtx := { desc := o, values := BitVec.ofNat 64 (bitsN x 63 0), rowptr := BitVec.ofNat 64 (bitsN x 127 64),
                             rows := bitsN x 159 128, cols := bitsN x 191 160, fmtb := bitsN x 207 192, words := wordsOf bs nw,
                             seed := bitsN x 255 224, st := if st = 0 then .loaded else if st = 1 then .active else .done,
                             dirCol := bitN x 219 == 1, line := bitsN x 287 256, pos := bitsN x 319 288 }
          let (s, out) := s.enterTw lo.g n c (decide (st = 3 ∨ bitsN x 223 220 ≠ 0 ∨ bitsN x 511 320 ≠ 0)) fun i => o + 64 + 8 * i
          allOut s out

/-! ## The instructions -/

def execTwld (f : Full) (s : State) : Host.Outcome State Fault Refusal := issueAll 0x190 f (twStep (actTwld f)) s
def execTwrow (f : Full) (s : State) : Host.Outcome State Fault Refusal := issueAll 0x191 f (twStep (actTwline false f)) s
def execTwcol (f : Full) (s : State) : Host.Outcome State Fault Refusal := issueAll 0x192 f (twStep (actTwline true f)) s
def execTwnext (f : Full) (s : State) : Host.Outcome State Fault Refusal := issueAll 0x193 f (twStep (actTwnext f)) s
def execTwsave (f : Full) (s : State) : Host.Outcome State Fault Refusal := issueAll 0x194 f (twStep (actTwsave f)) s
def execTwrest (f : Full) (s : State) : Host.Outcome State Fault Refusal := issueAll 0x195 f (twStep (actTwrest f)) s

end Sys2Proof.Machine
end

