-- ==== Sys2Proof/Machine/Matrix.lean ====
section
/-! DEFINITION. The matrix engine: tiles and accumulators (R375 to R380), loads and stores (R382 to R384), `mma` (R385, R386), loops
(R388 to R393), accumulator instructions (R394) and `permx.t` (R395). -/

namespace Sys2Proof.Machine

/-! ## Tiles, accumulators and exact sums -/

/-- A canonical table of bytes by place. -/
def sparseOf (l : List Byte) : Sparse Byte :=
  ((List.range l.length).zip l).filter fun e => e.2 != 0
def Group.tile (G : Group) (n : Nat) : Tile := Map.getD G.tiles {} n
def Group.setTile (G : Group) (n : Nat) (t : Tile) : Group := { G with tiles := Map.put {} G.tiles n t }
def Tile.row (t : Tile) (i : Nat) : List Byte := (List.range 128).map fun k => Map.getD t.data 0 (128 * i + k)
def Tile.word (t : Tile) (i j : Nat) : Nat := leNat ((List.range 4).map fun k => Map.getD t.data 0 (128 * i + 4 * j + k))
def Tile.rowTag (t : Tile) (i : Nat) : Nat := (Map.getD t.rowTags 0 i).toNat
def Group.acc (G : Group) (a i j : Nat) : Nat := (Map.getD G.accs 0 (1024 * a + 32 * i + j)).toNat
def Group.setAcc (G : Group) (a i j x : Nat) : Group := { G with accs := Map.put 0 G.accs (1024 * a + 32 * i + j) (BitVec.ofNat 32 x) }

/-- Elements per row of a tile format (R376). -/
def fmtK (fmt : Nat) : Nat :=
  if fmt = 8 ∨ fmt = 9 ∨ fmt = 14 then 128 else if fmt = 12 ∨ fmt = 13 then 64 else if fmt = 15 then 256 else 32
/-- An operand element: its value, and S4 where it is the reserved code (R150, R376). -/
def matElem (fmt b8p : Nat) (b8u b8inf : Bool) (p : Nat) : FVal × Flg :=
  let t := Ty.ofCode fmt
  if t.isFloat then ((fmtOf t (b8p + (if b8u then 8 else 0)) (if b8inf then 8 else 0)).decode p, 0)
  else let (x, fl) := intVal t p; (intFVal x, fl)
/-- Element k of a planar row of words under its row tag (R116, R376). -/
def planeElem (word : Nat → Nat) (tag k : Nat) : FVal :=
  let dh := bitsN tag 12 8
  let mag := (List.range dh).foldl (fun m j => 2 * m + bitN (word (j + 1)) k) 0
  planeVal (bitsN tag 7 0) (bitN (word 0) k == 1) mag dh (bitN tag 14 == 1 && bitN tag 13 == 0)
/-- Element k of a row of 128 bytes of a dense format. -/
def rowElem (fmt b8p : Nat) (b8u b8inf : Bool) (row : List Byte) (k : Nat) : FVal × Flg :=
  let bits := (Ty.ofCode fmt).bits
  let p := if bits = 4 then leNat ((row.drop (k / 2)).take 1) / 2 ^ (4 * (k % 2)) % 16 else leNat ((row.drop (k * (bits / 8))).take (bits / 8))
  matElem fmt b8p b8u b8inf p
def Tile.elem (t : Tile) (i k : Nat) : FVal × Flg :=
  if t.fmt = 16 then (planeElem (t.word i) (t.rowTag i) k, 0) else rowElem t.fmt t.b8p t.b8u t.b8inf (t.row i) k

/-- A sum of two numbers m × 2^e. -/
def addExp (m e n g : Int) : Int × Int := let q := min e g; (m * 2 ^ (e - q).toNat + n * 2 ^ (g - q).toNat, q)
/-- One value more in a sum; a product counts as a term (R164, R165). -/
def Sum.add (x : Sum) (v : FVal) (term : Bool) : Sum :=
  let x := { x with terms := x.terms + (if term then 1 else 0) }
  match v with
  | .nan _ => { x with nan := true, allNegZero := false }
  | .inf s => if s then { x with ninf := true, allNegZero := false } else { x with pinf := true, allNegZero := false }
  | .fin s m e =>
    let x := { x with allNegZero := x.allNegZero && s && m == 0 }
    if m = 0 then x
    else
      let a := addExp x.m x.e (if s then -(m : Int) else m) e
      let b := addExp x.am x.ae m e
      { x with m := a.1, e := a.2, am := b.1.toNat, ae := b.2 }
/-- Compare |a × 2^e| of integers with b × 2^g. -/
def leExp (a e b g : Int) : Bool := let q := min e g; decide (a * 2 ^ (e - q).toNat ≤ b * 2 ^ (g - q).toNat)
/-- Whether R165 allows a pattern as the result of a sum that is not zero. -/
def Sum.allows (x : Sum) (p : Nat) : Bool :=
  let bm : Int := (x.terms + 2) * x.am
  let be : Int := x.ae - 24
  match FFmt.f32.decode p with
  | .nan _ => false
  | .inf s =>
    let far := addExp x.m.natAbs x.e bm be
    decide (s = decide (x.m < 0)) && !(leExp far.1 far.2 (2 ^ 24 - 1) 104)
  | .fin s m e =>
    let d := addExp (if s then -(m : Int) else m) e (-x.m) x.e
    leExp d.1.natAbs d.2 bm be && (m != 0 || decide (s = decide (x.m < 0)))
/-- The FP32 result of a sum (R164, R165): a free value where the bound leaves one. -/
def Sum.result (x : Sum) (free : Nat) : Nat :=
  if x.nan ∨ (x.pinf ∧ x.ninf) then FFmt.f32.nan
  else if x.pinf then FFmt.f32.infPat false
  else if x.ninf then FFmt.f32.infPat true
  else if x.m = 0 then (if x.allNegZero then 2 ^ 31 else 0)
  else if x.allows (free % 2 ^ 32) then free % 2 ^ 32
  else (roundVal .f32 0 false (.fin (decide (x.m < 0)) x.m.natAbs x.e)).1
/-- The s32 result of an integer sum (R166). -/
def Sum.intResult (x : Sum) (sat : Bool) : Nat :=
  let v := x.m * 2 ^ x.e.toNat
  truncI (if sat then clampI v (-(2 ^ 31)) (2 ^ 31 - 1) else v) 32
/-- The start of a chain: the accumulator's word (R165, R377). -/
def Sum.ofAcc (isInt : Bool) (w : Nat) : Sum :=
  ({} : Sum).add (if isInt then intFVal (sextN w 32) else FFmt.f32.decode w) false

/-- Write the results of sums into an accumulator, with free values (R165). -/
def State.putSums (s : State) (g a : Nat) (isInt sat : Bool) (sums : Sparse Sum) : State :=
  let s' := s.modG g fun G => (sums.zip (List.range sums.length)).foldl (fun (G : Group) e =>
    let x := e.1.2
    G.setAcc a (e.1.1 / 32) (e.1.1 % 32) (if isInt then x.intResult sat else x.result (Config.accValue (s.free + e.2)))) G
  if isInt then s' else { s' with free := s'.free + sums.length }

/-! ## Common rules (R378 to R380) -/

/-- What a matrix instruction reads and writes. -/
structure MUse where
  rt : List Nat := []
  wt : List Nat := []
  ra : List Nat := []
  wa : List Nat := []
  /-- it needs the core's engine (R379) -/
  engine : Bool := false
deriving DecidableEq, Repr

/-- Whether a running loop of the core holds the engine: until its last step has started (R379). -/
def State.engineHeld (s : State) (core : Nat) : Bool :=
  s.groups.any fun (e : Nat × Group) => e.2.core == core && (match e.2.loop with | some l => decide (l.step + 1 < l.steps) || l.service.isSome | none => false)
/-- Whether an earlier matrix instruction of the group stands in the way (R379). -/
def State.matBusy (s : State) (g : Nat) (u : MUse) : Bool :=
  match s.group? g with
  | none => false
  | some G =>
    let tl (n : Nat) (w : Bool) : Bool := G.tileOps.any fun o => !o.isAcc && o.num == n && (w || o.load)
    let ac (n : Nat) (w : Bool) : Bool := G.tileOps.any fun o => o.isAcc && o.num == n && (w || o.load)
    let lp (n : Nat) : Bool := G.loop.any (·.acc == n)
    u.rt.any (tl · false) || u.wt.any (tl · true) || u.ra.any (fun n => ac n false || lp n) || u.wa.any (fun n => ac n true || lp n)
      || (u.engine && (s.engineHeld G.core))
/-- A tile or accumulator that is not granted (R378). -/
def MUse.denied (u : MUse) (G : Group) : Bool :=
  ((u.rt ++ u.wt).any fun n => decide (G.lr.tiles ≤ n)) || ((u.ra ++ u.wa).any fun n => decide (G.lr.accs ≤ n))

/-- One act per issue group: the grants, the checks of `pre` on the lowest contributing lane, a fault held for the accumulator
(R467), the interlocks, then the effect; `act` answers for every contributing thread. -/
def matStep (use : MUse) (pre : State → Ref → Option TOut) (act : State → Ref → List Ref → State × TOut) (s : State) (rs : List Ref) :
    State × List (Ref × TOut) :=
  let all (o : TOut) : List (Ref × TOut) := rs.map fun r => (r, o)
  match rs.head? with
  | none => (s, [])
  | some lo =>
    if use.denied lo.G then (s, all (useTrap 3 0))
    else match pre s lo with
    | some o => (s, all o)
    | none =>
      let hit (r : Ref) : Bool := r.T.held.any fun h => match h.acc with | some a => use.ra.contains a || use.wa.contains a | none => false
      if rs.any hit then (s, rs.map fun r => (r, if hit r then .fault else .stay))
      else if s.matBusy lo.g use then (s, all (.wait .resource))
      else
        let (s, o) := act s lo rs
        (s, all o)

/-- Alignment to 16 bytes of a value (R382). -/
def al16 (x : Nat) : Option TOut := if x % 16 = 0 then none else some (alignTrap 4 x)

def TileOp.rowAddr (o : TileOp) (i : Nat) : Addr := addOff o.addr (i * o.stride)
def TileOp.rowOff (o : TileOp) (i : Nat) : Nat := truncI (o.off + i * o.stride) 32
/-- Rows an operation reads or writes, and the bytes of one (R382 to R384, R394). -/
def TileOp.rows (o : TileOp) : Nat × Nat :=
  if o.trans then (fmtK o.ty.code, 32 * (o.ty.bits / 8))
  else if o.isAcc ∧ ¬ o.load then (32, 32 * o.ty.bits / 8)
  else (32, 128)
/-- Its events: row, byte and length in the row; device memory in sectors, scratchpad in 16-byte units (R182, R380), a planar row whole
(R129). -/
def TileOp.cuts (o : TileOp) : List (Nat × Nat × Nat) :=
  let (n, w) := o.rows
  (List.range n).flatMap fun i =>
    if o.planar.isSome then [(i, 0, w)]
    else (cutsOf (if o.pad then 16 else 32) (if o.pad then o.rowOff i else offOf (o.rowAddr i)) w).map fun c => (i, c.1, c.2)
/-- A tile or accumulator load or store begins: TL of every contributing thread (R380). No rule admits it or gives it a footprint: it
takes no edges of the dependence table, and neither do loops and the Twill's reads (log 76). -/
def startTileOp (o : TileOp) (s : State) (lo : Ref) (rs : List Ref) : State × TOut :=
  if (rs.any fun r => decide (15 ≤ r.T.tl)) ∨ ¬ (rs.all fun r => s.drained r.g r.t) then (s, .wait .resource)
  else
    let o := { o with id := s.next, order := s.next, tids := rs.map (·.t), units := List.range o.cuts.length }
    let s := { s with next := s.next + 1 }.modG lo.g fun G => { G with tileOps := G.tileOps ++ [o] }
    (rs.foldl (fun (s : State) r => s.modT r.g r.t fun T => { T with tl := T.tl + 1 }) s, .done {})

/-- The operands of a dense load or store (R382). -/
def tileOpOf (f : Full) (s : State) (lo : Ref) (isAcc load pad trans : Bool) : TileOp :=
  { id := 0, order := 0, tids := [], isAcc := isAcc, num := f.d.toNat, load := load, pad := pad,
    addr := if pad then 0 else BitVec.ofNat 64 (s.op64 lo f.a.toNat), off := if pad then s.op32 lo f.a.toNat else 0,
    stride := sextN (s.b32 lo f.b) 32, ty := f.ty, ext := f.ext.toNat, mod := f.mod.toNat, trans := trans }
def actTile (isAcc load pad trans : Bool) (f : Full) (s : State) (rs : List Ref) : State × List (Ref × TOut) :=
  let n := f.d.toNat
  let use : MUse := if isAcc then (if load then { wa := [n] } else { ra := [n] }) else (if load then { wt := [n] } else { rt := [n] })
  matStep use
    (fun s lo => (al16 (if pad then s.op32 lo f.a.toNat else s.op64 lo f.a.toNat)).orElse fun _ => al16 (s.b32 lo f.b))
    (fun s lo rs => startTileOp (tileOpOf f s lo isAcc load pad trans) s lo rs) s rs
/-- `tld.pl` (R383). -/
def actTldPl (f : Full) (s : State) (rs : List Ref) : State × List (Ref × TOut) :=
  matStep { wt := [f.d.toNat] } (fun s lo => if 65536 ≤ s.b32 lo f.b then some (operandTrap 2) else none)
    (fun s lo rs => startTileOp { tileOpOf f s lo false true true false with
      planar := some (s.b32 lo f.b, s.op32 lo f.a.toNat, f.c.toNat) } s lo rs) s rs

/-! ## The completion of a tile operation (R380, R382 to R384, R394, R467) -/

/-- What an operand access of the engine meets. -/
inductive MFail
  | trap (t : Trap)
  | page (buf pg : Nat) (a : Addr)
  | poison (sector : Nat) (a : Addr)
deriving DecidableEq, Repr

/-- A read or write check of the engine: access kind 7, deferred (R463); REMOTE is refused (R345, log 21). -/
def State.matPort (s : State) (G : Group) (k : PKind) (a : Addr) (n : Nat) : Except MFail (List Nat) :=
  match s.port_ G.ctx (s.renOf G.item) k a n with
  | .refused cause need => .error (.trap (portTrap 7 cause need a 1))
  | .page buf pg => .error (.page buf pg a)
  | .remote _ _ => .error (.trap { cause := 0x18, arg := 4, addr := a.toNat, cls := 1 })
  | .ok ps => match s.poisonedIn (k == .store) ps with
    | some x => .error (.poison x a)
    | none => .ok ps
/-- Each of a list of rows checked. -/
def State.matPorts (s : State) (G : Group) (k : PKind) : List (Addr × Nat) → Except MFail (List (List Nat))
  | [] => .ok []
  | (a, n) :: r => match s.matPort G k a n with
    | .error e => .error e
    | .ok ps => match s.matPorts G k r with | .error e => .error e | .ok l => .ok (ps :: l)
def PlFail.mat (e : PlFail) (h b : Nat) : MFail :=
  match e with
  | .page buf pg a => .page buf pg a
  | .poison x a => .poison x a
  | e => .trap (e.trap 7 1 h b)
/-- One planar row: its 32 words, its row tag, and the addresses read (R383). -/
def State.planarRow (s : State) (G : Group) (h b d : Nat) : Except MFail (List Nat × Nat × List Addr) :=
  match s.pdeFor G.ctx h b false with
  | .error e => .error (e.mat h b)
  | .ok p => match s.readBlock G.ctx (s.renOf G.item) p b (planesTo p d) with
    | .error e => .error (e.mat h b)
    | .ok (x, as) => .ok ((List.range 32).map fun j => match x.planes.find? (·.1 == j) with | some w => w.2 | none => 0, (ldpResult p d 0 x).2, as)
def State.planarRows (s : State) (G : Group) (h d : Nat) : List Nat → Except MFail (List (List Nat × Nat × List Addr))
  | [] => .ok []
  | b :: r => match s.planarRow G h b d with
    | .error e => .error e
    | .ok x => match s.planarRows G h d r with | .error e => .error e | .ok l => .ok (x :: l)

/-- An accumulator's row as `accst` writes it (R394). -/
def accRow (G : Group) (a i : Nat) (ty : Ty) (ext mod : Nat) : List Byte :=
  let ws := (List.range 32).map fun j => G.acc a i j
  match ty with
  | .b32 | .s32 | .f32 => ws.flatMap (leBytes 4 ·)
  | .s4 => (List.range 16).flatMap fun k =>
      let q (j : Nat) : Nat := (convert .s32 .f32 .s4 .f32 0 true (ws.getD j 0)).1 % 16
      leBytes 1 (q (2 * k) + 16 * q (2 * k + 1))
  | t =>
    let src : Ty := if t.isFloat then .f32 else .s32
    ws.flatMap fun w => leBytes (t.bits / 8) (convert src .f32 t (fmtOf t ext mod) (mod % 4) (bitN mod 2 == 1) w).1
/-- The tile tag of a dense TYPE (R382). -/
def denseTile (ty : Ty) (ext mod : Nat) (bytes : List Byte) : Tile :=
  { data := sparseOf bytes, fmt := ty.code, valid := true, b8p := if ty = .f8 then ext % 8 else 0,
    b8u := decide (ty = .f8 ∧ 8 ≤ ext), b8inf := decide (ty = .f8 ∧ 8 ≤ mod) }

/-- The operation is over: TL falls, and a fault is held by every thread that issued it (R380). -/
def State.tileOver (s : State) (g : Nat) (o : TileOp) (t : Option Trap) : State :=
  let s := s.modG g fun G => { G with tileOps := G.tileOps.filter (·.id != o.id) }
  o.tids.foldl (fun (s : State) tid =>
    let s := s.modT g tid fun T => { T with tl := T.tl - 1 }
    match t, s.group? g with
    | some t, some G => s.holdFault G.ctx g tid { order := o.order, trap := t }
    | _, _ => s) s
def State.modTile (s : State) (g id : Nat) (f : TileOp → TileOp) : State :=
  s.modG g fun G => { G with tileOps := G.tileOps.map fun x => if x.id = id then f x else x }
def State.tileFail (s : State) (g : Nat) (G : Group) (o : TileOp) (e : MFail) : State :=
  match e with
  | .trap t => s.tileOver g o (some t)
  | .poison x a => s.poisonKill G.ctx a x
  | .page buf pg pa => let (id, s) := s.startPage G.ctx buf pg; s.modTile g o.id fun x => { x with service := some (id, pa) }

/-- Bytes of a loaded tile or accumulator from its rows (R382). -/
def TileOp.place (o : TileOp) : List Byte :=
  let byte (i k : Nat) : Byte := Map.getD o.got 0 (128 * i + k)
  if o.trans then
    let w := o.ty.bits / 8
    (List.range 32).flatMap fun i => (List.range (fmtK o.ty.code)).flatMap fun k => (List.range w).map fun b => byte k (i * w + b)
  else (List.range 32).flatMap fun i => (List.range 128).map fun k => byte i k
def Group.putLoad (G : Group) (o : TileOp) : Group :=
  if o.planar.isSome then G.setTile o.num { data := o.got, fmt := 16, valid := true, rowTags := o.gotTags }
  else if o.isAcc then
    let bytes := o.place
    (List.range 1024).foldl (fun (G : Group) k => G.setAcc o.num (k / 32) (k % 32) (leNat ((bytes.drop (4 * k)).take 4))) G
  else G.setTile o.num (denseTile o.ty o.ext o.mod o.place)
/-- Bytes of row i of a store. -/
def Group.storeRow (G : Group) (o : TileOp) (i : Nat) : List Byte :=
  if o.isAcc then accRow G o.num i o.ty o.ext o.mod else (G.tile o.num).row i
/-- What an operation has read. -/
def TileOp.gain (o : TileOp) (i from_ : Nat) (bs : List Byte) : TileOp :=
  { o with got := ((List.range bs.length).zip bs).foldl (fun (m : Sparse Byte) e => Map.put 0 m (128 * i + from_ + e.1) e.2) o.got }

/-- Whether the whole operation can take place: it completes whole or has no effect (R467). -/
def State.tileReady (s : State) (G : Group) (o : TileOp) : Except MFail Unit :=
  match o.planar with
  | some (h, b, d) => (s.planarRows G h d ((List.range 32).map (b + ·))).map fun _ => ()
  | none =>
    if o.pad then .ok ()
    else (s.matPorts G (if o.load then .load else .store) ((List.range o.rows.1).map fun i => (o.rowAddr i, o.rows.2))).map fun _ => ()
/-- The first page of a store's stamp words that it waits for (R514), with the address written. -/
def State.tileStampMiss (s : State) (G : Group) (o : TileOp) : Option (Nat × Nat × Addr) :=
  if o.load ∨ o.pad then none
  else (List.range o.rows.1).findSome? fun i =>
    (s.stampMiss G.ctx G.stampLsn o.dead (o.rowAddr i) o.rows.2).map fun x => (x.1, x.2, o.rowAddr i)
/-- One event of an operation that can take place. -/
def State.tileUnit (s : State) (g : Nat) (G : Group) (o : TileOp) (u : Nat) : State :=
  match o.cuts[u]? with
  | none => s
  | some (i, k, n) =>
    let taken (s : State) (f : TileOp → TileOp) : State := s.modTile g o.id fun x => { f x with units := x.units.filter (· != u) }
    match o.planar with
    | some (h, b, d) =>
      (match s.planarRow G h (b + i) d with
      | .error _ => s
      | .ok (ws, tag, as) =>
        let s := as.foldl (fun (s : State) a => s.traceNote g false a 4) s
        let s := s.blockFill true G.ctx (s.renOf G.item) G.core h (b + i) d
        taken s fun x => { x.gain i 0 (ws.flatMap (leBytes 4 ·)) with gotTags := Map.put 0 x.gotTags i (BitVec.ofNat 32 tag) })
    | none =>
      if o.pad then
        (if o.load then taken (s.tell g) fun x => x.gain i k (G.padBytes (o.rowOff i + k) n)
          else taken ((s.padWrite g (o.rowOff i + k) (((G.storeRow o i).drop k).take n)).tell g) id)
      else
        let a := addOff (o.rowAddr i) (k : Nat)
        match s.matPort G (if o.load then .load else .store) a n with
        | .error _ => s
        | .ok ps =>
          if o.load then
            taken (((s.checkAll ps).traceNote g false a n).tell g) fun x => x.gain i k (s.gather ps)
          else if s.stalledAt ps then s
          else
            let r := s.devRoom ps
            if r.2 then
              let w : Writer := { ctx := G.ctx, stamp := G.stampLsn, grp := g, tid := o.tids.headD 0 }
              taken (((r.1.writeDev w a (ps.zip (((G.storeRow o i).drop k).take n))).traceNote g true a n).tell g) id
            else r.1
/-- Events of an operation land; with the last one a load is in its tile or accumulator, and the operation is over (R380, R467). -/
def State.tileLand (s : State) (g id : Nat) (pick : Nat → Bool) : State :=
  match s.group? g with
  | none => s
  | some G =>
    match G.tileOps.find? (·.id == id) with
    | none => s
    | some o =>
      if o.service.isSome ∨ s.frozen G.ctx then s
      else match s.tileReady G o, s.tileStampMiss G o with
      | .error e, _ => s.tileFail g G o e
      | .ok _, some (buf, pg, a) =>
        let (sid, s) := s.startPage G.ctx buf pg
        s.modTile g id fun x => { x with service := some (sid, a), stampWait := true }
      | .ok _, none =>
        let s := (o.units.filter pick).foldl (fun (s : State) u => s.tileUnit g G o u) s
        match (s.group? g).bind fun G => G.tileOps.find? (·.id == id) with
        | none => s
        | some o =>
          if o.units ≠ [] then s
          else (if o.load then s.modG g (·.putLoad o) else s).tileOver g o none

/-! ## Pairings and steps (R385, R386) -/

/-- Whether the accumulator is s32, and K per step; none for a combination outside R385. -/
def pairing (a b : Nat) : Option (Bool × Nat) :=
  if a = 14 ∧ b = 14 then some (false, 128)
  else if (a = 12 ∨ a = 13) ∧ (b = 12 ∨ b = 13) then some (false, 64)
  else if a = 11 ∧ b = 11 then some (false, 32)
  else if (a = 8 ∨ a = 9) ∧ (b = 8 ∨ b = 9) then some (true, 128)
  else if a = 15 ∧ b = 15 then some (true, 256)
  else if a = 16 ∧ (b = 14 ∨ b = 13) then some (false, 32)
  else none
def pairTrap (a : Nat) (va : Bool) (b : Nat) (vb : Bool) : TOut :=
  .trap { cause := 0x07, arg := a + (if va then 0 else 2 ^ 7) + 2 ^ 8 * b + (if vb then 0 else 2 ^ 15) }
/-- A row's elements from k on, and S4 where one is the reserved code (R160). -/
def Tile.elems (t : Tile) (i from_ n : Nat) : List FVal × Flg :=
  (List.range n).foldl (fun (acc : List FVal × Flg) k => let (v, fl) := t.elem i (from_ + k); (acc.1 ++ [v], acc.2 ||| fl)) ([], 0)
/-- A sum with the products of two rows (R164). -/
def Sum.dot (x : Sum) (a b : List FVal) : Sum := (a.zip b).foldl (fun (x : Sum) e => x.add (exactMul e.1 e.2).1 true) x
/-- The running sum of element (i, j) of a chain, begun at the accumulator's word. -/
def Group.sumAt (G : Group) (sums : Sparse Sum) (isInt : Bool) (a i j : Nat) : Sum :=
  (Map.get? sums (32 * i + j)).getD (Sum.ofAcc isInt (G.acc a i j))
/-- One row i of sums gains the products of A's row with every row of B. -/
def Group.sumRow (G : Group) (isInt : Bool) (a i : Nat) (sums : Sparse Sum) (ra : List FVal) (rb : List (List FVal)) : Sparse Sum :=
  ((List.range rb.length).zip rb).foldl (fun (m : Sparse Sum) e =>
    Map.set m (32 * i + e.1) ((G.sumAt m isInt a i e.1).dot ra e.2)) sums

def segOf (f : Full) : Nat := f.c.toNat
def tileNumB (f : Full) : Nat := numB f
/-- `mma` (R386). -/
def actMma (f : Full) (s : State) (rs : List Ref) : State × List (Ref × TOut) :=
  let a := f.d.toNat
  matStep { rt := [f.a.toNat, tileNumB f], ra := [a], wa := [a], engine := true } (fun _ _ => none)
    (fun s lo _ =>
      match s.group? lo.g with
      | none => (s, .stay)
      | some G =>
        let ta := G.tile f.a.toNat
        let tb := G.tile (tileNumB f)
        let bad := pairTrap ta.fmt ta.valid tb.fmt tb.valid
        match pairing ta.fmt tb.fmt with
        | none => (s, bad)
        | some (isInt, K) =>
          let lim := if ta.fmt = 16 then (if tb.fmt = 14 then 4 else 2) else 1
          if ¬ ta.valid ∨ ¬ tb.valid then (s, bad)
          else if lim ≤ segOf f then (s, operandTrap 3)
          else
            let rowsB := (List.range 32).map fun j => tb.elems j (32 * segOf f) K
            let rowsA := (List.range 32).map fun i => ta.elems i 0 K
            let fl := (rowsA ++ rowsB).foldl (fun x r => x ||| r.2) 0
            let sums := ((List.range 32).zip rowsA).foldl (fun (m : Sparse Sum) e => G.sumRow isInt a e.1 m e.2.1 (rowsB.map (·.1))) []
            (s.putSums lo.g a isInt (bitN f.mod.toNat 2 == 1) sums, .done { flags := fl })) s rs

/-! ## Loops (R388 to R393) -/

/-- An operand descriptor, and whether it keeps R388. -/
def MDesc.ofNat (x : Nat) : MDesc × Bool :=
  let fmt := bitsN x 120 116
  let planar := decide (fmt = 16)
  let d : MDesc := { addr := BitVec.ofNat 64 (bitsN x 63 0), stride := sextN (bitsN x 95 64) 32, inc := sextN (bitsN x 115 96) 20,
                     fmt := fmt, b8p := bitsN x 123 121, b8u := bitN x 124 == 1, b8inf := bitN x 125 == 1, trans := bitN x 126 == 1,
                     blk := bitsN x 31 0, handle := bitsN x 47 32, depth := bitsN x 52 48 }
  let f8 := if fmt = 14 then decide (d.b8p ≠ 0) else d.b8p == 0 && !d.b8u && !d.b8inf
  let pl := !planar || decide (bitsN x 63 53 = 0 ∧ 1 ≤ d.depth ∧ d.depth ≤ 24)
  (d, f8 && pl && decide (bitN x 127 = 0 ∧ (fmt = 8 ∨ fmt = 9 ∨ (11 ≤ fmt ∧ fmt ≤ 16))) && !(d.trans && (planar || fmt == 15)))
def MDesc.aligned (d : MDesc) : Option TOut :=
  if d.fmt = 16 then none
  else (al16 d.addr.toNat).orElse fun _ => (al16 (truncI d.stride 32)).orElse fun _ => al16 (truncI d.inc 20)

/-- Row i of an operand in step st: its elements, S4, and the accesses made (R389). -/
def State.loopRow (s : State) (G : Group) (d : MDesc) (K st i : Nat) : Except MFail (List FVal × Flg × List (Addr × Nat)) :=
  if d.fmt = 16 then
    match s.planarRow G d.handle (truncI (d.blk + i * d.stride + st * d.inc) 32) d.depth with
    | .error e => .error e
    | .ok (ws, tag, as) => .ok ((List.range K).map fun k => planeElem (ws.getD · 0) tag k, 0, as.map fun a => (a, 4))
  else
    let bits := (Ty.ofCode d.fmt).bits
    let w := bits / 8
    let reads : List (Addr × Nat) :=
      if d.trans then (List.range K).map fun (k : Nat) => (addOff d.addr (k * d.stride + st * d.inc + (i * w : Nat)), w)
      else [(addOff d.addr (i * d.stride + st * d.inc), K * bits / 8)]
    match s.matPorts G .load reads with
    | .error e => .error e
    | .ok pss =>
      let row := pss.flatMap s.gather
      let (vs, fl) := (List.range K).foldl (fun (acc : List FVal × Flg) k =>
        let (v, fl) := rowElem d.fmt d.b8p d.b8u d.b8inf row k
        (acc.1 ++ [v], acc.2 ||| fl)) ([], 0)
      .ok (vs, fl, reads)
def State.loopRows (s : State) (G : Group) (d : MDesc) (K st : Nat) : List Nat → Except MFail (List (List FVal × Flg × List (Addr × Nat)))
  | [] => .ok []
  | i :: is => match s.loopRow G d K st i with
    | .error e => .error e
    | .ok x => match s.loopRows G d K st is with | .error e => .error e | .ok l => .ok (x :: l)

/-- A loop enters the engine (R389). -/
def State.startLoop (s : State) (lo : Ref) (rs : List Ref) (k : LoopKind) (a steps : Nat) (sat isInt : Bool) : State × TOut :=
  let l : MLoop := { order := s.next, kind := k, acc := a, sat := sat, steps := steps, isInt := isInt, tids := rs.map (·.t),
                     charge := if 65536 < steps then s.leaveId lo.g else 0 }
  ({ s with next := s.next + 1 }.modG lo.g fun G => { G with loop := some l, mrow := 0x40 }, .done {})
/-- What a loop needs before it starts: its group's last loop over, the threads' earlier accesses placed, and its leave. -/
def loopReady (steps : Nat) (s : State) (lo : Ref) (rs : List Ref) (go : State → State × TOut) : State × TOut :=
  if (match s.group? lo.g with | some G => G.loop.isSome | none => true) || !(rs.all fun r => s.drained r.g r.t) then (s, .wait .resource)
  else if 65536 < steps then withLeave 2 s lo go else go s

/-- `mloop` (R388, R389). -/
def actMloop (f : Full) (s : State) (rs : List Ref) : State × List (Ref × TOut) :=
  let a := f.d.toNat
  let da (s : State) (lo : Ref) := MDesc.ofNat (s.op128 lo f.a.toNat)
  let db (s : State) (lo : Ref) := MDesc.ofNat (s.op128 lo f.c.toNat)
  matStep { ra := [a], wa := [a], engine := true }
    (fun s lo =>
      if ¬ (da s lo).2 then some (operandTrap 1)
      else if s.b32 lo f.b = 0 then some (operandTrap 2)
      else if ¬ (db s lo).2 then some (operandTrap 3)
      else ((da s lo).1.aligned.orElse fun _ => (db s lo).1.aligned).orElse fun _ =>
        if (pairing (da s lo).1.fmt (db s lo).1.fmt).isNone then some (pairTrap (da s lo).1.fmt true (db s lo).1.fmt true) else none)
    (fun s lo rs =>
      let n := s.b32 lo f.b
      let isInt := match pairing (da s lo).1.fmt (db s lo).1.fmt with | some p => p.1 | none => false
      loopReady n s lo rs fun s => s.startLoop lo rs (.dense (da s lo).1 (db s lo).1) a n (bitN f.mod.toNat 2 == 1) isInt) s rs

/-- The entries of the 32 lines of a sparse loop with their value indices (R392). -/
def sparseLines (s : State) (lo : Ref) (c : TwCtx) (trans : Bool) (row0 : Nat) : Nat → Except TOut (State × List (List (Nat × Nat)))
  | 0 => .ok (s, [])
  | n + 1 =>
    let line := row0 + (31 - n)
    if (if trans then c.cols else c.rows) ≤ line then
      match sparseLines s lo c trans row0 n with | .error o => .error o | .ok (s, l) => .ok (s, [] :: l)
    else match twEntries s lo c trans line with
      | .error o => .error o
      | .ok (s, es) => match sparseLines s lo c trans row0 n with | .error o => .error o | .ok (s, l) => .ok (s, es :: l)

/-- `mlsp` and `mlsp.t` (R392, R393). -/
def actMlsp (trans : Bool) (f : Full) (s : State) (rs : List Ref) : State × List (Ref × TOut) :=
  let a := f.d.toNat
  let cn := f.mod.toNat % 4
  let dx (s : State) (lo : Ref) := MDesc.ofNat (s.op128 lo f.c.toNat)
  matStep { ra := [a], wa := [a], engine := true }
    (fun s lo => twCheck f true s lo)
    (fun s lo rs =>
      match s.tw lo.g cn with
      | none => (s, useTrap 5 0)
      | some c =>
        let row0 := s.b32 lo f.b
        let x := (dx s lo).1
        let vf := c.fmtb % 256
        if (if trans then c.cols else c.rows) ≤ row0 then (s, operandTrap 2)
        else if ¬ (dx s lo).2 ∨ x.inc ≠ 0 ∨ x.trans then (s, operandTrap 3)
        else match x.aligned with
        | some o => (s, o)
        | none => match (if trans then c.oneWay else none) with
          | some i => (s, .trap { cause := 0x1B, arg := 256 * i })
          | none => match (if x.fmt = 16 then none else pairing vf x.fmt) with
            | none => (s, pairTrap (vf % 32) true x.fmt true)
            | some (isInt, _) => match sparseLines s lo c trans row0 32 with
              | .error o => (s, o)
              | .ok (s', ls) =>
                if ls.any (fun l => l.any fun e => decide (2 ^ 32 - 1 ≤ e.2)) then (s, patternTrap 9 0 c.desc)
                else
                  let steps := ls.foldl (fun n l => n + (l.length + 31) / 32) 0
                  let (s'', o) := loopReady steps s' lo rs fun s =>
                    s.startLoop lo rs (.sparse cn row0 x trans) a steps (bitN f.mod.toNat 2 == 1) isInt
                  (s'', o)) s rs

/-- The running loop's `$mrow` (R390). -/
def MLoop.mrowWord (l : MLoop) : Word := BitVec.ofNat 32 (l.step % 2 ^ 24 * 256 + 0x40 + l.rows % 64)
def State.setLoop (s : State) (g : Nat) (l : MLoop) : State := s.modG g fun G => { G with loop := some l, mrow := l.mrowWord }
/-- The context a sparse loop leaves (R371). -/
def Group.endSparse (G : Group) (l : MLoop) : Group :=
  match l.kind with
  | .sparse c .. => { G with tw := Map.modify G.tw c fun (x : TwCtx) => { x with st := .loaded, dirCol := false, line := 0, pos := 0 } }
  | .dense .. => G
/-- The record of an exited group follows its loop (log 86). -/
def State.lateTrace (s : State) (g : Nat) : State := match s.group? g with | some G => if G.exiting then s.writeTrace g else s | none => s
/-- A loop stopped by a fault (R467): the accumulator holds the sums so far and the threads that issued the loop hold the trap. -/
def State.stopLoop (s : State) (g : Nat) (l : MLoop) (t : Trap) : State :=
  let s := (s.putSums g l.acc l.isInt l.sat l.sums).modG g fun G => ({ G with loop := none, mrow := l.mrowWord } : Group).endSparse l
  (l.tids.foldl (fun (s : State) tid =>
    match s.group? g with
    | some G => s.holdFault G.ctx g tid { order := l.order, trap := t, acc := some l.acc }
    | none => s) s).lateTrace g
/-- What a failing operand read does to the loop (R467). -/
def State.failLoop (s : State) (g : Nat) (G : Group) (l : MLoop) (e : MFail) : State :=
  match e with
  | .trap t => s.stopLoop g l t
  | .poison x a => s.poisonKill G.ctx a x
  | .page buf pg pa => let (id, s) := s.startPage G.ctx buf pg; s.setLoop g { l with service := some (id, pa) }
def State.noteReads (s : State) (g : Nat) (l : List (Addr × Nat)) : State :=
  l.foldl (fun (s : State) e => s.traceNote g false e.1 e.2) s
/-- The planar lines that row i of an operand fills in step st (R137, R389). -/
def State.rowFill (s : State) (G : Group) (d : MDesc) (st i : Nat) : State :=
  if d.fmt = 16 then s.blockFill true G.ctx (s.renOf G.item) G.core d.handle (truncI (d.blk + i * d.stride + st * d.inc) 32) d.depth else s

/-- The rows of one dense step, from the first not completed (R389). -/
def State.denseRows (s : State) (g : Nat) (G : Group) (a : MDesc) (K : Nat) (rb : List (List FVal)) (l : MLoop) : List Nat → State
  | [] => s.setLoop g { l with rows := 0, step := l.step + 1 }
  | i :: is =>
    match s.loopRow G a K l.step i with
    | .error e => s.failLoop g G l e
    | .ok (vs, fl, reads) =>
      ((s.noteReads g reads).rowFill G a l.step i).denseRows g G a K rb
        { l with sums := G.sumRow l.isInt l.acc i l.sums vs rb, rows := i + 1, flags := l.flags ||| fl } is
/-- One value of a sparse operand (R354, R392). -/
def State.sparseValue (s : State) (G : Group) (c : TwCtx) (v : Nat) : Except MFail (FVal × Flg × Addr × Nat) :=
  let fmt := c.fmtb % 256
  let bits := (Ty.ofCode fmt).bits
  let a := addOff c.values (v * bits / 8 : Nat)
  let n := (bits + 7) / 8
  match s.matPort G .load a n with
  | .error e => .error e
  | .ok ps =>
    let (x, fl) := rowElem fmt (bitsN c.fmtb 10 8) (bitN c.fmtb 11 == 1) (bitN c.fmtb 12 == 1) (s.gather ps) (if bits = 4 then v % 2 else 0)
    .ok (x, fl, a, n)
/-- The entries of one sparse step read and added to line i (R392, R393). -/
def State.sparseAdd (s : State) (G : Group) (c : TwCtx) (x : MDesc) (i : Nat) (l : MLoop) (reads : List (Addr × Nat)) :
    List (Nat × Nat) → Except MFail (MLoop × List (Addr × Nat))
  | [] => .ok (l, reads)
  | (e, v) :: es =>
    match s.sparseValue G c v with
    | .error q => .error q
    | .ok (val, fl, va, n) => match s.loopRow G x 32 0 e with
      | .error q => .error q
      | .ok (vs, fx, rx) =>
        s.sparseAdd G c x i { l with sums := G.sumRow l.isInt l.acc i l.sums [val] (vs.map fun y => [y]), flags := l.flags ||| fl ||| fx }
          (reads ++ (va, n) :: rx) es
/-- The line of a sparse loop with entries left, from the one it is at. -/
def nextLine (ls : List (List (Nat × Nat))) (rows pos : Nat) : Nat × Nat :=
  if pos < (ls.getD rows []).length then (rows, pos)
  else match (List.range 32).find? fun i => decide (rows < i) && !(ls.getD i []).isEmpty with
    | some i => (i, 0)
    | none => (32, 0)

/-- MATRIX_LOOP_STEP: one K-step (R389, R393, R467). -/
def State.loopStep (s : State) (g : Nat) : State :=
  match s.group? g with
  | none => s
  | some G =>
    match G.loop with
    | none => s
    | some l =>
      if l.steps ≤ l.step ∨ l.service.isSome ∨ s.frozen G.ctx then s
      else match l.kind with
      | .dense a b =>
        let K := match pairing a.fmt b.fmt with | some p => p.2 | none => 0
        (match s.loopRows G b K l.step (List.range 32) with
        | .error e => s.failLoop g G l e
        | .ok rb =>
          let l := { l with flags := rb.foldl (fun x r => x ||| r.2.1) l.flags }
          let s := (List.range 32).foldl (fun (s : State) i => s.rowFill G b l.step i) (s.noteReads g (rb.flatMap fun r => r.2.2))
          (s.tell g).denseRows g G a K (rb.map (·.1)) l ((List.range 32).drop l.rows))
      | .sparse cn row0 x tr =>
        (match Map.get? G.tw cn with
        | none => s
        | some c => match sparseLines s ⟨g, 0, G, {}⟩ c tr row0 32 with
          | .error (.trap t) => s.stopLoop g l { t with cls := 1 }
          | .error (.page _ buf pg a) => s.failLoop g G l (.page buf pg a)
          | .error _ => s
          | .ok (s, ls) =>
            let (row, pos) := nextLine ls l.rows l.pos
            let l := { l with rows := row, pos := pos }
            let es := ((ls.getD row []).drop pos).take 32
            match s.sparseAdd G c x row l [] es with
            | .error e => s.failLoop g G l e
            | .ok (l, reads) =>
              let pos := pos + es.length
              let whole := decide ((ls.getD row []).length ≤ pos)
              ((s.noteReads g reads).tell g).setLoop g { l with step := l.step + 1, rows := if whole then row + 1 else row, pos := if whole then 0 else pos })

/-- MATRIX_LOOP_END: the sums enter the accumulator (R389). -/
def State.loopEnd (s : State) (g : Nat) : State :=
  match s.group? g with
  | none => s
  | some G =>
    match G.loop with
    | none => s
    | some l =>
      if l.step < l.steps ∨ s.frozen G.ctx then s
      else ((s.putSums g l.acc l.isInt l.sat l.sums).modG g fun G =>
        (({ G with loop := none, mrow := BitVec.ofNat 32 (l.steps % 2 ^ 24 * 256) } : Group).endSparse l).raise l.flags).lateTrace g

/-- `mrst` (R391). -/
def actMrst (off : Bool) (f : Full) (s : State) (rs : List Ref) : State × List (Ref × TOut) :=
  (rs.foldl (fun (s : State) r => s.modT r.g r.t fun T => { T with restart := if off then none else some (relB r f.b) }) s,
    rs.map fun r => (r, .done {}))

/-! ## Accumulators and tile permutation (R384, R394, R395) -/

/-- `tzero` and `tzero.pl` (R384). -/
def zeroTile (f : Full) (planar : Bool) : Tile :=
  if planar then { fmt := 16, valid := true, rowTags := (List.range 32).map fun i => (i, 0xA000) } else denseTile f.ty f.ext.toNat f.mod.toNat []
def actTzero (planar : Bool) (f : Full) (s : State) (rs : List Ref) : State × List (Ref × TOut) :=
  matStep { wt := [f.d.toNat] } (fun _ _ => none)
    (fun s lo _ => (s.modG lo.g (·.setTile f.d.toNat (zeroTile f planar)), .done {})) s rs
def Group.clearAcc (G : Group) (a : Nat) : Group := { G with accs := G.accs.filter fun e => e.1 / 1024 != a }
def actAccz (f : Full) (s : State) (rs : List Ref) : State × List (Ref × TOut) :=
  matStep { wa := [f.d.toNat] } (fun _ _ => none) (fun s lo _ => (s.modG lo.g (·.clearAcc f.d.toNat), .done {})) s rs
def Group.copyAcc (G : Group) (d a : Nat) : Group :=
  (List.range 1024).foldl (fun (H : Group) k => H.setAcc d (k / 32) (k % 32) (G.acc a (k / 32) (k % 32))) G
def actAccmv (f : Full) (s : State) (rs : List Ref) : State × List (Ref × TOut) :=
  matStep { ra := [f.a.toNat], wa := [f.d.toNat] } (fun _ _ => none)
    (fun s lo _ => (s.modG lo.g (·.copyAcc f.d.toNat f.a.toNat), .done {})) s rs
def accTile (G : Group) (a : Nat) (f : Full) : Tile :=
  denseTile f.ty f.ext.toNat f.mod.toNat ((List.range 32).flatMap fun i => padTo 128 (accRow G a i f.ty f.ext.toNat f.mod.toNat))
def actAccmvT (f : Full) (s : State) (rs : List Ref) : State × List (Ref × TOut) :=
  matStep { ra := [f.a.toNat], wt := [f.d.toNat] } (fun _ _ => none)
    (fun s lo _ => (s.modG lo.g (fun G => G.setTile f.d.toNat (accTile G f.a.toNat f)), .done {})) s rs

/-- The source rows a mask row names (R395). -/
def maskRows (m : Tile) (i : Nat) : List Nat := (List.range 32).filter fun j => bitN (m.word i 0) j == 1
/-- Pass-through: whole rows and their tags. -/
def permTile (a m : Tile) : Tile :=
  let src (i : Nat) : Option Nat := (maskRows m i).head?
  let rows := (List.range 32).flatMap fun i => match src i with | some j => a.row j | none => List.replicate 128 0
  let tag (i : Nat) : Word := match src i with | some j => BitVec.ofNat 32 (a.rowTag j) | none => if a.fmt = 16 then 0x2000 else 0
  { a with data := sparseOf rows, rowTags := ((List.range 32).map fun i => (i, tag i)).filter fun e => e.2 != 0 }
/-- FP32 sums of rows, each rounded once. -/
def sumTile (a m : Tile) : Tile :=
  let cell (i k : Nat) : Nat :=
    match maskRows m i with
    | [] => 0
    | js => (roundVal .f32 0 false (laneSum 0 (js.map fun j => (a.elem j k).1)).1).1
  { data := sparseOf ((List.range 32).flatMap fun i => (List.range 32).flatMap fun k => leBytes 4 (cell i k)), fmt := 11, valid := true }
def actPermxT (add : Bool) (f : Full) (s : State) (rs : List Ref) : State × List (Ref × TOut) :=
  matStep { rt := [f.a.toNat, tileNumB f], wt := [f.d.toNat], engine := true } (fun _ _ => none)
    (fun s lo _ =>
      match s.group? lo.g with
      | none => (s, .stay)
      | some G =>
        let a := G.tile f.a.toNat
        let m := G.tile (tileNumB f)
        if add ∧ ¬ (a.fmt = 11 ∧ a.valid) then (s, pairTrap a.fmt a.valid m.fmt m.valid)
        else (s.modG lo.g (·.setTile f.d.toNat (if add then sumTile a m else permTile a m)), .done {})) s rs

/-! ## The instructions -/

def execTld (f : Full) (s : State) : Host.Outcome State Fault Refusal := issueAll 0x150 f (actTile false true false false f) s
def execTldPl (f : Full) (s : State) : Host.Outcome State Fault Refusal := issueAll 0x150 f (actTldPl f) s
def execTldS (f : Full) (s : State) : Host.Outcome State Fault Refusal := issueAll 0x151 f (actTile false true true false f) s
def execTldT (f : Full) (s : State) : Host.Outcome State Fault Refusal := issueAll 0x152 f (actTile false true false true f) s
def execTst (f : Full) (s : State) : Host.Outcome State Fault Refusal := issueAll 0x153 f (actTile false false false false f) s
def execTstS (f : Full) (s : State) : Host.Outcome State Fault Refusal := issueAll 0x154 f (actTile false false true false f) s
def execTzero (f : Full) (s : State) : Host.Outcome State Fault Refusal := issueAll 0x155 f (actTzero false f) s
def execTzeroPl (f : Full) (s : State) : Host.Outcome State Fault Refusal := issueAll 0x155 f (actTzero true f) s
def execMma (f : Full) (s : State) : Host.Outcome State Fault Refusal := issueAll 0x156 f (actMma f) s
def execMloop (f : Full) (s : State) : Host.Outcome State Fault Refusal := issueAll 0x157 f (actMloop f) s
def execMlsp (f : Full) (s : State) : Host.Outcome State Fault Refusal := issueAll 0x158 f (actMlsp false f) s
def execMlspT (f : Full) (s : State) : Host.Outcome State Fault Refusal := issueAll 0x159 f (actMlsp true f) s
def execMrst (f : Full) (s : State) : Host.Outcome State Fault Refusal := issueAll 0x15A f (actMrst false f) s
def execMrstOff (f : Full) (s : State) : Host.Outcome State Fault Refusal := issueAll 0x15A f (actMrst true f) s
def execAccz (f : Full) (s : State) : Host.Outcome State Fault Refusal := issueAll 0x15B f (actAccz f) s
def execAccld (f : Full) (s : State) : Host.Outcome State Fault Refusal := issueAll 0x15C f (actTile true true false false f) s
def execAccldS (f : Full) (s : State) : Host.Outcome State Fault Refusal := issueAll 0x15D f (actTile true true true false f) s
def execAccst (f : Full) (s : State) : Host.Outcome State Fault Refusal := issueAll 0x15E f (actTile true false false false f) s
def execAccstS (f : Full) (s : State) : Host.Outcome State Fault Refusal := issueAll 0x15F f (actTile true false true false f) s
def execAccmv (f : Full) (s : State) : Host.Outcome State Fault Refusal := issueAll 0x160 f (actAccmv f) s
def execAccmvT (f : Full) (s : State) : Host.Outcome State Fault Refusal := issueAll 0x160 f (actAccmvT f) s
def execPermxT (f : Full) (s : State) : Host.Outcome State Fault Refusal := issueAll 0x161 f (actPermxT false f) s
def execPermxTAdd (f : Full) (s : State) : Host.Outcome State Fault Refusal := issueAll 0x161 f (actPermxT true f) s

end Sys2Proof.Machine
end

