-- ==== Sys2Proof/Machine/Accesses.lean ====
section
/-! DEFINITION. The places of accesses in the total order: loads, stores, atomics, planar accesses and hitches (R99, R171 to R190),
the overflow hold (R472, R473), and page services (R465, R466). -/

namespace Sys2Proof.Machine

/-! ## Turns (R171 to R173, R190, R330) -/

def AccKind.planarRead : AccKind → Bool
  | .ldp .. | .prf .. => true
  | _ => false
/-- The next event of an access: offset and length. -/
def Access.part (a : Access) : Nat × Nat := a.parts.headD (0, 0)
/-- Whether x, entered earlier, must have its place before y. -/
def Access.before (x y : Access) : Bool :=
  !x.parts.isEmpty && (match x.remote, y.remote with
    | some (p, ax, _), some (q, ay, _) =>
      p == q && x.owners == y.owners && x.parts.any fun e => (ax + e.1) / 64 == (ay + y.part.1) / 64
    | none, none => x.owners.any y.owners.contains || (x.order == y.order && !(x.kind.planarRead && y.kind.planarRead))
    | _, _ => false)
/-- Two loads of one bank of one core: they complete in issue order (R170). -/
def State.sameBank (s : State) (x y : Access) : Bool :=
  match x.kind, y.kind, s.group? x.grp, s.group? y.grp with
  | .actld b _ _, .actld c _ _, some G, some H => b == c && G.core == H.core
  | _, _, _, _ => false
/-- Whether an access's next event may come. -/
def State.turn (s : State) (a : Access) : Bool :=
  !((s.accesses.takeWhile fun x => x.id != a.id).any fun x => x.before a || s.sameBank x a) && a.service.isNone && !a.parts.isEmpty
    && !((s.group? a.grp).any fun G => s.frozen G.ctx)
def State.access? (s : State) (id : Nat) : Option Access := s.accesses.find? (·.id == id)

/-! ## The end of an access -/

def State.modAcc (s : State) (id : Nat) (f : Access → Access) : State :=
  { s with accesses := s.accesses.map fun a => if a.id = id then f a else a }
def State.dropAcc (s : State) (id : Nat) : State := { s with accesses := s.accesses.filter (·.id != id) }
/-- LD and ST of the threads of an access fall. -/
def State.lowerLd (s : State) (a : Access) : State :=
  if a.kind.countsLd then a.owners.foldl (fun (s : State) e => s.modT e.1 e.2 fun T => { T with ld := T.ld - 1 }) s else s
def State.lowerSt (s : State) (a : Access) : State :=
  if a.kind.countsSt then a.owners.foldl (fun (s : State) e => s.modT e.1 e.2 fun T => { T with st := T.st - 1 }) s else s
/-- The access did not take place: its threads hold the fault; a store stays in ST until delivery (R428, R464). The threads that wait for
an image are at their instruction and take it there. -/
def State.accFault (s : State) (a : Access) (t : Trap) : State :=
  let s := (s.lowerLd a).dropAcc a.id
  match a.kind with
  | .image .. => s.deliver (a.owners.map fun e => (e.1, e.2, t))
  | _ => a.owners.foldl
    (fun (s : State) e => match s.group? e.1 with
      | some G => s.holdFault G.ctx e.1 e.2 { order := a.order, trap := t, countsSt := a.kind.countsSt }
      | none => s) s
/-- Its page is served first (R466). -/
def State.accWait (s : State) (a : Access) (ctx buf pg : Nat) : State :=
  let (id, s) := s.startPage ctx buf pg
  s.modAcc a.id fun a => { a with service := some id }
/-- Whether a snoop that an atomic of scope 8 caused itself is not acknowledged (R181, R337). -/
def State.snoopOpen (s : State) (a : Access) : Bool := s.port.snoops.any fun x => x.acc == a.id
def AccKind.scope : AccKind → Nat
  | .atom _ _ _ _ _ _ _ scope => scope
  | _ => 0
/-- Every event of the access has its place: LD and ST fall; an atomic of scope 8 stays in ST until its snoops are acknowledged. -/
def State.accDone (s : State) (a : Access) : State :=
  let s := s.lowerLd a
  if 8 ≤ a.kind.scope ∧ s.edge.wymDown then
    (match s.group? a.grp with
      | some G => ((s.dropAcc a.id).lowerSt a).holdFault G.ctx a.grp a.tid { order := a.order, trap := { cause := 0x16, arg := 5, cls := 1 } }
      | none => s)
  else if 8 ≤ a.kind.scope ∧ s.snoopOpen a then s.modAcc a.id fun a => { a with parts := [] }
  else (s.dropAcc a.id).lowerSt a
/-- One event of the access is over. -/
def State.accStep (s : State) (a : Access) (bs : List Byte) : State :=
  s.modAcc a.id fun a => { a with parts := a.parts.tail, got := a.got ++ bs, stalled := none }

/-- The port's answer to an access at its place (R86, R463, R466, R476); `go` gets the physical bytes of the whole access. -/
def State.reach (s : State) (a : Access) (G : Group) (k : PKind) (kind cls : Nat) (addr : Addr) (len : Nat)
    (go : List Nat → State) : State :=
  match s.port_ G.ctx (s.renOf G.item) k addr len with
  | .refused cause need => s.accFault a (portTrap kind cause need addr cls)
  | .page buf pg => s.accWait a G.ctx buf pg
  | .remote _ _ => s.accFault a (portTrap kind 0x10 0 addr cls)
  | .ok ps => match s.poisonedIn (k != .load) ((ps.drop a.part.1).take a.part.2) with
    | some x => s.poisonKill G.ctx addr x
    | none => go ps

/-! ## Loads -/

/-- The registers a load writes (R333). -/
def loadRegs (w : Width) (ty : Ty) (d : Nat) (bs : List Byte) : List (Nat × Nat) :=
  let x := leNat bs
  match w with
  | .b16 => wr4 d x
  | .b8 => wr2 d x
  | .b4 => wr1 d x
  | .b2 => wr1 d (if ty = .s16 then truncI (sextN x 16) 32 else x)
  | .b1 => wr1 d (if ty = .s8 then truncI (sextN x 8) 32 else x)
/-- An event of a load: the last one writes the register (R99, R333). -/
def State.loadPart (s : State) (a : Access) (w : Width) (ty : Ty) (d : Nat) (bs : List Byte) : State :=
  let s := s.accStep a bs
  if a.parts.length ≤ 1 then (s.modT a.grp a.tid fun T => T.setRegs (loadRegs w ty d (a.got ++ bs))).accDone a else s
/-- Planar reads of one block by one issue group share a snapshot (R129). -/
def State.planarMates (s : State) (a : Access) : List Access :=
  let key (k : AccKind) : Option (Bool × Nat × Nat) :=
    match k with | .ldp h b _ _ => some (true, h, b) | .prf h b _ _ _ => some (false, h, b) | _ => none
  s.accesses.filter fun x => x.order == a.order && key x.kind == key a.kind
/-- One thread's planar read (R128, R131). -/
def State.planarRead (s : State) (a : Access) : State :=
  match s.group? a.grp, s.thread? a.grp a.tid with
  | some G, some T =>
    let read (h b : Nat) (want : Pde → Nat → List Nat) (put : Pde → Block → State → State) : State :=
      match s.pdeFor G.ctx h b false with
      | .error e => s.accFault a (e.trap 4 0 h b)
      | .ok p => match s.seeBlock G.core G.ctx (s.renOf G.item) p b (want p) with
        | .error (.page buf pg _) => s.accWait a G.ctx buf pg
        | .error (.poison x ad) => s.poisonKill G.ctx ad x
        | .error e => s.accFault a (e.trap 4 0 h b)
        | .ok (s, x, as) =>
          let s := as.foldl (fun (s : State) ad => s.traceNote a.grp false ad 4) s
          let deepest := x.planes.foldl (fun m e => max m e.1) 0
          (put p x (s.planeFill true G.ctx G.core h b deepest)).accDone a
    match a.kind with
    | .ldp h b d dst => read h b (planesTo · d) fun p x s =>
        let r := ldpResult p d T.lane x
        s.modT a.grp a.tid fun T => (T.setV dst r.1).setTag dst r.2
    | .prf h b n dst pd => read h b (prfWant · n (T.tag dst)) fun p x s =>
        let r := prfResult p n (T.v dst) (T.tag dst) T.lane x
        s.modT a.grp a.tid fun T => ((T.setV dst r.1).setTag dst r.2.1).setP pd r.2.2
    | _ => s
  | _, _ => s
/-- The image of an activation bank (R167, R288). -/
def bankOfBytes (bs : List Byte) (owner : Nat) : Bank :=
  let w (k : Nat) : Word := BitVec.ofNat 32 (leNat ((bs.drop (4 * k)).take 4))
  { lo := w 0, scale := w 1, owner := some owner,
    seg := ((List.range 1024).map fun k => (k, w (4 + k))).filter fun e => e.2 != 0 }

/-- An event of an image: with the last one the instruction is tried again, by its threads together (R352, R367, R368, R370). -/
def State.imagePart (s : State) (a : Access) (bs : List Byte) : State :=
  let s := (s.accStep a bs).modT a.grp a.tid fun T => { T with image := T.image.map fun x => (x.1, x.2 ++ bs) }
  if 1 < a.parts.length then s
  else
    let (n, s) := s.fresh
    let go (T : Thread) : Thread :=
      match T.wait with
      | .on (.image o) _ _ =>
        if o = a.order then { T with wait := .ready, readySince := s.clock, synced := if a.owners.length = 1 then none else some n } else T
      | _ => T
    (a.owners.foldl (fun (s : State) e => s.modT e.1 e.2 go) s).accDone a
/-- The access kind of an image's faults: a Twill read, or the load of a card. -/
def State.imageKind (s : State) (a : Access) : Nat :=
  match (s.thread? a.grp a.tid).bind (·.image) with | some (some _, _) => 9 | _ => 0
/-- The next event of an image of device memory. -/
def State.imageRead (s : State) (a : Access) (G : Group) (addr : Addr) : State :=
  let (o, n) := a.part
  let ad := addOff addr (o : Nat)
  match s.port_ G.ctx (s.renOf G.item) .load ad n with
  | .refused cause need => s.accFault a (portTrap (s.imageKind a) cause need ad 0)
  | .page buf pg => s.accWait a G.ctx buf pg
  | .remote _ _ => s.accFault a { cause := 0x18, arg := 4, addr := ad.toNat }
  | .ok ps => match s.poisonedIn false ps with
    | some x => s.poisonKill G.ctx ad x
    | none =>
      let r := s.readAt G.core ps
      (if s.imageKind a = 9 then r.1.traceNote a.grp false ad n else r.1).imagePart a r.2

/-- The page a pending access waits for in its data, and the trap if it stays without one. -/
def State.accMiss (s : State) (a : Access) : Option Trap :=
  match s.group? a.grp with
  | none => none
  | some G =>
    let port (k : PKind) (kind cls : Nat) (addr : Addr) (n : Nat) : Option Trap :=
      match s.port_ G.ctx (s.renOf G.item) k addr n with | .page _ _ => some (portTrap kind 0x13 0 addr cls) | _ => none
    match a.kind with
    | .load w _ _ addr none => port .load 0 0 addr w.bytes
    | .store addr data none => port .store 1 1 addr data.length
    | .atom _ ty _ _ _ _ addr _ => port .atomic 2 1 addr (atomLen ty)
    | .hitch _ addr _ _ _ _ _ => port .load 6 0 addr 64
    | .actld _ addr _ => port .load 8 0 addr 4112
    | .image addr none _ => port .load (s.imageKind a) 0 (addOff addr (a.part.1 : Nat)) a.part.2
    | .ldp h b d _ =>
      (match s.pdeFor G.ctx h b false with
      | .ok p => match s.readBlock G.ctx (s.renOf G.item) p b (planesTo p d) with
        | .error (.page _ _ ad) => some (portTrap 4 0x13 0 ad 0)
        | _ => none
      | .error _ => none)
    | .prf h b n dst _ =>
      (match s.pdeFor G.ctx h b false, s.thread? a.grp a.tid with
      | .ok p, some T => match s.readBlock G.ctx (s.renOf G.item) p b (prfWant p n (T.tag dst)) with
        | .error (.page _ _ ad) => some (portTrap 4 0x13 0 ad 0)
        | _ => none
      | _, _ => none)
    | .pst merge h b d _ t _ =>
      (match s.pstCells G.ctx (s.renOf G.item) merge h b d [] t.toNat with
      | .error (.page _ _ ad) => some (portTrap 5 0x13 0 ad 1)
      | _ => none)
    | _ => none
/-- LOAD_DATA_RETURN (R99). -/
def State.loadReturn (s : State) (id : Nat) : State :=
  match s.access? id with
  | none => s
  | some a =>
    match s.group? a.grp with
    | none => s
    | some G =>
      if ¬ s.turn a ∨ a.remote.isSome then s
      else
        let (o, n) := a.part
        match a.kind with
        | .load w ty d addr (some g) => (s.meet G.core g).loadPart a w ty d (s.padBytes g (addr.toNat + o) n)
        | .load w ty d addr none =>
          s.reach a G .load 0 0 addr w.bytes fun ps =>
            let x := s.readAt G.core ((ps.drop o).take n)
            (x.1.traceNote a.grp false (addOff addr (o : Nat)) n).loadPart a w ty d x.2
        | .ldp .. | .prf .. =>
          let ms := s.planarMates a
          if ¬ ms.all s.turn then s
          -- a page that one of them lacks is served before any of them reads
          else match ms.find? fun x => (s.accMiss x).isSome with
            | some x => s.planarRead x
            | none => ms.foldl (fun (s : State) x => s.planarRead x) s
        | .actld b addr _ =>
          s.reach a G .load 8 0 addr 4112 fun ps =>
            let (s, bs) := s.readAt G.core ((ps.drop o).take n)
            let s := (s.traceNote a.grp false (addOff addr (o : Nat)) n).accStep a bs
            if a.parts.length ≤ 1 then
              let k := bankOfBytes (a.got ++ bs) G.ctx
              (s.modCore G.core fun c => if b = 1 then { c with bank1 := k } else { c with bank0 := k }).accDone a
            else s
        | .image addr (some g) _ => (s.meet G.core g).imagePart a (s.padBytes g (addr.toNat + o) n)
        | .image addr none _ => s.imageRead a G addr
        | .deliver d x pd ends => ((s.accStep a []).modT a.grp a.tid fun T => (T.setRegs (wr2 d x)).setP pd ends).accDone a
        | _ => s

/-! ## Room in compressed pages (R104, R472) -/

/-- A write stalls: in the order of arrival (R472). -/
def State.stall (s : State) (a : Access) (page : Nat) : State :=
  if a.stalled.isSome then s
  else
    let (n, s) := s.fresh
    (s.modAcc a.id fun a => { a with stalled := some (n, page) }).noteStall page
/-- Whether a write that stalled earlier on the page goes first. -/
def State.stallAhead (s : State) (a : Access) (page : Nat) : Bool :=
  match a.stalled with
  | none => false
  | some (n, _) => s.accesses.any fun x => match x.stalled with | some (m, q) => q == page && decide (m < n) | none => false
/-- A write finds room, goes to the overflow hold, or stalls. -/
def State.roomFor (s : State) (a : Access) (ps : List Nat) (room : Room) (go : State → State) : State :=
  let page := ps.headD 0 / 65536
  if s.stalledAt ps then s.stall a page
  else if s.stallAhead a page then s
  else if room = .fits ∨ ¬ s.port.packed.contains page then go s
  else
    let s := s.askRepack page
    if 4096 ≤ s.holdCount page then s.stall a page else go (s.toHold ps)
/-- Relief of a page: held lines are written back, stalled writes may go on (R473). -/
def State.relieve (s : State) (page : Nat) : State :=
  s.modPort fun p => { p with hold := p.hold.filter (fun l => l / 512 != page), stalls := Map.erase p.stalls page,
                              repack := p.repack.filter (· != page) }
/-- REPACK_COMPLETE (R104, R473). -/
def State.repackDone (s : State) (page : Nat) : State := if s.port.repack.contains page then s.relieve page else s
def tenMs : Nat := 13000000
/-- OVERFLOW_HOLD_TIMEOUT: 10 ms from the first stall the page is handed to Oromel (R473). -/
def State.holdTimeout (s : State) (page : Nat) : State :=
  match Map.get? s.port.stalls page with
  | some (t, false) =>
    if s.clock < t + tenMs then s
    else (s.log { cls := 11, sev := 1, rfl := 3, ppage := page * 65536, unit := 2, unitNo := Config.llcSlice (page * 65536) % 256,
                  detail := s.holdCount page }).modPort fun p => { p with stalls := Map.set p.stalls page (t, true) }
  | _ => s
/-- Contexts with a write stalled on a page: by threads, and by engine jobs paused there. -/
def State.stalledCtxs (s : State) (page : Nat) : List Nat :=
  let t := s.accesses.filterMap fun a => match a.stalled with
    | some (_, q) => if q = page then (s.group? a.grp).map (·.ctx) else none
    | none => none
  let free := s.modPort fun p => { p with stalls := Map.erase p.stalls page }
  let blocked (s : State) (j : Job) (u : Nat) : Bool := match s.unitRes j u none with | .blocked => true | _ => false
  let js := (s.jobs.filter fun j => j.admitted && j.edges.isEmpty && j.units.any fun u => blocked s j u && !(blocked free j u)).map (·.ctx)
  (List.range 64).filter fun c => t.contains c || js.contains c
/-- OVERFLOW_HOLD_KILL: Oromel cannot relieve the page, or 1 s has passed (R473). -/
def State.holdKill (s : State) (page : Nat) : State :=
  match Map.get? s.port.stalls page with
  | some (_, true) =>
    let n := s.holdCount page
    let s := (s.stalledCtxs page).foldl (fun (s : State) c =>
      s.logKill { cls := 11, sev := 2, ctx := c, rfl := 3, ppage := page * 65536, detail := n }) s
    s.modPort fun p => { p with stalls := Map.erase p.stalls page }
  | _ => s

/-! ## Stores, atomics, planar stores and clears -/

def Access.writer (a : Access) (G : Group) : Writer := { ctx := G.ctx, stamp := G.stampLsn, grp := a.grp, tid := a.tid, acc := a.id }
/-- A write through the port: room, the page of the stamp word, the read of an atomic that returns a value, then the event (R194,
R199, R472, R514). -/
def State.accWrite (s : State) (a : Access) (G : Group) (addr : Addr) (qs : List Nat) (bs : List Byte) (room : Room) (reads : Bool)
    (next : State → State) : State :=
  s.roomFor a qs room fun s =>
    match s.stampMiss G.ctx (if a.noStamp then none else G.stampLsn) [] addr bs.length with
    | some (buf, pg) => s.accWait a G.ctx buf pg
    | none =>
      let s := if reads then s.traceNote a.grp false addr bs.length else s
      next ((s.writeDev (a.writer G) addr (qs.zip bs)).traceNote a.grp true addr bs.length)
def State.storePart (s : State) (a : Access) : State :=
  let s := s.accStep a []
  if a.parts.length ≤ 1 then s.accDone a else s

/-- The new value of an atomic (R337). -/
def atomNew (op : AtomOp) (t : Ty) (old v swap : Nat) : Nat :=
  let f := fmtOf t 0 0
  let q := 2 ^ t.bits
  match op with
  | .add => (old + v) % q
  | .min => if tyVal t old ≤ tyVal t v then old else v
  | .max => if tyVal t old ≤ tyVal t v then v else old
  | .and => old &&& v
  | .or => old ||| v
  | .xor => old ^^^ v
  | .inc => if v ≤ old then 0 else old + 1
  | .dec => if old = 0 ∨ v < old then v else old - 1
  | .fadd => (fAdd f 0 false (f.decode old) (f.decode v)).1
  | .fmin => (fMinMax f false old v).1
  | .fmax => (fMinMax f true old v).1
  | .exch => v
  | .cas => if old = v then swap else old
/-- What the thread of an atomic receives of the old value (R337). -/
def State.atomResult (s : State) (a : Access) (op : AtomOp) (ty : Ty) (v : Nat) (ret : Option Nat) (pd old : Nat) : State :=
  s.modT a.grp a.tid fun T =>
    let T := match ret with | some d => T.setRegs (wrTy ty d old) | none => T
    if op = .cas then T.setP pd (old == v) else T
def State.placeAtom (s : State) (a : Access) (G : Group) (op : AtomOp) (ty : Ty) (v swap : Nat) (ret : Option Nat) (pd : Nat)
    (addr : Addr) (room : Room) : State :=
  let len := atomLen ty
  s.reach a G (if ret.isSome then .atomicRet else .atomic) 2 1 addr len fun ps =>
    let old := leNat (s.gather ps)
    s.accWrite a G addr ps (leBytes len (atomNew op ty old v swap)) room ret.isSome fun s =>
      ((s.atomResult a op ty v ret pd old).accStep a []).accDone a

/-- One block of a planar store (R133, R134). -/
def State.placePst (s : State) (a : Access) (G : Group) (merge : Bool) (h b d : Nat) (lanes : List (Nat × Nat × Nat × Word)) (t : Nat)
    (pd : Nat) (room : Room) : State :=
  match s.pstCells G.ctx (s.renOf G.item) merge h b d (lanes.map fun l => (l.1, l.2.2.2.toNat)) t with
  | .error (.page buf pg _) => s.accWait a G.ctx buf pg
  | .error (.poison x ad) => s.poisonKill G.ctx ad x
  | .error e => s.accFault a (e.trap 5 1 h b)
  | .ok (cells, as, merged) =>
    s.roomFor a (cells.map (·.1)) room fun s =>
      match as.findSome? fun ad => s.stampMiss G.ctx (if a.noStamp then none else G.stampLsn) [] ad 4 with
      | some (buf, pg) => s.accWait a G.ctx buf pg
      | none =>
        let s := s.writeEvent (a.writer G) cells
        let s := as.foldl (fun (s : State) ad =>
          let s := match G.stampLsn with | some lsn => s.stampRange G.ctx ad 4 lsn | none => s
          ((a.owners.map (·.1)).eraseDups).foldl (fun (s : State) g => s.traceNote g true ad 4) s) s
        let s := s.planeFill true G.ctx G.core h b (as.length - 2)
        let s := a.owners.foldl (fun (s : State) e => s.modT e.1 e.2 fun T => T.setP pd merged) s
        (s.accStep a []).accDone a

/-- `hclr` (R214): the entry HEAD, the credit, and the tag bit (R100). -/
def State.placeHclr (s : State) (a : Access) (off : Nat) (cond : Option Word) (pd : Nat) : State :=
  let fin (s : State) (cleared : Bool) : State :=
    let s := if cond.isSome then s.modT a.grp a.tid fun T => T.setP pd cleared else s
    (s.accStep a []).accDone a
  match (s.group? a.grp).bind fun G => Map.get? G.slots off with
  | none => fin s false
  | some x =>
    if !(x.fresh.getD x.head false) || (match cond with | some c => x.seqs.getD x.head 0 != c.toNat | none => false) then fin s false
    else
      let y := { x with fresh := x.fresh.set x.head false, head := if x.each then (x.head + 1) % x.nent else 0,
                        credits := if x.each then x.credits + 1 else x.credits }
      let s := s.setSlot a.grp off y.advance
      fin (s.modG a.grp fun G => if G.freshTag x.tag then G else G.setTag x.tag false) true

/-- STORE_PLACED (R99). -/
def State.storePlaced (s : State) (id : Nat) (room : Room) : State :=
  match s.access? id with
  | none => s
  | some a =>
    match s.group? a.grp with
    | none => s
    | some G =>
      if ¬ s.turn a ∨ a.remote.isSome then s
      else
        let (o, n) := a.part
        match a.kind with
        | .store addr data (some g) => ((s.meet G.core g).padWrite g (addr.toNat + o) ((data.drop o).take n)).storePart a
        | .store addr data none =>
          s.reach a G .store 1 1 addr data.length fun ps =>
            s.accWrite a G (addOff addr (o : Nat)) ((ps.drop o).take n) ((data.drop o).take n) room false fun s => s.storePart a
        | .atom op ty v swap ret pd addr _ => s.placeAtom a G op ty v swap ret pd addr room
        | .pst merge h b d lanes t pd => s.placePst a G merge h b d lanes t.toNat pd room
        | .hclr off cond pd => s.placeHclr a off cond pd
        | .twsave off data _ => (s.padWrite a.grp (off + o) ((data.drop o).take n)).storePart a
        | _ => s

/-! ## Answers from peers (R190, R495, R499) -/

/-- A remote access fails: precise in a waiting load, else held (R427, R495). -/
def State.remoteFail (s : State) (a : Access) (arg : Nat) : State :=
  let addr : Addr := match a.kind with
    | .load _ _ _ x _ => x | .store x _ _ => x | .atom _ _ _ _ _ _ x _ => x | .actld _ x _ => x | _ => 0
  match a.kind with
  | .load .. | .actld .. =>
    ((s.lowerLd a).dropAcc a.id).deliver [(a.grp, a.tid, { cause := 0x16, arg := arg, addr := addr.toNat })]
  | _ => s.accFault a { cause := 0x16, arg := arg, addr := addr.toNat, cls := 1 }
/-- The thread of a remote load goes on behind it; the rest of a pair takes place (R260). -/
def State.answered (s : State) (a : Access) : State :=
  match s.thread? a.grp a.tid with
  | none => s
  | some T => match T.wait with
    | .on (.answer next l) _ _ => s.modG a.grp fun G =>
        (G.modT a.tid fun T => ((((T.setRegs l.regs).setTags l.tags).setPreds l.preds).goTo next s.clock)).raise l.flags
    | _ => s
/-- Whether a context's `PODCTX` is enabled (R245). -/
def State.podEnabled (s : State) (ctx : Nat) : Bool := match s.ctx? ctx with | some C => bitN C.podctx 15 == 1 | none => false
/-- The answer to the next request of a remote access. -/
def State.remoteAnswer (s : State) (a : Access) (ans : PeerAnswer) : State :=
  match s.group? a.grp with
  | none => s
  | some G =>
    if ¬ s.turn a ∨ a.remote.isNone then s
    -- a context without a pod context reaches no peer (R245, log 84)
    else match (if s.podEnabled G.ctx then ans else .refused 0x10) with
      | .refused c => s.remoteFail a (1 + 256 * c)
      | .unreachable => s.remoteFail a 2
      | .done bs =>
        let (o, n) := a.part
        let last := decide (a.parts.length ≤ 1)
        match a.kind with
        | .load w ty d addr _ =>
          if bs.length ≠ n then s
          else
            let s := (s.traceNote a.grp false (addOff addr (o : Nat)) n).loadPart a w ty d bs
            if last then s.answered a else s
        | .actld b addr _ =>
          if bs.length ≠ n then s
          else
            let s := (s.traceNote a.grp false (addOff addr (o : Nat)) n).accStep a bs
            if last then
              let k := bankOfBytes (a.got ++ bs) G.ctx
              ((s.modCore G.core fun c => if b = 1 then { c with bank1 := k } else { c with bank0 := k }).accDone a).answered a
            else s
        | .store addr _ _ => (s.traceNote a.grp true (addOff addr (o : Nat)) n).storePart a
        | .atom op ty v _ ret pd addr _ =>
          if ret.isSome ∧ bs.length ≠ n then s
          else
            let s := if ret.isSome then s.traceNote a.grp false addr n else s
            let s := s.traceNote a.grp true addr n
            ((s.atomResult a op ty v ret pd (leNat bs)).accStep a []).accDone a
        | _ => s
/-- The first unit of a copy that waits for a peer (R182, R190). -/
def State.remoteUnit (s : State) (j : Job) : Option Nat :=
  let rem (p : Place) (u : Nat) : Bool := match p with | .dev a => s.inRemote j.ctx (addOff a (u : Nat)) | .pad _ _ => false
  match j.kind with
  | .copy d a _ => j.units.find? fun u => rem d u || rem a u
  | _ => none
/-- REMOTE_ACK: the peer's answer to an access, or to a copy job's next unit there. -/
def State.remoteAck (s : State) (id : Nat) (ans : PeerAnswer) : State :=
  match s.access? id with
  | some a => s.remoteAnswer a ans
  | none => match s.jobs.find? (·.id == id) with
    | none => s
    | some j => match s.remoteUnit j with
      | some u => s.landUnit id u (some (if s.podEnabled j.ctx then ans else .refused 0x10))
      | none => s
/-- REMOTE_ACCESS_TIMEOUT: no answer within 10 ms (R495). -/
def State.remoteTimeout (s : State) (id : Nat) : State :=
  match s.access? id with
  | some a =>
    (match a.remote with
    | some (_, _, sent) => if s.turn a ∧ sent + tenMs ≤ s.clock then s.remoteFail a 3 else s
    | none => s)
  | none => s.remoteAck id .unreachable

/-! ## Accesses by peers (R244, R245, R499) -/

/-- The context an inbound access reaches: enabled, and of the number (R245). -/
def State.podCtx (s : State) (n : Nat) : Option Nat :=
  (s.ctxs.find? fun e => !e.2.killed && bitN e.2.podctx 15 == 1 && e.2.podctx % 1024 == n % 1024).map (·.1)
def atomOfIndex (n : Nat) : Option AtomOp :=
  [AtomOp.add, .min, .max, .and, .or, .xor, .inc, .dec, .fadd, .fmin, .fmax, .exch, .cas][n]?
/-- An access from outside waits for a page. -/
def State.outWait (s : State) (ctx buf pg : Nat) : State :=
  let (id, s) := s.startPage ctx buf pg
  s.modEdge fun e => { e with outWaits := if e.outWaits.contains id then e.outWaits else id :: e.outWaits }
/-- An access from outside is over. -/
def State.outOver (s : State) : State := s.modEdge fun e => { e with outDead := [] }
/-- PEER_REMOTE_ACCESS: a place in this device's order; stamps at the context's LSN (R194). -/
def State.peerAccess (s : State) (podctx : Nat) (addr : Addr) (op : PeerOp) : State :=
  let refuse : State := s.modEdge fun e => { e with peerRefused := true, peerRead := [], outDead := [] }
  if ¬ s.edge.trained.any (0 < ·) then s
  else if (s.edge.ckpt ∨ (s.edge.quiesced ∧ ¬ s.edge.fatal)) ∧ (match op with | .read _ => false | _ => true) = true then s
  else match s.podCtx podctx with
  | none => refuse
  | some c =>
    let w : Writer := { ctx := c, stamp := match s.ctx? c with | some C => some C.lsn | none => none }
    let go (k : PKind) (len : Nat) (act : State → List Nat → State × List Byte) : State :=
      if len = 0 ∨ 64 < offOf addr % 64 + len then s
      else match s.port_ c [] k addr len with
      | .refused _ _ | .remote _ _ => refuse
      | .page buf pg => if s.edge.outDead.contains (s.pteOf c buf pg) then refuse else s.outWait c buf pg
      | .ok ps =>
        if k ≠ .load ∧ s.stalledAt ps then s
        else
        let room := if k = .load then (s, true) else s.devRoom ps
        match s.poisonedIn (k != .load) ps, s.stampMiss c (if k = .load then none else w.stamp) s.edge.outDead addr len with
        | some x, _ => s.poisonKill c addr x
        | none, some (buf, pg) => s.outWait c buf pg
        | none, none =>
          if ¬ room.2 then room.1
          else let (s, bs) := act room.1 ps; s.outOver.modEdge fun e => { e with peerRefused := false, peerRead := bs }
    match op with
    | .read len => go .load len fun s ps => (s.checkAll ps, s.gather ps)
    | .write bs => go .store bs.length fun s ps => (s.writeDev w addr (ps.zip bs), [])
    | .atomic n ty v swap ret => match atomOfIndex n with
      | none => refuse
      | some aop =>
        let len := atomLen ty
        if addr.toNat % len ≠ 0 then refuse
        else go (if ret then .atomicRet else .atomic) len fun s ps =>
          let old := leNat (s.gather ps)
          (s.writeDev w addr (ps.zip (leBytes len (atomNew aop ty old (v % 2 ^ ty.bits) (swap % 2 ^ ty.bits)))), if ret then leBytes len old else [])

/-! ## Page services (R465, R466) -/

/-- What waited for a service goes on, or takes its fault. -/
def State.serviceEnd (s : State) (v : Service) (ok : Bool) : State :=
  let s := s.modPort fun p => { p with services := p.services.filter (·.id != v.id) }
  -- pending accesses
  let s := (s.accesses.filter (·.service == some v.id)).foldl (fun (s : State) a =>
    if ok then s.modAcc a.id fun a => { a with service := none }
    else match s.accMiss a with
      | some t => s.accFault a t
      | none => s.modAcc a.id fun a => { a with service := none, noStamp := true }) s
  -- tile operations and loops
  let s := s.groups.foldl (fun (s : State) e =>
    let s := e.2.tileOps.foldl (fun (s : State) o => match o.service with
      | some (id, ad) => if id ≠ v.id then s
        else if ok ∨ o.stampWait then
          s.modTile e.1 o.id fun x => { x with service := none, stampWait := false, dead := if ok then x.dead else v.pte :: x.dead }
        else s.tileOver e.1 o (some (portTrap 7 0x13 0 ad 1))
      | none => s) s
    match e.2.loop with
    | some l => (match l.service with
      | some (id, ad) => if id ≠ v.id then s
        else if ok then s.setLoop e.1 { l with service := none }
        else s.stopLoop e.1 { l with service := none } (portTrap 7 0x13 0 ad 1)
      | none => s)
    | none => s) s
  -- records of exited groups
  let s := (s.groups.filter (·.2.recWait == some v.id)).foldl (fun (s : State) e =>
    (s.modG e.1 fun G => { G with recWait := none, recDead := if ok then G.recDead else v.pte :: G.recDead }).writeTrace e.1) s
  -- engine jobs
  let s := { s with jobs := s.jobs.map fun (j : Job) =>
    if j.waits.contains v.id then
      { j with waits := j.waits.filter (· != v.id), dead := if ok then j.dead else v.pte :: j.dead }
    else j }
  -- the command processor's own reads
  let overWith (ws ds : List Nat) : List Nat × List Nat := (ws.filter (· != v.id), if ok then ds else v.pte :: ds)
  let s := { s with
    items := s.items.map fun (i : Item) => if i.waits.contains v.id then { i with waits := (overWith i.waits i.dead).1, dead := (overWith i.waits i.dead).2 } else i,
    hwq := s.hwq.map fun (e : Nat × List Waiting) => (e.1, e.2.map fun (w : Waiting) =>
      if w.waits.contains v.id then { w with waits := (overWith w.waits w.dead).1, dead := (overWith w.waits w.dead).2 } else w),
    queues := s.queues.map fun (e : Nat × HostQueue) =>
      if e.2.waits.contains v.id then (e.1, { e.2 with waits := (overWith e.2.waits e.2.dead).1, dead := (overWith e.2.waits e.2.dead).2 }) else e }
  let s := (s.ctxs.filter (·.2.schedWaits.contains v.id)).foldl (fun (s : State) e =>
    State.runPhases e.1 e.2.phaseAsks.length (s.modCtx e.1 fun c =>
      { c with schedWaits := (overWith c.schedWaits c.schedDead).1, schedDead := (overWith c.schedWaits c.schedDead).2 })) s
  let s := if s.edge.outWaits.contains v.id then
      s.modEdge fun e => { e with outWaits := (overWith e.outWaits e.outDead).1, outDead := (overWith e.outWaits e.outDead).2 }
    else s
  -- threads at their instructions
  let waiting : List (Nat × Nat × Nat × Nat) := s.groups.flatMap fun (e : Nat × Group) => e.2.threads.filterMap fun (x : Nat × Thread) =>
    match x.2.wait with
    | .on (.page id kind ad) _ _ => if id = v.id then some (e.1, x.1, kind, ad) else none
    | _ => none
  if ok then waiting.foldl (fun (s : State) w => s.modT w.1 w.2.1 fun T => { T with wait := .ready, readySince := s.clock }) s
  else
    s.deliver (waiting.map fun w => (w.1, w.2.1, ({ cause := 0x13, arg := w.2.2.1, addr := w.2.2.2 } : Trap)))
/-- Whether a 64 KiB physical page lies in the memory of some buffer of a list of tables. -/
def State.mapsPage (s : State) (c : Ctx) (i page : Nat) : Bool :=
  let e := s.buf c i
  e.valid && !e.remote &&
    (if e.paged then (List.range ((e.size + e.pageSize - 1) / e.pageSize)).any fun k =>
        (match s.pageByte e (k * e.pageSize) with | some p => decide (p / 65536 ≤ page ∧ page < (p + e.pageSize) / 65536) | none => false)
      else decide (e.base / 65536 ≤ page ∧ 65536 * page < e.base + e.size))
/-- Whether some mapping of a 64 KiB physical page exists (R89). -/
def State.mapped (s : State) (page : Nat) : Bool :=
  s.ctxs.any fun e => (List.range e.2.btlen).any fun i => s.mapsPage e.2 i page
/-- A first mapping places its pages (R89). -/
def State.placePages (s : State) (e : BufEntry) (pages : List Nat) : State :=
  pages.foldl (fun (s : State) g =>
    if s.mapped g then s else s.modPort fun p => { p with placed := Map.set p.placed g (e.stripe, e.chmask) }) s
/-- A page a service maps, zeroed whoever gave it (R31), and the entry it writes: V 1 and C the buffer's COMPRESS (R465). -/
def State.mapPage (s : State) (v : Service) (e : BufEntry) (phys : Nat) : State :=
  let pages := (List.range (e.pageSize / 65536)).map (phys / 65536 + ·)
  let s := s.placePages e pages
  let inside (a : Nat) : Bool := decide (phys ≤ a ∧ a < phys + e.pageSize)
  let s := { s.dropCopiesOf fun c => inside (128 * c.line) with mem := s.mem.filter fun c => !(inside c.1) }.modPort fun p =>
    { p with poison := p.poison.filter fun x => !(inside (32 * x)) }
  let s := s.modPort fun p => { p with packed := (p.packed.filter fun g => !(pages.contains g)) ++ (if e.compress then pages else []) }
  s.pokeRaw v.pte (leBytes 8 (phys + (if e.compress then 2 else 0) + 1))
/-- PAGE_SERVICE_COMPLETE (R465): the walker takes a page of the pool, or Oromel answers, as the context selects (R29). -/
def State.pageDone (s : State) (id : Nat) (ans : PageAnswer) : State :=
  match s.port.services.find? (·.id == id) with
  | none => s
  | some v =>
    match s.ctx? v.ctx with
    | none => s.serviceEnd v false
    | some c =>
      let e := s.buf c v.buf
      let host := bitN c.svc 0 == 1
      match ans with
      | .walker =>
        if host then s
        else if e.pg2m then
          (match s.port.pool2m with
          | [] => s.serviceEnd v false
          | p :: r => ((s.modPort fun q => { q with pool2m := r }).mapPage v e p).serviceEnd v true)
        else
          (match s.port.pool64 with
          | [] => s.serviceEnd v false
          | p :: r => ((s.modPort fun q => { q with pool64 := r }).mapPage v e p).serviceEnd v true)
      | .oromel p =>
        if ¬ host ∨ p % e.pageSize ≠ 0 ∨ memSize < p + e.pageSize then s else (s.mapPage v e p).serviceEnd v true
      | .declined => if host then s.serviceEnd v false else s
/-- PAGE_SERVICE_TIMEOUT: no answer of Oromel within 100 ms (R465). -/
def State.pageTimeout (s : State) (id : Nat) : State :=
  match s.port.services.find? (·.id == id) with
  | none => s
  | some v =>
    match s.ctx? v.ctx with
    | none => s.serviceEnd v false
    | some c => if bitN c.svc 0 = 1 ∧ v.start + 10 * tenMs ≤ s.clock then s.serviceEnd v false else s

/-! ## The steps -/

/-- Events of a tile operation, whichever group issued it. -/
def State.tileEvent (s : State) (id : Nat) (pick : Nat → Bool) : State :=
  match s.groups.find? fun e => e.2.tileOps.any (·.id == id) with
  | some e => s.tileLand e.1 id pick
  | none => s

def execLoadDataReturn (access : Nat) (s : State) : Host.Outcome State Fault Refusal := finish (s.loadReturn access)
def execStorePlaced (access : Nat) (room : Room) (s : State) : Host.Outcome State Fault Refusal := finish (s.storePlaced access room)
def execRepackComplete (page : Nat) (s : State) : Host.Outcome State Fault Refusal := finish (s.repackDone page)
def execOverflowHoldTimeout (page : Nat) (s : State) : Host.Outcome State Fault Refusal := finish (s.holdTimeout page)
def execOverflowHoldKill (page : Nat) (s : State) : Host.Outcome State Fault Refusal := finish (s.holdKill page)
def execRemoteAck (access : Nat) (answer : PeerAnswer) (s : State) : Host.Outcome State Fault Refusal := finish (s.remoteAck access answer)
def execRemoteAccessTimeout (access : Nat) (s : State) : Host.Outcome State Fault Refusal := finish (s.remoteTimeout access)
def execPeerRemoteAccess (podctx : Nat) (addr : Addr) (op : PeerOp) (s : State) : Host.Outcome State Fault Refusal :=
  finish (s.peerAccess podctx addr op)
def execEngineSectorLand (job unit : Nat) (s : State) : Host.Outcome State Fault Refusal := finish (if s.jobs.any (·.id == job) then s.landUnit job unit none else s.tileEvent job (· == unit))
def execEngineJobComplete (job : Nat) (s : State) : Host.Outcome State Fault Refusal := finish (s.completeJob job)
/-- NMC_STACK_FAILURE: that stack's units not yet run stay unwritten (R482). -/
def execNmcStackFailure (job stack : Nat) (s : State) : Host.Outcome State Fault Refusal :=
  finish (match s.jobs.find? (·.id == job) with
    | none => s
    | some j => match j.kind with
      | .nmc .. =>
        if ¬ j.admitted ∨ j.edges ≠ [] then s
        else
          let at_ (u : Nat) : Bool := match s.physOf j (addOff j.kind.nmcDst (u : Nat)) with
            | some p => (s.channelOf p).1 == stack
            | none => false
          let us := j.units.filter fun u => at_ u && !s.nmcBegun j u
          if us = [] then s
          else us.foldl (fun (s : State) u => s.unitFail job u 4 stack 0)
            (s.log { cls := 5, sev := 1, ctx := j.ctx, unit := 4, unitNo := stack, stack := stack })
      | _ => s)
def execTileOpComplete (op : Nat) (s : State) : Host.Outcome State Fault Refusal :=
  finish (s.tileEvent op fun _ => true)
def execMatrixLoopStep (group : Nat) (s : State) : Host.Outcome State Fault Refusal := finish (s.loopStep group)
def execMatrixLoopEnd (group : Nat) (s : State) : Host.Outcome State Fault Refusal := finish (s.loopEnd group)
def execPageServiceComplete (service : Nat) (answer : PageAnswer) (s : State) : Host.Outcome State Fault Refusal :=
  finish (s.pageDone service answer)
def execPageServiceTimeout (service : Nat) (s : State) : Host.Outcome State Fault Refusal := finish (s.pageTimeout service)

end Sys2Proof.Machine
end

