-- ==== Sys2Proof/Machine/Hitches.lean ====
section
/-! DEFINITION. Standing loads at the home and in the slot (R209 to R219, R489, R490), the watch of `tawait` (R229), the expiry of
leases (R95) and of timestamps and copies (R175, R176). -/

namespace Sys2Proof.Machine

/-! ## Registration (R210 to R212) -/

/-- Live slots of a core (R216). -/
def State.coreSlots (s : State) (core : Nat) : Nat :=
  (s.groups.map fun e => if e.2.core = core then (e.2.slots.filter fun x => !x.2.gone).length else 0).foldl (· + ·) 0
/-- The subscriber enters at the home and its slot is written; the first push is sent. -/
def State.subscribe (s : State) (a : Access) (off : Nat) (addr : Addr) (line n : Nat) (each : Bool) (tag : Nat) : State :=
  let q := (Map.get? s.port.lineSeq line).getD 0
  let s := s.modPort fun p => { p with lineSeq := Map.set p.lineSeq line q }
  let x : Slot := { line := line, addr := addr, each := each, nent := n, tag := tag, fresh := List.replicate n false,
                    seqs := List.replicate n 0, sent := some (memBytes s.mem (64 * line) 64, q, 0),
                    credits := if each then n - 1 else 0 }
  let s := s.modG a.grp fun G =>
    ({ G with slots := G.slots.filter fun e => !(e.2.gone && ringOverlap G.lr.alloc off (80 * n) e.1 (80 * e.2.nent)) } : Group).setTag tag false
  s.setSlot a.grp off x
/-- HITCH_REGISTERED: the home's answer. -/
def State.hitchAnswer (s : State) (id : Nat) : State :=
  match s.access? id with
  | none => s
  | some a =>
    match s.group? a.grp, a.kind with
    | some G, .hitch off addr _ n each tag pd =>
      if ¬ s.turn a then s
      else s.reach a G .load 6 0 addr 64 fun ps =>
        let line := ps.headD 0 / 64
        let fin (s : State) (ok : Bool) : State := ((s.modT a.grp a.tid fun T => T.setP pd ok).accStep a []).accDone a
        if 256 ≤ s.coreSlots G.core then fin s false
        else match s.homeJoin line (some G.ctx) (.slot a.grp off) with
          | none => fin s false
          | some s => fin ((s.checkAll ps).subscribe a off addr line n each tag) true
    | _, _ => s

/-! ## Pushes and removal (R213, R218) -/

/-- A push lands: one event of the scratchpad's order. -/
def State.pushLand (s : State) (g off : Nat) : State :=
  match (s.group? g).bind fun G => Map.get? G.slots off with
  | none => s
  | some x => match x.sent with
    | none => s
    | some (data, q, n) =>
      let F := (x.fresh.filter (· == true)).length
      let e := if x.each then (x.head + F) % x.nent else 0
      let lost := if x.each then n else n + F
      let y := { x with fresh := x.fresh.set e true, seqs := x.seqs.set e q, coal := min 65535 (x.coal + lost), sent := none }
      let s := match s.group? g with | some G => s.catchUp G.core | none => s
      (((s.padWrite g (off + 80 * e) data).setSlot g off y.advance).modG g (·.setTag x.tag true)).reimage g
/-- The removal's confirmation lands, after every push sent before it. -/
def State.unhitchLand (s : State) (g off : Nat) : State :=
  match (s.group? g).bind fun G => Map.get? G.slots off with
  | none => s
  | some x =>
    if ¬ x.removing ∨ x.gone ∨ x.sent.isSome then s
    else ((s.setSlot g off { x with gone := true }).modG g (·.setTag x.tag true)).trimLines

/-! ## A home failure (R489, R490) -/

/-- The severing push of one subscriber, after the pushes already sent. -/
def State.sever (s : State) (g off : Nat) : State :=
  let s := s.modG g fun G => { G with slots := Map.modify G.slots off fun x => { x with next := none } }
  let s := s.pushLand g off
  match (s.group? g).bind fun G => Map.get? G.slots off with
  | none => s
  | some x => (s.setSlot g off { x with severed := true, next := none }).modG g (·.setTag x.tag true)
/-- A host queue's LATEST hitch on its tail line; the first push is sent (R212, R220). -/
def State.queueHitch (s : State) (qn line : Nat) (addr : Addr) : State :=
  match s.homeJoin line none (.queue qn) with
  | none => s
  | some s =>
    let q := (Map.get? s.port.lineSeq line).getD 0
    let x : Slot := { line := line, addr := addr, each := false, nent := 1, tag := 0, fresh := [false], seqs := [0],
                      sent := some (memBytes s.mem (64 * line) 64, q, 0) }
    { s.modPort fun p => { p with lineSeq := Map.set p.lineSeq line q } with
      queues := Map.modify s.queues qn fun Q => { Q with hitch := some x } }
/-- HITCH_HOME_FAILURE: the entries of a line are dropped; its watchers load again, and host queues register again. -/
def State.homeFail (s : State) (line : Nat) : State :=
  let subs : List (Nat × Nat) := s.groups.flatMap fun (e : Nat × Group) =>
    (e.2.slots.filter fun x => x.2.line == line && !x.2.gone && !x.2.severed).map fun (x : Nat × Slot) => (e.1, x.1)
  let watched := s.groups.any fun e => e.2.threads.any fun x => match x.2.wait with | .on (.line l _) _ _ => l / 64 == line | _ => false
  let entries := (s.port.table.filter (·.line == line)).length
  let tails := s.queues.filterMap fun e => (e.2.hitch.filter (·.line == line)).map fun x => (e.1, x.addr)
  if entries = 0 ∧ ¬ watched then s
  else
    let s := subs.foldl (fun (s : State) e => s.sever e.1 e.2) s
    let s := s.modThreads (·.lineWritten line)
    let s := (List.range (max 1 entries)).foldl (fun (s : State) _ => s.log { cls := 4, sev := 1, unit := 2, unitNo := sliceOf line }) s
    let s := s.modPort fun p => { p with table := p.table.filter (·.line != line), lineSeq := Map.erase p.lineSeq line }
    (tails.foldl (fun (s : State) e => s.queueHitch e.1 line e.2) s).trimLines

/-- The kth entry of a line is lost: its subscribers alone are severed, and a host queue among them registers again (R489, R490). -/
def State.entryFail (s : State) (line k : Nat) : State :=
  match (s.port.table.filter (·.line == line))[k]? with
  | none => s
  | some e =>
    let live (g off : Nat) : Bool := ((s.group? g).bind fun G => Map.get? G.slots off).any fun x => !x.gone && !x.severed
    let s := e.subs.foldl (fun (s : State) x => match x with | .slot g off => (if live g off then s.sever g off else s) | .queue _ => s) s
    let s := (s.log { cls := 4, sev := 1, unit := 2, unitNo := sliceOf line }).modPort fun p => { p with table := p.table.erase e }
    (e.subs.foldl (fun (s : State) x => match x with
      | .slot .. => s
      | .queue n => match (Map.get? s.queues n).bind (·.hitch) with | some h => s.queueHitch n line h.addr | none => s) s).trimLines

/-! ## The steps -/

def execHitchRegistered (access : Nat) (s : State) : Host.Outcome State Fault Refusal := finish (s.hitchAnswer access)
def execHitchPushLand (group slot : Nat) (s : State) : Host.Outcome State Fault Refusal := finish (s.pushLand group slot)
def execUnhitchConfirm (group slot : Nat) (s : State) : Host.Outcome State Fault Refusal := finish (s.unhitchLand group slot)
def execHitchHomeFailure (line : Nat) (s : State) : Host.Outcome State Fault Refusal := finish (s.homeFail line)
/-- TAWAIT_WAKE: a written line wakes a thread, which loads again (R229); a re-queued one waits for its counter to read 0 (R230). -/
def execTawaitWake (group tid : Nat) (s : State) : Host.Outcome State Fault Refusal :=
  finish (s.modG group fun G => if G.res ≠ .resident then G else G.modT tid fun T => match T.wait with
    | .on (.line _ true) _ _ => { T with wait := .ready, readySince := s.clock }
    | _ => T)
/-- LEASE_EXPIRY: its lines are unpinned (R95). -/
def execLeaseExpiry (group lease : Nat) (s : State) : Host.Outcome State Fault Refusal :=
  finish (s.modG group fun G => match Map.get? G.leases lease with
    | some l => if l.expiry ≤ s.clock then { G with leases := Map.erase G.leases lease } else G
    | none => G)
/-- PTS_SELF_ADVANCE (R176). -/
def execPtsSelfAdvance (core ticks : Nat) (s : State) : Host.Outcome State Fault Refusal :=
  finish (s.modCore core fun c => { c with pts := c.pts + max 1 ticks })
/-- CACHED_COPY_EXPIRY: the copies that serve a core are dropped; the cycle is at most 65,536 after the fill (R176). -/
def execCachedCopyExpiry (core line : Nat) (s : State) : Host.Outcome State Fault Refusal :=
  finish (s.modPort fun p => { p with copies := p.copies.filter fun c =>
    !(c.line == line && ((c.level == 0 && c.unit == core) || (c.level == 1 && c.unit == dieOf core))) })

end Sys2Proof.Machine
end

