-- ==== Sys2Proof/Machine/Records.lean ====
section
/-! DEFINITION. What the command processor reads and writes for items: launch records and their checks (R59, R448), footprints
(R64 to R66), rename pools (R68, R468), trace headers (R195, R197), the counts of host queues (R242). -/

namespace Sys2Proof.Machine

/-! ## Reads and writes of the command processor -/

/-- Whether the port passes an access and the buffer is on this device. -/
def State.devOk (s : State) (ctx : Nat) (k : PKind) (a : Addr) (n : Nat) : Bool :=
  (s.rangeCheck ctx k a n).isNone && !s.inRemote ctx a

/-! ## Launch records (R59, R60) -/

def LaunchRec.ofBytes (b : List Byte) : LaunchRec :=
  let f (o n : Nat) : Nat := leNat ((b.drop o).take n)
  let a (o : Nat) : Addr := BitVec.ofNat 64 (f o 8)
  { entry := a 0, ngroups := if f 8 4 = 0 then 2 ^ 32 else f 8 4, gsize := f 0x0C 2, gang := f 0x0E 1, nreg := f 0x0F 1,
    scratch := f 0x10 4, tagbase := f 0x14 1, tagcnt := f 0x15 1, flags := f 0x16 2, roles := f 0x18 8, param := a 0x20,
    paramlen := f 0x28 4, fpcount := f 0x2C 2, prio := f 0x2E 1, queue := f 0x2F 1, footprint := a 0x30, trace := a 0x38,
    handler := a 0x40, cont := a 0x48, join := a 0x50, tiles := f 0x58 1, accs := f 0x59 1, twctx := f 0x5A 1 }
/-- A footprint entry (R64), or none where a reserved bit or `MODE` is set. -/
def fpEntry (x : Nat) : Option Fp :=
  if bitsN x 127 84 ≠ 0 ∨ 3 < bitsN x 19 16 then none else some ⟨bitsN x 15 0, bitsN x 51 20, bitsN x 83 52, bitsN x 19 16⟩
/-- The footprint entries of a record; none where one cannot be read or is malformed. -/
def State.fpEntries (s : State) (ctx : Nat) (r : LaunchRec) : Option (List Fp) :=
  if r.fpcount = 0 then some []
  else if r.footprint.toNat % 16 ≠ 0 then none
  else (s.readDev ctx r.footprint (16 * r.fpcount)).bind fun b =>
    (List.range r.fpcount).foldl (fun (acc : Option (List Fp)) i =>
      acc.bind fun l => (fpEntry (leNat ((b.drop (16 * i)).take 16))).map fun e => l ++ [e]) (some [])
def LaunchRec.traced (r : LaunchRec) : Bool := bitN r.flags 0 == 1
def traceLen (ngroups : Nat) : Nat := 256 * (ngroups + 1)
def State.traceOk (s : State) (ctx : Nat) (a : Addr) (n : Nat) : Bool :=
  a.toNat % 256 == 0 && s.devOk ctx .load a n && s.devOk ctx .store a n
/-- Cores of a die that are online (R426). -/
def State.online (s : State) (die : Nat) : Nat := ((List.range 64).filter fun k => !(s.core (64 * die + k)).retired).length
/-- The conditions of R59 by their REASON in R448; the lowest counts. -/
def State.recordBad (s : State) (ctx : Nat) (b : List Byte) : Option Nat :=
  let r := LaunchRec.ofBytes b
  let role (k : Nat) : Nat := r.roles / 2 ^ (4 * k) % 16
  if (s.rangeCheck ctx .fetch r.entry 1).isSome then some 2
  else if r.gang ≠ 0 ∧ r.ngroups % r.gang ≠ 0 then some 3
  else if r.gsize < 32 ∨ 1024 < r.gsize ∨ r.gsize % 32 ≠ 0 ∨ r.gang = 0 ∨ 16 < r.gang ∨ r.nreg < 8 ∨ 192 < r.nreg ∨ r.nreg % 8 ≠ 0 then some 4
  else if 524288 < r.scratch ∨ r.scratch % 256 ≠ 0 then some 5
  else if 63 < r.tagbase ∨ 64 < r.tagbase + r.tagcnt then some 6
  else if 16 ≤ r.flags ∨ (r.traced ∧ r.trace = 0) then some 7
  else if (List.range 16).any fun k => if k < r.gang then decide (2 < role k) else decide (role k ≠ 0) then some 8
  else if 3 < r.prio ∨ 63 < r.queue then some 9
  else if 16 < r.tiles ∨ 8 < r.accs ∨ 4 < r.twctx then some 10
  else if (b.drop 0x5B).any (· ≠ 0) then some 11
  else if (s.fpEntries ctx r).isNone then some 12
  else none

/-! ## Footprints and edges (R64 to R66) -/

def Fp.overlaps (a b : Fp) : Bool :=
  a.buf == b.buf && (decide ((b.first + 2 ^ 32 - a.first % 2 ^ 32) % 2 ^ 32 < a.count) || decide ((a.first + 2 ^ 32 - b.first % 2 ^ 32) % 2 ^ 32 < b.count))
/-- Whether the later of two footprints takes an edge to the earlier. -/
def fpEdge (later earlier : List Fp) : Bool :=
  later.any fun x => x.mode != 3 && earlier.any fun y => x.overlaps y && !(x.mode == 0 && y.mode == 0)
/-- Edges to the earlier items and admitted jobs of a context, but for an issuer and its ancestors. -/
def State.edgesOf (s : State) (ctx : Nat) (anc : List Nat) (fp : List Fp) : List Nat :=
  ((s.items.filter fun i => i.ctx == ctx && !anc.contains i.id && fpEdge fp i.fp).map (·.id))
    ++ ((s.jobs.filter fun j => j.ctx == ctx && j.admitted && fpEdge fp j.fp).map (·.id))
/-- A record's footprint: its entries, the parameter block as READ, the trace object in its mode. An entry that renames a buffer
without 64 KiB page entries or without RENAME acts as WRITE (R68). -/
def State.renames_ (s : State) (ctx : Nat) (f : Fp) : Bool :=
  f.mode == 3 && (match s.ctx? ctx with | some c => let e := s.buf c f.buf; e.valid && e.rename && e.paged && !e.pg2m | none => false)
def State.footprintOf (s : State) (ctx : Nat) (r : LaunchRec) (again : Bool) : List Fp :=
  let es := ((s.fpEntries ctx r).getD []).filter (·.count != 0)
  -- a RENAME entry is rounded outward to whole pages (R68)
  let es := es.map fun f =>
    if f.mode ≠ 3 then f
    else if again ∨ ¬ s.renames_ ctx f then { f with mode := 1 }
    else { f with first := f.first / 16 * 16, count := ((f.first + f.count - 1) / 16 + 1 - f.first / 16) * 16 }
  es ++ fpOf 0 r.param r.paramlen ++ (if r.traced then fpOf (if again then 2 else 1) r.trace (traceLen r.ngroups) else [])

/-! ## Rename pools (R68, R468) -/

/-- The 64 KiB pages of a buffer that a RENAME entry covers (R65, R68). -/
def State.renamePages (s : State) (ctx : Nat) (f : Fp) : List Nat :=
  match s.ctx? ctx with
  | none => []
  | some c =>
    let pages := (((s.buf c f.buf).size + 65535) / 65536)
    let first := f.first / 16
    let n := (f.first + f.count - 1) / 16 + 1 - first
    (((List.range (pages / 2 ^ 28 + 1)).flatMap fun j => (List.range n).map fun k => (first + k) % 2 ^ 28 + 2 ^ 28 * j).filter (· < pages)).eraseDups
/-- Buffers and pages that a RENAME writer needs. -/
def State.renameNeeds (s : State) (ctx : Nat) (fp : List Fp) : List (Nat × List Nat) :=
  let rs := fp.filter (·.mode == 3)
  ((rs.map (·.buf)).eraseDups).map fun b => (b, ((rs.filter (·.buf == b)).flatMap (s.renamePages ctx)).eraseDups)
def State.renameShort (s : State) (ctx : Nat) (needs : List (Nat × List Nat)) : Bool :=
  needs.any fun e => decide ((s.poolOf ctx e.1).length < e.2.length)
/-- Whether pages of a short pool may still return: some item holds them, or they wait for readers. -/
def State.mayReturn (s : State) (ctx : Nat) (needs : List (Nat × List Nat)) : Bool :=
  needs.all fun e => decide (e.2.length ≤ (s.poolOf ctx e.1).length)
    || (s.items.any fun i => i.ctx == ctx && i.renames.any fun r => r.own && r.buf == e.1)
    || s.pageReturns.any fun p => p.2.1 == ctx && p.2.2.1 == e.1
/-- A page of memory that reads zero, its poison gone. -/
def State.zeroPage (s : State) (phys : Nat) : State :=
  let inside (a : Nat) : Bool := decide (phys ≤ a ∧ a < phys + 65536)
  { s with mem := s.mem.filter fun c => !(inside c.1),
           port := { s.port with poison := s.port.poison.filter (fun x => !(inside (32 * x))),
                                 copies := s.port.copies.filter fun c => !(inside (128 * c.line)) } }
/-- Fresh pages for a writer. -/
def State.takeFresh (s : State) (ctx : Nat) (needs : List (Nat × List Nat)) : State × List Rename :=
  needs.foldl (fun (acc : State × List Rename) e =>
    let pool := acc.1.poolOf ctx e.1
    let rs : List Rename := (e.2.zip pool).map fun x => ⟨e.1, x.1, x.2, true⟩
    let s := rs.foldl (fun (s : State) r => s.zeroPage r.fresh) acc.1
    let s := match s.ctx? ctx with | some c => s.placePages (s.buf c e.1) (rs.map fun (r : Rename) => r.fresh / 65536) | none => s
    (s.setPool ctx e.1 (pool.drop e.2.length), acc.2 ++ rs)) (s, [])
/-- The switch at the writer's completion: the page map names the fresh pages; items admitted before keep the old ones, which
return to the pool when the last of them completes. -/
def State.switchPages (s : State) (it : Item) : State :=
  match s.ctx? it.ctx with
  | none => s
  | some c =>
    let before := (s.items.takeWhile fun i => i.id != it.id).filter (·.ctx == it.ctx)
    let jobs := s.jobs.filter fun (j : Job) => j.ctx == it.ctx && j.admitted && decide (j.seq < it.id)
    (it.renames.filter (·.own)).foldl (fun (s : State) r =>
      let e := s.buf c r.buf
      let old := s.pageByte e (65536 * r.page)
      let range : Fp := ⟨r.buf, 16 * r.page % 2 ^ 32, 16, 0⟩
      let readers := (before.filter fun i => i.fp.any range.overlaps).map (·.id) ++ (jobs.filter fun j => j.fp.any range.overlaps).map (·.id)
      let s := match old with
        | none => s
        | some p =>
          { s with
            items := s.items.map fun (i : Item) =>
              if readers.contains i.id ∧ ¬ (i.renames.any fun (x : Rename) => x.buf == r.buf && x.page == r.page)
              then { i with renames := ⟨r.buf, r.page, p, false⟩ :: i.renames } else i,
            jobs := s.jobs.map fun (j : Job) =>
              if readers.contains j.id ∧ ¬ (j.renames.any fun (x : Rename) => x.buf == r.buf && x.page == r.page)
              then { j with renames := ⟨r.buf, r.page, p, false⟩ :: j.renames } else j,
            pageReturns := s.pageReturns ++ [(readers, it.ctx, r.buf, p)] }
      let s := s.modPort fun p => { p with packed := (p.packed.filter (· != r.fresh / 65536)) ++ (if e.compress then [r.fresh / 65536] else []) }
      s.pokeRaw (e.base + 8 * r.page) (leBytes 8 (r.fresh + (if e.compress then 2 else 0) + 1))) s

/-! ## Trace headers (R195, R197) -/

/-- The header a traced launch writes at admission, `LIMIT` and `XLIMIT` left as software wrote them, and `DONE` cleared. -/
def State.traceBegin (s : State) (ctx : Nat) (r : LaunchRec) (rec_ : List Byte) (lsn : Nat) : State :=
  let put (s : State) (o : Nat) (b : List Byte) : State := (s.cpWrite ctx (addOff r.trace (o : Nat)) b).getD s
  let s := put s 0 (leBytes 4 lsn ++ leBytes 4 r.ngroups ++ leBytes 2 256 ++ leBytes 2 0)
  let s := put s 0x0D (leBytes 1 1 ++ leBytes 2 0)
  let s := put s 0x14 (leBytes 4 0 ++ leBytes 8 0)
  let s := put s 0x80 rec_
  (List.range r.ngroups).foldl (fun (s : State) g =>
    match s.readDevNat ctx (addOff r.trace (256 * (g + 1) + 4 : Nat)) 1 with
    | some f => if bitN f 3 = 1 then put s (256 * (g + 1) + 4) (leBytes 1 (f - 8)) else s
    | none => s) s
/-- The status at the completion of a traced launch (R197, R483). -/
def State.traceEnd (s : State) (it : Item) : State :=
  if ¬ it.lr.traced then s
  else
    let put (v : Nat) : Option State := s.cpWrite it.ctx (addOff it.lr.trace 0x0D) (leBytes 1 v)
    match it.failedRecord with
    | some a => ((put 6).getD s).log { cls := 9, sev := 1, ctx := it.ctx, detail := 0x1C, addr := a.toNat }
    | none => match put 2 with
      | some s => s
      | none => s.log { cls := 9, sev := 1, ctx := it.ctx, detail := 0x1C, addr := it.lr.trace.toNat }

/-! ## The counts of host queues (R240, R242) -/

/-- One more entry of a queue is taken. -/
def State.queueTaken (s : State) (qn : Nat) : State :=
  match Map.get? s.queues qn with
  | none => s
  | some q =>
    let h := (q.head + 1) % 2 ^ 32
    let s := { s with queues := Map.set s.queues qn { q with head := h } }
    match s.queueBytes q .store q.heada 4 with
    | some ps => s.writeEvent { ctx := q.ctx, stamp := none } (ps.zip (leBytes 4 h))
    | none => s
/-- The issuing thread's CP falls at admission or refusal (R319). -/
def State.lowerCp (s : State) (w : Waiting) : State :=
  match w.issuer with
  | some (g, t, _) => s.modT g t fun T => { T with cp := T.cp - 1 }
  | none => s

end Sys2Proof.Machine
end

