-- ==== Sys2Proof/Machine/Items.lean ====
section
/-! DEFINITION. The dependence table: admission of launches, tasks, relaunches and engine jobs (R60, R66, R69, R184, R192, R448,
R484), task deques (R225, R228, R492), and completion (R67, R222, R491). -/

namespace Sys2Proof.Machine

/-! ## Task deques -/

/-- The lowest free place in a context's task spill area. -/
def State.spillPlace (s : State) (ctx : Nat) : Nat :=
  let used := s.cores.flatMap fun e => (e.2.spilled.filter fun x => (s.item? x.1).any fun i => i.ctx == ctx).map (·.2.2)
  ((List.range (used.length + 1)).find? fun k => !used.contains k).getD 0
/-- One entry goes to its context's spill area, or the area is absent, full or refused (R492). -/
def State.spillEntry (s : State) (core : Nat) (e : Nat × Nat) : State × Bool :=
  match (s.item? e.1).bind fun i => (s.ctx? i.ctx).map fun c => (i.ctx, c) with
  | none => (s, false)
  | some (n, c) =>
    let k := s.spillPlace n
    let a := addOff c.tqsa (16 * k : Nat)
    if c.tqsa = 0 ∨ c.tspillBad ∨ c.tqsn ≤ k then (s, false)
    else match s.port_ n [] .store a 16 with
      | .ok _ =>
        ((s.scribble n a 16).modCore core fun C =>
          { C with deque := C.deque.filter (· != e), spilled := C.spilled ++ [(e.1, e.2, k)] }, true)
      | .page buf pg => ((s.startPage n buf pg).2, false)
      | _ => ((s.log { cls := 9, sev := 1, ctx := n, addr := a.toNat }).modCtx n fun c => { c with tspillBad := true }, false)
/-- The 32 oldest entries of a full deque are spilled as one block, or none. -/
def State.spillBlock (s : State) (core : Nat) : State × Bool :=
  let r := ((s.core core).deque.take 32).foldl (fun (acc : State × Bool) e =>
    if acc.2 then acc.1.spillEntry core e else acc) (s, true)
  if r.2 then r else ({ r.1 with cores := s.cores, mem := s.mem }, false)
/-- A ready task enters the bottom of its core's deque; without room it waits in the dependence table. -/
def State.pushDeque (s : State) (id : Nat) : State :=
  match s.item? id with
  | none => s
  | some it =>
    let enter (s : State) : State :=
      (s.modCore it.core fun C => { C with deque := C.deque ++ [(id, s.clock)] }).modItem id fun i => { i with inDeque := true }
    if (s.core it.core).deque.length < 64 then enter s
    else let (s, ok) := s.spillBlock it.core; if ok then enter s else s
/-- Every ready task that stands in no deque tries to enter one, in order of admission. -/
def State.feedDeques (s : State) : State :=
  ((s.items.filter fun i => i.kind == .task && i.edges.isEmpty && !i.inDeque && !i.taken).map (·.id)).foldl (fun (s : State) i => s.pushDeque i) s
/-- Spilled entries come back, oldest first, when the deque falls to 16; poison in one kills its context (R228, R492). -/
def State.refill (s : State) (core : Nat) : State :=
  let C := s.core core
  if 16 < C.deque.length ∨ C.spilled = [] then s
  else
    let back := C.spilled.take (64 - C.deque.length)
    let s := s.modCore core fun C => { C with spilled := C.spilled.drop back.length, deque := back.map (fun e => (e.1, e.2.1)) ++ C.deque }
    back.foldl (fun (s : State) e =>
      match (s.item? e.1).bind fun i => (s.ctx? i.ctx).map fun c => (i.ctx, addOff c.tqsa (16 * e.2.2 : Nat)) with
      | none => s
      | some (n, a) => match s.cpPoison n [(.load, a, 16)] with
        | some (a, x) => s.poisonKill n a x
        | none => s) s

/-! ## The judgement of a record (R448) -/

inductive Verdict
  | refuse (reason : Nat)
  | wait
  | miss (buf pg : Nat)
  | poison (a : Addr) (sector : Nat)
  | go (b : List Byte)
deriving DecidableEq, Repr

/-- A page to serve or a poisoned sector among reads, before going on. -/
def State.clean (s : State) (ctx : Nat) (dead : List Nat) (l : List (PKind × Addr × Nat)) (go : Verdict) : Verdict :=
  match s.cpMiss ctx dead l, s.cpPoison ctx (l.filter (·.1 == .load)) with
  | some (b, p), _ => .miss b p
  | none, some (a, x) => .poison a x
  | none, none => go
/-- The conditions on a record once its bytes are read. -/
def State.judgeRecord (s : State) (w : Waiting) (b : List Byte) : Verdict :=
  let r := LaunchRec.ofBytes b
  let fps := if r.fpcount = 0 ∨ r.footprint.toNat % 16 ≠ 0 then [] else probes .load r.footprint (16 * r.fpcount)
  match s.recordBad w.ctx b with
  | some 12 => s.clean w.ctx w.dead fps (.refuse 12)
  | some n => .refuse n
  | none => s.clean w.ctx w.dead fps <|
    if (List.range 8).all fun d => decide (s.online d < r.gang) then .refuse 13
    else
      let needs := s.renameNeeds w.ctx (s.footprintOf w.ctx r false)
      if s.renameShort w.ctx needs then (if s.mayReturn w.ctx needs then .wait else .refuse 14)
      else
        let tps := if r.traced then probes .store r.trace (traceLen r.ngroups) else []
        if r.traced ∧ ¬ s.traceOk w.ctx r.trace (traceLen r.ngroups) then .refuse 15
        else s.clean w.ctx w.dead tps <|
          if (s.cpMiss w.ctx [] tps).isSome then .refuse 15
          else if w.joinBad then .refuse 16
          else if w.joined ∨ r.join = 0 then .go b
          else match s.port_ w.ctx [] .atomic r.join 8 with
            | .ok _ => .go b
            | .page buf pg => if w.dead.contains (s.pteOf w.ctx buf pg) then .refuse 16 else .miss buf pg
            | _ => .refuse 16
def State.judgeLaunch (s : State) (w : Waiting) : Verdict :=
  match w.bytes with
  | some b => s.judgeRecord w b
  | none =>
    -- a record of `launch` or `tspawn` is the one its issue read (R319)
    if w.addr.toNat % 128 ≠ 0 ∨ w.issuer.isSome then .refuse 1
    else s.clean w.ctx w.dead [(.load, w.addr, 128)] <| match s.readDev w.ctx w.addr 128 with
      | none => .refuse 1
      | some b => s.judgeRecord w b

/-- A relaunch's trace object (R484); the record it goes by is the header. -/
def State.judgeRelaunch (s : State) (w : Waiting) : Verdict :=
  let a := w.addr
  if ¬ s.traceOk w.ctx a 256 then .refuse 1
  else s.clean w.ctx w.dead [(.load, a, 256)] <| match s.readDev w.ctx a 256 with
    | none => .refuse 1
    | some h =>
      let f (o n : Nat) : Nat := leNat ((h.drop o).take n)
      let b := h.drop 0x80
      let r := LaunchRec.ofBytes b
      let n := if f 4 4 = 0 then 2 ^ 32 else f 4 4
      let known := [2, 4, 5].contains (f 0x0D 1)
      let tps := probes .store a (traceLen n)
      if known ∧ ¬ s.traceOk w.ctx a (traceLen n) then .refuse 1
      else s.clean w.ctx w.dead (if known then tps else []) <|
        if known ∧ (s.cpMiss w.ctx [] tps).isSome then .refuse 1
        else if ¬ known then .refuse 2
        else if f 8 2 ≠ 256 ∨ f 4 4 ≠ leNat ((b.drop 8).take 4) then .refuse 3
        else
          let fps := if r.fpcount = 0 ∨ r.footprint.toNat % 16 ≠ 0 then [] else probes .load r.footprint (16 * r.fpcount)
          s.clean w.ctx w.dead fps <|
            if (s.recordBad w.ctx b).isSome then .refuse 4
            else if w.param ≠ 0 ∧ (s.rangeCheck w.ctx .load w.param r.paramlen).isSome then .refuse 5
            else if f 0x0C 1 = 0 then .refuse 6
            else if r.join = 0 then .go h
            else match s.port_ w.ctx [] .atomic r.join 8 with
              | .ok _ => .go h
              | .page buf pg => if w.dead.contains (s.pteOf w.ctx buf pg) then .refuse 7 else .miss buf pg
              | _ => .refuse 7

/-! ## Admission -/

/-- The head of a queue is served: it leaves, and the turn passes on (R69). -/
def State.dropHead (s : State) (q : Nat) : State := ({ s with hwq := Map.modify s.hwq q List.tail }).modEdge fun e => { e with hwLast := q }
/-- The entry of a host queue is taken: it is counted (R242). -/
def State.countTaken (s : State) (w : Waiting) : State := match w.host with | some h => s.queueTaken h.queue | none => s
/-- The join counter that `launch` or `tspawn` raised for a record. -/
def Waiting.raised (w : Waiting) : Addr :=
  match w.bytes with
  | some b => if w.joined ∧ ¬ w.joinBad then (LaunchRec.ofBytes b).join else 0
  | none => 0
/-- The page to serve before a refusal lowers that counter (R465). -/
def State.undoMiss (s : State) (w : Waiting) : Option (Nat × Nat) :=
  if w.kind = .relaunch ∨ w.raised = 0 then none else s.cpMiss w.ctx w.dead [(.atomic, w.raised, 8)]
/-- A record refused at admission runs no group (R448, R484). -/
def State.refuseHead (s : State) (q : Nat) (w : Waiting) (reason : Nat) : State :=
  let s := ((s.dropHead q).countTaken w).lowerCp w
  if w.kind = .relaunch then
    match w.host, w.issuer with
    | some h, _ => s.status h 2 reason 0
    | none, some (g, t, _) => s.holdFault w.ctx g t { order := w.order, trap := { cause := 0x1C, arg := reason, addr := w.addr.toNat, cls := 1 } }
    | none, none => s
  else
    -- the decrement that undoes the increment; one that leaves the counter negative is logged (R491)
    let s := if w.raised = 0 then s
      else match s.joinAdd w.ctx w.raised (-1) with
        | (s, some v) => if v < 0 then s.log { cls := 9, sev := 1, ctx := w.ctx, detail := 0x1D, addr := w.raised.toNat } else s
        | (s, none) => s
    match w.host with
    | some h => s.status h 2 reason 0
    | none => s.log { cls := 9, sev := 1, ctx := w.ctx, detail := 65536 * reason + 0x300, addr := w.addr.toNat }
/-- The item of a launch or task enters the table (R66, R192, R197, R221). -/
def State.admitLaunch (s : State) (q : Nat) (w : Waiting) (b : List Byte) : State :=
  let r := LaunchRec.ofBytes b
  let s := ((s.dropHead q).countTaken w).lowerCp w
  let lsn := ((match s.ctx? w.ctx with | some c => c.lsn | none => 0) + 1) % 2 ^ 32
  let s := s.modCtx w.ctx fun c => { c with lsn := lsn }
  let fp := s.footprintOf w.ctx r false
  let (s, ren) := s.takeFresh w.ctx (s.renameNeeds w.ctx fp)
  let s := if r.traced then s.traceBegin w.ctx r b lsn else s
  let s := if w.joined ∨ r.join = 0 then s else (s.joinAdd w.ctx r.join 1).1
  let (id, s) := s.fresh
  let it : Item := { id := id, ctx := w.ctx, kind := w.kind, addr := w.addr, lr := r, lsn := lsn, fp := fp,
                     edges := s.edgesOf w.ctx w.anc fp, anc := w.anc, core := (w.issuer.map (·.2.2)).getD 0,
                     groupsLeft := r.ngroups, host := w.host, renames := ren, code := some s.mem, ts := s.topTs }
  if s.frozen w.ctx then s else ({ s with items := s.items ++ [it] }).feedDeques
/-- The item of a relaunch (R201, R202): a new parameter block replaces the recorded one. -/
def State.admitRelaunch (s : State) (q : Nat) (w : Waiting) (h : List Byte) : State :=
  let s := ((s.dropHead q).countTaken w).lowerCp w
  let r := LaunchRec.ofBytes (h.drop 0x80)
  let hf := leNat ((h.drop 0x0A).take 2)
  let put (s : State) (o : Nat) (b : List Byte) : State := (s.cpWrite w.ctx (addOff w.addr (o : Nat)) b).getD s
  let s := if w.param = 0 then s else put (put s 0xA0 (leBytes 8 w.param.toNat)) 0x0A (leBytes 2 (hf ||| 2))
  let r := { r with param := if w.param = 0 then r.param else w.param, trace := w.addr, flags := r.flags ||| 1 }
  let fp := s.footprintOf w.ctx r true
  let s := if r.join = 0 then s else (s.joinAdd w.ctx r.join 1).1
  let (id, s) := s.fresh
  let it : Item := { id := id, ctx := w.ctx, kind := .relaunch, addr := w.addr, lr := r, lsn := 0, fp := fp,
                     edges := s.edgesOf w.ctx w.anc fp, anc := w.anc, host := w.host,
                     rel := some { trace := w.addr }, code := some s.mem, ts := s.topTs }
  if s.frozen w.ctx then s else { s with items := s.items ++ [it] }
def State.judge (s : State) (w : Waiting) : Verdict := if w.kind = .relaunch then s.judgeRelaunch w else s.judgeLaunch w

/-- Admission stopped everywhere: a quiesced device, and a checkpoint or QUIESCE under way (R247, R248, R426). -/
def State.stopped (s : State) : Bool :=
  s.edge.quiesced || s.edge.ckpt || s.edge.running.any fun e => match e.2.2 with | .ckpt .. | .quiesce => true | _ => false
/-- `PRIO` of a waiting record. -/
def State.headPrio (s : State) (w : Waiting) : Nat :=
  match w.bytes with
  | some b => (LaunchRec.ofBytes b).prio
  | none => (s.readDevNat w.ctx (addOff w.addr (if w.kind = .relaunch then 0xAE else 0x2E : Nat)) 1).getD 0
/-- Whether the head of a queue can be admitted or refused now. -/
def State.headOpen (s : State) (w : Waiting) : Bool :=
  !s.stopped && !s.tableFull && !s.frozen w.ctx && w.waits.isEmpty && (match s.judge w with | .wait => false | _ => true)
def State.head (s : State) (q : Nat) : Option Waiting := (Map.get? s.hwq q).bind (·.head?)
/-- The queue whose head is next: the highest PRIO among the heads that can go; of equal ones the first behind the queue served last,
in a circle (R69). -/
def State.nextQueues (s : State) : List Nat :=
  let hs := (List.range 64).filterMap fun q => (s.head q).bind fun w => if s.headOpen w then some (q, s.headPrio w) else none
  let top := hs.foldl (fun m e => max m e.2) 0
  let turn (q : Nat) : Nat := (q + 63 - s.edge.hwLast % 64) % 64
  ((Map.sortBy (fun a b => decide (turn a ≤ turn b)) ((hs.filter (·.2 == top)).map (·.1))).head?).toList
def State.admitQueue (s : State) (q : Nat) : State :=
  match s.head q with
  | none => s
  | some w =>
    if ¬ (s.nextQueues.contains q) then s
    else match s.judge w with
      | .wait => s
      | .miss buf pg =>
        let (id, s) := s.startPage w.ctx buf pg
        { s with hwq := Map.modify s.hwq q fun l => match l with | [] => [] | w :: r => { w with waits := id :: w.waits } :: r }
      | .poison a x => s.poisonKill w.ctx a x
      | .refuse n =>
        match s.undoMiss w with
        | some (buf, pg) =>
          let (id, s) := s.startPage w.ctx buf pg
          { s with hwq := Map.modify s.hwq q fun l => match l with | [] => [] | w :: r => { w with waits := id :: w.waits } :: r }
        | none => s.refuseHead q w n
      | .go b => if w.kind = .relaunch then s.admitRelaunch q w b else s.admitLaunch q w b

/-! ## Engine jobs (R184, R343, R480, R482) -/

/-- A transform whose size is known only from the records it reads at admission starts under its group's leave: the state with its charge,
or none while the group holds no leave (R76). -/
def State.jobLeave (s : State) (j : Job) (ls : List Layout) : Option State :=
  if j.charge ≠ 0 ∨ s.txLevel j.ctx ls = 0 then some s
  else match s.group? j.grp with
    | some G => if 1 ≤ G.grant then some (s.modJob j.id fun j => { j with charge := s.leaveId j.grp }) else none
    | none => some s
/-- Admission of a job, in the order of the issue events of its context. -/
def State.admitJob (s : State) (id : Nat) : State :=
  match s.jobs.find? (·.id == id) with
  | none => s
  | some j =>
    let first := (s.jobs.find? fun x => x.ctx == j.ctx && !x.admitted).any (·.id == id)
    if j.admitted ∨ ¬ first ∨ s.tableFull ∨ s.frozen j.ctx ∨ ¬ j.waits.isEmpty then s
    else
      let recs : List (PKind × Addr × Nat) := match j.kind with
        | .txfm code d a => (PKind.load, d, 64) :: (PKind.load, a, 64) :: (if code = 4 then [(PKind.load, addOff a 64, 64)] else [])
        | _ => []
      match s.cpMiss j.ctx j.dead recs, s.cpPoison j.ctx recs with
      | some (buf, pg), _ =>
        let (sv, s) := s.startPage j.ctx buf pg
        s.modJob id fun j => { j with waits := sv :: j.waits }
      | none, some (a, x) => s.poisonKill j.ctx a x
      | none, none =>
        let ls := match j.kind with | .txfm code d a => s.txLayouts j.ctx code d a | _ => some []
        match (if (s.jobRefused j ls).isSome then some s else s.jobLeave j (ls.getD [])) with
        | none => if s.leaves.any (fun q => q.grp == j.grp && q.level == 1) then s else s.askLeave j.grp 1
        | some s =>
        let (seq, s) := s.fresh
        let s := s.modT j.grp j.tid fun T => { T with cp := T.cp - 1 }
        let s := match s.jobRefused j ls with
          | some f => s.modJob id fun j => { j with admitted := true, seq := seq, fault := some f }
          | none =>
            let l := ls.getD []
            let fp := s.jobFp j
            let edges := s.edgesOf j.ctx (s.ancestry j.item) fp
            let units := s.jobUnits j l
            s.modJob id fun j => { j with admitted := true, seq := seq, fp := fp, edges := edges, layouts := l, units := units }
        match s.jobs.find? (·.id == id) with
        | some j => if j.units.isEmpty then s.completeJob id else s
        | none => s

/-! ## Completion (R67, R222) -/

/-- Whether an item has completed: its groups gone with their stores placed, its jobs over (R67); a relaunch when its rounds are. -/
def State.itemOver (s : State) (it : Item) : Bool :=
  it.edges.isEmpty && it.waits.isEmpty && (match it.rel with | some r => r.ended.isSome | none => it.groupsLeft == 0) &&
    !(s.jobs.any (·.item == it.id)) && !(s.groups.any fun e => e.2.item == it.id)
/-- A continuation enters the queue its record names, as a launch without a parent. -/
def State.enqueueCont (s : State) (ctx : Nat) (cont : Addr) : State :=
  let q := (s.readDevNat ctx (addOff cont 0x2F) 1).getD 0 % 64
  s.pushHw q { ctx := ctx, kind := .launch, addr := cont }
/-- The decrement of the join counter, and the continuation (R222, R491). -/
def State.joinEnd (s : State) (it : Item) : State :=
  if it.lr.join = 0 then (if it.lr.cont = 0 then s else s.enqueueCont it.ctx it.lr.cont)
  else
    let bad (s : State) : State := s.log { cls := 9, sev := 1, ctx := it.ctx, detail := 0x1D, addr := it.lr.join.toNat }
    match s.joinAdd it.ctx it.lr.join (-1) with
    | (s, none) => if s.frozen it.ctx then s else bad s
    | (s, some v) => if v < 0 then bad s else if v = 0 ∧ it.lr.cont ≠ 0 then s.enqueueCont it.ctx it.lr.cont else s
/-- The page an item's completion needs first: of its trace header, its join counter, or the QUEUE of its continuation (R465). -/
def State.endMiss (s : State) (it : Item) : Option (Nat × Nat) :=
  let last : Bool := match s.port_ it.ctx [] .atomic it.lr.join 8 with | .ok ps => leNat (s.gather ps) == 1 | _ => false
  let tr : List (PKind × Addr × Nat) := if it.rel.isNone ∧ it.lr.traced then [(.store, addOff it.lr.trace 0x0D, 1)] else []
  let jn : List (PKind × Addr × Nat) := if it.lr.join = 0 then [] else [(.atomic, it.lr.join, 8)]
  let ct : List (PKind × Addr × Nat) := if it.lr.cont = 0 ∨ (it.lr.join ≠ 0 ∧ ¬ last) then [] else [(.load, addOff it.lr.cont 0x2F, 1)]
  s.cpMiss it.ctx it.dead (tr ++ jn ++ ct)
/-- ITEM_COMPLETE. -/
def State.completeItem (s : State) (id : Nat) : State :=
  match s.item? id with
  | none => s
  | some it =>
    if ¬ s.itemOver it ∨ s.frozen it.ctx then s
    else match s.endMiss it with
    | some (buf, pg) =>
      let (sv, s) := s.startPage it.ctx buf pg
      s.modItem id fun i => { i with waits := sv :: i.waits }
    | none =>
      let s := if it.rel.isNone then s.traceEnd it else s
      let s := s.switchPages it
      let s := State.clearEdges { s with items := s.items.filter (·.id != id) } id
      let s := s.returnPages id
      let s := s.joinEnd it
      let s := match it.host with
        | none => s
        | some h => s.status h (match it.rel with | some r => if r.ended = some true then 3 else 1 | none => 1) 0 it.shownLsn
      let s := s.modCtx it.ctx fun c => { c with phaseDone := c.phaseDone + 1 }
      let s := match s.ctx? it.ctx with
        | some c => if c.evs ≠ 0 ∧ c.usable ∧ c.advcnt ≠ 0 ∧ c.phaseDone = c.advcnt then s.askPhase it.ctx none else s
        | none => s
      s.feedDeques

/-! ## The steps -/

def execItemAdmit (which : AdmitSel) (s : State) : Host.Outcome State Fault Refusal :=
  finish (match which with | .queue q => s.admitQueue q | .job id => s.admitJob id)
def execItemComplete (item : Nat) (s : State) : Host.Outcome State Fault Refusal := finish (s.completeItem item)

end Sys2Proof.Machine
end

