-- ==== Sys2Proof/Machine/Relaunch.lean ====
section
/-! DEFINITION. Relaunch: the selection of groups, the rounds and their end (R201 to R208, R485). -/

namespace Sys2Proof.Machine

/-! ## Selection (R203) -/

/-- The extents of a list in a record, as ranges. -/
def recExtents (b : List Byte) (off n : Nat) : List Fp :=
  (List.range n).map fun i =>
    let x := leNat ((b.drop (off + 8 * i)).take 8)
    ⟨bitsN x 15 0, bitsN x 47 16, bitsN x 63 48, 0⟩
/-- The granules of a buffer a range covers, by full number (R65). -/
def granulesOf (size : Nat) (f : Fp) : List Nat :=
  let total := (size + 4095) / 4096
  (List.range (total / 2 ^ 32 + 1)).flatMap fun j => ((List.range f.count).map fun k => (f.first + k) % 2 ^ 32 + 2 ^ 32 * j).filter (· < total)
def Fp.covers (f : Fp) (buf g : Nat) : Bool := f.buf == buf && decide ((g + 2 ^ 32 - f.first % 2 ^ 32) % 2 ^ 32 < f.count)
/-- The stamp words of the granules of some extents, with the granule each is of. -/
def State.stampWords (s : State) (ctx : Nat) (reads : List Fp) : List (Nat × Nat × Addr) :=
  match s.ctx? ctx with
  | none => []
  | some c => reads.flatMap fun f =>
      let e := s.buf c f.buf
      if ¬ (e.valid && e.stamp) then [] else (granulesOf e.size f).map fun g => (f.buf, g, addOff e.stamps (4 * g : Nat))
/-- Whether a record's stamps select it; none where a stamp cannot be read. -/
def State.stampsTouch (s : State) (ctx rlsn : Nat) (reads writes : List Fp) : Option Bool :=
  if (s.ctx? ctx).isNone then none
  else (s.stampWords ctx reads).foldl (fun (acc : Option Bool) e =>
    acc.bind fun hit => match s.port_ ctx [] .load e.2.2 4 with
      | .ok ps =>
        let st := leNat (s.gather ps)
        some (hit || later st rlsn || (st == rlsn && !(writes.any (·.covers e.1 e.2.1))))
      | _ => none) (some false)
def Item.recordAt (it : Item) (g : Nat) : Addr := addOff it.addr (256 * (g + 1) : Nat)
/-- The extents whose stamps decide about a record; none for one that is selected without them. -/
def Item.asks (it : Item) (header : List Byte) (first all : Bool) (b : List Byte) : Option (List Fp) :=
  let f (o n : Nat) : Nat := leNat ((b.drop o).take n)
  let fl := f 4 2
  if bitN fl 3 = 0 ∨ all ∨ (first ∧ fl % 4 ≠ 0) then none
  else
    let reads := recExtents b 8 (min 24 (f 6 1))
    some (if bitN (leNat ((header.drop 0x0A).take 2)) 1 = 1 then fpOf 0 it.lr.param it.lr.paramlen ++ reads.drop 1 else reads)
/-- Whether group g is selected; none where its record or a stamp cannot be read. -/
def State.selects (s : State) (it : Item) (header : List Byte) (first all : Bool) (g : Nat) : Option Bool :=
  match s.readDev it.ctx (it.recordAt g) 256 with
  | none => none
  | some b => match it.asks header first all b with
    | none => some true
    | some reads => s.stampsTouch it.ctx (leNat (b.take 4)) reads (recExtents b 0xC8 (min 6 (leNat ((b.drop 7).take 1))))
/-- Whether the header's LSN is 2³¹ or more behind at the start. -/
def State.relWraps (s : State) (it : Item) (start : Bool) (h : List Byte) : Bool :=
  let cur := match s.ctx? it.ctx with | some c => c.lsn | none => 0
  start && decide (2 ^ 31 ≤ (cur + 2 ^ 32 - leNat (h.take 4)) % 2 ^ 32)
/-- What a selection reads and writes, as far as it can be followed (R465, R466). -/
def State.selReads (s : State) (it : Item) (start : Bool) : List (PKind × Addr × Nat) :=
  (.store, it.addr, 256) :: (.load, it.addr, 256) :: (match s.readDev it.ctx it.addr 256 with
    | none => []
    | some h => (List.range it.lr.ngroups).flatMap fun g =>
        (.load, it.recordAt g, 256) :: (match (s.readDev it.ctx (it.recordAt g) 256).bind (it.asks h start (s.relWraps it start h)) with
          | none => []
          | some reads => (s.stampWords it.ctx reads).map fun e => (.load, e.2.2, 4)))
/-- The groups of a selection, widened to gangs. -/
def State.selection (s : State) (it : Item) (header : List Byte) (first all : Bool) : Option (List Nat) :=
  let picks := (List.range it.lr.ngroups).foldl (fun (acc : Option (List Nat)) g =>
    acc.bind fun l => (s.selects it header first all g).map fun b => if b then l ++ [g / it.lr.gang] else l) (some [])
  picks.map fun l => (l.eraseDups).flatMap fun j => (List.range it.lr.gang).map (it.lr.gang * j + ·)

/-! ## Rounds (R204, R205) -/

def State.hdr (s : State) (it : Item) (o : Nat) (b : List Byte) : Option State := s.cpWrite it.ctx (addOff it.addr (o : Nat)) b
def State.modRel (s : State) (id : Nat) (f : Relaunch → Relaunch) : State := s.modItem id fun i => { i with rel := i.rel.map f }
/-- The relaunch ends with a STATUS; a header that cannot be written makes it FAILED (R485). -/
def State.relEnd (s : State) (it : Item) (r : Relaunch) (status : Nat) (failed : Bool) : State :=
  let put := ((s.hdr it 0x0D (leBytes 1 status)).bind fun s => (s.hdr it 0x0E (leBytes 2 r.k)).bind fun s => s.hdr it 0x18 (leBytes 8 r.nrun))
  match put with
  | some s => s.modRel it.id fun _ => { r with ended := some failed }
  | none => (s.log { cls := 9, sev := 1, ctx := it.ctx, detail := 0x1C, addr := it.addr.toNat }).modRel it.id fun _ => { r with ended := some true }
/-- A round begins: the LSN advances and its gangs may be placed. -/
def State.runRound (s : State) (it : Item) (r : Relaunch) (sel : List Nat) : State :=
  let lsn := ((match s.ctx? it.ctx with | some c => c.lsn | none => 0) + 1) % 2 ^ 32
  let s := s.modCtx it.ctx fun c => { c with lsn := lsn }
  match s.hdr it 0 (leBytes 4 lsn) with
  | none => s.relEnd it r 6 true
  | some s => s.modItem it.id fun i =>
      { i with lsn := lsn, nextGang := 0, groupsLeft := sel.length, after := true, ts := s.topTs,
               rel := some { r with sel := sel, selecting := false, askedAt := none } }
/-- What follows a selection. -/
def State.afterSelection (s : State) (it : Item) (r : Relaunch) (limit xlimit : Nat) (sel : List Nat) : State :=
  if sel = [] then s.relEnd it r 4 false
  else if limit ≤ r.k then
    let assisted : Bool := match s.ctx? it.ctx with | some c => bitN c.svc 1 == 1 | none => false
    if ¬ assisted ∨ (xlimit ≠ 0 ∧ r.k = limit + xlimit) then s.relEnd it r 5 false
    else s.modRel it.id fun _ => { r with sel := sel, selecting := false, askedAt := some s.clock }
  else s.runRound it r sel
/-- Whether the round in progress has completed (R67). -/
def State.roundOver (s : State) (it : Item) : Bool :=
  it.groupsLeft == 0 && !(s.jobs.any (·.item == it.id)) && !(s.groups.any fun e => e.2.item == it.id)
/-- RELAUNCH_SELECTION_DONE: the start, or the end of a round, and the selection that follows. -/
def State.selectionDone (s : State) (id : Nat) : State :=
  match s.item? id with
  | none => s
  | some it =>
    match it.rel with
    | none => s
    | some r =>
      if it.edges ≠ [] ∨ it.waits ≠ [] ∨ r.ended.isSome ∨ r.askedAt.isSome ∨ s.frozen it.ctx ∨ (¬ r.selecting ∧ ¬ s.roundOver it) then s
      else
        let start := r.selecting
        let r := if start then r else { r with nrun := r.nrun + r.sel.length, k := r.k + 1, sel := [], selecting := true }
        let reads := s.selReads it start
        match it.failedRecord, s.cpMiss it.ctx it.dead reads, s.cpPoison it.ctx (reads.filter (·.1 == .load)) with
        | none, some (buf, pg), _ =>
          let (sv, s) := s.startPage it.ctx buf pg
          s.modItem id fun i => { i with waits := sv :: i.waits }
        | none, none, some (a, x) => s.poisonKill it.ctx a x
        | some a, _, _ => (s.log { cls := 9, sev := 1, ctx := it.ctx, detail := 0x1C, addr := a.toNat }).relEnd it r 6 true
        | none, none, none =>
          -- STATUS RUNNING and NRUN 0 at the start; NRUN after each round
          let put := if start then (s.hdr it 0x0D (leBytes 1 3)).bind fun s => s.hdr it 0x18 (leBytes 8 0) else s.hdr it 0x18 (leBytes 8 r.nrun)
          match put with
          | none => s.relEnd it r 6 true
          | some s => match s.readDev it.ctx it.addr 256 with
            | none => s.relEnd it r 6 true
            | some h =>
              let f (o n : Nat) : Nat := leNat ((h.drop o).take n)
              let wrap := s.relWraps it start h
              match s.selection it h start wrap with
              | none => s.relEnd it r 6 true
              | some sel =>
                let put := if start then (s.hdr it 0x14 (leBytes 4 sel.length)).bind fun s =>
                    if wrap then s.hdr it 0x0A (leBytes 2 (f 0x0A 2 ||| 1)) else some s
                  else some s
                match put with
                | none => s.relEnd it r 6 true
                | some s => s.afterSelection it r (f 0x0C 1) (f 0x10 2) sel
/-- A relaunch Oromel does not continue ends LIMIT, with a record handed to it (R485). -/
def State.relDeclined (s : State) (it : Item) (r : Relaunch) : State :=
  (s.log { cls := 9, sev := 1, ctx := it.ctx, rfl := 2, addr := it.addr.toNat }).relEnd it r 5 true
def State.hostContinue (s : State) (id : Nat) (goOn : Bool) : State :=
  match (s.item? id).bind fun it => it.rel.map fun r => (it, r) with
  | none => s
  | some (it, r) =>
    if r.askedAt.isNone ∨ r.ended.isSome ∨ s.frozen it.ctx then s
    else if goOn then s.runRound it r r.sel else s.relDeclined it r
def State.continueTimeout (s : State) (id : Nat) : State :=
  match (s.item? id).bind fun it => it.rel.map fun r => (it, r) with
  | none => s
  | some (it, r) => match r.askedAt with
    | some t => if r.ended.isSome ∨ s.clock < t + 10 * tenMs ∨ s.frozen it.ctx then s else s.relDeclined it r
    | none => s

/-! ## The steps -/

def execRelaunchSelectionDone (item : Nat) (s : State) : Host.Outcome State Fault Refusal := finish (s.selectionDone item)
def execRelaunchHostContinue (item : Nat) (goOn : Bool) (s : State) : Host.Outcome State Fault Refusal := finish (s.hostContinue item goOn)
def execRelaunchContinueTimeout (item : Nat) (s : State) : Host.Outcome State Fault Refusal := finish (s.continueTimeout item)

end Sys2Proof.Machine
end

