-- ==== Sys2Proof/Machine/Placement.lean ====
section
/-! DEFINITION. The dispatcher: fit and placement of gangs (R70, R225 to R227), the start of groups (R61), the active set (R72),
re-queueing (R73), claims and restores (R80, R81). -/

namespace Sys2Proof.Machine

/-! ## Fit (R70) -/

/-- What a group takes on a core. -/
structure Need where
  slots : Nat
  words : Nat
  pad : Nat
  tags : Nat
  tiles : Nat
  accs : Nat
  tw : Nat
deriving DecidableEq, Repr
def roleOf (r : LaunchRec) (rank : Nat) : Role :=
  match r.roles / 2 ^ (4 * rank) % 16 with | 1 => .copy | 2 => .matrix | _ => .general
def needOf (r : LaunchRec) (role : Role) : Need :=
  let m := role == .matrix
  { slots := r.gsize / 32, words := r.gsize / 32 * r.nreg, pad := r.alloc, tags := r.tagcnt, tiles := if m then r.tiles else 0,
    accs := if m then r.accs else 0, tw := r.twctx }
def Need.add (a b : Need) : Need :=
  ⟨a.slots + b.slots, a.words + b.words, a.pad + b.pad, a.tags + b.tags, a.tiles + b.tiles, a.accs + b.accs, a.tw + b.tw⟩
/-- The groups whose regions stand on a core. -/
def State.onCore (s : State) (core : Nat) : List (Nat × Group) := s.groups.filter fun e => e.2.core == core && e.2.holds
/-- Whether further groups fit on a core beside those there. -/
def State.fits (s : State) (core : Nat) (news : List Need) : Bool :=
  let have_ := s.onCore core
  let t := ((have_.map fun e => needOf e.2.lr e.2.role) ++ news).foldl Need.add ⟨0, 0, 0, 0, 0, 0, 0⟩
  !(s.core core).retired && decide (have_.length + news.length ≤ 32 ∧ t.slots ≤ 64 ∧ t.words ≤ 6144 ∧ t.pad + 16 * s.reserveUse core ≤ 524288
    ∧ t.tags ≤ 64 ∧ t.tiles ≤ 16 ∧ t.accs ≤ 8 ∧ t.tw ≤ 4)

/-! ## Saved regions (R73, R80, R447) -/

/-- Whether engine jobs still write into a group's scratchpad. -/
def State.inbound (s : State) (g : Nat) : Bool :=
  s.jobs.any fun j => match j.kind with
    | .copy (.pad x _) _ _ => x == g
    | .pcopyIn .. => j.grp == g
    | _ => false
/-- Where a further image of n bytes goes in a context's save area: the lowest place free. -/
def State.savePlace (s : State) (ctx size n : Nat) : Option Nat :=
  firstFit ((s.groups.filter fun e => e.2.ctx == ctx && e.2.saved).map fun e => (e.2.saveAt, (e.2.saveBytes + 15) / 16)) size ((n + 15) / 16)
/-- A save that fits the owning context's area is made; else none. -/
def State.save (s : State) (g : Nat) (res : Residency) : Option State :=
  (s.group? g).bind fun G => (s.ctx? G.ctx).bind fun c => (s.savePlace G.ctx c.svsize G.saveBytes).bind fun o =>
    let n := G.saveBytes
    let a := addOff c.svbase (o : Nat)
    if c.svbase = 0 ∨ c.svsize < c.saveUsed + n ∨ ¬ s.devOk G.ctx .store a n then none
    else some (((s.scribble G.ctx a n).modCtx G.ctx fun c => { c with saveUsed := c.saveUsed + n }).modG g fun G =>
      { G with res := res, saveAt := o, active := false })
/-- The oldest pre-empted group on a core whose region can be claimed, claimed. -/
def State.claim (s : State) (core : Nat) : Option State :=
  let vs := (s.onCore core).filterMap fun e => match e.2.res with | .preempted o false => if s.inbound e.1 then none else some (o, e.1) | _ => none
  let ordered := Map.sortBy (fun a b => decide (a.1 ≤ b.1)) vs
  ordered.findSome? fun e => s.save e.2 (.preempted e.1 true)
/-- A core with room for further groups, after as many claims as that takes. -/
def State.makeRoom (core : Nat) (news : List Need) : Nat → State → Option State
  | 0, s => if s.fits core news then some s else none
  | n + 1, s => if s.fits core news then some s else (s.claim core).bind (State.makeRoom core news n)
/-- Every group of an assignment has room on its core. -/
def State.roomForAll (s : State) (l : List (Nat × Need)) : Option State :=
  ((l.map (·.1)).eraseDups).foldl (fun (acc : Option State) c => acc.bind (State.makeRoom c ((l.filter (·.1 == c)).map (·.2)) 32)) (some s)

/-! ## The gangs of an item -/

/-- The gangs still to place: of a launch, or of a relaunch's round (R62, R205). -/
def Item.gangs (it : Item) : List Nat :=
  match it.rel with
  | none => (List.range (it.lr.ngroups / it.lr.gang)).drop it.nextGang
  | some r => if r.selecting ∨ r.askedAt.isSome ∨ r.ended.isSome then [] else (((r.sel.map (· / it.lr.gang)).eraseDups).drop it.nextGang)
/-- Whether a gang stands off its cores: an exited member has nothing to hand over. -/
def gangAway (ms : List (Nat × Group)) : Bool := (ms.all fun e => e.2.res != .resident || e.2.exiting) && ms.any fun e => e.2.res != .resident
/-- Whether what a re-queued thread waits for is over: its barrier or ring has let it go, or its join counter reads 0 (R73, R230). -/
def State.wakes (s : State) (T : Thread) : Bool :=
  match T.wait with
  | .on (.line p _) _ _ => s.phys p 8 == 0
  | .on .. => false
  | _ => true
/-- Gangs of an item that are off their cores and may resume: pre-empted ones of a context that runs, re-queued ones whose wake
condition holds (R73, R81). -/
def State.parked (s : State) (it : Item) : List Nat :=
  let gs := s.groups.filter fun e => e.2.item == it.id
  let ids := (gs.map (·.2.gang)).eraseDups
  ids.filter fun g =>
    let ms := gs.filter (·.2.gang == g)
    gangAway ms && (ms.all (fun e => e.2.res != .requeued) || ms.any fun e => e.2.threads.any fun t => s.wakes t.2)
def State.gangMembers (s : State) (g : Nat) : List (Nat × Group) := s.groups.filter (·.2.gang == g)

/-! ## Offers (R69, R225, R226) -/

def State.runs (s : State) (c : Nat) : Bool := !s.frozen c && (match s.ctx? c with | some C => !C.held | none => false)
/-- Whether an item has a gang to place now. -/
def State.offers (s : State) (it : Item) : Bool :=
  it.edges.isEmpty && s.runs it.ctx && (!it.gangs.isEmpty || !(s.parked it).isEmpty) && (it.kind != .task || it.inDeque || it.taken)
/-- The needs of the gang an item offers next. -/
def State.nextNeeds (s : State) (it : Item) : List Need :=
  match s.parked it with
  | g :: _ => (s.gangMembers g).map fun e => needOf e.2.lr e.2.role
  | [] => (List.range it.lr.gang).map fun k => needOf it.lr (roleOf it.lr k)
/-- Cores of a die for a gang, one core first: each group on the first core with room, made by at most so many claims. -/
def State.place1 (s : State) (die first claims : Nat) (needs : List Need) : Option (List Nat) :=
  let order := first :: ((List.range 64).map (64 * die + ·)).filter (· != first)
  needs.foldl (fun (acc : Option (List (Nat × Need))) n =>
    acc.bind fun l => (order.find? fun c => (State.makeRoom c (n :: (l.filter (·.1 == c)).map (·.2)) claims s).isSome).map fun c => l ++ [(c, n)])
    (some []) |>.map fun l => l.map (·.1)
/-- A gang goes into room that nobody holds where there is any, else claims regions (R80). -/
def State.placeOn (s : State) (it : Item) (core : Nat) : Option (List Nat) :=
  match s.place1 (dieOf core) core 0 (s.nextNeeds it) with
  | some l => some l
  | none => s.place1 (dieOf core) core 32 (s.nextNeeds it)
/-- Whether a core has room for the group a gang begins with (R225 to R227). -/
def State.roomAt (s : State) (it : Item) (core : Nat) : Bool := (State.makeRoom core ((s.nextNeeds it).take 1) 32 s).isSome
/-- What a core is offered, best first: PRIO, then its own deque's bottom, which it takes only with room of its own (R226), then launches
in admission order; tasks it took and relaunches stand with the launches. A gang that comes back goes to any die (R73, R81). -/
def State.offersAt (s : State) (core : Nat) : List Item :=
  let bottom := ((s.core core).deque.getLast?).map (·.1)
  let mine (it : Item) : Bool :=
    if it.kind = .task ∧ ¬ it.taken then bottom == some it.id && s.roomAt it core
    else it.kind != .task || dieOf it.core == dieOf core || !(s.parked it).isEmpty
  let cands := s.items.filter fun it => s.offers it && mine it
  let own := cands.filter fun it => it.kind == .task && !it.taken
  let rest := cands.filter fun it => !(it.kind == .task && !it.taken)
  Map.sortBy (fun a b => decide (b.lr.prio ≤ a.lr.prio)) (own ++ rest)
/-- Whether an item may be placed from a core: nothing offered before it fits. -/
def State.mayPlace (s : State) (it : Item) (core : Nat) : Bool :=
  let l := s.offersAt core
  l.any (·.id == it.id) && !((l.takeWhile (·.id != it.id)).any fun x => (s.placeOn x core).isSome)

/-! ## The start of a group (R61) -/

def sched0 (r : LaunchRec) : Word := BitVec.ofNat 32 (20 * 2 ^ 27 + 8 * 2 ^ 22 + 2 ^ 17 * bitN r.flags 1 + 1024)
/-- The constants: words of the parameter block as the item sees it (R68); one the device cannot read is a free value. -/
def State.constants (s : State) (it : Item) : List Word :=
  (List.range 48).map fun k =>
    if it.lr.paramlen < 4 * k + 4 then 0
    else match s.port_ it.ctx it.renames .load (addOff it.lr.param (4 * k : Nat)) 4 with
      | .ok ps => BitVec.ofNat 32 (leNat (s.gather ps))
      | _ => Config.freeWord (64 * s.free + k)
/-- The trace record of a starting group: the parameter block is read extent 0 (R198). -/
def trace0 (r : LaunchRec) : Trace :=
  match fpOf 0 r.param r.paramlen with
  | f :: _ =>
    let t : Trace := { reads := [⟨f.buf, f.first, min f.count 65535⟩] }
    (List.range ((f.count - 1) / 65535)).foldl (fun (t : Trace) k => t.note false ⟨f.buf, f.first + 65535 * (k + 1), min 65535 (f.count - 65535 * (k + 1))⟩) t
  | [] => { reads := [⟨bufOf r.param, offOf r.param / 4096 % 2 ^ 32, 0⟩] }
def State.freeSlots (s : State) (core n : Nat) : List Nat :=
  let used := (s.onCore core).flatMap (·.2.tslots)
  ((List.range 64).filter fun k => !used.contains k).take n
/-- A core's L1 self-invalidates (R187). -/
def State.selfInvalidate (s : State) (core : Nat) : State := s.dropCopiesOf fun c => c.level == 0 && c.unit == core
/-- A core's caches self-invalidate, and what it does next follows every write so far. -/
def State.follow (s : State) (core : Nat) : State := (s.selfInvalidate core).catchUp core
/-- What a group of an item does on a core follows what came before the item, the completions it waited for and the round before
(R186, R187, R205, R222); the L1 self-invalidates at the boundary of R187. -/
def State.followItem (s : State) (it : Item) (core : Nat) : State :=
  (if it.after then s.selfInvalidate core else s).raisePts core it.ts
def State.started (s : State) (id : Nat) (G : Group) : State := { s with groups := Map.set s.groups id G, free := s.free + 1 }
/-- A group starts on a core, pending (R36, R54, R61, R72). -/
def State.startGroup (s : State) (it : Item) (gang gidx core : Nat) : State :=
  let rank := gidx % it.lr.gang
  let slots := s.freeSlots core (it.lr.gsize / 32)
  let ks := s.constants it
  let (id, s) := s.fresh
  let threads : Sparse Thread := (List.range it.lr.gsize).map fun t =>
    (t, { lane := t % 32, slot := slots.getD (t / 32) 0, warp := t / 32, pc := it.lr.entry, readySince := s.clock, lastIssue := s.clock })
  let G : Group := { ctx := it.ctx, item := it.id, gidx := gidx, grank := rank, gang := gang, core := core, role := roleOf it.lr rank,
                     lr := it.lr, lsn := it.lsn, tslots := slots, placed := id, ks := ks, sched := sched0 it.lr,
                     trace := if it.lr.traced then some (trace0 it.lr) else none, threads := threads }
  -- the parameter block is a read of the group's (R198, R199)
  let G := if G.trace.isSome ∧ (fpOf 0 it.lr.param it.lr.paramlen).any (fun f => s.stampClash G ⟨f.buf, f.first, f.count⟩) = true then G.vol 4 else G
  (s.followItem it core).started id G

/-! ## Restores (R81) -/

/-- A group is resident again: a pre-empted one goes on after `preemptd`, a re-queued one at its waits. -/
def State.resumeGroup (s : State) (g core : Nat) : State :=
  match s.group? g with
  | none => s
  | some G =>
    let back := if G.saved then G.saveBytes else 0
    let s := s.modCtx G.ctx fun c => { c with saveUsed := c.saveUsed - back }
    let pre : Bool := match G.res with | .preempted .. => true | _ => false
    let held (t : Nat) : Bool := G.heldDel.any fun d => d.traps.any (·.1 == t)
    let slots := if G.holds then G.tslots else s.freeSlots core (G.lr.gsize / 32)
    let slotOf (k : Nat) : Nat := (((G.tslots.zip slots).find? fun e => e.1 == k).map (·.2)).getD k
    let wake (t : Nat) (T : Thread) : Thread :=
      let T := { T with slot := slotOf T.slot, watched := 0 }
      if ¬ pre then (match T.wait with | .on (.line ..) _ _ => { T with wait := .ready, readySince := s.clock } | _ => T)
      else if held t then { T with wait := .on .heldTrap s.clock 0 }
      else match T.wait with
        | .on (.ended ..) _ _ => T
        | _ => { T with wait := .ready, readySince := s.clock }
    -- its threads follow what they did on the core they left
    let (p, s) := (s.follow core).fresh
    s.modG g fun G => { G with res := .resident, core := core, tslots := slots, active := false, placed := p,
                               threads := G.threads.map fun e => (e.1, wake e.1 e.2) }
/-- A parked gang comes back: on its former cores where its regions stand, else where it fits. -/
def State.restoreGang (s : State) (gang : Nat) (cores : List Nat) : State :=
  let ms := s.gangMembers gang
  let former := ms.map (·.2.core)
  let there := (ms.all (fun e => e.2.holds)) || (s.roomForAll ((ms.filter fun e => !e.2.holds).map fun e => (e.2.core, needOf e.2.lr e.2.role))).isSome
  if there ∧ cores ≠ former then s
  else if there then
    match s.roomForAll ((ms.filter fun e => !e.2.holds).map fun e => (e.2.core, needOf e.2.lr e.2.role)) with
    | none => s
    | some s => ms.foldl (fun (s : State) e => s.resumeGroup e.1 e.2.core) s
  else
    -- regions left on former cores are given up with the move
    let s' := { s with groups := s.groups.map fun e => if e.2.gang = gang then (e.1, { e.2 with res := match e.2.res with | .preempted o _ => .preempted o true | _ => .requeued }) else e }
    let lost := ms.filter fun e => e.2.holds
    let s' := lost.foldl (fun (s : State) e => s.modCtx e.2.ctx fun c => { c with saveUsed := c.saveUsed + e.2.saveBytes }) s'
    match s'.roomForAll ((cores.zip ms).map fun e => (e.1, needOf e.2.2.lr e.2.2.role)) with
    | none => s
    | some s => (cores.zip ms).foldl (fun (s : State) e => s.resumeGroup e.2.1 e.1) s

/-! ## GANG_PLACE -/

/-- A task leaves its deque whole when a core takes it; the deque then refills (R225, R228). -/
def State.takeTask (s : State) (it : Item) (taker : Nat) : State :=
  if it.kind ≠ .task ∨ it.taken then s
  else
    let s := s.modCore it.core fun C => { C with deque := C.deque.filter (·.1 != it.id), spilled := C.spilled.filter (·.1 != it.id) }
    (s.refill it.core).modItem it.id fun i => { i with inDeque := false, taken := true, core := taker }
/-- The core a gang is placed from: the taking core of a task (R225), else, and for a gang that comes back, the first that it stands on. -/
def State.placer (s : State) (it : Item) (first : Nat) : Nat := if it.kind = .task ∧ s.parked it = [] then it.core else first
/-- Whether the gang an item offers next fits on some die, as a placer may try it, without a claim (R80). -/
def State.fitsFree (s : State) (it : Item) : Bool :=
  (List.range 8).any fun d => (s.placer it (64 * d) / 64 == d) && (s.place1 d (64 * d) 0 (s.nextNeeds it)).isSome
/-- A ready gang is placed on cores of one die once every group fits (R34, R62, R70). -/
def State.gangPlace (s : State) (id : Nat) (cores : List Nat) : State :=
  match s.item? id, cores with
  | some it, c :: _ =>
    let oneDie := cores.all fun x => decide (x < 512) && dieOf x == dieOf (s.placer it c)
    let free (x : Nat) : Bool := s.fits x (((cores.zip (s.nextNeeds it)).filter (·.1 == x)).map (·.2))
    if ¬ oneDie ∨ cores.length ≠ it.lr.gang ∨ ¬ s.mayPlace it (s.placer it c) ∨ ¬ it.waits.isEmpty ∨ s.edge.fatal then s
    else match s.parked it with
      | g :: _ => s.restoreGang g cores
      | [] =>
        -- the taking core first (R225); a claim only where no room is left (R80)
        if (it.kind = .task ∧ c ≠ it.core ∧ s.roomAt it it.core) ∨ (¬ cores.all free ∧ s.fitsFree it) then s
        else match s.cpMiss it.ctx it.dead (if it.lr.paramlen = 0 then [] else probes .load it.lr.param (min 192 it.lr.paramlen)),
            it.gangs.head?, s.roomForAll (cores.zip (s.nextNeeds it)) with
          | some (buf, pg), _, _ =>
            let (sv, s) := s.startPage it.ctx buf pg
            s.modItem id fun i => { i with waits := sv :: i.waits }
          | none, some j, some s =>
            let s := s.takeTask it it.core
            let (gang, s) := s.fresh
            let s := ((List.range it.lr.gang).zip cores).foldl (fun (s : State) e => s.startGroup it gang (it.lr.gang * j + e.1) e.2) s
            s.modItem id fun i => { i with nextGang := i.nextGang + 1 }
          | _, _, _ => s
  | _, _ => s

/-! ## Stealing (R227) -/

def hops (a b : Nat) : Nat := (max (a / 4) (b / 4) - min (a / 4) (b / 4)) + (max (a % 4) (b % 4) - min (a % 4) (b % 4))
/-- The oldest entry of a core's deque. -/
def State.top (s : State) (core : Nat) : Option (Nat × Nat) :=
  let C := s.core core
  match C.spilled with
  | e :: _ => some (e.1, e.2.1)
  | [] => C.deque.head?
/-- The victims a thief may take from: on the nearest die with an entry it can take, the top that waited longest. -/
def State.victims (s : State) (thief : Nat) : List Nat :=
  let can := (s.cores.map (·.1)).filterMap fun v =>
    if v = thief then none
    else (s.top v).bind fun e => (s.item? e.1).bind fun it =>
      if s.offers it ∧ s.roomAt it thief ∧ (s.placeOn it thief).isSome then some (v, e.2) else none
  let near := (List.range 8).filterMap fun d => if can.any fun e => dieOf e.1 == d then some (hops d (dieOf thief), d) else none
  match near.foldl (fun (m : Option (Nat × Nat)) e => match m with | none => some e | some x => if e.1 < x.1 then some e else some x) none with
  | none => []
  | some (_, d) =>
    let l := can.filter fun e => dieOf e.1 == d
    let first := l.foldl (fun m e => min m e.2) ((l.headD (0, 0)).2)
    (l.filter (·.2 == first)).map (·.1)
def State.steal (s : State) (thief victim : Nat) : State :=
  let C := s.core thief
  let idle := C.deque.isEmpty && C.spilled.isEmpty && !C.retired && decide (thief < 512) && !((s.offersAt thief).any fun x => (s.placeOn x thief).isSome)
  if ¬ idle ∨ ¬ (s.victims thief).contains victim then s
  else match (s.top victim).bind fun e => s.item? e.1 with
    | some it => s.takeTask it thief
    | none => s

/-! ## The active set (R72) and re-queueing (R73) -/

/-- The threads of a group that are live: those a split branch ended are not (R46). -/
def Group.live (G : Group) : List (Nat × Thread) :=
  G.threads.filter fun e => match e.2.wait with | .on (.ended ..) _ _ => false | _ => true
def Thread.able (T : Thread) : Bool := match T.wait with | .on .. => false | _ => true
def State.activeOn (s : State) (core : Nat) : List (Nat × Group) := s.groups.filter fun e => e.2.core == core && e.2.active && e.2.res == .resident
/-- The oldest pending group of a core that satisfies a test. -/
def State.oldestPending (s : State) (core : Nat) (p : Group → Bool) : Option Nat :=
  let l := s.groups.filter fun e => e.2.core == core && e.2.res == .resident && !e.2.active && !e.2.exiting && p e.2
  (l.foldl (fun (m : Option (Nat × Nat)) e => match m with | none => some (e.2.placed, e.1) | some x => if e.2.placed < x.1 then some (e.2.placed, e.1) else some x) none).map (·.2)
def State.activate (s : State) (g : Nat) : State := s.modG g fun G => { G with active := true, activeSince := s.clock }
/-- The device address an access goes to; none for one of a scratchpad. -/
def AccKind.dev? : AccKind → Option Addr
  | .load _ _ _ a none | .store a _ none | .image a none _ | .atom _ _ _ _ _ _ a _ | .hitch _ a .. | .actld _ a _ => some a
  | .ldp h .. | .prf h .. | .pst _ h .. => some (mkAddr h 0)
  | .load .. | .store .. | .hclr .. | .image .. | .deliver .. | .twsave .. => none
/-- Whether a pending access is predicted to take more than 200 cycles: no scratchpad access, and no copy of its line in the core's L1 or
its die's L2 (R28, log 73). -/
def State.longAccess (s : State) (G : Group) (a : Access) : Bool :=
  match a.kind.dev? with
  | none => false
  | some x => match s.port_ G.ctx (s.renOf G.item) .load x 1 with
    | .ok (p :: _) => !(s.port.copies.any fun c => c.line == p / 128 && ((c.level == 0 && c.unit == G.core) || (c.level == 1 && c.unit == dieOf G.core)))
    | _ => true
/-- Whether a live thread waits on a dependence that is predicted to be long: copies, hitches, barriers and other threads are; a count of
accesses, a fence and an operand are as the accesses they wait for (R28, R72). -/
def State.waitsLong (s : State) (g : Nat) (G : Group) (t : Nat) (T : Thread) : Bool :=
  let far : Bool := s.accesses.any fun a => a.owners.contains (g, t) && !a.parts.isEmpty && s.longAccess G a
  match T.wait with
  | .on (.counters l st cp tl) _ _ => decide (cp < T.cp ∨ tl < T.tl) || (decide (l < T.ld ∨ st < T.st) && far)
  | .on (.image _) _ _ => far
  | .on (.fence _) _ _ => far || decide (0 < T.tl)
  | .on .. => true
  | _ => !T.ready && far
/-- ACTIVE_SET_TRADE. -/
def State.trade (s : State) (g : Nat) : State :=
  match s.group? g with
  | none => s
  | some G =>
    if ¬ G.active ∨ ¬ (G.live.all fun e => s.waitsLong g G e.1 e.2) then s
    else match s.oldestPending G.core fun x => x.live.any (·.2.able) with
      | none => s
      | some h => (s.modG g fun G => { G with active := false }).activate h
/-- A wait at a barrier, in a ring or for a join counter (R73, R230, R232). -/
def Thread.atBarrier (T : Thread) (now swout : Nat) : Bool :=
  match T.wait with
  | .on (.barGen ..) t _ | .on (.barRetry ..) t _ | .on (.plwm ..) t _ | .on (.ring ..) t _ | .on (.line ..) t _ => decide (t + swout < now)
  | _ => false
/-- Whether one group of a gang may be re-queued: every live thread of it waits; an exited member stands in nobody's way. What it has
outstanding lands in its state as it is saved (log 72). -/
def State.swappable (s : State) (g : Nat) (G : Group) : Bool :=
  match s.ctx? G.ctx with
  | none => false
  | some c =>
    let swout := c.sched % 2 ^ 24
    swout != 0 && G.res == .resident && (G.live.all fun e => e.2.atBarrier s.clock swout)
      && !(s.inbound g) && (G.slots.all fun x => x.2.gone) && G.deadline.isNone
/-- REQUEUE: the gang is saved and goes back to the dispatcher; a save that does not fit is not made (R447). -/
def State.requeueGang (s : State) (g : Nat) : State :=
  match s.group? g with
  | none => s
  | some G =>
    let ms := s.gangMembers G.gang
    if ¬ (ms.all fun e => s.swappable e.1 e.2) ∨ (ms.all fun e => e.2.live.isEmpty) ∨ ¬ s.runs G.ctx then s
    else match ms.foldl (fun (acc : Option State) e => acc.bind fun s => s.save e.1 .requeued) (some s) with
      | some s => ms.foldl (fun (s : State) e => { s with leaves := s.leaves.filter (·.grp != e.1) }.modG e.1 fun G => { G with leases := [] }) s
      | none => s

/-! ## The steps -/

def execGangPlace (item : Nat) (cores : List Nat) (s : State) : Host.Outcome State Fault Refusal := finish (s.gangPlace item cores)
def execTaskSteal (thief victim : Nat) (s : State) : Host.Outcome State Fault Refusal := finish (s.steal thief victim)
def execActiveSetTrade (group : Nat) (s : State) : Host.Outcome State Fault Refusal := finish (s.trade group)
def execRequeue (group : Nat) (s : State) : Host.Outcome State Fault Refusal := finish (s.requeueGang group)

end Sys2Proof.Machine
end

