-- ==== Sys2Proof/Machine/Progress.lean ====
section
/-! DEFINITION. Fairness and its watchdog (R54, R55, R58, R440, R441), join deadlock (R442, R443), the Splice former (R47 to R51),
pre-emption of a group (R77 to R79) and its forced save (R445), and the governor's grants of leave (R252, R501). -/

namespace Sys2Proof.Machine

/-! ## `$sched` (R54) -/

def Group.fair (G : Group) : Bool := bitN G.sched.toNat 17 == 1
def Group.fint (G : Group) : Nat := bitsN G.sched.toNat 16 0
def Group.wlog (G : Group) : Nat := bitsN G.sched.toNat 31 27
def Group.slog (G : Group) : Nat := bitsN G.sched.toNat 26 22
/-- The live threads of a home warp. -/
def Group.warpLive (G : Group) (w : Nat) : List (Nat × Thread) := G.live.filter (·.2.warp == w)
/-- Whether another thread of a thread's warp issued within the last n cycles. -/
def Group.othersIssued (G : Group) (t : Nat) (T : Thread) (n now : Nat) : Bool :=
  G.threads.any fun e => e.1 != t && e.2.warp == T.warp && decide (now < e.2.lastIssue + n)

/-! ## Starvation and the watchdog -/

/-- Whether a ready thread is starved (R55). -/
def Group.starving (G : Group) (t : Nat) (T : Thread) (now : Nat) : Bool :=
  G.fair && T.able && T.ready && decide (T.lastIssue + G.fint ≤ now) && G.othersIssued t T G.fint now
/-- THREAD_STARVED: the thread's entry goes to the front (R55). -/
def State.starve (s : State) (g t : Nat) : State :=
  match s.group? g, s.thread? g t with
  | some G, some T => if G.starving t T s.clock then s.modT g t fun T => { T with starved := true } else s
  | _, _ => s
/-- A group as dt cycles pass: what `part` and `actsel` set now holds (R45, R169), the starved are known (R55), and without fairness
the watchdog counts readiness where it may (R58, R441). -/
def Group.pass (G : Group) (now dt : Nat) (counts : Bool) : Group :=
  { G with
    part := G.partNext.getD G.part, partNext := none, bank := G.bankNext.getD G.bank, bankNext := none,
    threads := G.threads.map fun x => (x.1, { x.2 with
      starved := G.starving x.1 x.2 now,
      watched := if G.fair then 0 else if counts && x.2.ready then x.2.watched + dt else x.2.watched }) }
/-- The stalled threads of a warp (R58). -/
def State.stalledThreads (s : State) (G : Group) (w : Nat) : List Nat :=
  if G.fair ∨ ¬ G.active ∨ G.res ≠ .resident then []
  else ((G.warpLive w).filter fun e =>
    e.2.able && e.2.ready && decide (2 ^ G.wlog ≤ e.2.watched) && G.othersIssued e.1 e.2 (2 ^ G.wlog) s.clock).map (·.1)
/-- PROGRESS_WATCHDOG (R440): one delivery, and the count starts again. -/
def State.watchdog (s : State) (g w : Nat) : State :=
  match s.group? g with
  | none => s
  | some G =>
    let ts := s.stalledThreads G w
    if ts = [] ∨ s.frozen G.ctx then s
    else (ts.foldl (fun (s : State) t => s.modT g t fun T => { T with watched := 0 }) s).deliverTo g ts { cause := 0x21, cls := 2 }

/-! ## Join deadlock (R442, R443) -/

/-- Where a thread in `join` or `wsync` waits: since when, and `$taddr`. -/
def Thread.joinWait (T : Thread) : Option (Nat × Nat) :=
  match T.wait with
  | .on (.join _ target) t _ => some (t, target.toNat)
  | .on (.wsync _) t _ => some (t, T.pc.toNat)
  | _ => none
/-- Whether a warp waits without an event for 1,024 cycles; one whose trap is already pending is not counted twice. -/
def State.deadlocked (s : State) (G : Group) (w : Nat) : Bool :=
  let l := G.warpLive w
  let since := l.foldl (fun m e => max m (((e.2.joinWait).map (·.1)).getD 0)) (max G.activeSince ((Map.get? G.lastJoin w).getD 0))
  !l.isEmpty && (l.all fun e => e.2.joinWait.isSome && !(e.2.pending.any (·.cause == 0x22))) && G.active && G.res == .resident
    && decide (since + 1024 ≤ s.clock)
/-- JOIN_DEADLOCK. -/
def State.joinDead (s : State) (g w : Nat) : State :=
  match s.group? g with
  | none => s
  | some G =>
    if ¬ s.deadlocked G w ∨ s.frozen G.ctx then s
    else s.deliver ((G.warpLive w).map fun e => (g, e.1, ({ cause := 0x22, addr := ((e.2.joinWait).map (·.2)).getD 0, cls := 2 } : Trap)))

/-! ## Spawn records and the Splice former (R47 to R51) -/

/-- SPAWN_RECORD_WRITE: an ended thread whose counters have drained becomes a record; one in the spawn area lies in memory, its
header kept by the Splice former. -/
def State.writeRecord (s : State) (g t : Nat) : State :=
  match s.group? g, s.thread? g t with
  | some G, some T =>
    match T.wait with
    | .on (.ended resume n area) _ _ =>
      if ¬ T.within 0 0 0 0 ∨ G.res ≠ .resident ∨ s.frozen G.ctx then s
      else
        let bytes := spawnBytes T t (s.gslot g) n resume
        let (s, kept) := match area, s.ctx? G.ctx with
          | some o, some c => (match s.cpWrite G.ctx (addOff c.spbase (o : Nat)) bytes with
            | some s => (s, bytes.take 16)
            | none => (s, bytes))
          | _, _ => (s, bytes)
        let r : SpawnRec := { pc := resume, since := s.clock, units := recUnits n, bytes := kept, area := area, held := T.held }
        (s.modG g fun G => { G with threads := Map.erase G.threads t, recs := G.recs ++ [r] }).leaveDeliveries g t T.warp
    | _ => s
  | _, _ => s
/-- The whole of a record, its registers read back from the spawn area. -/
def State.recBytes (s : State) (ctx : Nat) (r : SpawnRec) : List Byte :=
  match r.area, s.ctx? ctx with
  | some o, some c =>
    if 16 * r.units ≤ r.bytes.length then r.bytes
    else r.bytes ++ ((s.readDev ctx (addOff c.spbase (o + 16 : Nat)) (16 * r.units - 16)).getD [])
  | _, _ => r.bytes
/-- The poison a record's read would meet. -/
def State.recPoison (s : State) (ctx : Nat) (r : SpawnRec) : Option (Addr × Nat) :=
  match r.area, s.ctx? ctx with
  | some o, some c => if 16 * r.units ≤ r.bytes.length then none else s.cpPoison ctx [(.load, addOff c.spbase (o : Nat), 16 * r.units)]
  | _, _ => none
/-- Lanes with a free thread slot of the group, lowest first, each with its lowest free slot. -/
def Group.freeLanes (G : Group) : List (Nat × Nat) :=
  (List.range 32).filterMap fun l =>
    (G.tslots.find? fun k => !(G.threads.any fun e => e.2.lane == l && e.2.slot == k)).map fun k => (l, k)
/-- The lowest identifier no live warp of the group holds (R38). -/
def Group.freeWarp (G : Group) : Nat :=
  let used := G.live.map (·.2.warp)
  ((List.range (used.length + 1)).find? fun w => !used.contains w).getD 0
def Group.recsAt (G : Group) (pc : Addr) : List SpawnRec := G.recs.filter (·.pc == pc)
/-- A wait that Splice counts as blocked (R51). -/
def Thread.blocked (T : Thread) : Bool :=
  match T.wait with
  | .on (.barGen ..) _ _ | .on (.barRetry ..) _ _ | .on (.plwm ..) _ _ | .on (.wsync _) _ _ | .on (.join ..) _ _ | .on (.line ..) _ _ => true
  | _ => false
def Group.allBlocked (G : Group) : Bool := G.live.all (·.2.blocked)
/-- One warp of the records at a PC: a thread for each lane with a free slot, in record order. -/
def State.formWarp (s : State) (g : Nat) (pc : Addr) : State :=
  match s.group? g with
  | none => s
  | some G =>
    let w := G.freeWarp
    let l := (G.recsAt pc).zip G.freeLanes
    match l.findSome? fun e => s.recPoison G.ctx e.1 with
    | some (a, x) => s.poisonKill G.ctx a x
    | none =>
      let new := l.map fun e => spawnThread { e.1 with bytes := s.recBytes G.ctx e.1 } e.2.1 e.2.2 w s.clock
      s.modG g fun G =>
        { G with recs := l.foldl (fun rs e => rs.erase e.1) G.recs,
                 threads := new.foldl (fun ts e => Map.set ts e.1 e.2) G.threads }
/-- Every record at a PC, as many in each warp as lanes allow. -/
def State.formWarps (g : Nat) (pc : Addr) : Nat → State → State
  | 0, s => s
  | n + 1, s => match s.group? g with
    | none => s
    | some G => if (G.recsAt pc).isEmpty || G.freeLanes.isEmpty || s.frozen G.ctx then s else State.formWarps g pc n (s.formWarp g pc)
/-- Whether Splice may release at a PC: 32 lanes, or the oldest record has waited. -/
def State.spliceDue (s : State) (G : Group) (pc : Addr) : Bool :=
  let rs := G.recsAt pc
  let lanes := G.freeLanes.length
  (decide (32 ≤ rs.length) && decide (32 ≤ lanes))
    || (decide (0 < lanes) && (match rs.head? with | some r => decide (r.since + 2 ^ G.slog ≤ s.clock) | none => false))
/-- SPLICE_RELEASE; when every live thread is blocked, every PC's records go, in order of the oldest record. -/
def State.splice (s : State) (g : Nat) (pc : Addr) : State :=
  match s.group? g with
  | none => s
  | some G =>
    if G.res ≠ .resident ∨ ¬ s.runs G.ctx ∨ G.exiting then s
    else if ¬ G.recs.isEmpty ∧ G.allBlocked then ((G.recs.map (·.pc)).eraseDups).foldl (fun (s : State) pc => State.formWarps g pc G.recs.length s) s
    else if s.spliceDue G pc then s.formWarp g pc
    else s

/-! ## Pre-emption of a group (R77 to R79) -/

def Group.preemptOk (G : Group) : Bool := bitN G.lr.flags 2 == 1
/-- Pre-emption abandons a thread's wait: a note left on a ring block goes (R232), and a thread that waits for a peer's answer or for an
image stops waiting: its load is dropped and issues again later (R77, R466, log 75). -/
def State.abandon (s : State) (g t : Nat) : State :=
  let s := s.unring g t
  match s.thread? g t with
  | none => s
  | some T => match T.wait with
    | .on (.answer ..) _ _ =>
      { s.modT g t (fun T => { T with ld := T.ld - 1, wait := .ready }) with
        accesses := s.accesses.filter fun a => !(a.grp == g && a.tid == t && a.remote.isSome && a.kind.countsLd
          && (match a.kind with | .load .. | .actld .. => true | _ => false)) }
    | .on (.image o) _ _ =>
      let mine (a : Access) : Bool := a.order == o && match a.kind with | .image .. => true | _ => false
      let s := (s.accesses.filter mine).foldl (fun (s : State) a => s.lowerLd a) s
      { s with accesses := s.accesses.filter fun a => !mine a }.modT g t fun T => { T with wait := .ready, image := none }
    | _ => s.modT g t fun T => { T with image := none }
/-- A watchdog trap that entered in the cycle of a PREEMPT gives way to it: its threads stand where they stood, their count new (R441). -/
def Group.unwatch (G : Group) (now : Nat) : Group :=
  let mine (d : Delivery) : Bool := d.cycle == now && !d.undo.isEmpty && d.undo.all fun e => e.2.2.cause == 0x21
  let G := (G.open_.filter mine).foldl (fun G d => d.undo.foldl (fun (G : Group) e =>
    { G with threads := Map.set G.threads e.1 { e.2.1 with watched := 0 } }) G) G
  { G with open_ := G.open_.filter fun d => !mine d }
/-- The PREEMPT trap of one group: its loop stops and its accumulators are discarded (R79, R396), leases and leave go back, and every live thread takes the trap. -/
def State.preemptGroup (s : State) (g pdlog : Nat) : State :=
  match s.group? g with
  | none => s
  | some G =>
    if G.res ≠ .resident ∨ G.exiting ∨ G.deadline.isSome ∨ ¬ G.preemptOk then s
    else
      let s := s.modG g fun G =>
        let G := { G.unwatch s.clock with leases := [], accs := [], deadline := some (s.clock + 2 ^ pdlog) }
        match G.loop with | some l => ({ G with loop := none, mrow := l.mrowWord } : Group).endSparse l | none => G
      let s := s.endLeave g
      let s := { s with leaves := s.leaves.filter (·.grp != g) }
      let ts := G.live.map (·.1)
      let s := ts.foldl (fun (s : State) t => s.abandon g t) s
      s.deliverTo g ts { cause := 0x20, cls := 2 }
/-- Whether a live thread stands at the hand-over. -/
def Thread.standing (T : Thread) : Bool := match T.wait with | .on .preempted _ _ => true | _ => false
/-- FORCED_SAVE: the deadline of `preemptd` has passed (R445). -/
def State.forceSave (s : State) (g : Nat) : State :=
  match s.group? g with
  | none => s
  | some G =>
    let late := G.live.filter fun e => !(e.2.parked && e.2.standing)
    let due : Bool := match G.deadline with | some d => decide (d ≤ s.clock) | none => false
    if ¬ due ∨ (G.live.all (·.2.standing)) ∨ G.res ≠ .resident ∨ s.frozen G.ctx then s
    else
      let low := late.foldl (fun (m : Option (Nat × Thread)) e => match m with | none => some e | some x => if e.2.lane < x.2.lane then some e else some x) none
      let s := late.foldl (fun (s : State) e => (s.abandon g e.1).modT g e.1 fun T =>
        { T with wait := .on .preempted s.clock 0, pending := T.pending.filter (·.cause != 0x20) }) s
      let s := s.modG g fun G => { G with open_ := G.open_.filter (!·.preempt), heldDel := G.heldDel.filter (!·.preempt) }
      s.log { cls := 9, sev := 1, ctx := G.ctx, unit := 1, unitNo := G.core, detail := 0x120, addr := (low.map (·.2.pc.toNat)).getD 0 }

/-! ## Leave (R76, R252, R253, R501) -/

def leaveCharge : Nat → Nat
  | 0 => 0 | 1 => 15 | 2 => 35 | _ => 400
/-- The governor's pool in tenths of a watt. -/
def State.leavePool (s : State) : Nat := 10 * s.edge.plim - 18000
/-- Whether Oromel arbitrates a context's leave (R29). -/
def State.oromelLeave (s : State) (ctx : Nat) : Bool := match s.ctx? ctx with | some c => bitN c.svc 6 == 1 | none => false
/-- The request of the governor's that a die serves next: one that Oromel arbitrates stands in no die's way (R32). -/
def State.leaveHead (s : State) (d : Nat) : Option LeaveReq :=
  s.leaves.find? fun q => match s.group? q.grp with | some G => dieOf G.core == d && !s.oromelLeave G.ctx | none => false
/-- The first request of a context. -/
def State.leaveFirst (s : State) (ctx : Nat) : Option LeaveReq :=
  s.leaves.find? fun q => match s.group? q.grp with | some G => G.ctx == ctx | none => false
/-- Dies with a request, in the order they are served. -/
def State.leaveDies (s : State) : List Nat :=
  ((List.range 8).map fun k => (s.edge.leaveDie + 1 + k) % 8).filter fun d => (s.leaveHead d).isSome
/-- Whether a request can be granted now: the pool covers it, or for a context whose leave Oromel arbitrates its share (R29, R252, log 85),
and T1 withholds new grants of levels 2 and 3. -/
def State.leaveOpen (s : State) (q : LeaveReq) : Bool :=
  match s.group? q.grp with
  | none => false
  | some G =>
    let host := s.oromelLeave G.ctx
    let others := (s.charges.filter fun c => (c.grp != q.grp || c.ended) && (!host || c.ctx == G.ctx)).foldl (fun n c => n + leaveCharge c.level) 0
    let room := if host then Map.getD s.edge.shares 0 G.ctx else s.leavePool
    !s.frozen G.ctx && (decide (q.level ≤ G.grant) ||
      (decide (others + leaveCharge q.level ≤ room) && (decide (s.edge.therm = 0) || decide (q.level < 2))))
/-- The waiting threads of a request. -/
def State.leaveWaiters (s : State) (q : LeaveReq) : List Nat :=
  match s.group? q.grp with
  | none => []
  | some G => (G.threads.filter fun e => match e.2.wait with | .on (.leave l) t _ => l == q.level && t == q.since | _ => false).map (·.1)
/-- LEAVE_GRANT: the first request of a group, when its die's turn has come and it is the first of the die; where Oromel arbitrates, the
first of its context. -/
def State.grantLeave (s : State) (g : Nat) : State :=
  match s.group? g, s.leaves.find? (·.grp == g) with
  | some G, some q =>
    let d := dieOf G.core
    let host := s.oromelLeave G.ctx
    let turn := (s.leaveDies.find? fun d => match s.leaveHead d with | some q => s.leaveOpen q | none => false) == some d
    let first := if host then s.leaveFirst G.ctx == some q else turn && s.leaveHead d == some q
    if ¬ first ∨ ¬ s.leaveOpen q then s
    else
      let ws := s.leaveWaiters q
      let lv := max G.grant q.level
      let kept : List Charge := s.charges.filter fun c => c.grp != g || c.ended
      -- the grant grows: its charge keeps its number
      let (new, s) := s.fresh
      let id := if s.leaveId g = 0 then new else s.leaveId g
      let s := { s with leaves := s.leaves.erase q, charges := kept ++ [({ id := id, grp := g, ctx := G.ctx, level := lv } : Charge)] }
      let s := if host then s else s.modEdge fun e => { e with leaveDie := d }
      let s := s.modG g fun G => { G with grant := lv }
      ws.foldl (fun (s : State) t => s.modT g t fun T => { T with wait := .passed, readySince := s.clock }) s
  | _, _ => s
/-- LEAVE_TIMEOUT: 10 ms, or 100 ms where Oromel arbitrates (R501). -/
def State.leaveTimeout (s : State) (g level : Nat) : State :=
  match s.group? g, s.leaves.find? (fun q => q.grp == g && q.level == level) with
  | some G, some q =>
    if s.clock < q.since + (if s.oromelLeave G.ctx then 10 * tenMs else tenMs) ∨ s.frozen G.ctx then s
    else
      let ws := s.leaveWaiters q
      let s := { s with leaves := s.leaves.erase q }
      let s := ws.foldl (fun (s : State) t => s.modT g t fun T => { T with wait := .ready, readySince := s.clock }) s
      (s.deliverTo g ws { cause := 0x23, arg := level, cls := 2 }).log { cls := 14, sev := 0, ctx := G.ctx }
  | _, _ => s

/-! ## The steps -/

def execThreadStarved (group tid : Nat) (s : State) : Host.Outcome State Fault Refusal := finish (s.starve group tid)
def execProgressWatchdog (group warp : Nat) (s : State) : Host.Outcome State Fault Refusal := finish (s.watchdog group warp)
def execJoinDeadlock (group warp : Nat) (s : State) : Host.Outcome State Fault Refusal := finish (s.joinDead group warp)
def execSpliceRelease (group : Nat) (pc : Addr) (s : State) : Host.Outcome State Fault Refusal := finish (s.splice group pc)
def execSpawnRecordWrite (group tid : Nat) (s : State) : Host.Outcome State Fault Refusal := finish (s.writeRecord group tid)
def execForcedSave (group : Nat) (s : State) : Host.Outcome State Fault Refusal := finish (s.forceSave group)
def execLeaveGrant (group : Nat) (s : State) : Host.Outcome State Fault Refusal := finish (s.grantLeave group)
def execLeaveTimeout (group level : Nat) (s : State) : Host.Outcome State Fault Refusal := finish (s.leaveTimeout group level)

end Sys2Proof.Machine
end

