-- ==== Sys2Proof/Machine/Commands.lean ====
section
/-! DEFINITION. Host queues and their commands (R240 to R242, R515, R516): contexts, buffers, plane sets, pools, pre-emption,
attestation, quiescence, checkpoint and restore (R29, R30, R74, R77, R84, R85, R95, R96, R111 to R113, R217, R228, R239, R246 to
R249, R251, R465, R468). -/

namespace Sys2Proof.Machine

/-! ## Entries (R240 to R242) -/

/-- The refusal an entry meets before it is executed, by its `DETAIL`. -/
def Entry.refusal (e : Entry) (priv : Bool) : Option Nat :=
  if e.cmd = 0 ∨ 17 < e.cmd then some 0xFFFFF1
  else if 4 ≤ e.cmd ∧ ¬ priv then some 0xFFFFF2
  else if e.bad then some 0xFFFFF3
  else none
/-- What the command processor finds at an address of a queue. -/
inductive QRead
  | bytes (l : List Byte)
  | miss (buf pg : Nat)
  | none
deriving DecidableEq, Repr
/-- A read in the way a queue's addresses are resolved (R515). -/
def State.queueRead (s : State) (q : HostQueue) (a : Addr) (n : Nat) : QRead :=
  let take (ps : List Nat) : QRead := if (s.poisonedIn false ps).isSome then .none else .bytes (s.gather ps)
  if q.priv then (if a.toNat + n ≤ memSize then take ((List.range n).map (a.toNat + ·)) else .none)
  else match s.port_ q.ctx [] .load a n with
    | .ok ps => take ps
    | .page buf pg => if q.dead.contains (s.pteOf q.ctx buf pg) then .none else .miss buf pg
    | _ => .none
/-- Whether a queue may go on: active, its context alive, no command of its own in progress, and entries admitted (R242, R247); on a
quiesced device a privileged one alone (R248). -/
def State.queueOpen (s : State) (qn : Nat) (q : HostQueue) : Bool :=
  decide (q.state = 1) && q.waits.isEmpty && (q.priv || !(s.frozen q.ctx || s.edge.quiesced)) && !(s.edge.running.any (·.1 == qn)) && !s.edge.fatal
    && !(s.edge.running.any fun e => match e.2.2 with | .ckpt .. | .quiesce => true | _ => false) && decide (0 < s.ahead qn q)
def State.setQueue (s : State) (qn : Nat) (q : HostQueue) : State := { s with queues := Map.set s.queues qn q }
/-- A queue that stops for good: nothing more of it is taken until QDESTROY. -/
def State.stopQueue (s : State) (qn st : Nat) : State :=
  { s.queueState qn st with hwq := s.hwq.map fun ((k, l) : Nat × List Waiting) => (k, l.filter fun w => w.hostQueue != some qn) }
/-- A page the command processor needs for a queue's head is served first (R465). -/
def State.queueWait (s : State) (qn ctx buf pg : Nat) : State :=
  let (id, s) := s.startPage ctx buf pg
  { s with queues := Map.modify s.queues qn fun q => { q with waits := id :: q.waits } }
/-- `WAITPREV`: every earlier item of the queue has completed (R241). -/
def State.waitsPrev (s : State) (qn : Nat) (e : Entry) : Bool :=
  bitN e.cfl 0 == 1 && (decide (0 < s.untaken qn) || s.items.any fun i => match i.host with | some h => h.queue == qn | none => false)
/-- The entry a queue offers now. -/
def State.offered (s : State) (qn : Nat) : Option (HostQueue × Entry) :=
  match Map.get? s.queues qn with
  | none => none
  | some q =>
    if ¬ s.queueOpen qn q then none
    else match s.queueRead q (q.entryAddr (s.pointer qn q)) 64 with
      | .bytes b =>
        let e := Entry.ofBytes b
        if (e.refusal q.priv).isSome ∨ s.waitsPrev qn e then none else some (q, e)
      | _ => none
/-- Service of one head: an entry that cannot be read stops the queue, one that breaks R241 is refused once it is its turn. -/
def State.serveHead (s : State) (qn : Nat) : State :=
  match Map.get? s.queues qn with
  | none => s
  | some q =>
    if ¬ s.queueOpen qn q then s
    else
      let a := q.entryAddr (s.pointer qn q)
      match s.queueRead q a 64 with
      | .miss buf pg => s.queueWait qn q.ctx buf pg
      | .none => if s.untaken qn ≠ 0 then s else (s.stopQueue qn 3).log { cls := 9, sev := 1, ctx := if q.priv then 0xFF else q.ctx, addr := a.toNat }
      | .bytes b =>
        let e := Entry.ofBytes b
        match e.refusal q.priv with
        | some d => if s.untaken qn = 0 ∧ ¬ s.waitsPrev qn e then (s.queueTaken qn).status (hostRef qn q e q.ctx) 2 d 0 else s
        | none => s
/-- Every head is served, as often as a queue has entries. -/
def State.serveQueue (qn : Nat) : Nat → State → State
  | 0, s => s
  | n + 1, s => let s' := s.serveHead qn; if s' = s then s else State.serveQueue qn n s'
def State.serveHeads (s : State) : State :=
  s.queues.foldl (fun (s : State) e => State.serveQueue e.1 (min 65536 (s.ahead e.1 e.2)) s) s

/-- A command that ends at once: taken, executed, and its status written; none means refused with a `DETAIL`. -/
def State.simple (s : State) (qn code : Nat) (k : State → HostQueue → Entry → Except Nat State) : State :=
  match s.offered qn with
  | none => s
  | some (q, e) =>
    if e.cmd ≠ code ∨ s.untaken qn ≠ 0 then s
    else
      let h := hostRef qn q e q.ctx
      let s := s.queueTaken qn
      match k s q e with
      | .ok s => s.status h 1 0 0
      | .error d => s.status h 2 d 0
/-- A command that ends in a later event. -/
def State.lasting (s : State) (qn code : Nat) (k : State → Entry → Except Nat (State × Option Running)) : State :=
  match s.offered qn with
  | none => s
  | some (q, e) =>
    if e.cmd ≠ code ∨ s.untaken qn ≠ 0 then s
    else
      let h := hostRef qn q e q.ctx
      let s := s.queueTaken qn
      match k s e with
      | .ok (s, some r) => s.modEdge fun x => { x with running := x.running ++ [(qn, h, r)] }
      | .ok (s, none) => s.status h 1 0 0
      | .error d => s.status h 2 d 0
/-- The end of a lasting command. -/
def State.endRunning (s : State) (qn code detail : Nat) : State :=
  match s.edge.running.find? (·.1 == qn) with
  | none => s
  | some (_, h, _) => (s.modEdge fun x => { x with running := x.running.filter (·.1 != qn) }).status h code detail 0
/-- A context that takes commands (R437). -/
def State.commandable (s : State) (c : Nat) : Option Ctx := if s.frozen c then none else s.ctx? c
/-- Physical bytes a privileged command reads; none where the device has none or they are poisoned. -/
def State.readPhys (s : State) (a n : Nat) : Option (List Byte) :=
  if a + n ≤ memSize ∧ (s.poisonedIn false ((List.range n).map (a + ·))).isNone then some (memBytes s.mem a n) else none

/-! ## LAUNCH and RELAUNCH -/

def State.launchEntry (s : State) (qn code : Nat) : State :=
  match s.offered qn with
  | none => s
  | some (q, e) =>
    if e.cmd ≠ code then s
    else
      let ctx := if q.priv then e.a2 % 64 else q.ctx
      let h := hostRef qn q e q.ctx
      match s.commandable ctx with
      | none => if s.untaken qn = 0 then (s.queueTaken qn).status h 2 0 0 else s
      | some _ => s.pushHw q.hwq { ctx := ctx, kind := if code = 1 then .launch else .relaunch, addr := BitVec.ofNat 64 e.a0,
                                   param := if code = 1 then 0 else BitVec.ofNat 64 e.a1, host := some h }

/-! ## PLANEMAP (R112, R113) -/

/-- Whether a region lies within the bounds of its buffer. -/
def State.inBounds (s : State) (c : Ctx) (a : Addr) (n : Nat) : Bool :=
  let e := s.buf c (bufOf a)
  e.valid && decide (offOf a + n ≤ e.size)
def regionsMeet (a b : Addr) (n : Nat) : Bool :=
  bufOf a == bufOf b && decide (offOf a < offOf b + n ∧ offOf b < offOf a + n)
def State.pdeOk (s : State) (c : Ctx) (p : Pde) : Bool :=
  let n := 4 * p.nblk
  let planes := (List.range (p.d + 1)).map (p.plane 0)
  !p.valid || (!p.reserved && decide (p.hbase.toNat % 32 = 0 ∧ p.pbase.toNat % 32 = 0 ∧ p.pstride % 32 = 0 ∧ n ≤ p.pstride ∧ 1 ≤ p.nblk
    ∧ 1 ≤ p.d ∧ p.d ≤ 24) && (p.hbase :: planes).all (fun a => s.inBounds c a n) && !(planes.any fun a => regionsMeet p.hbase a n))
/-- The context of a PLANEMAP, the image it names and the entry it writes. -/
def State.planemapOf (s : State) (q : HostQueue) (e : Entry) : Option (Nat × Ctx × Addr) :=
  let n := if q.priv then e.a2 % 64 else q.ctx
  (s.commandable n).bind fun c => if c.pdir = 0 ∨ c.pdlen ≤ e.a0 then none else some (n, c, addOff c.pdir (32 * e.a0 : Nat))
def State.planemap (s : State) (qn : Nat) : State :=
  match s.offered qn with
  | none => s
  | some (q, e) =>
    let miss := (s.planemapOf q e).bind fun x =>
      (s.cpMiss x.1 q.dead [(.load, BitVec.ofNat 64 e.a1, 32), (.store, x.2.2, 32)]).map fun m => (x.1, m)
    match (if e.cmd = 3 ∧ s.untaken qn = 0 then miss else none) with
    | some (ctx, buf, pg) => s.queueWait qn ctx buf pg
    | none => s.simple qn 3 fun s q e =>
      match s.planemapOf q e with
      | none => .error 0
      | some (n, c, dst) => match s.port_ n [] .load (BitVec.ofNat 64 e.a1) 32 with
        | .ok ps =>
          if (s.poisonedIn false ps).isSome then .ok (s.poisonKill n (BitVec.ofNat 64 e.a1) ((s.poisonedIn false ps).getD 0))
          else
            let b := s.gather ps
            if ¬ s.pdeOk c (Pde.ofBytes b) then .error 0
            else match s.cpWrite n dst b with
              | none => .error 0
              | some s => .ok (s.modPort fun p => { p with planes := p.planes.filter fun l => !(l.ctx == n && l.handle == e.a0) })
        | _ => .error 0

/-! ## BUFMAP and SHARE (R84, R85, R89, R514) -/

/-- The conditions on an image. -/
def imageBad (b : List Byte) : Bool :=
  let f (o n : Nat) : Nat := leNat ((b.drop o).take n)
  let e := bufOfBytes b
  decide (2 ^ 48 < f 8 8) || decide (32 ≤ f 0x10 1) || decide (64 ≤ f 0x11 1) || decide (512 ≤ f 0x12 2) || decide (8 < f 0x14 4)
    || decide (2 ^ 44 ≤ f 0x18 8) || decide (f 0x18 4 = 0) || decide (f 0x1C 4 = 0) || decide (1023 < f 0x30 2) || decide (f 0x32 14 ≠ 0)
    || (e.compress && !e.paged) || (e.remote && (e.paged || e.compress || e.rename))
/-- The stamp array of an image (R514). -/
def State.stampsOk (s : State) (n : Nat) (c : Ctx) (e : BufEntry) : Bool :=
  let a := s.buf c (bufOf e.stamps)
  decide (e.stamps.toNat % 4 = 0) && a.valid && decide (a.rights % 4 = 3) && !a.remote && (a.owner == n || a.shared)
    && decide (offOf e.stamps + 4 * ((e.size + 4095) / 4096) ≤ a.size)
/-- The physical 64 KiB pages an entry maps, and whether each is stored compressed by its page table entry. -/
def State.entryPages (s : State) (e : BufEntry) : List (Nat × Bool) :=
  if ¬ e.valid ∨ e.remote ∨ e.size = 0 then []
  else if e.paged then
    (List.range ((e.size + e.pageSize - 1) / e.pageSize)).flatMap fun k => match s.pageByte e (k * e.pageSize) with
      | some p => (List.range (e.pageSize / 65536)).map fun i => (p / 65536 + i, bitN (s.phys (e.base + 8 * k) 8) 1 == 1)
      | none => []
  else (List.range ((e.base + e.size - 1) / 65536 + 1 - e.base / 65536)).map fun k => (e.base / 65536 + k, false)
/-- The pages of a rename pool as its descriptor lists them (R468). -/
def State.poolList (s : State) (ctx : Nat) (rpool : Addr) : List Nat :=
  match s.readDev ctx rpool 16 with
  | none => []
  | some b =>
    let l := BitVec.ofNat 64 (leNat (b.take 8))
    (List.range (leNat ((b.drop 8).take 4))).filterMap fun k => s.readDevNat ctx (addOff l (8 * k : Nat)) 8
/-- An entry enters the table: first mappings place their pages, and the rename pool is read. -/
def State.installBuf (s : State) (n i : Nat) (c : Ctx) (b : List Byte) : State :=
  let at_ := c.btab + 64 * i
  let old := s.buf c i
  let e := bufOfBytes b
  let s := s.pokeRaw at_ (List.replicate 64 0)
  let pages := s.entryPages e
  let s := s.placePages e (pages.map (·.1))
  let s := s.modPort fun p => { p with packed := p.packed ++ (pages.filter fun g => g.2 && !p.packed.contains g.1).map (·.1) }
  let s := (s.pokeRaw at_ b).modCtx n fun c => { c with stampBad := c.stampBad.filter (· != i) }
  if ¬ e.valid ∨ ¬ e.rename then s
  else if old.valid ∧ old.rename ∧ old.rpool = e.rpool then s
  else s.setPool n i (s.poolList n e.rpool)
def State.bufTarget (s : State) (e : Entry) : Option (Nat × Nat × Ctx) :=
  let n := bitsN e.a0 21 16
  let i := e.a0 % 65536
  (s.commandable n).bind fun c => if i = 0 ∨ c.btlen ≤ i then none else some (n, i, c)
def State.bufmap (s : State) (qn : Nat) : State :=
  s.simple qn 4 fun s _ e =>
    match s.bufTarget e, s.readPhys e.a1 64 with
    | some (n, i, c), some b =>
      let x := bufOfBytes b
      if imageBad b || (x.stamp && !s.stampsOk n c x) then .error 0
      else
        let old := s.buf c i
        let attr := x.attr % 256 + (if old.valid && old.shared then 256 else 0)
        .ok (s.installBuf n i c (b.take 0x12 ++ leBytes 2 attr ++ b.drop 0x14))
    | _, _ => .error 0
def State.share (s : State) (qn : Nat) : State :=
  s.simple qn 5 fun s _ e =>
    match s.bufTarget e with
    | none => .error 0
    | some (_, i, c) => .ok (s.pokeRaw (c.btab + 64 * i + 0x12) (leBytes 2 ((s.buf c i).attr % 256 + 256 * bitN e.a1 0)))

/-! ## Contexts (R29, R30, R239, R516) -/

/-- A descriptor, or none where it breaks a limit or a reserved bit. -/
def ctxOfBytes (desc : Nat) (b : List Byte) : Option Ctx :=
  let f (o n : Nat) : Nat := leNat ((b.drop o).take n)
  let a (o : Nat) : Addr := BitVec.ofNat 64 (f o 8)
  let svc := f 0x0C 2
  let bad := decide (f 8 4 = 0 ∨ 65536 < f 8 4 ∨ 128 ≤ svc ∨ bitN svc 3 = 1 ∨ bitsN (f 0x0E 2) 14 10 ≠ 0 ∨ 2 ^ 29 ≤ f 0x10 4)
    || decide (bitsN (f 0x10 4) 28 24 < 10 ∨ 30 < bitsN (f 0x10 4) 28 24 ∨ 48 < f 0x14 4 ∨ f 0x20 8 % 32 ≠ 0 ∨ 65536 < f 0x28 4)
    || decide (2 ^ 20 < f 0x2C 4 ∨ f 0x30 8 % 64 ≠ 0 ∨ f 0x38 8 % 64 ≠ 0 ∨ 2 ^ 20 < f 0x40 4 ∨ f 0x44 4 ≠ 0)
    || decide (f 0x6C 20 ≠ 0)
  if bad then none
  else some { desc := desc, btab := f 0 8, btlen := f 8 4, svc := svc, podctx := f 0x0E 2, sched := f 0x10 4, lquota := f 0x14 4,
              evs := a 0x18, pdir := a 0x20, pdlen := f 0x28 4, hspn := f 0x2C 4, hspa := a 0x30, tqsa := a 0x38, tqsn := f 0x40 4,
              spbase := a 0x48, spsize := f 0x50 8, svbase := a 0x58, svsize := f 0x60 8, lsn := f 0x68 4 }
def State.ctxcreate (s : State) (qn : Nat) : State :=
  s.simple qn 6 fun s _ e =>
    if 63 < e.a0 ∨ (s.ctx? e.a0).isSome ∨ e.a1 % 128 ≠ 0 then .error 0
    else match (s.readPhys e.a1 128).bind (ctxOfBytes e.a1) with
      | none => .error 0
      | some c =>
        let s := { s with ctxs := Map.set s.ctxs e.a0 c }
        .ok (if c.evs = 0 then s else s.askPhase e.a0 (some 0))
/-- Whether a context still has work (R516). -/
def State.hasWork (s : State) (c : Nat) : Bool :=
  (s.groups.any fun e => e.2.ctx == c) || (s.items.any (·.ctx == c)) || (s.jobs.any (·.ctx == c))
    || (s.hwq.any fun e => e.2.any (·.ctx == c)) || (s.queues.any fun e => !e.2.priv && e.2.ctx == c && e.2.head != e.2.tail)
def State.ctxdestroy (s : State) (qn : Nat) : State :=
  s.lasting qn 7 fun s e =>
    match s.ctx? e.a0 with
    | none => .error 0
    | some _ => .ok (if s.hasWork e.a0 then s.kill e.a0 0 else s, some (.ctxdestroy e.a0))
/-- The end of CTXDESTROY: the number is free and nothing of the context applies any more. -/
def State.dropCtx (s : State) (c : Nat) : State :=
  { s with ctxs := Map.erase s.ctxs c, pageReturns := s.pageReturns.filter (·.2.1 != c),
           port := { s.port with planes := s.port.planes.filter (·.ctx != c) } }

/-! ## Queues (R220, R240, R250) -/

/-- A queue descriptor, or none where it breaks R240. -/
def queueOfBytes (desc : Nat) (priv : Bool) (b : List Byte) : Option HostQueue :=
  let f (o n : Nat) : Nat := leNat ((b.drop o).take n)
  let n := f 0x18 4
  let bad := decide (f 0 8 % 64 ≠ 0 ∨ n < 16 ∨ 65536 < n ∨ 2 ^ Nat.log2 n ≠ n ∨ 128 ≤ f 0x1C 1 ∨ 64 ≤ f 0x1D 1)
    || decide (f 0x1F 0x21 ≠ 0)
  if bad then none
  else some { desc := desc, ring := BitVec.ofNat 64 (f 0 8), taila := BitVec.ofNat 64 (f 8 8), heada := BitVec.ofNat 64 (f 0x10 8), nent := n,
              hwq := f 0x1C 1 % 64, priv := priv || bitN (f 0x1C 1) 6 == 1, ctx := f 0x1D 1 }
/-- Whether bytes lie in the host window (R515). -/
def Edge.inWindow (e : Edge) (p n : Nat) : Bool :=
  decide (e.hwsize ≠ 0 ∧ e.hwbase ≤ p ∧ p + n ≤ min (e.hwbase + e.hwsize) memSize)
/-- The tail line of a queue. -/
def HostQueue.tailLine (q : HostQueue) : Addr := q.taila &&& ~~~(63#64)
/-- Ring, tail line and head count lie where R240 has them: in a `HOSTCOH` buffer of the queue's context, or in the host window. -/
def State.queueFits (s : State) (q : HostQueue) : Bool :=
  let at_ (a : Addr) (n : Nat) : Bool :=
    if q.priv then s.edge.inWindow a.toNat n
    else match s.commandable q.ctx with
      | some c => let e := s.buf c (bufOf a); e.valid && e.hostcoh && decide (offOf a + n ≤ e.size)
      | none => false
  at_ q.ring (64 * q.nent) && at_ q.tailLine 64 && at_ q.heada 4
/-- The descriptor of a new queue, or none where it breaks R240. -/
def State.queueAt (s : State) (desc : Nat) (priv : Bool) : Option HostQueue :=
  if s.queues.any fun e => e.2.desc == desc then none
  else ((s.readPhys desc 64).bind (queueOfBytes desc priv)).bind fun q => if s.queueFits q then some q else none
/-- A new queue is active, and its tail line hitched (R220). -/
def State.openQueue (s : State) (qn desc : Nat) (priv : Bool) : Option State :=
  (s.queueAt desc priv).bind fun q =>
    (s.queueBytes q .load q.tailLine 64).map fun ps => ((s.setQueue qn q).queueState qn 1).queueHitch qn (ps.headD 0 / 64) q.tailLine
/-- The lowest number no queue has and no item of a destroyed queue still names. -/
def State.freeQueue (s : State) : Nat :=
  let used := s.queues.map (·.1) ++ s.items.filterMap fun i => i.host.map (·.queue)
  ((List.range (used.length + 1)).find? fun k => !used.contains k).getD 0
def State.qcreate (s : State) (qn : Nat) : State :=
  match s.offered qn with
  | none => s
  | some (q, e) =>
    let new := if e.cmd = 8 ∧ s.untaken qn = 0 then s.queueAt e.a0 false else none
    -- the pages of its tail line and head count are served first (R465)
    match new.bind fun d => if d.priv then none
        else (s.cpMiss d.ctx q.dead [(.load, d.tailLine, 64), (.store, d.heada, 4)]).map fun m => (d.ctx, m) with
    | some (ctx, buf, pg) => s.queueWait qn ctx buf pg
    | none => s.simple qn 8 fun s _ e => match s.openQueue s.freeQueue e.a0 false with | some s => .ok s | none => .error 0
/-- A queue is gone, and its hitch. -/
def State.dropQueue (s : State) (k : Nat) : State :=
  let s := s.stopQueue k 0
  { s with queues := Map.erase s.queues k }.trimLines
/-- Whether a queue still has entries that were admitted by a push of its tail and not taken. -/
def State.draining (s : State) (k : Nat) : Bool :=
  match Map.get? s.queues k with
  | some q => decide (q.state = 1) && !s.frozen q.ctx && (decide (0 < s.ahead k q) || decide (0 < s.untaken k))
  | none => false
/-- QDESTROY: after the entries of the queue already admitted (R242); of its own queue at once. -/
def State.qdestroy (s : State) (qn : Nat) : State :=
  s.lasting qn 9 fun s e => match s.queues.find? fun x => x.2.desc == e.a0 with
    | none => .error 0
    | some (k, _) => .ok (if k ≠ qn ∧ s.draining k then (s, some (.qdestroy k)) else (s.dropQueue k, none))
/-- QUEUE_TAIL_PUSH: the push of the tail line lands in the command processor and gives the tail; a count beyond the ring stops the
queue (R220, R242). With the host lost no tail is pushed (R497). -/
def State.tailPush (s : State) (qn : Nat) : State :=
  match Map.get? s.queues qn with
  | none => s
  | some q => match q.hitch.bind fun x => x.sent.map (x, ·) with
    | none => s
    | some (x, data, n, _) =>
      if q.state ≠ 1 ∨ s.edge.wymDown then s
      else
        let tail := leNat (data.take 4)
        let s := s.setQueue qn { q with tail := tail, dead := [], hitch := some ({ x with sent := none, seqs := [n] } : Slot).advance }
        if q.nent < (tail + 2 ^ 32 - q.head) % 2 ^ 32 then s.stopQueue qn 2 else s

/-! ## Pre-emption (R77, R81) -/

def State.preemptCtx (s : State) (c : Nat) : State :=
  match s.ctx? c with
  | none => s
  | some C =>
    let s := s.modCtx c fun C => { C with held := true }
    ((s.groups.filter fun e => e.2.ctx == c).map (·.1)).foldl (fun (s : State) g => s.preemptGroup g (bitsN C.sched 28 24)) s
/-- A context runs again: gangs whose regions all stand go on at once, the others when they are placed. -/
def State.resumeCtx (s : State) (c : Nat) : State :=
  let s := s.modCtx c fun C => { C with held := false }
  let gangs := ((s.groups.filter fun e => e.2.ctx == c && e.2.res != .resident).map (·.2.gang)).eraseDups
  gangs.foldl (fun (s : State) g =>
    let ms := s.gangMembers g
    if gangAway ms && ms.all fun e => e.2.holds then
      (ms.filter fun e => e.2.res != .resident).foldl (fun (s : State) e => s.resumeGroup e.1 e.2.core) s
    else s) s
def State.preemptCmd (s : State) (qn : Nat) : State :=
  s.lasting qn 10 fun s e => match s.commandable e.a0 with
    | none => .error 0
    | some _ => .ok (s.preemptCtx e.a0, some (.preempt e.a0))
def State.resumeCmd (s : State) (qn : Nat) : State :=
  s.simple qn 11 fun s _ e => match s.commandable e.a0 with
    | none => .error 0
    | some _ => .ok (s.resumeCtx e.a0)

/-! ## POOL (R241, R465, R473) -/

/-- An entry of a page list: whether it is a 2 MiB page, and its address. -/
def poolEntry (x : Nat) : Option (Bool × Nat) :=
  let big := bitN x 0 == 1
  let size := if big then 2 ^ 21 else 2 ^ 16
  let a := x - bitN x 0
  if a % size ≠ 0 ∨ memSize < a + size then none else some (big, a)
def State.poolAdd (s : State) (qn : Nat) : State :=
  match s.offered qn with
  | none => s
  | some (_, e) =>
    if e.a2 = 1 then s
    else s.simple qn 12 fun s _ e =>
      if e.a2 ≠ 0 then .error 0
      else match s.readPhys e.a0 (8 * e.a1) with
        | none => .error 0
        | some b =>
          let l := (List.range e.a1).map fun k => poolEntry (leNat ((b.drop (8 * k)).take 8))
          if l.any (·.isNone) then .error 0
          else
            let ps : List (Bool × Nat) := l.filterMap id
            let s := s.modPort fun p => { p with pool64 := p.pool64 ++ (ps.filter (fun (x : Bool × Nat) => !x.1)).map (·.2), pool2m := p.pool2m ++ (ps.filter (fun (x : Bool × Nat) => x.1)).map (·.2) }
            let held := (s.port.stalls.map (fun (x : Nat × Nat × Bool) => x.1) ++ s.port.hold.map (· / 512)).eraseDups
            .ok (if ps.isEmpty then s else held.foldl (fun (s : State) g => s.relieve g) s)
def State.poolReport (s : State) (qn : Nat) : State :=
  match s.offered qn with
  | none => s
  | some (_, e) =>
    if e.a2 ≠ 1 then s
    else s.simple qn 12 fun s _ e =>
      if e.a0 % 32 ≠ 0 ∨ memSize < e.a0 + 32 then .error 0
      else
        -- a packed region: its slots rounded up to 4 KiB, its exception region and its unit map (R104)
        let used := (s.port.packed.map fun g => (Config.packedBytes g + 4095) / 4096 * 4096 + 4096 + Config.unitMapBytes).foldl (· + ·) 0
        let b := leBytes 8 (65536 * s.port.pool64.length) ++ leBytes 8 (2 ^ 21 * s.port.pool2m.length) ++ leBytes 8 used
          ++ leBytes 8 (65536 * s.port.packed.length)
        .ok (s.writeEvent { ctx := 0, stamp := none } (((List.range 32).map (e.a0 + ·)).zip b))

/-! ## ATTEST (R251) -/

def midWord : Nat := 0x8200 * 65536 + Config.stepping % 256 * 256
/-- The report: the digests, keys and the signature are the device's own. -/
def attestReport (nonce : List Byte) : List Byte :=
  let area (o n : Nat) : List Byte := (List.range n).map fun k => Config.attestByte (o + k)
  let body := leBytes 8 midWord ++ nonce ++ area 0x38 0x98 ++ List.replicate 56 0 ++ area 0x108 96
  body ++ ((List.range 96).map (Config.signByte body)) ++ List.replicate 56 0
def State.attest (s : State) (qn : Nat) : State :=
  s.simple qn 14 fun s _ e =>
    match s.readPhys e.a0 48 with
    | none => .error 0
    | some nonce =>
      if memSize < e.a1 + 512 then .error 0
      else .ok (s.writeEvent { ctx := 0, stamp := none } (((List.range 512).map (e.a1 + ·)).zip (attestReport nonce)))

/-! ## Quiescence, checkpoint and restore (R246 to R249, R500) -/

/-- Step 1 and 2 of R247 begin: every context is pre-empted. -/
def State.preemptAll (s : State) : State := (s.ctxs.map (·.1)).foldl (fun (s : State) c => s.preemptCtx c) s
/-- The record of the contexts that a manifest carries: those of step 1, with the LSNs of step 3. -/
def State.noteCtxs (s : State) : State :=
  s.modEdge fun e => { e with ckptCtxs := s.ctxs.map fun c => (c.1, c.2.lsn, c.2.desc) }
def State.noteLsns (s : State) : State :=
  s.modEdge fun e => { e with ckptCtxs := e.ckptCtxs.map fun c => (c.1, (match s.ctx? c.1 with | some C => C.lsn | none => c.2.1), c.2.2) }
/-- Step 5: contexts resume, or stay pre-empted. -/
def State.resumeAll (s : State) (on : Bool) : State :=
  if on then (s.ctxs.map (·.1)).foldl (fun (s : State) c => s.resumeCtx c) s else s
def State.quiesce (s : State) (qn : Nat) : State :=
  s.lasting qn 15 fun s _ => if s.edge.quiesced then .ok (s, none) else .ok (s.noteCtxs.preemptAll, some .quiesce)
def State.release (s : State) (qn : Nat) : State :=
  s.simple qn 16 fun s _ e =>
    if ¬ s.edge.quiesced then .ok s
    else .ok ((s.modEdge fun x => { x with quiesced := false }).resumeAll (bitN e.a0 0 == 1))
def State.ckpt (s : State) (qn : Nat) : State :=
  s.lasting qn 13 fun s e =>
    match s.readPhys e.a0 64 with
    | none => .error 0
    | some b =>
      let f (o n : Nat) : Nat := leNat ((b.drop o).take n)
      let s := s.modEdge fun x => { x with ckptPod := f 0 2 % 1024, ckptDest := BitVec.ofNat 64 (f 8 8) }
      let resume := bitN (f 0x10 1) 0 == 1
      if s.edge.quiesced then .ok (s.modEdge fun x => { x with ckpt := true }, some (.ckpt false resume))
      else if s.ctxs.any fun c => bitN c.2.svc 5 == 1 then .error 1
      else .ok (s.noteCtxs.preemptAll, some (.ckpt true resume))
/-- Whether steps 1 to 3 may end: no group stands on a core and no engine job runs. -/
def State.stilled (s : State) : Bool := (s.groups.all fun e => e.2.res != .resident || e.2.exiting) && s.jobs.isEmpty
/-- Step 3: every region still on a core is saved; a context whose save does not fit is killed (R447). -/
def State.saveAll (s : State) : State :=
  (s.groups.map (·.1)).foldl (fun (s : State) g => match s.group? g with
    | none => s
    | some G => match G.res with
      | .preempted o false => (match s.save g (.preempted o true) with
        | some s => s
        | none => s.logKill { cls := 9, sev := 2, ctx := G.ctx, detail := 0x220 })
      | _ => s) s
/-- The manifest of a whole stream (R247). -/
def State.manifestBytes (s : State) : List Byte :=
  let cs := s.edge.ckptCtxs
  let at_ (f : Nat × Nat × Nat → Nat) (n : Nat) : Nat := match cs.find? (fun (c : Nat × Nat × Nat) => c.1 == n) with | some c => f c | none => 0
  (List.range 48).map (Config.sha384 ((List.range 96).map fun k => Config.attestByte (0x108 + k))) ++ leBytes 8 memSize ++ leBytes 8 ((cs.map fun (c : Nat × Nat × Nat) => 2 ^ c.1).foldl (· + ·) 0)
    ++ (List.range 64).flatMap (fun n => leBytes 4 (at_ (fun (c : Nat × Nat × Nat) => c.2.1) n)) ++ (List.range 64).flatMap (fun n => leBytes 8 (at_ (fun (c : Nat × Nat × Nat) => c.2.2) n))
    ++ List.replicate 3256 0 ++ leBytes 8 1
/-- The stream in progress: its queue, and whether step 5 follows. -/
def State.streaming (s : State) : Option (Nat × Bool × Bool) :=
  if ¬ s.edge.ckpt then none
  else s.edge.running.findSome? fun e => match e.2.2 with | .ckpt own resume => some (e.1, own, resume) | _ => none
/-- CKPT_STREAM_END: the image is streamed whole, the manifest's last word is written, and the command is done. -/
def State.streamEnd (s : State) : State :=
  match s.streaming with
  | none => s
  | some (qn, own, resume) =>
    let s := s.modEdge fun x => { x with ckpt := false, image := s.mem, manifest := s.manifestBytes }
    (if own then s.resumeAll resume else s).endRunning qn 1 0
/-- CKPT_INTERRUPTED (R500). -/
def State.streamStop (s : State) (units : Nat) (step5 : Bool) : State :=
  match s.streaming with
  | none => s
  | some (qn, own, resume) =>
    let n := min units 12582912
    let s := (s.modEdge fun x => { x with ckpt := false, image := s.mem.filter fun c => decide (c.1 < 65536 * n), manifest := [] }).log { cls := 12, sev := 1 }
    (if own ∧ step5 then s.resumeAll resume else s).endRunning qn 3 n
def State.restore (s : State) (qn : Nat) (m : Manifest) : State :=
  s.lasting qn 17 fun s e =>
    if ¬ s.edge.quiesced ∨ ¬ s.ctxs.isEmpty then .error 2
    else match s.readPhys e.a0 64 with
      | none => .error 0
      | some b =>
        let s := s.modEdge fun x => { x with ckptPod := leNat (b.take 2) % 1024, ckptDest := BitVec.ofNat 64 (leNat ((b.drop 8).take 8)) }
        if m.finalWord ≠ 1 ∨ m.byteCount ≠ memSize then .error 3
        else if ¬ m.sameDevice ∧ bitN e.a1 0 = 0 then .error 4
        else .ok (s, some .restore)
def State.restoring (s : State) : Option Nat := s.edge.running.findSome? fun e => match e.2.2 with | .restore => some e.1 | _ => none
/-- Every cached copy of device memory is invalidated, the host's by snoops (R188, R249). -/
def State.dropCopies (s : State) : State :=
  s.modPort fun p => { p with copies := [], planes := [], hold := [], stalls := [], snooped := [],
                              snoops := p.snoops ++ p.snooped.map fun l => (⟨l, s.clock, 0, 0, 0, 0⟩ : Snoop) }
/-- Memory below a bound is the image's, its poison that of the UALink poison indication; above it the old bytes stay. -/
def State.restored (s : State) (image : List (Nat × Byte)) (poison : List Nat) (bound : Nat) : State :=
  let kept := s.mem.filter fun c => decide (bound ≤ c.1)
  let s := { s.dropCopies with mem := memScatter kept (image.filter fun c => decide (c.1 < bound)) }
  s.modPort fun p => { p with poison := p.poison.filter (fun x => decide (bound ≤ 32 * x)) ++ (poison.filter fun x => decide (32 * x < bound)).eraseDups }
/-- RESTORE_STREAM_END: memory holds the image byte for byte. -/
def State.restoreEnd (s : State) (image : List (Nat × Byte)) (poison : List Nat) : State :=
  match s.restoring with
  | none => s
  | some qn => (s.restored image poison memSize).endRunning qn 1 0
/-- RESTORE_INTERRUPTED: the 4 KiB blocks up to a bound were written. -/
def State.restoreStop (s : State) (image : List (Nat × Byte)) (poison : List Nat) (bytes : Nat) : State :=
  match s.restoring with
  | none => s
  | some qn => ((s.restored image poison (min memSize (bytes / 4096 * 4096))).log { cls := 12, sev := 1 }).endRunning qn 3 0

/-! ## The steps -/

def execQueueTailPush (queue : Nat) (s : State) : Host.Outcome State Fault Refusal := finish (s.tailPush queue)
def execLaunchCommand (queue : Nat) (s : State) : Host.Outcome State Fault Refusal := finish (s.launchEntry queue 1)
def execRelaunchCommand (queue : Nat) (s : State) : Host.Outcome State Fault Refusal := finish (s.launchEntry queue 2)
def execPlanemap (queue : Nat) (s : State) : Host.Outcome State Fault Refusal := finish (s.planemap queue)
def execBufmap (queue : Nat) (s : State) : Host.Outcome State Fault Refusal := finish (s.bufmap queue)
def execShare (queue : Nat) (s : State) : Host.Outcome State Fault Refusal := finish (s.share queue)
def execCtxcreate (queue : Nat) (s : State) : Host.Outcome State Fault Refusal := finish (s.ctxcreate queue)
def execCtxdestroy (queue : Nat) (s : State) : Host.Outcome State Fault Refusal := finish (s.ctxdestroy queue)
def execQcreate (queue : Nat) (s : State) : Host.Outcome State Fault Refusal := finish (s.qcreate queue)
def execQdestroy (queue : Nat) (s : State) : Host.Outcome State Fault Refusal := finish (s.qdestroy queue)
def execPreempt (queue : Nat) (s : State) : Host.Outcome State Fault Refusal := finish (s.preemptCmd queue)
def execResume (queue : Nat) (s : State) : Host.Outcome State Fault Refusal := finish (s.resumeCmd queue)
def execPoolAdd (queue : Nat) (s : State) : Host.Outcome State Fault Refusal := finish (s.poolAdd queue)
def execPoolReport (queue : Nat) (s : State) : Host.Outcome State Fault Refusal := finish (s.poolReport queue)
def execCkpt (queue : Nat) (s : State) : Host.Outcome State Fault Refusal := finish (s.ckpt queue)
def execAttest (queue : Nat) (s : State) : Host.Outcome State Fault Refusal := finish (s.attest queue)
def execQuiesce (queue : Nat) (s : State) : Host.Outcome State Fault Refusal := finish (s.quiesce queue)
def execRelease (queue : Nat) (s : State) : Host.Outcome State Fault Refusal := finish (s.release queue)
def execRestore (queue : Nat) (manifest : Manifest) (s : State) : Host.Outcome State Fault Refusal := finish (s.restore queue manifest)
def execRestoreStreamEnd (image : List (Nat × Byte)) (poison : List Nat) (s : State) : Host.Outcome State Fault Refusal :=
  finish (s.restoreEnd image poison)
def execRestoreInterrupted (image : List (Nat × Byte)) (poison : List Nat) (bytes : Nat) (s : State) : Host.Outcome State Fault Refusal :=
  finish (s.restoreStop image poison bytes)
def execCkptStreamEnd (s : State) : Host.Outcome State Fault Refusal := finish s.streamEnd
def execCkptInterrupted (units : Nat) (s : State) : Host.Outcome State Fault Refusal := finish (s.streamStop units true)

end Sys2Proof.Machine
end

