-- ==== Sys2Proof/Machine/Compact.lean ====
section
/-! DEFINITION. The compact forms (R257 to R259, R334), each the effect of the full instruction its fields expand to, and the
pair (R260). -/

namespace Sys2Proof.Machine

/-- The full opcode and fields of a compact instruction. -/
def cfull (cop : BitVec 6) (c : Compact) : Nat × Full := (CompactWord.mk cop c).full
/-- The width of a compact load or store whose width 0 is an opcode. -/
def cwidth (op base : Nat) : Width := Width.ofCode (op - base)

def execNopCompact (c : Compact) (s : State) : Host.Outcome State Fault Refusal :=
  let (op, f) := cfull 0 c
  issueEach op f (planNop f) s
def execMovCompact (c : Compact) (s : State) : Host.Outcome State Fault Refusal :=
  let (op, f) := cfull 1 c
  issueEach op f (planMov f) s
def execMoviCompact (c : Compact) (s : State) : Host.Outcome State Fault Refusal :=
  let (op, f) := cfull 1 c
  issueEach op f (planMovi f) s
def execIaddCompact (c : Compact) (s : State) : Host.Outcome State Fault Refusal :=
  let (op, f) := cfull 2 c
  issueEach op f (planIadd f) s
def execIsubCompact (c : Compact) (s : State) : Host.Outcome State Fault Refusal :=
  let (op, f) := cfull 3 c
  issueEach op f (planIsub f) s
def execImulLoCompact (c : Compact) (s : State) : Host.Outcome State Fault Refusal :=
  let (op, f) := cfull 4 c
  issueEach op f (planImulLo f) s
def execIminCompact (c : Compact) (s : State) : Host.Outcome State Fault Refusal :=
  let (op, f) := cfull 5 c
  issueEach op f (planImin f) s
def execImaxCompact (c : Compact) (s : State) : Host.Outcome State Fault Refusal :=
  let (op, f) := cfull 6 c
  issueEach op f (planImax f) s
def execIandCompact (c : Compact) (s : State) : Host.Outcome State Fault Refusal :=
  let (op, f) := cfull 7 c
  issueEach op f (planIand f) s
def execIorCompact (c : Compact) (s : State) : Host.Outcome State Fault Refusal :=
  let (op, f) := cfull 8 c
  issueEach op f (planIor f) s
def execIxorCompact (c : Compact) (s : State) : Host.Outcome State Fault Refusal :=
  let (op, f) := cfull 9 c
  issueEach op f (planIxor f) s
def execIshlCompact (c : Compact) (s : State) : Host.Outcome State Fault Refusal :=
  let (op, f) := cfull 10 c
  issueEach op f (planIshl f) s
def execIshrLCompact (c : Compact) (s : State) : Host.Outcome State Fault Refusal :=
  let (op, f) := cfull 11 c
  issueEach op f (planIshrL f) s
def execIshrACompact (c : Compact) (s : State) : Host.Outcome State Fault Refusal :=
  let (op, f) := cfull 12 c
  issueEach op f (planIshrA f) s
def execIrotCompact (c : Compact) (s : State) : Host.Outcome State Fault Refusal :=
  let (op, f) := cfull 13 c
  issueEach op f (planIrot f) s
def execInotCompact (c : Compact) (s : State) : Host.Outcome State Fault Refusal :=
  let (op, f) := cfull 14 c
  issueEach op f (planInot f) s
def execInegCompact (c : Compact) (s : State) : Host.Outcome State Fault Refusal :=
  let (op, f) := cfull 15 c
  issueEach op f (planIneg f) s
def execIabsCompact (c : Compact) (s : State) : Host.Outcome State Fault Refusal :=
  let (op, f) := cfull 16 c
  issueEach op f (planIabs f) s
def execIpopcCompact (c : Compact) (s : State) : Host.Outcome State Fault Refusal :=
  let (op, f) := cfull 17 c
  issueEach op f (planIpopc f) s
def execIclzCompact (c : Compact) (s : State) : Host.Outcome State Fault Refusal :=
  let (op, f) := cfull 18 c
  issueEach op f (planIclz f) s
def execIctzCompact (c : Compact) (s : State) : Host.Outcome State Fault Refusal :=
  let (op, f) := cfull 19 c
  issueEach op f (planIctz f) s
def execIbrevCompact (c : Compact) (s : State) : Host.Outcome State Fault Refusal :=
  let (op, f) := cfull 20 c
  issueEach op f (planIbrev f) s
def execAaddCompact (c : Compact) (s : State) : Host.Outcome State Fault Refusal :=
  let (op, f) := cfull 21 c
  issueEach op f (planAadd f) s
def execFaddCompact (c : Compact) (s : State) : Host.Outcome State Fault Refusal :=
  let (op, f) := cfull 22 c
  issueEach op f (planFadd f) s
def execFsubCompact (c : Compact) (s : State) : Host.Outcome State Fault Refusal :=
  let (op, f) := cfull 23 c
  issueEach op f (planFsub f) s
def execFmulCompact (c : Compact) (s : State) : Host.Outcome State Fault Refusal :=
  let (op, f) := cfull 24 c
  issueEach op f (planFmul f) s
def execFminCompact (c : Compact) (s : State) : Host.Outcome State Fault Refusal :=
  let (op, f) := cfull 25 c
  issueEach op f (planFmin f) s
def execFmaxCompact (c : Compact) (s : State) : Host.Outcome State Fault Refusal :=
  let (op, f) := cfull 26 c
  issueEach op f (planFmax f) s
def execFabsCompact (c : Compact) (s : State) : Host.Outcome State Fault Refusal :=
  let (op, f) := cfull 27 c
  issueEach op f (planFabs f) s
def execFnegCompact (c : Compact) (s : State) : Host.Outcome State Fault Refusal :=
  let (op, f) := cfull 28 c
  issueEach op f (planFneg f) s
def execFrcpCompact (c : Compact) (s : State) : Host.Outcome State Fault Refusal :=
  let (op, f) := cfull 29 c
  issueEach op f (planFrcp f) s
def execFrsqCompact (c : Compact) (s : State) : Host.Outcome State Fault Refusal :=
  let (op, f) := cfull 30 c
  issueEach op f (planFrsq f) s
def execFsqrtCompact (c : Compact) (s : State) : Host.Outcome State Fault Refusal :=
  let (op, f) := cfull 31 c
  issueEach op f (planFsqrt f) s
def execPlvalCompact (c : Compact) (s : State) : Host.Outcome State Fault Refusal :=
  let (op, f) := cfull 32 c
  issueEach op f (planPlval f) s
def execLdCompact (c : Compact) (s : State) : Host.Outcome State Fault Refusal :=
  let (op, f) := cfull 33 c
  issueEach op f (planLd (cwidth op 0x0d0) f) s
def execStCompact (c : Compact) (s : State) : Host.Outcome State Fault Refusal :=
  let (op, f) := cfull 34 c
  issueEach op f (planSt (cwidth op 0x0d5) f) s
def execLdsCompact (c : Compact) (s : State) : Host.Outcome State Fault Refusal :=
  let (op, f) := cfull 35 c
  issueEach op f (planLds false (cwidth op 0x0da) f) s
def execStsCompact (c : Compact) (s : State) : Host.Outcome State Fault Refusal :=
  let (op, f) := cfull 36 c
  issueEach op f (planSts false (cwidth op 0x0df) f) s
def execShflIdxCompact (c : Compact) (s : State) : Host.Outcome State Fault Refusal :=
  let (op, f) := cfull 37 c
  issueTile op f (planShfl srcIdx f) s
def execShflXorCompact (c : Compact) (s : State) : Host.Outcome State Fault Refusal :=
  let (op, f) := cfull 38 c
  issueTile op f (planShfl srcXor f) s
def execLredCompact (c : Compact) (s : State) : Host.Outcome State Fault Refusal :=
  let (op, f) := cfull 39 c
  issueTile op f (planLred f) s
def execYieldCompact (c : Compact) (s : State) : Host.Outcome State Fault Refusal :=
  let (op, f) := cfull 40 c
  issueTurn op f (actYield f) s
def execWsyncCompact (c : Compact) (s : State) : Host.Outcome State Fault Refusal :=
  let (op, f) := cfull 41 c
  issueEach op f (planWsync f) s
def execHclrCompact (c : Compact) (s : State) : Host.Outcome State Fault Refusal :=
  let (op, f) := cfull 42 c
  issueEach op f (planHclr false f) s
def execFenceCompact (c : Compact) (s : State) : Host.Outcome State Fault Refusal :=
  let (op, f) := cfull 43 c
  issueTurn op f (faultPoint (actFence f)) s
def execWtanyCompact (c : Compact) (s : State) : Host.Outcome State Fault Refusal :=
  let (op, f) := cfull 44 c
  issueTurn op f (faultPoint (actWtany f)) s
def execWtallCompact (c : Compact) (s : State) : Host.Outcome State Fault Refusal :=
  let (op, f) := cfull 45 c
  issueTurn op f (faultPoint (actWtall f)) s
def execShflUpCompact (c : Compact) (s : State) : Host.Outcome State Fault Refusal :=
  let (op, f) := cfull 46 c
  issueTile op f (planShfl srcUp f) s
def execShflDownCompact (c : Compact) (s : State) : Host.Outcome State Fault Refusal :=
  let (op, f) := cfull 47 c
  issueTile op f (planShfl srcDown f) s

/-! ## The pair -/

/-- An effect each thread has alone, over the threads that execute. -/
def eachPlan (plan : State → Ref → TOut) (s : State) (rs : List Ref) : List (Ref × TOut) := rs.map fun r => (r, plan s r)

/-- What a compact instruction that may stand in a pair with another does: every class but S (R259, R260). -/
def pairPlan (w : CompactWord) : State → List Ref → List (Ref × TOut) :=
  let (op, f) := w.full
  let c := w.f
  match w.cop.toNat with
  | 0 => eachPlan (planNop f)
  | 1 => eachPlan (if c.i then planMovi f else planMov f)
  | 2 => eachPlan (planIadd f)
  | 3 => eachPlan (planIsub f)
  | 4 => eachPlan (planImulLo f)
  | 5 => eachPlan (planImin f)
  | 6 => eachPlan (planImax f)
  | 7 => eachPlan (planIand f)
  | 8 => eachPlan (planIor f)
  | 9 => eachPlan (planIxor f)
  | 10 => eachPlan (planIshl f)
  | 11 => eachPlan (planIshrL f)
  | 12 => eachPlan (planIshrA f)
  | 13 => eachPlan (planIrot f)
  | 14 => eachPlan (planInot f)
  | 15 => eachPlan (planIneg f)
  | 16 => eachPlan (planIabs f)
  | 17 => eachPlan (planIpopc f)
  | 18 => eachPlan (planIclz f)
  | 19 => eachPlan (planIctz f)
  | 20 => eachPlan (planIbrev f)
  | 21 => eachPlan (planAadd f)
  | 22 => eachPlan (planFadd f)
  | 23 => eachPlan (planFsub f)
  | 24 => eachPlan (planFmul f)
  | 25 => eachPlan (planFmin f)
  | 26 => eachPlan (planFmax f)
  | 27 => eachPlan (planFabs f)
  | 28 => eachPlan (planFneg f)
  | 29 => eachPlan (planFrcp f)
  | 30 => eachPlan (planFrsq f)
  | 31 => eachPlan (planFsqrt f)
  | 32 => eachPlan (planPlval f)
  | 33 => eachPlan (planLd (cwidth op 0x0d0) f)
  | 34 => eachPlan (planSt (cwidth op 0x0d5) f)
  | 35 => eachPlan (planLds false (cwidth op 0x0da) f)
  | 36 => eachPlan (planSts false (cwidth op 0x0df) f)
  | 37 => planShfl srcIdx f
  | 38 => planShfl srcXor f
  | 39 => planLred f
  | 42 => eachPlan (planHclr false f)
  | 46 => planShfl srcUp f
  | 47 => planShfl srcDown f
  | _ => eachPlan (planNop f)

/-- A compact instruction of class S: its partner is a `nop`, and the wait or fence is the whole of the pair (R260). -/
def pairSync (w : CompactWord) (s : State) : Host.Outcome State Fault Refusal :=
  let (op, f) := w.full
  match w.cop.toNat with
  | 40 => issueTurn op f (actYield f) s
  | 41 => issueEach op f (planWsync f) s
  | 43 => issueTurn op f (faultPoint (actFence f)) s
  | 44 => issueTurn op f (faultPoint (actWtany f)) s
  | _ => issueTurn op f (faultPoint (actWtall f)) s

/-- A pair (R260): both read before either writes, each under its own guard. -/
def execCompactPair (lead second : CompactWord) (s : State) : Host.Outcome State Fault Refusal :=
  let sync (w : CompactWord) : Bool := [40, 41, 43, 44, 45].contains w.cop.toNat
  if sync lead then pairSync lead s
  else if sync second then pairSync second s
  else issuePair lead.full.1 lead.full.2 (pairPlan lead) second.full.1 second.full.2 (pairPlan second) s

end Sys2Proof.Machine
end

