-- ==== Sys2Proof/Machine/Edge.lean ====
section
/-! DEFINITION. The package edge: BAR 0 (R254, R436), bring-up (R250, R503), the links (R494, R497), the host's accesses (R235,
R236, R498), its snoops (R188, R496), thermal states (R253, R502), and kills Oromel performs (R437). -/

namespace Sys2Proof.Machine

/-! ## BAR 0 (R254, R436) -/

/-- `MSTAT`. -/
def Edge.mstat (e : Edge) : Nat :=
  e.bstage % 16 + 2 ^ 20 * (if e.quiesced then 1 else 0) + 2 ^ 21 * (if e.ckpt then 1 else 0) + 2 ^ 22 * (e.therm % 4)
    + 2 ^ 24 * (e.booterr % 256)
/-- What the host reads at an offset of BAR 0; `PNOW` is a measurement. -/
def State.bar0 (s : State) (off : Nat) : Nat :=
  let e := s.edge
  if off = 0x00 then midWord
  else if off = 0x08 then e.mstat
  else if off = 0x10 then e.mctl.toNat
  else if off = 0x18 then e.q0desc.toNat
  else if off = 0x20 then e.plim
  else if off = 0x28 then (if s.time13 = 0 then 0 else Config.measuredPower s.time13)
  else if off = 0x30 then e.tjmax
  else if off = 0x38 then e.podid
  else if off = 0x40 then s.ns % 2 ^ 64
  else if off = 0x48 then e.hwbase
  else if off = 0x50 then e.hwsize
  else if off = 0x80 then e.elbase
  else if off = 0x88 then e.elsize
  else if off = 0x90 then e.elhead
  else if off = 0x98 then e.eltail
  else if off = 0xA0 then 2 ^ 63 * (if e.ovf then 1 else 0) + e.lost
  else if 0x108 ≤ off ∧ off ≤ 0x178 ∧ off % 8 = 0 then Map.getD e.ecnt 0 ((off - 0x100) / 8)
  else 0
/-- Whether the host reaches BAR 0 beyond what recovery form exposes, and HDM memory (R503). -/
def Edge.hostUp (e : Edge) : Bool := e.trained.contains 0 && !e.wymDown && !e.recovery && decide (6 ≤ e.bstage)
/-- Whether `MCTL` can be written. -/
def Edge.mctlUp (e : Edge) : Bool := e.hostUp || e.recovery
/-- REGISTER_WRITE. -/
def Edge.write (e : Edge) (r : BarReg) (v : Nat) : Edge :=
  match r with
  | .plim => { e with plim := max 1000 (min 3600 v) }
  | .podid => { e with podid := v % 1024 }
  | .hwbase => { e with hwbase := v / 65536 * 65536 }
  | .hwsize => { e with hwsize := v / 65536 * 65536 }
  | .elbase => { e with elbase := v }
  | .elsize => { e with elsize := v }
  | .eltail => { e with eltail := v }
  | .mctl => if v % 4 = 0 then { e with mctl := BitVec.ofNat 64 v } else e
  | .hdmbase => { e with hdmbase := v }
  | .share c => { e with shares := Map.put 0 e.shares c v }
def State.registerWrite (s : State) (r : BarReg) (v : Addr) : State :=
  if s.edge.hostUp then s.modEdge (·.write r v.toNat) else s
/-- ELSTAT_OVF_CLEAR: bit 63 clears `OVF`, the other bits are ignored. -/
def State.elstatWrite (s : State) (v : Addr) : State :=
  if s.edge.hostUp ∧ bitN v.toNat 63 = 1 then s.modEdge fun e => { e with ovf := false } else s

/-! ## Reset and bring-up (R250, R503) -/

def bootCode : BootFail → Nat
  | .fuses => 1 | .imageAbsent => 2 | .imageSignature => 3 | .imageVersion => 4 | .hbmInit => 5 | .arrayInit => 6
  | .coreSignature => 7 | .coreVersion => 8
def bootStage : BootFail → Nat
  | .fuses => 1 | .imageAbsent | .imageSignature | .imageVersion => 2 | .hbmInit | .arrayInit => 3 | .coreSignature | .coreVersion => 4
/-- Reset, and stages 1 to 4: the Wymbiyn Link trains next, or in recovery form after a failure. -/
def State.boot (s : State) (fail : Option BootFail) : State :=
  let s := { State.reset with agenda := s.agenda, free := s.free + 1 }
  match fail with
  | none => s.modEdge fun e => { e with bstage := 5 }
  | some f => s.modEdge fun e => { e with bstage := bootStage f, booterr := bootCode f, recovery := true }
/-- MCTL_DEVICE_RESET: accepted from T3 only once `TJMAX` reads below 90 °C (R502). -/
def State.deviceReset (s : State) (fail : Option BootFail) : State :=
  if ¬ s.edge.mctlUp ∨ (s.edge.therm = 3 ∧ 90 ≤ s.edge.tjmax) then s else s.boot fail
/-- Stage 7 ends when `Q0DESC` is not 0: queue 0 is created, or its descriptor breaks R240. -/
def State.readyUp (s : State) : State :=
  if s.edge.bstage ≠ 7 ∨ s.edge.q0desc = 0 then s
  else match s.openQueue 0 s.edge.q0desc.toNat true with
    | some s => s.modEdge fun e => { e with bstage := 8 }
    | none => s.modEdge fun e => { e with bstage := 8, booterr := 0x0A, recovery := true }
def State.q0write (s : State) (v : Addr) : State :=
  if s.edge.hostUp then (s.modEdge fun e => { e with q0desc := v }).readyUp else s
/-- A port whose training succeeds. -/
def Edge.up (e : Edge) (port : Nat) : Edge :=
  { e with trained := if e.trained.contains port then e.trained else port :: e.trained, fails := Map.erase e.fails port,
           streak := Map.erase e.streak port }
/-- LINK_TRAINING_COMPLETE. -/
def State.linkTrained (s : State) (port : Nat) (ok : Bool) : State :=
  if port = 0 then
    if s.edge.wymDown then (if ok then s.modEdge fun e => { e.up 0 with wymDown := false } else s)
    else if s.edge.bstage ≠ 5 ∨ s.edge.booterr ≠ 0 then s
    else if ok then s.modEdge fun e => { e.up 0 with bstage := 6 }
    else s.modEdge fun e => { e with booterr := 9 }
  else if 32 < port ∨ s.edge.bstage < 6 ∨ s.edge.recovery ∨ s.edge.tried.contains port then s
  else
    let s := s.modEdge fun e => { (if ok then e.up port else e) with tried := port :: e.tried }
    if s.edge.bstage = 6 ∧ (List.range 32).all (fun k => s.edge.tried.contains (k + 1)) then
      (s.modEdge fun e => { e with bstage := 7 }).readyUp
    else s
/-- MCTL_UALINK_RETRAIN: the ports train again. -/
def State.ualinkRetrain (s : State) : State :=
  if s.edge.hostUp then s.modEdge fun e => { e with mctl := 2, tried := [] } else s

/-! ## Device-fatal faults (R426) -/

/-- Admission stops, every context is killed with the record's sequence number, and a checkpoint stream is interrupted; the
units it had streamed are the link's to count (R500). A restore is interrupted too (R249). -/
def State.fatal (s : State) (r : ErrRec) : State :=
  let seq := s.edge.seq % 2 ^ 24
  let s := s.log r
  let s := ({ s with free := s.free + 1 }).streamStop (Config.freeWord (64 * s.free)).toNat false
  let s := s.restoreStop [] [] 0
  let s := (s.ctxs.map (·.1)).foldl (fun (s : State) c => s.kill c seq) s
  s.modEdge fun e => { e with quiesced := true, fatal := true }

/-! ## Links (R494, R497) -/

/-- FLIT_REPLAY: the flit is sent again, well or not. -/
def State.flitReplay (s : State) (port : Nat) (ok : Bool) : State :=
  if ¬ s.edge.trained.contains port then s
  else s.modEdge fun e =>
    { e with replays := Map.set e.replays port (min (2 ^ 32 - 1) (Map.getD e.replays 0 port + 1)),
             streak := Map.put 0 e.streak port (if ok then 0 else Map.getD e.streak 0 port + 1) }
/-- REPLAY_COUNT_REPORT: the second of a port that replayed ends. -/
def State.replayReport (s : State) (port : Nat) : State :=
  match Map.get? s.edge.replays port with
  | none => s
  | some n => (s.modEdge fun e => { e with replays := Map.erase e.replays port }).log { cls := 7, sev := 0, unit := 7, unitNo := port, detail := n }
def hundredMs : Nat := 10 * tenMs
/-- LINK_RETRAIN: after 8 consecutive failed replays of one flit. -/
def State.linkRetrain (s : State) (port : Nat) (ok : Bool) : State :=
  if ¬ s.edge.trained.contains port ∨ (Map.getD s.edge.streak 0 port < 8 ∧ ¬ Map.contains s.edge.fails port) then s
  else if ok then s.modEdge (·.up port)
  else s.modEdge fun e =>
    let recent := ((Map.get? e.fails port).getD []).filter fun t => decide (s.clock ≤ t + hundredMs)
    { e with fails := Map.set e.fails port (recent ++ [s.clock]) }
/-- A thread waiting in a fence of scope 8 holds a fault of the links, and takes it there. -/
def State.failFence (s : State) (g t arg : Nat) : State :=
  match s.group? g, s.thread? g t with
  | some G, some T => match T.wait with
    | .on (.fence 8) _ _ => s.holdFault G.ctx g t { order := s.next, trap := { cause := 0x16, arg := arg, cls := 1 } }
    | _ => s
  | _, _ => s
/-- An atomic of scope 8 that has its place and waits for its snoops ends with a fault. -/
def State.failAtom (s : State) (a : Access) (arg : Nat) : State :=
  match s.group? a.grp with
  | some G => ((s.dropAcc a.id).lowerSt a).holdFault G.ctx a.grp a.tid { order := a.order, trap := { cause := 0x16, arg := arg, cls := 1 } }
  | none => s
/-- The Wymbiyn Link is down: the host is lost (R497). -/
def State.hostLost (s : State) (seq : Nat) : State :=
  let s := s.modPort fun p => { p with snooped := [], snoops := [] }
  let s := s.modEdge fun e => { e with wymDown := true }
  let ts : List (Nat × Nat) := s.groups.flatMap fun (e : Nat × Group) => e.2.threads.map fun (x : Nat × Thread) => (e.1, x.1)
  let s := ts.foldl (fun (s : State) e => s.failFence e.1 e.2 5) s
  let s := (s.accesses.filter fun a => decide (8 ≤ a.kind.scope) && a.parts.isEmpty).foldl (fun (s : State) a => s.failAtom a 5) s
  let s := { s with jobs := s.jobs.map fun (j : Job) => if 8 ≤ j.scope then j.noteFault (256 + 5) 0 0 else j }
  ((s.ctxs.filter fun (c : Nat × Ctx) => c.2.svc != 0).map (·.1)).foldl (fun (s : State) c => s.kill c seq) s
/-- LINK_PORT_DOWN: 3 retrains failed within 100 ms. -/
def State.portDown (s : State) (port : Nat) : State :=
  match Map.get? s.edge.fails port with
  | none => s
  | some l =>
    if l.length < 3 ∨ ¬ s.edge.trained.contains port then s
    else
      let seq := s.edge.seq % 2 ^ 24
      let s := s.log { cls := 8, sev := 1, unit := 7, unitNo := port }
      let s := s.modEdge fun e => { e with trained := e.trained.filter (· != port), fails := Map.erase e.fails port,
                                           streak := Map.erase e.streak port }
      if port = 0 then s.hostLost seq else s
/-- WYMBIYN_RETRAIN_RETRY. -/
def State.wymRetry (s : State) (ok : Bool) : State :=
  if s.edge.wymDown ∧ ok then s.modEdge fun e => { e.up 0 with wymDown := false } else s

/-! ## Host accesses (R235, R236, R498, R515) -/

/-- The run of a buffer's bytes at offset `off` and physical address q, n of them, that n' bytes at p share: offset and length. -/
def shared (off q n p n' : Nat) : Option (Nat × Nat) :=
  let lo := max p q
  let hi := min (p + n') (q + n)
  if lo < hi then some (off + (lo - q), hi - lo) else none
/-- Where an entry's memory holds some of n bytes at a physical address: offset and length, and whether the translation there is
valid. -/
def State.spotsOf (s : State) (e : BufEntry) (p n : Nat) : List (Nat × Nat × Bool) :=
  if ¬ e.valid ∨ e.remote then []
  else if ¬ e.paged then ((shared 0 e.base e.size p n).map fun x => (x.1, x.2, true)).toList
  else (List.range ((e.size + e.pageSize - 1) / e.pageSize)).filterMap fun k =>
    let q := bitsN (s.phys (e.base + 8 * k) 8) 39 16 * 65536
    (shared (k * e.pageSize) q (min e.pageSize (e.size - k * e.pageSize)) p n).map fun x =>
      (x.1, x.2, s.pageByte e (k * e.pageSize) == some q)
/-- What holds some of the bytes of a host access: context, buffer, entry, offset and length, validity. -/
structure Spot where
  ctx : Nat
  buf : Nat
  entry : BufEntry
  off : Nat
  len : Nat
  ok : Bool
deriving DecidableEq, Repr
def State.overlaps (s : State) (p n : Nat) : List Spot :=
  s.ctxs.flatMap fun c => (List.range c.2.btlen).flatMap fun i =>
    (s.spotsOf (s.buf c.2 i) p n).map fun x => ⟨c.1, i, s.buf c.2 i, x.1, x.2.1, x.2.2⟩
/-- What holds all of the bytes. -/
def State.spots (s : State) (p n : Nat) : List Spot := (s.overlaps p n).filter (·.len == n)
/-- Whether the owner condition of R235 holds. -/
def Spot.owned (x : Spot) : Bool := x.entry.owner == x.ctx || x.entry.shared
def Spot.host (x : Spot) : Bool := bitN x.entry.rights 4 == 1
/-- The reason a host access is refused (R498). -/
def State.hostReason (s : State) (p n : Nat) (write : Bool) : Option Nat :=
  let hs := (s.spots p n).filter Spot.host
  let os := hs.filter Spot.owned
  let why := if s.edge.inWindow p n then none
    else if hs = [] then some 1
    else if os = [] then some 2
    else if ¬ os.any (·.ok) then some 3
    else none
  match why with
  | some r => some r
  | none => if write ∧ (s.poisonedIn true ((List.range n).map (p + ·))).isSome then some 4 else none
def State.hostRefused (s : State) (p reason : Nat) (write : Bool) : State :=
  let owners := (s.overlaps p 1).map (·.entry.owner)
  s.log { cls := 15, sev := 0, ctx := owners.foldl min 0xFF, unit := 7, detail := reason + (if write then 16 else 0), addr := p }
/-- Whether an access is one line's or less, on the device, and the host is there. -/
def State.hostCan (s : State) (p n : Nat) : Bool :=
  s.edge.hostUp && decide (0 < n ∧ p % 64 + n ≤ 64 ∧ p + n ≤ memSize)
/-- The host caches a line: the home tracks it, the oldest of a full slice is back-invalidated (R236). -/
def State.track (s : State) (line : Nat) : State :=
  let mine := s.port.snooped.filter fun l => sliceOf l == sliceOf line
  let s := if s.port.snooped.contains line ∨ mine.length < 16384 then s
    else match mine with
      | [] => s
      | old :: _ => s.modPort fun p => { p with snooped := p.snooped.erase old, snoops := p.snoops ++ [(⟨old, s.clock, 0, 0, 0, 0⟩ : Snoop)] }
  s.modPort fun p => { p with snooped := if p.snooped.contains line then p.snooped else p.snooped ++ [line] }
/-- The device physical address of a host physical address (R235). -/
def Edge.hdm (e : Edge) (h : Nat) : Nat := if e.hdmbase ≤ h then h - e.hdmbase else memSize
/-- HOST_HDM_READ. -/
def State.hostRead (s : State) (h n : Nat) : State :=
  let p := s.edge.hdm h
  if ¬ s.hostCan p n then s
  else match s.hostReason p n false with
    | some r => (s.hostRefused p r false).modEdge fun e => { e with hostRead := List.replicate n 0xFF, hostPoison := false }
    | none =>
      let ps := (List.range n).map (p + ·)
      let coh := s.edge.inWindow p n || (s.spots p n).any fun x => x.entry.hostcoh && x.ok && x.host && x.owned
      let s := if coh then s.track (p / 64) else s
      if (s.poisonedIn false ps).isSome then s.modEdge fun e => { e with hostRead := [], hostPoison := true }
      else s.modEdge fun e => { e with hostRead := s.gather ps, hostPoison := false }
/-- Bytes a host operation covers. -/
def hostLen : HostOp → Nat
  | .write bs => bs.length
  | .atomic _ ty _ _ => atomLen ty
/-- What a host operation leaves of the old bytes; none where an atomic is none of R336 or not aligned. -/
def hostApply (op : HostOp) (p : Nat) (old : List Byte) : Option (List Byte) :=
  match op with
  | .write bs => some bs
  | .atomic n ty v swap => (atomOfIndex n).bind fun o =>
    if p % atomLen ty ≠ 0 then none
    else some (leBytes (atomLen ty) (atomNew o ty (leNat old) (v % 2 ^ ty.bits) (swap % 2 ^ ty.bits)))
/-- Whether host and peer writes are held at their ports (R247, R248): while a checkpoint streams all of them, on a quiesced device all
but the host's in the window that holds its privileged queues (log 83). -/
def Edge.holds (e : Edge) (window : Bool) : Bool := e.ckpt || (e.quiesced && !e.fatal && !window)
/-- HOST_HDM_WRITE: a write or an atomic of the host, one event, with the stamps of every buffer that keeps them (R194, R234); it waits
where the page stalls (R472), where writes are held (R247), and for the page of a stamp word (R514). -/
def State.hostWrite (s : State) (h : Nat) (op : HostOp) : State :=
  let p := s.edge.hdm h
  let n := hostLen op
  let ps := (List.range n).map (p + ·)
  if ¬ s.hostCan p n then s
  else match s.hostReason p n true with
    | some r => s.hostRefused p r true
    | none => match hostApply op p (s.gather ps) with
    | none => s
    | some bs =>
      if s.edge.holds (s.edge.inWindow p n) ∨ s.stalledAt ps then s
      else
        let stamped : List Spot := if s.edge.inWindow p n then [] else (s.overlaps p n).filter fun x => x.ok && x.entry.stamp
        let lsn (c : Nat) : Nat := match s.ctx? c with | some C => C.lsn | none => 0
        match stamped.findSome? fun x => (s.stampMiss x.ctx (some 0) s.edge.outDead (mkAddr x.buf x.off) x.len).map fun m => (x.ctx, m) with
        | some (c, buf, pg) => s.outWait c buf pg
        | none =>
          let room := s.devRoom ps
          if ¬ room.2 then room.1
          else
          let s := room.1
          let s := match op with | .atomic .. => s.modEdge fun e => { e with hostRead := s.gather ps, hostPoison := false } | .write _ => s
          let held := s.port.snooped
          let s := (s.modPort fun q => { q with snooped := [] }).writeEvent { ctx := 0, stamp := none } (ps.zip bs)
          let s := s.modPort fun q => { q with snooped := held }
          stamped.foldl (fun (s : State) x => s.stampRange x.ctx (mkAddr x.buf x.off) x.len (lsn x.ctx)) s.outOver

/-! ## Snoops (R188, R496) -/

/-- A snoop is over. -/
def State.dropSnoop (s : State) (line : Nat) : State :=
  match s.port.snoops.find? (·.line == line) with
  | none => s
  | some x => s.modPort fun p => { p with snoops := p.snoops.erase x }
/-- SNOOP_TIMEOUT: after 10 ms it counts as acknowledged; what waited on it at scope 8 takes reason 4. -/
def State.snoopTimeout (s : State) (line : Nat) : State :=
  match s.port.snoops.find? (·.line == line) with
  | none => s
  | some x =>
    if s.clock < x.sent + tenMs then s
    else
      let s := (s.dropSnoop line).log { cls := 8, sev := 1, unit := 2, unitNo := sliceOf line, addr := 64 * line }
      if x.job ≠ 0 then
        { s with jobs := s.jobs.map fun (j : Job) => if j.id = x.job ∧ 8 ≤ j.scope then j.noteFault (256 + 4) 0 0 else j }
      else
        let s := s.failFence x.grp x.tid 4
        (s.accesses.filter fun a => a.id == x.acc && decide (8 ≤ a.kind.scope) && a.parts.isEmpty).foldl
          (fun (s : State) a => s.failAtom a 4) s

/-! ## Heat (R253, R502) -/

/-- Entry points of T1 to T3, and the state at a temperature: one is left 5 °C below its entry point. -/
def thermEntry (n : Nat) : Nat := match n with | 1 => 95 | 2 => 105 | 3 => 115 | _ => 0
def thermOf (old tj : Nat) : Nat :=
  let up := if 115 ≤ tj then 3 else if 105 ≤ tj then 2 else if 95 ≤ tj then 1 else 0
  if old ≤ up then up
  else ((List.range (old + 1)).reverse.find? fun n => decide (n = 0 ∨ thermEntry n ≤ tj + 5)).getD 0
/-- THERMAL_STATE_CHANGE: vector 2, and in T3 the thermal emergency. -/
def State.thermal (s : State) (tj : Nat) : State :=
  let new := thermOf s.edge.therm tj
  if new = s.edge.therm then s.modEdge fun e => { e with tjmax := tj }
  else
    let s := (s.modEdge fun e => { e with tjmax := tj, therm := new }).msi 2
    if new ≠ 3 then s else { (s.fatal { cls := 13, sev := 3 }) with jobs := [] }

/-- OROMEL_POLICY_KILL: a kill handed to Oromel is performed (R437). -/
def State.policyKill (s : State) (c : Nat) : State :=
  match s.ctx? c with
  | some C => (match C.doomed with | some seq => s.kill c seq | none => s)
  | none => s

/-! ## The steps -/

def execPowerOnReset (fail : Option BootFail) (s : State) : Host.Outcome State Fault Refusal := finish (s.boot fail)
def execLinkTrainingComplete (port : Nat) (ok : Bool) (s : State) : Host.Outcome State Fault Refusal := finish (s.linkTrained port ok)
def execQ0descWrite (value : Addr) (s : State) : Host.Outcome State Fault Refusal := finish (s.q0write value)
def execMctlDeviceReset (fail : Option BootFail) (s : State) : Host.Outcome State Fault Refusal := finish (s.deviceReset fail)
def execMctlUalinkRetrain (s : State) : Host.Outcome State Fault Refusal := finish s.ualinkRetrain
def execElstatOvfClear (value : Addr) (s : State) : Host.Outcome State Fault Refusal := finish (s.elstatWrite value)
def execRegisterWrite (reg : BarReg) (value : Addr) (s : State) : Host.Outcome State Fault Refusal := finish (s.registerWrite reg value)
def execFlitReplay (port : Nat) (ok : Bool) (s : State) : Host.Outcome State Fault Refusal := finish (s.flitReplay port ok)
def execReplayCountReport (port : Nat) (s : State) : Host.Outcome State Fault Refusal := finish (s.replayReport port)
def execLinkRetrain (port : Nat) (ok : Bool) (s : State) : Host.Outcome State Fault Refusal := finish (s.linkRetrain port ok)
def execLinkPortDown (port : Nat) (s : State) : Host.Outcome State Fault Refusal := finish (s.portDown port)
def execWymbiynRetrainRetry (ok : Bool) (s : State) : Host.Outcome State Fault Refusal := finish (s.wymRetry ok)
def execHostHdmRead (phys len : Nat) (s : State) : Host.Outcome State Fault Refusal := finish (s.hostRead phys len)
def execHostHdmWrite (phys : Nat) (op : HostOp) (s : State) : Host.Outcome State Fault Refusal := finish (s.hostWrite phys op)
def execSnoopAck (line : Nat) (s : State) : Host.Outcome State Fault Refusal := finish (s.dropSnoop line)
def execSnoopTimeout (line : Nat) (s : State) : Host.Outcome State Fault Refusal := finish (s.snoopTimeout line)
def execThermalStateChange (tj : Nat) (s : State) : Host.Outcome State Fault Refusal := finish (s.thermal tj)
def execOromelPolicyKill (ctx : Nat) (s : State) : Host.Outcome State Fault Refusal := finish (s.policyKill ctx)

end Sys2Proof.Machine
end

