-- ==== Sys2Proof/Machine/Failures.lean ====
section
/-! DEFINITION. Errors the device finds in itself: control compares (R451), arrays and the scrubber (R425, R450, R477), and
HBM4's error check and scrub (R474 to R476). -/

namespace Sys2Proof.Machine

/-! ## Control compares (R451) -/

/-- The `DETAIL` of a control compare: `EVENT` 4 in bits 15:8 (R446). -/
def compareDetail : Nat := 0x400
def State.compare (s : State) (u : ControlUnit) : State :=
  match u with
  | .core n => if 512 ≤ n ∨ (s.core n).retired then s else s.retire n 6 compareDetail
  | .dispatcher d => s.fatal { cls := 6, sev := 3, unitNo := d, detail := compareDetail }
  | .commandProcessor d => s.fatal { cls := 6, sev := 3, unit := 5, unitNo := d, detail := compareDetail }

/-! ## Owners of memory -/

/-- The `OWNER`s of the entries that map a 64 KiB physical page, ascending. -/
def State.ownersOf (s : State) (page : Nat) : List Nat :=
  let os := s.ctxs.flatMap fun c => ((List.range c.2.btlen).filter fun i => s.mapsPage c.2 i page).map fun i => (s.buf c.2 i).owner
  (List.range 64).filter os.contains
/-- A page that no context maps leaves the free pool (R476). -/
def State.withdraw (s : State) (page : Nat) : State :=
  s.modPort fun p => { p with pool64 := p.pool64.filter (· / 65536 != page), pool2m := p.pool2m.filter (· / 2 ^ 21 != page / 32) }
def State.poisonSectors (s : State) (l : List Nat) : State :=
  s.modPort fun p => { p with poison := l.foldl (fun p x => if p.contains x then p else x :: p) p.poison }

/-! ## Arrays (R425, R450, R477) -/

/-- The unit an array belongs to: `UNIT` and `UNITNO`. -/
def State.arrayUnit (s : State) (w : ArrayWord) : Nat × Nat :=
  let coreOf (g : Nat) : Nat := match s.group? g with | some G => G.core | none => 0
  match w with
  | .l1 c _ | .translation c | .pde c | .target c | .unallocated c | .bank c _ | .datapath c => (1, c)
  | .l2 d _ | .stamp d => (3, d)
  | .hbm p => (4, (s.channelOf p).1)
  | .llcClean x | .llcDirty x _ | .hold x _ => (2, x)
  | .register g _ _ | .planarTag g _ _ | .scratchpad g | .tile g | .accumulator g | .twill g => (1, coreOf g)
  | .hitch line _ => (2, sliceOf line)
/-- A dirty line of the LLC or the hold: poison on its home page, which kills no context until an access meets it (R476, log 53). -/
def State.dirtyLine (s : State) (r : ErrRec) (phys : Nat) : State :=
  let s := s.poisonSectors ((List.range 4).map fun k => phys / 128 * 4 + k)
  let page := phys / 65536
  let os := s.ownersOf page
  let s := s.log { r with rfl := 1, ppage := page * 65536, ctx := os.headD 0xFF }
  if os = [] then s.withdraw page else s
/-- The word of a group's array: its context is killed. -/
def State.groupArray (s : State) (r : ErrRec) (g : Nat) : State :=
  match s.group? g with
  | some G => s.logKill { r with ctx := G.ctx }
  | none => s
/-- A word of a thread found by the scrubber: it is poisoned (R450). -/
def State.poisonWord (s : State) (r : ErrRec) (g t word : Nat) : State :=
  match s.group? g, s.thread? g t with
  | some G, some _ => (s.log { r with sev := 1, ctx := G.ctx }).modT g t fun T =>
      { T with poison := if T.poison.contains word then T.poison else word :: T.poison }
  | _, _ => s
/-- SCRUBBER_FINDING. -/
def State.scrub (s : State) (w : ArrayWord) (correctable : Bool) : State :=
  let (u, n) := s.arrayUnit w
  let r : ErrRec := { cls := 4, sev := 2, unit := u, unitNo := n }
  match w, correctable with
  -- corrected at once and silently, or poison that the access to meet it reports
  | .hbm _, true => s
  | .hbm p, false => if memSize ≤ p then s else s.poisonSectors [p / 32]
  | .datapath _, true => s.log { r with cls := 5, sev := 0 }
  | .datapath c, false => if 512 ≤ c ∨ (s.core c).retired then s else s.retire c 5 0
  | _, true => s.log { r with cls := 3, sev := 0 }
  | .llcDirty _ p, false | .hold _ p, false => s.dirtyLine r p
  | .register g t v, false => s.poisonWord r g t v
  | .planarTag g t v, false => s.poisonWord r g t (256 + v)
  | .scratchpad g, false | .tile g, false | .accumulator g, false | .twill g, false => s.groupArray r g
  | .unallocated _, false => s.log r
  | .bank c b, false =>
    let k := if b = 1 then (s.core c).bank1 else (s.core c).bank0
    let s := s.modCore c fun C => if b = 1 then { C with bank1 := {} } else { C with bank0 := {} }
    (match k.owner with | some o => s.logKill { r with ctx := o } | none => s.log r)
  | .hitch line k, false => s.entryFail line k
  -- the copy is discarded, and its next reader fetches it
  | .l1 c l, false => (s.log { r with sev := 1 }).dropCopiesOf fun x => x.level == 0 && x.unit == c && x.line == l
  | .l2 d l, false => (s.log { r with sev := 1 }).dropCopiesOf fun x => x.level == 1 && x.unit == d && x.line == l
  | _, false => s.log { r with sev := 1 }

/-! ## HBM4 (R474 to R476) -/

/-- The sectors of the 1 KiB that one row of one channel holds, under the placement of the page (R88, R89). -/
def State.rowSectors (s : State) (phys : Nat) : List Nat :=
  let (stripe, mask) := s.placement phys
  let w := 2 ^ (stripe + 8)
  let n := (channels mask).length
  if 1024 ≤ w ∨ n = 0 then (List.range 32).map fun k => phys / 1024 * 32 + k
  else
    let k := 1024 / w
    let x := phys / w
    (List.range k).flatMap fun j => (List.range (w / 32)).map fun i => ((x / n / k * k + j) * n + x % n) * (w / 32) + i
/-- ECS_UNCORRECTABLE_FINDING: the row is poisoned; one record for each page that holds part of it. -/
def State.ecsFinding (s : State) (phys bank : Nat) : State :=
  if memSize ≤ phys then s
  else
    let row := (s.rowSectors phys).filter fun x => decide (32 * x < memSize)
    let s := s.poisonSectors row
    ((row.map (· / 2048)).eraseDups).foldl (fun (s : State) page =>
      let x := ((row.find? (· / 2048 == page)).getD 0) * 32
      let os := s.ownersOf page
      let s := s.log { s.hbmRecord (os.headD 0xFF) x 1 0 with bank := bank % 256 }
      if os = [] then s.withdraw page else s) s
/-- ECS_COUNT_POLL. -/
def State.ecsPoll (s : State) (stack chan bank rise : Nat) : State :=
  if rise = 0 then s
  else s.log { cls := 1, sev := 0, unit := 4, unitNo := stack, stack := stack, chan := chan, bank := bank, detail := min 255 rise }

/-! ## The steps -/

def execControlCompareMismatch (unit : ControlUnit) (s : State) : Host.Outcome State Fault Refusal := finish (s.compare unit)
def execScrubberFinding (where_ : ArrayWord) (correctable : Bool) (s : State) : Host.Outcome State Fault Refusal :=
  finish (s.scrub where_ correctable)
def execEcsUncorrectableFinding (phys bank : Nat) (s : State) : Host.Outcome State Fault Refusal := finish (s.ecsFinding phys bank)
def execEcsCountPoll (stack chan bank rise : Nat) (s : State) : Host.Outcome State Fault Refusal := finish (s.ecsPoll stack chan bank rise)

end Sys2Proof.Machine
end

