-- ==== Sys2Proof/Machine/Dispatch.lean ====
section
/-! DEFINITION. The dispatch: one arm per constructor of Instr, each a direct call of its meaning. -/

namespace Sys2Proof.Machine

def exec (i : Instr) (s : State) : Host.Outcome State Fault Refusal :=
  match i with
  | .powerOnReset fail => Sys2Proof.Machine.execPowerOnReset fail s
  | .linkTrainingComplete port ok => Sys2Proof.Machine.execLinkTrainingComplete port ok s
  | .q0descWrite value => Sys2Proof.Machine.execQ0descWrite value s
  | .mctlDeviceReset fail => Sys2Proof.Machine.execMctlDeviceReset fail s
  | .mctlUalinkRetrain => Sys2Proof.Machine.execMctlUalinkRetrain s
  | .elstatOvfClear value => Sys2Proof.Machine.execElstatOvfClear value s
  | .registerWrite reg value => Sys2Proof.Machine.execRegisterWrite reg value s
  | .queueTailPush queue => Sys2Proof.Machine.execQueueTailPush queue s
  | .launchCommand queue => Sys2Proof.Machine.execLaunchCommand queue s
  | .relaunchCommand queue => Sys2Proof.Machine.execRelaunchCommand queue s
  | .planemap queue => Sys2Proof.Machine.execPlanemap queue s
  | .bufmap queue => Sys2Proof.Machine.execBufmap queue s
  | .share queue => Sys2Proof.Machine.execShare queue s
  | .ctxcreate queue => Sys2Proof.Machine.execCtxcreate queue s
  | .ctxdestroy queue => Sys2Proof.Machine.execCtxdestroy queue s
  | .qcreate queue => Sys2Proof.Machine.execQcreate queue s
  | .qdestroy queue => Sys2Proof.Machine.execQdestroy queue s
  | .preempt queue => Sys2Proof.Machine.execPreempt queue s
  | .resume queue => Sys2Proof.Machine.execResume queue s
  | .poolAdd queue => Sys2Proof.Machine.execPoolAdd queue s
  | .poolReport queue => Sys2Proof.Machine.execPoolReport queue s
  | .ckpt queue => Sys2Proof.Machine.execCkpt queue s
  | .attest queue => Sys2Proof.Machine.execAttest queue s
  | .quiesce queue => Sys2Proof.Machine.execQuiesce queue s
  | .release queue => Sys2Proof.Machine.execRelease queue s
  | .restore queue manifest => Sys2Proof.Machine.execRestore queue manifest s
  | .restoreStreamEnd image poison => Sys2Proof.Machine.execRestoreStreamEnd image poison s
  | .itemAdmit which => Sys2Proof.Machine.execItemAdmit which s
  | .itemComplete item => Sys2Proof.Machine.execItemComplete item s
  | .gangPlace item cores => Sys2Proof.Machine.execGangPlace item cores s
  | .taskSteal thief victim => Sys2Proof.Machine.execTaskSteal thief victim s
  | .activeSetTrade group => Sys2Proof.Machine.execActiveSetTrade group s
  | .requeue group => Sys2Proof.Machine.execRequeue group s
  | .threadStarved group tid => Sys2Proof.Machine.execThreadStarved group tid s
  | .progressWatchdog group warp => Sys2Proof.Machine.execProgressWatchdog group warp s
  | .joinDeadlock group warp => Sys2Proof.Machine.execJoinDeadlock group warp s
  | .spliceRelease group pc => Sys2Proof.Machine.execSpliceRelease group pc s
  | .spawnRecordWrite group tid => Sys2Proof.Machine.execSpawnRecordWrite group tid s
  | .forcedSave group => Sys2Proof.Machine.execForcedSave group s
  | .leaveGrant group => Sys2Proof.Machine.execLeaveGrant group s
  | .leaveTimeout group level => Sys2Proof.Machine.execLeaveTimeout group level s
  | .loadDataReturn access => Sys2Proof.Machine.execLoadDataReturn access s
  | .storePlaced access room => Sys2Proof.Machine.execStorePlaced access room s
  | .repackComplete page => Sys2Proof.Machine.execRepackComplete page s
  | .overflowHoldTimeout page => Sys2Proof.Machine.execOverflowHoldTimeout page s
  | .overflowHoldKill page => Sys2Proof.Machine.execOverflowHoldKill page s
  | .remoteAck access answer => Sys2Proof.Machine.execRemoteAck access answer s
  | .remoteAccessTimeout access => Sys2Proof.Machine.execRemoteAccessTimeout access s
  | .peerRemoteAccess podctx addr op => Sys2Proof.Machine.execPeerRemoteAccess podctx addr op s
  | .engineSectorLand job unit => Sys2Proof.Machine.execEngineSectorLand job unit s
  | .engineJobComplete job => Sys2Proof.Machine.execEngineJobComplete job s
  | .nmcStackFailure job stack => Sys2Proof.Machine.execNmcStackFailure job stack s
  | .tileOpComplete op => Sys2Proof.Machine.execTileOpComplete op s
  | .matrixLoopStep group => Sys2Proof.Machine.execMatrixLoopStep group s
  | .matrixLoopEnd group => Sys2Proof.Machine.execMatrixLoopEnd group s
  | .pageServiceComplete service answer => Sys2Proof.Machine.execPageServiceComplete service answer s
  | .pageServiceTimeout service => Sys2Proof.Machine.execPageServiceTimeout service s
  | .hitchRegistered access => Sys2Proof.Machine.execHitchRegistered access s
  | .hitchPushLand group slot => Sys2Proof.Machine.execHitchPushLand group slot s
  | .unhitchConfirm group slot => Sys2Proof.Machine.execUnhitchConfirm group slot s
  | .hitchHomeFailure line => Sys2Proof.Machine.execHitchHomeFailure line s
  | .tawaitWake group tid => Sys2Proof.Machine.execTawaitWake group tid s
  | .leaseExpiry group lease => Sys2Proof.Machine.execLeaseExpiry group lease s
  | .ptsSelfAdvance core ticks => Sys2Proof.Machine.execPtsSelfAdvance core ticks s
  | .cachedCopyExpiry core line => Sys2Proof.Machine.execCachedCopyExpiry core line s
  | .relaunchSelectionDone item => Sys2Proof.Machine.execRelaunchSelectionDone item s
  | .relaunchHostContinue item goOn => Sys2Proof.Machine.execRelaunchHostContinue item goOn s
  | .relaunchContinueTimeout item => Sys2Proof.Machine.execRelaunchContinueTimeout item s
  | .controlCompareMismatch unit => Sys2Proof.Machine.execControlCompareMismatch unit s
  | .scrubberFinding where_ correctable => Sys2Proof.Machine.execScrubberFinding where_ correctable s
  | .ecsUncorrectableFinding phys bank => Sys2Proof.Machine.execEcsUncorrectableFinding phys bank s
  | .ecsCountPoll stack chan bank rise => Sys2Proof.Machine.execEcsCountPoll stack chan bank rise s
  | .flitReplay port ok => Sys2Proof.Machine.execFlitReplay port ok s
  | .replayCountReport port => Sys2Proof.Machine.execReplayCountReport port s
  | .linkRetrain port ok => Sys2Proof.Machine.execLinkRetrain port ok s
  | .linkPortDown port => Sys2Proof.Machine.execLinkPortDown port s
  | .wymbiynRetrainRetry ok => Sys2Proof.Machine.execWymbiynRetrainRetry ok s
  | .hostHdmRead phys len => Sys2Proof.Machine.execHostHdmRead phys len s
  | .hostHdmWrite phys op => Sys2Proof.Machine.execHostHdmWrite phys op s
  | .snoopAck line => Sys2Proof.Machine.execSnoopAck line s
  | .snoopTimeout line => Sys2Proof.Machine.execSnoopTimeout line s
  | .thermalStateChange tj => Sys2Proof.Machine.execThermalStateChange tj s
  | .ckptStreamEnd => Sys2Proof.Machine.execCkptStreamEnd s
  | .ckptInterrupted units => Sys2Proof.Machine.execCkptInterrupted units s
  | .compactPair lead second => Sys2Proof.Machine.execCompactPair lead second s
  | .nopCompact c => Sys2Proof.Machine.execNopCompact c s
  | .movCompact c => Sys2Proof.Machine.execMovCompact c s
  | .moviCompact c => Sys2Proof.Machine.execMoviCompact c s
  | .iaddCompact c => Sys2Proof.Machine.execIaddCompact c s
  | .isubCompact c => Sys2Proof.Machine.execIsubCompact c s
  | .imulLoCompact c => Sys2Proof.Machine.execImulLoCompact c s
  | .iminCompact c => Sys2Proof.Machine.execIminCompact c s
  | .imaxCompact c => Sys2Proof.Machine.execImaxCompact c s
  | .iandCompact c => Sys2Proof.Machine.execIandCompact c s
  | .iorCompact c => Sys2Proof.Machine.execIorCompact c s
  | .ixorCompact c => Sys2Proof.Machine.execIxorCompact c s
  | .ishlCompact c => Sys2Proof.Machine.execIshlCompact c s
  | .ishrLCompact c => Sys2Proof.Machine.execIshrLCompact c s
  | .ishrACompact c => Sys2Proof.Machine.execIshrACompact c s
  | .irotCompact c => Sys2Proof.Machine.execIrotCompact c s
  | .inotCompact c => Sys2Proof.Machine.execInotCompact c s
  | .inegCompact c => Sys2Proof.Machine.execInegCompact c s
  | .iabsCompact c => Sys2Proof.Machine.execIabsCompact c s
  | .ipopcCompact c => Sys2Proof.Machine.execIpopcCompact c s
  | .iclzCompact c => Sys2Proof.Machine.execIclzCompact c s
  | .ictzCompact c => Sys2Proof.Machine.execIctzCompact c s
  | .ibrevCompact c => Sys2Proof.Machine.execIbrevCompact c s
  | .aaddCompact c => Sys2Proof.Machine.execAaddCompact c s
  | .faddCompact c => Sys2Proof.Machine.execFaddCompact c s
  | .fsubCompact c => Sys2Proof.Machine.execFsubCompact c s
  | .fmulCompact c => Sys2Proof.Machine.execFmulCompact c s
  | .fminCompact c => Sys2Proof.Machine.execFminCompact c s
  | .fmaxCompact c => Sys2Proof.Machine.execFmaxCompact c s
  | .fabsCompact c => Sys2Proof.Machine.execFabsCompact c s
  | .fnegCompact c => Sys2Proof.Machine.execFnegCompact c s
  | .frcpCompact c => Sys2Proof.Machine.execFrcpCompact c s
  | .frsqCompact c => Sys2Proof.Machine.execFrsqCompact c s
  | .fsqrtCompact c => Sys2Proof.Machine.execFsqrtCompact c s
  | .plvalCompact c => Sys2Proof.Machine.execPlvalCompact c s
  | .ldCompact c => Sys2Proof.Machine.execLdCompact c s
  | .stCompact c => Sys2Proof.Machine.execStCompact c s
  | .ldsCompact c => Sys2Proof.Machine.execLdsCompact c s
  | .stsCompact c => Sys2Proof.Machine.execStsCompact c s
  | .shflIdxCompact c => Sys2Proof.Machine.execShflIdxCompact c s
  | .shflXorCompact c => Sys2Proof.Machine.execShflXorCompact c s
  | .lredCompact c => Sys2Proof.Machine.execLredCompact c s
  | .yieldCompact c => Sys2Proof.Machine.execYieldCompact c s
  | .wsyncCompact c => Sys2Proof.Machine.execWsyncCompact c s
  | .hclrCompact c => Sys2Proof.Machine.execHclrCompact c s
  | .fenceCompact c => Sys2Proof.Machine.execFenceCompact c s
  | .wtanyCompact c => Sys2Proof.Machine.execWtanyCompact c s
  | .wtallCompact c => Sys2Proof.Machine.execWtallCompact c s
  | .shflUpCompact c => Sys2Proof.Machine.execShflUpCompact c s
  | .shflDownCompact c => Sys2Proof.Machine.execShflDownCompact c s
  | .iadd f => Sys2Proof.Machine.execIadd f s
  | .isub f => Sys2Proof.Machine.execIsub f s
  | .iaddc f => Sys2Proof.Machine.execIaddc f s
  | .isubb f => Sys2Proof.Machine.execIsubb f s
  | .imulLo f => Sys2Proof.Machine.execImulLo f s
  | .imulHi f => Sys2Proof.Machine.execImulHi f s
  | .imulWide f => Sys2Proof.Machine.execImulWide f s
  | .imadLo f => Sys2Proof.Machine.execImadLo f s
  | .imadHi f => Sys2Proof.Machine.execImadHi f s
  | .imadWide f => Sys2Proof.Machine.execImadWide f s
  | .idiv f => Sys2Proof.Machine.execIdiv f s
  | .irem f => Sys2Proof.Machine.execIrem f s
  | .imin f => Sys2Proof.Machine.execImin f s
  | .imax f => Sys2Proof.Machine.execImax f s
  | .iabs f => Sys2Proof.Machine.execIabs f s
  | .ineg f => Sys2Proof.Machine.execIneg f s
  | .icmpEq f => Sys2Proof.Machine.execIcmpEq f s
  | .icmpNe f => Sys2Proof.Machine.execIcmpNe f s
  | .icmpLt f => Sys2Proof.Machine.execIcmpLt f s
  | .icmpLe f => Sys2Proof.Machine.execIcmpLe f s
  | .icmpGt f => Sys2Proof.Machine.execIcmpGt f s
  | .icmpGe f => Sys2Proof.Machine.execIcmpGe f s
  | .isel f => Sys2Proof.Machine.execIsel f s
  | .iclamp f => Sys2Proof.Machine.execIclamp f s
  | .iand f => Sys2Proof.Machine.execIand f s
  | .ior f => Sys2Proof.Machine.execIor f s
  | .ixor f => Sys2Proof.Machine.execIxor f s
  | .inot f => Sys2Proof.Machine.execInot f s
  | .ilop3 f => Sys2Proof.Machine.execIlop3 f s
  | .ishl f => Sys2Proof.Machine.execIshl f s
  | .ishrL f => Sys2Proof.Machine.execIshrL f s
  | .ishrA f => Sys2Proof.Machine.execIshrA f s
  | .irot f => Sys2Proof.Machine.execIrot f s
  | .ibfx f => Sys2Proof.Machine.execIbfx f s
  | .ibfi f => Sys2Proof.Machine.execIbfi f s
  | .ipopc f => Sys2Proof.Machine.execIpopc f s
  | .iclz f => Sys2Proof.Machine.execIclz f s
  | .ictz f => Sys2Proof.Machine.execIctz f s
  | .ibrev f => Sys2Proof.Machine.execIbrev f s
  | .amk f => Sys2Proof.Machine.execAmk f s
  | .aadd f => Sys2Proof.Machine.execAadd f s
  | .aoff f => Sys2Proof.Machine.execAoff f s
  | .ahnd f => Sys2Proof.Machine.execAhnd f s
  | .fadd f => Sys2Proof.Machine.execFadd f s
  | .fsub f => Sys2Proof.Machine.execFsub f s
  | .fmul f => Sys2Proof.Machine.execFmul f s
  | .ffma f => Sys2Proof.Machine.execFfma f s
  | .fdiv f => Sys2Proof.Machine.execFdiv f s
  | .fsqrt f => Sys2Proof.Machine.execFsqrt f s
  | .frcp f => Sys2Proof.Machine.execFrcp f s
  | .frsq f => Sys2Proof.Machine.execFrsq f s
  | .fmin f => Sys2Proof.Machine.execFmin f s
  | .fmax f => Sys2Proof.Machine.execFmax f s
  | .fabs f => Sys2Proof.Machine.execFabs f s
  | .fneg f => Sys2Proof.Machine.execFneg f s
  | .fcmpEq f => Sys2Proof.Machine.execFcmpEq f s
  | .fcmpNe f => Sys2Proof.Machine.execFcmpNe f s
  | .fcmpLt f => Sys2Proof.Machine.execFcmpLt f s
  | .fcmpLe f => Sys2Proof.Machine.execFcmpLe f s
  | .fcmpGt f => Sys2Proof.Machine.execFcmpGt f s
  | .fcmpGe f => Sys2Proof.Machine.execFcmpGe f s
  | .fcmpUn f => Sys2Proof.Machine.execFcmpUn f s
  | .fcmpOr f => Sys2Proof.Machine.execFcmpOr f s
  | .fclass f => Sys2Proof.Machine.execFclass f s
  | .frnd f => Sys2Proof.Machine.execFrnd f s
  | .cvtpk f => Sys2Proof.Machine.execCvtpk f s
  | .cvtup f => Sys2Proof.Machine.execCvtup f s
  | .sfnEx2 f => Sys2Proof.Machine.execSfnEx2 f s
  | .sfnLg2 f => Sys2Proof.Machine.execSfnLg2 f s
  | .sfnSin f => Sys2Proof.Machine.execSfnSin f s
  | .sfnCos f => Sys2Proof.Machine.execSfnCos f s
  | .sfnTanh f => Sys2Proof.Machine.execSfnTanh f s
  | .sfnSigm f => Sys2Proof.Machine.execSfnSigm f s
  | .sfnErf f => Sys2Proof.Machine.execSfnErf f s
  | .act f => Sys2Proof.Machine.execAct f s
  | .cvt src f => Sys2Proof.Machine.execCvt src f s
  | .actld f => Sys2Proof.Machine.execActld f s
  | .actsel f => Sys2Proof.Machine.execActsel f s
  | .plpack f => Sys2Proof.Machine.execPlpack f s
  | .plval f => Sys2Proof.Machine.execPlval f s
  | .pltag f => Sys2Proof.Machine.execPltag f s
  | .plsett f => Sys2Proof.Machine.execPlsett f s
  | .pltrim f => Sys2Proof.Machine.execPltrim f s
  | .part f => Sys2Proof.Machine.execPart f s
  | .wsync f => Sys2Proof.Machine.execWsync f s
  | .voteAll f => Sys2Proof.Machine.execVoteAll f s
  | .voteAny f => Sys2Proof.Machine.execVoteAny f s
  | .voteEq f => Sys2Proof.Machine.execVoteEq f s
  | .voteBallot f => Sys2Proof.Machine.execVoteBallot f s
  | .shflIdx f => Sys2Proof.Machine.execShflIdx f s
  | .shflUp f => Sys2Proof.Machine.execShflUp f s
  | .shflDown f => Sys2Proof.Machine.execShflDown f s
  | .shflXor f => Sys2Proof.Machine.execShflXor f s
  | .lred f => Sys2Proof.Machine.execLred f s
  | .lredF f => Sys2Proof.Machine.execLredF f s
  | .lscan f => Sys2Proof.Machine.execLscan f s
  | .lscanF f => Sys2Proof.Machine.execLscanF f s
  | .selk f => Sys2Proof.Machine.execSelk f s
  | .selkI f => Sys2Proof.Machine.execSelkI f s
  | .permx f => Sys2Proof.Machine.execPermx f s
  | .mov f => Sys2Proof.Machine.execMov f s
  | .movi f => Sys2Proof.Machine.execMovi f s
  | .rdsr f => Sys2Proof.Machine.execRdsr f s
  | .wrsr f => Sys2Proof.Machine.execWrsr f s
  | .pand f => Sys2Proof.Machine.execPand f s
  | .por f => Sys2Proof.Machine.execPor f s
  | .pxor f => Sys2Proof.Machine.execPxor f s
  | .pnot f => Sys2Proof.Machine.execPnot f s
  | .pmov f => Sys2Proof.Machine.execPmov f s
  | .pmovGet f => Sys2Proof.Machine.execPmovGet f s
  | .pmovSet f => Sys2Proof.Machine.execPmovSet f s
  | .bra f => Sys2Proof.Machine.execBra f s
  | .brx f => Sys2Proof.Machine.execBrx f s
  | .call f => Sys2Proof.Machine.execCall f s
  | .calx f => Sys2Proof.Machine.execCalx f s
  | .ret f => Sys2Proof.Machine.execRet f s
  | .exit f => Sys2Proof.Machine.execExit f s
  | .sbra f => Sys2Proof.Machine.execSbra f s
  | .join f => Sys2Proof.Machine.execJoin f s
  | .yield f => Sys2Proof.Machine.execYield f s
  | .nop f => Sys2Proof.Machine.execNop f s
  | .waitc f => Sys2Proof.Machine.execWaitc f s
  | .wtany f => Sys2Proof.Machine.execWtany f s
  | .wtall f => Sys2Proof.Machine.execWtall f s
  | .ffrdy f => Sys2Proof.Machine.execFfrdy f s
  | .fence f => Sys2Proof.Machine.execFence f s
  | .binit f => Sys2Proof.Machine.execBinit f s
  | .barr f => Sys2Proof.Machine.execBarr f s
  | .bwait f => Sys2Proof.Machine.execBwait f s
  | .btxIn f => Sys2Proof.Machine.execBtxIn f s
  | .btxOut f => Sys2Proof.Machine.execBtxOut f s
  | .bplw f => Sys2Proof.Machine.execBplw f s
  | .rinit f => Sys2Proof.Machine.execRinit f s
  | .acqs f => Sys2Proof.Machine.execAcqs f s
  | .acqsTry f => Sys2Proof.Machine.execAcqsTry f s
  | .coms f => Sys2Proof.Machine.execComs f s
  | .peeks f => Sys2Proof.Machine.execPeeks f s
  | .peeksTry f => Sys2Proof.Machine.execPeeksTry f s
  | .rels f => Sys2Proof.Machine.execRels f s
  | .rinitG f => Sys2Proof.Machine.execRinitG f s
  | .acqsG f => Sys2Proof.Machine.execAcqsG f s
  | .acqsTryG f => Sys2Proof.Machine.execAcqsTryG f s
  | .comsG f => Sys2Proof.Machine.execComsG f s
  | .peeksG f => Sys2Proof.Machine.execPeeksG f s
  | .peeksTryG f => Sys2Proof.Machine.execPeeksTryG f s
  | .relsG f => Sys2Proof.Machine.execRelsG f s
  | .launch f => Sys2Proof.Machine.execLaunch f s
  | .relaunch f => Sys2Proof.Machine.execRelaunch f s
  | .tspawn f => Sys2Proof.Machine.execTspawn f s
  | .tawait f => Sys2Proof.Machine.execTawait f s
  | .ld w f => Sys2Proof.Machine.execLd w f s
  | .st w f => Sys2Proof.Machine.execSt w f s
  | .lds w f => Sys2Proof.Machine.execLds w f s
  | .sts w f => Sys2Proof.Machine.execSts w f s
  | .ldsG w f => Sys2Proof.Machine.execLdsG w f s
  | .stsG w f => Sys2Proof.Machine.execStsG w f s
  | .ldp f => Sys2Proof.Machine.execLdp f s
  | .prf f => Sys2Proof.Machine.execPrf f s
  | .pst f => Sys2Proof.Machine.execPst f s
  | .pstMerge f => Sys2Proof.Machine.execPstMerge f s
  | .atomAdd f => Sys2Proof.Machine.execAtomAdd f s
  | .atomMin f => Sys2Proof.Machine.execAtomMin f s
  | .atomMax f => Sys2Proof.Machine.execAtomMax f s
  | .atomAnd f => Sys2Proof.Machine.execAtomAnd f s
  | .atomOr f => Sys2Proof.Machine.execAtomOr f s
  | .atomXor f => Sys2Proof.Machine.execAtomXor f s
  | .atomInc f => Sys2Proof.Machine.execAtomInc f s
  | .atomDec f => Sys2Proof.Machine.execAtomDec f s
  | .atomFadd f => Sys2Proof.Machine.execAtomFadd f s
  | .atomFmin f => Sys2Proof.Machine.execAtomFmin f s
  | .atomFmax f => Sys2Proof.Machine.execAtomFmax f s
  | .atomrAdd f => Sys2Proof.Machine.execAtomrAdd f s
  | .atomrMin f => Sys2Proof.Machine.execAtomrMin f s
  | .atomrMax f => Sys2Proof.Machine.execAtomrMax f s
  | .atomrAnd f => Sys2Proof.Machine.execAtomrAnd f s
  | .atomrOr f => Sys2Proof.Machine.execAtomrOr f s
  | .atomrXor f => Sys2Proof.Machine.execAtomrXor f s
  | .atomrInc f => Sys2Proof.Machine.execAtomrInc f s
  | .atomrDec f => Sys2Proof.Machine.execAtomrDec f s
  | .atomrFadd f => Sys2Proof.Machine.execAtomrFadd f s
  | .atomrFmin f => Sys2Proof.Machine.execAtomrFmin f s
  | .atomrFmax f => Sys2Proof.Machine.execAtomrFmax f s
  | .atomrExch f => Sys2Proof.Machine.execAtomrExch f s
  | .atomrCas f => Sys2Proof.Machine.execAtomrCas f s
  | .hitch f => Sys2Proof.Machine.execHitch f s
  | .hitchEach f => Sys2Proof.Machine.execHitchEach f s
  | .unhitch f => Sys2Proof.Machine.execUnhitch f s
  | .hclr f => Sys2Proof.Machine.execHclr f s
  | .hclrEq f => Sys2Proof.Machine.execHclrEq f s
  | .lpf f => Sys2Proof.Machine.execLpf f s
  | .copy f => Sys2Proof.Machine.execCopy f s
  | .copyIn f => Sys2Proof.Machine.execCopyIn f s
  | .copyOut f => Sys2Proof.Machine.execCopyOut f s
  | .copySs f => Sys2Proof.Machine.execCopySs f s
  | .copyLs f => Sys2Proof.Machine.execCopyLs f s
  | .pcopyIn f => Sys2Proof.Machine.execPcopyIn f s
  | .pcopyOut f => Sys2Proof.Machine.execPcopyOut f s
  | .pcopyLs f => Sys2Proof.Machine.execPcopyLs f s
  | .txfm f => Sys2Proof.Machine.execTxfm f s
  | .lease f => Sys2Proof.Machine.execLease f s
  | .leaseQ f => Sys2Proof.Machine.execLeaseQ f s
  | .unlease f => Sys2Proof.Machine.execUnlease f s
  | .nmc f => Sys2Proof.Machine.execNmc f s
  | .tld f => Sys2Proof.Machine.execTld f s
  | .tldPl f => Sys2Proof.Machine.execTldPl f s
  | .tldS f => Sys2Proof.Machine.execTldS f s
  | .tldT f => Sys2Proof.Machine.execTldT f s
  | .tst f => Sys2Proof.Machine.execTst f s
  | .tstS f => Sys2Proof.Machine.execTstS f s
  | .tzero f => Sys2Proof.Machine.execTzero f s
  | .tzeroPl f => Sys2Proof.Machine.execTzeroPl f s
  | .mma f => Sys2Proof.Machine.execMma f s
  | .mloop f => Sys2Proof.Machine.execMloop f s
  | .mlsp f => Sys2Proof.Machine.execMlsp f s
  | .mlspT f => Sys2Proof.Machine.execMlspT f s
  | .mrst f => Sys2Proof.Machine.execMrst f s
  | .mrstOff f => Sys2Proof.Machine.execMrstOff f s
  | .accz f => Sys2Proof.Machine.execAccz f s
  | .accld f => Sys2Proof.Machine.execAccld f s
  | .accldS f => Sys2Proof.Machine.execAccldS f s
  | .accst f => Sys2Proof.Machine.execAccst f s
  | .accstS f => Sys2Proof.Machine.execAccstS f s
  | .accmv f => Sys2Proof.Machine.execAccmv f s
  | .accmvT f => Sys2Proof.Machine.execAccmvT f s
  | .permxT f => Sys2Proof.Machine.execPermxT f s
  | .permxTAdd f => Sys2Proof.Machine.execPermxTAdd f s
  | .twld f => Sys2Proof.Machine.execTwld f s
  | .twrow f => Sys2Proof.Machine.execTwrow f s
  | .twcol f => Sys2Proof.Machine.execTwcol f s
  | .twnext f => Sys2Proof.Machine.execTwnext f s
  | .twsave f => Sys2Proof.Machine.execTwsave f s
  | .twrest f => Sys2Proof.Machine.execTwrest f s
  | .trap f => Sys2Proof.Machine.execTrap f s
  | .sethdl f => Sys2Proof.Machine.execSethdl f s
  | .rte f => Sys2Proof.Machine.execRte f s
  | .preemptd f => Sys2Proof.Machine.execPreemptd f s
  | .brkpt f => Sys2Proof.Machine.execBrkpt f s
  | .leave f => Sys2Proof.Machine.execLeave f s
  | .endlv f => Sys2Proof.Machine.execEndlv f s
  | .evph f => Sys2Proof.Machine.execEvph f s
  | .evphSet f => Sys2Proof.Machine.execEvphSet f s
  | .restoreInterrupted image poison bytes => Sys2Proof.Machine.execRestoreInterrupted image poison bytes s
  | .oromelPolicyKill ctx => Sys2Proof.Machine.execOromelPolicyKill ctx s

end Sys2Proof.Machine
end

