-- ==== Sys2Proof/WellFormed.lean ====
section
/-! DEFINITION. Well-formed instructions: those whose fields break no condition of R255 to R263, R265, R266 and R275. -/

namespace Sys2Proof

/-- The opcode and fields of an instruction in the full formats; `none` for every other step. -/
def fullOf : Instr → Option (Nat × Full)
  | .iadd f => some (0x000, f)
  | .isub f => some (0x001, f)
  | .iaddc f => some (0x002, f)
  | .isubb f => some (0x003, f)
  | .imulLo f => some (0x004, f)
  | .imulHi f => some (0x005, f)
  | .imulWide f => some (0x006, f)
  | .imadLo f => some (0x007, f)
  | .imadHi f => some (0x008, f)
  | .imadWide f => some (0x009, f)
  | .idiv f => some (0x00A, f)
  | .irem f => some (0x00B, f)
  | .imin f => some (0x00C, f)
  | .imax f => some (0x00D, f)
  | .iabs f => some (0x00E, f)
  | .ineg f => some (0x00F, f)
  | .icmpEq f => some (0x010, f)
  | .icmpNe f => some (0x011, f)
  | .icmpLt f => some (0x012, f)
  | .icmpLe f => some (0x013, f)
  | .icmpGt f => some (0x014, f)
  | .icmpGe f => some (0x015, f)
  | .isel f => some (0x016, f)
  | .iclamp f => some (0x017, f)
  | .iand f => some (0x018, f)
  | .ior f => some (0x019, f)
  | .ixor f => some (0x01A, f)
  | .inot f => some (0x01B, f)
  | .ilop3 f => some (0x01C, f)
  | .ishl f => some (0x01D, f)
  | .ishrL f => some (0x01E, f)
  | .ishrA f => some (0x01F, f)
  | .irot f => some (0x020, f)
  | .ibfx f => some (0x021, f)
  | .ibfi f => some (0x022, f)
  | .ipopc f => some (0x023, f)
  | .iclz f => some (0x024, f)
  | .ictz f => some (0x025, f)
  | .ibrev f => some (0x026, f)
  | .amk f => some (0x027, f)
  | .aadd f => some (0x028, f)
  | .aoff f => some (0x029, f)
  | .ahnd f => some (0x02A, f)
  | .fadd f => some (0x040, f)
  | .fsub f => some (0x041, f)
  | .fmul f => some (0x042, f)
  | .ffma f => some (0x043, f)
  | .fdiv f => some (0x044, f)
  | .fsqrt f => some (0x045, f)
  | .frcp f => some (0x046, f)
  | .frsq f => some (0x047, f)
  | .fmin f => some (0x048, f)
  | .fmax f => some (0x049, f)
  | .fabs f => some (0x04A, f)
  | .fneg f => some (0x04B, f)
  | .fcmpEq f => some (0x04C, f)
  | .fcmpNe f => some (0x04D, f)
  | .fcmpLt f => some (0x04E, f)
  | .fcmpLe f => some (0x04F, f)
  | .fcmpGt f => some (0x050, f)
  | .fcmpGe f => some (0x051, f)
  | .fcmpUn f => some (0x052, f)
  | .fcmpOr f => some (0x053, f)
  | .fclass f => some (0x054, f)
  | .frnd f => some (0x055, f)
  | .cvtpk f => some (0x056, f)
  | .cvtup f => some (0x057, f)
  | .sfnEx2 f => some (0x058, f)
  | .sfnLg2 f => some (0x059, f)
  | .sfnSin f => some (0x05A, f)
  | .sfnCos f => some (0x05B, f)
  | .sfnTanh f => some (0x05C, f)
  | .sfnSigm f => some (0x05D, f)
  | .sfnErf f => some (0x05E, f)
  | .act f => some (0x05F, f)
  | .cvt src f => some (0x060 + src.code, f)
  | .actld f => some (0x070, f)
  | .actsel f => some (0x071, f)
  | .plpack f => some (0x072, f)
  | .plval f => some (0x073, f)
  | .pltag f => some (0x074, f)
  | .plsett f => some (0x075, f)
  | .pltrim f => some (0x076, f)
  | .part f => some (0x080, f)
  | .wsync f => some (0x081, f)
  | .voteAll f => some (0x082, f)
  | .voteAny f => some (0x083, f)
  | .voteEq f => some (0x084, f)
  | .voteBallot f => some (0x085, f)
  | .shflIdx f => some (0x086, f)
  | .shflUp f => some (0x087, f)
  | .shflDown f => some (0x088, f)
  | .shflXor f => some (0x089, f)
  | .lred f => some (0x08A, f)
  | .lredF f => some (0x08B, f)
  | .lscan f => some (0x08C, f)
  | .lscanF f => some (0x08D, f)
  | .selk f => some (0x08E, f)
  | .selkI f => some (0x08F, f)
  | .permx f => some (0x090, f)
  | .mov f => some (0x091, f)
  | .movi f => some (0x092, f)
  | .rdsr f => some (0x093, f)
  | .wrsr f => some (0x094, f)
  | .pand f => some (0x095, f)
  | .por f => some (0x096, f)
  | .pxor f => some (0x097, f)
  | .pnot f => some (0x098, f)
  | .pmov f => some (0x099, f)
  | .pmovGet f => some (0x099, f)
  | .pmovSet f => some (0x099, f)
  | .bra f => some (0x0A0, f)
  | .brx f => some (0x0A1, f)
  | .call f => some (0x0A2, f)
  | .calx f => some (0x0A3, f)
  | .ret f => some (0x0A4, f)
  | .exit f => some (0x0A5, f)
  | .sbra f => some (0x0A6, f)
  | .join f => some (0x0A7, f)
  | .yield f => some (0x0A8, f)
  | .nop f => some (0x0A9, f)
  | .waitc f => some (0x0AA, f)
  | .wtany f => some (0x0AB, f)
  | .wtall f => some (0x0AC, f)
  | .ffrdy f => some (0x0AD, f)
  | .fence f => some (0x0AE, f)
  | .binit f => some (0x0AF, f)
  | .barr f => some (0x0B0, f)
  | .bwait f => some (0x0B1, f)
  | .btxIn f => some (0x0B2, f)
  | .btxOut f => some (0x0B2, f)
  | .bplw f => some (0x0B3, f)
  | .rinit f => some (0x0B4, f)
  | .acqs f => some (0x0B5, f)
  | .acqsTry f => some (0x0B6, f)
  | .coms f => some (0x0B7, f)
  | .peeks f => some (0x0B8, f)
  | .peeksTry f => some (0x0B9, f)
  | .rels f => some (0x0BA, f)
  | .rinitG f => some (0x0BB, f)
  | .acqsG f => some (0x0BC, f)
  | .acqsTryG f => some (0x0BD, f)
  | .comsG f => some (0x0BE, f)
  | .peeksG f => some (0x0BF, f)
  | .peeksTryG f => some (0x0C0, f)
  | .relsG f => some (0x0C1, f)
  | .launch f => some (0x0C2, f)
  | .relaunch f => some (0x0C3, f)
  | .tspawn f => some (0x0C4, f)
  | .tawait f => some (0x0C5, f)
  | .ld w f => some (0x0D0 + w.code, f)
  | .st w f => some (0x0D5 + w.code, f)
  | .lds w f => some (0x0DA + w.code, f)
  | .sts w f => some (0x0DF + w.code, f)
  | .ldsG w f => some (0x0E4 + w.code, f)
  | .stsG w f => some (0x0E9 + w.code, f)
  | .ldp f => some (0x0EE, f)
  | .prf f => some (0x0EF, f)
  | .pst f => some (0x0F0, f)
  | .pstMerge f => some (0x0F1, f)
  | .atomAdd f => some (0x0F2, f)
  | .atomMin f => some (0x0F3, f)
  | .atomMax f => some (0x0F4, f)
  | .atomAnd f => some (0x0F5, f)
  | .atomOr f => some (0x0F6, f)
  | .atomXor f => some (0x0F7, f)
  | .atomInc f => some (0x0F8, f)
  | .atomDec f => some (0x0F9, f)
  | .atomFadd f => some (0x0FA, f)
  | .atomFmin f => some (0x0FB, f)
  | .atomFmax f => some (0x0FC, f)
  | .atomrAdd f => some (0x0FD, f)
  | .atomrMin f => some (0x0FE, f)
  | .atomrMax f => some (0x0FF, f)
  | .atomrAnd f => some (0x100, f)
  | .atomrOr f => some (0x101, f)
  | .atomrXor f => some (0x102, f)
  | .atomrInc f => some (0x103, f)
  | .atomrDec f => some (0x104, f)
  | .atomrFadd f => some (0x105, f)
  | .atomrFmin f => some (0x106, f)
  | .atomrFmax f => some (0x107, f)
  | .atomrExch f => some (0x108, f)
  | .atomrCas f => some (0x109, f)
  | .hitch f => some (0x10A, f)
  | .hitchEach f => some (0x10B, f)
  | .unhitch f => some (0x10C, f)
  | .hclr f => some (0x10D, f)
  | .hclrEq f => some (0x10E, f)
  | .lpf f => some (0x10F, f)
  | .copy f => some (0x120, f)
  | .copyIn f => some (0x121, f)
  | .copyOut f => some (0x122, f)
  | .copySs f => some (0x123, f)
  | .copyLs f => some (0x124, f)
  | .pcopyIn f => some (0x125, f)
  | .pcopyOut f => some (0x126, f)
  | .pcopyLs f => some (0x127, f)
  | .txfm f => some (0x128, f)
  | .lease f => some (0x129, f)
  | .leaseQ f => some (0x12A, f)
  | .unlease f => some (0x12B, f)
  | .nmc f => some (0x12C, f)
  | .tld f => some (0x150, f)
  | .tldPl f => some (0x150, f)
  | .tldS f => some (0x151, f)
  | .tldT f => some (0x152, f)
  | .tst f => some (0x153, f)
  | .tstS f => some (0x154, f)
  | .tzero f => some (0x155, f)
  | .tzeroPl f => some (0x155, f)
  | .mma f => some (0x156, f)
  | .mloop f => some (0x157, f)
  | .mlsp f => some (0x158, f)
  | .mlspT f => some (0x159, f)
  | .mrst f => some (0x15A, f)
  | .mrstOff f => some (0x15A, f)
  | .accz f => some (0x15B, f)
  | .accld f => some (0x15C, f)
  | .accldS f => some (0x15D, f)
  | .accst f => some (0x15E, f)
  | .accstS f => some (0x15F, f)
  | .accmv f => some (0x160, f)
  | .accmvT f => some (0x160, f)
  | .permxT f => some (0x161, f)
  | .permxTAdd f => some (0x161, f)
  | .twld f => some (0x190, f)
  | .twrow f => some (0x191, f)
  | .twcol f => some (0x192, f)
  | .twnext f => some (0x193, f)
  | .twsave f => some (0x194, f)
  | .twrest f => some (0x195, f)
  | .trap f => some (0x1B0, f)
  | .sethdl f => some (0x1B1, f)
  | .rte f => some (0x1B2, f)
  | .preemptd f => some (0x1B3, f)
  | .brkpt f => some (0x1B4, f)
  | .leave f => some (0x1B5, f)
  | .endlv f => some (0x1B6, f)
  | .evph f => some (0x1B7, f)
  | .evphSet f => some (0x1B8, f)
  | _ => none

/-- The compact word of an instruction in the compact format, alone in its parcel; `none` for every other step. -/
def compactOf : Instr → Option CompactWord
  | .nopCompact c => some ⟨0, c⟩
  | .movCompact c => some ⟨1, c⟩
  | .moviCompact c => some ⟨1, c⟩
  | .iaddCompact c => some ⟨2, c⟩
  | .isubCompact c => some ⟨3, c⟩
  | .imulLoCompact c => some ⟨4, c⟩
  | .iminCompact c => some ⟨5, c⟩
  | .imaxCompact c => some ⟨6, c⟩
  | .iandCompact c => some ⟨7, c⟩
  | .iorCompact c => some ⟨8, c⟩
  | .ixorCompact c => some ⟨9, c⟩
  | .ishlCompact c => some ⟨10, c⟩
  | .ishrLCompact c => some ⟨11, c⟩
  | .ishrACompact c => some ⟨12, c⟩
  | .irotCompact c => some ⟨13, c⟩
  | .inotCompact c => some ⟨14, c⟩
  | .inegCompact c => some ⟨15, c⟩
  | .iabsCompact c => some ⟨16, c⟩
  | .ipopcCompact c => some ⟨17, c⟩
  | .iclzCompact c => some ⟨18, c⟩
  | .ictzCompact c => some ⟨19, c⟩
  | .ibrevCompact c => some ⟨20, c⟩
  | .aaddCompact c => some ⟨21, c⟩
  | .faddCompact c => some ⟨22, c⟩
  | .fsubCompact c => some ⟨23, c⟩
  | .fmulCompact c => some ⟨24, c⟩
  | .fminCompact c => some ⟨25, c⟩
  | .fmaxCompact c => some ⟨26, c⟩
  | .fabsCompact c => some ⟨27, c⟩
  | .fnegCompact c => some ⟨28, c⟩
  | .frcpCompact c => some ⟨29, c⟩
  | .frsqCompact c => some ⟨30, c⟩
  | .fsqrtCompact c => some ⟨31, c⟩
  | .plvalCompact c => some ⟨32, c⟩
  | .ldCompact c => some ⟨33, c⟩
  | .stCompact c => some ⟨34, c⟩
  | .ldsCompact c => some ⟨35, c⟩
  | .stsCompact c => some ⟨36, c⟩
  | .shflIdxCompact c => some ⟨37, c⟩
  | .shflXorCompact c => some ⟨38, c⟩
  | .lredCompact c => some ⟨39, c⟩
  | .yieldCompact c => some ⟨40, c⟩
  | .wsyncCompact c => some ⟨41, c⟩
  | .hclrCompact c => some ⟨42, c⟩
  | .fenceCompact c => some ⟨43, c⟩
  | .wtanyCompact c => some ⟨44, c⟩
  | .wtallCompact c => some ⟨45, c⟩
  | .shflUpCompact c => some ⟨46, c⟩
  | .shflDownCompact c => some ⟨47, c⟩
  | _ => none

/-- Whether the constructor's own choice agrees with its fields: the variants that S or EXT selects (R275), and `mov` with
and without an immediate (R258). -/
def variantOk : Instr → Bool
  | .btxIn f | .tld f | .tzero f | .mrst f | .accmv f | .permxTAdd f | .pmov f => !f.s
  | .btxOut f | .tldPl f | .tzeroPl f | .mrstOff f | .accmvT f | .permxT f => f.s
  | .pmovGet f => f.s && f.ext != 1
  | .pmovSet f => f.s && f.ext == 1
  | .movCompact c => !c.i
  | .moviCompact c => c.i
  | _ => true

/-- The reasons an instruction's encoding is illegal (R457); none for a well-formed one and for steps that are no
instruction. -/
def Instr.reasons (i : Instr) : List Nat :=
  match fullOf i with
  | some (op, f) => (f.raw op).reasons
  | none => match compactOf i with
    | some w => w.reasons
    | none => match i with
      | .compactPair x y => pairReasons x y
      | _ => []

/-- A step that is an instruction of a program. -/
def Instr.isInstr (i : Instr) : Bool :=
  (fullOf i).isSome || (compactOf i).isSome || (match i with | .compactPair _ _ => true | _ => false)

/-- Well-formed: no reason of R457 stands against it and the constructor agrees with its fields. -/
def WellFormed (i : Instr) : Prop := i.reasons = [] ∧ variantOk i = true

/-- The check of `WellFormed` as a Bool. -/
def wellFormed (i : Instr) : Bool := i.reasons.isEmpty && variantOk i

theorem wellFormed_iff (i : Instr) : wellFormed i = true ↔ WellFormed i := by
  simp [wellFormed, WellFormed]

end Sys2Proof
end

