-- ==== Sys2Proof/Decode.lean ====
section
/-! DEFINITION. The decoder: from the parcels at a program counter to an instruction or the reason it is illegal (R255 to R263,
R272, R457); and the encoder, written from the same encoding tables. A definition that builds a constructor beyond the 244th
is marked noncomputable, because Lean's compiler holds no larger constructor number; Lean's kernel evaluates it all the same
(log 16). -/

namespace Sys2Proof

/-- Opcodes 0x000 to 0x044 of R271 and their instructions. -/
def opTable0 : List (Nat × (Full → Instr)) :=
  [(0x000, .iadd), (0x001, .isub), (0x002, .iaddc), (0x003, .isubb),
   (0x004, .imulLo), (0x005, .imulHi), (0x006, .imulWide), (0x007, .imadLo),
   (0x008, .imadHi), (0x009, .imadWide), (0x00A, .idiv), (0x00B, .irem),
   (0x00C, .imin), (0x00D, .imax), (0x00E, .iabs), (0x00F, .ineg),
   (0x010, .icmpEq), (0x011, .icmpNe), (0x012, .icmpLt), (0x013, .icmpLe),
   (0x014, .icmpGt), (0x015, .icmpGe), (0x016, .isel), (0x017, .iclamp),
   (0x018, .iand), (0x019, .ior), (0x01A, .ixor), (0x01B, .inot),
   (0x01C, .ilop3), (0x01D, .ishl), (0x01E, .ishrL), (0x01F, .ishrA),
   (0x020, .irot), (0x021, .ibfx), (0x022, .ibfi), (0x023, .ipopc),
   (0x024, .iclz), (0x025, .ictz), (0x026, .ibrev), (0x027, .amk),
   (0x028, .aadd), (0x029, .aoff), (0x02A, .ahnd), (0x040, .fadd),
   (0x041, .fsub), (0x042, .fmul), (0x043, .ffma), (0x044, .fdiv)]

/-- Opcodes 0x045 to 0x074 of R271 and their instructions. -/
def opTable1 : List (Nat × (Full → Instr)) :=
  [(0x045, .fsqrt), (0x046, .frcp), (0x047, .frsq), (0x048, .fmin),
   (0x049, .fmax), (0x04A, .fabs), (0x04B, .fneg), (0x04C, .fcmpEq),
   (0x04D, .fcmpNe), (0x04E, .fcmpLt), (0x04F, .fcmpLe), (0x050, .fcmpGt),
   (0x051, .fcmpGe), (0x052, .fcmpUn), (0x053, .fcmpOr), (0x054, .fclass),
   (0x055, .frnd), (0x056, .cvtpk), (0x057, .cvtup), (0x058, .sfnEx2),
   (0x059, .sfnLg2), (0x05A, .sfnSin), (0x05B, .sfnCos), (0x05C, .sfnTanh),
   (0x05D, .sfnSigm), (0x05E, .sfnErf), (0x05F, .act), (0x060, .cvt (Ty.ofCode 0)),
   (0x061, .cvt (Ty.ofCode 1)), (0x062, .cvt (Ty.ofCode 2)), (0x063, .cvt (Ty.ofCode 3)), (0x064, .cvt (Ty.ofCode 4)),
   (0x065, .cvt (Ty.ofCode 5)), (0x066, .cvt (Ty.ofCode 6)), (0x067, .cvt (Ty.ofCode 7)), (0x068, .cvt (Ty.ofCode 8)),
   (0x069, .cvt (Ty.ofCode 9)), (0x06A, .cvt (Ty.ofCode 10)), (0x06B, .cvt (Ty.ofCode 11)), (0x06C, .cvt (Ty.ofCode 12)),
   (0x06D, .cvt (Ty.ofCode 13)), (0x06E, .cvt (Ty.ofCode 14)), (0x06F, .cvt (Ty.ofCode 15)), (0x070, .actld),
   (0x071, .actsel), (0x072, .plpack), (0x073, .plval), (0x074, .pltag)]

/-- Opcodes 0x075 to 0x0B3 of R271 and their instructions. -/
noncomputable def opTable2 : List (Nat × (Full → Instr)) :=
  [(0x075, .plsett), (0x076, .pltrim), (0x080, .part), (0x081, .wsync),
   (0x082, .voteAll), (0x083, .voteAny), (0x084, .voteEq), (0x085, .voteBallot),
   (0x086, .shflIdx), (0x087, .shflUp), (0x088, .shflDown), (0x089, .shflXor),
   (0x08A, .lred), (0x08B, .lredF), (0x08C, .lscan), (0x08D, .lscanF),
   (0x08E, .selk), (0x08F, .selkI), (0x090, .permx), (0x091, .mov),
   (0x092, .movi), (0x093, .rdsr), (0x094, .wrsr), (0x095, .pand),
   (0x096, .por), (0x097, .pxor), (0x098, .pnot), (0x099, fun f => if f.s then (if f.ext = 1 then .pmovSet f else .pmovGet f) else .pmov f),
   (0x0A0, .bra), (0x0A1, .brx), (0x0A2, .call), (0x0A3, .calx),
   (0x0A4, .ret), (0x0A5, .exit), (0x0A6, .sbra), (0x0A7, .join),
   (0x0A8, .yield), (0x0A9, .nop), (0x0AA, .waitc), (0x0AB, .wtany),
   (0x0AC, .wtall), (0x0AD, .ffrdy), (0x0AE, .fence), (0x0AF, .binit),
   (0x0B0, .barr), (0x0B1, .bwait), (0x0B2, fun f => if f.s then .btxOut f else .btxIn f), (0x0B3, .bplw)]

/-- Opcodes 0x0B4 to 0x0ED of R271 and their instructions. -/
noncomputable def opTable3 : List (Nat × (Full → Instr)) :=
  [(0x0B4, .rinit), (0x0B5, .acqs), (0x0B6, .acqsTry), (0x0B7, .coms),
   (0x0B8, .peeks), (0x0B9, .peeksTry), (0x0BA, .rels), (0x0BB, .rinitG),
   (0x0BC, .acqsG), (0x0BD, .acqsTryG), (0x0BE, .comsG), (0x0BF, .peeksG),
   (0x0C0, .peeksTryG), (0x0C1, .relsG), (0x0C2, .launch), (0x0C3, .relaunch),
   (0x0C4, .tspawn), (0x0C5, .tawait), (0x0D0, .ld .b1), (0x0D1, .ld .b2),
   (0x0D2, .ld .b4), (0x0D3, .ld .b8), (0x0D4, .ld .b16), (0x0D5, .st .b1),
   (0x0D6, .st .b2), (0x0D7, .st .b4), (0x0D8, .st .b8), (0x0D9, .st .b16),
   (0x0DA, .lds .b1), (0x0DB, .lds .b2), (0x0DC, .lds .b4), (0x0DD, .lds .b8),
   (0x0DE, .lds .b16), (0x0DF, .sts .b1), (0x0E0, .sts .b2), (0x0E1, .sts .b4),
   (0x0E2, .sts .b8), (0x0E3, .sts .b16), (0x0E4, .ldsG .b1), (0x0E5, .ldsG .b2),
   (0x0E6, .ldsG .b4), (0x0E7, .ldsG .b8), (0x0E8, .ldsG .b16), (0x0E9, .stsG .b1),
   (0x0EA, .stsG .b2), (0x0EB, .stsG .b4), (0x0EC, .stsG .b8), (0x0ED, .stsG .b16)]

/-- Opcodes 0x0EE to 0x150 of R271 and their instructions. -/
noncomputable def opTable4 : List (Nat × (Full → Instr)) :=
  [(0x0EE, .ldp), (0x0EF, .prf), (0x0F0, .pst), (0x0F1, .pstMerge),
   (0x0F2, .atomAdd), (0x0F3, .atomMin), (0x0F4, .atomMax), (0x0F5, .atomAnd),
   (0x0F6, .atomOr), (0x0F7, .atomXor), (0x0F8, .atomInc), (0x0F9, .atomDec),
   (0x0FA, .atomFadd), (0x0FB, .atomFmin), (0x0FC, .atomFmax), (0x0FD, .atomrAdd),
   (0x0FE, .atomrMin), (0x0FF, .atomrMax), (0x100, .atomrAnd), (0x101, .atomrOr),
   (0x102, .atomrXor), (0x103, .atomrInc), (0x104, .atomrDec), (0x105, .atomrFadd),
   (0x106, .atomrFmin), (0x107, .atomrFmax), (0x108, .atomrExch), (0x109, .atomrCas),
   (0x10A, .hitch), (0x10B, .hitchEach), (0x10C, .unhitch), (0x10D, .hclr),
   (0x10E, .hclrEq), (0x10F, .lpf), (0x120, .copy), (0x121, .copyIn),
   (0x122, .copyOut), (0x123, .copySs), (0x124, .copyLs), (0x125, .pcopyIn),
   (0x126, .pcopyOut), (0x127, .pcopyLs), (0x128, .txfm), (0x129, .lease),
   (0x12A, .leaseQ), (0x12B, .unlease), (0x12C, .nmc), (0x150, fun f => if f.s then .tldPl f else .tld f)]

/-- Opcodes 0x151 to 0x1B8 of R271 and their instructions. -/
noncomputable def opTable5 : List (Nat × (Full → Instr)) :=
  [(0x151, .tldS), (0x152, .tldT), (0x153, .tst), (0x154, .tstS),
   (0x155, fun f => if f.s then .tzeroPl f else .tzero f), (0x156, .mma), (0x157, .mloop), (0x158, .mlsp),
   (0x159, .mlspT), (0x15A, fun f => if f.s then .mrstOff f else .mrst f), (0x15B, .accz), (0x15C, .accld),
   (0x15D, .accldS), (0x15E, .accst), (0x15F, .accstS), (0x160, fun f => if f.s then .accmvT f else .accmv f),
   (0x161, fun f => if f.s then .permxT f else .permxTAdd f), (0x190, .twld), (0x191, .twrow), (0x192, .twcol),
   (0x193, .twnext), (0x194, .twsave), (0x195, .twrest), (0x1B0, .trap),
   (0x1B1, .sethdl), (0x1B2, .rte), (0x1B3, .preemptd), (0x1B4, .brkpt),
   (0x1B5, .leave), (0x1B6, .endlv), (0x1B7, .evph), (0x1B8, .evphSet)]

/-- The instruction of an assigned opcode and its fields (R271). -/
noncomputable def ofOp (op : Nat) (f : Full) : Option Instr :=
  let t := if 0x151 ≤ op then opTable5 else if 0x0EE ≤ op then opTable4 else if 0x0B4 ≤ op then opTable3 else if 0x075 ≤ op then opTable2 else if 0x045 ≤ op then opTable1 else opTable0
  (t.find? (fun r => r.1 == op)).map (fun r => r.2 f)

/-- Compact opcodes 0 to 47 of R259 and their instructions; `mov` with an immediate is the row after `mov`. -/
def copTable : List (Compact → Instr) :=
  [.nopCompact, fun c => if c.i then .moviCompact c else .movCompact c, .iaddCompact, .isubCompact, .imulLoCompact, .iminCompact,
   .imaxCompact, .iandCompact, .iorCompact, .ixorCompact, .ishlCompact, .ishrLCompact,
   .ishrACompact, .irotCompact, .inotCompact, .inegCompact, .iabsCompact, .ipopcCompact,
   .iclzCompact, .ictzCompact, .ibrevCompact, .aaddCompact, .faddCompact, .fsubCompact,
   .fmulCompact, .fminCompact, .fmaxCompact, .fabsCompact, .fnegCompact, .frcpCompact,
   .frsqCompact, .fsqrtCompact, .plvalCompact, .ldCompact, .stCompact, .ldsCompact,
   .stsCompact, .shflIdxCompact, .shflXorCompact, .lredCompact, .yieldCompact, .wsyncCompact,
   .hclrCompact, .fenceCompact, .wtanyCompact, .wtallCompact, .shflUpCompact, .shflDownCompact]

/-- The instruction of a compact word alone in its parcel. -/
def ofCop (w : CompactWord) : Option Instr := (copTable[w.cop.toNat]?).map (· w.f)

/-- The compact fields of a parcel (R257). -/
def compactOfParcel (p : Word) : CompactWord :=
  { cop := p.extractLsb' 2 6,
    f := { sub := p.extractLsb' 29 3, i := p.getLsbD 28, a := p.extractLsb' 20 8, d := p.extractLsb' 12 8,
           gn := p.getLsbD 11, g := p.extractLsb' 8 3 } }

/-- The fields of a full or long instruction from its parcels (R261, R263). -/
def rawOfParcels (p0 p1 p2 : Word) : Raw :=
  let x : BitVec 64 := p1 ++ p0
  { op := x.extractLsb' 2 9, g := x.extractLsb' 11 3, gn := x.getLsbD 14, d := x.extractLsb' 15 8, a := x.extractLsb' 23 8,
    b := x.extractLsb' 31 8, c := x.extractLsb' 39 8, ty := x.extractLsb' 47 4, mod := x.extractLsb' 51 4,
    pd := x.extractLsb' 55 3, ib := x.getLsbD 58, ext := x.extractLsb' 59 4, s := x.getLsbD 63,
    long := x.getLsbD 0, lit := if x.getLsbD 0 then p2 else 0 }

/-- Parcels of the instruction that a first parcel begins (R255). -/
def parcelsOf (p0 : Word) : Nat :=
  match (p0.extractLsb' 0 2).toNat with
  | 0 => 1 | 1 => 2 | 2 => 2 | _ => 3

/-- Why parcels are no instruction: the reason code of R457. -/
inductive Illegal
  | reason (n : Nat)
deriving DecidableEq, Repr

/-- Decode the parcels at a program counter whose bit 2 is given (R255, R256). Total: every parcel sequence gives an
instruction or the lowest reason it is illegal. -/
noncomputable def decode (pcBit2 : Bool) (p0 p1 p2 : Word) : Except Illegal Instr :=
  match (p0.extractLsb' 0 2).toNat with
  | 0 =>
    let w := compactOfParcel p0
    match lowest? w.reasons with
    | some r => .error (.reason r)
    | none => match ofCop w with
      | some i => .ok i
      | none => .error (.reason 2)
  | 1 =>
    let x := compactOfParcel p0
    let y := compactOfParcel p1
    let place := if pcBit2 then [8] else []
    let second := if p1.extractLsb' 0 2 = 0 then [] else [9]
    let rest := if second = [] then pairReasons x y else x.reasons
    match lowest? (place ++ second ++ rest) with
    | some r => .error (.reason r)
    | none => .ok (.compactPair x y)
  | _ =>
    let r := rawOfParcels p0 p1 p2
    match r.reason? with
    | some n => .error (.reason n)
    | none => match ofOp r.op.toNat r.full with
      | some i => .ok i
      | none => .error (.reason 1)

/-- The 64 bits of a full instruction (R261). -/
def Raw.bits (r : Raw) : BitVec 64 :=
  BitVec.ofBool r.s ++ r.ext ++ BitVec.ofBool r.ib ++ r.pd ++ r.mod ++ r.ty ++ r.c ++ r.b ++ r.a ++ r.d
    ++ BitVec.ofBool r.gn ++ r.g ++ r.op ++ (1#1 ++ BitVec.ofBool r.long)

/-- The parcel of a compact word with length field `l` (R257). -/
def CompactWord.parcel (w : CompactWord) (l : BitVec 2) : Word :=
  w.f.sub ++ BitVec.ofBool w.f.i ++ w.f.a ++ w.f.d ++ BitVec.ofBool w.f.gn ++ w.f.g ++ w.cop ++ l

/-- The parcels of an instruction: one, two or three; none for a step that is no instruction. -/
def encode (i : Instr) : List Word :=
  match fullOf i with
  | some (op, f) =>
    let r := f.raw op
    let x := r.bits
    [x.extractLsb' 0 32, x.extractLsb' 32 32] ++ (if r.long then [r.lit] else [])
  | none => match compactOf i with
    | some w => [w.parcel 0]
    | none => match i with
      | .compactPair x y => [x.parcel 1, y.parcel 0]
      | _ => []

/-- Parcel k of a list of parcels; 0 beyond it. -/
def parcelAt (ps : List Word) (k : Nat) : Word := ps.getD k 0

/-- Decode the parcels that `encode` gives, at an address whose bit 2 is 0. -/
noncomputable def decodeParcels (ps : List Word) : Except Illegal Instr :=
  decode false (parcelAt ps 0) (parcelAt ps 1) (parcelAt ps 2)

/-- The instruction read from bits numbered as spec/opcode_table.json numbers them: parcel k holds bits 32k + 31 : 32k. -/
noncomputable def decodeTableWord (nbits w : Nat) : Option Instr :=
  let x := w % 2 ^ nbits
  match decode false (BitVec.ofNat 32 x) (BitVec.ofNat 32 (x / 2 ^ 32)) (BitVec.ofNat 32 (x / 2 ^ 64)) with
  | .ok i => some i
  | .error _ => none

end Sys2Proof
end

