-- ==== Sys2Proof/Machine/Settle.lean ====
section
/-! DEFINITION. What follows a step at once, without a step of its own: waits whose condition holds end (R39, R46, R52, R101, R181,
R232, R313), groups enter the active set (R72), are handed over (R78) and leave (R67, R219, R308), deques move (R225, R228), charges
end (R325), and commands go on (R242). -/

namespace Sys2Proof.Machine

/-! ## Waits -/

/-- The waits of fault points, where a fault that comes to be held is delivered (R427, R428). -/
def Cond.faultPoint : Cond → Bool
  | .counters .. | .tags .. | .barGen .. | .plwm .. | .fence _ | .line .. => true
  | _ => false
/-- What a thread's wait turns into, when it is over. -/
def State.waitEnd (s : State) (g t : Nat) (G : Group) (T : Thread) : Option Wait :=
  match T.wait with
  | .on c _ _ =>
    if c.faultPoint && !T.held.isEmpty then some .ready
    else match c with
    | .counters l st cp tl => if T.within l st cp tl then some .passed else none
    | .tags all m => if (if all then G.allTags m else G.anyTag m) then some .passed else none
    | .barGen grp off gen => if (s.bar grp off).gen ≠ gen then some .passed else none
    | .barRetry grp off gen => if (s.bar grp off).gen ≠ gen then some .ready else none
    | .plwm grp off w => if (s.bar grp off).reached w then some .passed else none
    | .fence scope => if s.fenceOver g t scope then some .passed else none
    | _ => none
  | _ => none
/-- Every thread of the device, by group and number. -/
def State.allThreads (s : State) : List (Nat × Nat) := s.groups.flatMap fun e => e.2.threads.map fun x => (e.1, x.1)
def State.wakeOne (s : State) (g t : Nat) : State :=
  match s.group? g, s.thread? g t with
  | some G, some T => (match s.waitEnd g t G T with
    | some w => s.modT g t fun T => { T with wait := w, readySince := s.clock }
    | none => s)
  | _, _ => s
def State.wakeWaits (s : State) : State := s.allThreads.foldl (fun (s : State) e => s.wakeOne e.1 e.2) s
/-- Threads that wait for room try again. -/
def State.wakeResources (s : State) : State :=
  s.modThreads fun T => match T.wait with | .on .resource _ _ => { T with wait := .ready, readySince := s.clock } | _ => T

/-- One waiter on a ring block tries again (R232); a block that has come to break R231 is an illegal use (R317). -/
def State.ringRetry (s : State) (g t : Nat) : State :=
  match s.thread? g t with
  | none => s
  | some T => match T.wait with
    | .on (.ring grp off consumer d pd next addr _) _ _ =>
      if ¬ (s.ring grp off).ok then s.deliver [(g, t, { cause := 0x05, arg := 11, addr := addr })]
      else (match (s.ring grp off).take consumer with
        | some (i, k) =>
          let s := (s.setRing grp off k).modT g t fun T => ((T.setRegs (wr1 d i)).setP pd true).goTo next s.clock
          (match s.group? g with | some G => s.meet G.core grp | none => s)
        | none => s)
    | _ => s
def State.wakeRings (s : State) : State := s.ringQueue.foldl (fun (s : State) e => s.ringRetry e.2.1 e.2.2) s

/-- The threads of one warp at one `wsync`: released when they are all of its live threads (R46). -/
def State.releaseSync (s : State) (g w : Nat) : State :=
  match s.group? g with
  | none => s
  | some G =>
    let l := G.warpLive w
    match l.head? with
    | none => s
    | some (_, T0) =>
      if (l.all fun e => decide (e.2.pc = T0.pc) && (match e.2.wait with | .on (.wsync _) _ _ => true | _ => false)) then
        let (n, s) := s.fresh
        l.foldl (fun (s : State) e => s.modT g e.1 fun T => match T.wait with
          | .on (.wsync next) _ _ => { T.goTo next s.clock with synced := some n }
          | _ => T) s
      else s
/-- The threads of a warp whose join condition holds go on together (R52). -/
def State.releaseJoin (s : State) (g w : Nat) : State :=
  match s.group? g with
  | none => s
  | some G =>
    let l := G.warpLive w
    let at_ (lane : Nat) (target : Addr) : Bool :=
      l.all fun e => e.2.lane != lane || (match e.2.wait with | .on (.join _ x) _ _ => decide (x = target) | _ => false)
    let free := l.filter fun e => match e.2.wait with
      | .on (.join mask target) _ _ => (List.range 32).all fun j => j == e.2.lane || !mask.getLsbD j || at_ j target
      | _ => false
    if free = [] then s
    else
      let (n, s) := s.fresh
      free.foldl (fun (s : State) e => s.modT g e.1 fun T => match T.wait with
        | .on (.join _ target) _ _ => { T.goTo target s.clock with joined := some n }
        | _ => T) s
def State.warps (s : State) : List (Nat × Nat) := s.groups.flatMap fun e => ((e.2.live.map (·.2.warp)).eraseDups).map fun w => (e.1, w)
def State.wakeWarps (s : State) : State := s.warps.foldl (fun (s : State) e => (s.releaseSync e.1 e.2).releaseJoin e.1 e.2) s

/-- Atomics of scope 8 whose snoops are acknowledged leave ST (R181, R337). -/
def State.closeAtoms (s : State) : State :=
  (s.accesses.filter fun a => a.parts.isEmpty && !s.snoopOpen a).foldl (fun (s : State) a => (s.dropAcc a.id).lowerSt a) s

/-! ## Groups -/

/-- A full core has 8 active groups; the oldest pending ones fill its free places (R72). -/
def State.fillCore (core : Nat) : Nat → State → State
  | 0, s => s
  | n + 1, s =>
    if 8 ≤ (s.activeOn core).length then s
    else match s.oldestPending core fun _ => true with
      | some g => State.fillCore core n (s.activate g)
      | none => s
def State.fillCores (s : State) : State :=
  let s := { s with groups := s.groups.map fun (e : Nat × Group) => if e.2.exiting || e.2.res != Residency.resident then (e.1, { e.2 with active := false }) else e }
  ((s.groups.map fun (e : Nat × Group) => e.2.core).eraseDups).foldl (fun (s : State) c => State.fillCore c 8 s) s

/-- While admission is stopped, what waits in the hardware queues no longer counts in CP of threads at the hand-over (R77, R247). -/
def State.detach (s : State) : State :=
  if ¬ s.stopped then s
  else
    let standing (w : Waiting) : Option (Nat × Nat × Nat) := match w.issuer with
      | some (g, t, c) => (match s.thread? g t with | some T => if T.standing then some (g, t, c) else none | none => none)
      | none => none
    let l := s.hwq.flatMap fun e => e.2.filterMap standing
    let s := l.foldl (fun (s : State) e => s.modT e.1 e.2.1 fun T => { T with cp := T.cp - 1 }) s
    let free (w : Waiting) : Waiting := match standing w with | some (_, _, c) => { w with issuer := some (0, 0, c) } | none => w
    { s with hwq := s.hwq.map fun (e : Nat × List Waiting) => (e.1, e.2.map free) }
/-- A group stands at its hand-over: every live thread has executed `preemptd`, once or again (R324), and nothing of it is outstanding. -/
def Group.handable (G : Group) : Bool :=
  (G.deadline.isSome || !G.live.isEmpty) && G.res == .resident && !G.exiting && (G.live.all (·.2.standing)) && (G.threads.all fun e => e.2.within 0 0 0 0)
    && G.live.length == G.threads.length
/-- The hand-over (R78, R79): accumulators, Twill contexts and `$mrow` are gone. -/
def State.handOver (s : State) (g : Nat) : State :=
  match s.group? g with
  | some G =>
    if ¬ G.handable then s
    else
      let (n, s) := s.fresh
      s.modG g fun G => { G with res := .preempted n false, accs := [], mrow := 0, tw := [], loop := none, active := false, deadline := none }
  | none => s
def State.handOvers (s : State) : State := (s.groups.map (·.1)).foldl (fun (s : State) g => s.handOver g) s

/-- Whether a job still uses a group: its tags and barriers, or its scratchpad. -/
def Job.uses (j : Job) (g : Nat) : Bool :=
  let pad (p : Place) : Bool := match p with | .pad x _ => x == g | .dev _ => false
  j.grp == g || (match j.bind with | .bar x _ => x == g | .tag _ => false) || (match j.kind with | .copy d a _ => pad d || pad a | _ => false)
/-- An exited group with nothing left to land: removals confirmed, tile operations and jobs over (R67, R219). -/
def State.empty (s : State) (g : Nat) (G : Group) : Bool :=
  G.exiting && G.trace.isNone && (G.slots.all fun x => x.2.gone) && G.tileOps.isEmpty && G.loop.isNone && !(s.accesses.any (·.grp == g)) && !(s.jobs.any (·.uses g))
/-- Gangs leave their cores whole (R34). -/
def State.reap (s : State) : State :=
  let gangs := ((s.groups.filter (·.2.exiting)).map (·.2.gang)).eraseDups
  gangs.foldl (fun (s : State) k =>
    let ms := s.gangMembers k
    if ms.all fun e => s.empty e.1 e.2 then
      ms.foldl (fun (s : State) e => (s.dropGroup e.1).modItem e.2.item fun i => { i with groupsLeft := i.groupsLeft - 1 }) s
    else s) s

/-- A returned charge ends with the last operation started under it (R325). -/
def State.endCharges (s : State) : State :=
  let runs (c : Charge) : Bool := (s.jobs.any (·.charge == c.id)) || s.groups.any fun e => match e.2.loop with | some l => l.charge == c.id | none => false
  { s with charges := s.charges.filter fun c => !c.ended || runs c }

/-- Ready tasks enter deques, and deques take spilled entries back (R225, R228). -/
def State.moveDeques (s : State) : State :=
  (s.cores.map (·.1)).foldl (fun (s : State) c => s.refill c) s.feedDeques

/-! ## Commands in progress -/

def State.runOne (s : State) (e : Nat × HostRef × Running) : State :=
  match e.2.2 with
  | .preempt c =>
    let gone := s.frozen c || (s.groups.all fun x => x.2.ctx != c || x.2.res != .resident || x.2.exiting) || (match s.ctx? c with | some C => !C.held | none => true)
    if gone then s.endRunning e.1 1 0 else s
  | .ctxdestroy c => if s.jobs.any (·.ctx == c) then s else (s.dropCtx c).endRunning e.1 1 0
  | .qdestroy k => if s.draining k then s else (s.dropQueue k).endRunning e.1 1 0
  | .quiesce =>
    if ¬ s.stilled then s
    else (s.saveAll.noteLsns.modEdge fun x => { x with quiesced := true }).endRunning e.1 1 0
  | .ckpt true _ => if s.edge.ckpt ∨ ¬ s.stilled then s else s.saveAll.noteLsns.modEdge fun x => { x with ckpt := true }
  | .ckpt false _ => s
  | .restore => s
def State.runCommands (s : State) : State := s.edge.running.foldl (fun (s : State) e => s.runOne e) s

/-- Everything that follows a step at once. `wake`: whether threads that wait for room try again. -/
def State.settle (s : State) (wake : Bool) : State :=
  let s := s.closeAtoms.wakeWaits
  let s := s.wakeRings
  let s := if wake then s.wakeResources else s
  let s := s.wakeWarps
  let s := s.detach.handOvers
  let s := s.reap.endCharges
  let s := s.moveDeques.fillCores
  s.runCommands.serveHeads

end Sys2Proof.Machine
end

