-- ==== Sys2Proof/Machine/Schedule.lean ====
section
/-! DEFINITION. What a step does next: instruction fetch (R255, R256, R453), the formation and the pick of issue groups (R39 to R41,
R55, R56), the order the model takes by itself (log 3), the passing of time, and how a program is placed for one step. -/

namespace Sys2Proof.Machine

/-! ## Fetch (R255, R256, R453) -/

/-- What stands at a program counter. -/
inductive Fetched
  | instr (i : Instr) (len : Nat)
  | trap (t : Trap)
  /-- a page to serve: buffer, page, address -/
  | page (buf pg : Nat) (a : Addr)
  | poison (a : Addr) (sector : Nat)
deriving DecidableEq, Repr

/-- Bytes as an item fetches them: the newest, or those its admission found (R173). -/
def State.fetchBytes (s : State) (item : Nat) (a : Addr) (ps : List Nat) : List Byte :=
  let new := s.gather ps
  match (s.item? item).bind (·.code) with
  | none => new
  | some m =>
    let old := ps.map (memByte m)
    if old = new then new else if Config.fetchOld s.clock item a.toNat then old else new
/-- One parcel, or what its fetch meets. -/
def State.parcel (s : State) (ctx item : Nat) (a : Addr) : Except Fetched Word :=
  match s.port_ ctx (s.renOf item) .fetch a 4 with
  | .ok ps => match s.poisonedIn false ps with
    | some x => .error (.poison a x)
    | none => .ok (BitVec.ofNat 32 (leNat (s.fetchBytes item a ps)))
  | .page buf pg => .error (.page buf pg a)
  | .refused cause need => .error (.trap (portTrap 3 cause need a 0))
  | .remote _ _ => .error (.trap (portTrap 3 0x10 0 a 0))
/-- The parcels that the first one's length names; those beyond it read 0. -/
def State.parcels (s : State) (ctx item : Nat) (pc : Addr) : Except Fetched (Word × Word × Word) :=
  match s.parcel ctx item pc with
  | .error e => .error e
  | .ok p0 =>
    if parcelsOf p0 ≤ 1 then .ok (p0, 0, 0)
    else match s.parcel ctx item (addOff pc 4) with
      | .error e => .error e
      | .ok p1 =>
        if parcelsOf p0 ≤ 2 then .ok (p0, p1, 0)
        else match s.parcel ctx item (addOff pc 8) with
          | .error e => .error e
          | .ok p2 => .ok (p0, p1, p2)
/-- Stages 1 and 2 at a program counter. -/
noncomputable def State.fetch (s : State) (ctx item : Nat) (pc : Addr) : Fetched :=
  match s.parcels ctx item pc with
  | .error e => e
  | .ok (p0, p1, p2) => match decode (pc.getLsbD 2) p0 p1 p2 with
    | .ok i => .instr i (4 * parcelsOf p0)
    | .error (.reason n) => .trap { cause := 0x01, arg := n }

/-! ## Busy operands (R174) -/

/-- What an access will write: registers, planar tags from 256, predicates from 512. -/
def AccKind.dests : AccKind → List Nat
  | .load w _ d _ _ => (List.range (match w with | .b16 => 4 | .b8 => 2 | _ => 1)).map (d + ·)
  | .atom op ty _ _ ret pd _ _ =>
    (match ret with | some d => (List.range (if ty.is64 then 2 else 1)).map (d + ·) | none => []) ++ (if op = .cas then [512 + pd] else [])
  | .ldp _ _ _ d => [d, 256 + d]
  | .prf _ _ _ d pd => [d, 256 + d, 512 + pd]
  | .deliver d _ pd _ => [d, d + 1, 512 + pd]
  | .pst _ _ _ _ _ _ pd | .hitch _ _ _ _ _ _ pd | .hclr _ _ pd => [512 + pd]
  | _ => []
/-- What a thread's pending accesses will write. -/
def State.busy (s : State) (g t : Nat) : List Nat :=
  (s.accesses.filter fun a => a.owners.contains (g, t) && !a.parts.isEmpty).flatMap (·.kind.dests)
/-- What an instruction reads or writes in a thread, numbered so. -/
def usesOf (op : Nat) (f : Full) : List Nat :=
  let guard := if f.g = 7 then [] else [512 + f.g.toNat]
  match shapeOf op f.s f.ext.toNat with
  | none => guard
  | some sh =>
    let regs := (opRefs sh f).flatMap fun o =>
      if o.num < 0xC0 then (List.range o.count).map (o.num + ·) ++ (if o.tagged then [256 + o.num] else []) else []
    let pd := if sh.pd = .none ∨ f.pd = 7 then [] else [512 + f.pd.toNat]
    let preds :=
      if 0x082 ≤ op ∧ op ≤ 0x085 then [512 + f.a.toNat]
      else if op = 0x099 ∧ f.s then (List.range 7).map (512 + ·)
      else if 0x095 ≤ op ∧ op ≤ 0x099 then [512 + f.a.toNat] ++ (match f.b with | .num n => [512 + n.toNat] | _ => [])
      else []
    guard ++ regs ++ pd ++ preds
/-- Whether an opcode's issue group comes from one group (R40, R309). -/
def crossOf (op : Nat) (f : Full) : Bool := match shapeOf op f.s f.ext.toNat with | some sh => sh.cross | none => false
/-- The full forms an instruction stands for. -/
def formsOf (i : Instr) : List (Nat × Full) :=
  match fullOf i with
  | some x => [x]
  | none => match compactOf i with
    | some w => [w.full]
    | none => match i with
      | .compactPair x y => [x.full, y.full]
      | _ => []
def Fetched.uses : Fetched → List Nat
  | .instr i _ => (formsOf i).flatMap fun x => usesOf x.1 x.2
  | _ => []
def Fetched.cross : Fetched → Bool
  | .instr i _ => (formsOf i).any fun x => crossOf x.1 x.2
  | _ => false

/-! ## Entries and picks (R39 to R41, R55, R56) -/

/-- Threads of a core's active set that wait for nothing: group, thread and their states. -/
def State.ableOn (s : State) (core : Nat) : List Ref :=
  (s.activeOn core).flatMap fun e =>
    if e.2.exiting || s.frozen e.2.ctx then [] else (e.2.live.filter (·.2.able)).map fun x => ⟨e.1, x.1, e.2, x.2⟩
def Ref.key (r : Ref) : Nat × Addr := (r.G.item, r.T.pc)
/-- Whether x has been ready longer than y, the lower slot and lane first among equals. -/
def Ref.older (x y : Ref) : Bool :=
  decide (x.T.readySince < y.T.readySince) || (x.T.readySince == y.T.readySince &&
    (decide (x.T.slot < y.T.slot) || (x.T.slot == y.T.slot && decide (x.T.lane < y.T.lane))))
def oldest : List Ref → Option Ref
  | [] => none
  | r :: rs => match oldest rs with
    | none => some r
    | some x => some (if x.older r then x else r)

/-- The ready threads at one PC of one launch. -/
structure Entry256 where
  item : Nat
  pc : Addr
  what : Fetched
  refs : List Ref
deriving DecidableEq, Repr
def Entry256.key (e : Entry256) : Nat × Addr := (e.item, e.pc)
/-- Whether two threads were released together and issue together (R46, R52). -/
def Thread.tied (T U : Thread) : Bool := (T.synced.isSome && T.synced == U.synced) || (T.joined.isSome && T.joined == U.joined)
/-- The ready threads of a core by their PCs: those whose next instruction finds its operands (R39); of threads released together all or
none (R46, R52). -/
noncomputable def State.readyOn (s : State) (core : Nat) : List Entry256 :=
  let rs := s.ableOn core
  ((rs.map Ref.key).eraseDups).filterMap fun k =>
    match rs.filter (·.key == k) with
    | [] => none
    | r :: l =>
      let what := s.fetch r.G.ctx k.1 k.2
      let can := (r :: l).filter fun r => let b := s.busy r.g r.t; what.uses.all fun x => !b.contains x
      let can := can.filter fun r => r.G.threads.all fun x => !r.T.tied x.2 || can.any fun q => q.g == r.g && q.t == x.1
      if can = [] then none else some ⟨k.1, k.2, what, can⟩
/-- The keys in order of arrival: those known, then new ones by the wait of their oldest thread (R39). -/
def arrivals (known : List (Nat × Addr)) (es : List Entry256) : List Entry256 :=
  let age (e : Entry256) : Nat := ((oldest e.refs).map (·.T.readySince)).getD 0
  known.filterMap (fun k => es.find? (·.key == k))
    ++ (Map.sortBy (fun a b => decide (a.1 ≤ b.1)) ((es.filter fun e => !known.contains e.key).map fun e => (age e, e))).map (·.2)
/-- The entries of a core's PC hash table: 256, the others waiting in the overflow list (R39). -/
noncomputable def State.entries (s : State) (core : Nat) : List Entry256 := (arrivals (s.core core).pcs (s.readyOn core)).take 256
/-- Which threads are ready, since when, and the order of the keys, as a step leaves them (R39, R40). -/
noncomputable def State.markCore (s : State) (core : Nat) : State :=
  let es := arrivals (s.core core).pcs (s.readyOn core)
  let rs := es.flatMap (·.refs)
  let mark (g t : Nat) (T : Thread) : Thread :=
    let now := rs.any fun r => r.g == g && r.t == t
    { T with ready := now, readySince := if now && !T.ready then s.clock else T.readySince }
  ({ s with groups := s.groups.map fun (e : Nat × Group) =>
      if e.2.core = core then (e.1, { e.2 with threads := e.2.threads.map fun (x : Nat × Thread) => (x.1, mark e.1 x.1 x.2) }) else e }).modCore core
    fun C => { C with pcs := es.map Entry256.key }
noncomputable def State.markReady (s : State) : State :=
  (((s.groups.map fun (e : Nat × Group) => e.2.core) ++ (s.cores.filter fun e => !e.2.pcs.isEmpty).map (·.1)).eraseDups).foldl
    (fun (s : State) c => s.markCore c) s
/-- The thread an entry's pick is led by: its starved thread that waited longest, else its oldest. -/
def Entry256.lead (e : Entry256) : Option Ref :=
  match oldest (e.refs.filter (·.T.starved)) with
  | some r => some r
  | none => oldest e.refs
def Entry256.starved (e : Entry256) : Bool := e.refs.any (·.T.starved)
def Entry256.fair (e : Entry256) : Bool := e.refs.any (·.G.fair)
/-- Whether a fair thread has waited half of the 8 F cycles within which it issues (R57): no entry without fairness goes before it (log 71). -/
def Entry256.pressing (e : Entry256) (now : Nat) : Bool := e.refs.any fun r => r.G.fair && decide (r.T.readySince + 4 * r.G.fint ≤ now)
/-- The issue group of an entry: threads released from a `wsync` issue alone (R46), those of a `join` in one pick, whose other lanes
are chosen as ever (R40, R52). -/
def Entry256.group (e : Entry256) : List Ref :=
  match e.lead with
  | none => []
  | some l =>
    let cs := e.refs.filter fun r => decide (r.T.synced = l.T.synced) && (!e.what.cross || r.g == l.g)
    (List.range 32).filterMap fun k =>
      let mine := cs.filter (·.T.lane == k)
      if k = l.T.lane then some l
      else match mine.find? (·.T.tied l.T) with
        | some r => some r
        | none => oldest (mine.filter (·.T.joined.isNone))
/-- Whether x goes before y by the starvation order and the yield rule: `Nat` classes, the lower first. -/
def Entry256.rank (C : Core) (e : Entry256) : Nat := if e.starved then 0 else if C.yielded.contains e.key then 2 else 1
/-- Whether a core may pick an entry now: two a cycle from distinct entries, by R55, R56 and the order of fair entries. -/
def mayPick (C : Core) (now : Nat) (es : List Entry256) (e : Entry256) : Bool :=
  let cycle := if C.issuedAt = now then C.issued else []
  let rest := es.filter fun x => !cycle.contains x.key
  let head (x : Entry256) : Option Ref := if e.starved then x.lead else oldest x.refs
  let before (x : Entry256) : Bool := match head x, head e with
    | some a, some b => decide (a.T.readySince < b.T.readySince)
    | _, _ => false
  decide (cycle.length < 2) && rest.any (·.key == e.key) &&
    rest.all fun x => decide (x.rank C > e.rank C) || (x.rank C == e.rank C &&
      !(before x && (e.starved || (x.fair && e.fair))) && !(!e.starved && x.pressing now && !e.fair))
/-- The pick: the core's note of the cycle, and the yielded entries it passed. -/
def State.picked (s : State) (core : Nat) (k : Nat × Addr) : State :=
  s.modCore core fun C => { C with yielded := [], issuedAt := s.clock, issued := if C.issuedAt = s.clock then k :: C.issued else [k] }

/-! ## The issue of an entry -/

/-- What a step has to do: a state, or an instruction to execute in a state. -/
inductive Turn
  | done (s : State)
  | run (s : State) (i : Instr)
deriving DecidableEq, Repr

/-- An entry issues: its instruction, or what its fetch met (R453, R466, R476). -/
def State.issueEntry (s : State) (core : Nat) (e : Entry256) : Turn :=
  let s := s.picked core e.key
  let rs := e.group
  match e.what with
  | .instr i len => .run { s with issue := some { core := core, refs := rs.map fun r => (r.g, r.t), pc := e.pc, len := len } } i
  | .trap t => .done (s.deliver (rs.map fun r => (r.g, r.t, t)))
  | .page buf pg a => match rs with
    | [] => .done s
    | r :: _ =>
      let (id, s) := s.startPage r.G.ctx buf pg
      .done (rs.foldl (fun (s : State) r => s.waitOn r.g r.t (.page id 3 a.toNat)) s)
  | .poison a x => match rs with
    | [] => .done s
    | r :: _ => .done (s.poisonKill r.G.ctx a x)
/-! ## Time -/

/-- Cycles pass for every group; the watchdog counts readiness in the active set of contexts that run and wait for no leave (R441). -/
def State.elapse (s : State) (dt : Nat) : State :=
  if dt = 0 then s
  else
    let waits (c : Nat) : Bool := s.leaves.any fun q => match s.group? q.grp with | some G => G.ctx == c | none => false
    let s' := s.pass dt
    { s' with groups := s'.groups.map fun e =>
      (e.1, e.2.pass s'.clock dt (e.2.active && e.2.res == .resident && s.runs e.2.ctx && !waits e.2.ctx)) }
/-- The entries a core may pick now. -/
noncomputable def State.picks (s : State) (core : Nat) : List Entry256 :=
  let es := s.entries core
  es.filter (mayPick (s.core core) s.clock es)

/-- What must issue before the cycle ends: a core with an entry that can start issues one, and further ones while they are starved (R57). -/
noncomputable def State.mustIssue (s : State) (core : Nat) : List Entry256 :=
  let C := s.core core
  (s.picks core).filter fun e => e.starved || !(C.issuedAt == s.clock && !C.issued.isEmpty)

/-! ## The order the model takes by itself (log 3) -/

/-- The next step of an access. -/
def Access.steps (a : Access) : List Instr :=
  match a.remote, a.kind with
  | some _, _ => [.remoteAccessTimeout a.id]
  | none, .load .. | none, .ldp .. | none, .prf .. | none, .actld .. | none, .image .. | none, .deliver .. => [.loadDataReturn a.id]
  | none, .hitch .. => [.hitchRegistered a.id]
  | none, _ => [.storePlaced a.id .fits]
def Group.steps (g : Nat) (G : Group) : List Instr :=
  (G.tileOps.map fun o => .tileOpComplete o.id) ++ (if G.loop.isSome then [.matrixLoopStep g, .matrixLoopEnd g] else [])
    ++ (G.slots.flatMap fun x => [.hitchPushLand g x.1, .unhitchConfirm g x.1])
    ++ (G.threads.flatMap fun x => match x.2.wait with
      | .on (.line ..) _ _ => [.tawaitWake g x.1]
      | .on (.ended ..) _ _ => [.spawnRecordWrite g x.1]
      | .on .. => []
      | _ => [.threadStarved g x.1])
    ++ (((G.live.map (·.2.warp)).eraseDups).flatMap fun w => [.progressWatchdog g w, .joinDeadlock g w])
    ++ (((G.recs.map (·.pc)).eraseDups).map fun pc => .spliceRelease g pc)
    ++ [.forcedSave g, .leaveGrant g] ++ ((List.range 3).map fun k => .leaveTimeout g (k + 1))
    ++ (G.leases.map fun l => .leaseExpiry g l.1) ++ [.activeSetTrade g, .requeue g]
def Job.steps (j : Job) : List Instr :=
  .itemAdmit (.job j.id) :: (j.units.map fun u => .engineSectorLand j.id u) ++ [.remoteAccessTimeout j.id, .engineJobComplete j.id]
/-- Where an item's next gang would go: from the core of its task, or on the first core where it fits. -/
def State.coresFor (s : State) (it : Item) : Option (List Nat) :=
  if ¬ s.offers it then none
  else (if it.kind = .task then [it.core] else List.range 512).findSome? fun c =>
    if s.mayPlace it c then (s.placeOn it c).filter fun l => it.kind == .task || l.head? == some c else none
/-- The steals to try: of each deque, by the first core of each die that holds no task. -/
def State.stealSteps (s : State) : List Instr :=
  (s.cores.filter fun e => !e.2.deque.isEmpty).flatMap fun e => (List.range 8).filterMap fun d =>
    (((List.range 64).map (64 * d + ·)).find? fun c => c != e.1 && (s.core c).deque.isEmpty && !(s.core c).retired).map fun c => .taskSteal c e.1
def State.itemSteps (s : State) (it : Item) : List Instr :=
  [.itemComplete it.id, .relaunchSelectionDone it.id, .relaunchContinueTimeout it.id]
    ++ (match s.coresFor it with | some l => [.gangPlace it.id l] | none => [])
def queueSteps (q : Nat) : List Instr :=
  [.queueTailPush q, .launchCommand q, .relaunchCommand q, .planemap q, .bufmap q, .share q, .ctxcreate q, .ctxdestroy q, .qcreate q,
   .qdestroy q, .preempt q, .resume q, .poolAdd q, .poolReport q, .ckpt q, .attest q, .quiesce q, .release q]
/-- The steps of the device's own that may be due, in the order in which the model tries them. -/
noncomputable def State.due (s : State) : List Instr :=
  (s.accesses.flatMap Access.steps) ++ (s.groups.flatMap fun e => Group.steps e.1 e.2) ++ (s.jobs.flatMap Job.steps)
    ++ (s.items.flatMap s.itemSteps) ++ s.stealSteps ++ (s.hwq.map fun e => .itemAdmit (.queue e.1)) ++ (s.queues.flatMap fun e => queueSteps e.1)
    ++ (s.port.services.flatMap fun v => [.pageServiceComplete v.id .walker, .pageServiceTimeout v.id])
    ++ (s.port.repack.map .repackComplete) ++ (s.port.stalls.flatMap fun e => [.overflowHoldTimeout e.1, .overflowHoldKill e.1])
    ++ (s.port.snoops.map fun x => .snoopTimeout x.line) ++ (s.ctxs.map fun c => .oromelPolicyKill c.1)
    ++ (if s.edge.ckpt then [.ckptStreamEnd] else [])
/-- Whether a step would log an event behind one of its cycle that R436 takes after it. -/
def misordered (s t : State) : Bool :=
  decide (s.edge.seq < t.edge.seq) && s.edge.logged.1 == s.clock && decide (t.edge.logged.2 < s.edge.logged.2)
/-- Whether a step can be the next of this cycle: the events of one cycle are logged in order of class, unit and unit number (R436). -/
def inOrder (ex : Instr → State → Host.Outcome State Fault Refusal) (s : State) (i : Instr) : Bool :=
  match ex i s with
  | .next t => !misordered s t
  | _ => true
/-- Whether a step does something in a state. -/
def moves (ex : Instr → State → Host.Outcome State Fault Refusal) (s : State) (i : Instr) : Bool :=
  match ex i s with
  | .next t => decide (t ≠ s) && !misordered s t
  | _ => true
/-- The issue the model takes by itself: the oldest thread's entry among those that must issue. -/
noncomputable def State.ownPick (s : State) : Option (Nat × Entry256) :=
  let cs := (s.groups.map fun (e : Nat × Group) => e.2.core).eraseDups
  let l := cs.flatMap fun c => (s.mustIssue c).map fun e => (c, e)
  l.foldl (fun (m : Option (Nat × Entry256)) x => match m with
    | none => some x
    | some y => match y.2.lead, x.2.lead with
      | some a, some b => if b.T.readySince < a.T.readySince then some x else m
      | _, _ => m) none
/-- The cycle goes on to its end: what must issue issues, else a cycle passes (R57). -/
noncomputable def State.tick (s after : State) : Turn :=
  match s.ownPick with
  | some (c, e) => s.issueEntry c e
  | none => .done (after.elapse 1)
/-- Without an agenda: a step of the device that does something, else the cycle goes on. -/
noncomputable def State.ownTurn (ex : Instr → State → Host.Outcome State Fault Refusal) (s : State) : Turn :=
  match s.due.find? (moves ex s) with
  | some i => .run s i
  | none => s.tick s
/-- What the next step does: the agenda's head, once its cycles have passed one by one, or the model's own order. -/
noncomputable def State.turn_ (ex : Instr → State → Host.Outcome State Fault Refusal) (s : State) : Turn :=
  match s.agenda with
  | [] => s.ownTurn ex
  | .event (dt + 1) i :: r => s.tick { s with agenda := .event dt i :: r }
  | .issue (dt + 1) core item pc :: r => s.tick { s with agenda := .issue dt core item pc :: r }
  | .event 0 i :: r => let s := { s with agenda := r }; if inOrder ex s i then .run s i else .done s
  | .issue 0 core item pc :: r =>
    let s := { s with agenda := r }
    match (s.picks core).find? fun e => e.key == (item, pc) with
    | some e => s.issueEntry core e
    | none => .done s
/-- The end of a step. An issue that left all its threads waiting for room wakes no other that waits for room. -/
noncomputable def State.close (s : State) (ran : Bool) : State :=
  let stuck : Bool := match s.issue with
    | none => false
    | some is => is.refs.all fun e => match s.thread? e.1 e.2 with
      | some T => (match T.wait with | .on .resource _ _ => true | _ => false)
      | none => false
  (({ s with issue := none }).settle (ran && !stuck)).markReady

/-! ## A program placed for one step -/

/-- A machine whose next step issues what stands in some bytes: a context with one buffer that holds them, and a group of one live
thread at their start, on a core of its own. -/
def State.withCode (s : State) (bytes : List Byte) : State :=
  let ctx := ((List.range 64).find? fun c => (s.ctx? c).isNone).getD 0
  let core := ((List.range 512).find? fun c => s.groups.all fun e => e.2.core != c).getD 0
  let code := 0x20000
  let table := 0x10000
  let entry := leBytes 8 code ++ leBytes 8 4096 ++ leBytes 1 0x1F ++ leBytes 1 ctx ++ leBytes 2 1 ++ leBytes 4 4 ++ leBytes 8 (2 ^ 44 - 1)
    ++ List.replicate 32 0
  let pc := mkAddr 1 0
  let c : Ctx := { desc := 0, btab := table, btlen := 2, svc := 0, podctx := 0, sched := 20 * 2 ^ 24 + 20000, lquota := 0, evs := 0, pdir := 0,
                   pdlen := 0, hspa := 0, hspn := 0, tqsa := 0, tqsn := 0, spbase := 0, spsize := 0, svbase := 0, svsize := 0, lsn := 1 }
  let r : LaunchRec := { entry := pc, ngroups := 1, nreg := 192, tagcnt := 64, twctx := 4 }
  let item := s.next
  let it : Item := { id := item, ctx := ctx, kind := .launch, addr := 0, lr := r, lsn := 1, fp := [], edges := [], anc := [], nextGang := 1,
                     groupsLeft := 1, code := some (memWrite (memWrite s.mem table (List.replicate 64 0 ++ entry)) code bytes) }
  let G : Group := { ctx := ctx, item := item, gidx := 0, grank := 0, gang := item + 1, core := core, role := .general, lr := r, lsn := 1,
                     tslots := [0], active := true, placed := item + 1, sched := sched0 r, threads := [(0, { pc := pc, readySince := s.clock })] }
  { s with
    mem := memWrite (memWrite s.mem table (List.replicate 64 0 ++ entry)) code bytes,
    ctxs := Map.set s.ctxs ctx c, items := s.items ++ [it], groups := Map.set s.groups (item + 1) G,
    cores := Map.erase s.cores core, next := item + 2, agenda := [.issue 0 core item pc], issue := none, absent := none }

end Sys2Proof.Machine
end

