-- ==== Sys2Proof/Machine/Step.lean ====
section
/-! DEFINITION. One step of the device: who moves is chosen (Schedule), the step or the instruction has its effect (Dispatch), and
what follows at once follows (Settle). -/

namespace Sys2Proof.Machine

noncomputable def step (s : State) : Host.Outcome State Fault Refusal :=
  match s.turn_ exec with
  | .done t => finish (t.close false)
  | .run t i =>
    match exec i t with
    | .next u => finish (u.close true)
    | .fault e => .fault e
    | .refused r => .refused r

/-- The instruction whose bits are w, its parcels in the order of the hardware, stored where the next step fetches. -/
def State.withFetchWord (s : State) (nbits w : Nat) : State := s.withCode (leBytes 12 (w % 2 ^ nbits))

end Sys2Proof.Machine
end

