-- ==== Sys2Proof/Safety.lean ====
section
/-! DEFINITION. What counts as a safe run, and the terms in which the statements speak of one instruction over an issue group. -/

namespace Sys2Proof.Machine

/-- A run of n steps from s meets neither a fault nor a refusal. -/
def Safe : Nat → State → Prop
  | 0, _ => True
  | n + 1, s => ∃ t, step s = .next t ∧ Safe n t

/-! ## One instruction over an issue group -/

/-- The issue group in flight: its threads exist, are named once, and are `rs` as they stand; no absent memory was touched. -/
structure Issued (s : State) (is : Issue) (rs : List Ref) : Prop where
  issue : s.issue = some is
  refs : s.refsOf is = rs
  whole : rs.length = is.refs.length
  once : is.refs.Nodup
  present : s.absent = none

/-- Every thread passes the checks of stages 2 to 5: an assigned opcode, operands that exist, a role that permits the class, and
no poisoned register (R449, R453). -/
def Admits (op : Nat) (f : Full) (rs : List Ref) : Prop :=
  ∃ sh, shapeOf op f.s f.ext.toNat = some sh ∧
    ∀ r ∈ rs, badOperand sh f op r.G.lr.nreg = none ∧ r.G.role.permits sh.cls = true ∧ r.T.poison = []

/-- The threads whose guard holds, which are those that execute (R267). -/
def executing (f : Full) (rs : List Ref) : List Ref := rs.filter fun r => r.T.guard f.g f.gn

/-- The thread's counters have room for what the instruction starts (R331). -/
def HasRoom (r : Ref) (res : TRes) : Prop := r.T.ld + res.lds ≤ 63 ∧ r.T.st + res.sts ≤ 63 ∧ r.T.cp + res.cp ≤ 63

/-- A thread after an instruction of len bytes: its writes and counts, and the next PC; a thread whose guard is false only
moves on; one that loads from a peer waits for the answer. -/
def Thread.after (T : Thread) (now len : Nat) : Option TRes → Thread
  | none => T.goTo (addOff T.pc len) now
  | some res =>
    let q := res.now
    let U := ((T.setRegs q.regs).setTags q.tags).setPreds q.preds
    let V := { U with ld := U.ld + res.lds, st := U.st + res.sts, cp := U.cp + res.cp }
    let next := res.pc.getD (addOff T.pc len)
    if res.precise then V.waitOn (.answer next res.late) now 0 else V.goTo next now

/-- The flags, and the causes of volatility, that the threads of one group raise together (R159, R199). -/
def raised (rs : List Ref) (ran : Ref → Option TRes) (g : Nat) : Nat :=
  rs.foldl (fun x r => if r.g = g then match ran r with | some res => x ||| (res.now.flags &&& 63) | none => x else x) 0
def stirred (vol : Nat) (rs : List Ref) (ran : Ref → Option TRes) (g : Nat) : Nat :=
  rs.foldl (fun x r => if r.g = g then match ran r with | some res => x ||| (res.vol ||| vol) | none => x else x) 0
/-- Reading `$clock` or `$lsn` as an operand is volatility cause 1 (R199). -/
def clockVol (op : Nat) (f : Full) : Nat := if readsClock op f then 2 else 0
/-- The groups of threads whose operands were read: the volatility of reading the clock stands, whatever came of it (R199). -/
def stir (vol : Nat) (s : State) (rs : List Ref) : State := rs.foldl (fun s r => s.volAt r.g vol) s
/-- The accesses that the threads start, in ascending order of their lanes (R331). -/
def started (s : State) (order : Nat) (rs : List Ref) (ran : Ref → Option TRes) : List Access :=
  let l := rs.flatMap fun r => match ran r with | some res => res.accs.map fun a => (r, a) | none => []
  (List.range l.length).zip l |>.map fun e =>
    { id := s.next + e.1, order := order, grp := e.2.1.g, tid := e.2.1.t, lane := e.2.1.T.lane, kind := e.2.2.kind, parts := e.2.2.parts,
      remote := e.2.2.remote }

/-- From s to t exactly the threads of an issue group moved on: `ran` gives what each did, none where its guard was false; `vol`
are the causes of volatility that all who ran have in common.
Everything else stands: other threads, every other field of their groups, memory, and the rest of the device. -/
structure Advances (vol : Nat) (s t : State) (is : Issue) (order : Nat) (rs : List Ref) (ran : Ref → Option TRes) : Prop where
  threads : ∀ r ∈ rs, t.thread? r.g r.t = (s.thread? r.g r.t).map fun T => T.after s.clock is.len (ran r)
  others : ∀ g k, (∀ r ∈ rs, ¬ (r.g = g ∧ r.t = k)) → t.thread? g k = s.thread? g k
  groups : ∀ g G, s.group? g = some G → ∃ G', t.group? g = some G' ∧
    ({ G' with threads := G.threads } : Group) = { G with
      fstat := G.fstat ||| raised rs ran g
      trace := G.trace.map fun (x : Trace) => { x with vcause := x.vcause ||| stirred vol rs ran g } }
  noMore : ∀ g, s.group? g = none → t.group? g = none
  accesses : t.accesses = s.accesses ++ started s order rs ran
  rest : ({ t with groups := s.groups, accesses := s.accesses, next := s.next } : State) = s

/-- An instruction that each thread executes by itself: for every issue group that passes the checks, whose executing threads meet
`ok` and have room, it answers a next state, in which each executing thread has what `res` says. -/
def EachDoes (i : Instr) (op : Nat) (f : Full) (ok : State → List Ref → Ref → Prop) (res : State → List Ref → Ref → TRes) : Prop :=
  ∀ s is rs, Issued s is rs → Admits op f rs →
    (∀ r ∈ executing f rs, ok s (executing f rs) r ∧ HasRoom r (res s (executing f rs) r)) →
    ∃ t, Sys2Proof.Machine.exec i s = .next t ∧ Advances (clockVol op f) s t is s.next rs fun r =>
      if r.T.guard f.g f.gn then some (res s (executing f rs) r) else none

/-- No condition. -/
def always (_ : State) (_ : List Ref) (_ : Ref) : Prop := True
/-- An instruction whose result in a thread depends on that thread alone, whatever its operands hold. -/
def EachGives (i : Instr) (op : Nat) (f : Full) (res : State → Ref → TRes) : Prop := EachDoes i op f always fun s _ r => res s r

/-- The state once the threads whose guard is false have moved on: s itself where every guard holds (R267). -/
def moved (f : Full) (s : State) (is : Issue) (rs : List Ref) : State :=
  (rs.filter fun r => !(r.T.guard f.g f.gn)).foldl (fun s r => s.skipTo r.g r.t is.len) s
/-- An instruction whose effect reaches beyond its threads COMPLETES: for every issue group that passes the checks, whose executing
threads meet `ok` and have room, it answers a next state, in which `eff` took effect and each executing thread moved on with `res`. -/
def AllDo (i : Instr) (op : Nat) (f : Full) (ok : State → List Ref → Prop) (eff : State → List Ref → State)
    (res : State → List Ref → Ref → TRes) : Prop :=
  ∀ s is rs, Issued s is rs → Admits op f rs →
    let u := moved f s is rs
    let xs := executing f rs
    ok u xs → (∀ r ∈ xs, HasRoom r (res u xs r)) →
    ∃ t, Sys2Proof.Machine.exec i s = .next t ∧ Advances (clockVol op f) (eff u xs) t is s.next xs fun r => some (res u xs r)
/-- What a thread finds when the lower lanes have had their effects. -/
def before (eff : State → Ref → State) (s : State) (rs : List Ref) (r : Ref) : State := (rs.takeWhile (· ≠ r)).foldl eff s
/-- An instruction whose threads act in turn, in ascending lane order, each on the state that the lower lanes leave, COMPLETES. -/
def TurnDo (i : Instr) (op : Nat) (f : Full) (ok : State → Ref → Prop) (eff : State → Ref → State) (res : State → Ref → TRes) : Prop :=
  AllDo i op f (fun s rs => ∀ r ∈ rs, ok (before eff s rs r) r) (fun s rs => rs.foldl eff s) fun s rs r => res (before eff s rs r) r

/-- A statement of the full form of an instruction and of its compact form, whose fields the expansion gives (R258, R259). -/
def BothForms (full : Full → Instr) (cop : BitVec 6) (compact : Compact → Instr) (P : Instr → Full → Prop) : Prop :=
  (∀ f, P (full f) f) ∧ ∀ c, P (compact c) (cfull cop c).2

/-- From s to t exactly the threads of an issue group began to wait, and nothing else changed. -/
structure Halts (s t : State) (rs : List Ref) (c : Ref → Cond) : Prop where
  threads : ∀ k r, rs[k]? = some r → t.thread? r.g r.t = (s.thread? r.g r.t).map fun T => T.waitOn (c r) s.clock (s.next + k)
  others : ∀ g k, (∀ r ∈ rs, ¬ (r.g = g ∧ r.t = k)) → t.thread? g k = s.thread? g k
  groups : ∀ g G, s.group? g = some G → ∃ G', t.group? g = some G' ∧ ({ G' with threads := G.threads } : Group) = G
  noMore : ∀ g, s.group? g = none → t.group? g = none
  next : t.next = s.next + rs.length
  rest : ({ t with groups := s.groups, next := s.next } : State) = s

/-- A thread as the entry of its handler leaves it (R430, R432). -/
def Thread.entered (T : Thread) (x : Trap) (back handler : Addr) (lanes : Nat) (now : Nat) : Thread :=
  { T with tcause := BitVec.ofNat 32 (x.cause + 2 ^ 14 * (x.cls % 4) + 2 ^ 16 * (x.arg % 2 ^ 16)), tpc := back, tlanes := BitVec.ofNat 32 lanes,
           taddr := BitVec.ofNat 64 x.addr, hmode := .user, pc := handler, wait := .ready, readySince := now, watched := 0, parked := false,
           synced := none, joined := none, image := none }
/-- Threads whose traps enter at once: in no handler, no delivery of their warp open or held, and the group has a handler (R432, R433). -/
def CanTrap (rs : List Ref) : Prop := ∀ r ∈ rs, r.T.hmode = .none ∧ (r.G.handler ≠ 0 ∨ r.G.lr.handler ≠ 0) ∧
  (∀ d ∈ r.G.open_, d.warp ≠ r.T.warp) ∧ ∀ d ∈ r.G.heldDel, d.warp ≠ r.T.warp
/-- The threads of a thread's group and home warp in its issue group: they enter as one delivery (R433). -/
def mates (rs : List Ref) (r : Ref) : List Ref := rs.filter fun q => q.g = r.g ∧ q.T.warp = r.T.warp
/-- From s to t exactly the threads of an issue group entered their handlers, each with its own trap and return address, one delivery
for each home warp; nothing else changed (R432, R433, R455). -/
structure Enters (s t : State) (rs : List Ref) (trap : Ref → Trap) (back : Ref → Addr) : Prop where
  threads : ∀ r ∈ rs, t.thread? r.g r.t = (s.thread? r.g r.t).map fun T => T.entered (trap r) (back r)
    (if r.G.handler ≠ 0 then r.G.handler else r.G.lr.handler) ((mates rs r).foldl (fun x q => x ||| 2 ^ q.T.lane) 0) s.clock
  others : ∀ g k, (∀ r ∈ rs, ¬ (r.g = g ∧ r.t = k)) → t.thread? g k = s.thread? g k
  groups : ∀ g G, s.group? g = some G → ∃ G' l, t.group? g = some G' ∧ ({ G' with threads := G.threads, open_ := G.open_ } : Group) = G ∧
    G'.open_ = G.open_ ++ l ∧ (∀ r ∈ rs, r.g = g → ∃ d ∈ l, d.warp = r.T.warp) ∧
    ∀ d ∈ l, ∃ r ∈ rs, r.g = g ∧ d.warp = r.T.warp ∧ d.tids = (mates rs r).map (·.t) ∧ d.preempt = false
  noMore : ∀ g, s.group? g = none → t.group? g = none
  rest : ({ t with groups := s.groups } : State) = s

/-- An instruction whose threads all take a trap at it, with nothing of its effect. -/
def TrapsOn (i : Instr) (op : Nat) (f : Full) (bad : State → Ref → Prop) (trap : State → Ref → Trap) : Prop :=
  ∀ s is rs, Issued s is rs → Admits op f rs → executing f rs = rs → CanTrap rs → (∀ r ∈ rs, bad s r) →
    ∃ t, Sys2Proof.Machine.exec i s = .next t ∧ Enters (stir (clockVol op f) s rs) t rs (trap s) fun r => r.T.pc

/-- The lowest thread's effect, of an instruction that acts once for its issue group (R367, R378). -/
def onLowest (s : State) (rs : List Ref) (act : Ref → State) : State := match rs.head? with | some lo => act lo | none => s
/-- A matrix instruction may have its effect: its tiles and accumulators are granted, no earlier operation of the group and no loop on
the core's engine stands in the way, and no thread holds a fault of an accumulator it names (R378, R379, R467). -/
def mayUse (u : MUse) (s : State) (rs : List Ref) : Prop := ∀ lo, rs.head? = some lo →
  u.denied lo.G = false ∧ s.matBusy lo.g u = false ∧ ∀ r ∈ rs, ∀ h ∈ r.T.held, ∀ a, h.acc = some a → a ∉ u.ra ∧ a ∉ u.wa

/-! ## Results -/

/-- `put` into D, of an integer, with the clamp of `.sat`, of a bit pattern; a predicate; a floating pattern with its flags. -/
def gives (f : Full) (x : Int) : TRes := { regs := putI f.ty f.d.toNat x }
def givesSat (f : Full) (x : Int) : TRes := gives f (if f.mod.getLsbD 2 then clampI x (minVal f.ty) (maxVal f.ty) else x)
def givesBits (f : Full) (p : Nat) : TRes := { regs := wrTy f.ty f.d.toNat p }
def givesPair (f : Full) (p : Nat) : TRes := { regs := wr2 f.d.toNat p }
def givesWord (f : Full) (p : Nat) : TRes := { regs := wr1 f.d.toNat p }
def givesPred (f : Full) (b : Bool) : TRes := { preds := [(f.pd.toNat, b)] }
def givesFloat (f : Full) (x : Nat × Flg) : TRes := { regs := wrTy f.ty f.d.toNat x.1, flags := x.2 }
/-- A value from a lane of the tile, with `PD` saying whether it came from one; else the thread's own (R297). -/
def givesFrom (f : Full) (s : State) (xs : List Ref) (r : Ref) (src : Option Nat) : TRes :=
  match src.bind fun j => (tileOf xs r).find? (·.T.lane == j) with
  | some q => { givesBits f (s.pa q f) with preds := [(f.pd.toNat, true)] }
  | none => { givesBits f (s.pa r f) with preds := [(f.pd.toNat, false)] }

/-! ## The device's own steps -/

/-- A step answers a state of which P holds. -/
def Gives (i : Instr) (s : State) (P : State → Prop) : Prop := ∃ t, Sys2Proof.Machine.exec i s = .next t ∧ P t
/-- A thread but for what it waits for. -/
def Thread.still (T : Thread) : Thread := { T with wait := .ready, readySince := 0 }
/-- From s to t no other thread than k of group g changed, but for the end of its wait. -/
def OthersStay (s t : State) (g k : Nat) : Prop := ∀ g' k', (g', k') ≠ (g, k) → (t.thread? g' k').map Thread.still = (s.thread? g' k').map Thread.still
/-- No thread changed, but for the end of its wait. -/
def ThreadsStay (s t : State) : Prop := ∀ g k, (t.thread? g k).map Thread.still = (s.thread? g k).map Thread.still
/-- A byte of a memory in which cells were written, the later of two at one address standing. -/
def written (m : List Host.Cell) (cells : List (Nat × Byte)) (x : Nat) : Byte :=
  match cells.reverse.find? (·.1 == x) with | some e => e.2 | none => memByte m x
/-- Memory after a write of cells and of nothing else. -/
def Holds (s t : State) (cells : List (Nat × Byte)) : Prop := Memory.wf t.mem = true ∧ ∀ x, memByte t.mem x = written s.mem cells x
/-- An access whose next event may come: it is pending, of a standing thread, in its turn, and nothing absent was touched. -/
structure Due (s : State) (a : Access) (G : Group) (T : Thread) : Prop where
  here : s.access? a.id = some a
  group : s.group? a.grp = some G
  thread : s.thread? a.grp a.tid = some T
  turn : s.turn a = true
  present : s.absent = none
/-- Bytes the port grants, all of them in memory, and none poisoned (R86, R476). -/
def Reaches (s : State) (ctx : Nat) (ren : List Rename) (k : PKind) (addr : Addr) (len : Nat) (ps : List Nat) : Prop :=
  s.port_ ctx ren k addr len = .ok ps ∧ (∀ p ∈ ps, p < memSize) ∧ s.port.poison = []
/-- No entry of a hitch table is spilled: a write brings none back, and moves none to its spill area (R217). -/
def Unspilled (s : State) : Prop := ∀ e ∈ s.port.table, e.spill = none
/-- A write of these bytes of a buffer stamps nothing, leaves the buffer's entry alone (R194), and moves no hitch entry (R217). -/
def Plain (s : State) (ctx : Nat) (lsn : Option Nat) (addr : Addr) (ps : List Nat) : Prop := Unspilled s ∧ (lsn = none ∨ ∀ c, s.ctx? ctx = some c →
  (s.buf c (bufOf addr)).stamp = false ∧ ∀ p ∈ ps, p < c.btab + 64 * bufOf addr ∨ c.btab + 64 * bufOf addr + 64 ≤ p)
/-- None of the bytes lies in a compressed page, where a write might not fit (R104). -/
def Roomy (s : State) (ps : List Nat) : Prop := ∀ p ∈ ps, p / 65536 ∉ s.port.packed
/-- The error log stands in memory that exists, and no counter is about to wrap (R436). -/
structure LogFits (s : State) : Prop where
  present : s.absent = none
  fits : s.edge.elbase + 64 * s.edge.elsize ≤ memSize
  canon : Memory.wf s.mem = true
  count : ∀ c, Map.getD s.edge.ecnt 0 c + 1 < 2 ^ 64
/-- The 64 bytes of an error record, as R435 lays them out. -/
def recordBytes (s : State) (r : ErrRec) : List Byte :=
  [leBytes 1 r.cls, leBytes 1 r.sev, leBytes 1 r.ctx, leBytes 1 r.rfl, leBytes 2 r.unit, leBytes 2 r.unitNo, leBytes 8 r.ppage, leBytes 1 r.stack,
    leBytes 1 r.chan, leBytes 1 r.bank, [0], leBytes 4 r.detail, leBytes 8 s.edge.seq, leBytes 8 (Map.getD s.edge.ecnt 0 r.cls + 1), leBytes 8 s.ns,
    leBytes 8 r.addr, leBytes 4 (match s.ctx? r.ctx with | some c => c.lsn | none => 0), [0, 0, 0, 0]].flatten
/-- From s to t one event was logged: its counter and the sequence number rise, the record is written where the ring has a place and is
lost otherwise, and an interrupt is raised unless the Wymbiyn Link is down (R436, R497). -/
structure Logged (s t : State) (r : ErrRec) : Prop where
  seq : t.edge.seq = s.edge.seq + 1
  count : Map.getD t.edge.ecnt 0 r.cls = Map.getD s.edge.ecnt 0 r.cls + 1
  msix : t.edge.msix = if s.edge.wymDown then s.edge.msix else (if 2 ≤ r.sev then 1 else 3) :: s.edge.msix
  place : s.edge.elbase ≠ 0 → s.edge.elsize ∈ [64, 128, 256, 512, 1024, 2048, 4096, 8192, 16384, 32768, 65536] → s.edge.eltail ≤ s.edge.elhead →
    s.edge.elhead + 1 < 2 ^ 64 →
    if s.edge.elhead - s.edge.eltail < s.edge.elsize then
      t.edge.elhead = s.edge.elhead + 1 ∧ t.edge.lost = s.edge.lost ∧
        ∀ x, memByte t.mem x = written s.mem ((List.range 64).zip (recordBytes s r) |>.map fun (e : Nat × Byte) => (s.edge.elbase + 64 * (s.edge.elhead % s.edge.elsize) + e.1, e.2)) x
    else t.edge.elhead = s.edge.elhead ∧ t.edge.lost = (s.edge.lost + 1) % 2 ^ 63 ∧ t.edge.ovf = true ∧ t.mem = s.mem
  off : s.edge.elbase = 0 → t.edge.elhead = s.edge.elhead ∧ t.edge.lost = (s.edge.lost + 1) % 2 ^ 63 ∧ t.edge.ovf = true ∧ t.mem = s.mem
/-- The numbers of a table name one entry each. -/
def Distinct {α : Type} (m : Sparse α) : Prop := (m.map (·.1)).Nodup
/-- A context that a fault kills at once: it lives, its kill goes to no policy, and no host queue or entry of the host is its own
(R437, R438). -/
structure Mortal (s : State) (c : Nat) (C : Ctx) : Prop where
  ctx : s.ctx? c = some C
  alive : C.killed = false ∧ C.doomed = none ∧ bitN C.svc 4 = 0
  queues : ∀ e ∈ s.queues, e.2.priv = true ∨ e.2.ctx ≠ c
  items : ∀ i ∈ s.items, i.ctx = c → i.host = none
  waiting : ∀ e ∈ s.hwq, ∀ w ∈ e.2, w.ctx = c → w.host = none
  groups : Distinct s.groups
/-- A context was killed: its groups, items and waiting records are gone; groups of other contexts stand (R437). -/
structure Killed (s t : State) (c : Nat) : Prop where
  ctx : ∃ C, t.ctx? c = some C ∧ C.killed = true
  groups : ∀ e ∈ t.groups, e.2.ctx ≠ c
  items : ∀ i ∈ t.items, i.ctx ≠ c
  waiting : ∀ e ∈ t.hwq, ∀ w ∈ e.2, w.ctx ≠ c
  others : ∀ g G, s.group? g = some G → G.ctx ≠ c → t.group? g = some G
/-- Threads of one home warp whose asynchronous trap enters at once: the group has a handler, and no delivery of the warp is open or
held (R433). -/
structure Calm (G : Group) (w : Nat) (l : Sparse Thread) : Prop where
  handler : G.handler ≠ 0 ∨ G.lr.handler ≠ 0
  distinct : Distinct G.threads
  mine : l.Sublist G.threads ∧ ∀ e ∈ l, e.2.warp = w ∧ e.2.hmode = .none
  free : (∀ d ∈ G.open_, d.warp ≠ w) ∧ ∀ d ∈ G.heldDel, d.warp ≠ w
/-- Those threads took their traps as one delivery; every other thread stands (R432, R433). -/
def Struck (s t : State) (g : Nat) (G : Group) (l : Sparse Thread) (x : Thread → Trap) : Prop :=
  (∀ k T, Map.get? G.threads k = some T → t.thread? g k = some (if (k, T) ∈ l then T.entered (x T) T.pc
    (if G.handler ≠ 0 then G.handler else G.lr.handler) (l.foldl (fun y e => y ||| 2 ^ e.2.lane) 0) s.clock else T)) ∧
  ∀ h k, h ≠ g → t.thread? h k = s.thread? h k

/-- A host queue offers an entry of a command at its head: none of its records waits for admission, and nothing absent was touched. -/
structure Offers (s : State) (q : Nat) (Q : HostQueue) (e : Entry) (code : Nat) : Prop where
  offer : s.offered q = some (Q, e)
  cmd : e.cmd = code
  first : s.untaken q = 0
  present : s.absent = none
/-- Where an entry's status word goes (R241). -/
def statusOf (q : Nat) (Q : HostQueue) (e : Entry) : HostRef :=
  { queue := q, stata := e.stata, msi := bitN e.cfl 1 == 1, ctx := Q.ctx, priv := Q.priv }
/-- A command ends at once: u is what it leaves, and its status is written last. -/
def Ends (i : Instr) (s : State) (q : Nat) (Q : HostQueue) (e : Entry) (u : State) (code detail : Nat) : Prop :=
  let t := u.status (statusOf q Q e) code detail 0
  t.absent = none → Sys2Proof.Machine.exec i s = .next t
/-- A command goes on: u is what it leaves, and it stands among the commands in progress. -/
def Lasts (i : Instr) (s : State) (q : Nat) (Q : HostQueue) (e : Entry) (u : State) (r : Running) : Prop :=
  u.absent = none → Sys2Proof.Machine.exec i s = .next (u.modEdge fun x => { x with running := x.running ++ [(q, statusOf q Q e, r)] })
/-- Nothing of the host stands among items and queues. -/
structure NoHost (s : State) : Prop where
  queues : ∀ e ∈ s.queues, e.2.priv = true
  items : ∀ i ∈ s.items, i.host = none
  waiting : ∀ e ∈ s.hwq, ∀ w ∈ e.2, w.host = none

end Sys2Proof.Machine
end

