-- ==== Sys2Proof/Certificates/Slice0/Obligations.lean ====
section
/-! DEFINITION. The statements about the machine, for the provers. -/

open Sys2Proof Sys2Proof.Machine

/-! ## Vector and scalar arithmetic -/

/-- R278, R152: each integer arithmetic instruction answers a next state in which D (and `PD`) hold the exact result cut, or with
`.sat` clamped, to the TYPE. -/
def Obligations.IntegerArithmeticResults : Prop :=
  BothForms .iadd 2 .iaddCompact (fun i f => EachGives i 0x000 f fun s r => givesSat f (s.ia r f + s.ib r f)) ∧
  BothForms .isub 3 .isubCompact (fun i f => EachGives i 0x001 f fun s r => givesSat f (s.ia r f - s.ib r f)) ∧
  (∀ f, EachGives (.iaddc f) 0x002 f fun s r =>
    let u := s.pa r f + s.pb r f + (if f.s then 0 else if r.T.pred f.c.toNat then 1 else 0)
    { gives f u with preds := [(f.pd.toNat, decide (2 ^ f.ty.bits ≤ u))] }) ∧
  (∀ f, EachGives (.isubb f) 0x003 f fun s r =>
    let u : Int := s.pa r f - s.pb r f - (if f.s then 0 else if r.T.pred f.c.toNat then 1 else 0 : Nat)
    { gives f u with preds := [(f.pd.toNat, decide (u < 0))] }) ∧
  BothForms .imulLo 4 .imulLoCompact (fun i f => EachGives i 0x004 f fun s r => givesSat f (s.ia r f * s.ib r f)) ∧
  (∀ f, EachGives (.imulHi f) 0x005 f fun s r => gives f (s.ia r f * s.ib r f / (2 ^ f.ty.bits : Nat))) ∧
  (∀ f, EachGives (.imulWide f) 0x006 f fun s r => givesPair f (truncI (s.ia r f * s.ib r f) 64)) ∧
  (∀ f, EachGives (.imadLo f) 0x007 f fun s r => givesSat f (s.ia r f * s.ib r f + s.ic r f)) ∧
  (∀ f, EachGives (.imadHi f) 0x008 f fun s r => gives f ((s.ia r f * s.ib r f + s.ic r f) / (2 ^ f.ty.bits : Nat))) ∧
  (∀ f, EachGives (.imadWide f) 0x009 f fun s r =>
    givesPair f (truncI (s.ia r f * s.ib r f + tyVal (if f.ty = .s32 then .s64 else .n64) (s.op64 r f.c.toNat)) 64)) ∧
  (∀ f, EachGives (.idiv f) 0x00A f fun s r =>
    let (a, b) := (s.ia r f, s.ib r f)
    gives f (if b = 0 then -1 else if f.ty.signed ∧ a = minVal f.ty ∧ b = -1 then a else Int.tdiv a b)) ∧
  (∀ f, EachGives (.irem f) 0x00B f fun s r =>
    let (a, b) := (s.ia r f, s.ib r f)
    gives f (if b = 0 then a else if f.ty.signed ∧ a = minVal f.ty ∧ b = -1 then 0 else a - Int.tdiv a b * b)) ∧
  BothForms .imin 5 .iminCompact (fun i f => EachGives i 0x00C f fun s r => gives f (min (s.ia r f) (s.ib r f))) ∧
  BothForms .imax 6 .imaxCompact (fun i f => EachGives i 0x00D f fun s r => gives f (max (s.ia r f) (s.ib r f))) ∧
  BothForms .iabs 16 .iabsCompact (fun i f => EachGives i 0x00E f fun s r => givesSat f ((s.ia r f).natAbs : Int)) ∧
  BothForms .ineg 15 .inegCompact (fun i f => EachGives i 0x00F f fun s r => givesSat f (-(s.ia r f)))

/-- R279: compare, select and clamp. -/
def Obligations.IntegerCompareSelectResults : Prop :=
  (∀ f, EachGives (.icmpEq f) 0x010 f fun s r => givesPred f (decide (s.ia r f = s.ib r f))) ∧
  (∀ f, EachGives (.icmpNe f) 0x011 f fun s r => givesPred f (decide (s.ia r f ≠ s.ib r f))) ∧
  (∀ f, EachGives (.icmpLt f) 0x012 f fun s r => givesPred f (decide (s.ia r f < s.ib r f))) ∧
  (∀ f, EachGives (.icmpLe f) 0x013 f fun s r => givesPred f (decide (s.ia r f ≤ s.ib r f))) ∧
  (∀ f, EachGives (.icmpGt f) 0x014 f fun s r => givesPred f (decide (s.ia r f > s.ib r f))) ∧
  (∀ f, EachGives (.icmpGe f) 0x015 f fun s r => givesPred f (decide (s.ia r f ≥ s.ib r f))) ∧
  (∀ f, EachGives (.isel f) 0x016 f fun s r => givesBits f (if r.T.pred f.c.toNat then s.pa r f else s.pb r f)) ∧
  (∀ f, EachGives (.iclamp f) 0x017 f fun s r => gives f (min (max (s.ia r f) (s.ib r f)) (s.ic r f)))

/-- R280: logic, shifts, bit fields and counts, each on the n-bit pattern of the TYPE. -/
def Obligations.LogicAndShiftResults : Prop :=
  BothForms .iand 7 .iandCompact (fun i f => EachGives i 0x018 f fun s r => givesBits f (s.pa r f &&& s.pb r f)) ∧
  BothForms .ior 8 .iorCompact (fun i f => EachGives i 0x019 f fun s r => givesBits f (s.pa r f ||| s.pb r f)) ∧
  BothForms .ixor 9 .ixorCompact (fun i f => EachGives i 0x01A f fun s r => givesBits f (s.pa r f ^^^ s.pb r f)) ∧
  BothForms .inot 14 .inotCompact (fun i f => EachGives i 0x01B f fun s r => givesBits f (2 ^ f.ty.bits - 1 - s.pa r f)) ∧
  (∀ f, EachGives (.ilop3 f) 0x01C f fun s r => givesBits f (ofBits f.ty.bits fun j =>
    (f.ext.toNat * 16 + f.mod.toNat).testBit (4 * bitN (s.pa r f) j + 2 * bitN (s.pb r f) j + bitN (s.pc_ r f) j))) ∧
  BothForms .ishl 10 .ishlCompact (fun i f => EachGives i 0x01D f fun s r =>
    let c := s.b32 r f.b; givesBits f (if c < f.ty.bits then s.pa r f * 2 ^ c % 2 ^ f.ty.bits else 0)) ∧
  BothForms .ishrL 11 .ishrLCompact (fun i f => EachGives i 0x01E f fun s r =>
    let c := s.b32 r f.b; givesBits f (if c < f.ty.bits then s.pa r f / 2 ^ c else 0)) ∧
  BothForms .ishrA 12 .ishrACompact (fun i f => EachGives i 0x01F f fun s r => gives f (s.ia r f / (2 ^ min (s.b32 r f.b) f.ty.bits : Nat))) ∧
  BothForms .irot 13 .irotCompact (fun i f => EachGives i 0x020 f fun s r =>
    let k := s.b32 r f.b % f.ty.bits
    givesBits f ((s.pa r f * 2 ^ k + s.pa r f / 2 ^ (f.ty.bits - k)) % 2 ^ f.ty.bits)) ∧
  (∀ f, EachGives (.ibfx f) 0x021 f fun s r =>
    let (pos, len) := (bitsN (s.b32 r f.b) 7 0, min (bitsN (s.b32 r f.b) 15 8) f.ty.bits)
    let x := if pos < f.ty.bits then s.pa r f / 2 ^ pos % 2 ^ len else 0
    gives f (if len = 0 then 0 else if f.ty.signed then sextN x len else x)) ∧
  (∀ f, EachGives (.ibfi f) 0x022 f fun s r =>
    let (pos, len) := (bitsN (s.b32 r f.b) 7 0, min (bitsN (s.b32 r f.b) 15 8) f.ty.bits)
    givesBits f (ofBits f.ty.bits fun j =>
      if pos ≤ j ∧ j < pos + len then bitN (s.pa r f) (j - pos) == 1 else bitN (s.pc_ r f) j == 1)) ∧
  BothForms .ipopc 17 .ipopcCompact (fun i f => EachGives i 0x023 f fun s r => gives f ((List.range f.ty.bits).foldl (fun x j => x + bitN (s.pa r f) j) 0 : Nat)) ∧
  BothForms .iclz 18 .iclzCompact (fun i f => EachGives i 0x024 f fun s r => gives f (if s.pa r f = 0 then f.ty.bits else f.ty.bits - 1 - Nat.log2 (s.pa r f) : Nat)) ∧
  BothForms .ictz 19 .ictzCompact (fun i f => EachGives i 0x025 f fun s r => gives f (((List.range f.ty.bits).find? fun j => bitN (s.pa r f) j == 1).getD f.ty.bits : Nat)) ∧
  BothForms .ibrev 20 .ibrevCompact (fun i f => EachGives i 0x026 f fun s r => givesBits f (ofBits f.ty.bits fun j => bitN (s.pa r f) (f.ty.bits - 1 - j) == 1))

/-- R281: device addresses put together and taken apart. -/
def Obligations.AddressInstructionResults : Prop :=
  (∀ f, EachGives (.amk f) 0x027 f fun s r => givesPair f (s.op32 r f.a.toNat % 2 ^ 16 * 2 ^ 48 + s.b64 r f.b % 2 ^ 48)) ∧
  BothForms .aadd 21 .aaddCompact (fun i f => EachGives i 0x028 f fun s r =>
    givesPair f (mkAddr (s.op64 r f.a.toNat / 2 ^ 48) (truncI (s.op64 r f.a.toNat % 2 ^ 48 + sextN (s.b32 r f.b) 32) 48)).toNat) ∧
  (∀ f, EachGives (.aoff f) 0x029 f fun s r => givesPair f (s.op64 r f.a.toNat % 2 ^ 48)) ∧
  (∀ f, EachGives (.ahnd f) 0x02A f fun s r => givesWord f (s.op64 r f.a.toNat / 2 ^ 48))

/-- R282, R283, R155, R158: floating arithmetic, rounded as `MOD` says, with its flags. -/
def Obligations.FloatArithmeticResults : Prop :=
  BothForms .fadd 22 .faddCompact (fun i f => EachGives i 0x040 f fun s r => givesFloat f (fAdd (fmtF f) (rmode f) (fsat f) (s.fa r f) (s.fb r f))) ∧
  BothForms .fsub 23 .fsubCompact (fun i f => EachGives i 0x041 f fun s r => givesFloat f (fAdd (fmtF f) (rmode f) (fsat f) (s.fa r f) (s.fb r f).neg)) ∧
  BothForms .fmul 24 .fmulCompact (fun i f => EachGives i 0x042 f fun s r => givesFloat f (fMul (fmtF f) (rmode f) (fsat f) (s.fa r f) (s.fb r f))) ∧
  (∀ f, EachGives (.ffma f) 0x043 f fun s r => givesFloat f (fFma (fmtF f) (rmode f) (fsat f) (s.fa r f) (s.fb r f) (s.fc r f))) ∧
  (∀ f, EachGives (.fdiv f) 0x044 f fun s r => givesFloat f (fDiv (fmtF f) (rmode f) (fsat f) (s.fa r f) (s.fb r f))) ∧
  BothForms .fsqrt 31 .fsqrtCompact (fun i f => EachGives i 0x045 f fun s r => givesFloat f (fSqrt (fmtF f) (rmode f) (fsat f) (s.fa r f))) ∧
  BothForms .frcp 29 .frcpCompact (fun i f => EachGives i 0x046 f fun s r => givesFloat f (fRcp (fmtF f) f.ty.code (fsat f) (s.pa r f))) ∧
  BothForms .frsq 30 .frsqCompact (fun i f => EachGives i 0x047 f fun s r => givesFloat f (fRsq (fmtF f) f.ty.code (fsat f) (s.pa r f))) ∧
  BothForms .fmin 25 .fminCompact (fun i f => EachGives i 0x048 f fun s r => givesFloat f (fMinMax (fmtF f) false (s.pa r f) (s.fpB r f))) ∧
  BothForms .fmax 26 .fmaxCompact (fun i f => EachGives i 0x049 f fun s r => givesFloat f (fMinMax (fmtF f) true (s.pa r f) (s.fpB r f))) ∧
  BothForms .fabs 27 .fabsCompact (fun i f => EachGives i 0x04A f fun s r => givesBits f (s.pa r f % 2 ^ (f.ty.bits - 1))) ∧
  BothForms .fneg 28 .fnegCompact (fun i f => EachGives i 0x04B f fun s r => givesBits f (s.pa r f ^^^ 2 ^ (f.ty.bits - 1)))

/-- R284: a compare answers the relation of two numbers; a NaN makes every relation false but `ne` and `un`, and sets invalid where it
is signalling or the relation is an order. -/
def Obligations.FloatCompareResults : Prop := ∀ f : Full,
  let nan (s : State) (r : Ref) : Bool := (s.fa r f).isNaN || (s.fb r f).isNaN
  let quiet (s : State) (r : Ref) : Nat := if nan s r then sigFlg (s.fa r f) ||| sigFlg (s.fb r f) else 0
  let loud (s : State) (r : Ref) : Nat := if nan s r then flNV else 0
  let cmp (s : State) (r : Ref) : Int := fCmp (s.fa r f) (s.fb r f)
  EachGives (.fcmpEq f) 0x04C f (fun s r => { givesPred f (!nan s r && decide (cmp s r = 0)) with flags := quiet s r }) ∧
  EachGives (.fcmpNe f) 0x04D f (fun s r => { givesPred f (nan s r || decide (cmp s r ≠ 0)) with flags := quiet s r }) ∧
  EachGives (.fcmpLt f) 0x04E f (fun s r => { givesPred f (!nan s r && decide (cmp s r < 0)) with flags := loud s r }) ∧
  EachGives (.fcmpLe f) 0x04F f (fun s r => { givesPred f (!nan s r && decide (cmp s r ≤ 0)) with flags := loud s r }) ∧
  EachGives (.fcmpGt f) 0x050 f (fun s r => { givesPred f (!nan s r && decide (cmp s r > 0)) with flags := loud s r }) ∧
  EachGives (.fcmpGe f) 0x051 f (fun s r => { givesPred f (!nan s r && decide (cmp s r ≥ 0)) with flags := loud s r }) ∧
  EachGives (.fcmpUn f) 0x052 f (fun s r => { givesPred f (nan s r) with flags := quiet s r }) ∧
  EachGives (.fcmpOr f) 0x053 f (fun s r => { givesPred f (!nan s r) with flags := quiet s r }) ∧
  EachGives (.fclass f) 0x054 f (fun s r => givesWord f (fClass (fmtF f) (s.pa r f)))

/-- R285 to R287, R168: conversions between formats, special functions, and `act` on a bank that no `actld` still fills. -/
def Obligations.ConversionResults : Prop := ∀ (f : Full) (src : Ty),
  EachGives (.frnd f) 0x055 f (fun s r => givesFloat f (fRnd (fmtF f) (rmode f) (s.pa r f))) ∧
  EachGives (.cvtpk f) 0x056 f (fun s r =>
    let w := wideTy f.ty
    let conv (p : Nat) := convert w .f32 f.ty (fmtF f) (rmode f) (fsat f) p
    let lo := conv (s.op32 r f.a.toNat)
    let hi := conv (if w = .f32 then s.bFloat r .f32 f.b else s.bInt r .s32 f.b)
    { givesWord f (setElem (setElem (s.op32 r f.d.toNat) f.ty.bits (2 * f.c.toNat) lo.1) f.ty.bits (2 * f.c.toNat + 1) hi.1) with
      flags := lo.2 ||| hi.2 }) ∧
  EachGives (.cvtup f) 0x057 f (fun s r =>
    let x := convert f.ty (fmtF f) (wideTy f.ty) .f32 0 false (s.op32 r f.a.toNat / 2 ^ (f.ty.bits * f.c.toNat) % 2 ^ f.ty.bits)
    { givesWord f x.1 with flags := x.2 }) ∧
  EachGives (.sfnEx2 f) 0x058 f (fun s r => givesFloat f (sfn 0 (s.pa r f))) ∧
  EachGives (.sfnLg2 f) 0x059 f (fun s r => givesFloat f (sfn 1 (s.pa r f))) ∧
  EachGives (.sfnSin f) 0x05A f (fun s r => givesFloat f (sfn 2 (s.pa r f))) ∧
  EachGives (.sfnCos f) 0x05B f (fun s r => givesFloat f (sfn 3 (s.pa r f))) ∧
  EachGives (.sfnTanh f) 0x05C f (fun s r => givesFloat f (sfn 4 (s.pa r f))) ∧
  EachGives (.sfnSigm f) 0x05D f (fun s r => givesFloat f (sfn 5 (s.pa r f))) ∧
  EachGives (.sfnErf f) 0x05E f (fun s r => givesFloat f (sfn 6 (s.pa r f))) ∧
  EachDoes (.act f) 0x05F f (fun s _ r => s.bankLoading r.G.core r.G.bank = false)
    (fun s _ r => givesFloat f (actValue ((s.core r.G.core).bankFor r.G.bank r.G.ctx) (s.pa r f))) ∧
  EachGives (.cvt src f) (0x060 + src.code) f (fun s r =>
    let sf := if src = .f8 then FFmt.b8 (f.c.toNat % 8) (f.c.getLsbD 3) (f.c.getLsbD 4) else fmtOf src 0 0
    givesFloat f (convert src sf f.ty (fmtF f) (rmode f) (fsat f) (s.opTy r src f.a.toNat)))

/-! ## Planar registers, activation banks, lanes -/

/-- R290 to R293, R117, R118, R126: planar registers are packed from the lanes of the issue group, read as values, tagged and cut. -/
def Obligations.PlanarRegisterResults : Prop :=
  (∀ f, EachDoes (.plpack f) 0x072 f (fun s xs _ => ∀ lo, xs.head? = some lo → 1 ≤ s.b32 lo f.b ∧ s.b32 lo f.b ≤ 24)
    fun s xs r =>
      let d := match xs.head? with | some lo => s.b32 lo f.b | none => 1
      let p := packBlock ((List.range 32).map fun i => match xs.find? (·.T.lane == i) with
        | some q => s.fa q f | none => .fin false 0 0) d
      let e := p.els.getD r.T.lane (false, 0)
      { regs := [(f.d.toNat, (if e.1 then 2 ^ 31 else 0) + e.2 * 2 ^ (31 - d))],
        tags := [(f.d.toNat, (if p.sat then 2 ^ 17 else 0) + (if p.nanz then 2 ^ 16 else 0) + 2 ^ 15 + (if f.s then 2 ^ 14 else 0) + 2 ^ 13
          + d * 2 ^ 8 + p.E)],
        flags := p.flags }) ∧
  BothForms .plval 32 .plvalCompact (fun i f => EachGives i 0x073 f fun _ r =>
    let (w, t) := (r.T.v f.a.toNat, r.T.tag f.a.toNat)
    if bitN t 15 = 0 then givesWord f w
    else givesFloat f (roundVal .f32 (rmode f) (fsat f)
      (planeVal (t % 256) (bitN w 31 == 1) (w % 2 ^ 31 / 2 ^ (31 - bitsN t 12 8)) (bitsN t 12 8) (bitN t 14 == 1 && bitN t 13 == 0)))) ∧
  (∀ f, EachGives (.pltag f) 0x074 f fun _ r => givesWord f (r.T.tag f.a.toNat)) ∧
  (∀ f, EachGives (.plsett f) 0x075 f fun s r => { tags := [(f.d.toNat, s.op32 r f.a.toNat)] }) ∧
  (∀ f, EachDoes (.pltrim f) 0x076 f (fun s _ r => s.b32 r f.b ≤ 24) fun s _ r =>
    let (w, t) := (r.T.v f.a.toNat, r.T.tag f.a.toNat)
    let n := min (bitsN t 12 8) (s.b32 r f.b)
    if bitN t 15 = 0 then { regs := [(f.d.toNat, w)], tags := [(f.d.toNat, t)] }
    else
      { regs := [(f.d.toNat, w / 2 ^ (31 - n) * 2 ^ (31 - n))],
        tags := [(f.d.toNat, t / 2 ^ 14 * 2 ^ 14 + (if n = bitsN t 12 8 then bitN t 13 else if t % 256 = 0 then 1 else 0) * 2 ^ 13 + n * 2 ^ 8
          + t % 256)] })

/-- R45, R169, R289, R296: `part` and `actsel` complete: the first sets the tile width of the issue group's group, the second the
activation bank of each of its groups; of threads that give different values the lowest lane's stands. What they set holds from the next
cycle on: as cycles pass it becomes the group's width and bank. -/
def Obligations.GroupSelections : Prop :=
  (∀ f, AllDo (.part f) 0x080 f (fun s rs => ∀ r ∈ rs, s.b32 r f.b ∈ [2, 4, 8, 16, 32])
    (fun s rs => onLowest s rs fun r => s.modG r.g fun G => { G with partNext := some (s.b32 r f.b) }) (fun _ _ _ => {})) ∧
  (∀ f, AllDo (.actsel f) 0x071 f (fun s rs => ∀ r ∈ rs, s.b32 r f.b ≤ 1)
    (fun s rs => s.modLeads rs fun r G => { G with bankNext := some (s.b32 r f.b) }) (fun _ _ _ => {})) ∧
  ∀ (s : State) (dt g : Nat) (G : Group), 0 < dt → s.group? g = some G → ∃ H, (s.elapse dt).group? g = some H ∧
    (H.part, H.partNext) = (G.partNext.getD G.part, none) ∧ (H.bank, H.bankNext) = (G.bankNext.getD G.bank, none)

/-- R294, R297: votes and shuffles among the contributors of each lane tile. -/
def Obligations.VoteAndShuffleResults : Prop :=
  (∀ f, EachDoes (.voteAll f) 0x082 f always fun _ xs r => givesPred f ((tileOf xs r).all fun q => q.T.pred f.a.toNat)) ∧
  (∀ f, EachDoes (.voteAny f) 0x083 f always fun _ xs r => givesPred f ((tileOf xs r).any fun q => q.T.pred f.a.toNat)) ∧
  (∀ f, EachDoes (.voteEq f) 0x084 f always fun _ xs r =>
    givesPred f (decide (∀ p ∈ tileOf xs r, ∀ q ∈ tileOf xs r, p.T.pred f.a.toNat = q.T.pred f.a.toNat))) ∧
  (∀ f, EachDoes (.voteBallot f) 0x085 f always fun _ xs r =>
    givesWord f (ofBits 32 fun j => (tileOf xs r).any fun q => q.T.lane == j && q.T.pred f.a.toNat)) ∧
  BothForms .shflIdx 37 .shflIdxCompact (fun i f => EachDoes i 0x086 f always fun s xs r =>
    givesFrom f s xs r (some (tileBase r + s.b32 r f.b % r.G.part))) ∧
  BothForms .shflUp 46 .shflUpCompact (fun i f => EachDoes i 0x087 f always fun s xs r =>
    givesFrom f s xs r (if tileBase r + s.b32 r f.b ≤ r.T.lane then some (r.T.lane - s.b32 r f.b) else none)) ∧
  BothForms .shflDown 47 .shflDownCompact (fun i f => EachDoes i 0x088 f always fun s xs r =>
    givesFrom f s xs r (if r.T.lane + s.b32 r f.b < tileBase r + r.G.part then some (r.T.lane + s.b32 r f.b) else none)) ∧
  BothForms .shflXor 38 .shflXorCompact (fun i f => EachDoes i 0x089 f always fun s xs r =>
    givesFrom f s xs r (some (tileBase r + ((r.T.lane - tileBase r) ^^^ (s.b32 r f.b % r.G.part)))))

/-- R298 to R300: reductions and scans over a tile in lane order, ranking, and the sum of the lanes a mask names. -/
def Obligations.ReductionAndRankingResults : Prop :=
  let ps (f : Full) (s : State) (l : List Ref) : List Nat := l.map fun q => s.pa q f
  let low (xs : List Ref) (r : Ref) : Ref := ((tileOf xs r).head?).getD r
  let rank (lanes : Bool) (f : Full) (s : State) (xs : List Ref) (r : Ref) : TRes :=
    let ranked := ((tileOf xs r).map fun q => (q, s.pa q f)).foldl (fun l x => rankInsert f.ty x l) []
    match (if r.T.lane - tileBase r < min (kOf f s (low xs r)).toNat r.G.part then ranked[r.T.lane - tileBase r]? else none) with
    | some (q, p) => { givesBits f (if lanes then q.T.lane else p) with preds := [(f.pd.toNat, true)] }
    | none => givesPred f false
  BothForms .lred 39 .lredCompact (fun i f => EachDoes i 0x08A f always fun s xs r =>
    gives f (redInt f.ext.toNat f.ty (fsat f) (ps f s (tileOf xs r)))) ∧
  (∀ f, EachDoes (.lredF f) 0x08B f always fun s xs r =>
    givesFloat f (redFloat f.ext.toNat (fmtOf f.ty 0 0) (rmode f) (fsat f) (ps f s (tileOf xs r)))) ∧
  (∀ f, EachDoes (.lscan f) 0x08C f always fun s xs r =>
    gives f (redInt f.ext.toNat f.ty (fsat f) (ps f s (scanTerms f r (tileOf xs r))))) ∧
  (∀ f, EachDoes (.lscanF f) 0x08D f always fun s xs r =>
    givesFloat f (redFloat f.ext.toNat (fmtOf f.ty 0 0) (rmode f) (fsat f) (ps f s (scanTerms f r (tileOf xs r))))) ∧
  (∀ f, EachDoes (.selk f) 0x08E f (fun s xs r => 0 ≤ kOf f s (low xs r)) (rank false f)) ∧
  (∀ f, EachDoes (.selkI f) 0x08F f (fun s xs r => 0 ≤ kOf f s (low xs r)) (rank true f)) ∧
  (∀ f, EachDoes (.permx f) 0x090 f always fun s xs r =>
    let js := (tileOf xs r).filter fun q => bitN (s.b32 r f.b) q.T.lane == 1
    if f.s then givesBits f ((ps f s js).headD 0)
    else if f.ty.isFloat then givesFloat f (if js = [] then (0, 0) else redFloat 0 (fmtOf f.ty 0 0) (rmode f) (fsat f) (ps f s js))
    else gives f (redInt 0 f.ty (fsat f) (ps f s js)))

/-! ## Moves, special registers, predicates -/

/-- R301 to R303, R90, R54, R100, R159, R430, R441: moves, reads and writes of special registers, and predicate instructions. A read
of `$fstat` comes after the loop that its own thread runs. A write of `$sched` that sets its fairness bit disarms the watchdog, whose
counts go to 0, and one that clears it leaves no thread starved; a write of `$tcause` leaves the bits that R430 reserves at 0. -/
def Obligations.MoveAndPredicateResults : Prop :=
  (∀ f, EachGives (.mov f) 0x091 f fun s r => givesBits f (s.pa r f)) ∧
  (∀ c : Compact, c.i = false → EachGives (.movCompact c) 0x091 (cfull 1 c).2 fun s r => givesBits (cfull 1 c).2 (s.pa r (cfull 1 c).2)) ∧
  (∀ f, EachGives (.movi f) 0x092 f fun s r => givesBits f (if f.ty.isFloat then s.fpB r f else s.pb r f)) ∧
  (∀ c : Compact, c.i = true → EachGives (.moviCompact c) 0x092 (cfull 1 c).2 fun s r =>
    givesBits (cfull 1 c).2 (if (cfull 1 c).2.ty.isFloat then s.fpB r (cfull 1 c).2 else s.pb r (cfull 1 c).2)) ∧
  (∀ f, EachDoes (.rdsr f) 0x093 f (fun _ _ r => ¬ (f.a.toNat = 0 ∧ r.G.loopOf r.t = true)) fun s _ r =>
    let x := match f.a.toNat with
      | 0 => r.G.fstat | 1 => r.G.sched.toNat | 2 => r.T.wcnt | 3 => r.G.ctags | 4 => s.clock % 2 ^ 64 | 5 => r.G.lsn
      | 6 => r.G.mrow.toNat | 7 => r.G.part | 8 => r.T.tcause.toNat | 9 => r.T.tpc.toNat | 10 => r.T.tlanes.toNat | _ => r.T.taddr.toNat
    { (if sreg64 f.a.toNat then givesPair f x else givesWord f x) with vol := if f.a.toNat = 4 ∨ f.a.toNat = 5 then 2 else 0 }) ∧
  (∀ f, TurnDo (.wrsr f) 0x094 f (fun _ _ => True)
    (fun s r =>
      let x := if sreg64 f.d.toNat then s.op64 r f.a.toNat else s.op32 r f.a.toNat
      match f.d.toNat with
      | 0 => s.modG r.g fun G => { G with fstat := x % 64 }
      | 1 => s.modG r.g (·.setSched x)
      | 3 => s.modG r.g (·.setCtags x)
      | 8 => s.modT r.g r.t fun T => { T with tcause := BitVec.ofNat 32 x &&& 0xFFFFE0FF }
      | 9 => s.modT r.g r.t fun T => { T with tpc := BitVec.ofNat 64 x }
      | 10 => s.modT r.g r.t fun T => { T with tlanes := BitVec.ofNat 32 x }
      | _ => s.modT r.g r.t fun T => { T with taddr := BitVec.ofNat 64 x })
    (fun _ _ => {})) ∧
  (∀ f, EachGives (.pand f) 0x095 f fun _ r => givesPred f (predA f r && predB f r)) ∧
  (∀ f, EachGives (.por f) 0x096 f fun _ r => givesPred f (predA f r || predB f r)) ∧
  (∀ f, EachGives (.pxor f) 0x097 f fun _ r => givesPred f (predA f r ^^ predB f r)) ∧
  (∀ f, EachGives (.pnot f) 0x098 f fun _ r => givesPred f (!r.T.pred f.a.toNat)) ∧
  (∀ f, EachGives (.pmov f) 0x099 f fun _ r => givesPred f (predA f r)) ∧
  (∀ f, EachGives (.pmovGet f) 0x099 f fun _ r => givesWord f (r.T.preds.toNat + 128)) ∧
  (∀ f, EachGives (.pmovSet f) 0x099 f fun s r => { preds := (List.range 7).map fun k => (k, (s.op32 r f.a.toNat).testBit k) })

/-! ## Control flow, waits and fences -/

/-- R306, R307: a displacement counts parcels from the instruction's own address; a call saves the address after it. -/
def Obligations.BranchResults : Prop := ∀ f : Full,
  let target (r : Ref) : Addr := addOff r.T.pc (4 * dispOf f.b)
  EachGives (.bra f) 0x0A0 f (fun _ r => { pc := some (target r) }) ∧
  EachDoes (.brx f) 0x0A1 f (fun s _ r => s.op64 r f.a.toNat % 4 = 0) (fun s _ r => { pc := some (BitVec.ofNat 64 (s.op64 r f.a.toNat)) }) ∧
  EachGives (.call f) 0x0A2 f (fun s r => { givesPair f (addOff r.T.pc s.len).toNat with pc := some (target r) }) ∧
  EachDoes (.calx f) 0x0A3 f (fun s _ r => s.op64 r f.a.toNat % 4 = 0)
    (fun s _ r => { givesPair f (addOff r.T.pc s.len).toNat with pc := some (BitVec.ofNat 64 (s.op64 r f.a.toNat)) }) ∧
  EachDoes (.ret f) 0x0A4 f (fun s _ r => s.op64 r f.a.toNat % 4 = 0) (fun s _ r => { pc := some (BitVec.ofNat 64 (s.op64 r f.a.toNat)) })

/-- R308: `exit` with no operation outstanding and no fault held ends the thread: its number and registers are free, and nothing else of
a group that keeps threads or spawn records changes but the cycle of the last exit of the warp; with its last thread and no record left
the group exits and gives back its leases and leave, and its Twill contexts but for the one that a loop of it still reads (R67). -/
def Obligations.ExitEndsTheThread : Prop := ∀ (f : Full) (s : State) (is : Issue) (r : Ref), Issued s is [r] → Admits 0x0A5 f [r] →
  executing f [r] = [r] → r.T.held = [] → r.T.ld = 0 → r.T.st = 0 → r.T.cp = 0 → r.T.tl = 0 → (s.endThread r.g r.t).absent = none →
  ∃ t, Sys2Proof.Machine.exec (.exit f) s = .next t ∧
    (r.G.open_ = [] → r.G.heldDel = [] → (Map.erase r.G.threads r.t ≠ [] ∨ r.G.recs ≠ []) →
      t.group? r.g = some { r.G with threads := Map.erase r.G.threads r.t, lastJoin := Map.set r.G.lastJoin r.T.warp s.clock } ∧
      (∀ g, g ≠ r.g → t.group? g = s.group? g) ∧ ({ t with groups := s.groups } : State) = s) ∧
    (r.G.open_ = [] → r.G.heldDel = [] → Map.erase r.G.threads r.t = [] → r.G.recs = [] → r.G.exiting = false →
      ∃ G, t.group? r.g = some G ∧ G.exiting = true ∧ G.threads = [] ∧ G.leases = [] ∧ G.tw = r.G.loopTw ∧ (r.G.loop = none → G.tw = []) ∧ G.grant = 0)

/-- R47, R309: a split branch that all take or none takes is a branch; one that divides the issue group sends the larger part on, the
part that takes it on a tie, and ends the threads of the other part into spawn records, each at its own way. -/
def Obligations.SplitBranchResults : Prop := ∀ (f : Full) (s : State) (is : Issue) (rs : List Ref), Issued s is rs → Admits 0x0A6 f rs →
  let yes := rs.filter fun r => r.T.guard f.g f.gn
  let no := rs.filter fun r => !r.T.guard f.g f.gn
  let way (r : Ref) : TRes := if r.T.guard f.g f.gn then { pc := some (addOff r.T.pc (4 * dispOf f.b)) } else {}
  (yes = [] ∨ no = [] → (∀ r ∈ rs, HasRoom r {}) →
    ∃ t, Sys2Proof.Machine.exec (.sbra f) s = .next t ∧ Advances (clockVol 0x0A6 f) s t is s.next rs fun r => some (way r)) ∧
  ∀ (places : List (Option Nat)) (lo : Ref), yes ≠ [] → no ≠ [] → (∀ r ∈ rs, HasRoom r {}) → rs.head? = some lo →
    let stays := decide (no.length ≤ yes.length)
    let gone := if stays then no else yes
    (reserve (s.reserveCap lo.G.core) (match s.ctx? lo.G.ctx with | some c => if c.spbase = 0 then 0 else c.spsize | none => 0) f.c.toNat
      gone.length (s.reserveUse lo.G.core) (s.areaUse lo.G.ctx) = some places) →
    ∃ t, Sys2Proof.Machine.exec (.sbra f) s = .next t ∧
      (∀ r ∈ rs, r ∉ gone → t.thread? r.g r.t = (s.thread? r.g r.t).map fun T => T.after s.clock is.len (some (way r))) ∧
      (∀ (k : Nat) (r : Ref), gone[k]? = some r → ∃ place n, places[k]? = some place ∧ t.thread? r.g r.t = (s.thread? r.g r.t).map fun T =>
        T.waitOn (.ended (if stays then addOff r.T.pc is.len else addOff r.T.pc (4 * dispOf f.b)) f.c.toNat place) s.clock n) ∧
      (∀ g k, (∀ r ∈ rs, ¬ (r.g = g ∧ r.t = k)) → t.thread? g k = s.thread? g k) ∧
      ({ t with groups := s.groups, next := s.next } : State) = s

/-- R46: a thread at `wsync` waits; when every live thread of its warp stands at the same one, all of them go on behind it. R52, R310:
a `join` that names no other lane goes to its target; any other waits, and goes on when every live thread of its warp whose lane it names
waits at a `join` for the same target. -/
def Obligations.WarpSyncAndJoinResults : Prop := (
  BothForms .wsync 41 .wsyncCompact (fun i f => ∀ (s : State) (is : Issue) (rs : List Ref), Issued s is rs → Admits 0x081 f rs → executing f rs = rs →
    ∃ t, Sys2Proof.Machine.exec i s = .next t ∧ Halts (stir (clockVol 0x081 f) s rs) t rs fun r => .wsync (addOff r.T.pc is.len)) ∧
  ∀ (s : State) (g w : Nat) (G : Group) (pc : Addr), s.group? g = some G → (G.threads.map (·.1)).Nodup → G.warpLive w ≠ [] →
    (∀ e ∈ G.warpLive w, e.2.pc = pc ∧ ∃ next since n, e.2.wait = .on (.wsync next) since n) →
    ∀ e ∈ G.warpLive w, ∀ next since n, e.2.wait = .on (.wsync next) since n →
      ((s.releaseSync g w).thread? g e.1).map (fun T => (T.pc, T.wait, T.regs)) = some (next, .ready, e.2.regs)) ∧
  ∀ f : Full,
  let mask (s : State) (r : Ref) : Word := BitVec.ofNat 32 (s.op32 r f.a.toNat)
  let target (r : Ref) : Addr := addOff r.T.pc (4 * dispOf f.b)
  TurnDo (.join f) 0x0A7 f (fun s r => ∀ j < 32, (mask s r).getLsbD j = true → j = r.T.lane) (fun s _ => s) (fun _ r => { pc := some (target r) }) ∧
  (∀ (s : State) (is : Issue) (r : Ref), Issued s is [r] → Admits 0x0A7 f [r] → executing f [r] = [r] → (∃ j < 32, j ≠ r.T.lane ∧ (mask s r).getLsbD j = true) →
    ∃ t, Sys2Proof.Machine.exec (.join f) s = .next t ∧ Halts (stir (clockVol 0x0A7 f) s [r]) t [r] fun r => .join (mask s r) (target r)) ∧
  ∀ (s : State) (g w : Nat) (G : Group), s.group? g = some G → (G.threads.map (·.1)).Nodup → ∀ e ∈ G.warpLive w, ∀ m a since n, e.2.wait = .on (.join m a) since n →
    (∀ x ∈ G.warpLive w, x.2.lane < 32 → x.2.lane ≠ e.2.lane → m.getLsbD x.2.lane = true → ∃ m' since' n', x.2.wait = .on (.join m' a) since' n') →
    ((s.releaseJoin g w).thread? g e.1).map (fun T => (T.pc, T.wait)) = some (a, .ready)

/-- R56, R311: `yield` and `nop` write nothing; `yield` moves the entry of the PC after it to the back for one pick. R99, R313, R314, R181: a wait or a fence whose condition holds, of a thread that holds no fault, lets it go on, and changes nothing. -/
def Obligations.YieldNopAndWaitResults : Prop :=
  BothForms .nop 0 .nopCompact (fun i f => EachGives i 0x0A9 f fun _ _ => {}) ∧
  BothForms .yield 40 .yieldCompact (fun i f => TurnDo i 0x0A8 f (fun _ _ => True)
    (fun s r => s.modCore r.G.core fun c =>
      let e := (r.G.item, addOff r.T.pc s.len)
      { c with yielded := if e ∈ c.yielded then c.yielded else e :: c.yielded })
    (fun _ _ => {})) ∧
  let ends (r : Ref) (now : Prop) : Prop := r.T.held = [] ∧ (r.T.wait = .passed ∨ now)
  (∀ f, TurnDo (.waitc f) 0x0AA f
    (fun _ r => ends r (r.T.ld ≤ f.d.toNat ∧ r.T.st ≤ f.a.toNat ∧ r.T.cp ≤ numB f ∧ r.T.tl ≤ f.c.toNat)) (fun s _ => s) (fun _ _ => {})) ∧
  BothForms .wtany 44 .wtanyCompact (fun i f => TurnDo i 0x0AB f
    (fun s r => ends r (r.G.maskTags (s.bInt r f.ty f.b) = [] ∨ ∃ n ∈ r.G.maskTags (s.bInt r f.ty f.b), r.G.tagBit n = true))
    (fun s _ => s) (fun _ _ => {})) ∧
  BothForms .wtall 45 .wtallCompact (fun i f => TurnDo i 0x0AC f
    (fun s r => ends r (∀ n ∈ r.G.maskTags (s.bInt r f.ty f.b), r.G.tagBit n = true)) (fun s _ => s) (fun _ _ => {})) ∧
  (∀ f, TurnDo (.ffrdy f) 0x0AD f (fun _ r => r.T.held = []) (fun s _ => s) fun s r =>
    match (r.G.maskTags (s.bInt r f.ty f.b)).find? r.G.tagBit with
    | some n => { givesWord f n with preds := [(f.pd.toNat, true)] }
    | none => { givesWord f 64 with preds := [(f.pd.toNat, false)] }) ∧
  BothForms .fence 43 .fenceCompact (fun i f => TurnDo i 0x0AE f
    (fun s r => ends r (s.fenceOver r.g r.t f.mod.toNat = true) ∧ ¬ (f.mod.toNat = 8 ∧ s.edge.wymDown = true)) (fun s _ => s) (fun _ _ => {}))

/-! ## Barriers and rings -/

/-- R101, R102, R315, R316, R179: barrier objects at 16-byte aligned offsets. Every update makes the completion test, which begins the
next generation when no arrival and no transfer is pending. An operation on another core's object takes that core's time. -/
def Obligations.BarrierResults : Prop := ∀ f : Full,
  let at_ (s : State) (r : Ref) : Nat × Nat := s.place r (f.mod == 4) (s.op32 r f.a.toNat)
  let bar (s : State) (r : Ref) : Bar := s.bar (at_ s r).1 (at_ s r).2
  let seen (s : State) (r : Ref) : State := s.meet r.G.core (at_ s r).1
  let put (s : State) (r : Ref) (b : Bar) : State := (s.setBar (at_ s r).1 (at_ s r).2 b).meet r.G.core (at_ s r).1
  let tested (b : Bar) : Bar := if b.pend = 0 ∧ b.txin = 0 ∧ b.txout = 0 then { b with gen := (b.gen + 1) % 16, pend := b.exp } else b
  let aligned (s : State) (r : Ref) : Prop := s.op32 r f.a.toNat % 16 = 0
  TurnDo (.binit f) 0x0AF f
    (fun s r => 1 ≤ s.b32 r f.b ∧ s.b32 r f.b ≤ 4095 ∧ aligned s r ∧ (bar s r).txin = 0 ∧ (bar s r).txout = 0)
    (fun s r => put s r { gen := 0, pend := s.b32 r f.b, exp := s.b32 r f.b, txin := 0, txout := 0, plwm := 31, plhi := 0, pmode := 0, rest := 0 })
    (fun _ _ => {}) ∧
  TurnDo (.barr f) 0x0B0 f (fun s r => aligned s r ∧ (bar s r).exp ≠ 0 ∧ (bar s r).pend ≠ 0 ∧ s.drained r.g r.t = true)
    (fun s r => put s r (tested { bar s r with pend := (bar s r).pend - 1 })) (fun s r => givesWord f (bar s r).gen) ∧
  TurnDo (.bwait f) 0x0B1 f (fun s r => r.T.held = [] ∧ aligned s r ∧ (r.T.wait = .passed ∨ (bar s r).gen ≠ s.b32 r f.b % 16))
    seen (fun _ _ => {}) ∧
  TurnDo (.btxIn f) 0x0B2 f
    (fun s r => aligned s r ∧ 0 ≤ (bar s r).txin + sextN (s.b32 r f.b) 32 ∧ (bar s r).txin + sextN (s.b32 r f.b) 32 < 2 ^ 24)
    (fun s r => put s r (tested { bar s r with txin := ((bar s r).txin + sextN (s.b32 r f.b) 32).toNat })) (fun _ _ => {}) ∧
  TurnDo (.btxOut f) 0x0B2 f
    (fun s r => aligned s r ∧ 0 ≤ (bar s r).txout + sextN (s.b32 r f.b) 32 ∧ (bar s r).txout + sextN (s.b32 r f.b) 32 < 2 ^ 24)
    (fun s r => put s r (tested { bar s r with txout := ((bar s r).txout + sextN (s.b32 r f.b) 32).toNat })) (fun _ _ => {}) ∧
  TurnDo (.bplw f) 0x0B3 f
    (fun s r => r.T.held = [] ∧ s.b32 r f.b ≤ 24 ∧ aligned s r ∧ (bar s r).pmode ≠ 0 ∧
      (r.T.wait = .passed ∨ (bar s r).plwm ≠ 31 ∧ s.b32 r f.b ≤ (bar s r).plwm))
    seen (fun _ _ => {})

/-- R231 to R233, R317: ring control blocks in the group's own scratchpad, and with `.g` in a gang member's. A slot is acquired at the
tail, committed, peeked at the head and released, each after the thread's earlier accesses; what cannot be had makes the waiting form
wait and answers false to the `.try` form. Every form completes where its operands and its block are as R231 has them. -/
def Obligations.RingResults : Prop := ∀ f : Full,
  let forms (gang : Bool) (rinit acqs acqsTry coms peeks peeksTry rels : Full → Instr) (op : Nat) : Prop :=
    let at_ (s : State) (r : Ref) : Nat × Nat := s.place r gang (s.op32 r f.a.toNat)
    let ring (s : State) (r : Ref) : Ring := s.ring (at_ s r).1 (at_ s r).2
    let seen (s : State) (r : Ref) : State := s.meet r.G.core (at_ s r).1
    let put (s : State) (r : Ref) (k : Ring) : State := (s.setRing (at_ s r).1 (at_ s r).2 k).meet r.G.core (at_ s r).1
    let here (s : State) (r : Ref) : Prop := s.op32 r f.a.toNat % 32 = 0 ∧ s.drained r.g r.t = true
    let ok (s : State) (r : Ref) : Prop := here s r ∧ (ring s r).ok = true
    let slot (k : Ring) (consumer : Bool) : Nat := (if consumer then k.head else k.tail) % k.scount
    let free (k : Ring) (consumer : Bool) : Prop := bitN k.held (slot k consumer) = 0 ∧
      if consumer then bitN k.phase (slot k true) ≠ k.head / k.scount else (k.tail + 2 * k.scount - k.head) % (2 * k.scount) < k.scount
    let taken (k : Ring) (consumer : Bool) : Ring :=
      let k' := { k with held := k.held + 2 ^ slot k consumer }
      if consumer then { k' with head := (k.head + 1) % (2 * k.scount) } else { k' with tail := (k.tail + 1) % (2 * k.scount) }
    let gets (consumer : Bool) (s : State) (r : Ref) : TRes := { givesWord f (slot (ring s r) consumer) with preds := [(f.pd.toNat, true)] }
    let given (s : State) (r : Ref) : Ring := { ring s r with held := (ring s r).held - 2 ^ s.b32 r f.b }
    let mine (s : State) (r : Ref) : Prop := s.b32 r f.b < (ring s r).scount ∧ bitN (ring s r).held (s.b32 r f.b) ≠ 0
    let empty (base ss sc : Nat) : Ring :=
      { base := base, ssize := ss, scount := sc, rsv1 := 0, rflags := 0, tail := 0, head := 0, rsv2 := 0, phase := 0, held := 0 }
    TurnDo (rinit f) op f
      (fun s r => s.b32 r f.b % 16 = 0 ∧ 16 ≤ bitsN (s.op32 r f.c.toNat) 15 0 ∧ bitsN (s.op32 r f.c.toNat) 15 0 % 16 = 0 ∧
        1 ≤ bitsN (s.op32 r f.c.toNat) 22 16 ∧ bitsN (s.op32 r f.c.toNat) 22 16 ≤ 64 ∧ here s r)
      (fun s r => put s r (empty (s.b32 r f.b) (bitsN (s.op32 r f.c.toNat) 15 0) (bitsN (s.op32 r f.c.toNat) 22 16))) (fun _ _ => {}) ∧
    TurnDo (acqs f) (op + 1) f (fun s r => ok s r ∧ free (ring s r) false) (fun s r => put s r (taken (ring s r) false)) (gets false) ∧
    TurnDo (acqsTry f) (op + 2) f (fun s r => ok s r ∧ free (ring s r) false) (fun s r => put s r (taken (ring s r) false)) (gets false) ∧
    TurnDo (acqsTry f) (op + 2) f (fun s r => ok s r ∧ ¬ free (ring s r) false) seen (fun _ _ => givesPred f false) ∧
    TurnDo (coms f) (op + 3) f (fun s r => ok s r ∧ mine s r)
      (fun s r => put s r { given s r with phase := (ring s r).phase ^^^ 2 ^ s.b32 r f.b }) (fun _ _ => {}) ∧
    TurnDo (peeks f) (op + 4) f (fun s r => ok s r ∧ free (ring s r) true) (fun s r => put s r (taken (ring s r) true)) (gets true) ∧
    TurnDo (peeksTry f) (op + 5) f (fun s r => ok s r ∧ free (ring s r) true) (fun s r => put s r (taken (ring s r) true)) (gets true) ∧
    TurnDo (peeksTry f) (op + 5) f (fun s r => ok s r ∧ ¬ free (ring s r) true) seen (fun _ _ => givesPred f false) ∧
    TurnDo (rels f) (op + 6) f (fun s r => ok s r ∧ mine s r) (fun s r => put s r (given s r)) (fun _ _ => {})
  forms false .rinit .acqs .acqsTry .coms .peeks .peeksTry .rels 0x0B4 ∧
  forms true .rinitG .acqsG .acqsTryG .comsG .peeksG .peeksTryG .relsG 0x0BB

/-! ## Items -/

/-- R182, R221, R224, R319: `launch` and `tspawn` complete: they read their record and raise its join counter at the issue event, then the
record waits in its hardware queue, with what was read; one that the port refuses waits in queue 0 without a record. `relaunch` completes
by entering the queue of the recorded launch, or queue 0 where the port refuses that byte. Each counts once in CP and makes the group volatile (R199). -/
def Obligations.ItemInstructionsEnterQueues : Prop := ∀ f : Full,
  let may (s : State) (r : Ref) : Prop := s.drained r.g r.t = true ∧ r.T.cp < 63 ∧ s.tableFull = false
  let record (s : State) (r : Ref) : List Byte := match s.port_ r.G.ctx [] .load (s.ea r f) 128 with | .ok ps => s.gather ps | _ => []
  let join (s : State) (r : Ref) : Addr := BitVec.ofNat 64 (leNat (((record s r).drop 0x50).take 8))
  let waiting (kind : ItemKind) (s : State) (r : Ref) : Waiting :=
    { ctx := r.G.ctx, kind := kind, addr := s.ea r f, issuer := some (r.g, r.t, r.G.core), anc := s.ancestry r.G.item, joined := true }
  let readable (s : State) (r : Ref) : Prop := (s.ea r f).toNat % 128 = 0 ∧ may s r ∧
    (∃ ps, s.port_ r.G.ctx [] .load (s.ea r f) 128 = .ok ps ∧ s.poisonedIn false ps = none) ∧
    (join s r = 0 ∨ (∀ buf pg, s.port_ r.G.ctx [] .atomic (join s r) 8 ≠ .page buf pg) ∧
      ∀ qs, s.port_ r.G.ctx [] .atomic (join s r) 8 = .ok qs → (∀ p ∈ qs, p < memSize) ∧ s.poisonedIn true qs = none)
  let refused (s : State) (r : Ref) : Prop := (s.ea r f).toNat % 128 = 0 ∧ may s r ∧
    ∀ buf pg ps, s.port_ r.G.ctx [] .load (s.ea r f) 128 ≠ .page buf pg ∧ s.port_ r.G.ctx [] .load (s.ea r f) 128 ≠ .ok ps
  let enters (kind : ItemKind) (s : State) (r : Ref) : State :=
    let q := leNat (((record s r).drop 0x2F).take 1) % 64
    if join s r = 0 then s.pushHw q { waiting kind s r with bytes := some (record s r) }
    else
      let u := s.joinAdd r.G.ctx (join s r) 1
      u.1.pushHw q { waiting kind s r with bytes := some (record s r), joinBad := u.2.isNone }
  TurnDo (.launch f) 0x0C2 f readable (enters .launch) (fun _ _ => { cp := 1, vol := 64 }) ∧
  TurnDo (.tspawn f) 0x0C4 f readable (enters .task) (fun _ _ => { cp := 1, vol := 64 }) ∧
  TurnDo (.launch f) 0x0C2 f refused (fun s r => s.pushHw 0 (waiting .launch s r)) (fun _ _ => { cp := 1, vol := 64 }) ∧
  TurnDo (.tspawn f) 0x0C4 f refused (fun s r => s.pushHw 0 (waiting .task s r)) (fun _ _ => { cp := 1, vol := 64 }) ∧
  let queue (s : State) (r : Ref) : PortRes := s.port_ r.G.ctx [] .load (addOff (s.ea r f) 0xAF) 1
  TurnDo (.relaunch f) 0x0C3 f (fun s r => (s.ea r f).toNat % 256 = 0 ∧ may s r ∧ (∀ buf pg, queue s r ≠ .page buf pg) ∧
      ∀ ps, queue s r = .ok ps → s.poisonedIn false ps = none)
    (fun s r => s.pushHw (match queue s r with | .ok ps => leNat (s.gather ps) % 64 | _ => 0)
      { waiting .relaunch s r with param := BitVec.ofNat 64 (s.op64 r f.d.toNat), joined := false, order := s.next })
    (fun _ _ => { cp := 1, vol := 64 })

/-- R229, R491: `tawait` of a counter that reads 0, by a thread whose loads are back and whose accesses have their places, goes on; a
negative counter is a deferred fault at the instruction; a positive one makes the thread watch the counter. -/
def Obligations.TaskAwaitResults : Prop := ∀ f : Full,
  let counter (s : State) (ps : List Nat) : Int := sextN (leNat (s.gather ps)) 64
  let reads (s : State) (r : Ref) (ps : List Nat) : Prop := r.T.held = [] ∧ (s.ea r f).toNat % 8 = 0 ∧ r.T.ld = 0 ∧ s.drained r.g r.t = true ∧
    s.port_ r.G.ctx (s.renOf r.G.item) .load (s.ea r f) 8 = .ok ps ∧ (∀ p ∈ ps, p < memSize) ∧ s.poisonedIn false ps = none
  let seen (s : State) (r : Ref) (ps : List Nat) : State := ((s.checkAll ps).traceNote r.g false (s.ea r f) 8).renew r.G.core (ps.headD 0 / 128)
  TurnDo (.tawait f) 0x0C5 f (fun s r => ∃ ps, reads s r ps ∧ counter s ps = 0)
    (fun s r => match s.port_ r.G.ctx (s.renOf r.G.item) .load (s.ea r f) 8 with | .ok ps => seen s r ps | _ => s) (fun _ _ => {}) ∧
  ∀ (s : State) (is : Issue) (r : Ref) (ps : List Nat), Issued s is [r] → Admits 0x0C5 f [r] → executing f [r] = [r] → reads s r ps →
    0 < counter s ps →
    ∃ t, Sys2Proof.Machine.exec (.tawait f) s = .next t ∧ Halts (stir (clockVol 0x0C5 f) (seen s r ps) [r]) t [r] fun _ => .line (ps.headD 0) false

/-! ## Accesses that threads start -/

/-- R172, R331 to R333, R91, R93, R190: a load or a store starts one access, of one event where it is naturally aligned and of one event
a byte otherwise; a request to a peer is cut at its 64-byte lines. Nothing is read or written yet. -/
def Obligations.LoadsAndStoresStart : Prop :=
  let once (x : NewAcc) : TRes := { accs := [x] }
  let natural (a n : Nat) : List (Nat × Nat) := if a % n = 0 then [(0, n)] else (List.range n).map fun k => (k, 1)
  let cut (rem : Option (Nat × Nat × Nat)) (a n : Nat) : List (Nat × Nat) :=
    match rem with | some (_, x, _) => remoteParts x n | none => natural a n
  let load (i : Instr) (op : Nat) (w : Width) (f : Full) : Prop := EachDoes i op f
    (fun s _ r => (∃ ps, s.port_ r.G.ctx (s.renOf r.G.item) .load (s.ea r f) w.bytes = .ok ps) ∨
      ∃ pod x, s.port_ r.G.ctx (s.renOf r.G.item) .load (s.ea r f) w.bytes = .remote pod x)
    fun s _ r =>
      let rem := remoteOf s r .load (s.ea r f) w.bytes
      { once { kind := .load w f.ty f.d.toNat (s.ea r f) none, parts := cut rem (s.ea r f).toNat w.bytes, remote := rem } with
        vol := if rem.isSome then 32 else 0 }
  let store (i : Instr) (op : Nat) (w : Width) (f : Full) : Prop := EachGives i op f fun s r =>
    let rem := remoteOf s r .store (s.ea r f) w.bytes
    once { kind := .store (s.ea r f) (s.stData r w f.d.toNat) none, parts := cut rem (s.ea r f).toNat w.bytes, remote := rem }
  let padLoad (gang : Bool) (i : Instr) (op : Nat) (w : Width) (f : Full) : Prop := EachDoes i op f always fun s _ r =>
    let p := if gang then s.gangTarget r.G r.g (s.eo r f) else (r.g, s.eo r f)
    once { kind := .load w f.ty f.d.toNat (BitVec.ofNat 64 p.2) (some p.1), parts := natural p.2 w.bytes }
  let padStore (gang : Bool) (i : Instr) (op : Nat) (w : Width) (f : Full) : Prop := EachDoes i op f always fun s _ r =>
    let p := if gang then s.gangTarget r.G r.g (s.eo r f) else (r.g, s.eo r f)
    once { kind := .store (BitVec.ofNat 64 p.2) (s.stData r w f.d.toNat) (some p.1), parts := natural p.2 w.bytes }
  let compact (P : Instr → Nat → Width → Full → Prop) (make : Compact → Instr) (cop : BitVec 6) (base : Nat) : Prop :=
    ∀ c, P (make c) (cfull cop c).1 (cwidth (cfull cop c).1 base) (cfull cop c).2
  (∀ w f, load (.ld w f) (0x0D0 + w.code) w f) ∧ compact load .ldCompact 33 0x0D0 ∧
  (∀ w f, store (.st w f) (0x0D5 + w.code) w f) ∧ compact store .stCompact 34 0x0D5 ∧
  (∀ w f, padLoad false (.lds w f) (0x0DA + w.code) w f) ∧ compact (padLoad false) .ldsCompact 35 0x0DA ∧
  (∀ w f, padStore false (.sts w f) (0x0DF + w.code) w f) ∧ compact (padStore false) .stsCompact 36 0x0DF ∧
  (∀ w f, padLoad true (.ldsG w f) (0x0E4 + w.code) w f) ∧ (∀ w f, padStore true (.stsG w f) (0x0E9 + w.code) w f)

/-- R336, R337: an aligned atomic starts one access of one event, which carries the operation, the operand D, for `.cas` the swap value
behind it, and for the returning forms the destination. A misaligned one takes the alignment trap and starts nothing. -/
def Obligations.AtomicsStart : Prop := ∀ f : Full,
  let len : Nat := if f.ty.is64 then 8 else 4
  let atom (i : Instr) (code : Nat) (op : AtomOp) (ret : Bool) : Prop :=
    (TrapsOn i code f (fun s r => (s.ea r f).toNat % len ≠ 0) fun s r =>
      { cause := 0x04, arg := if f.ty.is64 then 3 else 2, addr := (s.ea r f).toNat }) ∧
    EachDoes i code f (fun s _ r => (s.ea r f).toNat % len = 0) fun s _ r =>
    let rem := remoteOf s r (if ret then .atomicRet else .atomic) (s.ea r f) len
    let swap := if op = .cas then (if f.ty.is64 then s.op64 r (f.d.toNat + 2) else s.op32 r (f.d.toNat + 1)) else 0
    { accs := [{ kind := .atom op f.ty (s.opTy r f.ty f.d.toNat) swap (if ret then some f.d.toNat else none) f.pd.toNat (s.ea r f) f.mod.toNat,
                 parts := [(0, len)], remote := rem }],
      vol := if ret then (if rem.isSome then 33 else 1) else 0 }
  atom (.atomAdd f) 0x0F2 .add false ∧ atom (.atomMin f) 0x0F3 .min false ∧ atom (.atomMax f) 0x0F4 .max false ∧
  atom (.atomAnd f) 0x0F5 .and false ∧ atom (.atomOr f) 0x0F6 .or false ∧ atom (.atomXor f) 0x0F7 .xor false ∧
  atom (.atomInc f) 0x0F8 .inc false ∧ atom (.atomDec f) 0x0F9 .dec false ∧ atom (.atomFadd f) 0x0FA .fadd false ∧
  atom (.atomFmin f) 0x0FB .fmin false ∧ atom (.atomFmax f) 0x0FC .fmax false ∧
  atom (.atomrAdd f) 0x0FD .add true ∧ atom (.atomrMin f) 0x0FE .min true ∧ atom (.atomrMax f) 0x0FF .max true ∧
  atom (.atomrAnd f) 0x100 .and true ∧ atom (.atomrOr f) 0x101 .or true ∧ atom (.atomrXor f) 0x102 .xor true ∧
  atom (.atomrInc f) 0x103 .inc true ∧ atom (.atomrDec f) 0x104 .dec true ∧ atom (.atomrFadd f) 0x105 .fadd true ∧
  atom (.atomrFmin f) 0x106 .fmin true ∧ atom (.atomrFmax f) 0x107 .fmax true ∧ atom (.atomrExch f) 0x108 .exch true ∧
  atom (.atomrCas f) 0x109 .cas true

/-- R128, R131, R133 to R135, R338, R339: planar loads, refines and stores of a handle below 65536, a depth from 1 to 24, and a block that
can be read start one access; a refine of an exhausted register starts none. Of the lanes that store to one block the lowest starts its
access for all, and each counts once in ST. -/
def Obligations.PlanarAccessesStart : Prop := ∀ f : Full,
  let h (s : State) (r : Ref) : Nat := s.b32 r f.b
  let b (s : State) (r : Ref) : Nat := s.op32 r f.a.toNat
  let d (s : State) (r : Ref) : Nat := if f.s then s.op32 r f.c.toNat else f.c.toNat
  let ops (s : State) (r : Ref) : Prop := h s r < 65536 ∧ 1 ≤ d s r ∧ d s r ≤ 24
  let readable (s : State) (r : Ref) (want : Pde → Nat → List Nat) : Prop := ∃ p x, s.pdeFor r.G.ctx (h s r) (b s r) false = .ok p ∧
    s.readBlock r.G.ctx (s.renOf r.G.item) p (b s r) (want p) = .ok x
  let full (r : Ref) : Bool := bitN (r.T.tag f.d.toNat) 15 == 1 && bitN (r.T.tag f.d.toNat) 13 == 1
  let same (s : State) (xs : List Ref) (r : Ref) : List Ref := xs.filter fun q => h s q == h s r && b s q == b s r
  let store (i : Instr) (code : Nat) (merge : Bool) : Prop := EachDoes i code f
    (fun s xs r => ops s r ∧ ∀ lo, (same s xs r).head? = some lo → bitN (lo.T.tag f.d.toNat) 15 = 1)
    fun s xs r => match (same s xs r).head? with
      | none => {}
      | some lo =>
        if lo.t = r.t ∧ lo.g = r.g then
          let lanes := (same s xs r).map fun q => (q.T.lane, q.g, q.t, BitVec.ofNat 32 (q.T.v f.d.toNat))
          { accs := [{ kind := .pst merge (h s r) (b s r) (d s lo) lanes (BitVec.ofNat 32 (lo.T.tag f.d.toNat)) f.pd.toNat }] }
        else { st := 1 }
  EachDoes (.ldp f) 0x0EE f (fun s _ r => ops s r ∧ readable s r fun p => planesTo p (d s r))
    (fun s _ r => { accs := [{ kind := .ldp (h s r) (b s r) (d s r) f.d.toNat }] }) ∧
  EachDoes (.prf f) 0x0EF f (fun s _ r => ops s r ∧ full r = true) (fun _ _ _ => givesPred f false) ∧
  EachDoes (.prf f) 0x0EF f (fun s _ r => ops s r ∧ full r = false ∧ readable s r fun p => prfWant p (d s r) (r.T.tag f.d.toNat))
    (fun s _ r => { accs := [{ kind := .prf (h s r) (b s r) (d s r) f.d.toNat f.pd.toNat }] }) ∧
  store (.pst f) 0x0F0 false ∧ store (.pstMerge f) 0x0F1 true

/-- R170, R209 to R219, R288, R335, R340, R341: a hitch of a line that the port lets it read, into slots that no other slot overlaps, and
a load of an activation bank start an access; `hclr` starts one of the scratchpad; `unhitch` begins the removal of a live slot; `lpf`
writes no register. -/
def Obligations.HitchAndPrefetchStart : Prop :=
  let hitched (i : Full → Instr) (code : Nat) (each : Bool) : Prop := ∀ f : Full,
    let n : Nat := if each then f.mod.toNat / 4 + 1 else 1
    let off (s : State) (r : Ref) : Nat := s.op32 r f.d.toNat
    let line (s : State) (r : Ref) : Addr := s.ea r f &&& ~~~(63#64)
    AllDo (i f) code f
      (fun s rs => (∀ lo, rs.head? = some lo → lo.G.inTags (hitchTag f) = true) ∧
        (∀ r ∈ rs, 80 * n ≤ r.G.lr.alloc ∧ off s r % 16 = 0 ∧
          (∀ x ∈ s.slotRuns r.g, ringOverlap r.G.lr.alloc (off s r % r.G.lr.alloc) (80 * n) x.1 x.2 = false) ∧
          (∀ q ∈ rs, q ≠ r → q.g = r.g → ringOverlap r.G.lr.alloc (off s r % r.G.lr.alloc) (80 * n) (off s q % q.G.lr.alloc) (80 * n) = false) ∧
          (∀ c, s.ctx? r.G.ctx = some c → ¬ ((s.buf c (bufOf (s.ea r f))).valid = true ∧ (s.buf c (bufOf (s.ea r f))).remote = true)) ∧
          ∃ ps, s.port_ r.G.ctx (s.renOf r.G.item) .load (line s r) 64 = .ok ps))
      (fun s _ => s)
      fun s _ r => { accs := [{ kind := .hitch (off s r % r.G.lr.alloc) (line s r) 0 n each (hitchTag f) f.pd.toNat, parts := [(0, 64)] }], vol := 4 }
  let cleared (i : Instr) (code : Nat) (cond : Bool) (f : Full) : Prop := EachDoes i code f (fun s _ r => s.eo r f % 16 = 0) fun s _ r =>
    { accs := [{ kind := .hclr (s.eo r f % r.G.lr.alloc) (if cond then some (BitVec.ofNat 32 (s.op32 r f.d.toNat)) else none) f.pd.toNat,
                 parts := [(0, 16)] }] }
  hitched .hitch 0x10A false ∧ hitched .hitchEach 0x10B true ∧
  BothForms .hclr 42 .hclrCompact (fun i f => cleared i 0x10D false f) ∧ (∀ f, cleared (.hclrEq f) 0x10E true f) ∧
  (∀ f, TurnDo (.unhitch f) 0x10C f (fun _ _ => True)
    (fun s r => match (s.group? r.g).bind fun G => Map.get? G.slots (s.eo r f % r.G.lr.alloc) with
      | none => s
      | some x =>
        if x.gone ∨ x.removing then s
        else
          let off := s.eo r f % r.G.lr.alloc
          let u := s.modG r.g fun G => { G with slots := Map.set G.slots off x.remove }
          (if x.severed then (u.slotHeaders r.g off x.remove).modG r.g (·.setTag x.tag true) else u).trimLines)
    (fun _ _ => {})) ∧
  (∀ f, TurnDo (.lpf f) 0x10F f (fun _ _ => True) (fun s r => match s.port_ r.G.ctx (s.renOf r.G.item) .load (s.ea r f) 1 with
      | .ok ps =>
        let u := (if f.mod.toNat < 2 then s.readTouch r.G.core (ps.headD 0 / 128) else s).modCore r.G.core fun c => { c with pts := (s.core r.G.core).pts }
        if f.mod = 1 then u.modPort fun p => { p with copies := p.copies.filter fun c =>
          !(c.line == ps.headD 0 / 128 && c.level == 0 && c.unit == r.G.core) || s.port.copies.contains c } else u
      | _ => s)
    (fun _ _ => {})) ∧
  (∀ f, EachDoes (.actld f) 0x070 f
    (fun s _ r => (s.ea r f).toNat % 16 = 0 ∧ ((∃ ps, s.port_ r.G.ctx (s.renOf r.G.item) .load (s.ea r f) 4112 = .ok ps) ∨
      ∃ pod x, s.port_ r.G.ctx (s.renOf r.G.item) .load (s.ea r f) 4112 = .remote pod x))
    fun s _ r => { accs := [{ kind := .actld (if f.s then 1 else 0) (s.ea r f) 0, parts := (List.range 257).map fun k => (16 * k, 16),
                              remote := remoteOf s r .load (s.ea r f) 4112 }],
                    vol := if (remoteOf s r .load (s.ea r f) 4112).isSome then 32 else 0 })

/-! ## Engine jobs -/

/-- R71, R100, R182, R342 to R348, R76: a copy, plane copy or transform whose operands pass their checks enters the shortest queue of
its die's engines, counts once in CP and in its tag or barrier, and sets `PD`; where every queue of the die is full, `PD` (other than p7)
is cleared instead. -/
def Obligations.EngineJobsEnterQueues : Prop := ∀ f : Full,
  let bar (s : State) (r : Ref) : Bar := s.bar (s.place r (f.ext.getLsbD 0) (s.op32 r f.c.toNat)).1 (s.place r (f.ext.getLsbD 0) (s.op32 r f.c.toNat)).2
  let bind (s : State) (r : Ref) : Bind :=
    if f.s then .bar (s.place r (f.ext.getLsbD 0) (s.op32 r f.c.toNat)).1 (s.place r (f.ext.getLsbD 0) (s.op32 r f.c.toNat)).2 else .tag f.c.toNat
  -- the operands, the tag or barrier, the leave and the queues of what a thread asks for
  let bound (s : State) (r : Ref) (q : JobReq) : Prop := if f.s = true
    then s.op32 r f.c.toNat % 16 = 0 ∧ (bar s r).exp ≠ 0 ∧ (bar s r).txin + q.cin < 2 ^ 24 ∧ (bar s r).txout + q.cout < 2 ^ 24
    else r.G.inTags f.c.toNat = true ∧ s.tagFull r.g f.c.toNat = false
  let ready (s : State) (r : Ref) (q : JobReq) : Prop := bound s r q ∧ (q.level ≤ r.G.grant ∨ r.T.wait = .passed) ∧ r.T.cp < 63 ∧
    s.drained r.g r.t = true ∧ s.tableFull = false
  let job (i : Instr) (code : Nat) (cond : State → Ref → Prop) (q : State → Ref → JobReq) : Prop :=
    TurnDo i code f (fun s r => cond s r ∧ ready s r (q s r) ∧ s.enginesFull (dieOf r.G.core) = false)
      (fun s r => s.enterJob r (q s r) f.mod.toNat (bind s r) (some (s.pickEngine (dieOf r.G.core))))
      (fun _ _ => { cp := 1, preds := [(f.pd.toNat, true)] }) ∧
    TurnDo i code f (fun s r => cond s r ∧ ready s r (q s r) ∧ s.enginesFull (dieOf r.G.core) = true ∧ f.pd ≠ 7) (fun s _ => s)
      (fun _ _ => givesPred f false)
  let n (s : State) (r : Ref) : Nat := s.b32 r f.b
  let dev (s : State) (r : Ref) (x : BitVec 8) : Addr := BitVec.ofNat 64 (s.op64 r x.toNat)
  let own (s : State) (r : Ref) (x : BitVec 8) : Place := .pad r.g (s.op32 r x.toNat)
  let gang (s : State) (r : Ref) (x : BitVec 8) : Place := .pad (s.place r true (s.op32 r x.toNat)).1 (s.place r true (s.op32 r x.toNat)).2
  let fits (s : State) (r : Ref) : Prop := n s r ≤ r.G.lr.alloc
  let blk (s : State) (r : Ref) : Nat := s.op64 r f.a.toNat % 2 ^ 32
  let cnt (s : State) (r : Ref) : Nat := s.op64 r f.a.toNat / 2 ^ 32
  let h (s : State) (r : Ref) : Nat := bitsN (n s r) 15 0
  let k (s : State) (r : Ref) : Nat := bitsN (n s r) 20 16
  let m (s : State) (r : Ref) : Nat := bitsN (n s r) 25 21
  let planes (s : State) (r : Ref) : Prop := 1 ≤ cnt s r ∧ cnt s r < 2 ^ 24 ∧ bitsN (n s r) 31 26 = 0 ∧ 1 ≤ k s r ∧ k s r ≤ m s r ∧ m s r ≤ 24
  let image (s : State) (r : Ref) : Prop := planes s r ∧ (m s r + 2) * planeS (cnt s r) ≤ r.G.lr.alloc ∧ s.op32 r f.d.toNat % 32 = 0
  let leave (units : Nat) : Nat := if 32768 < units then 1 else 0
  let leaveOf (x y : Nat) : Nat := if 2 ^ 20 < max x y then 1 else 0
  job (.copy f) 0x120 (fun _ _ => True) (fun s r =>
    { kind := .copy (.dev (dev s r f.d)) (.dev (dev s r f.a)) (n s r), cin := s.secCount (.dev (dev s r f.d)) (n s r) }) ∧
  job (.copyIn f) 0x121 fits (fun s r =>
    { kind := .copy (own s r f.d) (.dev (dev s r f.a)) (n s r), cin := s.secCount (own s r f.d) (n s r) }) ∧
  job (.copyOut f) 0x122 fits (fun s r =>
    { kind := .copy (.dev (dev s r f.d)) (own s r f.a) (n s r), cout := s.secCount (own s r f.a) (n s r) }) ∧
  job (.copySs f) 0x123 fits (fun s r =>
    { kind := .copy (gang s r f.d) (gang s r f.a) (n s r), cin := s.secCount (gang s r f.d) (n s r), cout := s.secCount (gang s r f.a) (n s r) }) ∧
  job (.copyLs f) 0x124 (fun _ _ => True) (fun s r =>
    { kind := .copyLs f.d.toNat (dev s r f.a) (n s r), cin := s.secCount (.dev (dev s r f.a)) (n s r) }) ∧
  job (.pcopyIn f) 0x125 image (fun s r =>
    let c := (m s r - k s r + 3) * planeS (cnt s r) / 32
    { kind := .pcopyIn (s.op32 r f.d.toNat) (h s r) (blk s r) (cnt s r) (k s r) (m s r), cin := c, level := leave c, planes := some (m s r) }) ∧
  job (.pcopyOut f) 0x126 (fun s r => image s r ∧ k s r = 1) (fun s r =>
    let c := (m s r + 2) * planeS (cnt s r) / 32
    { kind := .pcopyOut (s.op32 r f.d.toNat) (h s r) (blk s r) (cnt s r) (m s r), cout := c, level := leave c, planes := some (m s r) }) ∧
  job (.pcopyLs f) 0x127 planes (fun s r =>
    let c := (m s r + 2) * planeLines (blk s r) (cnt s r)
    { kind := .pcopyLs f.d.toNat (h s r) (blk s r) (cnt s r) (k s r) (m s r), cin := c, level := leave c, planes := some (m s r) }) ∧
  job (.txfm f) 0x128 (fun s r => n s r ≤ 4 ∧ (dev s r f.d).toNat % 64 = 0 ∧ (dev s r f.a).toNat % 64 = 0) (fun s r =>
    let q : JobReq := { kind := .txfm (n s r) (dev s r f.d) (dev s r f.a) }
    match s.txLayouts r.G.ctx (n s r) (dev s r f.d) (dev s r f.a) with
    | some (x :: y :: _) =>
      let held := match s.pde r.G.ctx x.phnd with | .ok p => p.d | .error _ => 24
      { q with cin := y.sectors, level := leaveOf (x.size held) (y.size y.pdepth) }
    | _ => q)

/-- R343, R100, R102: a job that enters its queue is one more at the end of the device's jobs, not yet admitted; its tag counts one
more and reads 0, or its barrier's transfer counts rise by its counts, and for a plane copy its watermark starts. -/
def Obligations.JobEntry : Prop := ∀ (s : State) (r : Ref) (q : JobReq) (scope : Nat) (b : Bind) (e : Option Nat),
  let t := s.enterJob r q scope b e
  (∃ j, t.jobs = s.jobs ++ [j] ∧ j.id = s.next ∧ j.ctx = r.G.ctx ∧ j.grp = r.g ∧ j.tid = r.t ∧ j.item = r.G.item ∧ j.core = r.G.core ∧
    j.kind = q.kind ∧ j.scope = scope ∧ j.bind = b ∧ j.engine = e ∧ j.admitted = false ∧ j.owedIn = q.cin ∧ j.owedOut = q.cout) ∧
  (∀ n G, b = .tag n → s.group? r.g = some G → ∃ G', t.group? r.g = some G' ∧ G'.tagBit n = false ∧
    Map.getD G'.tagCnt 0 n = Map.getD G.tagCnt 0 n + 1) ∧
  (∀ g o, b = .bar g o → (s.group? g).isSome → (s.bar g o).txin + q.cin < 2 ^ 24 → (s.bar g o).txout + q.cout < 2 ^ 24 →
    (0 < (s.bar g o).txin + q.cin ∨ 0 < (s.bar g o).txout + q.cout ∨ 0 < (s.bar g o).pend) →
    (t.bar g o).txin = (s.bar g o).txin + q.cin ∧ (t.bar g o).txout = (s.bar g o).txout + q.cout ∧ (t.bar g o).gen = (s.bar g o).gen ∧
    (t.bar g o).pend = (s.bar g o).pend ∧ (∀ m, q.planes = some m → m < 32 → (t.bar g o).pmode = 1 ∧ (t.bar g o).plhi = m ∧ (t.bar g o).plwm = 31))

/-- R95, R350, R351, R106, R352: a lease takes the lowest free number of the group's four, a query reads its short count and pinned
lines, `unlease` gives it back, and a lease past its expiry is none. `nmc` first asks for its card, as one access of four 16-byte events,
and completes with the card as read: it becomes a job in no engine's queue. -/
def Obligations.LeaseAndNearMemoryResults : Prop := ∀ f : Full,
  let leases (s : State) (r : Ref) : Sparse Lease := match s.group? r.g with | some G => G.leases | none => []
  let held (s : State) (r : Ref) (n : Nat) : Option Lease := (Map.get? (leases s r) n).filter fun l => decide (s.clock < l.expiry)
  let free (s : State) (r : Ref) : Option Nat := (List.range 4).find? fun n => (held s r n).isNone
  TurnDo (.lease f) 0x129 f
    (fun s r => 1 ≤ s.op32 r f.a.toNat ∧ s.op32 r f.a.toNat ≤ 393216 ∧ 1 ≤ s.b32 r f.b)
    (fun s r => match free s r with
      | none => s
      | some n => ({ s with next := s.next + 1 } : State).modG r.g fun G =>
          { G with leases := Map.set G.leases n { id := s.next, budget := s.op32 r f.a.toNat, expiry := s.clock + s.b32 r f.b } })
    (fun s r => match free s r with
      | none => givesPred f false
      | some n => { givesWord f n with preds := [(f.pd.toNat, true)] }) ∧
  TurnDo (.leaseQ f) 0x12A f (fun s r => s.op32 r f.a.toNat ≤ 3) (fun s _ => s)
    (fun s r => match held s r (s.op32 r f.a.toNat) with
      | none => { givesPair f 0 with preds := [(f.pd.toNat, false)] }
      | some l => { givesPair f (min l.short (2 ^ 32 - 1) + 2 ^ 32 * l.lines.length) with preds := [(f.pd.toNat, true)] }) ∧
  TurnDo (.unlease f) 0x12B f (fun s r => s.op32 r f.a.toNat ≤ 3)
    (fun s r => s.modG r.g fun G => { G with leases := Map.erase G.leases (s.op32 r f.a.toNat) }) (fun _ _ => {}) ∧
  let may (s : State) (r : Ref) : Prop := (s.ea r f).toNat % 64 = 0 ∧ (3 ≤ r.G.grant ∨ r.T.wait = .passed) ∧ r.T.cp < 63 ∧
    s.drained r.g r.t = true ∧ s.tableFull = false
  let card (r : Ref) : Nat := leNat r.imageBytes
  (∀ (s : State) (is : Issue) (r : Ref) (ps : List Nat), Issued s is [r] → Admits 0x12C f [r] → executing f [r] = [r] → may s r → r.T.ld < 63 →
    r.T.image = none → s.port_ r.G.ctx (s.renOf r.G.item) .load (s.ea r f) 64 = .ok ps →
    let asked : Access := { id := s.next, order := s.next, grp := r.g, tid := r.t, lane := r.T.lane, parts := [(0, 16), (16, 16), (32, 16), (48, 16)],
                            kind := .image (s.ea r f) none [(r.g, r.t)] }
    let u : State := ({ s with accesses := s.accesses ++ [asked], next := s.next + 1 } : State).modT r.g r.t fun T =>
      { T with image := some (none, []), ld := T.ld + 1 }
    ∃ t, Sys2Proof.Machine.exec (.nmc f) s = .next t ∧ Halts (stir (clockVol 0x12C f) u [r]) t [r] fun _ => .image s.next) ∧
  TurnDo (.nmc f) 0x12C f
    (fun s r => may s r ∧ r.T.image.isSome ∧
      if bitN (card r) 8 = 0 then r.G.inTags (bitsN (card r) 325 320) = true ∧ s.tagFull r.g (bitsN (card r) 325 320) = false
      else bitsN (card r) 351 320 % 16 = 0)
    (fun s r => s.enterJob r { kind := nmcOf (card r), cin := bitN (card r) 8, level := 3 } f.mod.toNat
      (if bitN (card r) 8 = 0 then .tag (bitsN (card r) 325 320) else .bar r.g (bitsN (card r) 351 320)) none)
    (fun _ _ => { cp := 1 })

/-! ## The matrix engine -/

/-- R375 to R380, R382, R383, R394: a load or store of a tile or accumulator begins an operation that holds its operands as read, and
every thread counts it in TL: the instruction completes. Its rows move in the events it still owes (R182). -/
def Obligations.TileOperationsStart : Prop := ∀ f : Full,
  let starts (i : Instr) (code : Nat) (u : MUse) (ok : State → Ref → Prop) (o : State → Ref → TileOp) : Prop :=
    AllDo i code f
      (fun s rs => mayUse u s rs ∧ (∀ lo, rs.head? = some lo → ok s lo) ∧ ∀ r ∈ rs, r.T.tl < 15 ∧ s.drained r.g r.t = true)
      (fun s rs => onLowest s rs fun lo =>
        rs.foldl (fun (s : State) r => s.modT r.g r.t fun T => { T with tl := T.tl + 1 })
          (({ s with next := s.next + 1 } : State).modG lo.g fun G =>
            { G with tileOps := G.tileOps ++
                [{ o s lo with id := s.next, order := s.next, tids := rs.map (·.t), units := List.range (o s lo).cuts.length }] }))
      (fun _ _ _ => {})
  let op (isAcc load pad tr : Bool) (s : State) (lo : Ref) : TileOp :=
    { id := 0, order := 0, tids := [], isAcc := isAcc, num := f.d.toNat, load := load, pad := pad,
      addr := if pad then 0 else BitVec.ofNat 64 (s.op64 lo f.a.toNat), off := if pad then s.op32 lo f.a.toNat else 0,
      stride := sextN (s.b32 lo f.b) 32, ty := f.ty, ext := f.ext.toNat, mod := f.mod.toNat, trans := tr }
  let aligned (pad : Bool) (s : State) (lo : Ref) : Prop := (if pad then s.op32 lo f.a.toNat else s.op64 lo f.a.toNat) % 16 = 0 ∧ s.b32 lo f.b % 16 = 0
  starts (.tld f) 0x150 { wt := [f.d.toNat] } (aligned false) (op false true false false) ∧
  starts (.tldPl f) 0x150 { wt := [f.d.toNat] } (fun s lo => s.b32 lo f.b < 65536)
    (fun s lo => { op false true true false s lo with planar := some (s.b32 lo f.b, s.op32 lo f.a.toNat, f.c.toNat) }) ∧
  starts (.tldS f) 0x151 { wt := [f.d.toNat] } (aligned true) (op false true true false) ∧
  starts (.tldT f) 0x152 { wt := [f.d.toNat] } (aligned false) (op false true false true) ∧
  starts (.tst f) 0x153 { rt := [f.d.toNat] } (aligned false) (op false false false false) ∧
  starts (.tstS f) 0x154 { rt := [f.d.toNat] } (aligned true) (op false false true false) ∧
  starts (.accld f) 0x15C { wa := [f.d.toNat] } (aligned false) (op true true false false) ∧
  starts (.accldS f) 0x15D { wa := [f.d.toNat] } (aligned true) (op true true true false) ∧
  starts (.accst f) 0x15E { ra := [f.d.toNat] } (aligned false) (op true false false false) ∧
  starts (.accstS f) 0x15F { ra := [f.d.toNat] } (aligned true) (op true false true false)

/-- R164 to R166, R385, R386: `mma` of two valid tiles of a listed pairing completes: it adds to each accumulator word the exact sum of the products of
a row of A with a row of B; an s32 word wraps or saturates, an FP32 word is a value within the bound of R165. -/
def Obligations.MatrixMultiplyResults : Prop := ∀ (f : Full) (isInt : Bool) (K : Nat),
  let num : Nat := f.d.toNat
  let rows (G : Group) (t seg : Nat) (i : Nat) : List FVal := ((G.tile t).elems i seg K).1
  let word (s : State) (G : Group) (k : Nat) : Nat :=
    let x := (Sum.ofAcc isInt (G.acc num (k / 32) (k % 32))).dot (rows G f.a.toNat 0 (k / 32)) (rows G (numB f) (32 * f.c.toNat) (k % 32))
    if isInt then x.intResult (bitN f.mod.toNat 2 == 1) else x.result (Config.accValue (s.free + k))
  let flags (G : Group) : Nat := (List.range 32).foldl (fun x i =>
    x ||| ((G.tile f.a.toNat).elems i 0 K).2 ||| ((G.tile (numB f)).elems i (32 * f.c.toNat) K).2) 0
  AllDo (.mma f) 0x156 f
    (fun s rs => mayUse { rt := [f.a.toNat, numB f], ra := [num], wa := [num], engine := true } s rs ∧
      ∀ lo, rs.head? = some lo → ∃ G, s.group? lo.g = some G ∧ (G.tile f.a.toNat).valid = true ∧ (G.tile (numB f)).valid = true ∧
        pairing (G.tile f.a.toNat).fmt (G.tile (numB f)).fmt = some (isInt, K) ∧
        f.c.toNat < (if (G.tile f.a.toNat).fmt = 16 then (if (G.tile (numB f)).fmt = 14 then 4 else 2) else 1))
    (fun s rs => onLowest s rs fun lo =>
      { s.modG lo.g fun G => (List.range 1024).foldl (fun (H : Group) k => H.setAcc num (k / 32) (k % 32) (word s G k)) G with
        free := s.free + if isInt then 0 else 1024 })
    (fun s rs _ => match rs.head?.bind fun lo => s.group? lo.g with | some G => { flags := flags G } | none => {})

/-- R388 to R393, R76: a matrix loop whose descriptors and context pass their checks, of a group whose last loop is over, enters the
engine and the instruction completes; `$mrow` shows it at step 0, row 0. `mrst` completes with the restart address set or taken off. Beyond 65,536 steps it needs leave of level 2. -/
def Obligations.MatrixLoopsStart : Prop := ∀ f : Full,
  let use : MUse := { ra := [f.d.toNat], wa := [f.d.toNat], engine := true }
  let ready (steps : Nat) (s : State) (rs : List Ref) (lo : Ref) : Prop := (∃ G, s.group? lo.g = some G ∧ G.loop = none) ∧
    (∀ r ∈ rs, s.drained r.g r.t = true) ∧ (65536 < steps → 2 ≤ lo.G.grant ∨ lo.T.wait = .passed)
  let enters (s : State) (rs : List Ref) (lo : Ref) (order : Nat) (kind : LoopKind) (steps : Nat) (isInt : Bool) : State :=
    ({ s with next := s.next + 1 } : State).modG lo.g fun G => { G with
      loop := some { order := order, kind := kind, acc := f.d.toNat, sat := bitN f.mod.toNat 2 == 1, steps := steps, isInt := isInt,
                     tids := rs.map (·.t), charge := if 65536 < steps then s.leaveId lo.g else 0 },
      mrow := 0x40 }
  let A (s : State) (lo : Ref) : MDesc × Bool := MDesc.ofNat (s.op128 lo f.a.toNat)
  let B (s : State) (lo : Ref) : MDesc × Bool := MDesc.ofNat (s.op128 lo f.c.toNat)
  let sparse (i : Instr) (code : Nat) (tr : Bool) : Prop := ∀ isInt K, AllDo i code f
    (fun s rs => mayUse use s rs ∧ ∀ lo, rs.head? = some lo → twCheck f true s lo = none ∧ ∃ c, s.tw lo.g (f.mod.toNat % 4) = some c ∧
      s.b32 lo f.b < (if tr then c.cols else c.rows) ∧ (B s lo).2 = true ∧ (B s lo).1.inc = 0 ∧ (B s lo).1.trans = false ∧
      (B s lo).1.aligned = none ∧ (tr = true → c.oneWay = none) ∧ (B s lo).1.fmt ≠ 16 ∧ pairing (c.fmtb % 256) (B s lo).1.fmt = some (isInt, K) ∧
      ∃ u ls, sparseLines s lo c tr (s.b32 lo f.b) 32 = .ok (u, ls) ∧ (∀ l ∈ ls, ∀ e ∈ l, e.2 < 2 ^ 32 - 1) ∧
        ready (ls.foldl (fun n l => n + (l.length + 31) / 32) 0) u rs lo)
    (fun s rs => onLowest s rs fun lo => match s.tw lo.g (f.mod.toNat % 4) with
      | none => s
      | some c => match sparseLines s lo c tr (s.b32 lo f.b) 32 with
        | .error _ => s
        | .ok (u, ls) => enters u rs lo u.next (.sparse (f.mod.toNat % 4) (s.b32 lo f.b) (B s lo).1 tr)
            (ls.foldl (fun n l => n + (l.length + 31) / 32) 0) isInt)
    (fun _ _ _ => {})
  (∀ isInt K, AllDo (.mloop f) 0x157 f
    (fun s rs => mayUse use s rs ∧ ∀ lo, rs.head? = some lo → (A s lo).2 = true ∧ (B s lo).2 = true ∧ 1 ≤ s.b32 lo f.b ∧
      (A s lo).1.aligned = none ∧ (B s lo).1.aligned = none ∧ pairing (A s lo).1.fmt (B s lo).1.fmt = some (isInt, K) ∧ ready (s.b32 lo f.b) s rs lo)
    (fun s rs => onLowest s rs fun lo => enters s rs lo s.next (.dense (A s lo).1 (B s lo).1) (s.b32 lo f.b) isInt) (fun _ _ _ => {})) ∧
  sparse (.mlsp f) 0x158 false ∧ sparse (.mlspT f) 0x159 true ∧
  AllDo (.mrst f) 0x15A f (fun _ _ => True)
    (fun s rs => rs.foldl (fun (s : State) r => s.modT r.g r.t fun T => { T with restart := some (addOff r.T.pc (4 * dispOf f.b)) }) s) (fun _ _ _ => {}) ∧
  AllDo (.mrstOff f) 0x15A f (fun _ _ => True)
    (fun s rs => rs.foldl (fun (s : State) r => s.modT r.g r.t fun T => { T with restart := none }) s) (fun _ _ _ => {})

/-- R384, R394, R395: `tzero` makes a tile of zeros, of its TYPE or planar with row tags of exact zeros; `accz` clears, `accmv` copies, an
accumulator; `accmv.t` packs one into a tile; `permx.t` moves or adds rows. Each completes. -/
def Obligations.TileAndAccumulatorResults : Prop := ∀ f : Full,
  let sets (i : Instr) (code : Nat) (u : MUse) (ok : Group → Prop) (act : Group → Group) : Prop := AllDo i code f
    (fun s rs => mayUse u s rs ∧ ∀ lo, rs.head? = some lo → ∃ G, s.group? lo.g = some G ∧ ok G)
    (fun s rs => onLowest s rs fun lo => s.modG lo.g act) (fun _ _ _ => {})
  let tile (n : Nat) (t : Tile) (G : Group) : Group := { G with tiles := Map.put {} G.tiles n t }
  sets (.tzero f) 0x155 { wt := [f.d.toNat] } (fun _ => True) (tile f.d.toNat
    { data := [], fmt := f.ty.code, valid := true, b8p := if f.ty = .f8 then f.ext.toNat % 8 else 0, b8u := decide (f.ty = .f8 ∧ 8 ≤ f.ext.toNat),
      b8inf := decide (f.ty = .f8 ∧ 8 ≤ f.mod.toNat) }) ∧
  sets (.tzeroPl f) 0x155 { wt := [f.d.toNat] } (fun _ => True)
    (tile f.d.toNat { fmt := 16, valid := true, rowTags := (List.range 32).map fun i => (i, 0xA000) }) ∧
  sets (.accz f) 0x15B { wa := [f.d.toNat] } (fun _ => True) (fun G => { G with accs := G.accs.filter fun e => e.1 / 1024 != f.d.toNat }) ∧
  sets (.accmv f) 0x160 { ra := [f.a.toNat], wa := [f.d.toNat] } (fun _ => True) (fun G =>
    (List.range 1024).foldl (fun (H : Group) k => H.setAcc f.d.toNat (k / 32) (k % 32) (G.acc f.a.toNat (k / 32) (k % 32))) G) ∧
  sets (.accmvT f) 0x160 { ra := [f.a.toNat], wt := [f.d.toNat] } (fun _ => True) (fun G => tile f.d.toNat (accTile G f.a.toNat f) G) ∧
  sets (.permxT f) 0x161 { rt := [f.a.toNat, numB f], wt := [f.d.toNat], engine := true } (fun _ => True)
    (fun G => tile f.d.toNat (permTile (G.tile f.a.toNat) (G.tile (numB f))) G) ∧
  sets (.permxTAdd f) 0x161 { rt := [f.a.toNat, numB f], wt := [f.d.toNat], engine := true }
    (fun G => (G.tile f.a.toNat).fmt = 11 ∧ (G.tile f.a.toNat).valid = true)
    (fun G => tile f.d.toNat (sumTile (G.tile f.a.toNat) (G.tile (numB f))) G)

/-! ## Twill -/

/-- R182, R363 to R371, R487: what a Twill instruction reads first it asks for as an access of the threads, the descriptor and the head of
an image in 16-byte events and their words one by one, and with the bytes as read it completes: a legal program is loaded into its context; a
line is entered and delivered to the lanes in order, with all ones past its end, each delivery an access of its own; a context is saved to
and restored from its image in the scratchpad. -/
def Obligations.TwillResults : Prop := ∀ f : Full,
  let cn : Nat := f.mod.toNat % 4
  let ready (needs : Bool) (s : State) (rs : List Ref) (lo : Ref) : Prop := (∀ r ∈ rs, s.drained r.g r.t = true) ∧ twCheck f needs s lo = none
  -- an image is asked for
  let asked (s : State) (rs : List Ref) (lo : Ref) (a : Addr) (pad : Option Nat) (parts : List (Nat × Nat)) : State :=
    let x : Access := { id := s.next, order := s.next, grp := lo.g, tid := lo.t, lane := lo.T.lane, parts := parts,
                        kind := .image a pad (rs.map fun r => (r.g, r.t)) }
    rs.foldl (fun (s : State) r => s.modT r.g r.t fun T => { T with ld := T.ld + 1 })
      ((({ s with accesses := s.accesses ++ [x], next := s.next + 1 } : State).modT lo.g lo.t fun T => { T with image := some (some cn, []) }))
  let asks (i : Instr) (code : Nat) (needs : Bool) (ok : State → Ref → Prop) (a : State → Ref → Addr) (pad : Bool) : Prop :=
    ∀ (s : State) (is : Issue) (rs : List Ref) (lo : Ref), Issued s is rs → Admits code f rs → executing f rs = rs → rs.head? = some lo →
      ready needs s rs lo → ok s lo → lo.T.image = none → (∀ r ∈ rs, r.T.ld < 63) →
      (pad = false → ∀ k, k < 4 → ∃ qs, s.port_ lo.G.ctx (s.renOf lo.G.item) .load (addOff (a s lo) (16 * k : Nat)) 16 = .ok qs) →
      ∃ t, Sys2Proof.Machine.exec i s = .next t ∧
        Halts (stir (clockVol code f) (asked s rs lo (a s lo) (if pad then some lo.g else none) [(0, 16), (16, 16), (32, 16), (48, 16)]) rs) t rs
          fun _ => .image s.next
  -- a program as read
  let D (lo : Ref) : Nat := leNat (lo.imageBytes.take 64)
  let nw (lo : Ref) : Nat := bitsN (D lo) 214 208
  let W (s : State) (lo : Ref) : TwCtx :=
    { desc := (s.ea lo f).toNat, values := BitVec.ofNat 64 (bitsN (D lo) 63 0), rowptr := BitVec.ofNat 64 (bitsN (D lo) 319 256),
      rows := bitsN (D lo) 159 128, cols := bitsN (D lo) 191 160, fmtb := bitsN (D lo) 207 192,
      words := (List.range (nw lo)).map (fun i => leNat ((lo.imageBytes.drop (64 + 8 * i)).take 8)), seed := s.op32 lo f.d.toNat,
      st := .loaded, dirCol := false, line := 0, pos := 0 }
  asks (.twld f) 0x190 false (fun s lo => (s.ea lo f).toNat % 64 = 0) (fun s lo => s.ea lo f) false ∧
  AllDo (.twld f) 0x190 f
    (fun s rs => ∀ lo, rs.head? = some lo → ready false s rs lo ∧ (s.ea lo f).toNat % 64 = 0 ∧ 64 + 8 * nw lo ≤ lo.imageBytes.length ∧
      bitN (D lo) 215 = 0 ∧ bitsN (D lo) 255 216 = 0 ∧ bitsN (D lo) 511 320 = 0 ∧ bitsN (D lo) 127 64 % 8 = 0 ∧
      twFieldsOk (W s lo).rows (W s lo).cols (W s lo).fmtb (nw lo) = true ∧ (W s lo).malformed = none)
    (fun s rs => onLowest s rs fun lo =>
      let c := W s lo
      if (reached c.words c.rows c.cols).any fun e => nodeKind (c.words.getD e.1 0) == 5 && bitN (c.words.getD e.1 0) 38 == 1
      then (s.setTw lo.g cn c).modG lo.g (·.vol 3) else s.setTw lo.g cn c)
    (fun _ _ _ => {}) ∧
  -- deliveries
  let line (c : TwCtx) : List (Nat × Nat × Nat) := c.lineOf c.dirCol c.line
  let here (c : TwCtx) (n : Nat) : List (Nat × Nat × Nat) := ((line c).drop c.pos).take n
  let table (c : TwCtx) (n : Nat) : List Nat := if c.tabled then ((here c n).map fun e => e.2.1).eraseDups else []
  let index (lo : Ref) (c : TwCtx) (n : Nat) (e : Nat × Nat × Nat) : Nat :=
    (if c.tabled then leNat ((lo.imageBytes.drop (4 * (table c n).idxOf e.2.1)).take 4) else c.countTo e.2.1) + e.2.2
  let fine (c : TwCtx) (rs : List Ref) (lo : Ref) : Prop := 4 * (table c rs.length).length ≤ lo.imageBytes.length ∧
    ∀ e ∈ here c rs.length, index lo c rs.length e < 2 ^ 32 - 1
  let ended (c : TwCtx) (n : Nat) : Bool := decide (c.pos + (here c n).length = (line c).length)
  let after (s : State) (c : TwCtx) (rs : List Ref) (lo : Ref) : State :=
    s.setTw lo.g cn { c with pos := c.pos + (here c rs.length).length, st := if ended c rs.length then .done else c.st }
  let lane (c : TwCtx) (rs : List Ref) (lo : Ref) (r : Ref) : TRes :=
    let x : Nat := match (here c rs.length)[rs.findIdx (· == r)]? with
      | some e => e.1 + 2 ^ 32 * index lo c rs.length e
      | none => 2 ^ 64 - 1
    { accs := [{ kind := .deliver f.d.toNat x f.pd.toNat ((if ended c rs.length then TwState.done else c.st) == .done) }] }
  let ctx (s : State) (rs : List Ref) : Option (Ref × TwCtx) := match rs.head? with | some lo => (s.tw lo.g cn).map fun c => (lo, c) | none => none
  let entered (col : Bool) (s : State) (lo : Ref) (c : TwCtx) : TwCtx := { c with dirCol := col, line := s.b32 lo f.b, pos := 0, st := .active }
  let lined (i : Instr) (code : Nat) (col : Bool) : Prop := AllDo i code f
    (fun s rs => rs = [] ∨ ∃ lo c, ctx s rs = some (lo, c) ∧ ready true s rs lo ∧ s.b32 lo f.b < (if col then c.cols else c.rows) ∧
      (col = true → c.oneWay = none) ∧ fine (entered col s lo c) rs lo)
    (fun s rs => match ctx s rs with | some (lo, c) => after s (entered col s lo c) rs lo | none => s)
    (fun s rs r => match ctx s rs with | some (lo, c) => lane (entered col s lo c) rs lo r | none => {})
  lined (.twrow f) 0x191 false ∧ lined (.twcol f) 0x192 true ∧
  AllDo (.twnext f) 0x193 f
    (fun s rs => rs = [] ∨ ∃ lo c, ctx s rs = some (lo, c) ∧ ready true s rs lo ∧ (c.st = .active → fine c rs lo))
    (fun s rs => match ctx s rs with | some (lo, c) => if c.st = .active then after s c rs lo else s | none => s)
    (fun s rs r => match ctx s rs with
      | some (lo, c) => if c.st = .active then lane c rs lo r else { accs := [{ kind := .deliver f.d.toNat (2 ^ 64 - 1) f.pd.toNat true }] }
      | none => {}) ∧
  (∀ (s : State) (a : Access) (G : Group) (T : Thread) (d x pd : Nat) (done : Bool), Due s a G T → a.kind = .deliver d x pd done → a.remote = none →
    a.parts.length = 1 →
    Gives (.loadDataReturn a.id) s fun t => t.mem = s.mem ∧ OthersStay s t a.grp a.tid ∧ t.access? a.id = none ∧
      t.thread? a.grp a.tid = some { (T.setRegs (wr2 d x)).setP pd done with ld := T.ld - 1 }) ∧
  -- images
  let saved (s : State) (lo : Ref) : List Byte := match s.tw lo.g cn with | some c => c.image | none => List.replicate 64 0
  AllDo (.twsave f) 0x194 f
    (fun s rs => ∀ lo, rs.head? = some lo → ready false s rs lo ∧ s.eo lo f % 64 = 0)
    (fun s _ => s)
    (fun s rs r => match rs.head? with
      | some lo =>
        if rs.findIdx (· == r) = 0 then
          { accs := [{ kind := .twsave (s.eo lo f) (saved s lo) (rs.map fun r => (r.g, r.t)), parts := cutsOf 16 (s.eo lo f) (saved s lo).length }] }
        else { st := 1 }
      | none => {}) ∧
  asks (.twrest f) 0x195 false (fun s lo => s.eo lo f % 64 = 0) (fun s lo => BitVec.ofNat 64 (s.eo lo f)) true ∧
  AllDo (.twrest f) 0x195 f
    (fun s rs => ∀ lo, rs.head? = some lo → ready false s rs lo ∧ s.eo lo f % 64 = 0 ∧ 64 ≤ lo.imageBytes.length ∧ bitN (D lo) 216 = 0)
    (fun s rs => onLowest s rs fun lo => s.emptyTw lo.g cn) (fun _ _ _ => {}) ∧
  ∀ c : TwCtx, c.rows < 2 ^ 32 → c.cols < 2 ^ 32 → c.fmtb < 2 ^ 16 → c.seed < 2 ^ 32 → c.line < 2 ^ 32 → c.pos < 2 ^ 32 → c.words.length ≤ 64 →
    (∀ w ∈ c.words, w < 2 ^ 64) → twFieldsOk c.rows c.cols c.fmtb c.words.length = true → c.malformed = none →
    AllDo (.twrest f) 0x195 f
      (fun s rs => ∀ lo, rs.head? = some lo → ready false s rs lo ∧ s.eo lo f % 64 = 0 ∧ lo.imageBytes = c.image)
      (fun s rs => onLowest s rs fun lo => s.setTw lo.g cn { c with desc := s.eo lo f }) (fun _ _ _ => {})

/-! ## System instructions -/

/-- R321, R430 to R432: `trap` enters the handler with cause 0x08 and its 16-bit code, `brkpt` with cause 0x09; both return behind
themselves. A context without a handler is killed by the firmware's, and its groups are gone. R434: a precise trap in handler mode is a
double fault, which kills the context; it never enters the handler again. -/
def Obligations.TrapInstructionsEnterHandlers : Prop := ∀ (f : Full) (s : State) (is : Issue) (rs : List Ref), Issued s is rs → executing f rs = rs →
  let next (r : Ref) : Addr := addOff r.T.pc is.len
  (Admits 0x1B0 f rs → CanTrap rs → ∃ t, Sys2Proof.Machine.exec (.trap f) s = .next t ∧
    Enters (stir (clockVol 0x1B0 f) s rs) t rs (fun r => { cause := 0x08, arg := s.b32 r f.b % 65536 }) next) ∧
  (Admits 0x1B4 f rs → CanTrap rs → ∃ t, Sys2Proof.Machine.exec (.brkpt f) s = .next t ∧ 
    Enters (stir (clockVol 0x1B4 f) s rs) t rs (fun _ => { cause := 0x09 }) next) ∧
  ∀ (r : Ref) (C : Ctx), Admits 0x1B0 f rs → rs = [r] → LogFits s → Mortal s r.G.ctx C →
    let dies (cls : Nat) : Prop := ∃ t, Sys2Proof.Machine.exec (.trap f) s = .next t ∧ Killed s t r.G.ctx ∧
      Logged s t { cls := cls, sev := 2, ctx := r.G.ctx, unit := 1, unitNo := r.G.core, detail := 0x08, addr := (next r).toNat }
    (r.T.hmode = .none → r.G.handler = 0 → r.G.lr.handler = 0 → (∀ d ∈ r.G.open_, d.warp ≠ r.T.warp) → dies 9) ∧
    (r.T.hmode ≠ .none → dies 10)

/-- R40, R322, R323, R433: `sethdl` completes: it sets the handler of each group of the issue group, the address of the lowest of the
group's lanes standing; `rte` of threads with no trap pending leaves handler mode and goes to `$tpc`, and the last thread of a delivery
closes it. R324, R78, R445: `preemptd` in a PREEMPT handler waits behind itself until the group resumes; where a forced save has closed
its delivery it goes on at once. -/
def Obligations.HandlerResults : Prop := ∀ f : Full, (AllDo (.sethdl f) 0x1B1 f (fun s rs => ∀ r ∈ rs, s.op64 r f.a.toNat % 4 = 0)
    (fun s rs => s.modLeads rs fun r G => { G with handler := BitVec.ofNat 64 (s.op64 r f.a.toNat) }) (fun _ _ _ => {}) ∧
  ∀ (s : State) (is : Issue) (rs : List Ref), Issued s is rs → Admits 0x1B2 f rs → executing f rs = rs →
    (∀ r ∈ rs, r.T.hmode ≠ .none ∧ r.T.tpc.toNat % 4 = 0 ∧ r.T.pending = [] ∧ r.G.heldDel = [] ∧ r.T.tcause.toNat % 256 ≠ 0x21) →
    ∃ t, Sys2Proof.Machine.exec (.rte f) s = .next t ∧
      (∀ r ∈ rs, t.thread? r.g r.t = (s.thread? r.g r.t).map fun T =>
        { T with hmode := .none, pc := T.tpc, wait := .ready, readySince := s.clock, watched := 0, parked := false }) ∧
      (∀ g k, (∀ r ∈ rs, ¬ (r.g = g ∧ r.t = k)) → t.thread? g k = s.thread? g k) ∧
      (∀ g G, s.group? g = some G → ∃ G', t.group? g = some G' ∧ ({ G' with threads := G.threads, open_ := G.open_ } : Group) = G ∧
        ((∃ r ∈ rs, r.g = g) → G'.open_.map (fun d => (d.warp, d.tids, d.preempt)) =
          (G.open_.filterMap fun d =>
            let l := d.tids.filter fun k => !(rs.any fun r => r.g == g && r.t == k)
            if l = [] then none else some (d.warp, l, d.preempt))) ∧
        ((∀ r ∈ rs, r.g ≠ g) → G' = G)) ∧
      (∀ g, s.group? g = none → t.group? g = none) ∧ ({ t with groups := s.groups } : State) = s) ∧
  TurnDo (.preemptd f) 0x1B3 f (fun _ r => r.T.hmode = .preempt ∧ ∀ d ∈ r.G.open_, d.preempt = true → r.t ∉ d.tids) (fun s _ => s) (fun _ _ => {}) ∧
  ∀ (s : State) (is : Issue) (rs : List Ref), Issued s is rs → Admits 0x1B3 f rs → executing f rs = rs →
    (∀ r ∈ rs, r.T.hmode = .preempt ∧ ∃ d ∈ r.G.open_, d.preempt = true ∧ r.t ∈ d.tids) →
    ∃ t, Sys2Proof.Machine.exec (.preemptd f) s = .next t ∧ Halts
      (stir (clockVol 0x1B3 f) (rs.foldl (fun (s : State) r => s.modT r.g r.t fun T => { T with pc := addOff r.T.pc is.len, parked := true }) s) rs) t rs
      (fun _ => .preempted)

/-- R325, R326, R76, R96, R98: `leave` of a level the group holds, or was granted, goes on; of another it asks the governor and waits.
`endlv` gives the leave back. `evph` and `evph.set` enter a phase of a usable schedule whose pages have translations, with its trims, behind
no entry asked for before; without a schedule they do nothing. -/
def Obligations.LeaveAndPhaseResults : Prop := ∀ f : Full,
  let trimmed (s : State) (x : Nat) (p : PhaseRead) (l : PlaneLine) : PlaneLine :=
    if l.ctx = x then match s.planarGran x l.handle l.line with
      | some (buf, g) => match p.entries.find? fun e => PhaseRead.covers e buf g with
        | some e => if bitN e 121 = 1 then { l with depth := min l.depth (bitsN e 117 113) } else l
        | none => l
      | none => l
    else l
  let enters (s : State) (x k : Nat) : State := match s.ctx? x with
    | none => s
    | some c => match s.schedPhase x c.evs k with
      | .error _ => s
      | .ok p => ({ s with port := { s.port with planes := s.port.planes.map (trimmed s x p) } } : State).modCtx x fun c =>
          { c with usable := true, phase := k, phaseDone := 0, nphase := p.nphase, advcnt := p.advcnt, entries := p.entries,
                   defclass := p.defclass, deffloor := p.deffloor, schedDead := [] }
  let next (c : Ctx) (n : Nat) : Nat := if c.usable = true ∧ c.phase + 1 < n then c.phase + 1 else 0
  let none_ (s : State) (r : Ref) : Prop := ∃ c, s.ctx? r.G.ctx = some c ∧ c.evs = 0
  let header (s : State) (r : Ref) (ask : Option Nat) (n : Nat) : Prop := ∃ c a, s.ctx? r.G.ctx = some c ∧ c.evs ≠ 0 ∧ c.phaseAsks = [] ∧
    s.phaseMiss r.G.ctx ask = none ∧ s.schedHeader r.G.ctx c.evs = .ok (n, a)
  let phase (s : State) (r : Ref) (k : Nat) : Prop := ∃ c p, s.ctx? r.G.ctx = some c ∧ s.schedPhase r.G.ctx c.evs k = .ok p
  TurnDo (.leave f) 0x1B5 f (fun s r => 1 ≤ s.b32 r f.b ∧ s.b32 r f.b ≤ 3 ∧ (s.b32 r f.b ≤ r.G.grant ∨ r.T.wait = .passed)) (fun s _ => s) (fun _ _ => {}) ∧
  (∀ (s : State) (is : Issue) (r : Ref), Issued s is [r] → Admits 0x1B5 f [r] → executing f [r] = [r] → s.b32 r f.b ≤ 3 → r.G.grant < s.b32 r f.b →
    r.T.wait ≠ .passed →
    let q : LeaveReq := ⟨r.g, s.b32 r f.b, s.clock⟩
    ∃ t, Sys2Proof.Machine.exec (.leave f) s = .next t ∧
      Halts (stir (clockVol 0x1B5 f) { s with leaves := if q ∈ s.leaves then s.leaves else s.leaves ++ [q] } [r]) t [r] fun r => .leave (s.b32 r f.b)) ∧
  TurnDo (.endlv f) 0x1B6 f (fun _ _ => True)
    (fun s r => { s.modG r.g fun G => { G with grant := 0 } with
      charges := s.charges.map fun c => if c.grp = r.g then { c with ended := true } else c })
    (fun _ _ => {}) ∧
  TurnDo (.evph f) 0x1B7 f none_ (fun s _ => s) (fun _ _ => {}) ∧
  TurnDo (.evph f) 0x1B7 f (fun s r => ∃ n c, header s r none n ∧ s.ctx? r.G.ctx = some c ∧ phase s r (next c n))
    (fun s r => match s.ctx? r.G.ctx with
      | none => s
      | some c => match s.schedHeader r.G.ctx c.evs with | .ok (n, _) => enters s r.G.ctx (next c n) | .error _ => s)
    (fun _ _ => {}) ∧
  TurnDo (.evphSet f) 0x1B8 f none_ (fun s _ => s) (fun _ _ => {}) ∧
  TurnDo (.evphSet f) 0x1B8 f (fun s r => ∃ n, header s r (some (s.b32 r f.b)) n ∧ s.b32 r f.b < n ∧ phase s r (s.b32 r f.b))
    (fun s r => enters s r.G.ctx (s.b32 r f.b)) (fun _ _ => {})

/-! ## Checks and traps -/

/-- R453 to R455, R75, R449: the stages before the guard and the effect. An operand number that does not exist traps every thread of the
issue group whatever its guard; a class that the role lacks traps every thread; a poisoned word traps the thread that would read it. In
each case the instruction has no effect and the return address is its own. -/
def Obligations.ChecksComeBeforeEffects : Prop := ∀ (i : Instr) (op : Nat) (f : Full) (sh : Shape) (s : State) (is : Issue) (rs : List Ref),
  formsOf i = [(op, f)] → shapeOf op f.s f.ext.toNat = some sh → Issued s is rs → CanTrap rs →
  (∀ field num, (∀ r ∈ rs, badOperand sh f op r.G.lr.nreg = some (field, num)) →
    ∃ t, Sys2Proof.Machine.exec i s = .next t ∧ Enters s t rs (fun _ => { cause := 0x02, arg := field + 256 * num }) fun r => r.T.pc) ∧
  ((∀ r ∈ rs, badOperand sh f op r.G.lr.nreg = none ∧ r.G.role.permits sh.cls = false) →
    ∃ t, Sys2Proof.Machine.exec i s = .next t ∧
      Enters s t rs (fun r => { cause := 0x06, arg := r.G.role.code + 256 * sh.cls.code }) fun r => r.T.pc) ∧
  ∀ word : Ref → Nat × Nat,
    (∀ r ∈ rs, badOperand sh f op r.G.lr.nreg = none ∧ r.G.role.permits sh.cls = true ∧ r.T.guard f.g f.gn = true ∧
      poisoned sh op f r.T = some (word r) ∧ oneLane sh op (word r).1 = false) →
    ∃ t, Sys2Proof.Machine.exec i s = .next t ∧
      Enters s t rs (fun r => { cause := 0x15, arg := (word r).1, addr := (word r).2 }) fun r => r.T.pc

/-- R276, R307, R315 to R317, R319 to R325, R336, R458 to R461: operand values, alignments and uses that an instruction does not take. -/
def Obligations.RefusedValuesTrap : Prop := ∀ f : Full,
  let value (n : Nat) (a : Nat) : Trap := { cause := 0x03, arg := n, addr := a }
  let align (n : Nat) (a : Nat) : Trap := { cause := 0x04, arg := n, addr := a }
  let use (n : Nat) (a : Nat) : Trap := { cause := 0x05, arg := n, addr := a }
  let a32 (s : State) (r : Ref) : Nat := s.op32 r f.a.toNat
  let a64 (s : State) (r : Ref) : Nat := s.op64 r f.a.toNat
  let b32 (s : State) (r : Ref) : Nat := s.b32 r f.b
  let wide : Nat := if f.ty.is64 then 8 else 4
  let far (s : State) (r : Ref) : Prop := a64 s r % 4 ≠ 0
  TrapsOn (.part f) 0x080 f (fun s r => b32 s r ∉ [2, 4, 8, 16, 32]) (fun _ _ => value 2 0) ∧
  TrapsOn (.brx f) 0x0A1 f far (fun s r => value 1 (a64 s r)) ∧
  TrapsOn (.calx f) 0x0A3 f far (fun s r => value 1 (a64 s r)) ∧
  TrapsOn (.ret f) 0x0A4 f far (fun s r => value 1 (a64 s r)) ∧
  TrapsOn (.sethdl f) 0x1B1 f far (fun s r => value 1 (a64 s r)) ∧
  TrapsOn (.binit f) 0x0AF f (fun s r => b32 s r < 1 ∨ 4095 < b32 s r) (fun _ _ => value 2 0) ∧
  TrapsOn (.binit f) 0x0AF f (fun s r => 1 ≤ b32 s r ∧ b32 s r ≤ 4095 ∧ a32 s r % 16 ≠ 0) (fun s r => align 4 (a32 s r)) ∧
  TrapsOn (.barr f) 0x0B0 f (fun s r => a32 s r % 16 ≠ 0) (fun s r => align 4 (a32 s r)) ∧
  TrapsOn (.bwait f) 0x0B1 f (fun s r => r.T.held = [] ∧ a32 s r % 16 ≠ 0) (fun s r => align 4 (a32 s r)) ∧
  TrapsOn (.rinit f) 0x0B4 f (fun s r => b32 s r % 16 ≠ 0) (fun s r => value 2 (b32 s r)) ∧
  TrapsOn (.acqs f) 0x0B5 f (fun s r => a32 s r % 32 ≠ 0) (fun s r => align 5 (a32 s r)) ∧
  TrapsOn (.acqs f) 0x0B5 f (fun s r => a32 s r % 32 = 0 ∧ (s.ring r.g (a32 s r)).ok = false) (fun s r => use 11 (a32 s r)) ∧
  TrapsOn (.launch f) 0x0C2 f (fun s r => (s.ea r f).toNat % 128 ≠ 0) (fun s r => align 7 (s.ea r f).toNat) ∧
  TrapsOn (.relaunch f) 0x0C3 f (fun s r => (s.ea r f).toNat % 256 ≠ 0) (fun s r => align 8 (s.ea r f).toNat) ∧
  TrapsOn (.tspawn f) 0x0C4 f (fun s r => (s.ea r f).toNat % 128 ≠ 0) (fun s r => align 7 (s.ea r f).toNat) ∧
  TrapsOn (.atomAdd f) 0x0F2 f (fun s r => (s.ea r f).toNat % wide ≠ 0) (fun s r => align (if f.ty.is64 then 3 else 2) (s.ea r f).toNat) ∧
  TrapsOn (.atomrCas f) 0x109 f (fun s r => (s.ea r f).toNat % wide ≠ 0) (fun s r => align (if f.ty.is64 then 3 else 2) (s.ea r f).toNat) ∧
  TrapsOn (.ldp f) 0x0EE f (fun s r => 65536 ≤ b32 s r) (fun _ _ => value 2 0) ∧
  TrapsOn (.rte f) 0x1B2 f (fun _ _ => True) (fun _ _ => use 1 0) ∧
  TrapsOn (.preemptd f) 0x1B3 f (fun _ _ => True) (fun _ _ => use 2 0) ∧
  TrapsOn (.leave f) 0x1B5 f (fun s r => b32 s r < 1 ∨ 3 < b32 s r) (fun _ _ => value 2 0)

/-! ## Pairs -/

/-- R260: each instruction of a pair does what it does alone; both read before either writes, each under its own guard, and a thread has
the writes of both. A wait or a fence in a pair is the whole of it, its partner being a `nop`. -/
def Obligations.PairResults : Prop :=
  let sync (w : CompactWord) : Prop := w.cop.toNat ∈ [40, 41, 43, 44, 45]
  (∀ (i : Instr) (w : CompactWord), compactOf i = some w → ¬ sync w → ∀ s : State,
    Sys2Proof.Machine.exec i s = issueAll w.full.1 w.full.2 (fun s rs => (s, pairPlan w s rs)) s) ∧
  (∀ (x y : CompactWord) (s : State) (is : Issue) (rs : List Ref) (a b : Ref → TRes), ¬ sync x → ¬ sync y → Issued s is rs →
    Admits x.full.1 x.full.2 rs → Admits y.full.1 y.full.2 rs →
    pairPlan x s (executing x.full.2 rs) = (executing x.full.2 rs).map (fun r => (r, .done (a r))) →
    pairPlan y s (executing y.full.2 rs) = (executing y.full.2 rs).map (fun r => (r, .done (b r))) →
    let part (w : CompactWord) (res : Ref → TRes) (r : Ref) : TRes :=
      if r.T.guard w.full.2.g w.full.2.gn then { res r with vol := (res r).vol ||| clockVol w.full.1 w.full.2 } else {}
    let res (r : Ref) : TRes :=
      let p := part x a r
      let q := part y b r
      { regs := p.regs ++ q.regs, tags := p.tags ++ q.tags, preds := p.preds ++ q.preds, flags := p.flags ||| q.flags, vol := p.vol ||| q.vol,
        accs := p.accs ++ q.accs, st := p.st + q.st, cp := p.cp + q.cp }
    (∀ r ∈ rs, HasRoom r (res r)) →
    ∃ t, Sys2Proof.Machine.exec (.compactPair x y) s = .next t ∧ Advances 0 s t is s.next rs fun r => some (res r)) ∧
  ∀ (i : Instr) (x y : CompactWord) (s : State), (compactOf i = some x ∧ sync x ∨ compactOf i = some y ∧ ¬ sync x ∧ sync y) →
    Sys2Proof.Machine.exec (.compactPair x y) s = Sys2Proof.Machine.exec i s

/-! ## Steps, fetch and decoding -/

/-- R39 to R41, R255, R256, R453: when the bytes at the program counter of an entry that its core picks decode to an instruction, the
step is that instruction over the entry's issue group, all of whose threads stand there; what follows at once follows. An illegal encoding
is a trap of cause 0x01 with its reason. A step that the agenda names as one of the device's own is that row of the opcode table (log 3). R436: the events of one cycle are logged in
ascending order of class, unit and unit number; a step that would break that order is not the next of its cycle.
R57: a cycle ends only when no core has an entry that must still issue in it. R173: a parcel is the newest of its bytes in memory, or what
the item's admission found there. -/
def Obligations.StepIssuesTheDecodedInstruction : Prop :=
  (∀ (s : State) (i : Instr) (rest : List Move), s.agenda = .event 0 i :: rest →
    let v : State := { s with agenda := rest }
    let late (w : State) : Prop := s.edge.seq < w.edge.seq ∧ s.edge.logged.1 = s.clock ∧ w.edge.logged.2 < s.edge.logged.2
    (∀ w, Sys2Proof.Machine.exec i v = .next w → ¬ late w → Sys2Proof.Machine.step s = finish (w.close true)) ∧
    (∀ w, Sys2Proof.Machine.exec i v = .next w → late w → Sys2Proof.Machine.step s = finish (v.close false)) ∧
    (∀ x, Sys2Proof.Machine.exec i v = .fault x → Sys2Proof.Machine.step s = .fault x) ∧
    ∀ x, Sys2Proof.Machine.exec i v = .refused x → Sys2Proof.Machine.step s = .refused x) ∧
  (∀ (s : State) (r : ErrRec), r.unit < 2 ^ 16 → r.unitNo < 2 ^ 16 →
    (s.log r).edge.logged = (s.clock, r.cls * 2 ^ 32 + r.unit * 2 ^ 16 + r.unitNo)) ∧
  (∀ (s : State) (m : List Move), (∃ dt i rest, s.agenda = .event (dt + 1) i :: rest ∧ m = .event dt i :: rest) ∨
      (∃ dt c x pc rest, s.agenda = .issue (dt + 1) c x pc :: rest ∧ m = .issue dt c x pc :: rest) ∨
      (s.agenda = [] ∧ m = [] ∧ s.due.find? (moves Sys2Proof.Machine.exec s) = none) →
    (∀ e ∈ s.groups, ∀ x ∈ s.picks e.2.core, x.starved = false ∧ (s.core e.2.core).issuedAt = s.clock ∧ (s.core e.2.core).issued ≠ []) →
    Sys2Proof.Machine.step s = finish ((({ s with agenda := m } : State).elapse 1).close false)) ∧
  (∀ (s : State) (item : Nat) (a : Addr) (ps : List Nat), s.fetchBytes item a ps = s.gather ps ∨
    ∃ it m, s.item? item = some it ∧ it.code = some m ∧ s.fetchBytes item a ps = ps.map (memByte m)) ∧
  ∀ (s u : State) (core item n : Nat) (pc : Addr) (e : Entry256) (r0 : Ref) (p : Nat → Word),
    ((∃ rest, s.agenda = .issue 0 core item pc :: rest ∧ u = { s with agenda := rest } ∧ (u.picks core).find? (fun e => e.key == (item, pc)) = some e) ∨
      (((s.agenda = [] ∧ s.due.find? (moves Sys2Proof.Machine.exec s) = none) ∨ (∃ dt i rest, s.agenda = .event (dt + 1) i :: rest) ∨
          ∃ dt c x q rest, s.agenda = .issue (dt + 1) c x q :: rest) ∧ u = s ∧ u.ownPick = some (core, e) ∧ e.key = (item, pc))) →
    r0 ∈ e.refs → n = parcelsOf (p 0) → Distinct u.groups →
    (∀ y ∈ u.groups, Distinct y.2.threads ∧ (y.2.item = item → y.2.ctx = r0.G.ctx)) →
    (∀ k, k < 3 → if k < n ∨ k = 0 then ∃ ps, u.port_ r0.G.ctx (u.renOf item) .fetch (addOff pc (4 * k : Nat)) 4 = .ok ps ∧
        u.poisonedIn false ps = none ∧ p k = BitVec.ofNat 32 (leNat (u.fetchBytes item (addOff pc (4 * k : Nat)) ps)) else p k = 0) →
    let v : State := u.picked core (item, pc)
    (∀ r ∈ e.group, r.T.pc = pc ∧ r.G.item = item ∧ u.thread? r.g r.t = some r.T) ∧
    (∀ i, decode (pc.getLsbD 2) (p 0) (p 1) (p 2) = .ok i →
      Sys2Proof.Machine.step s = match Sys2Proof.Machine.exec i
          { v with issue := some { core := core, refs := e.group.map fun r => (r.g, r.t), pc := pc, len := 4 * n } } with
        | .next w => finish (w.close true)
        | .fault x => .fault x
        | .refused x => .refused x) ∧
    ∀ c, decode (pc.getLsbD 2) (p 0) (p 1) (p 2) = .error (.reason c) →
      Sys2Proof.Machine.step s =
        finish ((v.deliver (e.group.map fun r => (r.g, r.t, { cause := 0x01, arg := c }))).close false)

/-- R255 to R263: the parcels of a well-formed instruction decode to it, with every operand at every value. -/
def Obligations.DecodeEncodeRoundTrip : Prop := ∀ i : Instr, i.isInstr = true → WellFormed i → decodeParcels (encode i) = .ok i

/-- R255 to R263, R457: whatever the decoder accepts is well-formed, and its parcels are those the encoder writes: no bit of an encoding
is ignored. -/
def Obligations.DecodedParcelsAreEncoded : Prop := ∀ (b : Bool) (p0 p1 p2 : Word) (i : Instr), decode b p0 p1 p2 = .ok i →
  i.isInstr = true ∧ WellFormed i ∧ encode i = [p0, p1, p2].take (parcelsOf p0)

/-- R255, R257, R259 to R263, R457: encodings that the decoder refuses, with the reason reported: an unassigned opcode or compact
opcode, a field that must be 0, a pair that begins at an address with bit 2 set or is followed by no compact parcel. -/
def Obligations.IllegalEncodingsRefused : Prop :=
  (∀ p0 p1 p2 : Word, ∀ b, 2 ≤ (p0.extractLsb' 0 2).toNat → (∀ s e, shapeOf (p0.extractLsb' 2 9).toNat s e = none) →
    decode b p0 p1 p2 = .error (.reason 1)) ∧
  (∀ p0 p1 p2 : Word, ∀ b, (p0.extractLsb' 0 2).toNat = 0 → 48 ≤ (p0.extractLsb' 2 6).toNat → decode b p0 p1 p2 = .error (.reason 2)) ∧
  (∀ p0 p1 p2 : Word, (p0.extractLsb' 0 2).toNat = 1 → p1.extractLsb' 0 2 = 0 → (compactOfParcel p0).reasons = [] → (compactOfParcel p1).reasons = [] →
    decode true p0 p1 p2 = .error (.reason 8)) ∧
  ∀ p0 p1 p2 : Word, (p0.extractLsb' 0 2).toNat = 1 → p1.extractLsb' 0 2 ≠ 0 → (compactOfParcel p0).reasons = [] →
    decode false p0 p1 p2 = .error (.reason 9)

/-- Words written out from the encodings of R257, R261 and R263 and the examples of the spec decode to their instructions. -/
def Obligations.SpecWordsDecode : Prop :=
  let full : Full := { g := 7, gn := false, d := 0, a := 0, b := .num 0, c := 0, ty := .b32, mod := 0, pd := 7, ext := 0, s := false }
  decode false 0x81009802 0x03808001 0 = .ok (.iadd { full with g := 3, d := 1, a := 2, b := .num 3, ty := .s32 }) ∧
  decode false 0x10C05708 0 0 = .ok (.iaddCompact { sub := 0, i := true, a := 12, d := 5, gn := false, g := 7 }) ∧
  decode false 0xC00007AC 0 0 = .ok (.fenceCompact { sub := 6, i := false, a := 0, d := 0, gn := false, g := 7 })

/-! ## Accesses at their places -/

/-- R99, R171, R172, R333, R337, R190, R495, R245: an event of a pending access. The last event of a load writes its register and lowers
LD; an event of a store writes its bytes, and the last one lowers ST; an atomic reads and writes at once. A peer's answer ends a remote
access; its refusal, its absence or its silence is a fault, which a store holds. An access from a peer is checked by R86. R175: a copy whose
lease covers the core's timestamp serves a load; without one memory answers. -/
def Obligations.AccessesTakeTheirPlaces : Prop := (∀ (s : State) (a : Access) (G : Group) (T : Thread), Due s a G T →
  let ren : List Rename := s.renOf G.item
  let loaded (w : Width) (ty : Ty) (d : Nat) (bs : List Byte) : Thread :=
    let x := leNat bs
    { T.setRegs (match w with
        | .b16 => wr4 d x
        | .b8 => wr2 d x
        | .b4 => wr1 d x
        | .b2 => wr1 d (if ty = .s16 ∧ 2 ^ 15 ≤ x then x + 2 ^ 32 - 2 ^ 16 else x)
        | .b1 => wr1 d (if ty = .s8 ∧ 2 ^ 7 ≤ x then x + 2 ^ 32 - 2 ^ 8 else x)) with ld := T.ld - 1 }
  let holds (arg : Nat) (addr : Addr) : Thread :=
    { T with held := T.held ++ [{ order := a.order, trap := { cause := 0x16, arg := arg, addr := addr.toNat, cls := 1 }, countsSt := true }] }
  let fails (arg : Nat) (addr : Addr) (t : State) : Prop :=
    t.thread? a.grp a.tid = some (holds arg addr) ∧ t.access? a.id = none ∧ t.mem = s.mem ∧ OthersStay s t a.grp a.tid
  (∀ (w : Width) (ty : Ty) (d o n : Nat) (rest : List (Nat × Nat)) (addr : Addr) (pad : Option Nat) (bs : List Byte),
    a.kind = .load w ty d addr pad → a.remote = none → a.parts = (o, n) :: rest → a.got.length + n ≤ w.bytes →
    ((pad = none ∧ ∃ ps, Reaches s G.ctx ren .load addr w.bytes ps ∧ bs = (s.readAt G.core ((ps.drop o).take n)).2) ∨
      ∃ g P, pad = some g ∧ s.group? g = some P ∧ bs = (List.range n).map fun k => Map.getD P.pad 0 ((addr.toNat + o + k) % P.lr.alloc)) →
    Gives (.loadDataReturn a.id) s fun t => t.mem = s.mem ∧ OthersStay s t a.grp a.tid ∧
      (rest = [] → t.thread? a.grp a.tid = some (loaded w ty d (a.got ++ bs)) ∧ t.access? a.id = none) ∧
      (rest ≠ [] → t.thread? a.grp a.tid = some T ∧ t.access? a.id = some { a with parts := rest, got := a.got ++ bs, stalled := none })) ∧
  (∀ (o n : Nat) (rest : List (Nat × Nat)) (addr : Addr) (data : List Byte) (ps : List Nat),
    a.kind = .store addr data none → a.remote = none → a.parts = (o, n) :: rest → a.stalled = none → s.port.stalls = [] →
    Reaches s G.ctx ren .store addr data.length ps → Plain s G.ctx G.stampLsn addr ps → Memory.wf s.mem = true →
    Gives (.storePlaced a.id .fits) s fun t => Holds s t (((ps.drop o).take n).zip ((data.drop o).take n)) ∧ OthersStay s t a.grp a.tid ∧
      (t.thread? a.grp a.tid).map Thread.still = some ({ T with st := if rest = [] then T.st - 1 else T.st } : Thread).still ∧
      t.access? a.id = if rest = [] then none else some { a with parts := rest, stalled := none }) ∧
  (∀ (o n g : Nat) (P : Group) (addr : Addr) (data : List Byte), a.kind = .store addr data (some g) → a.remote = none → a.parts = [(o, n)] →
    s.group? g = some P → Map.canon 0 P.pad = true →
    Gives (.storePlaced a.id .fits) s fun t => t.mem = s.mem ∧ OthersStay s t a.grp a.tid ∧ t.access? a.id = none ∧
      t.thread? a.grp a.tid = some { T with st := T.st - 1 } ∧ ∃ P', t.group? g = some P' ∧ ∀ x, x < P.lr.alloc →
        Map.getD P'.pad 0 x = match ((List.range n).zip ((data.drop o).take n)).reverse.find? fun e => (addr.toNat + o + e.1) % P.lr.alloc == x with
          | some e => e.2
          | none => Map.getD P.pad 0 x) ∧
  (∀ (op : AtomOp) (ty : Ty) (v swap pd scope : Nat) (ret : Option Nat) (addr : Addr) (ps : List Nat),
    a.kind = .atom op ty v swap ret pd addr scope → a.remote = none → a.parts = [(0, atomLen ty)] → scope < 8 → a.stalled = none → s.port.stalls = [] →
    Reaches s G.ctx ren (if ret.isSome then .atomicRet else .atomic) addr (atomLen ty) ps → Plain s G.ctx G.stampLsn addr ps → Memory.wf s.mem = true →
    let f := fmtOf ty 0 0
    let old := leNat (ps.map (memByte s.mem))
    let new : Nat := match op with
      | .add => (old + v) % 2 ^ ty.bits
      | .min => if tyVal ty old ≤ tyVal ty v then old else v
      | .max => if tyVal ty old ≤ tyVal ty v then v else old
      | .and => old &&& v
      | .or => old ||| v
      | .xor => old ^^^ v
      | .inc => if old ≥ v then 0 else old + 1
      | .dec => if old = 0 ∨ old > v then v else old - 1
      | .fadd => (fAdd f 0 false (f.decode old) (f.decode v)).1
      | .fmin => (fMinMax f false old v).1
      | .fmax => (fMinMax f true old v).1
      | .exch => v
      | .cas => if old = v then swap else old
    let U : Thread := match ret with | some d => T.setRegs (wrTy ty d old) | none => T
    let V : Thread := if op = .cas then U.setP pd (old == v) else U
    Gives (.storePlaced a.id .fits) s fun t => Holds s t (ps.zip (leBytes (atomLen ty) new)) ∧ OthersStay s t a.grp a.tid ∧
      (t.thread? a.grp a.tid).map Thread.still = some ({ V with st := T.st - 1 } : Thread).still ∧ t.access? a.id = none) ∧
  (∀ (w : Width) (ty : Ty) (d o n i j : Nat) (addr next : Addr) (l : Late) (pad : Option Nat) (bs : List Byte) (x : Nat × Nat × Nat),
    a.kind = .load w ty d addr pad → a.remote = some x → a.parts = [(o, n)] → bs.length = n → a.got.length + n ≤ w.bytes →
    T.wait = .on (.answer next l) i j → s.podEnabled G.ctx = true →
    Gives (.remoteAck a.id (.done bs)) s fun t =>
      t.thread? a.grp a.tid = some (((((loaded w ty d (a.got ++ bs)).setRegs l.regs).setTags l.tags).setPreds l.preds).goTo next s.clock) ∧
      t.access? a.id = none ∧ t.mem = s.mem ∧ OthersStay s t a.grp a.tid) ∧
  (∀ (addr : Addr) (data : List Byte) (pad : Option Nat) (x : Nat × Nat × Nat), a.kind = .store addr data pad → a.remote = some x →
    (s.podEnabled G.ctx = true → (∀ bs e, a.parts = [e] → Gives (.remoteAck a.id (.done bs)) s fun t =>
      t.thread? a.grp a.tid = some { T with st := T.st - 1 } ∧ t.access? a.id = none ∧ t.mem = s.mem ∧ OthersStay s t a.grp a.tid) ∧
      (∀ c, Gives (.remoteAck a.id (.refused c)) s (fails (1 + 256 * c) addr)) ∧ Gives (.remoteAck a.id .unreachable) s (fails 2 addr)) ∧
    (x.2.2 + 13000000 ≤ s.clock → Gives (.remoteAccessTimeout a.id) s (fails 3 addr)))) ∧
  (∀ (s : State) (core : Nat) (ps : List Nat),
    let serves (c : Copy) (p : Nat) : Prop := c ∈ s.port.copies ∧ c.line = p / 128 ∧ ((c.level = 0 ∧ c.unit = core) ∨ (c.level = 1 ∧ c.unit = core / 64)) ∧
      c.wc ≤ s.pts core ∧ s.pts core ≤ c.rc ∧ s.clock ≤ c.fill + 65536
    ((∃ p ∈ ps, ∀ c, ¬ serves c p) → (s.readAt core ps).2 = ps.map (memByte s.mem)) ∧
    ((∀ p ∈ ps, ∃ c, serves c p) → (s.readAt core ps).2.length = ps.length ∧
      ∀ (k p : Nat), ps[k]? = some p → ∃ c, serves c p ∧ (s.readAt core ps).2[k]? = some (c.data.getD (p % 128) 0))) ∧
  ∀ (s : State) (n c : Nat) (C : Ctx) (addr : Addr) (bs : List Byte) (ps : List Nat), s.absent = none → s.edge.trained.any (0 < ·) = true → 0 < bs.length → offOf addr % 64 + bs.length ≤ 64 →
    (s.podCtx n = none → ∀ len, Gives (.peerRemoteAccess n addr (.read len)) s fun t => t.edge.peerRefused = true ∧ t.mem = s.mem ∧ t.groups = s.groups) ∧
    (s.podCtx n = some c → s.ctx? c = some C → Reaches s c [] .load addr bs.length ps →
      Gives (.peerRemoteAccess n addr (.read bs.length)) s fun t => t.edge.peerRefused = false ∧ t.edge.peerRead = ps.map (memByte s.mem) ∧
        t.mem = s.mem ∧ t.groups = s.groups) ∧
    (s.podCtx n = some c → s.ctx? c = some C → Reaches s c [] .store addr bs.length ps → Plain s c (some C.lsn) addr ps → Roomy s ps → s.edge.ckpt = false →
      s.edge.quiesced = false → s.port.stalls = [] → Memory.wf s.mem = true →
      Gives (.peerRemoteAccess n addr (.write bs)) s fun t => t.edge.peerRefused = false ∧ Holds s t (ps.zip bs) ∧ ThreadsStay s t)

/-- R104, R465, R466, R472, R473: relief of a page; a page that stalls for 10 ms is reported, and its stalled writes' context killed; a
page service that the walker or Oromel resolves writes the page table entry, the page being zeroed (R31), and those who wait go on; one
without an answer within 100 ms stays unresolved. -/
def Obligations.PagesAndHolds : Prop := ∀ s : State, s.absent = none →
  let report (page : Nat) : ErrRec :=
    { cls := 11, sev := 1, rfl := 3, ppage := page * 65536, unit := 2, unitNo := Config.llcSlice (page * 65536) % 256, detail := s.holdCount page }
  let serves (v : Service) (c : Ctx) : Prop := s.port.services.find? (·.id == v.id) = some v ∧ s.ctx? v.ctx = some c ∧ v.pte + 8 ≤ memSize ∧
    Memory.wf s.mem = true ∧ (∀ e ∈ s.groups, e.2.recWait ≠ some v.id) ∧ ∀ e ∈ s.ctxs, v.id ∉ e.2.schedWaits
  let resolved (v : Service) (entry : Nat) (base : Nat → Byte) (t : State) : Prop := t.port.services = s.port.services.filter (·.id != v.id) ∧
    (∀ x, memByte t.mem x = if v.pte ≤ x ∧ x < v.pte + 8 then (leBytes 8 entry).getD (x - v.pte) 0 else base x) ∧ ThreadsStay s t ∧
    (∀ g k T kind ad i j, s.thread? g k = some T → T.wait = .on (.page v.id kind ad) i j → t.thread? g k = some { T with wait := .ready, readySince := s.clock })
  (∀ page, page ∈ s.port.repack → Gives (.repackComplete page) s fun t => ({ t with port := s.port } : State) = s ∧
    t.port = { s.port with hold := s.port.hold.filter (· / 512 ≠ page), stalls := Map.erase s.port.stalls page, repack := s.port.repack.filter (· ≠ page) }) ∧
  (∀ page t0, LogFits s → Map.get? s.port.stalls page = some (t0, false) → t0 + 13000000 ≤ s.clock →
    Gives (.overflowHoldTimeout page) s fun t => Logged s t (report page) ∧ Map.get? t.port.stalls page = some (t0, true) ∧ t.groups = s.groups) ∧
  (∀ page t0 c C, LogFits s → Mortal s c C → Map.get? s.port.stalls page = some (t0, true) → s.stalledCtxs page = [c] →
    Gives (.overflowHoldKill page) s fun t => Logged s t { cls := 11, sev := 2, ctx := c, rfl := 3, ppage := page * 65536, detail := s.holdCount page } ∧
      Killed s t c ∧ t.port.stalls = Map.erase s.port.stalls page) ∧
  (∀ v c p rest, serves v c → bitN c.svc 0 = 0 → (s.buf c v.buf).pg2m = false → s.port.pool64 = p :: rest →
    Gives (.pageServiceComplete v.id .walker) s fun t => t.port.pool64 = rest ∧
      resolved v (p + (if (s.buf c v.buf).compress then 2 else 0) + 1) (fun x => if p ≤ x ∧ x < p + 65536 then 0 else memByte s.mem x) t) ∧
  (∀ v c p, serves v c → bitN c.svc 0 = 1 → p % (s.buf c v.buf).pageSize = 0 → p + (s.buf c v.buf).pageSize ≤ memSize →
    Gives (.pageServiceComplete v.id (.oromel p)) s fun t => t.port.pool64 = s.port.pool64 ∧
      resolved v (p + (if (s.buf c v.buf).compress then 2 else 0) + 1)
        (fun x => if p ≤ x ∧ x < p + (s.buf c v.buf).pageSize then 0 else memByte s.mem x) t) ∧
  ∀ v c, serves v c → bitN c.svc 0 = 1 → v.start + 130000000 ≤ s.clock → (∀ a ∈ s.accesses, a.service ≠ some v.id) →
    (∀ e ∈ s.groups, (∀ o ∈ e.2.tileOps, ∀ x, o.service ≠ some (v.id, x)) ∧ (∀ l, e.2.loop = some l → ∀ x, l.service ≠ some (v.id, x)) ∧
      ∀ y ∈ e.2.threads, ∀ kind ad i j, y.2.wait ≠ .on (.page v.id kind ad) i j) →
    Gives (.pageServiceTimeout v.id) s fun t => t.port.services = s.port.services.filter (·.id != v.id) ∧ t.mem = s.mem ∧ t.groups = s.groups ∧
      t.accesses = s.accesses ∧ t.jobs = s.jobs.map fun (j : Job) =>
        if v.id ∈ j.waits then { j with waits := j.waits.filter (· ≠ v.id), dead := v.pte :: j.dead } else j

/-! ## Engine jobs and matrix loops in progress -/

/-- R100, R182, R183, R479 to R482: a sector of a copy lands, from memory into a scratchpad or into memory, and leaves the job; a job with
no unit left completes, lowers its tag and is no longer waited for, and a fault it met is held by its issuer; the failure of a stack leaves
the units there that have not begun unwritten. -/
def Obligations.EngineJobsRun : Prop := ∀ (s : State) (j : Job), s.absent = none → s.jobs.find? (·.id == j.id) = some j → j.admitted = true → j.edges = [] →
  let ren : List Rename := s.renJob j
  let size (o n u : Nat) : Nat := if (o + u) % 32 = 0 ∧ u + 32 ≤ n then 32 else 1
  let landed (u : Nat) (t : State) : Prop := (∃ i, t.jobs.find? (·.id == j.id) = some i ∧ i.units = j.units.filter (· ≠ u) ∧ i.failed = j.failed) ∧ ThreadsStay s t
  (∀ (u g o n k : Nat) (P : Group) (a : Addr) (ps : List Nat), u ∈ j.units → j.kind = .copy (.pad g o) (.dev a) n → j.bind = .tag k → s.group? g = some P →
    Map.canon 0 P.pad = true → Reaches s j.ctx ren .load (addOff a (u : Nat)) (size o n u) ps →
    Gives (.engineSectorLand j.id u) s fun t => landed u t ∧ t.mem = s.mem ∧ ∃ P', t.group? g = some P' ∧ ∀ x, x < P.lr.alloc →
      Map.getD P'.pad 0 x = match ((List.range (size o n u)).zip (ps.map (memByte s.mem))).reverse.find? fun e => (o + u + e.1) % P.lr.alloc == x with
        | some e => e.2
        | none => Map.getD P.pad 0 x) ∧
  (∀ (u n k : Nat) (d a : Addr) (ps qs : List Nat), u ∈ j.units → j.kind = .copy (.dev d) (.dev a) n → j.bind = .tag k →
    Reaches s j.ctx ren .load (addOff a (u : Nat)) (size (offOf d) n u) ps → Reaches s j.ctx ren .store (addOff d (u : Nat)) (size (offOf d) n u) qs →
    Plain s j.ctx j.stamp d qs → Roomy s qs → s.port.stalls = [] → Memory.wf s.mem = true →
    Gives (.engineSectorLand j.id u) s fun t => landed u t ∧ Holds s t (qs.zip (ps.map (memByte s.mem)))) ∧
  (∀ (k : Nat) (G : Group), j.units = [] → j.scope < 8 → j.bind = .tag k → Unspilled s → s.group? j.grp = some G → Map.canon 0 G.tagCnt = true →
    let after (t : State) : Prop := t.mem = s.mem ∧ (∀ i ∈ t.jobs, i.id ≠ j.id ∧ j.id ∉ i.edges) ∧ (∀ i ∈ t.items, j.id ∉ i.edges) ∧
      ∃ G', t.group? j.grp = some G' ∧ Map.getD G'.tagCnt 0 k = Map.getD G.tagCnt 0 k - 1 ∧
        G'.tagBit k = (if Map.getD G.tagCnt 0 k ≤ 1 then true else G.tagBit k)
    (j.fault = none → Gives (.engineJobComplete j.id) s fun t => after t ∧ ThreadsStay s t) ∧
    ∀ (x u addr : Nat) (T : Thread), j.fault = some (x, u, addr) → x < 256 → s.thread? j.grp j.tid = some T →
      Gives (.engineJobComplete j.id) s fun t => after t ∧ OthersStay s t j.grp j.tid ∧ t.thread? j.grp j.tid = some { T with held := T.held ++
        [{ order := j.id, trap := { cause := match j.kind with | .nmc .. => 0x19 | _ => 0x18, arg := x + 256 * u, addr := addr, cls := 1 } }] }) ∧
  ∀ (op cfl n sa sb stack : Nat) (x y g : Addr) (legal : Bool), LogFits s → j.kind = .nmc op cfl n x y g sa sb legal →
    let there (u : Nat) : Prop := (∃ p, s.physOf j (addOff (if op = 1 then y else x) (u : Nat)) = some p ∧ (s.channelOf p).1 = stack) ∧ s.nmcBegun j u = false
    (∃ u ∈ j.units, there u) → Gives (.nmcStackFailure j.id stack) s fun t =>
      Logged s t { cls := 5, sev := 1, ctx := j.ctx, unit := 4, unitNo := stack, stack := stack } ∧ t.groups = s.groups ∧
      ∃ i, t.jobs.find? (·.id == j.id) = some i ∧ (∀ u, u ∈ i.units ↔ u ∈ j.units ∧ ¬ there u) ∧ (j.fault = none → i.fault = some (4, stack, 0))

/-- R377, R380, R382, R389, R390: a tile load from the scratchpad completes: its 32 rows of 128 bytes, its tag, and TL. A dense step of a
matrix loop adds to each sum the products of a row of A with a row of B; at the end the sums enter the accumulator, exactly for s32 and as
R165 allows for FP32, and `$mrow` keeps the step count. -/
def Obligations.MatrixOperationsRun : Prop := ∀ (s : State) (g : Nat) (G : Group), s.absent = none → s.group? g = some G → s.frozen G.ctx = false →
  (∀ o : TileOp, s.groups.find? (fun e => e.2.tileOps.any (·.id == o.id)) = some (g, G) → G.tileOps.find? (·.id == o.id) = some o →
    o.units = List.range o.cuts.length → o.got = [] → o.planar = none → o.service = none → o.load = true → o.pad = true → o.isAcc = false → o.trans = false → o.tids.Nodup →
    Gives (.tileOpComplete o.id) s fun t => t.mem = s.mem ∧
      (∀ k T, s.thread? g k = some T → t.thread? g k = some (if k ∈ o.tids then { T with tl := T.tl - 1 } else T)) ∧
      (∀ h k, h ≠ g → t.thread? h k = s.thread? h k) ∧
      ∃ G', t.group? g = some G' ∧ G'.tileOps = G.tileOps.filter (·.id != o.id) ∧ (∀ n, n ≠ o.num → G'.tile n = G.tile n) ∧
        (G'.tile o.num).valid = true ∧ (G'.tile o.num).fmt = o.ty.code ∧
        ∀ i, i < 32 → (G'.tile o.num).row i = (List.range 128).map fun k => Map.getD G.pad 0 ((truncI (o.off + i * o.stride) 32 + k) % G.lr.alloc)) ∧
  (∀ (l : MLoop) (a b : MDesc) (isInt : Bool) (K : Nat) (va vb : Nat → List FVal) (fa fb : Nat → Flg) (xa xb : Nat → List (Addr × Nat)),
    G.loop = some l → l.step < l.steps → l.service = none → l.kind = .dense a b → pairing a.fmt b.fmt = some (isInt, K) →
    (∀ i, i < 32 → s.loopRow G b K l.step i = .ok (vb i, fb i, xb i)) →
    (∀ i, l.rows ≤ i → i < 32 → s.loopRow G a K l.step i = .ok (va i, fa i, xa i)) →
    Gives (.matrixLoopStep g) s fun t => t.mem = s.mem ∧ (∀ h k, t.thread? h k = s.thread? h k) ∧ ∃ G' m, t.group? g = some G' ∧ G'.loop = some m ∧
      m.step = l.step + 1 ∧ m.rows = 0 ∧ m.steps = l.steps ∧ G'.mrow = BitVec.ofNat 32 ((l.step + 1) % 2 ^ 24 * 256 + 0x40) ∧
      ∀ i j, i < 32 → j < 32 → G.sumAt m.sums l.isInt l.acc i j =
        if l.rows ≤ i then (G.sumAt l.sums l.isInt l.acc i j).dot (va i) (vb j) else G.sumAt l.sums l.isInt l.acc i j) ∧
  ∀ l : MLoop, G.loop = some l → l.steps ≤ l.step → G.exiting = false → Distinct l.sums → Map.canon 0 G.accs = true →
    Gives (.matrixLoopEnd g) s fun t => t.mem = s.mem ∧ (∀ h k, t.thread? h k = s.thread? h k) ∧ ∃ G', t.group? g = some G' ∧ G'.loop = none ∧
      G'.mrow = BitVec.ofNat 32 (l.steps % 2 ^ 24 * 256) ∧ G'.fstat = G.fstat ||| (l.flags &&& 63) ∧
      (∀ k x, Map.get? l.sums k = some x → k < 1024 →
        if l.isInt then G'.acc l.acc (k / 32) (k % 32) = x.intResult l.sat % 2 ^ 32
        else ∃ n, G'.acc l.acc (k / 32) (k % 32) = x.result (Config.accValue n) % 2 ^ 32) ∧
      ∀ k, k / 1024 ≠ l.acc → (∀ e ∈ l.sums, e.1 < 1024) → Map.getD G'.accs 0 k = Map.getD G.accs 0 k

/-! ## Hitches, leases and copies -/

/-- R95, R175, R176, R209 to R218, R229, R489: a registration enters the line's value as the first push, and is refused where the core has
256 slots, or where neither the slice's table nor a spill area has a place for its entry (R217); a push lands in the entry HEAD + F, or in
entry 0 of a LATEST slot; a removal is confirmed; a failing home severs its slots; a thread whose counter's line was written goes on; a lease ends at its expiry; `PTS` advances by itself; a cached copy expires. -/
def Obligations.HitchesAndLeases : Prop := ∀ s : State, s.absent = none →
  (∀ (a : Access) (G : Group) (T : Thread) (off l0 n tag pd : Nat) (addr : Addr) (each : Bool) (ps : List Nat), Due s a G T →
    a.kind = .hitch off addr l0 n each tag pd → a.parts = [(0, 64)] → Reaches s G.ctx (s.renOf G.item) .load addr 64 ps →
    let line := ps.headD 0 / 64
    let thread (ok : Bool) : Thread := { T.setP pd ok with ld := T.ld - 1 }
    (256 ≤ s.coreSlots G.core → Gives (.hitchRegistered a.id) s fun t => t.mem = s.mem ∧ t.access? a.id = none ∧
      t.thread? a.grp a.tid = some (thread false) ∧ OthersStay s t a.grp a.tid ∧ ∃ G', t.group? a.grp = some G' ∧ G'.slots = G.slots) ∧
    (s.coreSlots G.core < 256 → (∀ e ∈ s.port.table, e.line = line → 8 ≤ e.subs.length) → 8192 ≤ s.tableUse (sliceOf line) →
      (∀ e ∈ s.port.table, e.line ≠ line → sliceOf e.line = sliceOf line → e.spill = none → s.hitchPlace e.ctx = none) → s.hitchPlace (some G.ctx) = none →
      Gives (.hitchRegistered a.id) s fun t => t.mem = s.mem ∧ t.thread? a.grp a.tid = some (thread false) ∧
        OthersStay s t a.grp a.tid ∧ t.port.table = s.port.table) ∧
    (s.coreSlots G.core < 256 → ((∃ e ∈ s.port.table, e.line = line ∧ e.subs.length < 8) ∨ s.tableUse (sliceOf line) < 8192) →
      Gives (.hitchRegistered a.id) s fun t => t.mem = s.mem ∧ t.access? a.id = none ∧
        t.thread? a.grp a.tid = some (thread true) ∧ OthersStay s t a.grp a.tid ∧
        (∃ e ∈ t.port.table, e.line = line ∧ .slot a.grp off ∈ e.subs) ∧ ∃ G' x, t.group? a.grp = some G' ∧ Map.get? G'.slots off = some x ∧
          x.line = line ∧ x.addr = addr ∧ x.each = each ∧ x.nent = n ∧ x.tag = tag ∧ x.fresh = List.replicate n false ∧
          x.sent = some ((List.range 64).map fun k => memByte s.mem (64 * line + k), (Map.get? s.port.lineSeq line).getD 0, 0) ∧
          x.credits = (if each then n - 1 else 0) ∧ G'.tagBit tag = false)) ∧
  (∀ (g off q n : Nat) (G : Group) (x : Slot) (data : List Byte), s.group? g = some G → Map.get? G.slots off = some x → x.sent = some (data, q, n) →
    data.length = 64 → 0 < x.nent → G.res = .resident → 80 * x.nent ≤ G.lr.alloc → Map.canon 0 G.pad = true →
    let F := (x.fresh.filter (· == true)).length
    let e := if x.each then (x.head + F) % x.nent else 0
    Gives (.hitchPushLand g off) s fun t => t.mem = s.mem ∧ (∀ h k, t.thread? h k = s.thread? h k) ∧ ∃ G' y, t.group? g = some G' ∧
      Map.get? G'.slots off = some y ∧ y.fresh = x.fresh.set e true ∧ y.seqs = x.seqs.set e q ∧ y.head = x.head ∧
      y.coal = min 65535 (x.coal + n + if x.each then 0 else F) ∧ G'.tagBit x.tag = true ∧
      ∀ k, k < 64 → G'.padByte (off + 80 * e + k) = data.getD k 0) ∧
  (∀ (g off : Nat) (G : Group) (x : Slot), s.group? g = some G → Map.get? G.slots off = some x → x.removing = true → x.gone = false → x.sent = none →
    Gives (.unhitchConfirm g off) s fun t => t.mem = s.mem ∧ (∀ h k, t.thread? h k = s.thread? h k) ∧ ∃ G', t.group? g = some G' ∧
      Map.get? G'.slots off = some { x with gone := true } ∧ G'.tagBit x.tag = true) ∧
  (∀ line : Nat, LogFits s →
    let n := (s.port.table.filter (·.line == line)).length
    0 < n → Gives (.hitchHomeFailure line) s fun t => t.edge.seq = s.edge.seq + n ∧ ThreadsStay s t ∧
      ∀ g G off x, s.group? g = some G → Map.get? G.slots off = some x → x.line = line → x.gone = false → x.severed = false →
        ∃ G' y, t.group? g = some G' ∧ Map.get? G'.slots off = some y ∧ y.severed = true ∧ y.next = none ∧ y.sent = none ∧ G'.tagBit x.tag = true) ∧
  (∀ (g k line i j : Nat) (G : Group) (T : Thread), s.group? g = some G → G.res = .resident → s.thread? g k = some T →
    T.wait = .on (.line line true) i j →
    Gives (.tawaitWake g k) s fun t => t.thread? g k = some { T with wait := .ready, readySince := s.clock } ∧ t.mem = s.mem ∧ OthersStay s t g k) ∧
  (∀ (g n : Nat) (G : Group) (l : Lease), s.group? g = some G → Map.get? G.leases n = some l →
    Gives (.leaseExpiry g n) s fun t => t.group? g = some (if l.expiry ≤ s.clock then { G with leases := Map.erase G.leases n } else G) ∧
      (∀ h, h ≠ g → t.group? h = s.group? h) ∧ ({ t with groups := s.groups } : State) = s) ∧
  (∀ c n : Nat, Gives (.ptsSelfAdvance c n) s fun t => (t.core c).pts = (s.core c).pts + max 1 n ∧ (∀ d, d ≠ c → t.core d = s.core d) ∧
    ({ t with cores := s.cores } : State) = s) ∧
  ∀ c line : Nat, Gives (.cachedCopyExpiry c line) s fun t => ({ t with port := s.port } : State) = s ∧ ∀ y, y ∈ t.port.copies ↔
    y ∈ s.port.copies ∧ ¬ (y.line = line ∧ (y.level = 0 ∧ y.unit = c ∨ y.level = 1 ∧ y.unit = c / 64))

/-! ## Scheduling -/

/-- R36, R54, R61, R62, R72, R73, R227, R441: a gang with room starts, each thread at ENTRY with every register and predicate 0 and the
constants of the parameter block; a thief takes the oldest task of its victim; a group none of whose threads can go gives its place to the
oldest pending one that can; a waiting gang is saved and re-queued; a thread that waited FINT cycles is starved. -/
def Obligations.GroupsArePlaced : Prop := ∀ s : State, s.absent = none →
  (∀ (it : Item) (c j : Nat) (cs : List Nat), s.item? it.id = some it → it.kind = .launch → (∀ x ∈ c :: cs, x < 512 ∧ x / 64 = c / 64) →
    (c :: cs).length = it.lr.gang → s.mayPlace it c = true → it.waits = [] → s.edge.fatal = false → s.parked it = [] →
    s.cpMiss it.ctx it.dead (if it.lr.paramlen = 0 then [] else probes .load it.lr.param (min 192 it.lr.paramlen)) = none →
    it.gangs.head? = some j →
    (∀ x ∈ c :: cs, s.fits x ((((c :: cs).zip (s.nextNeeds it)).filter (·.1 == x)).map (·.2)) = true) →
    Gives (.gangPlace it.id (c :: cs)) s fun t => t.mem = s.mem ∧ (∀ g, g < s.next → t.group? g = s.group? g) ∧ ∀ k x, (c :: cs)[k]? = some x →
      ∃ G, t.group? (s.next + 1 + k) = some G ∧ G.ctx = it.ctx ∧ G.item = it.id ∧ G.gidx = it.lr.gang * j + k ∧ G.grank = k ∧ G.gang = s.next ∧ G.core = x ∧
        G.lsn = it.lsn ∧ G.active = false ∧ G.pad = [] ∧ G.tiles = [] ∧ G.accs = [] ∧ G.tw = [] ∧ G.fstat = 0 ∧ G.part = 32 ∧ G.tagsLow = [] ∧
        G.sched = BitVec.ofNat 32 (20 * 2 ^ 27 + 8 * 2 ^ 22 + 2 ^ 17 * bitN it.lr.flags 1 + 1024) ∧
        (∀ n ps, n < 48 → 4 * n + 4 ≤ it.lr.paramlen → s.port_ it.ctx it.renames .load (addOff it.lr.param (4 * n : Nat)) 4 = .ok ps →
          G.ks[n]? = some (BitVec.ofNat 32 (leNat (s.gather ps)))) ∧
        (∀ n, n < 48 → it.lr.paramlen < 4 * n + 4 → G.ks[n]? = some 0) ∧
        (∀ n, it.lr.gsize ≤ n → Map.get? G.threads n = none) ∧
        ∀ n, n < it.lr.gsize → ∃ T, Map.get? G.threads n = some T ∧ T.pc = it.lr.entry ∧ T.lane = n % 32 ∧ T.warp = n / 32 ∧ T.regs = [] ∧ T.tags = [] ∧ T.preds = 0 ∧
          T.hmode = .none ∧ T.wait = .ready ∧ T.ld = 0 ∧ T.st = 0 ∧ T.cp = 0 ∧ T.tl = 0) ∧
  (∀ (thief victim x : Nat) (it : Item), thief < 512 → (s.core thief).deque = [] → (s.core thief).spilled = [] → (s.core thief).retired = false →
    (∀ y ∈ s.offersAt thief, s.placeOn y thief = none) → victim ∈ s.victims thief → s.top victim = some (it.id, x) → s.item? it.id = some it →
    it.kind = .task → it.taken = false → it.core = victim → (s.core victim).spilled = [] → Distinct s.cores →
    Gives (.taskSteal thief victim) s fun t => t.item? it.id = some { it with inDeque := false, taken := true, core := thief } ∧
      (t.core victim).deque = (s.core victim).deque.filter (·.1 != it.id) ∧ ({ t with items := s.items, cores := s.cores } : State) = s) ∧
  (∀ (g h : Nat) (G H : Group), Distinct s.groups → s.group? g = some G → G.active = true →
    (∀ e ∈ G.live, match e.2.wait with
      | .on (.counters _ _ cp tl) _ _ => cp < e.2.cp ∨ tl < e.2.tl
      | .on (.fence _) _ _ => 0 < e.2.tl
      | .on (.image _) _ _ => False
      | .on .. => True
      | _ => False) →
    s.oldestPending G.core (fun x => x.live.any (·.2.able)) = some h → s.group? h = some H →
    Gives (.activeSetTrade g) s fun t => t.group? g = some { G with active := false } ∧ t.group? h = some { H with active := true, activeSince := s.clock } ∧
      (∀ k, k ≠ g → k ≠ h → t.group? k = s.group? k) ∧ ({ t with groups := s.groups } : State) = s) ∧
  (∀ (g o : Nat) (G : Group) (C : Ctx), s.group? g = some G → s.gangMembers G.gang = [(g, G)] → s.swappable g G = true → G.live ≠ [] → s.runs G.ctx = true →
    s.ctx? G.ctx = some C → C.svbase ≠ 0 → C.saveUsed + G.saveBytes ≤ C.svsize → s.savePlace G.ctx C.svsize G.saveBytes = some o →
    s.devOk G.ctx .store (addOff C.svbase (o : Nat)) G.saveBytes = true →
    (∀ ps, s.port_ G.ctx [] .store (addOff C.svbase (o : Nat)) G.saveBytes = .ok ps → ∀ p ∈ ps, p < memSize) → Unspilled s →
    Gives (.requeue g) s fun t => ThreadsStay s t ∧
      (∃ G', t.group? g = some G' ∧ ({ G' with threads := G.threads, slots := G.slots } : Group) =
        { G with res := .requeued, saveAt := o, active := false, leases := [] }) ∧
      (∀ k H, k ≠ g → s.group? k = some H → ∃ H', t.group? k = some H' ∧ ({ H' with threads := H.threads, slots := H.slots } : Group) = H) ∧
      t.ctx? G.ctx = some { C with saveUsed := C.saveUsed + G.saveBytes } ∧ t.items = s.items ∧ ∀ q ∈ t.leaves, q.grp ≠ g) ∧
  ∀ (g k : Nat) (G : Group) (T : Thread), s.group? g = some G → s.thread? g k = some T → (T.wait = .ready ∨ T.wait = .passed) → T.ready = true →
    let fint := bitsN G.sched.toNat 16 0
    bitN G.sched.toNat 17 = 1 → T.lastIssue + fint ≤ s.clock → (∃ e ∈ G.threads, e.1 ≠ k ∧ e.2.warp = T.warp ∧ s.clock < e.2.lastIssue + fint) →
    Gives (.threadStarved g k) s fun t => t.thread? g k = some { T with starved := true } ∧
      (∀ h n, (h, n) ≠ (g, k) → t.thread? h n = s.thread? h n) ∧ ({ t with groups := s.groups } : State) = s

/-- R47 to R51, R78, R440 to R445, R76, R252, R501: the watchdog traps the stalled threads of a warp, and a deadlock all of them; a spawn
record keeps what R48 says, and a release gives each thread its own back; a forced save parks every thread and is reported; leave is granted
within the governor's pool, or for a context of Oromel's within its share, or times out. -/
def Obligations.GroupsMakeProgress : Prop := ∀ (s : State) (g : Nat) (G : Group), s.absent = none → s.group? g = some G → s.frozen G.ctx = false →
  (∀ w : Nat,
    let bound := 2 ^ bitsN G.sched.toNat 31 27
    let hit (e : Nat × Thread) : Bool := decide (e.2.warp = w) && (decide (e.2.wait = .ready) || decide (e.2.wait = .passed)) && e.2.ready && decide (bound ≤ e.2.watched) &&
      G.threads.any fun x => decide (x.1 ≠ e.1 ∧ x.2.warp = e.2.warp ∧ s.clock < x.2.lastIssue + bound)
    bitN G.sched.toNat 17 = 0 → G.active = true → G.res = .resident → Calm G w (G.threads.filter hit) → G.threads.filter hit ≠ [] →
    Gives (.progressWatchdog g w) s fun t => t.mem = s.mem ∧ Struck s t g G (G.threads.filter hit) fun _ => { cause := 0x21, cls := 2 }) ∧
  (∀ w : Nat,
    let l := G.threads.filter fun e => e.2.warp == w
    let at_ (T : Thread) : Option (Nat × Addr) := match T.wait with | .on (.join _ x) i _ => some (i, x) | .on (.wsync _) i _ => some (i, T.pc) | _ => none
    l ≠ [] → Calm G w l → (∀ e ∈ l, e.2.pending = [] ∧ ∃ i x, at_ e.2 = some (i, x) ∧ i + 1024 ≤ s.clock) → G.active = true → G.res = .resident →
    G.activeSince + 1024 ≤ s.clock → (∀ i, Map.get? G.lastJoin w = some i → i + 1024 ≤ s.clock) →
    Gives (.joinDeadlock g w) s fun t => t.mem = s.mem ∧
      Struck s t g G l fun T => { cause := 0x22, addr := match at_ T with | some (_, x) => x.toNat | none => 0, cls := 2 }) ∧
  (∀ (k n i j : Nat) (T : Thread) (resume : Addr), s.thread? g k = some T → T.wait = .on (.ended resume n none) i j → T.ld = 0 → T.st = 0 → T.cp = 0 → T.tl = 0 →
    G.res = .resident → G.heldDel = [] → Distinct G.threads →
    let word := k % 1024 + 2 ^ 10 * n + 2 ^ 17 * T.preds.toNat + 2 ^ 24 * s.gslot g
    let kept := leBytes 8 resume.toNat ++ leBytes 4 word ++ [0, 0, 0, 0] ++ ((List.range n).flatMap fun v => leBytes 4 (T.v v)) ++
      ((List.range (min n 16)).flatMap fun v => leBytes 4 (T.tag v))
    Gives (.spawnRecordWrite g k) s fun t => t.mem = s.mem ∧ t.thread? g k = none ∧ (∀ h m, (h, m) ≠ (g, k) → t.thread? h m = s.thread? h m) ∧
      ∃ G' r, t.group? g = some G' ∧ G'.recs = G.recs ++ [r] ∧ r.pc = resume ∧ r.since = s.clock ∧ r.area = none ∧ r.held = T.held ∧
        r.bytes.take kept.length = kept ∧ r.bytes.length = 16 * r.units ∧ r.units = (16 + 4 * n + 4 * min n 16 + 15) / 16) ∧
  (∀ (pc : Addr) (r0 : SpawnRec) (rest : List SpawnRec), G.recs.filter (fun r => r.pc == pc) = r0 :: rest → (∀ r ∈ G.recs, r.area = none) →
    G.res = .resident → G.exiting = false → s.runs G.ctx = true → G.allBlocked = false → r0.since + 2 ^ bitsN G.sched.toNat 26 22 ≤ s.clock →
    let l := (r0 :: rest).zip G.freeLanes
    let field (r : SpawnRec) (o : Nat) : Nat := leNat ((r.bytes.drop o).take 4)
    l ≠ [] → (l.map fun e => field e.1 8 % 1024).Nodup →
    Gives (.spliceRelease g pc) s fun t => t.mem = s.mem ∧ (∃ G', t.group? g = some G' ∧ G'.recs.length + l.length = G.recs.length) ∧
      ∀ e ∈ l, ∃ T, t.thread? g (field e.1 8 % 1024) = some T ∧ T.lane = e.2.1 ∧ T.slot = e.2.2 ∧ T.warp = G.freeWarp ∧ T.pc = pc ∧ T.wait = .ready ∧
        T.held = e.1.held ∧ T.preds.toNat = bitsN (field e.1 8) 23 17 ∧ ∀ v, v < bitsN (field e.1 8) 16 10 → T.v v = field e.1 (16 + 4 * v)) ∧
  (∀ pc : Addr, G.recs ≠ [] → (∀ r ∈ G.recs, r.area = none) → G.res = .resident → G.exiting = false → s.runs G.ctx = true → G.allBlocked = true →
    G.recs.length ≤ G.freeLanes.length → Gives (.spliceRelease g pc) s fun t => t.mem = s.mem ∧ ∃ G', t.group? g = some G' ∧ G'.recs = []) ∧
  (∀ d : Nat, LogFits s → G.deadline = some d → d ≤ s.clock → G.res = .resident → Distinct G.threads → (∃ e ∈ G.live, e.2.standing = false) →
    let late (e : Nat × Thread) : Prop := e ∈ G.live ∧ ¬ (e.2.parked = true ∧ e.2.standing = true)
    Gives (.forcedSave g) s fun t =>
      (∃ e, late e ∧ (∀ x, late x → e.2.lane ≤ x.2.lane) ∧
        Logged s t { cls := 9, sev := 1, ctx := G.ctx, unit := 1, unitNo := G.core, detail := 0x120, addr := e.2.pc.toNat }) ∧
      (∀ k T, (k, T) ∈ G.live → ∃ U i j, t.thread? g k = some U ∧ U.pc = T.pc ∧ U.regs = T.regs ∧ U.preds = T.preds ∧ U.wait = .on .preempted i j) ∧
      ∃ G', t.group? g = some G' ∧ ∀ x ∈ G'.open_, x.preempt = false) ∧
  (∀ (q : LeaveReq) (rest : List LeaveReq) (C : Ctx), s.leaves = q :: rest → q.grp = g → G.core < 512 → s.ctx? G.ctx = some C →
    (∀ x ∈ s.leaves, ∀ H, s.group? x.grp = some H → dieOf H.core = dieOf G.core) → (s.edge.therm = 0 ∨ q.level < 2) →
    let cost (n : Nat) : Nat := match n with | 0 => 0 | 1 => 15 | 2 => 35 | _ => 400
    let held := s.charges.filter fun c => c.grp != g || c.ended
    let sum (l : List Charge) : Nat := (l.map fun c => cost c.level).foldl (· + ·) 0
    ((bitN C.svc 6 = 0 ∧ sum held + cost q.level ≤ 10 * s.edge.plim - 18000) ∨
      (bitN C.svc 6 = 1 ∧ sum (held.filter (·.ctx == G.ctx)) + cost q.level ≤ Map.getD s.edge.shares 0 G.ctx)) →
    Gives (.leaveGrant g) s fun t => t.mem = s.mem ∧ t.leaves = rest ∧ (∃ G', t.group? g = some G' ∧ G'.grant = max G.grant q.level) ∧
      (∃ c ∈ t.charges, c.grp = g ∧ c.level = max G.grant q.level ∧ c.ended = false) ∧
      (∀ k T j, s.thread? g k = some T → T.wait = .on (.leave q.level) q.since j → t.thread? g k = some { T with wait := .passed, readySince := s.clock })) ∧
  ∀ (q : LeaveReq) (C : Ctx) (w : Nat), LogFits s → s.leaves.find? (fun x => x.grp == g && x.level == q.level) = some q → q.grp = g → s.ctx? G.ctx = some C →
    q.since + (if bitN C.svc 6 = 1 then 130000000 else 13000000) ≤ s.clock →
    let l := G.threads.filter fun e => match e.2.wait with | .on (.leave n) i _ => n == q.level && i == q.since | _ => false
    Calm G w l → Gives (.leaveTimeout g q.level) s fun t => Struck s t g G l (fun _ => { cause := 0x23, arg := q.level, cls := 2 }) ∧
      t.leaves = s.leaves.erase q ∧ Logged s t { cls := 14, sev := 0, ctx := G.ctx }

/-! ## Items -/

/-- R66, R67, R69, R184, R192, R203 to R206, R222, R343, R485: the head record that comes next enters the dependence table with the
context's next LSN, and an engine job with its units; an item that is over leaves the table, and the join counter falls, its last decrement
starting the continuation; a relaunch selects groups, runs a round of them, and ends when none is selected or Oromel declines. An
item's groups follow the writes made before its admission or its round, which is the model's reading (log 89). -/
def Obligations.ItemsEnterAndComplete : Prop := ∀ s : State, s.absent = none →
  (∀ (q : Nat) (w : Waiting) (b : List Byte) (C : Ctx), s.head q = some w → q ∈ s.nextQueues → w.kind = .launch → w.host = none → s.judge w = .go b →
    s.ctx? w.ctx = some C → s.frozen w.ctx = false →
    let r := LaunchRec.ofBytes b
    r.traced = false → r.join = 0 → s.renameNeeds w.ctx (s.footprintOf w.ctx r false) = [] → (∀ i ∈ s.items, i.id < s.next) →
    (∀ i ∈ s.items, i.kind = .task → i.inDeque = true ∨ i.taken = true ∨ i.edges ≠ []) →
    Gives (.itemAdmit (.queue q)) s fun t => t.mem = s.mem ∧ Map.getD t.hwq [] q = (Map.getD s.hwq [] q).tail ∧
      t.ctx? w.ctx = some { C with lsn := (C.lsn + 1) % 2 ^ 32 } ∧
      (∀ g k c T, w.issuer = some (g, k, c) → s.thread? g k = some T → t.thread? g k = some { T with cp := T.cp - 1 }) ∧
      ∃ it, t.items = s.items ++ [it] ∧ it.ctx = w.ctx ∧ it.kind = .launch ∧ it.lr = r ∧ it.lsn = (C.lsn + 1) % 2 ^ 32 ∧ it.groupsLeft = r.ngroups ∧
        it.edges = s.edgesOf w.ctx w.anc (s.footprintOf w.ctx r false) ∧ it.fp = s.footprintOf w.ctx r false ∧ it.code = some s.mem ∧ it.ts = s.topTs) ∧
  (∀ (j : Job) (T : Thread) (d a : Place) (n : Nat), s.jobs.find? (·.id == j.id) = some j → (s.jobs.find? fun x => x.ctx == j.ctx && !x.admitted) = some j →
    s.tableFull = false → s.frozen j.ctx = false → j.waits = [] → j.kind = .copy d a n → s.jobRefused j (some []) = none → 0 < n → s.thread? j.grp j.tid = some T →
    Gives (.itemAdmit (.job j.id)) s fun t => t.mem = s.mem ∧ t.thread? j.grp j.tid = some { T with cp := T.cp - 1 } ∧ ∃ i, t.jobs.find? (·.id == j.id) = some i ∧
      i.admitted = true ∧ i.fault = j.fault ∧ i.fp = s.jobFp j ∧ i.edges = s.edgesOf j.ctx (s.ancestry j.item) (s.jobFp j) ∧
      ∀ u, u ∈ i.units ↔ u < n ∧ ((d.off + u) % 32 = 0 ∨ (d.off + u) / 32 * 32 < d.off ∨ d.off + n < (d.off + u) / 32 * 32 + 32)) ∧
  (∀ (it : Item) (C : Ctx), s.item? it.id = some it → s.itemOver it = true → s.frozen it.ctx = false → it.rel = none → it.lr.traced = false → it.host = none →
    (∀ x ∈ it.renames, x.own = false) → s.pageReturns = [] → s.ctx? it.ctx = some C → C.evs = 0 →
    (∀ i ∈ s.items, i.kind = .task → i.inDeque = true ∨ i.taken = true ∨ ∃ x ∈ i.edges, x ≠ it.id) →
    let gone (t : State) : Prop := (∀ i ∈ t.items, i.id ≠ it.id ∧ it.id ∉ i.edges) ∧ (∀ i ∈ t.jobs, it.id ∉ i.edges) ∧ t.groups = s.groups ∧
      t.ctx? it.ctx = some { C with phaseDone := C.phaseDone + 1 }
    (it.lr.join = 0 → it.lr.cont = 0 → Gives (.itemComplete it.id) s fun t => gone t ∧ t.mem = s.mem ∧ t.hwq = s.hwq) ∧
    ∀ ps, it.lr.join ≠ 0 → Reaches s it.ctx [] .atomic it.lr.join 8 ps → Roomy s ps → Unspilled s → Memory.wf s.mem = true →
      let v := leNat (ps.map (memByte s.mem))
      1 ≤ v → v < 2 ^ 63 → (v = 1 → it.lr.cont ≠ 0 → s.cpMiss it.ctx it.dead [(.load, addOff it.lr.cont 0x2F, 1)] = none) → (∀ e ∈ s.groups, e.2.slots = []) → (∀ e ∈ s.groups, ∀ x ∈ e.2.threads, ∀ l d i j, x.2.wait ≠ .on (.line l d) i j) →
      Gives (.itemComplete it.id) s fun t => gone t ∧ Holds s t (ps.zip (leBytes 8 (v - 1))) ∧
        (1 < v ∨ it.lr.cont = 0 → t.hwq = s.hwq) ∧
        (v = 1 → it.lr.cont ≠ 0 → ∃ q, q < 64 ∧ Map.getD t.hwq [] q = Map.getD s.hwq [] q ++ [{ ctx := it.ctx, kind := .launch, addr := it.lr.cont }])) ∧
  ∀ (it : Item) (r : Relaunch), s.item? it.id = some it → it.rel = some r → it.edges = [] → it.failedRecord = none → r.ended = none → s.frozen it.ctx = false →
    let lsn := ((match s.ctx? it.ctx with | some c => c.lsn | none => 0) + 1) % 2 ^ 32
    let next (u : State) : Option State := (u.modCtx it.ctx fun c => { c with lsn := lsn }).hdr it 0 (leBytes 4 lsn)
    let runs (v : State) (sel : List Nat) : State := v.modItem it.id fun i =>
      { i with lsn := lsn, nextGang := 0, groupsLeft := sel.length, after := true, ts := v.topTs,
               rel := some { r with nrun := r.nrun + (if r.selecting ∨ r.askedAt.isSome then 0 else r.sel.length),
                                    k := r.k + (if r.selecting ∨ r.askedAt.isSome then 0 else 1), sel := sel, selecting := false, askedAt := none } }
    (∀ (u v : State) (h : List Byte) (sel : List Nat), r.askedAt = none → r.selecting = false → s.roundOver it = true → it.waits = [] →
      s.cpMiss it.ctx it.dead (s.selReads it false) = none → s.cpPoison it.ctx ((s.selReads it false).filter (·.1 == .load)) = none →
      s.hdr it 0x18 (leBytes 8 (r.nrun + r.sel.length)) = some u → u.ctxs = s.ctxs → u.readDev it.ctx it.addr 256 = some h → u.selection it h false false = some sel →
      (sel ≠ [] → r.k + 1 < leNat ((h.drop 0x0C).take 1) → next u = some v → v.absent = none →
        Sys2Proof.Machine.exec (.relaunchSelectionDone it.id) s = .next (runs v sel)) ∧
      ∀ a b : State, sel = [] → u.hdr it 0x0D [4] = some a → a.hdr it 0x0E (leBytes 2 (r.k + 1)) = some b →
        b.hdr it 0x18 (leBytes 8 (r.nrun + r.sel.length)) = some v → v.absent = none →
        Sys2Proof.Machine.exec (.relaunchSelectionDone it.id) s = .next (v.modRel it.id fun _ =>
          { r with nrun := r.nrun + r.sel.length, k := r.k + 1, sel := [], selecting := true, ended := some false })) ∧
    ∀ asked : Nat, r.askedAt = some asked →
      (∀ v : State, next s = some v → v.absent = none → Sys2Proof.Machine.exec (.relaunchHostContinue it.id true) s = .next (runs v r.sel)) ∧
      ∀ a b v : State, (s.log { cls := 9, sev := 1, ctx := it.ctx, rfl := 2, addr := it.addr.toNat }).hdr it 0x0D [5] = some a →
        a.hdr it 0x0E (leBytes 2 r.k) = some b → b.hdr it 0x18 (leBytes 8 r.nrun) = some v → v.absent = none →
        let t := v.modRel it.id fun _ => { r with ended := some true }
        Sys2Proof.Machine.exec (.relaunchHostContinue it.id false) s = .next t ∧
        (asked + 130000000 ≤ s.clock → Sys2Proof.Machine.exec (.relaunchContinueTimeout it.id) s = .next t)

/-! ## The host's commands -/

/-- R29, R30, R77, R84, R85, R111 to R113, R239 to R242, R516: what a command at the head of a host queue does to contexts, buffers, plane
sets and queues, and the status it ends with; a pre-empted context's threads take the PREEMPT trap, and go on after RESUME. -/
def Obligations.ContextAndQueueCommands : Prop := ∀ (s : State) (q : Nat) (Q : HostQueue) (e : Entry),
  let s1 := s.queueTaken q
  let word (b : List Byte) (o n : Nat) : Nat := leNat ((b.drop o).take n)
  (∀ code : Nat, Offers s q Q e code → Q.priv = true → Q.heada.toNat + 4 ≤ memSize → Unspilled s → Memory.wf s.mem = true →
    let h := (Q.head + 1) % 2 ^ 32
    (∃ x, Map.get? s1.queues q = some { Q with head := h, hitch := x }) ∧ Holds s s1 (((List.range 4).map (Q.heada.toNat + ·)).zip (leBytes 4 h)) ∧ ThreadsStay s s1) ∧
  (∀ (u : State) (code detail : Nat), Q.priv = true → e.stata ≠ 0 → Unspilled u → Memory.wf u.mem = true →
    let t := u.status (statusOf q Q e) code detail 0
    Holds u t (((List.range 16).map (e.stata.toNat + ·)).zip (leBytes 1 code ++ leBytes 3 detail ++ [0, 0, 0, 0] ++ leBytes 8 (u.time13 / 13))) ∧
      t.edge.msix = if bitN e.cfl 1 = 1 ∧ u.edge.wymDown = false then 0 :: u.edge.msix else u.edge.msix) ∧
  (∀ (n : Nat) (c : Ctx) (dst : Addr) (ps : List Nat), Offers s q Q e 3 → s.planemapOf Q e = some (n, c, dst) →
    s.cpMiss n Q.dead [(.load, BitVec.ofNat 64 e.a1, 32), (.store, dst, 32)] = none → Reaches s1 n [] .load (BitVec.ofNat 64 e.a1) 32 ps →
    let image := s1.gather ps
    (s1.pdeOk c (Pde.ofBytes image) = false → Ends (.planemap q) s q Q e s1 2 0) ∧
    ∀ u, s1.pdeOk c (Pde.ofBytes image) = true → s1.cpWrite n dst image = some u →
      Ends (.planemap q) s q Q e (u.modPort fun p => { p with planes := p.planes.filter fun l => !(l.ctx == n && l.handle == e.a0) }) 1 0) ∧
  (∀ (n i : Nat) (c : Ctx), Offers s q Q e 4 → s.bufTarget e = some (n, i, c) → e.a1 + 64 ≤ memSize → s.port.poison = [] →
    let b := memBytes s1.mem e.a1 64
    let x := bufOfBytes b
    let kept := b.take 0x12 ++ leBytes 2 (x.attr % 256 + 256 * (if (s1.buf c i).valid ∧ (s1.buf c i).shared then 1 else 0)) ++ b.drop 0x14
    ((imageBad b = true ∨ (x.stamp = true ∧ s1.stampsOk n c x = false)) → Ends (.bufmap q) s q Q e s1 2 0) ∧
    (imageBad b = false → (x.stamp = true → s1.stampsOk n c x = true) →
      Ends (.bufmap q) s q Q e (s1.installBuf n i c kept) 1 0 ∧
      (x.rename = false → Memory.wf s1.mem = true → memBytes (s1.installBuf n i c kept).mem (c.btab + 64 * i) 64 = kept))) ∧
  (∀ b : List Byte, (2 ^ 48 < word b 8 8 ∨ 8 < word b 0x14 4 ∨ word b 0x18 4 = 0 ∨ word b 0x1C 4 = 0 ∨ 1023 < word b 0x30 2 ∨
      (bitN (word b 0x12 2) 3 = 1 ∧ bitN (word b 0x12 2) 1 = 0) ∨
      (bitN (word b 0x12 2) 6 = 1 ∧ (bitN (word b 0x12 2) 1 = 1 ∨ bitN (word b 0x12 2) 3 = 1 ∨ bitN (word b 0x12 2) 7 = 1))) → imageBad b = true) ∧
  (∀ (n i : Nat) (c : Ctx), Offers s q Q e 5 → s.bufTarget e = some (n, i, c) →
    Ends (.share q) s q Q e (s1.pokeRaw (c.btab + 64 * i + 0x12) (leBytes 2 ((s1.buf c i).attr % 256 + 256 * (e.a1 % 2)))) 1 0) ∧
  (Offers s q Q e 6 → e.a0 ≤ 63 → s.ctx? e.a0 = none → e.a1 % 128 = 0 → e.a1 + 128 ≤ memSize → s.port.poison = [] →
    let b := memBytes s1.mem e.a1 128
    (ctxOfBytes e.a1 b = none → Ends (.ctxcreate q) s q Q e s1 2 0) ∧
    ∀ c, ctxOfBytes e.a1 b = some c → c.btab = word b 0 8 ∧ c.btlen = word b 8 4 ∧ c.svc = word b 0x0C 2 ∧ c.sched = word b 0x10 4 ∧ c.lsn = word b 0x68 4 ∧
      c.killed = false ∧ (c.evs = 0 → Ends (.ctxcreate q) s q Q e { s1 with ctxs := Map.set s1.ctxs e.a0 c } 1 0)) ∧
  (Offers s q Q e 6 → (s.ctx? e.a0).isSome → Ends (.ctxcreate q) s q Q e s1 2 0) ∧
  (∀ (a : Nat) (b : List Byte), (128 ≤ word b 0x0C 2 ∨ bitN (word b 0x0C 2) 3 = 1 ∨ bitsN (word b 0x10 4) 28 24 < 10 ∨ 30 < bitsN (word b 0x10 4) 28 24 ∨
    48 < word b 0x14 4 ∨ word b 8 4 = 0 ∨ 65536 < word b 8 4) → ctxOfBytes a b = none) ∧
  (∀ C : Ctx, Offers s q Q e 7 → s.ctx? e.a0 = some C →
    Lasts (.ctxdestroy q) s q Q e (if s1.hasWork e.a0 then s1.kill e.a0 0 else s1) (.ctxdestroy e.a0)) ∧
  (∀ N : HostQueue, Offers s q Q e 8 → (∀ x ∈ s.queues, x.2.desc ≠ e.a0) → e.a0 + 64 ≤ memSize → s.port.poison = [] →
    queueOfBytes e.a0 false (memBytes s1.mem e.a0 64) = some N → memBytes s1.mem e.a0 64 = memBytes s.mem e.a0 64 →
    (N.priv = false → s.cpMiss N.ctx Q.dead [(.load, N.taila &&& ~~~(63#64), 64), (.store, N.heada, 4)] = none) →
    let k := s1.freeQueue
    Map.get? s1.queues k = none ∧ (s1.queueFits N = false → Ends (.qcreate q) s q Q e s1 2 0) ∧
    ∀ ps, s1.queueFits N = true → s1.queueBytes N .load (N.taila &&& ~~~(63#64)) 64 = some ps →
      let line := ps.headD 0 / 64
      let v := (s1.setQueue k N).queueState k 1
      let u := v.queueHitch k line (N.taila &&& ~~~(63#64))
      Ends (.qcreate q) s q Q e u 1 0 ∧ (N.hitch = none ∧ v.tableUse (sliceOf line) < 8192 → ∃ x,
        Map.get? u.queues k = some { N with state := 1, hitch := some x } ∧ x.line = line ∧ x.each = false ∧
        x.sent = some (memBytes v.mem (64 * line) 64, (Map.get? s1.port.lineSeq line).getD 0, 0))) ∧
  (∀ (k : Nat) (K : HostQueue), Offers s q Q e 9 → s1.queues.find? (fun x => x.2.desc == e.a0) = some (k, K) →
    let u := s1.dropQueue k
    (k ≠ q ∧ s1.draining k = true → Lasts (.qdestroy q) s q Q e s1 (.qdestroy k)) ∧
    (¬ (k ≠ q ∧ s1.draining k = true) → Ends (.qdestroy q) s q Q e u 1 0) ∧
    ((s1.queues.map (·.1)).Pairwise (· < ·) → Map.get? u.queues k = none) ∧ ∀ x ∈ u.hwq, ∀ w ∈ x.2, w.hostQueue ≠ some k) ∧
  (∀ C : Ctx, Offers s q Q e 10 → s.ctx? e.a0 = some C → s.frozen e.a0 = false → s1.absent = none → Distinct s.groups →
    (∀ x ∈ s.groups, x.2.ctx = e.a0 → ∀ y ∈ x.2.threads, ∀ o i j, y.2.wait ≠ .on (.image o) i j) →
    Gives (.preempt q) s fun t => t.edge.running = s.edge.running ++ [(q, statusOf q Q e, .preempt e.a0)] ∧
      (∃ C', t.ctx? e.a0 = some C' ∧ C'.held = true) ∧
      (∀ g G k, s.group? g = some G → (G.ctx ≠ e.a0 ∨ bitN G.lr.flags 2 = 0) → (t.thread? g k).map Thread.still = (s.thread? g k).map Thread.still) ∧
      ∀ g G, s.group? g = some G → G.ctx = e.a0 → bitN G.lr.flags 2 = 1 → G.res = .resident → G.exiting = false → G.deadline = none → G.loop = none →
        G.open_ = [] → G.heldDel = [] → Distinct G.threads → (G.handler ≠ 0 ∨ G.lr.handler ≠ 0) →
        (∀ x ∈ G.threads, x.2.hmode = .none ∧ ∀ a l i j, x.2.wait ≠ .on (.answer a l) i j) →
        (∃ G', t.group? g = some G' ∧ G'.accs = [] ∧ G'.deadline = some (s.clock + 2 ^ bitsN C.sched 28 24) ∧ G'.leases = [] ∧ G'.grant = 0) ∧
        ∀ k T, (k, T) ∈ G.live → t.thread? g k = some { T.entered { cause := 0x20, cls := 2 } (T.restart.getD T.pc)
          (if G.handler ≠ 0 then G.handler else G.lr.handler)
          ((G.live.filter fun x => x.2.warp == T.warp).foldl (fun y x => y ||| 2 ^ x.2.lane) 0) s.clock with hmode := .preempt }) ∧
  ∀ (C : Ctx) (g : Nat) (G : Group) (o : Nat), Offers s q Q e 11 → s.ctx? e.a0 = some C → s.frozen e.a0 = false → Distinct s.groups →
    (s1.status (statusOf q Q e) 1 0 0).absent = none → s.group? g = some G → G.ctx = e.a0 → s.gangMembers G.gang = [(g, G)] →
    G.res = .preempted o false → G.heldDel = [] →
    Gives (.resume q) s fun t => (∃ C', t.ctx? e.a0 = some C' ∧ C'.held = false) ∧
      (∃ G', t.group? g = some G' ∧ G'.res = .resident ∧ G'.core = G.core) ∧
      ∀ k T, s.thread? g k = some T → (∀ a n p i j, T.wait ≠ .on (.ended a n p) i j) →
        t.thread? g k = some { T with watched := 0, wait := .ready, readySince := s.clock }

/-- R66, R69, R201, R220, R241, R242, R246 to R249, R251, R465, R500: launches enter the hardware queue of their host queue; the tail of a
queue is read; free pages are added and reported; the attestation report; quiescence and release; checkpoint and restore, with their ends
and their interruptions. -/
def Obligations.DeviceCommands : Prop := ∀ (s : State) (q : Nat) (Q : HostQueue) (e : Entry),
  let s1 := s.queueTaken q
  let ctx := if Q.priv then e.a2 % 64 else Q.ctx
  let ended (u : State) (h : HostRef) (code detail : Nat) (t : State) : Prop := t = (u.modEdge fun x => { x with running := [] }).status h code detail 0
  (∀ (code : Nat) (C : Ctx), s.offered q = some (Q, e) → e.cmd = code → s.absent = none → s.ctx? ctx = some C → s.frozen ctx = false →
    let enters (kind : ItemKind) (param : Addr) : State := { s with hwq := Map.set s.hwq Q.hwq (Map.getD s.hwq [] Q.hwq ++
      [{ ctx := ctx, kind := kind, addr := BitVec.ofNat 64 e.a0, param := param, host := some (statusOf q Q e) }]) }
    (code = 1 → Sys2Proof.Machine.exec (.launchCommand q) s = .next (enters .launch 0)) ∧
    (code = 2 → Sys2Proof.Machine.exec (.relaunchCommand q) s = .next (enters .relaunch (BitVec.ofNat 64 e.a1)))) ∧
  ((Offers s q Q e 1 → (s.ctx? ctx = none ∨ s.frozen ctx = true) → Ends (.launchCommand q) s q Q e s1 2 0) ∧
    (Offers s q Q e 2 → (s.ctx? ctx = none ∨ s.frozen ctx = true) → Ends (.relaunchCommand q) s q Q e s1 2 0)) ∧
  (∀ (x : Slot) (data : List Byte) (m lost : Nat), s.absent = none → Map.get? s.queues q = some Q → Q.state = 1 → s.edge.wymDown = false →
    Q.hitch = some x → x.each = false → x.sent = some (data, m, lost) →
    let n := leNat (data.take 4)
    let y : Slot := match x.next with
      | some p => { x with sent := some p, next := none, seqs := [m] }
      | none => { x with sent := none, seqs := [m] }
    ((n + 2 ^ 32 - Q.head) % 2 ^ 32 ≤ Q.nent →
      Sys2Proof.Machine.exec (.queueTailPush q) s =
        .next { s with queues := Map.set s.queues q { Q with tail := n, dead := [], hitch := some y } }) ∧
    (Q.nent < (n + 2 ^ 32 - Q.head) % 2 ^ 32 → Q.desc + 64 ≤ memSize → Memory.wf s.mem = true →
      Gives (.queueTailPush q) s fun t => Map.get? t.queues q = some { Q with tail := n, dead := [], hitch := some y, state := 2 } ∧
        Holds s t [(Q.desc + 0x1E, 2)] ∧ ∀ x ∈ t.hwq, ∀ w ∈ x.2, ∀ h, w.host = some h → h.queue ≠ q)) ∧
  (Offers s q Q e 12 → e.a2 = 0 → e.a0 + 8 * e.a1 ≤ memSize → s.port.poison = [] → s.port.hold = [] → s.port.stalls = [] →
    let l := (List.range e.a1).map fun k => leNat (memBytes s1.mem (e.a0 + 8 * k) 8)
    let good (x : Nat) : Prop := if x % 2 = 1 then (x - 1) % 2 ^ 21 = 0 ∧ x - 1 + 2 ^ 21 ≤ memSize else x % 2 ^ 16 = 0 ∧ x + 2 ^ 16 ≤ memSize
    ((∀ x ∈ l, good x) → Ends (.poolAdd q) s q Q e (s1.modPort fun p =>
      { p with pool64 := p.pool64 ++ l.filter (· % 2 == 0), pool2m := p.pool2m ++ (l.filter (· % 2 == 1)).map (· - 1) }) 1 0) ∧
    ((∃ x ∈ l, ¬ good x) → Ends (.poolAdd q) s q Q e s1 2 0)) ∧
  (Offers s q Q e 12 → e.a2 = 1 → e.a0 % 32 = 0 → e.a0 + 32 ≤ memSize → Unspilled s1 → Memory.wf s1.mem = true →
    let used := (s1.port.packed.map fun g => (Config.packedBytes g + 4095) / 4096 * 4096 + 4096 + Config.unitMapBytes).foldl (· + ·) 0
    let cells := ((List.range 32).map (e.a0 + ·)).zip (leBytes 8 (65536 * s1.port.pool64.length) ++ leBytes 8 (2 ^ 21 * s1.port.pool2m.length) ++
      leBytes 8 used ++ leBytes 8 (65536 * s1.port.packed.length))
    let u := s1.writeEvent { ctx := 0, stamp := none } cells
    Holds s1 u cells ∧ Ends (.poolReport q) s q Q e u 1 0) ∧
  (Offers s q Q e 14 → e.a0 + 48 ≤ memSize → e.a1 + 512 ≤ memSize → s.port.poison = [] → Unspilled s1 → Memory.wf s1.mem = true →
    let b := attestReport (memBytes s1.mem e.a0 48)
    let cells := ((List.range 512).map (e.a1 + ·)).zip b
    let u := s1.writeEvent { ctx := 0, stamp := none } cells
    Holds s1 u cells ∧ Ends (.attest q) s q Q e u 1 0 ∧ b.length = 512 ∧
      leNat (b.take 8) / 65536 = 0x8200 ∧ (b.drop 8).take 48 = memBytes s1.mem e.a0 48 ∧ (b.drop 0xD0).take 56 = List.replicate 56 0 ∧
      b.drop 0x1C8 = List.replicate 56 0) ∧
  (Offers s q Q e 15 → (s.edge.quiesced = true → Ends (.quiesce q) s q Q e s1 1 0) ∧
    (s.edge.quiesced = false → Lasts (.quiesce q) s q Q e s1.noteCtxs.preemptAll .quiesce)) ∧
  (Offers s q Q e 16 → (s.edge.quiesced = false → Ends (.release q) s q Q e s1 1 0) ∧
    (s.edge.quiesced = true → let u := s1.modEdge fun x => { x with quiesced := false }
      Ends (.release q) s q Q e (if bitN e.a0 0 = 1 then (s.ctxs.map (·.1)).foldl (fun (s : State) c => s.resumeCtx c) u else u) 1 0)) ∧
  (Offers s q Q e 13 → e.a0 + 64 ≤ memSize → s.port.poison = [] →
    let b := memBytes s1.mem e.a0 64
    let resume := bitN (leNat ((b.drop 0x10).take 1)) 0 == 1
    let w := s1.modEdge fun x => { x with ckptPod := leNat (b.take 2) % 1024, ckptDest := BitVec.ofNat 64 (leNat ((b.drop 8).take 8)) }
    (s.edge.quiesced = true → Lasts (.ckpt q) s q Q e (w.modEdge fun x => { x with ckpt := true }) (.ckpt false resume)) ∧
    (s.edge.quiesced = false → (∃ c ∈ s.ctxs, bitN c.2.svc 5 = 1) → Ends (.ckpt q) s q Q e s1 2 1) ∧
    (s.edge.quiesced = false → (∀ c ∈ s.ctxs, bitN c.2.svc 5 = 0) → Lasts (.ckpt q) s q Q e w.noteCtxs.preemptAll (.ckpt true resume))) ∧
  (∀ m : Manifest, Offers s q Q e 17 →
    ((s.edge.quiesced = false ∨ s.ctxs ≠ []) → Ends (.restore q m) s q Q e s1 2 2) ∧
    (s.edge.quiesced = true → s.ctxs = [] → e.a0 + 64 ≤ memSize → s.port.poison = [] →
      ((m.finalWord ≠ 1 ∨ m.byteCount ≠ memSize) → Ends (.restore q m) s q Q e s1 2 3) ∧
      (m.finalWord = 1 → m.byteCount = memSize → m.sameDevice = false → bitN e.a1 0 = 0 → Ends (.restore q m) s q Q e s1 2 4) ∧
      (m.finalWord = 1 → m.byteCount = memSize → (m.sameDevice = true ∨ bitN e.a1 0 = 1) →
        let b := memBytes s1.mem e.a0 64
        Lasts (.restore q m) s q Q e (s1.modEdge fun x => { x with ckptPod := leNat (b.take 2) % 1024, ckptDest := BitVec.ofNat 64 (leNat ((b.drop 8).take 8)) })
          .restore))) ∧
  (∀ (h : HostRef) (own resume : Bool), s.absent = none → s.edge.ckpt = true → s.edge.running = [(q, h, .ckpt own resume)] → (own = false ∨ resume = false) →
    (∀ t, ended (s.modEdge fun x => { x with ckpt := false, image := s.mem, manifest := s.manifestBytes }) h 1 0 t → t.absent = none →
      Sys2Proof.Machine.exec .ckptStreamEnd s = .next t) ∧
    (∀ n t, ended ((s.modEdge fun x => { x with ckpt := false, image := s.mem.filter fun c => decide (c.1 < 65536 * min n 12582912), manifest := [] }).log
      { cls := 12, sev := 1 }) h 3 (min n 12582912) t → t.absent = none →
      Sys2Proof.Machine.exec (.ckptInterrupted n) s = .next t)) ∧
  s.manifestBytes.length = 4096 ∧ leNat ((s.manifestBytes.drop 0x30).take 8) = memSize ∧ s.manifestBytes.drop 0xFF8 = leBytes 8 1 ∧
  ∀ (h : HostRef) (image : List (Nat × Byte)) (poison : List Nat), s.absent = none → s.edge.running = [(q, h, .restore)] → h.stata = 0 → Memory.wf s.mem = true →
    let restored (bound : Nat) (t : State) : Prop := Memory.wf t.mem = true ∧
      (∀ x, x < bound → memByte t.mem x = match image.reverse.find? (·.1 == x) with | some c => c.2 | none => 0) ∧
      (∀ x, 32 * x < bound → (x ∈ t.port.poison ↔ x ∈ poison)) ∧ t.port.copies = [] ∧ t.port.snooped = [] ∧
      (∀ l ∈ s.port.snooped, ∃ x ∈ t.port.snoops, x.line = l) ∧ t.edge.running = []
    Gives (.restoreStreamEnd image poison) s (restored memSize) ∧
    ∀ n, s.edge.elbase = 0 → Gives (.restoreInterrupted image poison n) s fun t => restored (min memSize (n / 4096 * 4096)) t ∧ t.edge.seq = s.edge.seq + 1 ∧
      ∀ x, n / 4096 * 4096 ≤ x → memByte t.mem x = memByte s.mem x

/-! ## The package edge -/

/-- R188, R234, R235, R236, R250, R253, R254, R436, R437, R494, R496 to R498, R502, R503, R515: what the host and the links do to the device. -/
def Obligations.EdgeEvents : Prop := ∀ s : State, s.absent = none →
  let booted (fail : Option BootFail) : State := { State.reset with agenda := s.agenda, free := s.free + 1, edge := match fail with
    | none => { State.reset.edge with bstage := 5 }
    | some f =>
      let x : Nat × Nat := match f with
        | .fuses => (1, 1) | .imageAbsent => (2, 2) | .imageSignature => (2, 3) | .imageVersion => (2, 4)
        | .hbmInit => (3, 5) | .arrayInit => (3, 6) | .coreSignature => (4, 7) | .coreVersion => (4, 8)
      { State.reset.edge with bstage := x.1, booterr := x.2, recovery := true } }
  (∀ fail, Sys2Proof.Machine.exec (.powerOnReset fail) s = .next (booted fail) ∧
    (s.edge.mctlUp = true → ¬ (s.edge.therm = 3 ∧ 90 ≤ s.edge.tjmax) → Sys2Proof.Machine.exec (.mctlDeviceReset fail) s = .next (booted fail)) ∧
    (s.edge.therm = 3 → 90 ≤ s.edge.tjmax → Sys2Proof.Machine.exec (.mctlDeviceReset fail) s = .next s)) ∧
  (s.edge.wymDown = false → s.edge.bstage = 5 → s.edge.booterr = 0 →
    Gives (.linkTrainingComplete 0 true) s (fun t => t.edge.bstage = 6 ∧ 0 ∈ t.edge.trained ∧ t.edge.booterr = 0 ∧ t.groups = s.groups) ∧
    Gives (.linkTrainingComplete 0 false) s fun t => t.edge.bstage = 5 ∧ t.edge.booterr = 9 ∧ t.edge.trained = s.edge.trained) ∧
  (∀ port ok, 1 ≤ port → port ≤ 32 → 6 ≤ s.edge.bstage → s.edge.recovery = false → port ∉ s.edge.tried → s.edge.q0desc = 0 →
    Gives (.linkTrainingComplete port ok) s fun t => (∀ k, k ∈ t.edge.trained ↔ k ∈ s.edge.trained ∨ (ok = true ∧ k = port)) ∧ port ∈ t.edge.tried ∧
      let last : Prop := s.edge.bstage = 6 ∧ ∀ k, 1 ≤ k → k ≤ 32 → k = port ∨ k ∈ s.edge.tried
      (last → t.edge.bstage = 7) ∧ (¬ last → t.edge.bstage = s.edge.bstage)) ∧
  (∀ v : Addr, s.edge.hostUp = true → (s.edge.bstage ≠ 7 ∨ v = 0 → Gives (.q0descWrite v) s fun t => t = s.modEdge fun x => { x with q0desc := v }) ∧
    (s.edge.bstage = 7 → v ≠ 0 → v.toNat + 64 ≤ memSize → s.port.poison = [] → s.queues = [] → Memory.wf s.mem = true →
      (∀ k, s.tableUse k < 8192) →
      Gives (.q0descWrite v) s fun t => t.edge.bstage = 8 ∧
        let broken : Prop := t.edge.booterr = 0x0A ∧ t.edge.recovery = true ∧ t.queues = []
        match queueOfBytes v.toNat true (memBytes s.mem v.toNat 64) with
        | some N => N.priv = true ∧ if s.queueFits N then
            (∃ x, t.queues = [(0, { N with state := 1, hitch := some x })] ∧ x.line = N.taila.toNat / 64 ∧ x.each = false) ∧
              Holds s t [(v.toNat + 0x1E, 1)]
          else broken
        | none => broken)) ∧
  (s.edge.hostUp = true →
    Gives .mctlUalinkRetrain s (fun t => t.edge.mctl = 2 ∧ t.edge.tried = [] ∧ t.groups = s.groups) ∧
    (∀ v : Addr, Gives (.elstatOvfClear v) s fun t => t = s.modEdge fun x => { x with ovf := x.ovf && !v.getLsbD 63 }) ∧
    ∀ (r : BarReg) (v : Addr), Gives (.registerWrite r v) s fun t => ({ t with edge := s.edge } : State) = s ∧ match r with
      | .plim => t.bar0 0x20 = max 1000 (min 3600 v.toNat)
      | .podid => t.bar0 0x38 = v.toNat % 1024
      | .hwbase => t.bar0 0x48 = v.toNat / 65536 * 65536
      | .hwsize => t.bar0 0x50 = v.toNat / 65536 * 65536
      | .elbase => t.bar0 0x80 = v.toNat
      | .elsize => t.bar0 0x88 = v.toNat
      | .eltail => t.bar0 0x98 = v.toNat
      | .mctl => t.bar0 0x10 = if v.toNat % 4 = 0 then v.toNat else s.bar0 0x10
      | .hdmbase => t.edge.hdmbase = v.toNat
      | .share c => Map.canon 0 s.edge.shares = true → Map.getD t.edge.shares 0 c = v.toNat) ∧
  (∀ port, port ∈ s.edge.trained →
    Gives (.flitReplay port false) s (fun t => Map.getD t.edge.replays 0 port = min (2 ^ 32 - 1) (Map.getD s.edge.replays 0 port + 1) ∧
      Map.getD t.edge.streak 0 port = Map.getD s.edge.streak 0 port + 1) ∧
    (Distinct s.edge.streak → Gives (.flitReplay port true) s fun t =>
      Map.getD t.edge.replays 0 port = min (2 ^ 32 - 1) (Map.getD s.edge.replays 0 port + 1) ∧ Map.getD t.edge.streak 0 port = 0) ∧
    (8 ≤ Map.getD s.edge.streak 0 port →
      (Distinct s.edge.fails → Distinct s.edge.streak → Gives (.linkRetrain port true) s fun t =>
        port ∈ t.edge.trained ∧ Map.get? t.edge.fails port = none ∧ Map.getD t.edge.streak 0 port = 0) ∧
      Gives (.linkRetrain port false) s fun t => Map.get? t.edge.fails port =
        some ((((Map.get? s.edge.fails port).getD []).filter fun x => decide (s.clock ≤ x + 130000000)) ++ [s.clock]))) ∧
  (∀ port n, LogFits s → Map.get? s.edge.replays port = some n → Distinct s.edge.replays → Gives (.replayCountReport port) s fun t =>
    Logged s t { cls := 7, sev := 0, unit := 7, unitNo := port, detail := n } ∧ Map.get? t.edge.replays port = none ∧ t.groups = s.groups) ∧
  (∀ port l, LogFits s → Map.get? s.edge.fails port = some l → 3 ≤ l.length → port ∈ s.edge.trained →
    (port ≠ 0 → Gives (.linkPortDown port) s fun t => Logged s t { cls := 8, sev := 1, unit := 7, unitNo := port } ∧ port ∉ t.edge.trained ∧ t.groups = s.groups) ∧
    (port = 0 → NoHost s → Gives (.linkPortDown 0) s fun t => t.edge.wymDown = true ∧ 0 ∉ t.edge.trained ∧ t.port.snooped = [] ∧ t.port.snoops = [] ∧
      ∀ c C, s.ctx? c = some C → C.svc ≠ 0 → ∃ C', t.ctx? c = some C' ∧ C'.killed = true)) ∧
  (s.edge.wymDown = true → Gives (.wymbiynRetrainRetry true) s (fun t => t.edge.wymDown = false ∧ 0 ∈ t.edge.trained ∧ t.ctxs = s.ctxs ∧ t.queues = s.queues) ∧
    Gives (.wymbiynRetrainRetry false) s fun t => t = s) ∧
  (∀ p n, s.edge.hostUp = true → 0 < n → p % 64 + n ≤ 64 → p + n ≤ memSize →
    let ps := (List.range n).map (p + ·)
    let admits : Prop := s.edge.inWindow p n = true ∨
      ∃ x ∈ s.spots p n, bitN x.entry.rights 4 = 1 ∧ (x.entry.owner = x.ctx ∨ x.entry.shared = true) ∧ x.ok = true
    let refused (w : Nat) (t : State) : Prop :=
      Logged s t { cls := 15, sev := 0, ctx := ((s.overlaps p 1).map (·.entry.owner)).foldl min 0xFF, unit := 7, detail := 1 + w, addr := p }
    let h := s.edge.hdmbase + p
    (admits → (∀ x ∈ s.port.poison, ∀ y ∈ ps, y / 32 ≠ x) →
      Gives (.hostHdmRead h n) s fun t => t.edge.hostRead = memBytes s.mem p n ∧ t.edge.hostPoison = false ∧ t.mem = s.mem ∧ t.groups = s.groups) ∧
    (admits → (∃ x ∈ s.port.poison, ∃ y ∈ ps, y / 32 = x) → Gives (.hostHdmRead h n) s fun t => t.edge.hostPoison = true ∧ t.mem = s.mem) ∧
    (s.edge.inWindow p n = false → (∀ x ∈ s.spots p n, bitN x.entry.rights 4 = 0) → LogFits s →
      Gives (.hostHdmRead h n) s (fun t => t.edge.hostRead = List.replicate n 0xFF ∧ refused 0 t) ∧
      ∀ bs : List Byte, bs.length = n → Gives (.hostHdmWrite h (.write bs)) s (refused 16)) ∧
    (s.edge.inWindow p n = true → s.edge.ckpt = false → s.port.stalls = [] → s.port.poison = [] → Roomy s ps → Unspilled s → Memory.wf s.mem = true →
      (∀ bs : List Byte, bs.length = n → Gives (.hostHdmWrite h (.write bs)) s fun t => Holds s t (ps.zip bs) ∧ ThreadsStay s t) ∧
      ∀ (k : Nat) (op : AtomOp) (ty : Ty) (v swap : Nat), atomOfIndex k = some op → atomLen ty = n → p % n = 0 →
        Gives (.hostHdmWrite h (.atomic k ty v swap)) s fun t => t.edge.hostRead = memBytes s.mem p n ∧ ThreadsStay s t ∧
          Holds s t (ps.zip (leBytes n (atomNew op ty (leNat (memBytes s.mem p n)) (v % 2 ^ ty.bits) (swap % 2 ^ ty.bits)))))) ∧
  (∀ (line : Nat) (x : Snoop), s.port.snoops.find? (·.line == line) = some x →
    Gives (.snoopAck line) s (fun t => t = s.modPort fun p => { p with snoops := p.snoops.erase x }) ∧
    (s.clock ≥ x.sent + 13000000 → x.job = 0 → LogFits s → Gives (.snoopTimeout line) s fun t =>
      t.port.snoops = s.port.snoops.erase x ∧
      ((∀ T i j, s.thread? x.grp x.tid = some T → T.wait ≠ .on (.fence 8) i j) → (∀ a ∈ s.accesses, a.id = x.acc → a.kind.scope < 8) →
        Logged s t { cls := 8, sev := 1, unit := 2, unitNo := Config.llcSlice (64 * line) % 256, addr := 64 * line }) ∧
      ∀ T i j, s.thread? x.grp x.tid = some T → T.wait = .on (.fence 8) i j → (∀ a ∈ s.accesses, a.id = x.acc → a.kind.scope < 8) →
        t.thread? x.grp x.tid = some { T with held := T.held ++ [{ order := s.next, trap := { cause := 0x16, arg := 4, cls := 1 } }] })) ∧
  (∀ tj, s.edge.therm ≤ 3 →
    let up := if 115 ≤ tj then 3 else if 105 ≤ tj then 2 else if 95 ≤ tj then 1 else 0
    let new := if s.edge.therm ≤ up then up else if 3 ≤ s.edge.therm ∧ 110 ≤ tj then 3 else if 2 ≤ s.edge.therm ∧ 100 ≤ tj then 2
      else if 1 ≤ s.edge.therm ∧ 90 ≤ tj then 1 else 0
    ((new = s.edge.therm ∨ new ≠ 3) → Gives (.thermalStateChange tj) s fun t => t.edge.therm = new ∧ t.edge.tjmax = tj ∧ t.groups = s.groups ∧
      t.edge.msix = if new = s.edge.therm ∨ s.edge.wymDown = true then s.edge.msix else 2 :: s.edge.msix) ∧
    (new ≠ s.edge.therm → new = 3 → LogFits s → NoHost s → s.edge.ckpt = false → (∀ e ∈ s.edge.running, e.2.2 ≠ .restore) → Gives (.thermalStateChange tj) s fun t =>
      t.edge.therm = 3 ∧ t.edge.fatal = true ∧ t.edge.quiesced = true ∧ t.jobs = [] ∧ t.edge.seq = s.edge.seq + 1 ∧
      ∀ c C, s.ctx? c = some C → ∃ C', t.ctx? c = some C' ∧ C'.killed = true)) ∧
  ∀ c C seq, s.ctx? c = some C → C.doomed = some seq → C.killed = false → NoHost s → Distinct s.groups →
    Gives (.oromelPolicyKill c) s fun t => Killed s t c ∧ t.edge = s.edge

/-- R425, R426, R450, R451, R474 to R477, R489: errors the device finds in itself are logged, and contained as the array or unit they meet
says. -/
def Obligations.ErrorsAreContained : Prop := ∀ s : State, LogFits s →
  (∀ (n cls : Nat) (i : Instr), n < 512 → (s.core n).retired = false →
    ((i = .controlCompareMismatch (.core n) ∧ cls = 6) ∨ (i = .scrubberFinding (.datapath n) false ∧ cls = 5)) →
    ((∀ e ∈ s.groups, e.2.core ≠ n) → Gives i s fun t => (t.core n).retired = true ∧ t.groups = s.groups ∧
      Logged s t { cls := cls, sev := 1, rfl := 4, unit := 1, unitNo := n, detail := if cls = 6 then 0x400 else 0 }) ∧
    ∀ c C, c < 64 → Mortal s c C → (∃ e ∈ s.groups, e.2.core = n) → (∀ e ∈ s.groups, e.2.core = n → e.2.ctx = c) →
      Gives i s fun t => (t.core n).retired = true ∧ Killed s t c ∧ t.edge.seq = s.edge.seq + 2) ∧
  (∀ u, (∀ n, u ≠ .core n) → NoHost s → s.edge.ckpt = false → (∀ e ∈ s.edge.running, e.2.2 ≠ .restore) → Gives (.controlCompareMismatch u) s fun t => t.edge.fatal = true ∧ t.edge.quiesced = true ∧
    t.edge.seq = s.edge.seq + 1 ∧ Map.getD t.edge.ecnt 0 6 = Map.getD s.edge.ecnt 0 6 + 1 ∧
    ∀ c C, s.ctx? c = some C → ∃ C', t.ctx? c = some C' ∧ C'.killed = true) ∧
  (∀ w, (∀ c, w ≠ .datapath c) → (∀ p, w ≠ .hbm p) → Gives (.scrubberFinding w true) s fun t => t.groups = s.groups ∧ t.ctxs = s.ctxs ∧
    Logged s t { cls := 3, sev := 0, unit := (s.arrayUnit w).1, unitNo := (s.arrayUnit w).2 }) ∧
  (∀ c, Gives (.scrubberFinding (.datapath c) true) s fun t => t.groups = s.groups ∧ Logged s t { cls := 5, sev := 0, unit := 1, unitNo := c }) ∧
  (∀ c l, Gives (.scrubberFinding (.l1 c l) false) s fun t => t.groups = s.groups ∧ t.ctxs = s.ctxs ∧ Logged s t { cls := 4, sev := 1, unit := 1, unitNo := c } ∧
    ∀ y, y ∈ t.port.copies ↔ y ∈ s.port.copies ∧ ¬ (y.level = 0 ∧ y.unit = c ∧ y.line = l)) ∧
  (∀ d l, Gives (.scrubberFinding (.l2 d l) false) s fun t => t.groups = s.groups ∧ t.ctxs = s.ctxs ∧ Logged s t { cls := 4, sev := 1, unit := 3, unitNo := d } ∧
    ∀ y, y ∈ t.port.copies ↔ y ∈ s.port.copies ∧ ¬ (y.level = 1 ∧ y.unit = d ∧ y.line = l)) ∧
  (∀ p, Gives (.scrubberFinding (.hbm p) true) s (fun t => t = s) ∧ (p < memSize → Gives (.scrubberFinding (.hbm p) false) s fun t =>
    ({ t with port := s.port } : State) = s ∧ ∀ x, x ∈ t.port.poison ↔ x ∈ s.port.poison ∨ x = p / 32)) ∧
  (∀ line k e, (s.port.table.filter (·.line == line))[k]? = some e → Gives (.scrubberFinding (.hitch line k) false) s fun t =>
    t.edge.seq = s.edge.seq + 1 ∧ ThreadsStay s t ∧ ∀ g G off x, s.group? g = some G → Map.get? G.slots off = some x → .slot g off ∈ e.subs →
      x.gone = false → x.severed = false →
      ∃ G' y, t.group? g = some G' ∧ Map.get? G'.slots off = some y ∧ y.severed = true ∧ y.next = none ∧ y.sent = none ∧ G'.tagBit x.tag = true) ∧
  (∀ x, Gives (.scrubberFinding (.llcClean x) false) s fun t => t.groups = s.groups ∧ t.ctxs = s.ctxs ∧ Logged s t { cls := 4, sev := 1, unit := 2, unitNo := x }) ∧
  (∀ g k v G T, s.group? g = some G → s.thread? g k = some T → Gives (.scrubberFinding (.register g k v) false) s fun t =>
    Logged s t { cls := 4, sev := 1, ctx := G.ctx, unit := 1, unitNo := G.core } ∧ (∀ h m, (h, m) ≠ (g, k) → t.thread? h m = s.thread? h m) ∧
    t.thread? g k = some { T with poison := if v ∈ T.poison then T.poison else v :: T.poison }) ∧
  (∀ g G C w, s.group? g = some G → Mortal s G.ctx C → w ∈ [ArrayWord.scratchpad g, .tile g, .accumulator g, .twill g] →
    Gives (.scrubberFinding w false) s fun t => Killed s t G.ctx ∧ Logged s t { cls := 4, sev := 2, ctx := G.ctx, unit := 1, unitNo := G.core }) ∧
  (∀ c b o C, (if b = 1 then (s.core c).bank1 else (s.core c).bank0).owner = some o → Mortal s o C → Distinct s.cores → Gives (.scrubberFinding (.bank c b) false) s fun t =>
    Killed s t o ∧ Logged s t { cls := 4, sev := 2, ctx := o, unit := 1, unitNo := c } ∧ (if b = 1 then (t.core c).bank1 else (t.core c).bank0) = {}) ∧
  (∀ x p w, w = .llcDirty x p ∨ w = .hold x p → Gives (.scrubberFinding w false) s fun t => t.groups = s.groups ∧ t.ctxs = s.ctxs ∧
    Logged s t { cls := 4, sev := 2, ctx := (s.ownersOf (p / 65536)).headD 0xFF, rfl := 1, ppage := p / 65536 * 65536, unit := 2, unitNo := x } ∧
    ∀ y, y ∈ t.port.poison ↔ y ∈ s.port.poison ∨ y / 4 = p / 128) ∧
  (∀ p b, p < memSize → 2 ≤ (s.placement p).1 → s.ownersOf (p / 65536) = [] → Gives (.ecsUncorrectableFinding p b) s fun t =>
    t.edge.seq = s.edge.seq + 1 ∧ Map.getD t.edge.ecnt 0 2 = Map.getD s.edge.ecnt 0 2 + 1 ∧ t.groups = s.groups ∧ t.ctxs = s.ctxs ∧
    (∀ x, x ∈ t.port.poison ↔ x ∈ s.port.poison ∨ x / 32 = p / 1024) ∧ ∀ a ∈ t.port.pool64, a / 65536 ≠ p / 65536) ∧
  ∀ stack chan bank rise, (rise = 0 → Gives (.ecsCountPoll stack chan bank rise) s fun t => t = s) ∧
    (0 < rise → Gives (.ecsCountPoll stack chan bank rise) s fun t => t.groups = s.groups ∧
      Logged s t { cls := 1, sev := 0, unit := 4, unitNo := stack, stack := stack, chan := chan, bank := bank, detail := min 255 rise })

/-! ## Rules of the whole machine -/

/-- R193, R194: an LSN is later than another by serial arithmetic, and the later of the two becomes the stamp, which never moves
backwards. -/
def Obligations.SerialComparison : Prop := ∀ s q : Nat, s < 2 ^ 32 → q < 2 ^ 32 →
  (later s q = true ↔ 1 ≤ ((s : Int) - q) % 2 ^ 32 ∧ ((s : Int) - q) % 2 ^ 32 ≤ 2 ^ 31 - 1) ∧ (((s : Int) - q) % 2 ^ 32 = 0 ↔ s = q) ∧
  laterOf s q = (if later s q then s else q) ∧ later q (laterOf s q) = false

/-- R83: the address of a memory operand keeps the buffer index of its base, and its offset is the sum of base, sign-extended index and
displacement cut to 48 bits; what is omitted counts 0. Bounds are checked on that address. -/
def Obligations.EffectiveAddress : Prop := ∀ (s : State) (r : Ref) (f : Full),
  let base := s.op64 r f.a.toNat
  let sext (x : Nat) : Int := if x % 2 ^ 32 < 2 ^ 31 then (x % 2 ^ 32 : Nat) else ((x % 2 ^ 32 : Nat) : Int) - 2 ^ 32
  let a := (s.ea r f).toNat
  a / 2 ^ 48 = base / 2 ^ 48 % 2 ^ 16 ∧ ((a % 2 ^ 48 : Nat) : Int) = ((base % 2 ^ 48 : Nat) + sext (s.op32 r f.c.toNat) + dispOf f.b) % 2 ^ 48 ∧
  (f.c.toNat = 0xF0 → s.op32 r f.c.toNat = 0) ∧ (∀ n, f.b = .num n → dispOf f.b = 0) ∧
  ∀ ren k len c, s.ctx? r.G.ctx = some c → (s.buf c (a / 2 ^ 48)).size < a % 2 ^ 48 + len →
    s.port_ r.G.ctx ren k (s.ea r f) len = .refused 0x10 0

/-- R250, R254, R436 and log 15: the device right after reset: no context, group, item, job or queue, no thread to issue, memory with nothing
listed, every register of BAR 0 at its reset value, and every line's timestamps at 0, which is the model's choice. -/
def Obligations.ResetState : Prop :=
  let s := State.reset
  Memory.wf s.mem = true ∧ (∀ a, memByte s.mem a = 0) ∧ s.ctxs = [] ∧ s.groups = [] ∧ s.items = [] ∧ s.jobs = [] ∧ s.queues = [] ∧ s.accesses = [] ∧
  s.issue = none ∧ (∀ g k, s.thread? g k = none) ∧ s.bar0 0x00 / 65536 = 0x8200 ∧ s.bar0 0x20 = 3600 ∧
  (∀ off ∈ [0x08, 0x10, 0x18, 0x30, 0x38, 0x40, 0x48, 0x50, 0x80, 0x88, 0x90, 0x98, 0xA0], s.bar0 off = 0) ∧ (∀ n, 1 ≤ n → n ≤ 15 → s.bar0 (0x100 + 8 * n) = 0) ∧
  s.edge.trained = [] ∧ ∀ line, Map.getD s.port.ts {} line = { wts := 0, rts := 0, lease := 64 }

/-- Every step, of an instruction or of the device itself, from any state whose memory is in canonical form leaves it in canonical form
(the form is the model's: log 2). -/
def Obligations.StepsKeepMemoryCanonical : Prop := ∀ s t : State, Memory.wf s.mem = true → Sys2Proof.Machine.step s = .next t → Memory.wf t.mem = true
end

