-- ==== Sys2Proof/Laws/Map.lean ====
section
/-! SUPPORT. Sparse tables and memory: what a write leaves behind, and that every write keeps the canonical form. -/

namespace Sys2Proof.Map

variable {α : Type}

@[simp] theorem get?_set_self (m : Sparse α) (k : Nat) (v : α) : get? (set m k v) k = some v := by
  induction m with
  | nil => simp [set, get?]
  | cons e m ih =>
    obtain ⟨a, w⟩ := e
    simp only [set]
    split
    · simp [get?]
    · split
      · simp [get?]
      · simp_all [get?]
theorem get?_set_of_ne (m : Sparse α) {k j : Nat} (v : α) (h : j ≠ k) : get? (set m k v) j = get? m j := by
  induction m with
  | nil => simp [set, get?, h]
  | cons e m ih =>
    obtain ⟨a, w⟩ := e
    simp only [set]
    split
    · simp [get?, h]
    · split
      · subst_vars; simp [get?, h]
      · simp [get?, ih]
theorem get?_set (m : Sparse α) (k j : Nat) (v : α) : get? (set m k v) j = if j = k then some v else get? m j := by
  split
  · subst_vars; simp
  · rename_i h; exact get?_set_of_ne m v h
theorem get?_modify (m : Sparse α) (k j : Nat) (f : α → α) :
    get? (modify m k f) j = if j = k then (get? m k).map f else get? m j := by
  induction m with
  | nil => simp [modify, get?]
  | cons e m ih =>
    obtain ⟨a, w⟩ := e
    simp only [modify]
    by_cases hk : k = a
    · subst hk; by_cases hj : j = k <;> simp [get?, hj]
    · by_cases hj : j = k
      · subst hj; simp [get?, hk, ih]
      · simp [get?, hk, ih, hj]
theorem modify_map {β : Type} (m : Sparse α) (k : Nat) (f : α → α) (h : α → β) (hh : ∀ x, h (f x) = h x) :
    (modify m k f).map (fun e => (e.1, h e.2)) = m.map fun e => (e.1, h e.2) := by
  induction m with
  | nil => rfl
  | cons e m ih =>
    obtain ⟨a, w⟩ := e
    simp only [modify]
    split
    · simp [hh]
    · simp [ih]

theorem get?_none_of_rising (m : Sparse α) (lo k : Nat) (h : risingFrom (some lo) m = true) (hk : k ≤ lo) : get? m k = none := by
  induction m generalizing lo with
  | nil => rfl
  | cons e m ih =>
    obtain ⟨a, w⟩ := e
    simp only [risingFrom, Bool.and_eq_true, decide_eq_true_eq] at h
    simp only [get?, if_neg (show ¬ k = a by omega)]
    exact ih a h.2 (by omega)
theorem risingFrom_weaken (m : Sparse α) (lo : Option Nat) (b : Nat) (h : risingFrom (some b) m = true)
    (hlo : ∀ x, lo = some x → x ≤ b) : risingFrom lo m = true := by
  cases m with
  | nil => rfl
  | cons e m =>
    obtain ⟨a, w⟩ := e
    cases lo with
    | none => simp_all [risingFrom]
    | some x => have := hlo x rfl; simp [risingFrom] at h ⊢; exact ⟨by omega, h.2⟩
theorem risingFrom_set (m : Sparse α) (lo : Option Nat) (k : Nat) (v : α) (h : risingFrom lo m = true)
    (hk : ∀ x, lo = some x → x < k) : risingFrom lo (set m k v) = true := by
  induction m generalizing lo with
  | nil => cases lo <;> simp_all [set, risingFrom]
  | cons e m ih =>
    obtain ⟨a, w⟩ := e
    simp only [risingFrom, Bool.and_eq_true] at h
    simp only [set]
    split
    · simp only [risingFrom, Bool.and_eq_true, decide_eq_true_eq]
      exact ⟨by cases lo <;> simp_all, by assumption, h.2⟩
    · split
      · subst_vars; simp only [risingFrom, Bool.and_eq_true]; exact ⟨by cases lo <;> simp_all, h.2⟩
      · simp only [risingFrom, Bool.and_eq_true]
        refine ⟨h.1, ih (some a) h.2 ?_⟩
        intro x hx; injection hx; omega
theorem risingFrom_erase (m : Sparse α) (lo : Option Nat) (k : Nat) (h : risingFrom lo m = true) :
    risingFrom lo (erase m k) = true := by
  induction m generalizing lo with
  | nil => rfl
  | cons e m ih =>
    obtain ⟨a, w⟩ := e
    simp only [risingFrom, Bool.and_eq_true] at h
    simp only [erase]
    split
    · refine risingFrom_weaken m lo a h.2 ?_
      intro x hx; subst hx; have := h.1; simp at this; omega
    · simp only [risingFrom, Bool.and_eq_true]; exact ⟨h.1, ih (some a) h.2⟩
theorem get?_erase_self (m : Sparse α) (lo : Option Nat) (k : Nat) (h : risingFrom lo m = true) : get? (erase m k) k = none := by
  induction m generalizing lo with
  | nil => rfl
  | cons e m ih =>
    obtain ⟨a, w⟩ := e
    simp only [risingFrom, Bool.and_eq_true] at h
    simp only [erase]
    split
    · subst_vars; exact get?_none_of_rising m a a h.2 (Nat.le_refl a)
    · rename_i hne; simp [get?, hne]; exact ih (some a) h.2
theorem get?_erase_of_ne (m : Sparse α) {k j : Nat} (h : j ≠ k) : get? (erase m k) j = get? m j := by
  induction m with
  | nil => rfl
  | cons e m ih =>
    obtain ⟨a, w⟩ := e
    simp only [erase]
    split
    · subst_vars; simp [get?, h]
    · simp [get?, ih]
theorem mem_set (m : Sparse α) (k : Nat) (v : α) (e : Nat × α) (h : e ∈ set m k v) : e = (k, v) ∨ e ∈ m := by
  induction m with
  | nil => simp_all [set]
  | cons x m ih =>
    obtain ⟨a, w⟩ := x
    simp only [set] at h
    split at h
    · simp_all
    · split at h
      · simp at h; rcases h with h | h <;> simp [h]
      · simp at h; rcases h with h | h
        · simp [h]
        · rcases ih h with h | h <;> simp [h]
theorem mem_erase (m : Sparse α) (k : Nat) (e : Nat × α) (h : e ∈ erase m k) : e ∈ m := by
  induction m with
  | nil => simp_all [erase]
  | cons x m ih =>
    obtain ⟨a, w⟩ := x
    simp only [erase] at h
    split at h
    · simp [h]
    · simp at h; rcases h with h | h
      · simp [h]
      · simp [ih h]

variable [DecidableEq α]

theorem canon_put (d : α) (m : Sparse α) (k : Nat) (v : α) (h : canon d m = true) : canon d (put d m k v) = true := by
  simp only [canon, Bool.and_eq_true, List.all_eq_true, decide_eq_true_eq] at h ⊢
  unfold put
  split
  · exact ⟨risingFrom_erase m none k h.1, fun e he => h.2 e (mem_erase m k e he)⟩
  · rename_i hv
    refine ⟨risingFrom_set m none k v h.1 (by simp), fun e he => ?_⟩
    rcases mem_set m k v e he with rfl | he
    · exact hv
    · exact h.2 e he
/-- A write to a table in canonical form: what it reads as afterwards. -/
theorem getD_put (d : α) (m : Sparse α) (k j : Nat) (v : α) (h : canon d m = true) :
    getD (put d m k v) d j = if j = k then v else getD m d j := by
  simp only [canon, Bool.and_eq_true] at h
  unfold put getD
  by_cases hj : j = k
  · subst hj
    split
    · rename_i hv; rw [get?_erase_self m none j h.1]; simp [hv]
    · simp
  · split
    · simp [get?_erase_of_ne m hj]
    · simp [get?_set_of_ne m v hj]

end Sys2Proof.Map

namespace Sys2Proof.Machine

theorem wf_nil : Memory.wf [] = true := rfl
theorem wf_memPut (m : List Host.Cell) (a : Nat) (b : Byte) (h : Memory.wf m = true) : Memory.wf (memPut m a b) = true :=
  Map.canon_put 0 m a b h
/-- A byte written is the byte read; every other byte reads as before. -/
theorem memByte_memPut (m : List Host.Cell) (a j : Nat) (b : Byte) (h : Memory.wf m = true) :
    memByte (memPut m a b) j = if j = a then b else memByte m j := Map.getD_put (0 : Byte) m a j b h
theorem wf_memWrite (bs : List Byte) : ∀ (m : List Host.Cell) (a : Nat), Memory.wf m = true → Memory.wf (memWrite m a bs) = true := by
  induction bs with
  | nil => intro m a h; exact h
  | cons b bs ih => intro m a h; exact ih _ _ (wf_memPut m a b h)
theorem wf_memScatter (cells : List (Nat × Byte)) : ∀ m : List Host.Cell, Memory.wf m = true → Memory.wf (memScatter m cells) = true := by
  induction cells with
  | nil => intro m h; exact h
  | cons c cs ih => intro m h; obtain ⟨a, b⟩ := c; exact ih _ (wf_memPut m a b h)
theorem memByte_memWrite_outside (bs : List Byte) : ∀ (m : List Host.Cell) (a j : Nat), Memory.wf m = true →
    (j < a ∨ a + bs.length ≤ j) → memByte (memWrite m a bs) j = memByte m j := by
  induction bs with
  | nil => intro m a j _ _; rfl
  | cons b bs ih =>
    intro m a j h hj
    simp only [List.length_cons] at hj
    simp only [memWrite]
    rw [ih _ _ _ (wf_memPut m a b h) (by omega), memByte_memPut _ _ _ _ h, if_neg (by omega)]
theorem memByte_memWrite_inside (bs : List Byte) : ∀ (m : List Host.Cell) (a k : Nat) (hk : k < bs.length), Memory.wf m = true →
    memByte (memWrite m a bs) (a + k) = bs[k] := by
  induction bs with
  | nil => intro m a k hk; simp at hk
  | cons b bs ih =>
    intro m a k hk h
    simp only [memWrite]
    cases k with
    | zero =>
      rw [memByte_memWrite_outside _ _ _ _ (wf_memPut m a b h) (by omega), memByte_memPut _ _ _ _ h]; simp
    | succ k =>
      have := ih (memPut m a b) (a + 1) k (by simpa using hk) (wf_memPut m a b h)
      simpa [Nat.add_assoc, Nat.add_comm 1 k] using this
theorem memByte_memScatter_outside (cells : List (Nat × Byte)) : ∀ (m : List Host.Cell) (j : Nat), Memory.wf m = true →
    (∀ c ∈ cells, c.1 ≠ j) → memByte (memScatter m cells) j = memByte m j := by
  induction cells with
  | nil => intro m j _ _; rfl
  | cons c cs ih =>
    intro m j h hj
    obtain ⟨a, b⟩ := c
    simp only [memScatter]
    rw [ih _ _ (wf_memPut m a b h) (fun c hc => hj c (by simp [hc])), memByte_memPut _ _ _ _ h]
    have := hj (a, b) (by simp)
    simp at this
    rw [if_neg (by omega)]

end Sys2Proof.Machine
end

