-- ==== Sys2Proof/Laws/State.lean ====
section
/-! SUPPORT. What each update of the state leaves in each field: one lemma a field. -/

namespace Sys2Proof.Machine

/-! ## `modG` -/

@[simp] theorem State.modG_clock (s : State) (g : Nat) (f : Group → Group) : (s.modG g f).clock = s.clock := rfl
@[simp] theorem State.modG_time13 (s : State) (g : Nat) (f : Group → Group) : (s.modG g f).time13 = s.time13 := rfl
@[simp] theorem State.modG_mem (s : State) (g : Nat) (f : Group → Group) : (s.modG g f).mem = s.mem := rfl
@[simp] theorem State.modG_port (s : State) (g : Nat) (f : Group → Group) : (s.modG g f).port = s.port := rfl
@[simp] theorem State.modG_ctxs (s : State) (g : Nat) (f : Group → Group) : (s.modG g f).ctxs = s.ctxs := rfl
@[simp] theorem State.modG_groups (s : State) (g : Nat) (f : Group → Group) : (s.modG g f).groups = Map.modify s.groups g f := rfl
@[simp] theorem State.modG_cores (s : State) (g : Nat) (f : Group → Group) : (s.modG g f).cores = s.cores := rfl
@[simp] theorem State.modG_accesses (s : State) (g : Nat) (f : Group → Group) : (s.modG g f).accesses = s.accesses := rfl
@[simp] theorem State.modG_jobs (s : State) (g : Nat) (f : Group → Group) : (s.modG g f).jobs = s.jobs := rfl
@[simp] theorem State.modG_items (s : State) (g : Nat) (f : Group → Group) : (s.modG g f).items = s.items := rfl
@[simp] theorem State.modG_hwq (s : State) (g : Nat) (f : Group → Group) : (s.modG g f).hwq = s.hwq := rfl
@[simp] theorem State.modG_queues (s : State) (g : Nat) (f : Group → Group) : (s.modG g f).queues = s.queues := rfl
@[simp] theorem State.modG_leaves (s : State) (g : Nat) (f : Group → Group) : (s.modG g f).leaves = s.leaves := rfl
@[simp] theorem State.modG_charges (s : State) (g : Nat) (f : Group → Group) : (s.modG g f).charges = s.charges := rfl
@[simp] theorem State.modG_edge (s : State) (g : Nat) (f : Group → Group) : (s.modG g f).edge = s.edge := rfl
@[simp] theorem State.modG_pageReturns (s : State) (g : Nat) (f : Group → Group) : (s.modG g f).pageReturns = s.pageReturns := rfl
@[simp] theorem State.modG_next (s : State) (g : Nat) (f : Group → Group) : (s.modG g f).next = s.next := rfl
@[simp] theorem State.modG_free (s : State) (g : Nat) (f : Group → Group) : (s.modG g f).free = s.free := rfl
@[simp] theorem State.modG_agenda (s : State) (g : Nat) (f : Group → Group) : (s.modG g f).agenda = s.agenda := rfl
@[simp] theorem State.modG_issue (s : State) (g : Nat) (f : Group → Group) : (s.modG g f).issue = s.issue := rfl
@[simp] theorem State.modG_absent (s : State) (g : Nat) (f : Group → Group) : (s.modG g f).absent = s.absent := rfl

/-! ## `modT` -/

@[simp] theorem State.modT_clock (s : State) (g t : Nat) (f : Thread → Thread) : (s.modT g t f).clock = s.clock := rfl
@[simp] theorem State.modT_time13 (s : State) (g t : Nat) (f : Thread → Thread) : (s.modT g t f).time13 = s.time13 := rfl
@[simp] theorem State.modT_mem (s : State) (g t : Nat) (f : Thread → Thread) : (s.modT g t f).mem = s.mem := rfl
@[simp] theorem State.modT_port (s : State) (g t : Nat) (f : Thread → Thread) : (s.modT g t f).port = s.port := rfl
@[simp] theorem State.modT_ctxs (s : State) (g t : Nat) (f : Thread → Thread) : (s.modT g t f).ctxs = s.ctxs := rfl
@[simp] theorem State.modT_groups (s : State) (g t : Nat) (f : Thread → Thread) : (s.modT g t f).groups = Map.modify s.groups g (·.modT t f) := rfl
@[simp] theorem State.modT_cores (s : State) (g t : Nat) (f : Thread → Thread) : (s.modT g t f).cores = s.cores := rfl
@[simp] theorem State.modT_accesses (s : State) (g t : Nat) (f : Thread → Thread) : (s.modT g t f).accesses = s.accesses := rfl
@[simp] theorem State.modT_jobs (s : State) (g t : Nat) (f : Thread → Thread) : (s.modT g t f).jobs = s.jobs := rfl
@[simp] theorem State.modT_items (s : State) (g t : Nat) (f : Thread → Thread) : (s.modT g t f).items = s.items := rfl
@[simp] theorem State.modT_hwq (s : State) (g t : Nat) (f : Thread → Thread) : (s.modT g t f).hwq = s.hwq := rfl
@[simp] theorem State.modT_queues (s : State) (g t : Nat) (f : Thread → Thread) : (s.modT g t f).queues = s.queues := rfl
@[simp] theorem State.modT_leaves (s : State) (g t : Nat) (f : Thread → Thread) : (s.modT g t f).leaves = s.leaves := rfl
@[simp] theorem State.modT_charges (s : State) (g t : Nat) (f : Thread → Thread) : (s.modT g t f).charges = s.charges := rfl
@[simp] theorem State.modT_edge (s : State) (g t : Nat) (f : Thread → Thread) : (s.modT g t f).edge = s.edge := rfl
@[simp] theorem State.modT_pageReturns (s : State) (g t : Nat) (f : Thread → Thread) : (s.modT g t f).pageReturns = s.pageReturns := rfl
@[simp] theorem State.modT_next (s : State) (g t : Nat) (f : Thread → Thread) : (s.modT g t f).next = s.next := rfl
@[simp] theorem State.modT_free (s : State) (g t : Nat) (f : Thread → Thread) : (s.modT g t f).free = s.free := rfl
@[simp] theorem State.modT_agenda (s : State) (g t : Nat) (f : Thread → Thread) : (s.modT g t f).agenda = s.agenda := rfl
@[simp] theorem State.modT_issue (s : State) (g t : Nat) (f : Thread → Thread) : (s.modT g t f).issue = s.issue := rfl
@[simp] theorem State.modT_absent (s : State) (g t : Nat) (f : Thread → Thread) : (s.modT g t f).absent = s.absent := rfl

/-! ## `modThreads` -/

@[simp] theorem State.modThreads_clock (s : State) (f : Thread → Thread) : (s.modThreads f).clock = s.clock := rfl
@[simp] theorem State.modThreads_time13 (s : State) (f : Thread → Thread) : (s.modThreads f).time13 = s.time13 := rfl
@[simp] theorem State.modThreads_mem (s : State) (f : Thread → Thread) : (s.modThreads f).mem = s.mem := rfl
@[simp] theorem State.modThreads_port (s : State) (f : Thread → Thread) : (s.modThreads f).port = s.port := rfl
@[simp] theorem State.modThreads_ctxs (s : State) (f : Thread → Thread) : (s.modThreads f).ctxs = s.ctxs := rfl
@[simp] theorem State.modThreads_cores (s : State) (f : Thread → Thread) : (s.modThreads f).cores = s.cores := rfl
@[simp] theorem State.modThreads_accesses (s : State) (f : Thread → Thread) : (s.modThreads f).accesses = s.accesses := rfl
@[simp] theorem State.modThreads_jobs (s : State) (f : Thread → Thread) : (s.modThreads f).jobs = s.jobs := rfl
@[simp] theorem State.modThreads_items (s : State) (f : Thread → Thread) : (s.modThreads f).items = s.items := rfl
@[simp] theorem State.modThreads_hwq (s : State) (f : Thread → Thread) : (s.modThreads f).hwq = s.hwq := rfl
@[simp] theorem State.modThreads_queues (s : State) (f : Thread → Thread) : (s.modThreads f).queues = s.queues := rfl
@[simp] theorem State.modThreads_leaves (s : State) (f : Thread → Thread) : (s.modThreads f).leaves = s.leaves := rfl
@[simp] theorem State.modThreads_charges (s : State) (f : Thread → Thread) : (s.modThreads f).charges = s.charges := rfl
@[simp] theorem State.modThreads_edge (s : State) (f : Thread → Thread) : (s.modThreads f).edge = s.edge := rfl
@[simp] theorem State.modThreads_pageReturns (s : State) (f : Thread → Thread) : (s.modThreads f).pageReturns = s.pageReturns := rfl
@[simp] theorem State.modThreads_next (s : State) (f : Thread → Thread) : (s.modThreads f).next = s.next := rfl
@[simp] theorem State.modThreads_free (s : State) (f : Thread → Thread) : (s.modThreads f).free = s.free := rfl
@[simp] theorem State.modThreads_agenda (s : State) (f : Thread → Thread) : (s.modThreads f).agenda = s.agenda := rfl
@[simp] theorem State.modThreads_issue (s : State) (f : Thread → Thread) : (s.modThreads f).issue = s.issue := rfl
@[simp] theorem State.modThreads_absent (s : State) (f : Thread → Thread) : (s.modThreads f).absent = s.absent := rfl

/-! ## `modCore` -/

@[simp] theorem State.modCore_clock (s : State) (c : Nat) (f : Core → Core) : (s.modCore c f).clock = s.clock := rfl
@[simp] theorem State.modCore_time13 (s : State) (c : Nat) (f : Core → Core) : (s.modCore c f).time13 = s.time13 := rfl
@[simp] theorem State.modCore_mem (s : State) (c : Nat) (f : Core → Core) : (s.modCore c f).mem = s.mem := rfl
@[simp] theorem State.modCore_port (s : State) (c : Nat) (f : Core → Core) : (s.modCore c f).port = s.port := rfl
@[simp] theorem State.modCore_ctxs (s : State) (c : Nat) (f : Core → Core) : (s.modCore c f).ctxs = s.ctxs := rfl
@[simp] theorem State.modCore_groups (s : State) (c : Nat) (f : Core → Core) : (s.modCore c f).groups = s.groups := rfl
@[simp] theorem State.modCore_cores (s : State) (c : Nat) (f : Core → Core) : (s.modCore c f).cores = Map.put {} s.cores c (f (s.core c)) := rfl
@[simp] theorem State.modCore_accesses (s : State) (c : Nat) (f : Core → Core) : (s.modCore c f).accesses = s.accesses := rfl
@[simp] theorem State.modCore_jobs (s : State) (c : Nat) (f : Core → Core) : (s.modCore c f).jobs = s.jobs := rfl
@[simp] theorem State.modCore_items (s : State) (c : Nat) (f : Core → Core) : (s.modCore c f).items = s.items := rfl
@[simp] theorem State.modCore_hwq (s : State) (c : Nat) (f : Core → Core) : (s.modCore c f).hwq = s.hwq := rfl
@[simp] theorem State.modCore_queues (s : State) (c : Nat) (f : Core → Core) : (s.modCore c f).queues = s.queues := rfl
@[simp] theorem State.modCore_leaves (s : State) (c : Nat) (f : Core → Core) : (s.modCore c f).leaves = s.leaves := rfl
@[simp] theorem State.modCore_charges (s : State) (c : Nat) (f : Core → Core) : (s.modCore c f).charges = s.charges := rfl
@[simp] theorem State.modCore_edge (s : State) (c : Nat) (f : Core → Core) : (s.modCore c f).edge = s.edge := rfl
@[simp] theorem State.modCore_pageReturns (s : State) (c : Nat) (f : Core → Core) : (s.modCore c f).pageReturns = s.pageReturns := rfl
@[simp] theorem State.modCore_next (s : State) (c : Nat) (f : Core → Core) : (s.modCore c f).next = s.next := rfl
@[simp] theorem State.modCore_free (s : State) (c : Nat) (f : Core → Core) : (s.modCore c f).free = s.free := rfl
@[simp] theorem State.modCore_agenda (s : State) (c : Nat) (f : Core → Core) : (s.modCore c f).agenda = s.agenda := rfl
@[simp] theorem State.modCore_issue (s : State) (c : Nat) (f : Core → Core) : (s.modCore c f).issue = s.issue := rfl
@[simp] theorem State.modCore_absent (s : State) (c : Nat) (f : Core → Core) : (s.modCore c f).absent = s.absent := rfl

/-! ## `modCtx` -/

@[simp] theorem State.modCtx_clock (s : State) (c : Nat) (f : Ctx → Ctx) : (s.modCtx c f).clock = s.clock := rfl
@[simp] theorem State.modCtx_time13 (s : State) (c : Nat) (f : Ctx → Ctx) : (s.modCtx c f).time13 = s.time13 := rfl
@[simp] theorem State.modCtx_mem (s : State) (c : Nat) (f : Ctx → Ctx) : (s.modCtx c f).mem = s.mem := rfl
@[simp] theorem State.modCtx_port (s : State) (c : Nat) (f : Ctx → Ctx) : (s.modCtx c f).port = s.port := rfl
@[simp] theorem State.modCtx_ctxs (s : State) (c : Nat) (f : Ctx → Ctx) : (s.modCtx c f).ctxs = Map.modify s.ctxs c f := rfl
@[simp] theorem State.modCtx_groups (s : State) (c : Nat) (f : Ctx → Ctx) : (s.modCtx c f).groups = s.groups := rfl
@[simp] theorem State.modCtx_cores (s : State) (c : Nat) (f : Ctx → Ctx) : (s.modCtx c f).cores = s.cores := rfl
@[simp] theorem State.modCtx_accesses (s : State) (c : Nat) (f : Ctx → Ctx) : (s.modCtx c f).accesses = s.accesses := rfl
@[simp] theorem State.modCtx_jobs (s : State) (c : Nat) (f : Ctx → Ctx) : (s.modCtx c f).jobs = s.jobs := rfl
@[simp] theorem State.modCtx_items (s : State) (c : Nat) (f : Ctx → Ctx) : (s.modCtx c f).items = s.items := rfl
@[simp] theorem State.modCtx_hwq (s : State) (c : Nat) (f : Ctx → Ctx) : (s.modCtx c f).hwq = s.hwq := rfl
@[simp] theorem State.modCtx_queues (s : State) (c : Nat) (f : Ctx → Ctx) : (s.modCtx c f).queues = s.queues := rfl
@[simp] theorem State.modCtx_leaves (s : State) (c : Nat) (f : Ctx → Ctx) : (s.modCtx c f).leaves = s.leaves := rfl
@[simp] theorem State.modCtx_charges (s : State) (c : Nat) (f : Ctx → Ctx) : (s.modCtx c f).charges = s.charges := rfl
@[simp] theorem State.modCtx_edge (s : State) (c : Nat) (f : Ctx → Ctx) : (s.modCtx c f).edge = s.edge := rfl
@[simp] theorem State.modCtx_pageReturns (s : State) (c : Nat) (f : Ctx → Ctx) : (s.modCtx c f).pageReturns = s.pageReturns := rfl
@[simp] theorem State.modCtx_next (s : State) (c : Nat) (f : Ctx → Ctx) : (s.modCtx c f).next = s.next := rfl
@[simp] theorem State.modCtx_free (s : State) (c : Nat) (f : Ctx → Ctx) : (s.modCtx c f).free = s.free := rfl
@[simp] theorem State.modCtx_agenda (s : State) (c : Nat) (f : Ctx → Ctx) : (s.modCtx c f).agenda = s.agenda := rfl
@[simp] theorem State.modCtx_issue (s : State) (c : Nat) (f : Ctx → Ctx) : (s.modCtx c f).issue = s.issue := rfl
@[simp] theorem State.modCtx_absent (s : State) (c : Nat) (f : Ctx → Ctx) : (s.modCtx c f).absent = s.absent := rfl

/-! ## `modPort` -/

@[simp] theorem State.modPort_clock (s : State) (f : Port → Port) : (s.modPort f).clock = s.clock := rfl
@[simp] theorem State.modPort_time13 (s : State) (f : Port → Port) : (s.modPort f).time13 = s.time13 := rfl
@[simp] theorem State.modPort_mem (s : State) (f : Port → Port) : (s.modPort f).mem = s.mem := rfl
@[simp] theorem State.modPort_port (s : State) (f : Port → Port) : (s.modPort f).port = f s.port := rfl
@[simp] theorem State.modPort_ctxs (s : State) (f : Port → Port) : (s.modPort f).ctxs = s.ctxs := rfl
@[simp] theorem State.modPort_groups (s : State) (f : Port → Port) : (s.modPort f).groups = s.groups := rfl
@[simp] theorem State.modPort_cores (s : State) (f : Port → Port) : (s.modPort f).cores = s.cores := rfl
@[simp] theorem State.modPort_accesses (s : State) (f : Port → Port) : (s.modPort f).accesses = s.accesses := rfl
@[simp] theorem State.modPort_jobs (s : State) (f : Port → Port) : (s.modPort f).jobs = s.jobs := rfl
@[simp] theorem State.modPort_items (s : State) (f : Port → Port) : (s.modPort f).items = s.items := rfl
@[simp] theorem State.modPort_hwq (s : State) (f : Port → Port) : (s.modPort f).hwq = s.hwq := rfl
@[simp] theorem State.modPort_queues (s : State) (f : Port → Port) : (s.modPort f).queues = s.queues := rfl
@[simp] theorem State.modPort_leaves (s : State) (f : Port → Port) : (s.modPort f).leaves = s.leaves := rfl
@[simp] theorem State.modPort_charges (s : State) (f : Port → Port) : (s.modPort f).charges = s.charges := rfl
@[simp] theorem State.modPort_edge (s : State) (f : Port → Port) : (s.modPort f).edge = s.edge := rfl
@[simp] theorem State.modPort_pageReturns (s : State) (f : Port → Port) : (s.modPort f).pageReturns = s.pageReturns := rfl
@[simp] theorem State.modPort_next (s : State) (f : Port → Port) : (s.modPort f).next = s.next := rfl
@[simp] theorem State.modPort_free (s : State) (f : Port → Port) : (s.modPort f).free = s.free := rfl
@[simp] theorem State.modPort_agenda (s : State) (f : Port → Port) : (s.modPort f).agenda = s.agenda := rfl
@[simp] theorem State.modPort_issue (s : State) (f : Port → Port) : (s.modPort f).issue = s.issue := rfl
@[simp] theorem State.modPort_absent (s : State) (f : Port → Port) : (s.modPort f).absent = s.absent := rfl

/-! ## `modEdge` -/

@[simp] theorem State.modEdge_clock (s : State) (f : Edge → Edge) : (s.modEdge f).clock = s.clock := rfl
@[simp] theorem State.modEdge_time13 (s : State) (f : Edge → Edge) : (s.modEdge f).time13 = s.time13 := rfl
@[simp] theorem State.modEdge_mem (s : State) (f : Edge → Edge) : (s.modEdge f).mem = s.mem := rfl
@[simp] theorem State.modEdge_port (s : State) (f : Edge → Edge) : (s.modEdge f).port = s.port := rfl
@[simp] theorem State.modEdge_ctxs (s : State) (f : Edge → Edge) : (s.modEdge f).ctxs = s.ctxs := rfl
@[simp] theorem State.modEdge_groups (s : State) (f : Edge → Edge) : (s.modEdge f).groups = s.groups := rfl
@[simp] theorem State.modEdge_cores (s : State) (f : Edge → Edge) : (s.modEdge f).cores = s.cores := rfl
@[simp] theorem State.modEdge_accesses (s : State) (f : Edge → Edge) : (s.modEdge f).accesses = s.accesses := rfl
@[simp] theorem State.modEdge_jobs (s : State) (f : Edge → Edge) : (s.modEdge f).jobs = s.jobs := rfl
@[simp] theorem State.modEdge_items (s : State) (f : Edge → Edge) : (s.modEdge f).items = s.items := rfl
@[simp] theorem State.modEdge_hwq (s : State) (f : Edge → Edge) : (s.modEdge f).hwq = s.hwq := rfl
@[simp] theorem State.modEdge_queues (s : State) (f : Edge → Edge) : (s.modEdge f).queues = s.queues := rfl
@[simp] theorem State.modEdge_leaves (s : State) (f : Edge → Edge) : (s.modEdge f).leaves = s.leaves := rfl
@[simp] theorem State.modEdge_charges (s : State) (f : Edge → Edge) : (s.modEdge f).charges = s.charges := rfl
@[simp] theorem State.modEdge_edge (s : State) (f : Edge → Edge) : (s.modEdge f).edge = f s.edge := rfl
@[simp] theorem State.modEdge_pageReturns (s : State) (f : Edge → Edge) : (s.modEdge f).pageReturns = s.pageReturns := rfl
@[simp] theorem State.modEdge_next (s : State) (f : Edge → Edge) : (s.modEdge f).next = s.next := rfl
@[simp] theorem State.modEdge_free (s : State) (f : Edge → Edge) : (s.modEdge f).free = s.free := rfl
@[simp] theorem State.modEdge_agenda (s : State) (f : Edge → Edge) : (s.modEdge f).agenda = s.agenda := rfl
@[simp] theorem State.modEdge_issue (s : State) (f : Edge → Edge) : (s.modEdge f).issue = s.issue := rfl
@[simp] theorem State.modEdge_absent (s : State) (f : Edge → Edge) : (s.modEdge f).absent = s.absent := rfl

/-! ## `modItem` -/

@[simp] theorem State.modItem_clock (s : State) (i : Nat) (f : Item → Item) : (s.modItem i f).clock = s.clock := rfl
@[simp] theorem State.modItem_time13 (s : State) (i : Nat) (f : Item → Item) : (s.modItem i f).time13 = s.time13 := rfl
@[simp] theorem State.modItem_mem (s : State) (i : Nat) (f : Item → Item) : (s.modItem i f).mem = s.mem := rfl
@[simp] theorem State.modItem_port (s : State) (i : Nat) (f : Item → Item) : (s.modItem i f).port = s.port := rfl
@[simp] theorem State.modItem_ctxs (s : State) (i : Nat) (f : Item → Item) : (s.modItem i f).ctxs = s.ctxs := rfl
@[simp] theorem State.modItem_groups (s : State) (i : Nat) (f : Item → Item) : (s.modItem i f).groups = s.groups := rfl
@[simp] theorem State.modItem_cores (s : State) (i : Nat) (f : Item → Item) : (s.modItem i f).cores = s.cores := rfl
@[simp] theorem State.modItem_accesses (s : State) (i : Nat) (f : Item → Item) : (s.modItem i f).accesses = s.accesses := rfl
@[simp] theorem State.modItem_jobs (s : State) (i : Nat) (f : Item → Item) : (s.modItem i f).jobs = s.jobs := rfl
@[simp] theorem State.modItem_items (s : State) (i : Nat) (f : Item → Item) : (s.modItem i f).items = s.items.map fun x => if x.id = i then f x else x := rfl
@[simp] theorem State.modItem_hwq (s : State) (i : Nat) (f : Item → Item) : (s.modItem i f).hwq = s.hwq := rfl
@[simp] theorem State.modItem_queues (s : State) (i : Nat) (f : Item → Item) : (s.modItem i f).queues = s.queues := rfl
@[simp] theorem State.modItem_leaves (s : State) (i : Nat) (f : Item → Item) : (s.modItem i f).leaves = s.leaves := rfl
@[simp] theorem State.modItem_charges (s : State) (i : Nat) (f : Item → Item) : (s.modItem i f).charges = s.charges := rfl
@[simp] theorem State.modItem_edge (s : State) (i : Nat) (f : Item → Item) : (s.modItem i f).edge = s.edge := rfl
@[simp] theorem State.modItem_pageReturns (s : State) (i : Nat) (f : Item → Item) : (s.modItem i f).pageReturns = s.pageReturns := rfl
@[simp] theorem State.modItem_next (s : State) (i : Nat) (f : Item → Item) : (s.modItem i f).next = s.next := rfl
@[simp] theorem State.modItem_free (s : State) (i : Nat) (f : Item → Item) : (s.modItem i f).free = s.free := rfl
@[simp] theorem State.modItem_agenda (s : State) (i : Nat) (f : Item → Item) : (s.modItem i f).agenda = s.agenda := rfl
@[simp] theorem State.modItem_issue (s : State) (i : Nat) (f : Item → Item) : (s.modItem i f).issue = s.issue := rfl
@[simp] theorem State.modItem_absent (s : State) (i : Nat) (f : Item → Item) : (s.modItem i f).absent = s.absent := rfl

/-! ## `modJob` -/

@[simp] theorem State.modJob_clock (s : State) (i : Nat) (f : Job → Job) : (s.modJob i f).clock = s.clock := rfl
@[simp] theorem State.modJob_time13 (s : State) (i : Nat) (f : Job → Job) : (s.modJob i f).time13 = s.time13 := rfl
@[simp] theorem State.modJob_mem (s : State) (i : Nat) (f : Job → Job) : (s.modJob i f).mem = s.mem := rfl
@[simp] theorem State.modJob_port (s : State) (i : Nat) (f : Job → Job) : (s.modJob i f).port = s.port := rfl
@[simp] theorem State.modJob_ctxs (s : State) (i : Nat) (f : Job → Job) : (s.modJob i f).ctxs = s.ctxs := rfl
@[simp] theorem State.modJob_groups (s : State) (i : Nat) (f : Job → Job) : (s.modJob i f).groups = s.groups := rfl
@[simp] theorem State.modJob_cores (s : State) (i : Nat) (f : Job → Job) : (s.modJob i f).cores = s.cores := rfl
@[simp] theorem State.modJob_accesses (s : State) (i : Nat) (f : Job → Job) : (s.modJob i f).accesses = s.accesses := rfl
@[simp] theorem State.modJob_jobs (s : State) (i : Nat) (f : Job → Job) : (s.modJob i f).jobs = s.jobs.map fun x => if x.id = i then f x else x := rfl
@[simp] theorem State.modJob_items (s : State) (i : Nat) (f : Job → Job) : (s.modJob i f).items = s.items := rfl
@[simp] theorem State.modJob_hwq (s : State) (i : Nat) (f : Job → Job) : (s.modJob i f).hwq = s.hwq := rfl
@[simp] theorem State.modJob_queues (s : State) (i : Nat) (f : Job → Job) : (s.modJob i f).queues = s.queues := rfl
@[simp] theorem State.modJob_leaves (s : State) (i : Nat) (f : Job → Job) : (s.modJob i f).leaves = s.leaves := rfl
@[simp] theorem State.modJob_charges (s : State) (i : Nat) (f : Job → Job) : (s.modJob i f).charges = s.charges := rfl
@[simp] theorem State.modJob_edge (s : State) (i : Nat) (f : Job → Job) : (s.modJob i f).edge = s.edge := rfl
@[simp] theorem State.modJob_pageReturns (s : State) (i : Nat) (f : Job → Job) : (s.modJob i f).pageReturns = s.pageReturns := rfl
@[simp] theorem State.modJob_next (s : State) (i : Nat) (f : Job → Job) : (s.modJob i f).next = s.next := rfl
@[simp] theorem State.modJob_free (s : State) (i : Nat) (f : Job → Job) : (s.modJob i f).free = s.free := rfl
@[simp] theorem State.modJob_agenda (s : State) (i : Nat) (f : Job → Job) : (s.modJob i f).agenda = s.agenda := rfl
@[simp] theorem State.modJob_issue (s : State) (i : Nat) (f : Job → Job) : (s.modJob i f).issue = s.issue := rfl
@[simp] theorem State.modJob_absent (s : State) (i : Nat) (f : Job → Job) : (s.modJob i f).absent = s.absent := rfl

/-! ## `pass` -/

@[simp] theorem State.pass_clock (s : State) (dt : Nat) : (s.pass dt).clock = s.clock + dt := rfl
@[simp] theorem State.pass_time13 (s : State) (dt : Nat) : (s.pass dt).time13 = s.time13 + (if s.edge.therm < 2 then 10 else 20) * dt := rfl
@[simp] theorem State.pass_mem (s : State) (dt : Nat) : (s.pass dt).mem = s.mem := rfl
@[simp] theorem State.pass_port (s : State) (dt : Nat) : (s.pass dt).port = s.port := rfl
@[simp] theorem State.pass_ctxs (s : State) (dt : Nat) : (s.pass dt).ctxs = s.ctxs := rfl
@[simp] theorem State.pass_groups (s : State) (dt : Nat) : (s.pass dt).groups = s.groups := rfl
@[simp] theorem State.pass_cores (s : State) (dt : Nat) : (s.pass dt).cores = s.cores := rfl
@[simp] theorem State.pass_accesses (s : State) (dt : Nat) : (s.pass dt).accesses = s.accesses := rfl
@[simp] theorem State.pass_jobs (s : State) (dt : Nat) : (s.pass dt).jobs = s.jobs := rfl
@[simp] theorem State.pass_items (s : State) (dt : Nat) : (s.pass dt).items = s.items := rfl
@[simp] theorem State.pass_hwq (s : State) (dt : Nat) : (s.pass dt).hwq = s.hwq := rfl
@[simp] theorem State.pass_queues (s : State) (dt : Nat) : (s.pass dt).queues = s.queues := rfl
@[simp] theorem State.pass_leaves (s : State) (dt : Nat) : (s.pass dt).leaves = s.leaves := rfl
@[simp] theorem State.pass_charges (s : State) (dt : Nat) : (s.pass dt).charges = s.charges := rfl
@[simp] theorem State.pass_edge (s : State) (dt : Nat) : (s.pass dt).edge = s.edge := rfl
@[simp] theorem State.pass_pageReturns (s : State) (dt : Nat) : (s.pass dt).pageReturns = s.pageReturns := rfl
@[simp] theorem State.pass_next (s : State) (dt : Nat) : (s.pass dt).next = s.next := rfl
@[simp] theorem State.pass_free (s : State) (dt : Nat) : (s.pass dt).free = s.free := rfl
@[simp] theorem State.pass_agenda (s : State) (dt : Nat) : (s.pass dt).agenda = s.agenda := rfl
@[simp] theorem State.pass_issue (s : State) (dt : Nat) : (s.pass dt).issue = s.issue := rfl
@[simp] theorem State.pass_absent (s : State) (dt : Nat) : (s.pass dt).absent = s.absent := rfl

/-! ## Threads and groups -/

@[simp] theorem State.fresh_fst (s : State) : s.fresh.1 = s.next := rfl
@[simp] theorem State.fresh_snd (s : State) : s.fresh.2 = { s with next := s.next + 1 } := rfl
@[simp] theorem Group.modT_threads (G : Group) (t : Nat) (f : Thread → Thread) : (G.modT t f).threads = Map.modify G.threads t f := rfl

end Sys2Proof.Machine
end

