-- ==== Sys2Proof/Laws/Issue.lean ====
section
/-! SUPPORT. What one instruction over an issue group does, said once: the gates of an admitted issue group, the completion of
threads in turn, and the two shapes of meaning `issueEach` and `issueTurn`. -/

namespace Sys2Proof.Machine

/-! ## Groups and threads under updates -/

theorem State.group?_modG (s : State) (g g' : Nat) (f : Group → Group) :
    (s.modG g f).group? g' = if g' = g then (s.group? g).map f else s.group? g' := Map.get?_modify s.groups g g' f
theorem State.thread?_modT (s : State) (g t g' t' : Nat) (f : Thread → Thread) :
    (s.modT g t f).thread? g' t' = if g' = g ∧ t' = t then (s.thread? g t).map f else s.thread? g' t' := by
  unfold State.thread? State.modT
  rw [State.group?_modG]
  by_cases hg : g' = g
  · subst hg
    cases h : s.group? g' with
    | none => simp
    | some G => simp [Group.modT, Map.get?_modify]
  · simp [hg]

/-! ## The references of an issue group -/

theorem filterMap_keys (F : Nat × Nat → Option Ref) (hF : ∀ e r, F e = some r → (r.g, r.t) = e) (l : List (Nat × Nat))
    (h : (l.filterMap F).length = l.length) : (l.filterMap F).map (fun r => (r.g, r.t)) = l := by
  induction l with
  | nil => rfl
  | cons e l ih =>
    have hlen := List.length_filterMap_le F l
    cases hx : F e with
    | none => rw [List.filterMap_cons_none hx] at h; simp only [List.length_cons] at h; omega
    | some r =>
      rw [List.filterMap_cons_some hx] at h ⊢
      simp only [List.length_cons, Nat.add_right_cancel_iff] at h
      rw [List.map_cons, ih h, hF e r hx]
theorem refsOf_keys (s : State) (is : Issue) (h : (s.refsOf is).length = is.refs.length) :
    (s.refsOf is).map (fun r => (r.g, r.t)) = is.refs := by
  unfold State.refsOf at *
  refine filterMap_keys _ (fun e r he => ?_) _ h
  cases hG : s.group? e.1 with
  | none => simp [hG] at he
  | some G =>
    cases hT : Map.get? G.threads e.2 with
    | none => simp [hG, hT] at he
    | some T => simp [hG, hT] at he; subst he; rfl
theorem refsOf_mem (s : State) (is : Issue) (r : Ref) (h : r ∈ s.refsOf is) : s.group? r.g = some r.G ∧ s.thread? r.g r.t = some r.T := by
  unfold State.refsOf at h
  rw [List.mem_filterMap] at h
  obtain ⟨e, _, he⟩ := h
  cases hG : s.group? e.1 with
  | none => simp [hG] at he
  | some G =>
    cases hT : Map.get? G.threads e.2 with
    | none => simp [hG, hT] at he
    | some T => simp [hG, hT] at he; subst he; simp [State.thread?, hG, hT]
theorem Issued.keys {s : State} {is : Issue} {rs : List Ref} (h : Issued s is rs) : rs.map (fun r => (r.g, r.t)) = is.refs := by
  have hw := h.whole
  have hr := h.refs
  subst hr
  exact refsOf_keys s is hw
theorem Issued.nodup {s : State} {is : Issue} {rs : List Ref} (h : Issued s is rs) : (rs.map fun r => (r.g, r.t)).Nodup := by
  rw [h.keys]; exact h.once
theorem Issued.mem {s : State} {is : Issue} {rs : List Ref} (h : Issued s is rs) (r : Ref) (hr : r ∈ rs) :
    s.group? r.g = some r.G ∧ s.thread? r.g r.t = some r.T := refsOf_mem s is r (h.refs ▸ hr)

/-! ## The gates -/

theorem poisoned_of_nil (sh : Shape) (op : Nat) (f : Full) (T : Thread) (h : T.poison = []) : poisoned sh op f T = none := by
  simp [poisoned, h]
/-- In an admitted issue group the guard alone decides. -/
theorem gates_of_admits (op : Nat) (f : Full) (rs : List Ref) (hop : op ≠ 0x0A6) (h : Admits op f rs) :
    gates op f rs = rs.map fun r => (r, if r.T.guard f.g f.gn then Gate.go else Gate.skip) := by
  obtain ⟨sh, hsh, hr⟩ := h
  unfold gates
  simp only [hsh]
  cases rs with
  | nil => simp; split <;> simp_all
  | cons r0 rs =>
    have hb := (hr r0 (by simp)).1
    simp only [List.head?_cons, hb]
    have hfirst : ((r0 :: rs).map fun r =>
        if ¬ r.G.role.permits sh.cls then (r, Gate.trap 4 { cause := 0x06, arg := r.G.role.code + 256 * sh.cls.code })
        else if op ≠ 0x0A6 ∧ ¬ r.T.guard f.g f.gn then (r, Gate.skip)
        else (r, Gate.go)) = (r0 :: rs).map fun r => (r, if r.T.guard f.g f.gn then Gate.go else Gate.skip) := by
      apply List.map_congr_left
      intro r hmem
      have hp := (hr r hmem).2.1
      simp only [hp, not_true_eq_false, if_false]
      by_cases hg : r.T.guard f.g f.gn = true <;> simp [hg, hop]
    rw [hfirst]
    generalize hl : (r0 :: rs).map (fun r => (r, if r.T.guard f.g f.gn then Gate.go else Gate.skip)) = l
    have hpois : ∀ e ∈ l, poisoned sh op f e.1.T = none := by
      intro e he
      rw [← hl] at he
      obtain ⟨r, hmem, rfl⟩ := List.mem_map.1 he
      exact poisoned_of_nil _ _ _ _ (hr r hmem).2.2
    refine Eq.trans (List.map_congr_left (g := id) ?_) (List.map_id l)
    intro e he
    have hp := hpois e he
    rcases hx : e.2 with _ | _ | _
    · simp
    · simp
    · cases hf : l.find? fun e => e.2 == Gate.go with
      | none => simp [hp]
      | some x => simp [hpois x (List.mem_of_find?_eq_some hf), hp]

/-! ## Threads that move on -/

theorem Thread.setRegs_pc (T : Thread) (l : List (Nat × Nat)) :
    (T.setRegs l).pc = T.pc := by
  unfold Thread.setRegs
  induction l generalizing T with
  | nil => rfl
  | cons e l ih => simp only [List.foldl_cons]; rw [ih]; rfl
theorem Thread.setTags_pc (T : Thread) (l : List (Nat × Nat)) : (T.setTags l).pc = T.pc := by
  unfold Thread.setTags
  induction l generalizing T with
  | nil => rfl
  | cons e l ih => simp only [List.foldl_cons]; rw [ih]; rfl
theorem Thread.setPreds_pc (T : Thread) (l : List (Nat × Bool)) : (T.setPreds l).pc = T.pc := by
  unfold Thread.setPreds
  induction l generalizing T with
  | nil => rfl
  | cons e l ih => simp only [List.foldl_cons]; rw [ih]; unfold Thread.setP; split <;> rfl

theorem State.addAccs_eq (as : List NewAcc) : ∀ (s : State) (r : Ref) (order : Nat), s.addAccs r order as =
    ({ s with
        accesses := s.accesses ++ (((List.range as.length).zip as).map fun (e : Nat × NewAcc) =>
          ({ id := s.next + e.1, order := order, grp := r.g, tid := r.t, lane := r.T.lane, kind := e.2.kind, parts := e.2.parts,
             remote := e.2.remote } : Access)),
        next := s.next + as.length } : State) := by
  induction as with
  | nil => intro s r order; simp [State.addAccs]
  | cons a as ih =>
    intro s r order
    simp only [State.addAccs, ih, List.length_cons, List.range_succ_eq_map, List.zip_cons_cons, List.map_cons, List.append_assoc,
      List.singleton_append, Nat.add_zero, List.zip_map_left, List.map_map, Nat.add_assoc, Nat.add_comm 1]
    congr 3

theorem Thread.completed_eq (T : Thread) (now len : Nat) (res : TRes) : T.completed now len res = T.after now len (some res) := by
  simp only [Thread.completed, Thread.after]
  rw [Thread.setPreds_pc, Thread.setTags_pc, Thread.setRegs_pc]
  cases hp : res.pc <;> simp
theorem Group.completed_frame (G : Group) (t now len vol : Nat) (res : TRes) :
    ({ G.completed t now len vol res with threads := G.threads } : Group) = { G with
        fstat := G.fstat ||| (res.now.flags &&& 63),
        trace := G.trace.map fun (x : Trace) => { x with vcause := x.vcause ||| (res.vol ||| vol) } } := rfl
theorem State.complete_group? (s : State) (r : Ref) (len order vol : Nat) (res : TRes) (g : Nat) :
    (s.complete r len order vol res).group? g =
      if g = r.g then (s.group? r.g).map fun G => G.completed r.t s.clock len vol res else s.group? g := by
  unfold State.complete
  rw [State.addAccs_eq]
  exact State.group?_modG s r.g g _
/-- What the completion of one thread leaves. -/
theorem State.complete_thread? (s : State) (r : Ref) (len order vol : Nat) (res : TRes) (g t : Nat) :
    (s.complete r len order vol res).thread? g t =
      if g = r.g ∧ t = r.t then (s.thread? g t).map fun T => T.after s.clock len (some res) else s.thread? g t := by
  unfold State.thread?
  rw [State.complete_group?]
  by_cases hg : g = r.g
  · subst hg
    cases h : s.group? r.g with
    | none => simp
    | some G =>
      have : (G.completed r.t s.clock len vol res).threads = Map.modify G.threads r.t fun T => T.completed s.clock len res := rfl
      simp only [if_true, Option.map_some, Option.bind_some, this, Map.get?_modify, true_and]
      split
      · subst_vars
        cases hT : Map.get? G.threads r.t with
        | none => rfl
        | some T => simp [Thread.completed_eq]
      · rfl
  · simp [hg]
theorem State.complete_rest (s : State) (r : Ref) (len order vol : Nat) (res : TRes) :
    ({ s.complete r len order vol res with groups := s.groups, accesses := s.accesses, next := s.next } : State) = s := by
  unfold State.complete
  rw [State.addAccs_eq]
  rfl
theorem State.complete_accesses (s : State) (r : Ref) (len order vol : Nat) (res : TRes) :
    (s.complete r len order vol res).accesses = s.accesses ++ (((List.range res.accs.length).zip res.accs).map fun (e : Nat × NewAcc) =>
          ({ id := s.next + e.1, order := order, grp := r.g, tid := r.t, lane := r.T.lane, kind := e.2.kind, parts := e.2.parts,
             remote := e.2.remote } : Access)) ∧
    (s.complete r len order vol res).next = s.next + res.accs.length := by
  unfold State.complete
  rw [State.addAccs_eq]
  exact ⟨rfl, rfl⟩

/-- The part of `Advances` that speaks of a list of threads in the order in which they were taken. -/
structure Adv (s t : State) (len order vol : Nat) (ws : List (Ref × Option TRes)) : Prop where
  threads : ∀ w ∈ ws, t.thread? w.1.g w.1.t = (s.thread? w.1.g w.1.t).map fun T => T.after s.clock len w.2
  others : ∀ g k, (∀ w ∈ ws, ¬ (w.1.g = g ∧ w.1.t = k)) → t.thread? g k = s.thread? g k
  groups : ∀ g G, s.group? g = some G → ∃ G', t.group? g = some G' ∧
    ({ G' with threads := G.threads } : Group) = { G with
      fstat := ws.foldl (fun x w => if w.1.g = g then match w.2 with | some res => x ||| (res.now.flags &&& 63) | none => x else x) G.fstat,
      trace := ws.foldl (fun (x : Option Trace) w => if w.1.g = g then match w.2 with
        | some res => x.map fun (y : Trace) => { y with vcause := y.vcause ||| (res.vol ||| vol) } | none => x else x) G.trace }
  noMore : ∀ g, s.group? g = none → t.group? g = none
  accesses : t.accesses = s.accesses ++ ((List.range (ws.flatMap fun w => match w.2 with | some res => res.accs.map fun a => (w.1, a) | none => []).length).zip
      (ws.flatMap fun w => match w.2 with | some res => res.accs.map fun a => (w.1, a) | none => [])).map fun (e : Nat × Ref × NewAcc) =>
    ({ id := s.next + e.1, order := order, grp := e.2.1.g, tid := e.2.1.t, lane := e.2.1.T.lane, kind := e.2.2.kind, parts := e.2.2.parts,
       remote := e.2.2.remote } : Access)
  next : t.next = s.next + (ws.flatMap fun w => match w.2 with | some res => res.accs.map fun a => (w.1, a) | none => []).length
  rest : ({ t with groups := s.groups, accesses := s.accesses, next := s.next } : State) = s

theorem Adv.nil (s : State) (len order vol : Nat) : Adv s s len order vol [] :=
  ⟨by simp, by simp, fun g G h => ⟨G, h, rfl⟩, fun _ h => h, by simp, by simp, rfl⟩
theorem Adv.clock {s t : State} {len order vol : Nat} {ws : List (Ref × Option TRes)} (h : Adv s t len order vol ws) : t.clock = s.clock := by
  have := congrArg State.clock h.rest; exact this
theorem Adv.skip {s t : State} {len order vol : Nat} {ws : List (Ref × Option TRes)} (h : Adv s t len order vol ws) (r : Ref)
    (hr : ∀ w ∈ ws, ¬ (w.1.g = r.g ∧ w.1.t = r.t)) : Adv s (t.skipTo r.g r.t len) len order vol (ws ++ [(r, none)]) := by
  have hth := fun g k => State.thread?_modT t r.g r.t g k fun T => T.goTo (addOff T.pc len) t.clock
  refine ⟨?_, ?_, ?_, ?_, ?_, ?_, ?_⟩
  · intro w hw
    rw [State.skipTo, hth]
    rcases List.mem_append.1 hw with hw | hw
    · rw [if_neg (by have := hr w hw; tauto)]; exact h.threads w hw
    · simp only [List.mem_singleton] at hw; subst hw
      simp only [and_self, if_true]
      rw [h.others r.g r.t (fun w hw => hr w hw), h.clock]; rfl
  · intro g k hk
    rw [State.skipTo, hth, if_neg (by have := hk (r, none) (by simp); simp at this; tauto)]
    exact h.others g k fun w hw => hk w (by simp [hw])
  · intro g G hG
    obtain ⟨G', h1, h2⟩ := h.groups g G hG
    rw [State.skipTo, State.modT, State.group?_modG]
    by_cases hg : g = r.g
    · subst hg
      refine ⟨_, by rw [if_pos rfl, h1]; rfl, ?_⟩
      simp only [List.foldl_append, List.foldl_cons, List.foldl_nil, if_true]
      exact h2
    · refine ⟨G', by rw [if_neg hg, h1], ?_⟩
      simp only [List.foldl_append, List.foldl_cons, List.foldl_nil, if_neg (Ne.symm hg)]
      exact h2
  · intro g hg
    rw [State.skipTo, State.modT, State.group?_modG]
    by_cases hx : g = r.g
    · subst hx; simp [h.noMore _ hg]
    · simp [hx, h.noMore _ hg]
  · rw [State.skipTo, State.modT_accesses, h.accesses]; simp
  · rw [State.skipTo, State.modT_next, h.next]; simp
  · rw [← h.rest]; rfl
theorem Adv.complete {s t : State} {len order vol : Nat} {ws : List (Ref × Option TRes)} (h : Adv s t len order vol ws) (r : Ref) (res : TRes)
    (hr : ∀ w ∈ ws, ¬ (w.1.g = r.g ∧ w.1.t = r.t)) : Adv s (t.complete r len order vol res) len order vol (ws ++ [(r, some res)]) := by
  refine ⟨?_, ?_, ?_, ?_, ?_, ?_, ?_⟩
  · intro w hw
    rw [State.complete_thread?]
    rcases List.mem_append.1 hw with hw | hw
    · rw [if_neg (by have := hr w hw; tauto)]; exact h.threads w hw
    · simp only [List.mem_singleton] at hw; subst hw
      simp only [and_self, if_true]
      rw [h.others r.g r.t (fun w hw => hr w hw), h.clock]
  · intro g k hk
    rw [State.complete_thread?, if_neg (by have := hk (r, some res) (by simp); simp at this; tauto)]
    exact h.others g k fun w hw => hk w (by simp [hw])
  · intro g G hG
    obtain ⟨G', h1, h2⟩ := h.groups g G hG
    rw [State.complete_group?]
    by_cases hg : g = r.g
    · subst hg
      refine ⟨_, by rw [if_pos rfl, h1]; rfl, ?_⟩
      simp only [List.foldl_append, List.foldl_cons, List.foldl_nil, if_true]
      have e1 := congrArg Group.fstat h2
      have e2 := congrArg Group.trace h2
      simp only at e1 e2
      rw [← e1, ← e2]
      have e3 := congrArg (fun (x : Group) => ({ x with threads := G.threads } : Group)) (Group.completed_frame G' r.t t.clock len vol res)
      have e4 := congrArg (fun (x : Group) => ({ x with
        fstat := G'.fstat ||| (res.now.flags &&& 63),
        trace := G'.trace.map fun (x : Trace) => { x with vcause := x.vcause ||| (res.vol ||| vol) } } : Group)) h2
      exact e3.trans e4
    · refine ⟨G', by rw [if_neg hg, h1], ?_⟩
      simp only [List.foldl_append, List.foldl_cons, List.foldl_nil, if_neg (Ne.symm hg)]
      exact h2
  · intro g hg
    rw [State.complete_group?, h.noMore _ hg]
    by_cases hx : g = r.g
    · subst hx; simp [h.noMore _ hg]
    · simp [hx]
  · rw [(State.complete_accesses t r len order vol res).1, h.accesses, h.next]
    simp only [List.flatMap_append, List.flatMap_cons, List.flatMap_nil, List.append_nil, List.length_append, List.length_map]
    rw [List.range_add, List.zip_append (by simp)]
    simp only [List.map_append, List.append_assoc]
    congr 2
    rw [List.zip_map, List.map_map]
    apply List.map_congr_left
    intro e _
    simp [Nat.add_assoc]
  · rw [(State.complete_accesses t r len order vol res).2, h.next]; simp [Nat.add_assoc]
  · have := congrArg (fun (x : State) => ({ x with groups := s.groups, accesses := s.accesses, next := s.next } : State))
      (State.complete_rest t r len order vol res)
    exact this.trans h.rest

/-! ## The whole issue group -/

theorem skips_adv (s : State) (len order vol : Nat) (sk : List Ref) :
    ∀ (t : State) (ws : List (Ref × Option TRes)), Adv s t len order vol ws →
    (∀ r ∈ sk, ∀ w ∈ ws, ¬ (w.1.g = r.g ∧ w.1.t = r.t)) → (sk.map fun r => (r.g, r.t)).Nodup →
    Adv s (sk.foldl (fun s r => s.skipTo r.g r.t len) t) len order vol (ws ++ sk.map fun r => (r, none)) := by
  induction sk with
  | nil => intro t ws h _ _; simpa using h
  | cons r sk ih =>
    intro t ws h hd hn
    simp only [List.map_cons, List.nodup_cons] at hn
    have := ih _ _ (h.skip r (hd r (by simp))) ?_ hn.2
    · simpa [List.append_assoc] using this
    · intro q hq w hw
      rcases List.mem_append.1 hw with hw | hw
      · exact hd q (by simp [hq]) w hw
      · simp only [List.mem_singleton] at hw; subst hw
        intro he
        exact hn.1 (List.mem_map.2 ⟨q, hq, by simp only at he; simp [he]⟩)
theorem dones_adv (s : State) (len order vol : Nat) (l : List (Ref × TRes)) :
    ∀ (t : State) (ws : List (Ref × Option TRes)), Adv s t len order vol ws →
    (∀ e ∈ l, ∀ w ∈ ws, ¬ (w.1.g = e.1.g ∧ w.1.t = e.1.t)) → (l.map fun e => (e.1.g, e.1.t)).Nodup →
    Adv s (l.foldl (fun s e => s.complete e.1 len order vol e.2) t) len order vol (ws ++ l.map fun e => (e.1, some e.2)) := by
  induction l with
  | nil => intro t ws h _ _; simpa using h
  | cons e l ih =>
    intro t ws h hd hn
    simp only [List.map_cons, List.nodup_cons] at hn
    have := ih _ _ (h.complete e.1 e.2 (hd e (by simp))) ?_ hn.2
    · simpa [List.append_assoc] using this
    · intro q hq w hw
      rcases List.mem_append.1 hw with hw | hw
      · exact hd q (by simp [hq]) w hw
      · simp only [List.mem_singleton] at hw; subst hw
        intro he
        exact hn.1 (List.mem_map.2 ⟨q, hq, by simp only at he; simp [he]⟩)

/-- Outcomes that are all done, with room, complete their threads in order and deliver nothing. -/
theorem applyOut_dones (len order vol : Nat) (l : List (Ref × TRes)) (ts : List (Nat × Nat × Trap)) : ∀ s : State,
    (∀ e ∈ l, HasRoom e.1 e.2) → (l.map fun e => (e.1, TOut.done e.2)).foldl (applyOut len order vol) (s, ts)
      = (l.foldl (fun s e => s.complete e.1 len order vol e.2) s, ts) := by
  induction l with
  | nil => intro s _; rfl
  | cons e l ih =>
    intro s h
    have hr := h e (by simp)
    unfold HasRoom at hr
    simp only [List.map_cons, List.foldl_cons]
    rw [← ih _ fun x hx => h x (by simp [hx])]
    congr 1
    unfold applyOut
    simp only
    rw [if_neg (by omega)]

theorem foldl_skip_none {β : Type} (F : β → Ref × Option TRes → β) (sk : List Ref) (x : β)
    (hF : ∀ x r, F x (r, none) = x) : (sk.map fun r => (r, (none : Option TRes))).foldl F x = x := by
  induction sk with
  | nil => rfl
  | cons r sk ih => simp [hF, ih]

/-- From the order in which the threads were taken to the order of their lanes. -/
theorem Adv.advances {vol : Nat} {s t : State} {is : Issue} {order : Nat} {rs : List Ref} {p : Ref → Bool} {res : Ref → TRes}
    (h : Adv s t is.len order vol
      ((rs.filter fun r => !p r).map (fun r => (r, none)) ++ (rs.filter p).map fun r => (r, some (res r)))) :
    Advances vol s t is order rs fun r => if p r then some (res r) else none := by
  refine ⟨?_, ?_, ?_, h.noMore, ?_, h.rest⟩
  · intro r hr
    have := h.threads (r, if p r then some (res r) else none) ?_
    · exact this
    · by_cases hp : p r = true
      · simp [hp, hr]
      · simp [hp, hr]
  · intro g k hk
    apply h.others
    intro w hw
    simp only [List.mem_append, List.mem_map, List.mem_filter] at hw
    rcases hw with ⟨r, hr, rfl⟩ | ⟨r, hr, rfl⟩ <;> exact hk r hr.1
  · intro g G hG
    obtain ⟨G', h1, h2⟩ := h.groups g G hG
    refine ⟨G', h1, h2.trans ?_⟩
    have hor : ∀ (l : List Ref) (x y : Nat), (l.foldl (fun x r => if r.g = g then match (if p r then some (res r) else none : Option TRes) with
        | some res => x ||| (res.now.flags &&& 63) | none => x else x) (x ||| y)) =
        x ||| l.foldl (fun x r => if r.g = g then match (if p r then some (res r) else none : Option TRes) with
        | some res => x ||| (res.now.flags &&& 63) | none => x else x) y := by
      intro l
      induction l with
      | nil => intro x y; rfl
      | cons r l ih =>
        intro x y
        simp only [List.foldl_cons]
        by_cases hp : p r = true <;> by_cases hg : r.g = g <;> simp [hp, hg, ih, Nat.or_assoc]
    have htr : ∀ (l : List Ref) (x : Option Trace) (y : Nat), (l.foldl (fun (x : Option Trace) r => if r.g = g then match (if p r then some (res r) else none : Option TRes) with
        | some res => x.map fun (y : Trace) => { y with vcause := y.vcause ||| (res.vol ||| vol) } | none => x else x)
          (x.map fun (z : Trace) => { z with vcause := z.vcause ||| y })) =
        x.map fun (z : Trace) => { z with vcause := z.vcause ||| l.foldl (fun x r => if r.g = g then match (if p r then some (res r) else none : Option TRes) with
        | some res => x ||| (res.vol ||| vol) | none => x else x) y } := by
      intro l
      induction l with
      | nil => intro x y; rfl
      | cons r l ih =>
        intro x y
        simp only [List.foldl_cons]
        by_cases hp : p r = true <;> by_cases hg : r.g = g
        · simp only [hp, hg, if_true]
          rw [← ih]; congr 1; cases x <;> simp [Nat.or_assoc]
        · simp [hg]; simpa [hp] using ih x y
        · simp [hp, hg]; simpa [hp] using ih x y
        · simp [hg]; simpa [hp] using ih x y
    have e1 := hor rs G.fstat 0
    have e2 := htr rs G.trace 0
    simp only [Nat.or_zero] at e1 e2
    have hx : (G.trace.map fun (z : Trace) => { z with vcause := z.vcause }) = G.trace := by cases G.trace <;> rfl
    rw [hx] at e2
    have k1 : ∀ (l : List Ref) (x : Nat), ((l.filter fun r => !p r).map (fun r => (r, (none : Option TRes))) ++ (l.filter p).map fun r => (r, some (res r))).foldl
        (fun x w => if w.1.g = g then match w.2 with | some res => x ||| (res.now.flags &&& 63) | none => x else x) x
        = l.foldl (fun x r => if r.g = g then match (if p r then some (res r) else none : Option TRes) with
          | some res => x ||| (res.now.flags &&& 63) | none => x else x) x := by
      intro l x
      rw [List.foldl_append, foldl_skip_none _ _ _ (by simp), List.foldl_map, List.foldl_filter]
      congr 1; funext x r; by_cases hp : p r = true <;> simp [hp]
    have k2 : ∀ (l : List Ref) (x : Option Trace), ((l.filter fun r => !p r).map (fun r => (r, (none : Option TRes))) ++ (l.filter p).map fun r => (r, some (res r))).foldl
        (fun (x : Option Trace) w => if w.1.g = g then match w.2 with
          | some res => x.map fun (y : Trace) => { y with vcause := y.vcause ||| (res.vol ||| vol) } | none => x else x) x
        = l.foldl (fun (x : Option Trace) r => if r.g = g then match (if p r then some (res r) else none : Option TRes) with
          | some res => x.map fun (y : Trace) => { y with vcause := y.vcause ||| (res.vol ||| vol) } | none => x else x) x := by
      intro l x
      rw [List.foldl_append, foldl_skip_none _ _ _ (by simp), List.foldl_map, List.foldl_filter]
      congr 1; funext x r; by_cases hp : p r = true <;> simp [hp]
    rw [k1, k2, e1, e2]
    rfl
  · rw [h.accesses]
    have : ∀ l : List Ref, (((l.filter fun r => !p r).map (fun r => (r, (none : Option TRes))) ++ (l.filter p).map fun r => (r, some (res r))).flatMap
        fun w => match w.2 with | some res => res.accs.map fun a => (w.1, a) | none => [])
        = l.flatMap fun r => match (if p r then some (res r) else none : Option TRes) with
          | some res => res.accs.map fun a => (r, a) | none => [] := by
      intro l
      rw [List.flatMap_append]
      have hz : ((l.filter fun r => !p r).map (fun r => (r, (none : Option TRes)))).flatMap (fun w => match w.2 with
          | some res => res.accs.map fun a => (w.1, a) | none => []) = [] := by
        rw [List.flatMap_eq_nil_iff]
        intro w hw; obtain ⟨r, _, rfl⟩ := List.mem_map.1 hw; rfl
      rw [hz, List.nil_append]
      induction l with
      | nil => rfl
      | cons r l ih =>
        have hz' : ((l.filter fun r => !p r).map (fun r => (r, (none : Option TRes)))).flatMap (fun w => match w.2 with
            | some res => res.accs.map fun a => (w.1, a) | none => []) = [] := by
          rw [List.flatMap_eq_nil_iff]
          intro w hw; obtain ⟨r, _, rfl⟩ := List.mem_map.1 hw; rfl
        by_cases hp : p r = true <;> simp [hp, ih hz']
    rw [this]; rfl

/-- `finish` of a state that touched no absent memory. -/
theorem finish_of_present (s : State) (h : s.absent = none) : finish s = .next s := by simp [finish, h]

theorem gate_lists (p : Ref → Bool) (rs : List Ref) :
    ((rs.map fun r => (r, if p r then Gate.go else Gate.skip)).filter (·.2 == Gate.skip) = (rs.filter fun r => !p r).map fun r => (r, Gate.skip)) ∧
    (((rs.map fun r => (r, if p r then Gate.go else Gate.skip)).filter (·.2 == Gate.go)).map (·.1) = rs.filter p) ∧
    ((rs.map fun r => (r, if p r then Gate.go else Gate.skip)).filterMap Gate.trap? = []) := by
  induction rs with
  | nil => exact ⟨rfl, rfl, rfl⟩
  | cons r rs ih =>
    obtain ⟨h1, h2, h3⟩ := ih
    have e1 : (Gate.go == Gate.skip) = false := by decide
    have e2 : (Gate.skip == Gate.go) = false := by decide
    have t1 : ∀ r, Gate.trap? (r, Gate.go) = none := fun _ => rfl
    have t2 : ∀ r, Gate.trap? (r, Gate.skip) = none := fun _ => rfl
    by_cases hp : p r = true
    · refine ⟨?_, ?_, ?_⟩ <;> simp [hp, h1, h2, h3, e1, t1]
    · refine ⟨?_, ?_, ?_⟩ <;> simp [hp, h1, h2, h3, e2, t2]

/-- An instruction whose executing threads are all done: `u` is the state that `fn` leaves. -/
theorem issueAll_done (op : Nat) (f : Full) (fn : State → List Ref → State × List (Ref × TOut)) (s : State) (is : Issue) (rs : List Ref)
    (hop : op ≠ 0x0A6) (hi : Issued s is rs) (ha : Admits op f rs) (u : State) (res : Ref → TRes)
    (hfn : fn ((rs.filter fun r => !(r.T.guard f.g f.gn)).foldl (fun s r => s.skipTo r.g r.t is.len) s) (executing f rs)
      = (u, (executing f rs).map fun r => (r, TOut.done (res r))))
    (hroom : ∀ r ∈ executing f rs, HasRoom r (res r)) :
    issueAll op f fn s = finish (((executing f rs).map fun r => (r, res r)).foldl
      (fun t e => t.complete e.1 is.len s.next (if readsClock op f then 2 else 0) e.2) u) := by
  have hg := gate_lists (fun r => r.T.guard f.g f.gn) rs
  unfold issueAll
  simp only [hi.issue, hi.refs, gates_of_admits op f rs hop ha, hg.1, hg.2.1, hg.2.2, List.foldl_map]
  unfold executing at *
  rw [hfn]
  simp only
  have := applyOut_dones is.len s.next (if readsClock op f then 2 else 0) ((rs.filter fun r => r.T.guard f.g f.gn).map fun r => (r, res r)) [] u
    (by intro e he; obtain ⟨r, hr, rfl⟩ := List.mem_map.1 he; exact hroom r hr)
  simp only [List.map_map, Function.comp_def] at this
  rw [this]
  simp [State.deliver, List.foldl_map]

theorem absent_skips (sk : List Ref) (len : Nat) : ∀ s : State, (sk.foldl (fun s r => s.skipTo r.g r.t len) s).absent = s.absent := by
  induction sk with
  | nil => intro s; rfl
  | cons r sk ih => intro s; exact (ih _).trans rfl
theorem nodup_filter_keys (p : Ref → Bool) (rs : List Ref) (h : (rs.map fun r => (r.g, r.t)).Nodup) :
    ((rs.filter p).map fun r => (r.g, r.t)).Nodup := h.sublist (List.filter_sublist.map _)

/-- A group without its threads. -/
def Group.outline (G : Group) : Group := { G with threads := [] }
/-- A state that differs from s in the threads of its groups only: what an instruction finds once the threads whose guard is false
have moved on. -/
structure Alike (s u : State) : Prop where
  rest : ({ u with groups := s.groups } : State) = s
  outline : u.groups.map (fun e => (e.1, e.2.outline)) = s.groups.map fun e => (e.1, e.2.outline)

theorem Alike.eq {s u : State} (h : Alike s u) : u = { s with groups := u.groups } := by rw [← h.rest]
theorem skips_alike (sk : List Ref) (len : Nat) : ∀ s : State, Alike s (sk.foldl (fun s r => s.skipTo r.g r.t len) s) := by
  induction sk with
  | nil => intro s; exact ⟨rfl, rfl⟩
  | cons r sk ih =>
    intro s
    obtain ⟨h1, h2⟩ := ih (s.skipTo r.g r.t len)
    refine ⟨?_, ?_⟩
    · have := congrArg (fun (x : State) => ({ x with groups := s.groups } : State)) h1
      exact this.trans rfl
    · exact h2.trans (Map.modify_map s.groups r.g (·.modT r.t fun T => T.goTo (addOff T.pc len) s.clock) Group.outline fun _ => rfl)

/-! ## Operands do not depend on how the other threads stand -/

@[simp] theorem State.special_groups (s : State) (gs : Sparse Group) (r : Ref) (n : Nat) : ({ s with groups := gs } : State).special r n = s.special r n := rfl
@[simp] theorem State.op32_groups (s : State) (gs : Sparse Group) (r : Ref) (n : Nat) : ({ s with groups := gs } : State).op32 r n = s.op32 r n := rfl
@[simp] theorem State.op64_groups (s : State) (gs : Sparse Group) (r : Ref) (n : Nat) : ({ s with groups := gs } : State).op64 r n = s.op64 r n := rfl
@[simp] theorem State.op128_groups (s : State) (gs : Sparse Group) (r : Ref) (n : Nat) : ({ s with groups := gs } : State).op128 r n = s.op128 r n := rfl
@[simp] theorem State.opTy_groups (s : State) (gs : Sparse Group) (r : Ref) (t : Ty) (n : Nat) : ({ s with groups := gs } : State).opTy r t n = s.opTy r t n := rfl
@[simp] theorem State.bInt_groups (s : State) (gs : Sparse Group) (r : Ref) (t : Ty) (b : BForm) : ({ s with groups := gs } : State).bInt r t b = s.bInt r t b := rfl
@[simp] theorem State.bFloat_groups (s : State) (gs : Sparse Group) (r : Ref) (t : Ty) (b : BForm) : ({ s with groups := gs } : State).bFloat r t b = s.bFloat r t b := rfl
@[simp] theorem State.b32_groups (s : State) (gs : Sparse Group) (r : Ref) (b : BForm) : ({ s with groups := gs } : State).b32 r b = s.b32 r b := rfl
@[simp] theorem State.b64_groups (s : State) (gs : Sparse Group) (r : Ref) (b : BForm) : ({ s with groups := gs } : State).b64 r b = s.b64 r b := rfl
@[simp] theorem State.valA_groups (s : State) (gs : Sparse Group) (r : Ref) (t : Ty) (n : Nat) : ({ s with groups := gs } : State).valA r t n = s.valA r t n := rfl
@[simp] theorem State.valB_groups (s : State) (gs : Sparse Group) (r : Ref) (t : Ty) (b : BForm) : ({ s with groups := gs } : State).valB r t b = s.valB r t b := rfl
@[simp] theorem State.ia_groups (s : State) (gs : Sparse Group) (r : Ref) (f : Full) : ({ s with groups := gs } : State).ia r f = s.ia r f := rfl
@[simp] theorem State.ib_groups (s : State) (gs : Sparse Group) (r : Ref) (f : Full) : ({ s with groups := gs } : State).ib r f = s.ib r f := rfl
@[simp] theorem State.ic_groups (s : State) (gs : Sparse Group) (r : Ref) (f : Full) : ({ s with groups := gs } : State).ic r f = s.ic r f := rfl
@[simp] theorem State.pa_groups (s : State) (gs : Sparse Group) (r : Ref) (f : Full) : ({ s with groups := gs } : State).pa r f = s.pa r f := rfl
@[simp] theorem State.pb_groups (s : State) (gs : Sparse Group) (r : Ref) (f : Full) : ({ s with groups := gs } : State).pb r f = s.pb r f := rfl
@[simp] theorem State.patternC_groups (s : State) (gs : Sparse Group) (r : Ref) (f : Full) : ({ s with groups := gs } : State).pc_ r f = s.pc_ r f := rfl
@[simp] theorem State.count_groups (s : State) (gs : Sparse Group) (r : Ref) (f : Full) : ({ s with groups := gs } : State).count r f = s.count r f := rfl
@[simp] theorem State.fpB_groups (s : State) (gs : Sparse Group) (r : Ref) (f : Full) : ({ s with groups := gs } : State).fpB r f = s.fpB r f := rfl
@[simp] theorem State.fa_groups (s : State) (gs : Sparse Group) (r : Ref) (f : Full) : ({ s with groups := gs } : State).fa r f = s.fa r f := rfl
@[simp] theorem State.fb_groups (s : State) (gs : Sparse Group) (r : Ref) (f : Full) : ({ s with groups := gs } : State).fb r f = s.fb r f := rfl
@[simp] theorem State.fc_groups (s : State) (gs : Sparse Group) (r : Ref) (f : Full) : ({ s with groups := gs } : State).fc r f = s.fc r f := rfl
@[simp] theorem State.ea_groups (s : State) (gs : Sparse Group) (r : Ref) (f : Full) : ({ s with groups := gs } : State).ea r f = s.ea r f := rfl
@[simp] theorem State.eo_groups (s : State) (gs : Sparse Group) (r : Ref) (f : Full) : ({ s with groups := gs } : State).eo r f = s.eo r f := rfl

/-- `issueEach`: every executing thread has its own effect, on the state as the instruction found it, and nothing else changes. -/
theorem issueEach_does (op : Nat) (f : Full) (plan : State → Ref → TOut) (s : State) (is : Issue) (rs : List Ref) (res : Ref → TRes)
    (hop : op ≠ 0x0A6) (hi : Issued s is rs) (ha : Admits op f rs)
    (hplan : ∀ u, Alike s u → ∀ r ∈ executing f rs, plan u r = .done (res r))
    (hroom : ∀ r ∈ executing f rs, HasRoom r (res r)) :
    ∃ t, issueEach op f plan s = .next t ∧
      Advances (clockVol op f) s t is s.next rs fun r => if r.T.guard f.g f.gn then some (res r) else none := by
  let sk := rs.filter fun r => !(r.T.guard f.g f.gn)
  let u := sk.foldl (fun s r => s.skipTo r.g r.t is.len) s
  have hfn : (fun s (rs : List Ref) => (s, rs.map fun r => (r, plan s r))) u (executing f rs)
      = (u, (executing f rs).map fun r => (r, TOut.done (res r))) := by
    simp only [Prod.mk.injEq, true_and]
    apply List.map_congr_left
    intro r hr
    rw [hplan u (skips_alike sk is.len s) r hr]
  have hadv := dones_adv s is.len s.next (if readsClock op f then 2 else 0) ((executing f rs).map fun r => (r, res r)) u _
    (skips_adv s is.len s.next (if readsClock op f then 2 else 0) sk s [] (Adv.nil s _ _ _) (by simp) (nodup_filter_keys _ _ hi.nodup))
    (by
      intro e he w hw
      obtain ⟨r, hr, rfl⟩ := List.mem_map.1 he
      simp only [List.nil_append, List.mem_map] at hw
      obtain ⟨q, hq, rfl⟩ := hw
      intro hk
      have hr' := List.mem_filter.1 hr
      have hq' := List.mem_filter.1 hq
      have : q = r := List.inj_on_of_nodup_map hi.nodup hq'.1 hr'.1 (by simp only at hk; simp [hk])
      subst this
      simp [hr'.2] at hq')
    (by simpa [executing, List.map_map, Function.comp_def] using nodup_filter_keys (fun r => r.T.guard f.g f.gn) _ hi.nodup)
  simp only [List.nil_append, List.map_map, Function.comp_def] at hadv
  have hadv' := Adv.advances (vol := clockVol op f) (is := is) (p := fun r => r.T.guard f.g f.gn) (res := res) hadv
  refine ⟨_, ?_, hadv'⟩
  unfold issueEach
  rw [issueAll_done op f _ s is rs hop hi ha u res hfn hroom, finish_of_present]
  have := congrArg State.absent hadv'.rest
  exact this.trans hi.present

/-- The same for a meaning whose threads read one another's operands. -/
theorem issueTile_does (op : Nat) (f : Full) (plan : State → List Ref → List (Ref × TOut)) (s : State) (is : Issue) (rs : List Ref)
    (res : Ref → TRes) (hop : op ≠ 0x0A6) (hi : Issued s is rs) (ha : Admits op f rs)
    (hplan : ∀ u, Alike s u → plan u (executing f rs) = (executing f rs).map fun r => (r, .done (res r)))
    (hroom : ∀ r ∈ executing f rs, HasRoom r (res r)) :
    ∃ t, issueTile op f plan s = .next t ∧
      Advances (clockVol op f) s t is s.next rs fun r => if r.T.guard f.g f.gn then some (res r) else none := by
  have h := issueEach_does op f (fun _ r => .done (res r)) s is rs res hop hi ha (fun _ _ _ _ => rfl) hroom
  obtain ⟨t, h1, h2⟩ := h
  refine ⟨t, ?_, h2⟩
  rw [← h1]
  unfold issueTile issueEach issueAll
  simp only [hi.issue, hi.refs, gates_of_admits op f rs hop ha, (gate_lists (fun r => r.T.guard f.g f.gn) rs).1,
    (gate_lists (fun r => r.T.guard f.g f.gn) rs).2.1]
  have hp := hplan _ (skips_alike (rs.filter fun r => !(r.T.guard f.g f.gn)) is.len s)
  unfold executing at hp
  simp only [List.foldl_map]
  rw [hp]
  simp only [List.foldl_map]

/-- `issueAll` where the threads that execute are done: `fn` answers `u`. -/
theorem issueAll_all (op : Nat) (f : Full) (fn : State → List Ref → State × List (Ref × TOut)) (s : State) (is : Issue) (rs : List Ref) (u : State)
    (res : Ref → TRes) (hop : op ≠ 0x0A6) (hi : Issued s is rs) (ha : Admits op f rs)
    (hfn : fn (moved f s is rs) (executing f rs) = (u, (executing f rs).map fun r => (r, .done (res r))))
    (hroom : ∀ r ∈ executing f rs, HasRoom r (res r)) (hu : u.absent = none) :
    ∃ t, issueAll op f fn s = .next t ∧ Advances (clockVol op f) u t is s.next (executing f rs) fun r => some (res r) := by
  have hadv := dones_adv u is.len s.next (clockVol op f) ((executing f rs).map fun r => (r, res r)) u [] (Adv.nil u _ _ _) (by simp)
    (by simpa [executing, List.map_map, Function.comp_def] using nodup_filter_keys (fun r => r.T.guard f.g f.gn) _ hi.nodup)
  have hadv' := Adv.advances (vol := clockVol op f) (is := is) (rs := executing f rs) (p := fun _ => true) (res := res)
    (by simpa [List.map_map, Function.comp_def] using hadv)
  refine ⟨_, ?_, by simpa using hadv'⟩
  rw [issueAll_done op f fn s is rs hop hi ha u res hfn hroom]
  apply finish_of_present
  have := congrArg State.absent hadv.rest
  exact this.trans hu
/-- What a thread finds once the threads before it have acted. -/
theorem before_append (eff : State → Ref → State) (s : State) (p l : List Ref) (r : Ref) (h : (p ++ r :: l).Nodup) :
    before eff s (p ++ r :: l) r = p.foldl eff s := by
  unfold before
  rw [List.takeWhile_append_of_pos]
  · simp
  · intro x hx
    have : x ≠ r := by
      intro e; subst e
      exact (List.nodup_append.1 h).2.2 x hx x (by simp) rfl
    simpa using this
/-- Threads that act in turn touch no absent memory where none of them does. -/
theorem turn_absent (ok : State → Ref → Prop) (eff : State → Ref → State) (hab : ∀ s r, ok s r → s.absent = none → (eff s r).absent = none)
    (s : State) (l : List Ref) : ∀ p : List Ref, (p ++ l).Nodup → (∀ r ∈ l, ok (before eff s (p ++ l) r) r) → (p.foldl eff s).absent = none →
    ((p ++ l).foldl eff s).absent = none := by
  induction l with
  | nil => intro p _ _ h; simpa using h
  | cons r l ih =>
    intro p hnd hok h
    have hr := hok r (by simp)
    rw [before_append eff s p l r hnd] at hr
    have := ih (p ++ [r]) (by simpa using hnd) (by intro q hq; simpa using hok q (by simp [hq])) (by
      rw [List.foldl_append]; exact hab _ _ hr h)
    simpa using this
/-- Threads that act in turn: the state they leave, and what each does on the state it finds. -/
theorem turn_fold (act : State → Ref → State × TOut) (ok : State → Ref → Prop) (eff : State → Ref → State) (res : State → Ref → TRes)
    (hact : ∀ s r, ok s r → act s r = (eff s r, .done (res s r))) (s : State) (l : List Ref) : ∀ (p : List Ref) (acc : List (Ref × TOut)),
    (p ++ l).Nodup → (∀ r ∈ l, ok (before eff s (p ++ l) r) r) →
    l.foldl (fun (acc : State × List (Ref × TOut)) r => ((act acc.1 r).1, acc.2 ++ [(r, (act acc.1 r).2)])) (p.foldl eff s, acc) =
      ((p ++ l).foldl eff s, acc ++ l.map fun r => (r, .done (res (before eff s (p ++ l) r) r))) := by
  induction l with
  | nil => intro p acc _ _; simp
  | cons r l ih =>
    intro p acc hnd hok
    have hpre := before_append eff s p l r hnd
    have hr := hok r (by simp)
    rw [hpre] at hr
    have := ih (p ++ [r]) (acc ++ [(r, .done (res (p.foldl eff s) r))]) (by simpa using hnd) (by
      intro q hq; simpa using hok q (by simp [hq]))
    simp only [List.foldl_append, List.foldl_cons, List.foldl_nil, List.append_assoc, List.singleton_append] at this
    rw [List.foldl_cons, hact _ _ hr]
    rw [this]
    simp [List.foldl_append, hpre]

/-- An instruction issued by `issueEach`, whose plan is done with `res` wherever `ok` holds, does as `EachDoes` says. -/
theorem eachDoes_of {i : Instr} {op : Nat} {f : Full} {plan : State → Ref → TOut} {ok : State → List Ref → Ref → Prop}
    {res : State → List Ref → Ref → TRes} (hexec : Sys2Proof.Machine.exec i = issueEach op f plan) (hop : op ≠ 0x0A6)
    (hplan : ∀ s u rs r, ok s rs r → Alike s u → plan u r = .done (res s rs r)) : EachDoes i op f ok res := by
  intro s is rs hi ha hr
  rw [hexec]
  exact issueEach_does op f plan s is rs (res s (executing f rs)) hop hi ha (fun u hu r hx => hplan s u _ r (hr r hx).1 hu) fun r hx => (hr r hx).2
/-- The same where nothing is asked of the thread and the result is its own. -/
theorem eachGives_of {i : Instr} {op : Nat} {f : Full} {plan : State → Ref → TOut}
    {res : State → Ref → TRes} (hexec : Sys2Proof.Machine.exec i = issueEach op f plan) (hop : op ≠ 0x0A6)
    (hplan : ∀ s r, plan s r = .done (res s r)) (hal : ∀ s (gs : Sparse Group) r, res { s with groups := gs } r = res s r) :
    EachGives i op f res :=
  eachDoes_of hexec hop fun s u _ r _ hu => by rw [hplan, hu.eq, hal]
/-- An instruction issued by `issueTile`. -/
theorem tileDoes_of {i : Instr} {op : Nat} {f : Full} {plan : State → List Ref → List (Ref × TOut)} {ok : State → List Ref → Ref → Prop}
    {res : State → List Ref → Ref → TRes} (hexec : Sys2Proof.Machine.exec i = issueTile op f plan) (hop : op ≠ 0x0A6)
    (hplan : ∀ s u rs, (∀ r ∈ rs, ok s rs r) → Alike s u → plan u rs = rs.map fun r => (r, .done (res s rs r))) : EachDoes i op f ok res := by
  intro s is rs hi ha hr
  rw [hexec]
  exact issueTile_does op f plan s is rs (res s (executing f rs)) hop hi ha (fun u hu => hplan s u _ (fun r hx => (hr r hx).1) hu)
    fun r hx => (hr r hx).2
/-- An instruction issued by `issueAll`, whose executing threads are all done. -/
theorem allDo_of {i : Instr} {op : Nat} {f : Full} {fn : State → List Ref → State × List (Ref × TOut)} {ok : State → List Ref → Prop}
    {eff : State → List Ref → State} {res : State → List Ref → Ref → TRes} (hexec : Sys2Proof.Machine.exec i = issueAll op f fn)
    (hop : op ≠ 0x0A6) (hfn : ∀ s rs, ok s rs → fn s rs = (eff s rs, rs.map fun r => (r, .done (res s rs r))))
    (hab : ∀ s rs, ok s rs → s.absent = none → (eff s rs).absent = none) : AllDo i op f ok eff res := by
  intro s is rs hi ha u xs hok hroom
  rw [hexec]
  exact issueAll_all op f fn s is rs (eff u xs) (res u xs) hop hi ha (hfn u xs hok) hroom
    (hab u xs hok ((absent_skips _ _ s).trans hi.present))
/-- An instruction issued by `issueTurn`. -/
theorem turnDo_of {i : Instr} {op : Nat} {f : Full} {act : State → Ref → State × TOut} {ok : State → Ref → Prop}
    {eff : State → Ref → State} {res : State → Ref → TRes} (hexec : Sys2Proof.Machine.exec i = issueTurn op f act) (hop : op ≠ 0x0A6)
    (hact : ∀ s r, ok s r → act s r = (eff s r, .done (res s r)))
    (hab : ∀ s r, ok s r → s.absent = none → (eff s r).absent = none) : TurnDo i op f ok eff res := by
  intro s is rs hi ha u xs hok hroom
  rw [hexec]
  have hnd : xs.Nodup := List.Nodup.of_map _ (nodup_filter_keys (fun r => r.T.guard f.g f.gn) _ hi.nodup)
  refine issueAll_all op f _ s is rs _ _ hop hi ha ?_ hroom
    (turn_absent ok eff hab u xs [] (by simpa using hnd) (by simpa using hok) ((absent_skips _ _ s).trans hi.present))
  have := turn_fold act ok eff res hact u xs [] [] (by simpa using hnd) (by simpa using hok)
  simpa using this

end Sys2Proof.Machine
end

