-- ==== Sys2Proof/Laws/Log.lean ====
section
/-! SUPPORT. Writes of memory, said once; the error log: what one event leaves (R436); and the kill of a context (R437). -/

namespace Sys2Proof.Machine

/-- A byte after a scatter: the later of two cells at one address stands. -/
theorem memByte_memScatter (cells : List (Nat × Byte)) : ∀ (m : List Host.Cell) (x : Nat), Memory.wf m = true →
    memByte (memScatter m cells) x = written m cells x := by
  induction cells with
  | nil => intro m x _; rfl
  | cons c cs ih =>
    intro m x h
    obtain ⟨a, b⟩ := c
    simp only [memScatter]
    rw [ih _ _ (wf_memPut m a b h)]
    unfold written
    rw [List.reverse_cons, List.find?_append]
    cases cs.reverse.find? (·.1 == x) with
    | some e => simp
    | none =>
      simp only [Option.none_or, List.find?_singleton]
      rw [memByte_memPut _ _ _ _ h]
      by_cases hx : x = a
      · subst hx; simp
      · have : (a == x) = false := by simpa using Ne.symm hx
        simp [this, hx]
theorem memWrite_eq (bs : List Byte) : ∀ (m : List Host.Cell) (a : Nat),
    memWrite m a bs = memScatter m (((List.range bs.length).zip bs).map fun e => (a + e.1, e.2)) := by
  induction bs with
  | nil => intro m a; rfl
  | cons b bs ih =>
    intro m a
    rw [memWrite, ih]
    simp only [List.length_cons, List.range_succ_eq_map, List.zip_cons_cons, List.map_cons, memScatter, Nat.add_zero]
    congr 1
    rw [List.zip_map_left, List.map_map]
    apply List.map_congr_left
    intro e _; simp [Nat.add_comm, Nat.add_left_comm]
theorem memByte_memWrite (m : List Host.Cell) (a : Nat) (bs : List Byte) (x : Nat) (h : Memory.wf m = true) :
    memByte (memWrite m a bs) x = written m (((List.range bs.length).zip bs).map fun e => (a + e.1, e.2)) x := by
  rw [memWrite_eq, memByte_memScatter _ _ _ h]
theorem memScatter_holds (s t : State) (cells : List (Nat × Byte)) (h : Memory.wf s.mem = true) (ht : t.mem = memScatter s.mem cells) :
    Holds s t cells := ⟨by rw [ht]; exact wf_memScatter _ _ h, fun x => by rw [ht]; exact memByte_memScatter _ _ _ h⟩

theorem leBytes_length (n x : Nat) : (leBytes n x).length = n := by
  induction n generalizing x with
  | zero => rfl
  | succ n ih => simp [leBytes, ih]
theorem elsizeOk_iff (n : Nat) : elsizeOk n = true ↔ n ∈ [64, 128, 256, 512, 1024, 2048, 4096, 8192, 16384, 32768, 65536] := by
  unfold elsizeOk; exact List.contains_iff_mem

theorem State.msi_shape (s : State) (v : Nat) : ∃ e, s.msi v = { s with edge := e } := by
  unfold State.msi; cases s.edge.wymDown
  · exact ⟨_, rfl⟩
  · exact ⟨s.edge, rfl⟩
/-- A port that differs from another in its lines' timestamps and snoops only: what a write leaves at the homes of its lines. -/
def Port.homesOf (p q : Port) : Prop := ({ p with ts := q.ts, snooped := q.snooped, snoops := q.snoops } : Port) = q
theorem Port.homesOf_refl (p : Port) : p.homesOf p := rfl
theorem Port.homesOf_trans {p q r : Port} (h : p.homesOf q) (k : q.homesOf r) : p.homesOf r :=
  (congrArg (fun (x : Port) => ({ x with ts := r.ts, snooped := r.snooped, snoops := r.snoops } : Port)) h).trans k
theorem State.homeWrite_shape (s : State) (w : Writer) (pts l : Nat) : ∃ p : Port, p.homesOf s.port ∧ s.homeWrite w pts l = { s with port := p } :=
  ⟨_, by dsimp only; split <;> rfl, rfl⟩
theorem homeWrites_shape (w : Writer) (l : Nat) (ks : List Nat) : ∀ s : State, ∃ p : Port, p.homesOf s.port ∧
    ks.foldl (fun (s : State) k => s.homeWrite w s.topTs (l + k)) s = { s with port := p } := by
  induction ks with
  | nil => intro s; exact ⟨s.port, s.port.homesOf_refl, rfl⟩
  | cons k ks ih =>
    intro s
    obtain ⟨p, h1, h2⟩ := s.homeWrite_shape w s.topTs (l + k)
    obtain ⟨q, h3, h4⟩ := ih (s.homeWrite w s.topTs (l + k))
    rw [h2] at h3
    exact ⟨q, Port.homesOf_trans h3 h1, by rw [List.foldl_cons, h4, h2]⟩
/-- A write of the device's own: the bytes, the homes of their lines, and a mark where the memory does not exist. -/
theorem State.pokeRaw_shape (s : State) (a : Nat) (bs : List Byte) : ∃ (p : Port) (x : Option Nat), p.homesOf s.port ∧
    (a + bs.length ≤ memSize → x = s.absent) ∧ s.pokeRaw a bs = { s with mem := memWrite s.mem a bs, port := p, absent := x } := by
  obtain ⟨p, h1, h2⟩ := homeWrites_shape { ctx := 0, stamp := none } (a / 64) (List.range ((a + bs.length + 63) / 64 - a / 64))
    { s with mem := memWrite s.mem a bs }
  unfold State.pokeRaw State.checkPhys
  rw [h2]
  split
  · exact ⟨p, s.absent, h1, fun _ => rfl, rfl⟩
  · exact ⟨p, _, h1, fun h => absurd h ‹_›, rfl⟩
theorem State.log_shape (s : State) (r : ErrRec) : ∃ (e : Edge) (m : List Host.Cell) (p : Port) (x : Option Nat), p.homesOf s.port ∧
    s.log r = { s with edge := e, mem := m, port := p, absent := x } := by
  unfold State.log
  simp only
  split
  · obtain ⟨p, x, hp, _, hx⟩ := State.pokeRaw_shape (s.modEdge fun e => { e with ecnt := Map.put 0 e.ecnt r.cls ((Map.getD s.edge.ecnt 0 r.cls + 1) % 2 ^ 64), seq := e.seq + 1, logged := (s.clock, r.key) })
      (s.edge.elbase + 64 * (s.edge.elhead % s.edge.elsize)) (s.errBytes r ((Map.getD s.edge.ecnt 0 r.cls + 1) % 2 ^ 64))
    rw [hx]
    obtain ⟨e, he⟩ := State.msi_shape (({ (s.modEdge fun e => { e with ecnt := Map.put 0 e.ecnt r.cls ((Map.getD s.edge.ecnt 0 r.cls + 1) % 2 ^ 64), seq := e.seq + 1, logged := (s.clock, r.key) }) with
      mem := memWrite (s.modEdge fun e => { e with ecnt := Map.put 0 e.ecnt r.cls ((Map.getD s.edge.ecnt 0 r.cls + 1) % 2 ^ 64), seq := e.seq + 1, logged := (s.clock, r.key) }).mem
        (s.edge.elbase + 64 * (s.edge.elhead % s.edge.elsize)) (s.errBytes r ((Map.getD s.edge.ecnt 0 r.cls + 1) % 2 ^ 64)), port := p, absent := x } : State).modEdge
        fun e => { e with elhead := (e.elhead + 1) % 2 ^ 64 }) (if 2 ≤ r.sev then 1 else 3)
    rw [he]
    simp only [State.modEdge]
    exact ⟨e, _, p, x, hp, rfl⟩
  · obtain ⟨e, he⟩ := State.msi_shape ((s.modEdge fun e => { e with ecnt := Map.put 0 e.ecnt r.cls ((Map.getD s.edge.ecnt 0 r.cls + 1) % 2 ^ 64), seq := e.seq + 1, logged := (s.clock, r.key) }).modEdge
        fun e => { e with ovf := true, lost := (e.lost + 1) % 2 ^ 63 }) (if 2 ≤ r.sev then 1 else 3)
    rw [he]
    simp only [State.modEdge]
    exact ⟨e, s.mem, s.port, s.absent, s.port.homesOf_refl, rfl⟩
/-- The part of the state that one event of the error log may change. -/
theorem State.log_frame (s : State) (r : ErrRec) : ({ s.log r with edge := s.edge, mem := s.mem, port := s.port, absent := s.absent } : State) = s := by
  obtain ⟨e, m, p, x, _, h⟩ := s.log_shape r; rw [h]
theorem State.log_groups (s : State) (r : ErrRec) : (s.log r).groups = s.groups := by have := congrArg State.groups (s.log_frame r); exact this
theorem State.log_ctxs (s : State) (r : ErrRec) : (s.log r).ctxs = s.ctxs := by have := congrArg State.ctxs (s.log_frame r); exact this
theorem State.log_port (s : State) (r : ErrRec) : (s.log r).port.homesOf s.port := by obtain ⟨e, m, p, x, hp, h⟩ := s.log_shape r; rw [h]; exact hp
theorem recordBytes_length (s : State) (r : ErrRec) : (recordBytes s r).length = 64 := by simp [recordBytes, leBytes_length]

/-- One event in the state of `s`, its record written or lost. -/
theorem State.log_cases (s : State) (r : ErrRec) (h : LogFits s) :
    let e := s.edge
    let e1 : Edge := { e with ecnt := Map.put 0 e.ecnt r.cls (Map.getD e.ecnt 0 r.cls + 1), seq := e.seq + 1, logged := (s.clock, r.key),
                              msix := if e.wymDown then e.msix else (if 2 ≤ r.sev then 1 else 3) :: e.msix }
    (e.elbase ≠ 0 ∧ elsizeOk e.elsize = true ∧ (e.elhead + 2 ^ 64 - e.eltail) % 2 ^ 64 < e.elsize ∧
      ∃ p : Port, p.homesOf s.port ∧
        s.log r = { s with mem := memWrite s.mem (e.elbase + 64 * (e.elhead % e.elsize)) (recordBytes s r), port := p,
                           edge := { e1 with elhead := (e.elhead + 1) % 2 ^ 64 } }) ∨
    (¬ (e.elbase ≠ 0 ∧ elsizeOk e.elsize = true ∧ (e.elhead + 2 ^ 64 - e.eltail) % 2 ^ 64 < e.elsize) ∧
      s.log r = { s with edge := { e1 with ovf := true, lost := (e.lost + 1) % 2 ^ 63 } }) := by
  intro e e1
  have hcnt : (Map.getD s.edge.ecnt 0 r.cls + 1) % 2 ^ 64 = Map.getD s.edge.ecnt 0 r.cls + 1 := Nat.mod_eq_of_lt (h.count r.cls)
  have hbytes : s.errBytes r (Map.getD s.edge.ecnt 0 r.cls + 1) = recordBytes s r := by
    simp only [State.errBytes, recordBytes, List.flatten_cons, List.flatten_nil, List.append_assoc, List.append_nil]
    rfl
  by_cases hroom : e.elbase ≠ 0 ∧ elsizeOk e.elsize = true ∧ (e.elhead + 2 ^ 64 - e.eltail) % 2 ^ 64 < e.elsize
  · refine .inl ⟨hroom.1, hroom.2.1, hroom.2.2, ?_⟩
    have hr : (decide (s.edge.elbase ≠ 0) && elsizeOk s.edge.elsize && decide ((s.edge.elhead + 2 ^ 64 - s.edge.eltail) % 2 ^ 64 < s.edge.elsize)) = true := by
      simp only [Bool.and_eq_true, decide_eq_true_eq]; exact ⟨⟨hroom.1, hroom.2.1⟩, hroom.2.2⟩
    have hpos : 0 < s.edge.elsize := by
      have := hroom.2.2; show 0 < e.elsize; omega
    have hfit : s.edge.elbase + 64 * (s.edge.elhead % s.edge.elsize) + 64 ≤ memSize := by
      have h1 := h.fits
      have h2 := Nat.mod_lt s.edge.elhead hpos
      omega
    unfold State.log
    simp only [hcnt, hbytes, hr, if_true]
    obtain ⟨p, x, hp, hx, hpoke⟩ := State.pokeRaw_shape
      (s.modEdge fun e => { e with ecnt := Map.put 0 e.ecnt r.cls (Map.getD s.edge.ecnt 0 r.cls + 1), seq := e.seq + 1, logged := (s.clock, r.key) })
      (s.edge.elbase + 64 * (s.edge.elhead % s.edge.elsize)) (recordBytes s r)
    rw [hpoke, hx (by rw [recordBytes_length]; exact hfit)]
    refine ⟨p, hp, ?_⟩
    unfold State.msi State.modEdge
    simp only
    split <;> simp_all [e, e1]
  · refine .inr ⟨hroom, ?_⟩
    have hr : (decide (s.edge.elbase ≠ 0) && elsizeOk s.edge.elsize && decide ((s.edge.elhead + 2 ^ 64 - s.edge.eltail) % 2 ^ 64 < s.edge.elsize)) = false := by
      rw [Bool.eq_false_iff]; intro hc; apply hroom
      simp only [Bool.and_eq_true, decide_eq_true_eq] at hc; exact ⟨hc.1.1, hc.1.2, hc.2⟩
    unfold State.log
    simp only [hcnt, hr, Bool.false_eq_true, if_false]
    unfold State.msi State.modEdge
    simp only
    split <;> simp_all [e, e1]
theorem State.log_absent (s : State) (r : ErrRec) (h : LogFits s) : (s.log r).absent = none := by
  rcases s.log_cases r h with ⟨_, _, _, _, _, h1⟩ | ⟨_, h1⟩ <;> rw [h1] <;> exact h.present
/-- One event of the error log (R436). -/
theorem State.log_logged (s : State) (r : ErrRec) (h : LogFits s) : Logged s (s.log r) r := by
  have hne : Map.getD s.edge.ecnt 0 r.cls + 1 ≠ 0 := by omega
  have hcount : ∀ m : Sparse Nat, Map.getD (Map.put 0 m r.cls (Map.getD s.edge.ecnt 0 r.cls + 1)) 0 r.cls = Map.getD s.edge.ecnt 0 r.cls + 1 := by
    intro m; unfold Map.put; rw [if_neg hne]; simp [Map.getD]
  rcases s.log_cases r h with ⟨h1, h2, h3, _, _, h4⟩ | ⟨h1, h4⟩
  · rw [h4]
    refine ⟨rfl, hcount _, rfl, ?_, fun h0 => absurd h0 h1⟩
    intro _ _ hle hlt
    have hroom : s.edge.elhead - s.edge.eltail < s.edge.elsize := by omega
    rw [if_pos hroom]
    refine ⟨by show (s.edge.elhead + 1) % 2 ^ 64 = _; omega, rfl, fun x => ?_⟩
    show memByte (memWrite _ _ _) x = _
    rw [memByte_memWrite _ _ _ _ h.canon, recordBytes_length]
  · rw [h4]
    refine ⟨rfl, hcount _, rfl, ?_, fun _ => ⟨rfl, rfl, rfl, rfl⟩⟩
    intro h0 h2 hle hlt
    have hroom : ¬ s.edge.elhead - s.edge.eltail < s.edge.elsize := by
      intro hc; apply h1; exact ⟨h0, (elsizeOk_iff _).2 h2, by omega⟩
    rw [if_neg hroom]
    exact ⟨rfl, rfl, rfl, rfl⟩

/-! ## A context killed (R437) -/

theorem get?_foldl_erase (ks : List Nat) (k : Nat) (hk : k ∉ ks) : ∀ m : Sparse Group,
    Map.get? (ks.foldl (fun m g => Map.erase m g) m) k = Map.get? m k := by
  induction ks with
  | nil => intro m; rfl
  | cons a ks ih =>
    intro m
    simp only [List.mem_cons, not_or] at hk
    simp only [List.foldl_cons]
    rw [ih hk.2, Map.get?_erase_of_ne m hk.1]
theorem mem_erase_distinct {α : Type} (m : Sparse α) (k : Nat) (e : Nat × α) (hd : Distinct m) : e ∈ Map.erase m k ↔ e ∈ m ∧ e.1 ≠ k := by
  induction m with
  | nil => simp [Map.erase]
  | cons x m ih =>
    obtain ⟨a, v⟩ := x
    simp only [Distinct, List.map_cons, List.nodup_cons] at hd
    simp only [Map.erase]
    by_cases h : k = a
    · subst h
      rw [if_pos rfl]
      constructor
      · intro he
        exact ⟨by simp [he], fun hk => hd.1 (List.mem_map.2 ⟨e, he, hk⟩)⟩
      · rintro ⟨he, hk⟩
        rcases List.mem_cons.1 he with rfl | he
        · exact absurd rfl hk
        · exact he
    · rw [if_neg h, List.mem_cons, ih hd.2, List.mem_cons]
      constructor
      · rintro (rfl | ⟨h1, h2⟩)
        · exact ⟨.inl rfl, fun hk => h hk.symm⟩
        · exact ⟨.inr h1, h2⟩
      · rintro ⟨rfl | h1, h2⟩
        · exact .inl rfl
        · exact .inr ⟨h1, h2⟩
theorem distinct_erase {α : Type} (m : Sparse α) (k : Nat) (hd : Distinct m) : Distinct (Map.erase m k) := by
  induction m with
  | nil => exact hd
  | cons x m ih =>
    obtain ⟨a, v⟩ := x
    simp only [Distinct, List.map_cons, List.nodup_cons] at hd
    simp only [Map.erase]
    split
    · exact hd.2
    · simp only [Distinct, List.map_cons, List.nodup_cons]
      refine ⟨fun h => ?_, ih hd.2⟩
      obtain ⟨e, he, rfl⟩ := List.mem_map.1 h
      exact hd.1 (List.mem_map.2 ⟨e, Map.mem_erase m k e he, rfl⟩)
theorem mem_foldl_erase {α : Type} (ks : List Nat) (e : Nat × α) : ∀ m : Sparse α, Distinct m →
    (e ∈ ks.foldl (fun m g => Map.erase m g) m ↔ e ∈ m ∧ e.1 ∉ ks) := by
  induction ks with
  | nil => intro m _; simp
  | cons a ks ih =>
    intro m hd
    simp only [List.foldl_cons]
    rw [ih _ (distinct_erase m a hd), mem_erase_distinct m a e hd]
    simp only [List.mem_cons, not_or, and_assoc]
theorem dropGroups_shape (ks : List Nat) : ∀ s : State, ∃ as ls cs, ks.foldl (fun (s : State) g => s.dropGroup g) s =
    { s with groups := ks.foldl (fun m g => Map.erase m g) s.groups, accesses := as, leaves := ls, charges := cs } := by
  induction ks with
  | nil => intro s; exact ⟨s.accesses, s.leaves, s.charges, rfl⟩
  | cons a ks ih =>
    intro s
    obtain ⟨as, ls, cs, h⟩ := ih (s.dropGroup a)
    exact ⟨as, ls, cs, h⟩
theorem mem_get?_of_distinct {α : Type} (m : Sparse α) (k : Nat) (v : α) (hd : Distinct m) (h : (k, v) ∈ m) : Map.get? m k = some v := by
  induction m with
  | nil => simp at h
  | cons x m ih =>
    obtain ⟨a, w⟩ := x
    simp only [Distinct, List.map_cons, List.nodup_cons] at hd
    simp only [Map.get?]
    rcases List.mem_cons.1 h with h | h
    · simp only [Prod.mk.injEq] at h; rw [if_pos h.1, h.2]
    · rw [if_neg (fun hk => hd.1 (List.mem_map.2 ⟨(k, v), h, hk⟩)), ih hd.2 h]
theorem mem_of_get? {α : Type} (m : Sparse α) (k : Nat) (v : α) (h : Map.get? m k = some v) : (k, v) ∈ m := by
  induction m with
  | nil => simp [Map.get?] at h
  | cons x m ih =>
    obtain ⟨a, w⟩ := x
    simp only [Map.get?] at h
    split at h
    · simp_all
    · simp [ih h]

/-- A context of which nothing is outstanding at the host is killed: memory, the edge and other contexts' groups stand (R437). -/
theorem State.kill_mortal (s : State) (c : Nat) (C : Ctx) (detail : Nat) (h : Mortal s c C) :
    ∃ T f, Killed s (s.kill c detail) c ∧ (s.kill c detail).edge = s.edge ∧ (s.kill c detail).mem = s.mem ∧
      (s.kill c detail).absent = s.absent ∧ (s.kill c detail).port = { s.port with table := T, lineSeq := f } := by
  have hq : (s.queues.filter fun (e : Nat × HostQueue) => !e.2.priv && e.2.ctx == c) = [] := by
    rw [List.filter_eq_nil_iff]
    intro e he
    rcases h.queues e he with h1 | h1 <;> simp [h1]
  obtain ⟨as, ls, cs, hd⟩ := dropGroups_shape ((s.groups.filter fun (e : Nat × Group) => e.2.ctx == c).map (·.1))
    (s.modCtx c fun C => { C with killed := true })
  have hi : (s.items.filterMap fun (i : Item) => if i.ctx = c then i.host.map (·, i.shownLsn) else none) = [] := by
    rw [List.filterMap_eq_nil_iff]
    intro i hi; split
    · rw [h.items i hi ‹_›]; rfl
    · rfl
  have hw : (s.hwq.flatMap fun (e : Nat × List Waiting) => e.2.filterMap fun w => if w.ctx = c then w.host.map (·, 0) else none) = [] := by
    rw [List.flatMap_eq_nil_iff]
    intro e he
    rw [List.filterMap_eq_nil_iff]
    intro w hw; split
    · rw [h.waiting e he w hw ‹_›]; rfl
    · rfl
  have hr : (s.queues.flatMap fun (e : Nat × HostQueue) => if ¬ e.2.priv ∧ e.2.ctx = c then (s.ringRefs e.1 e.2).map (·, 0) else []) = [] := by
    rw [List.flatMap_eq_nil_iff]
    intro e he
    rw [if_neg]
    rcases h.queues e he with h1 | h1 <;> simp [h1]
  have hout : s.outstanding c = [] := by unfold State.outstanding; rw [hi, hw, hr]; rfl
  have hin : ∀ e : Nat × Group, e ∈ ((s.groups.filter fun (e : Nat × Group) => e.2.ctx == c).map (·.1)).foldl (fun m g => Map.erase m g) s.groups ↔
      e ∈ s.groups ∧ e.2.ctx ≠ c := by
    intro e
    rw [mem_foldl_erase _ _ _ h.groups]
    constructor
    · rintro ⟨h1, h2⟩
      refine ⟨h1, fun h3 => h2 ?_⟩
      exact List.mem_map.2 ⟨e, List.mem_filter.2 ⟨h1, by simpa using h3⟩, rfl⟩
    · rintro ⟨h1, h2⟩
      refine ⟨h1, fun h3 => ?_⟩
      obtain ⟨x, hx, hxe⟩ := List.mem_map.1 h3
      obtain ⟨hx1, hx2⟩ := List.mem_filter.1 hx
      have e1 := mem_get?_of_distinct s.groups x.1 x.2 h.groups hx1
      have e2 := mem_get?_of_distinct s.groups e.1 e.2 h.groups h1
      rw [hxe, e2] at e1
      rw [Option.some.inj e1] at h2
      exact h2 (by simpa using hx2)
  unfold State.kill
  simp only [h.ctx, h.alive.1, Bool.false_eq_true, if_false, hout]
  have hq' : ((s.modCtx c fun C => { C with killed := true }).queues.filter fun (e : Nat × HostQueue) => !e.2.priv && e.2.ctx == c) = [] := hq
  rw [hq']
  simp only [List.foldl_nil]
  have hg' : (s.modCtx c fun C => { C with killed := true }).groups = s.groups := rfl
  rw [hg', hd]
  simp only
  unfold State.trimLines State.modPort
  refine ⟨_, _, ⟨?_, ?_, ?_, ?_, ?_⟩, rfl, rfl, rfl, rfl⟩
  · refine ⟨{ C with killed := true }, ?_, rfl⟩
    show Map.get? (Map.modify s.ctxs c _) c = _
    rw [Map.get?_modify, if_pos rfl]
    have := h.ctx; unfold State.ctx? at this; rw [this]; rfl
  · intro e he; exact ((hin e).1 he).2
  · intro i hi2
    have := (List.mem_filter.1 hi2).2; simpa using this
  · intro e he w hw2
    obtain ⟨x, hx, rfl⟩ := List.mem_map.1 he
    have := (List.mem_filter.1 hw2).2; simpa using this
  · intro g G hG hne
    have h1 := mem_of_get? s.groups g G hG
    show Map.get? _ g = some G
    rw [get?_foldl_erase _ _ _ _]
    · exact hG
    · intro h3
      have := mem_foldl_erase ((s.groups.filter fun (e : Nat × Group) => e.2.ctx == c).map (·.1)) (g, G) s.groups h.groups
      exact (this.1 ((hin (g, G)).2 ⟨h1, hne⟩)).2 h3
theorem State.logKill_mortal (s : State) (r : ErrRec) (C : Ctx) (hl : LogFits s) (h : Mortal s r.ctx C) :
    Logged s (s.logKill r) r ∧ Killed s (s.logKill r) r.ctx ∧ (s.logKill r).absent = none ∧
      ∃ (p : Port) (T : List HEntry) (f : Sparse Nat), p.homesOf s.port ∧ (s.logKill r).port = { p with table := T, lineSeq := f } := by
  obtain ⟨e, m, p, x, _, hs⟩ := s.log_shape r
  have hm : Mortal (s.log r) r.ctx C := by
    rw [hs]; exact ⟨h.ctx, h.alive, h.queues, h.items, h.waiting, h.groups⟩
  have hk : s.logKill r = (s.log r).kill r.ctx (s.edge.seq % 2 ^ 24) := by
    unfold State.logKill
    simp only [h.ctx, h.alive.1, h.alive.2.1, h.alive.2.2]
    simp
  obtain ⟨T, f, h1, h2, h3, h4, h5⟩ := (s.log r).kill_mortal r.ctx C (s.edge.seq % 2 ^ 24) hm
  have hlog := s.log_logged r hl
  rw [hk]
  refine ⟨⟨by rw [h2]; exact hlog.seq, by rw [h2]; exact hlog.count, by rw [h2]; exact hlog.msix, ?_, ?_⟩, ?_, h4.trans (s.log_absent r hl), (s.log r).port, T, f, s.log_port r, h5⟩
  · rw [h2, h3]; exact hlog.place
  · rw [h2, h3]; exact hlog.off
  · refine ⟨h1.ctx, h1.groups, h1.items, h1.waiting, fun g G hG hne => h1.others g G ?_ hne⟩
    unfold State.group? at hG ⊢; rw [s.log_groups r]; exact hG

end Sys2Proof.Machine
end

