-- ==== Sys2Proof/Laws/Trap.lean ====
section
/-! SUPPORT. Taking a trap, said once: what the delivery of the traps of one issue group leaves, and the instructions whose threads
all take a trap or all begin to wait. -/

namespace Sys2Proof.Map

theorem modify_id {α : Type} (m : Sparse α) (k : Nat) : modify m k (fun x => x) = m := by
  induction m with
  | nil => rfl
  | cons e m ih => obtain ⟨a, w⟩ := e; simp only [modify]; split <;> simp [ih]
theorem modify_modify {α : Type} (m : Sparse α) (k : Nat) (f h : α → α) : modify (modify m k f) k h = modify m k fun x => h (f x) := by
  induction m with
  | nil => rfl
  | cons e m ih => obtain ⟨a, w⟩ := e; simp only [modify]; split <;> simp_all [modify]

end Sys2Proof.Map

namespace Sys2Proof.Machine

theorem State.modG_id (s : State) (g : Nat) : s.modG g (fun G => G) = s := by
  unfold State.modG; rw [Map.modify_id]

/-! ## One delivery -/

/-- Threads changed one after another, each by its own trap. -/
def Group.modTraps (G : Group) (L : List (Nat × Trap)) (f : Trap → Thread → Thread) : Group :=
  L.foldl (fun G e => G.modT e.1 (f e.2)) G
theorem Group.modTraps_frame (L : List (Nat × Trap)) (f : Trap → Thread → Thread) : ∀ G : Group,
    ({ G.modTraps L f with threads := G.threads } : Group) = G := by
  induction L with
  | nil => intro G; rfl
  | cons e L ih =>
    intro G
    have h := ih (G.modT e.1 (f e.2))
    have := congrArg (fun (x : Group) => ({ x with threads := G.threads } : Group)) h
    exact this
theorem Group.modTraps_get (L : List (Nat × Trap)) (f : Trap → Thread → Thread) : ∀ (G : Group) (k : Nat), (L.map (·.1)).Nodup →
    Map.get? (G.modTraps L f).threads k = match L.find? (·.1 == k) with
      | some e => (Map.get? G.threads k).map (f e.2)
      | none => Map.get? G.threads k := by
  induction L with
  | nil => intro G k _; rfl
  | cons e L ih =>
    intro G k hn
    simp only [List.map_cons, List.nodup_cons] at hn
    have h := ih (G.modT e.1 (f e.2)) k hn.2
    unfold Group.modTraps at h ⊢
    rw [List.foldl_cons, h]
    simp only [Group.modT, Map.get?_modify, List.find?_cons]
    by_cases hk : e.1 = k
    · have hnone : L.find? (·.1 == k) = none := by
        rw [List.find?_eq_none]; intro x hx; simp only [beq_iff_eq]; intro e2
        exact hn.1 (List.mem_map.2 ⟨x, hx, by rw [hk]; exact e2⟩)
      subst hk
      simp [hnone]
    · have : (e.1 == k) = false := by simpa using hk
      simp only [this, if_neg (Ne.symm hk)]

/-- The threads of one delivery as they stood before it. -/
def Group.undoOf (G : Group) (L : List (Nat × Trap)) : List (Nat × Thread × Trap) :=
  L.filterMap fun e => (Map.get? G.threads e.1).map fun T => (e.1, T, e.2)
/-- The group after the entry of one delivery. -/
def Group.entering (G : Group) (w : Nat) (L : List (Nat × Trap)) (now : Nat) : Group :=
  let G' := G.modTraps L fun x T => T.enter x G.handlerAt (lanesOf G (L.map (·.1))) false now
  { G' with open_ := G'.open_ ++ [{ warp := w, tids := L.map (·.1), preempt := false, cycle := now, undo := G.undoOf L }] }

/-- A warp without an open or held delivery, threads outside any handler, a group with a handler: the delivery enters at once. -/
theorem deliverWarp_enters (t : State) (g w : Nat) (G : Group) (L : List (Nat × Trap)) (hG : t.group? g = some G) (hL : L ≠ [])
    (hmode : ∀ e ∈ L, G.inHandler e.1 = false) (hpre : ∀ e ∈ L, e.2.cause ≠ 0x20)
    (hopen : ∀ d ∈ G.open_, d.warp ≠ w) (hheld : ∀ d ∈ G.heldDel, d.warp ≠ w) (hh : G.handlerAt ≠ 0) :
    t.deliverWarp g w L = t.modG g fun _ => G.entering w L t.clock := by
  have h1 : (L.find? fun e => e.2.cls != 2 && G.inHandler e.1) = none := by
    rw [List.find?_eq_none]; intro e he; simp [hmode e he]
  have h2 : (L.filter fun e => G.inHandler e.1) = [] := by rw [List.filter_eq_nil_iff]; intro e he; simp [hmode e he]
  have h3 : (L.filter fun e => !G.inHandler e.1) = L := by rw [List.filter_eq_self]; intro e he; simp [hmode e he]
  have h4 : G.open_.find? (·.warp == w) = none := by rw [List.find?_eq_none]; intro d hd; simpa using hopen d hd
  have h5 : (G.heldDel.any (·.warp == w)) = false := by rw [List.any_eq_false]; intro d hd; simpa using hheld d hd
  have h6 : (L.any fun e => e.2.cause == 0x20) = false := by rw [List.any_eq_false]; intro e he; simpa using hpre e he
  have h7 : t.modG g (·.pend []) = t := State.modG_id t g
  unfold State.deliverWarp
  simp only [hG, h1, h2, h3, h4, h5, if_neg hL, h7]
  unfold State.enter
  simp only [hG, h6, Bool.false_eq_true, not_false_eq_true, and_true, if_neg hh]
  unfold State.modG
  congr 1
  have hx : ∀ (m : Sparse Group) (f h : Group → Group), Map.get? m g = some G → f G = h G → Map.modify m g f = Map.modify m g h := by
    intro m f h
    induction m with
    | nil => intro _ _; rfl
    | cons e m ih =>
      obtain ⟨a, x⟩ := e
      simp only [Map.get?, Map.modify]
      split
      · intro h1 h2; simp only [Option.some.injEq] at h1; subst h1; rw [h2]
      · intro h1 h2; rw [ih h1 h2]
  exact hx _ _ _ hG rfl

theorem Group.entering_frame (G : Group) (w : Nat) (L : List (Nat × Trap)) (now : Nat) :
    ({ G.entering w L now with threads := G.threads, open_ := G.open_ } : Group) = G := by
  have := Group.modTraps_frame L (fun x T => T.enter x G.handlerAt (lanesOf G (L.map (·.1))) false now) G
  exact congrArg (fun (x : Group) => ({ x with open_ := G.open_ } : Group)) this
theorem Group.entering_open (G : Group) (w : Nat) (L : List (Nat × Trap)) (now : Nat) :
    ∃ d, (G.entering w L now).open_ = G.open_ ++ [d] ∧ d.warp = w ∧ d.tids = L.map (·.1) ∧ d.preempt = false := by
  have := congrArg Group.open_ (Group.modTraps_frame L (fun x T => T.enter x G.handlerAt (lanesOf G (L.map (·.1))) false now) G)
  simp only at this
  exact ⟨{ warp := w, tids := L.map (·.1), preempt := false, cycle := now, undo := G.undoOf L }, by unfold Group.entering; simp only [this], rfl, rfl, rfl⟩

theorem Thread.enter_eq (T : Thread) (x : Trap) (h : Addr) (lanes now : Nat) (hx : x.cause ≠ 0x20) :
    T.enter x h (BitVec.ofNat 32 lanes) false now = T.entered x T.pc h lanes now := by
  simp only [Thread.enter, Thread.entered, causeWord, if_neg hx, Bool.false_eq_true, if_false, Nat.add_zero, Nat.mul_comm]

/-- Part of an issue group in its handlers: what `Enters` says of the warps that were delivered so far. -/
structure Entering (s t : State) (rs : List Ref) (trap : Ref → Trap) (done : List (Nat × Nat)) : Prop where
  threads : ∀ r ∈ rs, t.thread? r.g r.t = some (if (r.g, r.T.warp) ∈ done then r.T.entered (trap r) r.T.pc r.G.handlerAt
    ((mates rs r).foldl (fun x q => x ||| 2 ^ q.T.lane) 0) s.clock else r.T)
  others : ∀ g k, (∀ r ∈ rs, ¬ (r.g = g ∧ r.t = k)) → t.thread? g k = s.thread? g k
  groups : ∀ g G, s.group? g = some G → ∃ G' l, t.group? g = some G' ∧ ({ G' with threads := G.threads, open_ := G.open_ } : Group) = G ∧
    G'.open_ = G.open_ ++ l ∧ (∀ r ∈ rs, r.g = g → (g, r.T.warp) ∈ done → ∃ d ∈ l, d.warp = r.T.warp) ∧
    ∀ d ∈ l, (g, d.warp) ∈ done ∧ ∃ r ∈ rs, r.g = g ∧ d.warp = r.T.warp ∧ d.tids = (mates rs r).map (·.t) ∧ d.preempt = false
  noMore : ∀ g, s.group? g = none → t.group? g = none
  rest : ({ t with groups := s.groups } : State) = s

theorem lanes_fold (f : Nat → Nat) (rs : List Ref) (x : Nat) (h : ∀ r ∈ rs, f r.t = 2 ^ r.T.lane) :
    ((rs.map (·.t)).map f).foldl (· ||| ·) x = rs.foldl (fun x q => x ||| 2 ^ q.T.lane) x := by
  induction rs generalizing x with
  | nil => rfl
  | cons r rs ih =>
    simp only [List.map_cons, List.foldl_cons]
    rw [h r (by simp), ih _ fun q hq => h q (by simp [hq])]

theorem Entering.step {s t : State} {rs : List Ref} {trap : Ref → Trap} {done : List (Nat × Nat)} (h : Entering s t rs trap done)
    (hmem : ∀ r ∈ rs, (∃ G, s.group? r.g = some G ∧ ({ G with trace := r.G.trace } : Group) = r.G) ∧ s.thread? r.g r.t = some r.T) (hnd : (rs.map fun r => (r.g, r.t)).Nodup)
    (hcan : CanTrap rs) (hpre : ∀ r ∈ rs, (trap r).cause ≠ 0x20) (r0 : Ref) (hr0 : r0 ∈ rs) (hnew : (r0.g, r0.T.warp) ∉ done) :
    Entering s (t.deliverWarp r0.g r0.T.warp ((mates rs r0).map fun r => (r.t, trap r))) rs trap ((r0.g, r0.T.warp) :: done) := by
  have hclock : t.clock = s.clock := by have := congrArg State.clock h.rest; exact this
  obtain ⟨G0, hG0, hE0⟩ := (hmem r0 hr0).1
  obtain ⟨G', l, hG', hframe, hopen', hl1, hl2⟩ := h.groups r0.g G0 hG0
  have hsame : G0.handlerAt = r0.G.handlerAt ∧ G0.open_ = r0.G.open_ ∧ G0.heldDel = r0.G.heldDel := by
    rw [← hE0]; exact ⟨rfl, rfl, rfl⟩
  have hm : ∀ r ∈ mates rs r0, r ∈ rs ∧ r.g = r0.g ∧ r.T.warp = r0.T.warp := by
    intro r hr; have := List.mem_filter.1 hr; simpa using this
  have hget : ∀ r ∈ mates rs r0, Map.get? G'.threads r.t = some r.T := by
    intro r hr
    obtain ⟨h1, h2, h3⟩ := hm r hr
    have := h.threads r h1
    rw [h2, h3, if_neg hnew] at this
    unfold State.thread? at this
    rw [hG'] at this; exact this
  have hhandler : G'.handlerAt = r0.G.handlerAt := by
    rw [← hsame.1]
    have e1 := congrArg Group.handler hframe
    have e2 := congrArg Group.lr hframe
    simp only at e1 e2
    unfold Group.handlerAt; rw [e1, e2]
  have hheld : G'.heldDel = r0.G.heldDel := by rw [← hsame.2.2]; have := congrArg Group.heldDel hframe; exact this
  obtain ⟨hc1, hc2, hc3, hc4⟩ := hcan r0 hr0
  have hne : G'.handlerAt ≠ 0 := by
    rw [hhandler]; unfold Group.handlerAt
    split
    · assumption
    · rcases hc2 with h | h
      · exact absurd h ‹_›
      · exact h
  have hmates : ∀ r ∈ mates rs r0, mates rs r = mates rs r0 := by
    intro r hr
    obtain ⟨h1, h2, h3⟩ := hm r hr
    unfold mates; rw [h2, h3]
  have htids : (((mates rs r0).map fun r => (r.t, trap r)).map (·.1)) = (mates rs r0).map (·.t) := by simp [List.map_map, Function.comp_def]
  have hnodup : (((mates rs r0).map fun r => (r.t, trap r)).map (·.1)).Nodup := by
    rw [htids]
    have h1 := nodup_filter_keys (fun q => decide (q.g = r0.g ∧ q.T.warp = r0.T.warp)) rs hnd
    have h2 : ((mates rs r0).map fun r => (r.g, r.t)) = ((mates rs r0).map (·.t)).map fun t => (r0.g, t) := by
      rw [List.map_map]; apply List.map_congr_left; intro r hr; simp [(hm r hr).2.1]
    have h3 : ((mates rs r0).map fun r => (r.g, r.t)).Nodup := h1
    rw [h2] at h3
    exact List.Nodup.of_map _ h3
  have hr0m : r0 ∈ mates rs r0 := List.mem_filter.2 ⟨hr0, by simp⟩
  rw [deliverWarp_enters t r0.g r0.T.warp G' _ hG' (by intro e; have := List.map_eq_nil_iff.1 e; rw [this] at hr0m; cases hr0m)
    (by
      intro e he; obtain ⟨r, hr, rfl⟩ := List.mem_map.1 he
      simp [Group.inHandler, hget r hr, (hcan r (hm r hr).1).1])
    (by intro e he; obtain ⟨r, hr, rfl⟩ := List.mem_map.1 he; exact hpre r (hm r hr).1)
    (by
      intro d hd; rw [hopen', hsame.2.1] at hd
      rcases List.mem_append.1 hd with hd | hd
      · exact hc3 d hd
      · intro e; exact hnew (e ▸ (hl2 d hd).1))
    (by rw [hheld]; exact hc4) hne]
  have hgroup : ∀ g, (t.modG r0.g fun _ => G'.entering r0.T.warp ((mates rs r0).map fun r => (r.t, trap r)) t.clock).group? g =
      if g = r0.g then some (G'.entering r0.T.warp ((mates rs r0).map fun r => (r.t, trap r)) t.clock) else t.group? g := by
    intro g; rw [State.group?_modG, hG']; rfl
  have hthr : ∀ g k, (t.modG r0.g fun _ => G'.entering r0.T.warp ((mates rs r0).map fun r => (r.t, trap r)) t.clock).thread? g k =
      if g = r0.g then (match ((mates rs r0).map fun r => (r.t, trap r)).find? (·.1 == k) with
        | some e => (Map.get? G'.threads k).map fun T => T.enter e.2 G'.handlerAt
            (lanesOf G' (((mates rs r0).map fun r => (r.t, trap r)).map (·.1))) false t.clock
        | none => Map.get? G'.threads k) else t.thread? g k := by
    intro g k
    unfold State.thread?
    rw [hgroup]
    split
    · subst_vars
      exact Group.modTraps_get _ _ G' k hnodup
    · rfl
  have hlanes : lanesOf G' (((mates rs r0).map fun r => (r.t, trap r)).map (·.1)) =
      BitVec.ofNat 32 ((mates rs r0).foldl (fun x q => x ||| 2 ^ q.T.lane) 0) := by
    rw [htids]; unfold lanesOf
    rw [lanes_fold _ _ _ fun r hr => by simp [hget r hr]]
  have hfind : ∀ r ∈ mates rs r0, ((mates rs r0).map fun r => (r.t, trap r)).find? (·.1 == r.t) = some (r.t, trap r) := by
    intro r hr
    have hin : (r.t, trap r) ∈ (mates rs r0).map fun r => (r.t, trap r) := List.mem_map.2 ⟨r, hr, rfl⟩
    cases hf : ((mates rs r0).map fun r => (r.t, trap r)).find? (·.1 == r.t) with
    | none => rw [List.find?_eq_none] at hf; have := hf _ hin; simp at this
    | some e =>
      have he := List.mem_of_find?_eq_some hf
      have hk := List.find?_some hf
      simp only [beq_iff_eq] at hk
      exact congrArg some (List.inj_on_of_nodup_map hnodup he hin hk)
  have hfindno : ∀ k, (∀ r ∈ mates rs r0, r.t ≠ k) → ((mates rs r0).map fun r => (r.t, trap r)).find? (·.1 == k) = none := by
    intro k hk
    rw [List.find?_eq_none]; intro e he; obtain ⟨r, hr, rfl⟩ := List.mem_map.1 he; simpa using hk r hr
  refine ⟨?_, ?_, ?_, ?_, ?_⟩
  · intro r hr
    rw [hthr]
    by_cases hg : r.g = r0.g
    · rw [if_pos hg]
      have hGr : r.G.handlerAt = r0.G.handlerAt := by
        obtain ⟨G1, h1, h2⟩ := (hmem r hr).1
        rw [hg, hG0] at h1
        cases h1
        rw [← h2, ← hE0]; rfl
      by_cases hw : r.T.warp = r0.T.warp
      · have hrm : r ∈ mates rs r0 := List.mem_filter.2 ⟨hr, by simp [hg, hw]⟩
        rw [hfind r hrm]
        simp only
        rw [hget r hrm, hlanes, Option.map_some, Thread.enter_eq _ _ _ _ _ (hpre r hr), hhandler, if_pos (by simp [hg, hw]),
          hmates r hrm, hclock, hGr]
      · have hno : ((mates rs r0).map fun r => (r.t, trap r)).find? (·.1 == r.t) = none := by
          apply hfindno
          intro q hq e
          obtain ⟨h1, h2, h3⟩ := hm q hq
          have : q = r := List.inj_on_of_nodup_map hnd h1 hr (by simp [h2, hg, e])
          subst this; exact hw h3
        rw [hno]
        simp only
        have := h.threads r hr
        unfold State.thread? at this
        rw [hg, hG', ] at this
        simp only [Option.bind_some] at this
        rw [this]
        simp [hg, hw]
    · rw [if_neg hg, h.threads r hr]
      simp [hg]
  · intro g k hk
    rw [hthr]
    split
    · subst_vars
      have hno : ((mates rs r0).map fun r => (r.t, trap r)).find? (·.1 == k) = none := by
        apply hfindno
        intro q hq e
        exact hk q (hm q hq).1 ⟨(hm q hq).2.1, e⟩
      rw [hno]
      have := h.others r0.g k hk
      unfold State.thread? at this ⊢
      rw [hG'] at this
      exact this
    · exact h.others g k hk
  · intro g G hG
    rw [hgroup]
    by_cases hg : g = r0.g
    · subst hg
      have hGr : G = G0 := by rw [hG0] at hG; exact (Option.some.inj hG).symm
      subst hGr
      obtain ⟨d, hd1, hd2, hd3, hd4⟩ := Group.entering_open G' r0.T.warp ((mates rs r0).map fun r => (r.t, trap r)) t.clock
      refine ⟨_, l ++ [d], if_pos rfl, ?_, ?_, ?_, ?_⟩
      · have e1 := congrArg (fun (x : Group) => ({ x with threads := G.threads, open_ := G.open_ } : Group))
          (Group.entering_frame G' r0.T.warp ((mates rs r0).map fun r => (r.t, trap r)) t.clock)
        exact e1.trans hframe
      · rw [hd1, hopen', List.append_assoc]
      · intro r hr hrg hin
        rcases List.mem_cons.1 hin with e | hin
        · exact ⟨d, by simp, by rw [hd2]; exact (Prod.mk.inj e).2.symm⟩
        · obtain ⟨x, hx, hx'⟩ := hl1 r hr hrg hin
          exact ⟨x, by simp [hx], hx'⟩
      · intro x hx
        rcases List.mem_append.1 hx with hx | hx
        · obtain ⟨h1, h2⟩ := hl2 x hx
          exact ⟨by simp [h1], h2⟩
        · simp only [List.mem_singleton] at hx; subst hx
          exact ⟨by simp [hd2], r0, hr0, rfl, hd2, by rw [hd3, htids], hd4⟩
    · rw [if_neg hg]
      obtain ⟨H, m, h1, h2, h3, h4, h5⟩ := h.groups g G hG
      refine ⟨H, m, h1, h2, h3, ?_, ?_⟩
      · intro r hr hrg hin
        rcases List.mem_cons.1 hin with e | hin
        · exact absurd (Prod.mk.inj e).1 hg
        · exact h4 r hr hrg hin
      · intro d hd; obtain ⟨a, b⟩ := h5 d hd; exact ⟨by simp [a], b⟩
  · intro g hg
    rw [hgroup]
    by_cases e : g = r0.g
    · subst e; rw [hG0] at hg; cases hg
    · rw [if_neg e]; exact h.noMore g hg
  · rw [← h.rest]; rfl

theorem nodup_eraseDups' {α : Type} [BEq α] [LawfulBEq α] (n : Nat) : ∀ l : List α, l.length ≤ n → l.eraseDups.Nodup := by
  induction n with
  | zero => intro l h; have : l = [] := List.eq_nil_of_length_eq_zero (by omega); subst this; simp
  | succ n ih =>
    intro l h
    cases l with
    | nil => simp
    | cons a l =>
      rw [List.eraseDups_cons, List.nodup_cons]
      have hl : (l.filter fun b => !(b == a)).length ≤ l.length := List.length_filter_le _ _
      refine ⟨?_, ih _ (by simp only [List.length_cons] at h; omega)⟩
      rw [List.mem_eraseDups]; simp

/-- The delivery of the traps of an issue group whose threads can trap at once (R432, R433). -/
theorem deliver_enters (s : State) (rs : List Ref) (trap : Ref → Trap)
    (hmem : ∀ r ∈ rs, (∃ G, s.group? r.g = some G ∧ ({ G with trace := r.G.trace } : Group) = r.G) ∧ s.thread? r.g r.t = some r.T) (hnd : (rs.map fun r => (r.g, r.t)).Nodup)
    (hcan : CanTrap rs) (hpre : ∀ r ∈ rs, (trap r).cause ≠ 0x20) :
    Enters s (s.deliver (rs.map fun r => (r.g, r.t, trap r))) rs trap fun r => r.T.pc := by
  let key (e : Nat × Nat × Trap) : Nat × Nat := (e.1, match s.thread? e.1 e.2.1 with | some T => T.warp | none => 0)
  have hkey : ∀ r ∈ rs, key (r.g, r.t, trap r) = (r.g, r.T.warp) := by
    intro r hr; simp [key, (hmem r hr).2]
  have hkeys : (rs.map fun r => (r.g, r.t, trap r)).map key = rs.map fun r => (r.g, r.T.warp) := by
    rw [List.map_map]; exact List.map_congr_left fun r hr => hkey r hr
  have hsub : ∀ r0 ∈ rs, ((rs.map fun r => (r.g, r.t, trap r)).filter (key · == (r0.g, r0.T.warp))).map (·.2) =
      (mates rs r0).map fun r => (r.t, trap r) := by
    intro r0 _
    rw [List.filter_map, List.map_map]
    have : rs.filter ((key · == (r0.g, r0.T.warp)) ∘ fun r => (r.g, r.t, trap r)) = mates rs r0 := by
      unfold mates
      apply List.filter_congr
      intro r hr
      simp only [Function.comp_def, hkey r hr]
      rw [Bool.eq_iff_iff]; simp
    rw [this]; rfl
  have hloop : ∀ (K : List (Nat × Nat)) (t : State) (done : List (Nat × Nat)), K.Nodup → (∀ k ∈ K, k ∉ done ∧ ∃ r ∈ rs, k = (r.g, r.T.warp)) →
      Entering s t rs trap done →
      Entering s (K.foldl (fun st k => st.deliverWarp k.1 k.2 (((rs.map fun r => (r.g, r.t, trap r)).filter (key · == k)).map (·.2))) t) rs trap
        (K.reverse ++ done) := by
    intro K
    induction K with
    | nil => intro t done _ _ h; simpa using h
    | cons k K ih =>
      intro t done hn hk h
      obtain ⟨h1, r0, hr0, rfl⟩ := hk k (by simp)
      rw [List.nodup_cons] at hn
      have hs := h.step hmem hnd hcan hpre r0 hr0 h1
      rw [← hsub r0 hr0] at hs
      have := ih _ _ hn.2 (by
        intro q hq
        refine ⟨?_, (hk q (by simp [hq])).2⟩
        intro hin
        rcases List.mem_cons.1 hin with e | hin
        · subst e; exact hn.1 hq
        · exact (hk q (by simp [hq])).1 hin) hs
      simpa [List.append_assoc] using this
  have hstart : Entering s s rs trap [] := by
    refine ⟨fun r hr => by simpa using (hmem r hr).2, fun _ _ _ => rfl, fun g G hG => ⟨G, [], hG, rfl, by simp, by simp, by simp⟩, fun _ h => h, rfl⟩
  have hend := hloop ((rs.map fun r => (r.g, r.T.warp)).eraseDups) s [] (nodup_eraseDups' _ _ (Nat.le_refl _)) (by
    intro k hk
    obtain ⟨r, hr, rfl⟩ := List.mem_map.1 (List.mem_eraseDups.1 hk)
    exact ⟨by simp, r, hr, rfl⟩) hstart
  have hdel : s.deliver (rs.map fun r => (r.g, r.t, trap r)) = ((rs.map fun r => (r.g, r.T.warp)).eraseDups).foldl
      (fun st k => st.deliverWarp k.1 k.2 (((rs.map fun r => (r.g, r.t, trap r)).filter (key · == k)).map (·.2))) s := by
    rw [← hkeys]; rfl
  rw [hdel]
  have hall : ∀ r ∈ rs, (r.g, r.T.warp) ∈ ((rs.map fun r => (r.g, r.T.warp)).eraseDups).reverse ++ [] := by
    intro r hr
    simp only [List.append_nil, List.mem_reverse, List.mem_eraseDups]
    exact List.mem_map.2 ⟨r, hr, rfl⟩
  refine ⟨?_, hend.others, ?_, hend.noMore, hend.rest⟩
  · intro r hr
    rw [hend.threads r hr, if_pos (hall r hr), (hmem r hr).2]; rfl
  · intro g G hG
    obtain ⟨G', l, h1, h2, h3, h4, h5⟩ := hend.groups g G hG
    refine ⟨G', l, h1, h2, h3, ?_, fun d hd => (h5 d hd).2⟩
    intro r hr hg
    subst hg
    exact h4 r hr rfl (hall r hr)

/-! ## Instructions whose threads all trap, or all wait -/

/-- The volatility of an operand read changes the trace of one group and nothing else (R199). -/
theorem State.volAt_thread (s : State) (g vol h k : Nat) : (s.volAt g vol).thread? h k = s.thread? h k := by
  unfold State.volAt
  split
  · rfl
  · unfold State.thread?
    rw [State.group?_modG]
    split
    · subst_vars; cases s.group? h <;> rfl
    · rfl
theorem State.volAt_group (s : State) (g vol h : Nat) : (s.volAt g vol).group? h =
    (s.group? h).map fun G => if vol ≠ 0 ∧ h = g then G.vols vol else G := by
  unfold State.volAt
  split
  · rename_i h0; simp [h0]
  · rename_i h0
    rw [State.group?_modG]
    split
    · subst_vars; simp [h0]
    · rename_i h1; simp [h1]
theorem State.volAt_rest (s : State) (g vol : Nat) : ({ s.volAt g vol with groups := s.groups } : State) = s := by
  unfold State.volAt; split <;> rfl
theorem State.volAt_clock (s : State) (g vol : Nat) : (s.volAt g vol).clock = s.clock := by
  have := congrArg State.clock (s.volAt_rest g vol); exact this
theorem State.volAt_next (s : State) (g vol : Nat) : (s.volAt g vol).next = s.next := by
  have := congrArg State.next (s.volAt_rest g vol); exact this

theorem stir_append (vol : Nat) (s : State) (p l : List Ref) : stir vol s (p ++ l) = stir vol (stir vol s p) l := List.foldl_append
theorem stir_thread (vol h k : Nat) (rs : List Ref) : ∀ s : State, (stir vol s rs).thread? h k = s.thread? h k := by
  induction rs with
  | nil => intro s; rfl
  | cons r rs ih => intro s; exact (ih _).trans (s.volAt_thread r.g vol h k)
theorem stir_group (vol h : Nat) (rs : List Ref) : ∀ s : State, ∀ G, s.group? h = some G →
    ∃ H, (stir vol s rs).group? h = some H ∧ ({ H with trace := G.trace } : Group) = G := by
  induction rs with
  | nil => intro s G hG; exact ⟨G, hG, rfl⟩
  | cons r rs ih =>
    intro s G hG
    have h1 := s.volAt_group r.g vol h
    rw [hG, Option.map_some] at h1
    obtain ⟨H, h2, h3⟩ := ih _ _ h1
    refine ⟨H, h2, ?_⟩
    have h4 := congrArg (fun (x : Group) => ({ x with trace := G.trace } : Group)) h3
    refine Eq.trans h4 ?_
    split <;> rfl
theorem stir_rest (vol : Nat) (rs : List Ref) : ∀ s : State, ({ stir vol s rs with groups := s.groups } : State) = s := by
  induction rs with
  | nil => intro s; rfl
  | cons r rs ih =>
    intro s
    have h1 := congrArg (fun (x : State) => ({ x with groups := s.groups } : State)) (ih (s.volAt r.g vol))
    exact Eq.trans h1 (s.volAt_rest r.g vol)

/-- Outcomes that are all traps change nothing before the delivery but the volatility of the operands read. -/
theorem applyOut_traps (len order vol : Nat) (trap : Ref → Trap) (l : List Ref) (ts : List (Nat × Nat × Trap)) : ∀ s : State,
    (l.map fun r => (r, TOut.trap (trap r))).foldl (applyOut len order vol) (s, ts) = (stir vol s l, ts ++ l.map fun r => (r.g, r.t, trap r)) := by
  induction l generalizing ts with
  | nil => intro s; simp [stir]
  | cons r l ih =>
    intro s
    simp only [List.map_cons, List.foldl_cons]
    have : applyOut len order vol (s, ts) (r, TOut.trap (trap r)) = (s.volAt r.g vol, ts ++ [(r.g, r.t, trap r)]) := rfl
    rw [this, ih]; simp [stir]
/-- `issueAll` where every thread executes: what `fn` leaves of the state and of the threads is entered, and the traps are delivered. -/
theorem issueAll_executing (op : Nat) (f : Full) (fn : State → List Ref → State × List (Ref × TOut)) (s : State) (is : Issue) (rs : List Ref)
    (hop : op ≠ 0x0A6) (hi : Issued s is rs) (ha : Admits op f rs) (hg : executing f rs = rs) :
    issueAll op f fn s = (let p := (fn s rs).2.foldl (applyOut is.len s.next (clockVol op f)) ((fn s rs).1, [])
      finish (p.1.deliver p.2)) := by
  have hall : ∀ r ∈ rs, r.T.guard f.g f.gn = true := by
    intro r hr; rw [← hg] at hr; exact (List.mem_filter.1 hr).2
  have hno : (rs.filter fun r => !(r.T.guard f.g f.gn)) = [] := by
    rw [List.filter_eq_nil_iff]; intro r hr; simp [hall r hr]
  have hl := gate_lists (fun r => r.T.guard f.g f.gn) rs
  unfold issueAll
  simp only [hi.issue, hi.refs, gates_of_admits op f rs hop ha, hl.1, hl.2.1, hl.2.2, hno, List.map_nil, List.foldl_nil]
  unfold executing at hg
  rw [hg]; rfl
/-- An instruction whose threads all take a trap at it. -/
theorem issueAll_traps (op : Nat) (f : Full) (fn : State → List Ref → State × List (Ref × TOut)) (s : State) (is : Issue) (rs : List Ref)
    (trap : Ref → Trap) (hop : op ≠ 0x0A6) (hi : Issued s is rs) (ha : Admits op f rs) (hg : executing f rs = rs) (hcan : CanTrap rs)
    (hpre : ∀ r ∈ rs, (trap r).cause ≠ 0x20) (hfn : fn s rs = (s, rs.map fun r => (r, .trap (trap r)))) :
    ∃ t, issueAll op f fn s = .next t ∧ Enters (stir (clockVol op f) s rs) t rs trap fun r => r.T.pc := by
  have he := deliver_enters (stir (clockVol op f) s rs) rs trap (fun r hr => ⟨by
    obtain ⟨H, h1, h2⟩ := stir_group (clockVol op f) r.g rs s r.G (hi.mem r hr).1
    exact ⟨H, h1, h2⟩, by rw [stir_thread]; exact (hi.mem r hr).2⟩) hi.nodup hcan hpre
  refine ⟨_, ?_, he⟩
  rw [issueAll_executing op f fn s is rs hop hi ha hg, hfn]
  simp only
  rw [applyOut_traps, List.nil_append]
  apply finish_of_present
  have := congrArg State.absent he.rest
  exact this.trans ((congrArg State.absent (stir_rest (clockVol op f) rs s)).trans hi.present)
theorem trapsOn_each {i : Instr} {op : Nat} {f : Full} {plan : State → Ref → TOut} {bad : State → Ref → Prop} {trap : State → Ref → Trap}
    (hexec : Sys2Proof.Machine.exec i = issueEach op f plan) (hop : op ≠ 0x0A6) (hpre : ∀ s r, bad s r → (trap s r).cause ≠ 0x20)
    (hplan : ∀ s r, bad s r → plan s r = .trap (trap s r)) : TrapsOn i op f bad trap := by
  intro s is rs hi ha hg hcan hbad
  rw [hexec]
  refine issueAll_traps op f _ s is rs (trap s) hop hi ha hg hcan (fun r hr => hpre s r (hbad r hr)) ?_
  exact congrArg (Prod.mk s) (List.map_congr_left fun r hr => by rw [hplan s r (hbad r hr)])
theorem trapsOn_turn {i : Instr} {op : Nat} {f : Full} {act : State → Ref → State × TOut} {bad : State → Ref → Prop} {trap : State → Ref → Trap}
    (hexec : Sys2Proof.Machine.exec i = issueTurn op f act) (hop : op ≠ 0x0A6) (hpre : ∀ s r, bad s r → (trap s r).cause ≠ 0x20)
    (hact : ∀ s r, bad s r → act s r = (s, .trap (trap s r))) : TrapsOn i op f bad trap := by
  intro s is rs hi ha hg hcan hbad
  rw [hexec]
  refine issueAll_traps op f _ s is rs (trap s) hop hi ha hg hcan (fun r hr => hpre s r (hbad r hr)) ?_
  have : ∀ (l : List Ref) (acc : List (Ref × TOut)), (∀ r ∈ l, bad s r) → l.foldl (fun (acc : State × List (Ref × TOut)) r =>
      ((act acc.1 r).1, acc.2 ++ [(r, (act acc.1 r).2)])) (s, acc) = (s, acc ++ l.map fun r => (r, TOut.trap (trap s r))) := by
    intro l
    induction l with
    | nil => intro acc _; simp
    | cons r l ih =>
      intro acc h
      simp only [List.foldl_cons, hact s r (h r (by simp))]
      rw [ih _ fun q hq => h q (by simp [hq])]; simp
  simpa using this rs [] hbad

theorem Halts.volAt {s t : State} {p : List Ref} {c : Ref → Cond} (h : Halts s t p c) (g vol : Nat) :
    Halts (s.volAt g vol) (t.volAt g vol) p c := by
  refine ⟨?_, ?_, ?_, ?_, ?_, ?_⟩
  · intro k r hk; rw [t.volAt_thread, s.volAt_thread, s.volAt_clock, s.volAt_next]; exact h.threads k r hk
  · intro a k hk; rw [t.volAt_thread, s.volAt_thread]; exact h.others a k hk
  · intro a G hG
    rw [s.volAt_group] at hG
    obtain ⟨G0, h0, rfl⟩ := Option.map_eq_some_iff.1 hG
    obtain ⟨G', h1, h2⟩ := h.groups a G0 h0
    refine ⟨_, by rw [t.volAt_group, h1]; rfl, ?_⟩
    dsimp only
    split
    · exact congrArg (fun (x : Group) => x.vols vol) h2
    · exact h2
  · intro a ha; rw [s.volAt_group, Option.map_eq_none_iff] at ha; rw [t.volAt_group, h.noMore a ha]; rfl
  · rw [t.volAt_next, s.volAt_next, h.next]
  · have h1 := congrArg (fun (x : State) => x.volAt g vol) h.rest
    refine Eq.trans ?_ h1
    unfold State.volAt; split <;> rfl
/-- Threads that begin to wait, in order. -/
theorem waits_halts (c : Ref → Cond) (len order vol : Nat) (s : State) (l : List Ref) : ∀ (p : List Ref) (t : State),
    ((p ++ l).map fun r => (r.g, r.t)).Nodup → Halts (stir vol s p) t p c →
    ∃ u, (l.map fun r => (r, TOut.wait (c r))).foldl (applyOut len order vol) (t, []) = (u, []) ∧ Halts (stir vol s (p ++ l)) u (p ++ l) c := by
  induction l with
  | nil => intro p t _ h; exact ⟨t, rfl, by simpa using h⟩
  | cons r l ih =>
    intro p t hn h
    suffices hstep : Halts (stir vol s (p ++ [r])) ((t.volAt r.g vol).waitOn r.g r.t (c r)) (p ++ [r]) c by
      obtain ⟨u, h1, h2⟩ := ih (p ++ [r]) _ (by simpa using hn) hstep
      exact ⟨u, by simpa [applyOut] using h1, by simpa using h2⟩
    replace h := h.volAt r.g vol
    rw [stir_append]
    change Halts ((stir vol s p).volAt r.g vol) _ _ _
    generalize (stir vol s p).volAt r.g vol = s at h ⊢
    generalize t.volAt r.g vol = t at h ⊢
    have hclock : t.clock = s.clock := by have := congrArg State.clock h.rest; exact this
    have hout : ∀ q ∈ p, ¬ (q.g = r.g ∧ q.t = r.t) := by
      intro q hq e
      rw [List.map_append, List.nodup_append] at hn
      exact hn.2.2 (q.g, q.t) (List.mem_map.2 ⟨q, hq, rfl⟩) (r.g, r.t) (List.mem_map.2 ⟨r, by simp, rfl⟩) (by simp [e])
    have hthr : ∀ g k, (t.waitOn r.g r.t (c r)).thread? g k =
        if g = r.g ∧ k = r.t then (t.thread? r.g r.t).map fun T => T.waitOn (c r) t.clock t.next else t.thread? g k :=
      fun g k => State.thread?_modT t r.g r.t g k _
    have hgrp : ∀ g, (t.waitOn r.g r.t (c r)).group? g = if g = r.g then (t.group? r.g).map (·.modT r.t fun T => T.waitOn (c r) t.clock t.next) else t.group? g :=
      fun g => State.group?_modG t r.g g _
    · refine ⟨?_, ?_, ?_, ?_, ?_, ?_⟩
      · intro k q hk
        rw [hthr]
        by_cases hlt : k < p.length
        · rw [List.getElem?_append_left hlt] at hk
          have hq : q ∈ p := List.mem_of_getElem? hk
          rw [if_neg (hout q hq)]; exact h.threads k q hk
        · rw [List.getElem?_append_right (by omega)] at hk
          have hz : k - p.length = 0 := by
            by_contra hne
            have : 1 ≤ k - p.length := by omega
            rw [List.getElem?_eq_none (by simpa using this)] at hk; cases hk
          rw [hz] at hk; simp only [List.getElem?_cons_zero, Option.some.injEq] at hk; subst hk
          rw [if_pos ⟨rfl, rfl⟩, h.others r.g r.t hout, h.next, hclock]
          have : k = p.length := by omega
          rw [this]
      · intro g k hk
        rw [hthr, if_neg (by have := hk r (by simp); tauto)]
        exact h.others g k fun q hq => hk q (by simp [hq])
      · intro g G hG
        obtain ⟨G', h1, h2⟩ := h.groups g G hG
        rw [hgrp]
        by_cases hg : g = r.g
        · subst hg; exact ⟨G'.modT r.t fun T => T.waitOn (c r) t.clock t.next, by rw [if_pos rfl, h1]; rfl, h2⟩
        · exact ⟨G', by rw [if_neg hg, h1], h2⟩
      · intro g hg
        rw [hgrp]
        by_cases e : g = r.g
        · subst e; simp [h.noMore _ hg]
        · simp [e, h.noMore _ hg]
      · have : (t.waitOn r.g r.t (c r)).next = t.next + 1 := rfl
        rw [this, h.next]; simp [Nat.add_assoc]
      · rw [← h.rest]; rfl
/-- An instruction whose threads all begin to wait. -/
theorem issueAll_halts (op : Nat) (f : Full) (fn : State → List Ref → State × List (Ref × TOut)) (s : State) (is : Issue) (rs : List Ref)
    (u : State) (c : Ref → Cond) (hop : op ≠ 0x0A6) (hi : Issued s is rs) (ha : Admits op f rs) (hg : executing f rs = rs)
    (hu : u.absent = none) (hfn : fn s rs = (u, rs.map fun r => (r, .wait (c r)))) :
    ∃ t, issueAll op f fn s = .next t ∧ Halts (stir (clockVol op f) u rs) t rs c := by
  obtain ⟨t, h1, h2⟩ := waits_halts c is.len s.next (clockVol op f) u rs [] u (by simpa using hi.nodup)
    ⟨by simp, fun _ _ _ => rfl, fun g G hG => ⟨G, hG, rfl⟩, fun _ h => h, rfl, rfl⟩
  simp only [List.nil_append] at h2
  refine ⟨t, ?_, h2⟩
  rw [issueAll_executing op f fn s is rs hop hi ha hg, hfn]
  simp only [h1]
  apply finish_of_present
  have := congrArg State.absent h2.rest
  exact this.trans ((congrArg State.absent (stir_rest (clockVol op f) rs u)).trans hu)

end Sys2Proof.Machine
end

