-- ==== Sys2Proof/Tests/Slice0.lean ====
section
/-! SUPPORT. Tests of the author: words of the spec's own worked encodings, ill-formed terms, results of worked cases and of hand
calculation from the rules, and for each statement a state that meets its premises. -/

open Sys2Proof Sys2Proof.Machine

set_option maxRecDepth 100000

/-! ## Decoding: words written out bit by bit in the spec's worked cases -/

/-- Fields of a full instruction with everything that is not named at its default: no guard, `PD` 7, the rest 0. -/
def Test.full : Full := { g := 7, gn := false, d := 0, a := 0, b := .num 0, c := 0, ty := .b32, mod := 0, pd := 7, ext := 0, s := false }
def Test.none_ : BForm := .num 0xF0

/-- R263, first worked case: `p3? iadd.s32 v1, v2, v3`. -/
theorem test_decode_iadd : decode false 0x81009802 0x03808001 0 =
    .ok (.iadd { Test.full with g := 3, d := 1, a := 2, b := .num 3, ty := .s32 }) := rfl
/-- R259: `iadd.s32 v5, v5, 12`. -/
theorem test_decode_compact : decode true 0x10C05708 0 0 = .ok (.iaddCompact { sub := 0, i := true, a := 12, d := 5, gn := false, g := 7 }) := rfl
/-- R260: the pair of `iadd.s32 v5, v5, v9` and `fmul.f32 v6, v6, v10`. -/
theorem test_decode_pair : decode false 0x00905709 0x00A06760 0 = .ok (.compactPair
    ⟨2, { sub := 0, i := false, a := 9, d := 5, gn := false, g := 7 }⟩ ⟨24, { sub := 0, i := false, a := 10, d := 6, gn := false, g := 7 }⟩) := rfl
/-- The pair with v13 in place of v10 breaks rule 1 of R260; at an address with bit 2 set it breaks R256. -/
theorem test_decode_pair_banks : decode false 0x00905709 0x00D06760 0 = .error (.reason 10) := rfl
theorem test_decode_pair_place : decode true 0x00905709 0x00A06760 0 = .error (.reason 8) := rfl
/-- R457, worked case: bit 63 of `iadd` set. -/
theorem test_decode_reserved : decode false 0x81009802 0x83808001 0 = .error (.reason 3) := rfl
/-- R280: `ilop3.b32 v7, v1, v2, v3, 0xE8`. -/
theorem test_decode_ilop3 : decode false 0x0083B872 0x73C00181 0 =
    .ok (.ilop3 { Test.full with d := 7, a := 1, b := .num 2, c := 3, mod := 8, ext := 0xE }) := rfl
/-- R307: `p2? bra L`, three parcels back. -/
theorem test_decode_bra : decode false 0x80001282 0x0780007E 0 = .ok (.bra { Test.full with g := 2, b := .imm 0xFD }) := rfl
/-- R314: compact `fence.dev`. -/
theorem test_decode_fence : decode false 0xC00007AC 0 0 = .ok (.fenceCompact { sub := 6, i := false, a := 0, d := 0, gn := false, g := 7 }) := rfl
/-- R263: `st.b32` of the kernel that ends chapter 13, and `ld.s32 v2, [k4:k5 + v1 + 0x4000]` in the long form. -/
theorem test_decode_st : decode false 0x6200BB5E 0x03800178 0 = .ok (.st .b4 { Test.full with d := 1, a := 0xC4, b := Test.none_, c := 2 }) := rfl
theorem test_decode_ld_long : decode false 0x62013B4B 0x03808080 0x4000 =
    .ok (.ld .b4 { Test.full with d := 2, a := 0xC4, b := .lit 0x4000, c := 1, ty := .s32 }) := rfl
/-- R342, R347: `copy.in.dev p1, v20, v8, 4096, [v30]` and `pcopy.in v2, v8, keys, 1, 2, [v3]`. -/
theorem test_decode_copy : decode false 0x040A3C87 0x80B00F00 0x1000 =
    .ok (.copyIn { Test.full with d := 20, a := 8, b := .lit 0x1000, c := 30, mod := 6, pd := 1, s := true }) := rfl
theorem test_decode_pcopy : decode false 0x04013C97 0x83B00180 0x00410002 =
    .ok (.pcopyIn { Test.full with d := 2, a := 8, b := .lit 0x00410002, c := 3, mod := 6, s := true }) := rfl
/-- R351: `nmc.dev [k10:k11 + v0]`. -/
theorem test_decode_nmc : decode false 0x65003CB2 0x03B00078 0 = .ok (.nmc { Test.full with a := 0xCA, b := Test.none_, mod := 6 }) := rfl
/-- R338, R339: `ldp v0, ps0, v4, 7` and `pst.merge p3, ps0, v4, v1, 2`. -/
theorem test_decode_ldp : decode false 0x02003BBA 0x07800380 0 = .ok (.ldp { Test.full with a := 4, b := .imm 0, c := 7 }) := rfl
theorem test_decode_pst : decode false 0x0200BBC6 0x05800100 0 =
    .ok (.pstMerge { Test.full with d := 1, a := 4, b := .imm 0, c := 2, pd := 3 }) := rfl
/-- R340: `hitch p1, v1, [k6:k7 + v0], 0`. -/
theorem test_decode_hitch : decode false 0x6300BC2A 0x00800078 0 = .ok (.hitch { Test.full with d := 1, a := 0xC6, b := Test.none_, pd := 1 }) := rfl
/-- R301: `wrsr $sched, k6`; R304: compact `p3? yield`. -/
theorem test_decode_wrsr : decode false 0x6300BA52 0x03800000 0 = .ok (.wrsr { Test.full with d := 1, a := 0xC6 }) := rfl
theorem test_decode_yield : decode false 0x000003A0 0 0 = .ok (.yieldCompact { sub := 0, i := false, a := 0, d := 0, gn := false, g := 3 }) := rfl
/-- R369: `twcol p2, v4, 1, 5`. -/
theorem test_decode_twcol : decode false 0x80023E4A 0x05080002 0 = .ok (.twcol { Test.full with d := 4, b := .imm 5, mod := 1, pd := 2 }) := rfl
/-- R388: `mloop a2, 64, v8, v12` and `mlsp.t a2, 0, 0, v12`. -/
theorem test_decode_mloop : decode false 0x04013D5E 0x07800620 0 = .ok (.mloop { Test.full with d := 2, a := 8, b := .imm 0x40, c := 12 }) := rfl
theorem test_decode_mlsp : decode false 0x00013D66 0x07800600 0 = .ok (.mlspT { Test.full with d := 2, b := .imm 0, c := 12 }) := rfl

/-! Words put together from the fields of R261 (OP << 2, G << 11, D << 15, A << 23, B << 31; C << 7, TYPE << 15, MOD << 19, PD << 23,
IB << 26, EXT << 27, S << 31 of the second parcel), for families without a worked encoding. -/

/-- `fadd.f32 v1, v2, v3`: OP 0x040, TYPE 11. -/
theorem test_decode_fadd : decode false (3 * 2 ^ 31 + 2 * 2 ^ 23 + 1 * 2 ^ 15 + 7 * 2 ^ 11 + 0x040 * 4 + 2) (1 + 11 * 2 ^ 15 + 7 * 2 ^ 23) 0 =
    .ok (.fadd { Test.full with d := 1, a := 2, b := .num 3, ty := .f32 }) := rfl
/-- `cvt` from s32 (OP 0x061) to f32. -/
theorem test_decode_cvt : decode false (2 * 2 ^ 23 + 1 * 2 ^ 15 + 7 * 2 ^ 11 + 0x061 * 4 + 2) (11 * 2 ^ 15 + 7 * 2 ^ 23) 0 =
    .ok (.cvt .s32 { Test.full with d := 1, a := 2, ty := .f32 }) := rfl
/-- `atom.add.n32`: OP 0x0F2, TYPE 2, scope 6. -/
theorem test_decode_atom : decode false (4 * 2 ^ 23 + 1 * 2 ^ 15 + 7 * 2 ^ 11 + 0x0F2 * 4 + 2) (0xF0 / 2 + 0xF0 * 2 ^ 7 + 2 * 2 ^ 15 + 6 * 2 ^ 19 + 7 * 2 ^ 23) 0 =
    .ok (.atomAdd { Test.full with d := 1, a := 4, b := Test.none_, c := 0xF0, ty := .n32, mod := 6 }) := rfl
/-- `waitc 1, 2, 3, 4`: OP 0x0AA, the four counts in D, A, B and C. -/
theorem test_decode_waitc : decode false (3 * 2 ^ 31 + 2 * 2 ^ 23 + 1 * 2 ^ 15 + 7 * 2 ^ 11 + 0x0AA * 4 + 2) (1 + 4 * 2 ^ 7 + 7 * 2 ^ 23) 0 =
    .ok (.waitc { Test.full with d := 1, a := 2, b := .num 3, c := 4 }) := rfl
/-- `trap 5`: OP 0x1B0, B an immediate. -/
theorem test_decode_trap : decode false (5 * 2 ^ 31 + 7 * 2 ^ 11 + 0x1B0 * 4 + 2) (2 + 7 * 2 ^ 23 + 2 ^ 26) 0 = .ok (.trap { Test.full with b := .imm 5 }) := rfl
/-- `shfl.idx.b32 v1, v2, 3`: OP 0x086. -/
theorem test_decode_shfl : decode false (3 * 2 ^ 31 + 2 * 2 ^ 23 + 1 * 2 ^ 15 + 7 * 2 ^ 11 + 0x086 * 4 + 2) (1 + 7 * 2 ^ 23 + 2 ^ 26) 0 =
    .ok (.shflIdx { Test.full with d := 1, a := 2, b := .imm 3 }) := rfl
/-- `plval v1, v2`: OP 0x073; `aadd v4, v2, 16`: OP 0x028, TYPE 3. -/
theorem test_decode_plval : decode false (2 * 2 ^ 23 + 1 * 2 ^ 15 + 7 * 2 ^ 11 + 0x073 * 4 + 2) (11 * 2 ^ 15 + 7 * 2 ^ 23) 0 =
    .ok (.plval { Test.full with d := 1, a := 2, ty := .f32 }) := rfl
theorem test_decode_aadd : decode false (2 * 2 ^ 23 + 4 * 2 ^ 15 + 7 * 2 ^ 11 + 0x028 * 4 + 2) (16 / 2 + 3 * 2 ^ 15 + 7 * 2 ^ 23 + 2 ^ 26) 0 =
    .ok (.aadd { Test.full with d := 4, a := 2, b := .imm 16, ty := .b64 }) := rfl
/-- The host's reading of a table word is the decoder's. -/
theorem test_decode_table_word : decodeTableWord 64 0x0380800181009802 = some (.iadd { Test.full with g := 3, d := 1, a := 2, b := .num 3, ty := .s32 }) := rfl

/-! ## Ill-formed terms -/

/-- R457: for each reason an instruction whose fields break it, which the check refuses. -/
theorem test_ill_formed :
    -- 2: an unassigned compact opcode in a pair
    pairReasons ⟨48, ⟨0, false, 0, 0, false, 7⟩⟩ ⟨0, ⟨0, false, 0, 0, false, 7⟩⟩ = [2] ∧
    -- 3: `PD` of `iadd` not 7, a field not used, a reserved SUB
    wellFormed (.iadd { Test.full with ty := .s32, pd := 1 }) = false ∧ wellFormed (.iadd { Test.full with ty := .s32, c := 1 }) = false ∧
    wellFormed (.lredCompact ⟨6, false, 0, 0, false, 7⟩) = false ∧
    -- 4: a TYPE that is not accepted
    wellFormed (.iadd { Test.full with ty := .f32 }) = false ∧
    -- 5: a scope code 9
    wellFormed (.fence { Test.full with mod := 9 }) = false ∧
    -- 6: binary8 precision 0
    wellFormed (.fclass { Test.full with ty := .f8, ext := 0 }) = false ∧
    -- 7: a long form where there is none, a displacement without an immediate
    wellFormed (.iabs { Test.full with ty := .s32, b := .lit 1 }) = false ∧ wellFormed (.bra { Test.full with b := .num 3 }) = false ∧
    -- 10, 11, 12: a pair's banks, destinations and classes
    wellFormed (.compactPair ⟨2, ⟨0, false, 9, 5, false, 7⟩⟩ ⟨24, ⟨0, false, 13, 6, false, 7⟩⟩) = false ∧
    wellFormed (.compactPair ⟨2, ⟨0, false, 9, 5, false, 7⟩⟩ ⟨24, ⟨0, true, 1, 5, false, 7⟩⟩) = false ∧
    wellFormed (.compactPair ⟨2, ⟨0, false, 9, 5, false, 7⟩⟩ ⟨2, ⟨0, false, 10, 6, false, 7⟩⟩) = false ∧
    -- 13: a number out of its range
    wellFormed (.waitc { Test.full with d := 64 }) = false ∧ wellFormed (.accz { Test.full with d := 8 }) = false ∧
    -- 14: a memory operand whose B is a register
    wellFormed (.ld .b4 { Test.full with b := .num 3 }) = false ∧
    -- 15: a `.try` form with `PD` 7
    wellFormed (.acqsTry { Test.full with d := 1, a := 2 }) = false ∧
    -- the constructor's own choice
    wellFormed (.pmovGet { Test.full with s := false }) = false ∧ wellFormed (.moviCompact ⟨0, false, 0, 0, false, 7⟩) = false := by decide

/-- The same instructions put right are well-formed. -/
theorem test_well_formed :
    wellFormed (.iadd { Test.full with ty := .s32 }) = true ∧ wellFormed (.fence { Test.full with mod := 8 }) = true ∧
    wellFormed (.fclass { Test.full with ty := .f8, ext := 4 }) = true ∧ wellFormed (.bra { Test.full with b := .imm 3 }) = true ∧
    wellFormed (.waitc { Test.full with d := 63, a := 63, b := .num 63, c := 15 }) = true ∧
    wellFormed (.ld .b4 { Test.full with b := Test.none_, c := 0xF0 }) = true ∧ wellFormed (.acqsTry { Test.full with d := 1, a := 2, pd := 1 }) = true := by decide

/-! ## A small machine: one group, code in buffer 1 at handle 1, its threads at the same instruction -/

/-- The fields a test sets, over the defaults. -/
structure Test.Set where
  regs : List (Nat × Nat) := []
  tags : List (Nat × Nat) := []
  preds : Nat := 0
  role : Role := .general
  alloc : Nat := 4096
  /-- registers of the thread of lane 1, where there is one -/
  two : Option (List (Nat × Nat)) := none
  /-- bytes of buffer 1 from offset 0x400 -/
  data : List Nat := []
  /-- bytes of the scratchpad from offset 0 -/
  pad : List Nat := []

def Test.bytes (l : List Nat) : List Byte := l.map (BitVec.ofNat 8)
/-- Buffer 1 from its offset 0 is memory from here. -/
def Test.base : Nat := 0x20000
def Test.issue (two : Bool) : Issue := { core := 0, refs := if two then [(2, 0), (2, 1)] else [(2, 0)], pc := mkAddr 1 0, len := 8 }
def Test.thread (x : Test.Set) (lane : Nat) (regs : List (Nat × Nat)) : Thread :=
  { pc := mkAddr 1 0, lane := lane, regs := regs.map fun e => (e.1, BitVec.ofNat 32 e.2),
    tags := x.tags.map fun e => (e.1, BitVec.ofNat 32 e.2), preds := BitVec.ofNat 7 x.preds }
def Test.state (x : Test.Set) : State :=
  let s := State.reset.withCode (List.replicate 1024 0 ++ Test.bytes x.data)
  let u := { s.modG 2 fun G => { G with
      handler := mkAddr 1 0x800, role := x.role, lr := { G.lr with scratch := x.alloc },
      threads := (0, Test.thread x 0 x.regs) :: match x.two with | some l => [(1, Test.thread x 1 l)] | none => [] } with
    agenda := [], issue := some (Test.issue x.two.isSome) }
  if x.pad = [] then u else u.padWrite 2 0 (Test.bytes x.pad)

/-- Register v of lane 0 after the step; of lane 1; a predicate; the trap registers; any part of the next state. -/
def Test.out {α : Type} (o : Host.Outcome State Fault Refusal) (p : State → α) : Option α := match o with | .next t => some (p t) | _ => none
def Test.lane (k : Nat) (p : Thread → α) (t : State) : Option α := (t.thread? 2 k).map p
def Test.reg (o : Host.Outcome State Fault Refusal) (v : Nat) : Option Nat := (Test.out o (Test.lane 0 (·.v v))).join
def Test.reg1 (o : Host.Outcome State Fault Refusal) (v : Nat) : Option Nat := (Test.out o (Test.lane 1 (·.v v))).join
def Test.pred (o : Host.Outcome State Fault Refusal) (p : Nat) : Option Bool := (Test.out o (Test.lane 0 (·.pred p))).join
def Test.trap (o : Host.Outcome State Fault Refusal) : Option (Nat × Addr × Addr) :=
  (Test.out o (Test.lane 0 fun T => (T.tcause.toNat, T.tpc, T.pc))).join

/-- The instruction passes every check on the state: it is in flight over all its threads, its operands exist, the role permits it, no
register is poisoned, all guards hold, no counter is up, and a trap could enter the handler. -/
def Test.fit (s : State) (is : Issue) (op : Nat) (f : Full) : Bool :=
  s.issue == some is && (s.refsOf is).length == is.refs.length && decide is.refs.Nodup && s.absent == none && !(s.refsOf is).isEmpty &&
  (match shapeOf op f.s f.ext.toNat with
    | some sh => (s.refsOf is).all fun r => badOperand sh f op r.G.lr.nreg == none && r.G.role.permits sh.cls && r.T.poison == []
    | none => false) &&
  (s.refsOf is).all fun r => r.T.guard f.g f.gn && r.T.ld == 0 && r.T.st == 0 && r.T.cp == 0 && r.T.hmode == .none && r.G.handler != 0 &&
    r.G.open_ == [] && r.G.heldDel == []

/-- What the statements ask of every issue group. -/
structure Test.Fit (s : State) (is : Issue) (op : Nat) (f : Full) (rs : List Ref) : Prop where
  issued : Issued s is rs
  admits : Admits op f rs
  all : executing f rs = rs
  some_ : rs ≠ []
  traps : CanTrap rs
  room : ∀ r ∈ rs, ∀ res : TRes, res.lds ≤ 63 → res.sts ≤ 63 → res.cp ≤ 63 → HasRoom r res

theorem Test.fit_sound {s : State} {is : Issue} {op : Nat} {f : Full} (h : Test.fit s is op f = true) : Test.Fit s is op f (s.refsOf is) := by
  simp only [Test.fit, Bool.and_eq_true, beq_iff_eq, decide_eq_true_eq, Bool.not_eq_true', List.isEmpty_eq_false_iff, List.all_eq_true] at h
  obtain ⟨⟨⟨⟨⟨⟨h1, h2⟩, h3⟩, h4⟩, h5⟩, h6⟩, h7⟩ := h
  refine ⟨⟨h1, rfl, h2, h3, h4⟩, ?_, ?_, h5, ?_, ?_⟩
  · split at h6
    · next sh hs =>
      refine ⟨sh, hs, fun r hr => ?_⟩
      have := List.all_eq_true.1 h6 r hr
      simp only [Bool.and_eq_true, beq_iff_eq] at this
      exact ⟨this.1.1, this.1.2, this.2⟩
    · simp at h6
  · exact List.filter_eq_self.2 fun r hr => (h7 r hr).1.1.1.1.1.1.1
  · intro r hr
    have := h7 r hr
    refine ⟨this.1.1.1.2, .inl (by simpa using this.1.1.2), ?_, ?_⟩ <;> simp [this]
  · intro r hr res a b c
    have := h7 r hr
    have hl := this.1.1.1.1.1.1.2; have hs := this.1.1.1.1.1.2; have hc := this.1.1.1.1.2
    exact ⟨by omega, by omega, by omega⟩

/-! ## The statements' premises are met

`Test.fits` gives, for a list of opcodes and forms, all that a statement asks of the state and the operands where it asks nothing more
than the checks of R453; what else a statement asks of some form follows it, at a boundary value where there is one. -/

theorem Test.fits {s : State} {is : Issue} (l : List (Nat × Full)) (h : (l.all fun e => Test.fit s is e.1 e.2) = true) :
    ∀ e ∈ l, Test.Fit s is e.1 e.2 (s.refsOf is) := fun e he => Test.fit_sound (List.all_eq_true.1 h e he)

def Test.two : Test.Set := { regs := [(2, 5), (3, 0xFFFFFFFF), (4, 0x100), (5, 0x10000), (8, 3)], two := some [(2, 7), (4, 8)] }
def Test.s2 : State := Test.state Test.two
def Test.is2 : Issue := Test.issue true
/-- Three registers of a TYPE; a second predicate; the compact word of the same shape. -/
def Test.abc (ty : Ty) : Full := { Test.full with d := 8, a := 4, b := .num 2, ty := ty }
def Test.abcd (ty : Ty) : Full := { Test.abc ty with c := 4 }
def Test.ab (ty : Ty) : Full := { Test.full with d := 8, a := 4, ty := ty }
def Test.cmp (ty : Ty) : Full := { Test.full with a := 4, b := .num 2, ty := ty, pd := 1 }
def Test.cw (sub : BitVec 3) : Compact := ⟨sub, false, 4, 8, false, 7⟩

theorem meets_IntegerArithmeticResults : ∀ e ∈
    [(0x000, Test.abc .s32), (0x000, (cfull 2 (Test.cw 6)).2), (0x001, Test.abc .n64), (0x001, (cfull 3 (Test.cw 1)).2),
     (0x002, { Test.abc .n32 with pd := 1, c := 2 }), (0x003, { Test.abc .n32 with pd := 1, s := true }), (0x004, Test.abc .s8),
     (0x004, (cfull 4 (Test.cw 2)).2), (0x005, Test.abc .s64), (0x006, Test.abc .s32), (0x007, Test.abcd .s32), (0x008, Test.abcd .s32),
     (0x009, Test.abcd .n32), (0x00A, Test.abc .s16), (0x00B, Test.abc .n8), (0x00C, Test.abc .s32), (0x00C, (cfull 5 (Test.cw 0)).2),
     (0x00D, Test.abc .s32), (0x00D, (cfull 6 (Test.cw 0)).2), (0x00E, Test.ab .s32), (0x00E, (cfull 16 (Test.cw 0)).2), (0x00F, Test.ab .s64),
     (0x00F, (cfull 15 (Test.cw 0)).2)], Test.Fit Test.s2 Test.is2 e.1 e.2 (Test.s2.refsOf Test.is2) := Test.fits _ (by decide)

theorem meets_IntegerCompareSelectResults : ∀ e ∈
    [(0x010, Test.cmp .s32), (0x011, Test.cmp .n32), (0x012, Test.cmp .s64), (0x013, Test.cmp .s8), (0x014, Test.cmp .n16), (0x015, Test.cmp .n64),
     (0x016, { Test.abc .b64 with c := 6 }), (0x017, Test.abcd .s32)], Test.Fit Test.s2 Test.is2 e.1 e.2 (Test.s2.refsOf Test.is2) :=
  Test.fits _ (by decide)

theorem meets_LogicAndShiftResults : ∀ e ∈
    [(0x018, Test.abc .b64), (0x018, (cfull 7 (Test.cw 6)).2), (0x019, Test.abc .s32), (0x019, (cfull 8 (Test.cw 0)).2), (0x01A, Test.abc .b32),
     (0x01A, (cfull 9 (Test.cw 0)).2), (0x01B, Test.ab .b32), (0x01B, (cfull 14 (Test.cw 0)).2), (0x01C, { Test.abcd .b64 with mod := 15, ext := 15 }),
     (0x01D, Test.abc .s32), (0x01D, (cfull 10 (Test.cw 0)).2), (0x01E, Test.abc .n64), (0x01E, (cfull 11 (Test.cw 0)).2), (0x01F, Test.abc .s64),
     (0x01F, (cfull 12 (Test.cw 0)).2), (0x020, Test.abc .n8), (0x020, (cfull 13 (Test.cw 0)).2), (0x021, Test.abc .s32), (0x022, Test.abcd .n64),
     (0x023, Test.ab .n32), (0x023, (cfull 17 (Test.cw 0)).2), (0x024, Test.ab .n64), (0x024, (cfull 18 (Test.cw 0)).2), (0x025, Test.ab .s16),
     (0x025, (cfull 19 (Test.cw 0)).2), (0x026, Test.ab .n8), (0x026, (cfull 20 (Test.cw 0)).2)],
    Test.Fit Test.s2 Test.is2 e.1 e.2 (Test.s2.refsOf Test.is2) := Test.fits _ (by decide)

theorem meets_AddressInstructionResults : ∀ e ∈
    [(0x027, Test.abc .b64), (0x028, Test.abc .b64), (0x028, (cfull 21 (Test.cw 0)).2), (0x029, Test.ab .b64), (0x02A, Test.ab .b64)],
    Test.Fit Test.s2 Test.is2 e.1 e.2 (Test.s2.refsOf Test.is2) := Test.fits _ (by decide)

theorem meets_FloatArithmeticResults : ∀ e ∈
    [(0x040, Test.abc .f32), (0x040, (cfull 22 (Test.cw 6)).2), (0x041, Test.abc .f64), (0x041, (cfull 23 (Test.cw 4)).2),
     (0x042, { Test.abc .f8 with ext := 4 }), (0x042, (cfull 24 (Test.cw 7)).2), (0x043, Test.abcd .bf16), (0x044, Test.abc .f32), (0x045, Test.ab .f64),
     (0x045, (cfull 31 (Test.cw 0)).2), (0x046, Test.ab .f32), (0x046, (cfull 29 (Test.cw 0)).2), (0x047, Test.ab .f16), (0x047, (cfull 30 (Test.cw 0)).2),
     (0x048, Test.abc .f32), (0x048, (cfull 25 (Test.cw 0)).2), (0x049, Test.abc .f64), (0x049, (cfull 26 (Test.cw 0)).2), (0x04A, Test.ab .f32),
     (0x04A, (cfull 27 (Test.cw 0)).2), (0x04B, Test.ab .f64), (0x04B, (cfull 28 (Test.cw 0)).2)],
    Test.Fit Test.s2 Test.is2 e.1 e.2 (Test.s2.refsOf Test.is2) := Test.fits _ (by decide)

theorem meets_FloatCompareResults : ∀ e ∈
    [(0x04C, Test.cmp .f32), (0x04D, Test.cmp .f64), (0x04E, Test.cmp .f16), (0x04F, Test.cmp .bf16), (0x050, Test.cmp .f32), (0x051, Test.cmp .f32),
     (0x052, Test.cmp .f32), (0x053, Test.cmp .f32), (0x054, { Test.ab .f8 with ext := 7 })],
    Test.Fit Test.s2 Test.is2 e.1 e.2 (Test.s2.refsOf Test.is2) := Test.fits _ (by decide)

theorem meets_ConversionResults : (∀ e ∈
    [(0x055, Test.ab .f32), (0x056, { Test.abc .f16 with c := 0 }), (0x057, { Test.ab .s8 with c := 3 }), (0x058, Test.ab .f32), (0x059, Test.ab .f32),
     (0x05A, Test.ab .f32), (0x05B, Test.ab .f32), (0x05C, Test.ab .f32), (0x05D, Test.ab .f32), (0x05E, Test.ab .f32), (0x05F, Test.ab .f32),
     (0x060 + Ty.s32.code, Test.ab .f32), (0x060 + Ty.f8.code, { Test.ab .f64 with c := 0x1F }), (0x060 + Ty.s4.code, Test.ab .s64)],
    Test.Fit Test.s2 Test.is2 e.1 e.2 (Test.s2.refsOf Test.is2)) ∧ ∀ r ∈ Test.s2.refsOf Test.is2, Test.s2.bankLoading r.G.core r.G.bank = false :=
  ⟨Test.fits _ (by decide), by decide⟩

/-- `plpack` and `pltrim` at the ends of their ranges of depth. -/
theorem meets_PlanarRegisterResults : (∀ e ∈
    [(0x072, Test.abc .f32), (0x073, Test.ab .f32), (0x073, (cfull 32 (Test.cw 0)).2), (0x074, Test.ab .b32), (0x075, Test.ab .b32), (0x076, Test.abc .b32)],
    Test.Fit Test.s2 Test.is2 e.1 e.2 (Test.s2.refsOf Test.is2)) ∧
    ∀ n ∈ [1, 24], ∀ lo, (Test.s2.refsOf Test.is2).head? = some lo → 1 ≤ Test.s2.b32 lo (.imm n) ∧ Test.s2.b32 lo (.imm n) ≤ 24 :=
  ⟨Test.fits _ (by decide), by intro n hn lo h; cases h; revert n; decide⟩

theorem meets_GroupSelections : (∀ e ∈ [(0x080, { Test.full with b := .imm 32 }), (0x071, { Test.full with b := .imm 1 })],
    Test.Fit Test.s2 Test.is2 e.1 e.2 (Test.s2.refsOf Test.is2)) ∧
    ∀ r ∈ Test.s2.refsOf Test.is2, Test.s2.b32 r (.imm 32) ∈ [2, 4, 8, 16, 32] ∧ Test.s2.b32 r (.imm 1) ≤ 1 := ⟨Test.fits _ (by decide), by decide⟩

theorem meets_VoteAndShuffleResults : ∀ e ∈
    [(0x082, { Test.full with a := 1, pd := 2 }), (0x083, { Test.full with a := 1, pd := 2 }), (0x084, { Test.full with a := 1, pd := 2 }),
     (0x085, { Test.full with d := 8, a := 1 }), (0x086, Test.abc .b32), (0x086, (cfull 37 (Test.cw 0)).2), (0x087, Test.abc .b64),
     (0x087, (cfull 46 (Test.cw 0)).2), (0x088, Test.abc .b32), (0x088, (cfull 47 (Test.cw 0)).2), (0x089, Test.abc .b32), (0x089, (cfull 38 (Test.cw 0)).2)],
    Test.Fit Test.s2 Test.is2 e.1 e.2 (Test.s2.refsOf Test.is2) := Test.fits _ (by decide)

/-- `selk` with k at 0, and with the k of a register. -/
theorem meets_ReductionAndRankingResults : (∀ e ∈
    [(0x08A, Test.ab .s64), (0x08A, (cfull 39 (Test.cw 0)).2), (0x08B, Test.ab .f32), (0x08C, { Test.ab .n32 with s := true }), (0x08D, Test.ab .f32),
     (0x08E, { Test.ab .s32 with b := .imm 0 }), (0x08F, Test.abc .s32), (0x090, Test.abc .f32)],
    Test.Fit Test.s2 Test.is2 e.1 e.2 (Test.s2.refsOf Test.is2)) ∧
    ∀ r ∈ Test.s2.refsOf Test.is2, 0 ≤ kOf { Test.ab .s32 with b := .imm 0 } Test.s2 r ∧ 0 ≤ kOf (Test.abc .s32) Test.s2 r :=
  ⟨Test.fits _ (by decide), by decide⟩

theorem meets_MoveAndPredicateResults : (∀ e ∈
    [(0x091, Test.ab .b64), (0x091, (cfull 1 (Test.cw 1)).2), (0x092, { Test.full with d := 8, b := .lit 0x12345678 }),
     (0x092, (cfull 1 ⟨0, true, 0x80, 8, false, 7⟩).2), (0x093, { Test.full with d := 8, a := 11 }), (0x093, { Test.full with d := 8, a := 0 }),
     (0x094, { Test.full with d := 0, a := 4 }), (0x094, { Test.full with d := 1, a := 4 }), (0x094, { Test.full with d := 3, a := 4 }),
     (0x094, { Test.full with d := 8, a := 4 }), (0x094, { Test.full with d := 9, a := 4 }), (0x094, { Test.full with d := 10, a := 4 }),
     (0x094, { Test.full with d := 11, a := 4 }), (0x095, { Test.full with a := 6, b := .num 0, pd := 1 }), (0x096, { Test.full with a := 6, b := .num 7, pd := 1 }),
     (0x097, { Test.full with a := 6, b := .num 5, pd := 0 }), (0x098, { Test.full with a := 7, pd := 1 }), (0x099, { Test.full with a := 7, pd := 1 }),
     (0x099, { Test.full with d := 8, s := true }), (0x099, { Test.full with a := 4, s := true, ext := 1 })],
    Test.Fit Test.s2 Test.is2 e.1 e.2 (Test.s2.refsOf Test.is2)) ∧ ∀ r ∈ Test.s2.refsOf Test.is2, r.G.loopOf r.t = false := ⟨Test.fits _ (by decide), by decide⟩

/-- One thread, with addresses in pairs: v4:v5 is buffer 1 at 0x100, v6:v7 at 0x400. -/
def Test.one : Test.Set := { regs := [(2, 5), (3, 0xFFFFFFFF), (4, 0x100), (5, 0x10000), (6, 0x400), (7, 0x10000), (8, 3)] }
def Test.s1 : State := Test.state Test.one
def Test.is1 : Issue := Test.issue false
/-- The statements' premises about each thread of a state's issue group. -/
abbrev Test.each (s : State) (is : Issue) (p : Ref → Prop) : Prop := ∀ r ∈ s.refsOf is, p r
def Test.disp : Full := { Test.full with b := .imm 0x80 }

theorem meets_BranchResults : (∀ e ∈
    [(0x0A0, Test.disp), (0x0A1, { Test.full with a := 6 }), (0x0A2, { Test.disp with d := 8 }), (0x0A3, { Test.full with d := 8, a := 6 }),
     (0x0A4, { Test.full with a := 6 })], Test.Fit Test.s1 Test.is1 e.1 e.2 (Test.s1.refsOf Test.is1)) ∧
    Test.each Test.s1 Test.is1 fun r => Test.s1.op64 r 6 % 4 = 0 := ⟨Test.fits _ (by decide), by decide⟩

/-- `exit` of one of two threads, and of the last one. -/
def Test.other : State := { Test.s2 with issue := some Test.is1 }
theorem meets_ExitEndsTheThread : (∀ s ∈ [Test.other, Test.s1],
    Test.Fit s Test.is1 0x0A5 Test.full (s.refsOf Test.is1) ∧ (s.refsOf Test.is1).length = 1 ∧
      Test.each s Test.is1 fun r => r.T.held = [] ∧ r.T.tl = 0 ∧ (s.endThread r.g r.t).absent = none ∧ r.G.recs = [] ∧ r.G.exiting = false) ∧
    (Test.each Test.other Test.is1 fun r => Map.erase r.G.threads r.t ≠ []) ∧ Test.each Test.s1 Test.is1 fun r => Map.erase r.G.threads r.t = [] := by
  refine ⟨fun s hs => ?_, by decide, by decide⟩
  simp only [List.mem_cons, List.not_mem_nil, or_false] at hs
  obtain rfl | rfl := hs <;> exact ⟨Test.fit_sound (by decide), by decide, by decide⟩

/-- A branch that both lanes take, and one that only lane 0 takes: lane 1's record finds a place in the core's reserve. -/
def Test.split : State := Test.s2.modT 2 0 fun T => { T with preds := 1 }
def Test.sbra : Full := { Test.disp with g := 0, c := 12 }
theorem meets_SplitBranchResults :
    Test.Fit Test.s2 Test.is2 0x0A6 { Test.sbra with g := 7 } (Test.s2.refsOf Test.is2) ∧
    Issued Test.split Test.is2 (Test.split.refsOf Test.is2) ∧ Admits 0x0A6 Test.sbra (Test.split.refsOf Test.is2) ∧
    ((Test.split.refsOf Test.is2).map fun r => r.T.guard Test.sbra.g Test.sbra.gn) = [true, false] ∧
    reserve (Test.split.reserveCap 0) 0 12 1 (Test.split.reserveUse 0) (Test.split.areaUse 0) = some [none] :=
  ⟨Test.fit_sound (by decide), ⟨by decide, by decide, by decide, by decide, by decide⟩,
    ⟨(shapeOf 0x0A6 false 0).get (by decide), by decide, by decide⟩, by decide, by decide⟩

/-- Both lanes at one `wsync`, or at `join`s for one target that name each other; a `join` that names its own lane, and one that names
another. -/
def Test.waiting (c : Nat → Cond) : State :=
  (Test.s2.modT 2 0 fun T => T.waitOn (c 1) 0 1).modT 2 1 fun T => T.waitOn (c 0) 0 2
def Test.synced : State := Test.waiting fun _ => .wsync (mkAddr 1 8)
def Test.joined : State := Test.waiting fun other => .join (BitVec.ofNat 32 (2 ^ other)) (mkAddr 1 0x40)
def Test.noGroup : Group :=
  { ctx := 0, item := 0, gidx := 0, grank := 0, gang := 0, core := 0, role := .general, lr := {}, lsn := 0 }
def Test.group (s : State) : Group := (s.group? 2).getD Test.noGroup
theorem meets_WarpSyncAndJoinResults :
    (∀ e ∈ [(0x081, Test.full), (0x081, (cfull 41 ⟨0, false, 0, 0, false, 7⟩).2)], Test.Fit Test.s2 Test.is2 e.1 e.2 (Test.s2.refsOf Test.is2)) ∧
    (Test.synced.group? 2 = some (Test.group Test.synced) ∧ ((Test.group Test.synced).threads.map (·.1)).Nodup ∧ (Test.group Test.synced).warpLive 0 ≠ [] ∧
      ∀ e ∈ (Test.group Test.synced).warpLive 0, e.2.pc = mkAddr 1 0 ∧ e.2.wait = .on (.wsync (mkAddr 1 8)) 0 (e.1 + 1)) ∧
    (Test.Fit Test.s1 Test.is1 0x0A7 { Test.disp with a := 8 } (Test.s1.refsOf Test.is1) ∧ Test.each Test.s1 Test.is1 fun r => Test.s1.op32 r 8 = 3 ∧ r.T.lane = 0) ∧
    (Test.Fit Test.s1 Test.is1 0x0A7 { Test.disp with a := 10 } (Test.s1.refsOf Test.is1) ∧ Test.each Test.s1 Test.is1 fun r => Test.s1.op32 r 10 = 0) ∧
    Test.joined.group? 2 = some (Test.group Test.joined) ∧ ((Test.group Test.joined).threads.map (·.1)).Nodup ∧
      ∀ e ∈ (Test.group Test.joined).warpLive 0, ∃ m, e.2.wait = .on (.join m (mkAddr 1 0x40)) 0 (e.1 + 1) ∧
        ∀ x ∈ (Test.group Test.joined).warpLive 0, x.2.lane ≠ e.2.lane → m.getLsbD x.2.lane = true := by
  refine ⟨Test.fits _ (by decide), by decide, ⟨Test.fit_sound (by decide), by decide⟩, ⟨Test.fit_sound (by decide), by decide⟩, by decide, by decide, ?_⟩
  have h : (Test.group Test.joined).warpLive 0 = [(0, (Map.get? (Test.group Test.joined).threads 0).getD {}), (1, (Map.get? (Test.group Test.joined).threads 1).getD {})] := by decide
  rw [h]
  intro e he
  simp only [List.mem_cons, List.not_mem_nil, or_false] at he
  obtain rfl | rfl := he
  · exact ⟨2, by decide, by decide⟩
  · exact ⟨1, by decide, by decide⟩

/-- The counters at 63, the most there are, and at the bounds that `waitc` names; a tag that is complete; a fence with nothing pending. -/
def Test.full63 : State := Test.s1.modT 2 0 fun T => { T with ld := 63, st := 63, cp := 63, tl := 15 }
theorem meets_YieldNopAndWaitResults : (∀ e ∈
    [(0x0A9, Test.full), (0x0A9, (cfull 0 ⟨0, false, 0, 0, false, 7⟩).2), (0x0A8, Test.full), (0x0A8, (cfull 40 ⟨0, false, 0, 0, false, 7⟩).2),
     (0x0AA, { Test.full with d := 0, a := 0, b := .num 0, c := 0 }), (0x0AB, { Test.full with b := .imm 1 }), (0x0AB, (cfull 44 ⟨0, true, 1, 0, false, 7⟩).2),
     (0x0AC, { Test.full with b := .imm 1 }), (0x0AC, (cfull 45 ⟨0, true, 1, 0, false, 7⟩).2), (0x0AD, { Test.full with d := 8, b := .imm 1, pd := 1 }),
     (0x0AE, { Test.full with mod := 6 }), (0x0AE, (cfull 43 ⟨6, false, 0, 0, false, 7⟩).2)], Test.Fit Test.s1 Test.is1 e.1 e.2 (Test.s1.refsOf Test.is1)) ∧
    (Test.each Test.s1 Test.is1 fun r => r.T.held = [] ∧ r.T.ld ≤ 0 ∧ r.T.st ≤ 0 ∧ r.T.cp ≤ 0 ∧ r.T.tl ≤ 0 ∧
      (∀ n ∈ r.G.maskTags (Test.s1.bInt r .b32 (.imm 1)), r.G.tagBit n = true) ∧ (∃ n ∈ r.G.maskTags (Test.s1.bInt r .b32 (.imm 1)), r.G.tagBit n = true) ∧
      Test.s1.fenceOver r.g r.t 6 = true ∧ Test.s1.fenceOver r.g r.t 8 = true ∧ Test.s1.edge.wymDown = false) ∧
    Test.each Test.full63 Test.is1 fun r => r.T.ld ≤ 63 ∧ r.T.st ≤ 63 ∧ r.T.cp ≤ 63 ∧ r.T.tl ≤ 15 := ⟨Test.fits _ (by decide), by decide, by decide⟩

/-- A barrier of one arrival at offset 0x100, with no transfer pending, with the most that a count holds, and with a plane watermark. -/
def Test.bar (b : Bar) : State := Test.s1.setBar 2 0x100 b
def Test.bar1 : Bar := { gen := 15, pend := 1, exp := 1, txin := 0, txout := 0, plwm := 31, plhi := 0, pmode := 0, rest := 0 }
theorem meets_BarrierResults : (∀ e ∈
    [(0x0AF, { Test.full with a := 4, b := .imm 1, mod := 4 }), (0x0B0, { Test.full with d := 8, a := 4, mod := 0 }),
     (0x0B1, { Test.full with a := 4, b := .imm 3 }), (0x0B2, { Test.full with a := 4, b := .imm 1 }), (0x0B2, { Test.full with a := 4, b := .imm 1, s := true }),
     (0x0B3, { Test.full with a := 4, b := .imm 24 })],
    Test.Fit (Test.bar Test.bar1) Test.is1 e.1 e.2 ((Test.bar Test.bar1).refsOf Test.is1)) ∧
    (Test.each Test.s1 Test.is1 fun r => Test.s1.b32 r (.lit 1) = 1 ∧ Test.s1.b32 r (.lit 4095) = 4095 ∧ Test.s1.op32 r 4 % 16 = 0 ∧
      (Test.s1.bar 2 0x100).txin = 0 ∧ (Test.s1.bar 2 0x100).txout = 0) ∧
    (Test.each (Test.bar Test.bar1) Test.is1 fun r => (Test.bar Test.bar1).op32 r 4 % 16 = 0 ∧ ((Test.bar Test.bar1).bar 2 0x100).exp ≠ 0 ∧
      ((Test.bar Test.bar1).bar 2 0x100).pend ≠ 0 ∧ (Test.bar Test.bar1).drained r.g r.t = true ∧
      ((Test.bar Test.bar1).bar 2 0x100).gen ≠ (Test.bar Test.bar1).b32 r (.imm 3) % 16 ∧
      0 ≤ ((Test.bar Test.bar1).bar 2 0x100).txin + sextN ((Test.bar Test.bar1).b32 r (.lit (2 ^ 24 - 1))) 32 ∧
      ((Test.bar Test.bar1).bar 2 0x100).txin + sextN ((Test.bar Test.bar1).b32 r (.lit (2 ^ 24 - 1))) 32 < 2 ^ 24) ∧
    Test.each (Test.bar { Test.bar1 with plwm := 24, pmode := 1 }) Test.is1 fun r =>
      let s := Test.bar { Test.bar1 with plwm := 24, pmode := 1 }
      s.b32 r (.imm 24) ≤ 24 ∧ (s.bar 2 0x100).pmode ≠ 0 ∧ (s.bar 2 0x100).plwm ≠ 31 ∧ s.b32 r (.imm 24) ≤ (s.bar 2 0x100).plwm :=
  ⟨Test.fits _ (by decide), by decide, by decide, by decide⟩

/-- A ring of 64 slots, the most there are, with a free slot, with the last slot held, full, and with a committed slot. -/
def Test.ring1 : Ring := { base := 0x800, ssize := 16, scount := 64, rsv1 := 0, rflags := 0, tail := 1, head := 0, rsv2 := 0, phase := 1, held := 2 ^ 63 }
def Test.ringed : State := Test.s1.setRing 2 0x100 Test.ring1
def Test.ringFull : State := Test.s1.setRing 2 0x100 { Test.ring1 with tail := 64, held := 0, phase := 0 }
theorem meets_RingResults : (∀ e ∈
    [(0x0B4, { Test.full with a := 4, b := .imm 0x10, c := 12 }), (0x0B5, { Test.full with d := 8, a := 4 }), (0x0B6, { Test.full with d := 8, a := 4, pd := 1 }),
     (0x0B7, { Test.full with a := 4, b := .imm 63 }), (0x0B8, { Test.full with d := 8, a := 4 }), (0x0B9, { Test.full with d := 8, a := 4, pd := 1 }),
     (0x0BA, { Test.full with a := 4, b := .imm 63 }), (0x0BB, { Test.full with a := 4, b := .imm 0x10, c := 12 }), (0x0BC, { Test.full with d := 8, a := 4 }),
     (0x0BD, { Test.full with d := 8, a := 4, pd := 1 }), (0x0BE, { Test.full with a := 4, b := .imm 63 }), (0x0BF, { Test.full with d := 8, a := 4 }),
     (0x0C0, { Test.full with d := 8, a := 4, pd := 1 }), (0x0C1, { Test.full with a := 4, b := .imm 63 })],
    Test.Fit Test.ringed Test.is1 e.1 e.2 (Test.ringed.refsOf Test.is1)) ∧
    (∀ n ∈ [16 + 2 ^ 16, 65520 + 64 * 2 ^ 16], 16 ≤ bitsN n 15 0 ∧ bitsN n 15 0 % 16 = 0 ∧ 1 ≤ bitsN n 22 16 ∧ bitsN n 22 16 ≤ 64) ∧
    (∀ gang, Test.each Test.ringed Test.is1 fun r => Test.ringed.place r gang (Test.ringed.op32 r 4) = (2, 0x100)) ∧
    (let k := Test.ringed.ring 2 0x100
     k.ok = true ∧ bitN k.held (k.tail % k.scount) = 0 ∧ (k.tail + 2 * k.scount - k.head) % (2 * k.scount) < k.scount ∧
      bitN k.held (k.head % k.scount) = 0 ∧ bitN k.phase (k.head % k.scount) ≠ k.head / k.scount ∧ 63 < k.scount ∧ bitN k.held 63 ≠ 0) ∧
    (let k := Test.ringFull.ring 2 0x100
     k.ok = true ∧ ¬ ((k.tail + 2 * k.scount - k.head) % (2 * k.scount) < k.scount) ∧ ¬ (bitN k.phase (k.head % k.scount) ≠ k.head / k.scount)) ∧
    Test.ringed.drained 2 0 = true := ⟨Test.fits _ (by decide), by decide, by decide, by decide, by decide, by decide⟩

/-- Bytes in buffer 1 at an offset. -/
def Test.put (s : State) (off n x : Nat) : State := { s with mem := memWrite s.mem (Test.base + off) (leBytes n x) }
def Test.bytesAt (off n : Nat) : List Nat := (List.range n).map (Test.base + off + ·)
def Test.mem (b : BForm) : Full := { Test.full with a := 4, b := b, c := 0xF0 }

/-- A launch record of zeros at 0x400, which names no join counter, and one whose counter is at 0x800; for `tawait` counters 0 and 2. -/
def Test.item : Full := { Test.mem (.lit 0) with a := 6 }
def Test.joins : State := Test.put Test.s1 0x450 8 (2 ^ 48 + 0x800)
def Test.lost : State := Test.state { Test.one with regs := [(6, 0x400), (7, 0x90000)] }
theorem meets_ItemInstructionsEnterQueues : (∀ e ∈ [(0x0C2, Test.item), (0x0C4, Test.item), (0x0C3, { Test.item with d := 6 })],
    Test.Fit Test.s1 Test.is1 e.1 e.2 (Test.s1.refsOf Test.is1)) ∧
    (∀ s ∈ [Test.s1, Test.joins], Test.each s Test.is1 fun r => (s.ea r Test.item).toNat % 256 = 0 ∧ s.drained r.g r.t = true ∧ r.T.cp < 63 ∧
      s.tableFull = false ∧ s.port_ r.G.ctx [] .load (s.ea r Test.item) 128 = .ok (Test.bytesAt 0x400 128) ∧
      s.poisonedIn false (Test.bytesAt 0x400 128) = none ∧
      leNat (((s.gather (Test.bytesAt 0x400 128)).drop 0x50).take 8) = (if s = Test.s1 then 0 else 2 ^ 48 + 0x800) ∧
      s.port_ r.G.ctx [] .atomic (mkAddr 1 0x800) 8 = .ok (Test.bytesAt 0x800 8) ∧ (∀ p ∈ Test.bytesAt 0x800 8, p < memSize) ∧
      s.poisonedIn true (Test.bytesAt 0x800 8) = none ∧ s.port_ r.G.ctx [] .load (mkAddr 1 0x4AF) 1 = .ok (Test.bytesAt 0x4AF 1) ∧
      s.poisonedIn false (Test.bytesAt 0x4AF 1) = none) ∧
    -- a record in a buffer that is not there
    (∀ op ∈ [0x0C2, 0x0C4], Test.Fit Test.lost Test.is1 op Test.item (Test.lost.refsOf Test.is1)) ∧
    Test.each Test.lost Test.is1 fun r => (Test.lost.ea r Test.item).toNat % 256 = 0 ∧ Test.lost.drained r.g r.t = true ∧ r.T.cp < 63 ∧ Test.lost.tableFull = false ∧
      (match Test.lost.port_ r.G.ctx [] .load (Test.lost.ea r Test.item) 128 with | .refused _ _ => true | _ => false) = true := by
  refine ⟨Test.fits _ (by decide), fun s hs => ?_, fun op h => ?_, by decide⟩
  · simp only [List.mem_cons, List.not_mem_nil, or_false] at hs
    obtain rfl | rfl := hs <;> decide
  · simp only [List.mem_cons, List.not_mem_nil, or_false] at h
    obtain rfl | rfl := h <;> exact Test.fit_sound (by decide)

def Test.count2 : State := Test.put Test.s1 0x100 8 2
theorem meets_TaskAwaitResults : (∀ s ∈ [Test.s1, Test.count2], Test.Fit s Test.is1 0x0C5 (Test.mem (.lit 0)) (s.refsOf Test.is1)) ∧
    (∀ s ∈ [Test.s1, Test.count2], Test.each s Test.is1 fun r => r.T.held = [] ∧ (s.ea r (Test.mem (.lit 0))).toNat % 8 = 0 ∧ r.T.ld = 0 ∧
      s.drained r.g r.t = true ∧ s.port_ r.G.ctx (s.renOf r.G.item) .load (s.ea r (Test.mem (.lit 0))) 8 = .ok (Test.bytesAt 0x100 8) ∧
      (∀ p ∈ Test.bytesAt 0x100 8, p < memSize) ∧ s.poisonedIn false (Test.bytesAt 0x100 8) = none) ∧
    sextN (leNat (Test.s1.gather (Test.bytesAt 0x100 8))) 64 = 0 ∧ 0 < sextN (leNat (Test.count2.gather (Test.bytesAt 0x100 8))) 64 := by
  refine ⟨fun s hs => ?_, fun s hs => ?_, by decide, by decide⟩ <;> simp only [List.mem_cons, List.not_mem_nil, or_false] at hs
  · obtain rfl | rfl := hs <;> exact Test.fit_sound (by decide)
  · obtain rfl | rfl := hs <;> decide

/-- Every width, aligned and not; the last bytes of the buffer. -/
theorem meets_LoadsAndStoresStart : (∀ w, ∀ e ∈
    [(0x0D0 + Width.code w, { Test.mem (.lit 0) with d := 8 }), (0x0D5 + Width.code w, { Test.mem (.lit 1) with d := 8 }),
     (0x0DA + Width.code w, { Test.mem (.lit 0) with d := 8 }), (0x0DF + Width.code w, { Test.mem (.lit 0) with d := 8 }),
     (0x0E4 + Width.code w, { Test.mem (.lit 0) with d := 8 }), (0x0E9 + Width.code w, { Test.mem (.lit 0) with d := 8 })],
    Test.Fit Test.s1 Test.is1 e.1 e.2 (Test.s1.refsOf Test.is1)) ∧
    (∀ sub ∈ [0, 1, 2, 3, 4, 5], ∀ e ∈ [cfull 33 (Test.cw sub), cfull 34 ⟨sub, false, 8, 4, false, 7⟩, cfull 35 (Test.cw sub), cfull 36 (Test.cw sub)],
      Test.Fit Test.s1 Test.is1 e.1 e.2 (Test.s1.refsOf Test.is1)) ∧
    Test.each Test.s1 Test.is1 fun r =>
      Test.s1.port_ r.G.ctx (Test.s1.renOf r.G.item) .load (Test.s1.ea r (Test.mem (.lit 0))) 16 = .ok (Test.bytesAt 0x100 16) ∧
      Test.s1.port_ r.G.ctx (Test.s1.renOf r.G.item) .load (Test.s1.ea r (Test.mem (.lit 0xEF0))) 16 = .ok (Test.bytesAt 0xFF0 16) := by
  refine ⟨fun w => ?_, fun sub h => ?_, by decide⟩
  · cases w <;> exact Test.fits _ (by decide)
  · simp only [List.mem_cons, List.not_mem_nil, or_false] at h
    obtain rfl | rfl | rfl | rfl | rfl | rfl := h <;> exact Test.fits _ (by decide)

theorem meets_AtomicsStart : (∀ op ∈ List.range' 0x0F2 24, ∀ ty ∈ [Ty.b32, .n64], Test.Fit Test.s1 Test.is1 op { Test.mem (.lit 8) with d := 8, ty := ty } (Test.s1.refsOf Test.is1)) ∧
    Test.each Test.s1 Test.is1 fun r => (Test.s1.ea r (Test.mem (.lit 8))).toNat % 8 = 0 :=
  ⟨fun op h ty h' => Test.fit_sound (by
    have : ((List.range' 0x0F2 24).all fun op => [Ty.b32, .n64].all fun ty => Test.fit Test.s1 Test.is1 op { Test.mem (.lit 8) with d := 8, ty := ty }) = true := by decide
    exact List.all_eq_true.1 (List.all_eq_true.1 this op h) ty h'), by decide⟩

/-- A plane directory of one entry at 0x600: headers at 0x700, planes at 0x800 with stride 32, 2 blocks, D 24. Block 1 has E 130 and 3
planes. Two lanes store to block 1. -/
def Test.planar : State :=
  let s := Test.put Test.s2 0x600 32 (2 ^ 48 + 0x700 + 2 ^ 64 * (2 ^ 48 + 0x800) + 2 ^ 128 * 32 + 2 ^ 192 * 2 + 2 ^ 224 * (24 + 64))
  let u := Test.put s 0x704 4 (130 + 2 ^ 8 * 3)
  ({ u with ctxs := u.ctxs.map fun (e : Nat × Ctx) => (e.1, { e.2 with pdir := mkAddr 1 0x600, pdlen := 1 }) }).modG 2 fun G =>
    { G with threads := G.threads.map fun (e : Nat × Thread) => (e.1, { e.2 with regs := [(4, 1)], tags := [(8, 2 ^ 15 + 2 ^ 13 + 130), (9, 2 ^ 15 + 130)] }) }
def Test.pl : Full := { Test.full with d := 8, a := 4, b := .imm 0, c := 24 }
def Test.pde0 : Pde :=
  { hbase := mkAddr 1 0x700, pbase := mkAddr 1 0x800, pstride := 32, nblk := 2, d := 24, centre := false, valid := true, ro := false, reserved := false }
theorem meets_PlanarAccessesStart : (∀ e ∈ [(0x0EE, Test.pl), (0x0EF, { Test.pl with pd := 1 }), (0x0EF, { Test.pl with d := 9, pd := 1 }), (0x0F0, Test.pl), (0x0F1, Test.pl)],
    Test.Fit Test.planar Test.is2 e.1 e.2 (Test.planar.refsOf Test.is2)) ∧
    (Test.each Test.planar Test.is2 fun r => Test.planar.b32 r (.imm 0) < 65536 ∧ Test.planar.op32 r 4 = 1 ∧ Test.planar.pdeFor r.G.ctx 0 1 false = .ok Test.pde0 ∧
      bitN (r.T.tag 8) 15 = 1 ∧ bitN (r.T.tag 8) 13 = 1 ∧ bitN (r.T.tag 9) 15 = 1 ∧ bitN (r.T.tag 9) 13 = 0) ∧
    (Test.each Test.planar Test.is2 fun r => (Test.planar.readBlock r.G.ctx (Test.planar.renOf r.G.item) Test.pde0 1 (planesTo Test.pde0 24)).toOption.isSome = true ∧
      (Test.planar.readBlock r.G.ctx (Test.planar.renOf r.G.item) Test.pde0 1 (prfWant Test.pde0 24 (r.T.tag 9))).toOption.isSome = true) :=
  ⟨Test.fits _ (by decide), by decide, by decide⟩

/-- A hitch with 24 entries in a slot at 0x100, of tag 63, of a line of buffer 1; `hclr` at an aligned offset; `actld` at 16 bytes. -/
def Test.hitchF : Full := { Test.mem (.lit 0x40) with d := 4, pd := 1, mod := 3, ext := 15 }
theorem meets_HitchAndPrefetchStart : (∀ e ∈
    [(0x10A, Test.hitchF), (0x10B, { Test.hitchF with mod := 15 }), (0x10C, Test.mem (.lit 0)), (0x10D, Test.mem (.lit 0)),
     (0x10D, (cfull 42 ⟨0, false, 4, 0, false, 7⟩).2), (0x10E, { Test.mem (.lit 0) with d := 8, pd := 1 }), (0x10F, { Test.mem (.lit 0) with mod := 1 }),
     (0x070, Test.mem (.lit 0))], Test.Fit Test.s1 Test.is1 e.1 e.2 (Test.s1.refsOf Test.is1)) ∧
    (∀ f ∈ [Test.hitchF, { Test.hitchF with mod := 15 }], Test.each Test.s1 Test.is1 fun r => r.G.inTags (hitchTag f) = true ∧ 80 * (f.mod.toNat / 4 + 1) ≤ r.G.lr.alloc ∧
      Test.s1.op32 r f.d.toNat % 16 = 0 ∧ Test.s1.slotRuns r.g = [] ∧
      (∀ c ∈ Test.s1.ctx? r.G.ctx, (Test.s1.buf c (bufOf (Test.s1.ea r f))).remote = false) ∧
      Test.s1.port_ r.G.ctx (Test.s1.renOf r.G.item) .load (Test.s1.ea r f &&& ~~~(63#64)) 64 = .ok (Test.bytesAt 0x140 64)) ∧
    Test.each Test.s1 Test.is1 fun r => Test.s1.eo r (Test.mem (.lit 0)) % 16 = 0 ∧ (Test.s1.ea r (Test.mem (.lit 0))).toNat % 16 = 0 := by
  refine ⟨Test.fits _ (by decide), fun f h => ?_, by decide⟩
  simp only [List.mem_cons, List.not_mem_nil, or_false] at h
  obtain rfl | rfl := h <;> decide

/-- The bank's 4,112 bytes in a buffer of two pages. -/
def Test.wideBuf : State := { Test.s1 with mem := memWrite Test.s1.mem (0x10000 + 64 + 8) (leBytes 8 8192) }
theorem meets_HitchAndPrefetchStart_actld : Test.Fit Test.wideBuf Test.is1 0x070 (Test.mem (.lit 0)) (Test.wideBuf.refsOf Test.is1) ∧
    Test.each Test.wideBuf Test.is1 fun r => (match Test.wideBuf.port_ r.G.ctx (Test.wideBuf.renOf r.G.item) .load (Test.wideBuf.ea r (Test.mem (.lit 0))) 4112 with
      | .ok _ => true | _ => false) = true := ⟨Test.fit_sound (by decide), by decide⟩

/-- Copies of 0x40 bytes under tag 5 and under a barrier at 0x200; planes of 32 blocks of the handle 0 with k = 1 and m = 24 at the ends of
their ranges; a transform; and every queue of the die full. -/
def Test.jobs (n : Nat) : State :=
  (Test.state { Test.one with alloc := 8192, regs := Test.one.regs ++ [(10, n), (12, 0x200), (20, 0), (21, 32)] }).setBar 2 0x200 Test.bar1
def Test.busy (s : State) : State := { s with jobs := (List.range 1024).map fun k => { id := k, ctx := 0, grp := 9, tid := 0, item := 0, core := 0, stamp := none, kind := .copyLs 0 0 0, scope := 0, bind := .tag 0, engine := some (k % 16) } }
def Test.job : Full := { Test.full with d := 6, a := 4, b := .num 10, c := 5, pd := 1 }
def Test.jobBar : Full := { Test.job with c := 12, s := true }
def Test.planesN : Nat := 2 ^ 16 + 24 * 2 ^ 21
theorem meets_EngineJobsEnterQueues : (∀ e ∈
    [(0x120, Test.job), (0x120, Test.jobBar), (0x121, Test.job), (0x122, Test.job), (0x123, Test.job), (0x124, { Test.job with d := 63 }), (0x128, { Test.job with b := .imm 4 })],
    Test.Fit (Test.jobs 0x40) Test.is1 e.1 e.2 ((Test.jobs 0x40).refsOf Test.is1)) ∧
    (∀ e ∈ [(0x125, { Test.job with a := 20 }), (0x126, { Test.job with a := 20 }), (0x127, { Test.job with d := 63, a := 20 })],
      Test.Fit (Test.jobs Test.planesN) Test.is1 e.1 e.2 ((Test.jobs Test.planesN).refsOf Test.is1)) ∧
    (Test.each (Test.jobs 0x40) Test.is1 fun r => (Test.jobs 0x40).b32 r (.num 10) ≤ r.G.lr.alloc ∧ r.G.inTags 5 = true ∧ (Test.jobs 0x40).tagFull r.g 5 = false ∧
      (Test.jobs 0x40).place r false ((Test.jobs 0x40).op32 r 12) = (2, 0x200) ∧ ((Test.jobs 0x40).bar 2 0x200).exp ≠ 0 ∧
      ((Test.jobs 0x40).bar 2 0x200).txin + (Test.jobs 0x40).secCount (.pad 2 0x400) 0x40 < 2 ^ 24 ∧ r.T.cp < 63 ∧
      (Test.jobs 0x40).drained r.g r.t = true ∧ (Test.jobs 0x40).tableFull = false ∧ (Test.jobs 0x40).enginesFull (dieOf r.G.core) = false ∧
      (Test.jobs 0x40).op64 r 6 % 64 = 0 ∧ (Test.jobs 0x40).op64 r 4 % 64 = 0) ∧
    (Test.each (Test.jobs Test.planesN) Test.is1 fun r =>
      let n := (Test.jobs Test.planesN).b32 r (.num 10)
      (Test.jobs Test.planesN).op64 r 20 = 32 * 2 ^ 32 ∧ bitsN n 31 26 = 0 ∧ bitsN n 20 16 = 1 ∧ bitsN n 25 21 = 24 ∧ (24 + 2) * planeS 32 ≤ r.G.lr.alloc ∧
      (Test.jobs Test.planesN).op32 r 6 % 32 = 0) ∧
    Test.each (Test.busy (Test.jobs 0x40)) Test.is1 fun r => (Test.busy (Test.jobs 0x40)).tableFull = false ∧ (Test.busy (Test.jobs 0x40)).drained r.g r.t = true ∧
      (Test.busy (Test.jobs 0x40)).enginesFull (dieOf r.G.core) = true := ⟨Test.fits _ (by decide), Test.fits _ (by decide), by decide, by decide, by decide⟩

theorem meets_JobEntry : (Test.jobs 0x40).group? 2 = some (Test.group (Test.jobs 0x40)) ∧ ((Test.jobs 0x40).group? 2).isSome = true ∧
    ((Test.jobs 0x40).bar 2 0x200).txin + 2 < 2 ^ 24 ∧ ((Test.jobs 0x40).bar 2 0x200).txout + 0 < 2 ^ 24 ∧ 0 < ((Test.jobs 0x40).bar 2 0x200).pend := by decide

/-- Leases of 1 and 393,216 lines; the query of lease 3; a card of `nmc` at 0x400 that names tag 7, of a group with leave of level 3, and one
that names a barrier. -/
def Test.nmcF : Full := { Test.mem (.lit 0) with a := 6 }
def Test.granted (x : Nat) : State := Test.put (Test.s1.modG 2 fun G => { G with grant := 3 }) 0x400 64 x
/-- The card has been read. -/
def Test.carded (x : Nat) : State := (Test.granted x).modT 2 0 fun T => { T with image := some (none, leBytes 64 x) }
/-- A card of zeros under tag 7, and one that names the barrier at 0x40. -/
def Test.cards : List Nat := [7 * 2 ^ 64 * 2 ^ 256, 2 ^ 8 + 0x40 * 2 ^ 64 * 2 ^ 256]
theorem meets_LeaseAndNearMemoryResults : (∀ e ∈
    [(0x129, { Test.full with d := 8, a := 2, b := .imm 1, pd := 1 }), (0x12A, { Test.full with d := 8, a := 8, pd := 1 }), (0x12B, { Test.full with a := 8 })],
    Test.Fit Test.s1 Test.is1 e.1 e.2 (Test.s1.refsOf Test.is1)) ∧
    (Test.each Test.s1 Test.is1 fun r => 1 ≤ Test.s1.op32 r 2 ∧ Test.s1.op32 r 2 ≤ 393216 ∧ 1 ≤ Test.s1.b32 r (.imm 1) ∧ Test.s1.op32 r 8 = 3) ∧
    (∀ x ∈ Test.cards, Test.Fit (Test.granted x) Test.is1 0x12C Test.nmcF ((Test.granted x).refsOf Test.is1) ∧
      Test.Fit (Test.carded x) Test.is1 0x12C Test.nmcF ((Test.carded x).refsOf Test.is1)) ∧
    ∀ x ∈ Test.cards, (∀ s ∈ [Test.granted x, Test.carded x], Test.each s Test.is1 fun r => (s.ea r Test.nmcF).toNat % 64 = 0 ∧ 3 ≤ r.G.grant ∧ r.T.cp < 63 ∧
        s.drained r.g r.t = true ∧ s.tableFull = false ∧ s.port_ r.G.ctx (s.renOf r.G.item) .load (s.ea r Test.nmcF) 64 = .ok (Test.bytesAt 0x400 64)) ∧
      (Test.each (Test.granted x) Test.is1 fun r => r.T.image = none ∧ r.T.ld < 63) ∧
      Test.each (Test.carded x) Test.is1 fun r => r.T.image.isSome = true ∧ leNat r.imageBytes = x ∧
        (if bitN x 8 = 0 then r.G.inTags (bitsN x 325 320) = true ∧ (Test.carded x).tagFull r.g (bitsN x 325 320) = false else bitsN x 351 320 % 16 = 0) := by
  unfold Test.cards
  refine ⟨Test.fits _ (by decide), by decide, fun x h => ?_, fun x h => ?_⟩ <;> simp only [List.mem_cons, List.not_mem_nil, or_false] at h
  · obtain rfl | rfl := h <;> exact ⟨Test.fit_sound (by decide), Test.fit_sound (by decide)⟩
  · obtain rfl | rfl := h <;>
      exact ⟨fun s hs => by (simp only [List.mem_cons, List.not_mem_nil, or_false] at hs; obtain rfl | rfl := hs <;> decide), by decide, by decide⟩

/-- One thread of a MATRIX group with 4 tiles, 8 accumulators and 4 Twill contexts; v4:v5 and v6:v7 as before, v8 to v15 two descriptors of
loop operands: rows of f32 at 0x400 and, for B, at 0x500, of stride 16. -/
def Test.desc (off : Nat) (fmt : Nat) : Nat := 2 ^ 48 + off + 2 ^ 64 * 16 + 2 ^ 116 * fmt
def Test.words (x : Nat) (n : Nat) : List (Nat × Nat) := (List.range 4).map fun k => (n + k, x / 2 ^ (32 * k) % 2 ^ 32)
def Test.matrix : State :=
  (Test.state { Test.one with role := .matrix, regs := [(2, 5), (4, 0x100), (5, 0x10000), (6, 0x400), (7, 0x10000)] ++ Test.words (Test.desc 0x400 11) 8 ++ Test.words (Test.desc 0x500 11) 12 ++ [(16, 16), (17, 0x200)] }).modG 2 fun G =>
    { G with lr := { G.lr with tiles := 4, accs := 8 }, threads := G.threads.map fun (e : Nat × Thread) => (e.1, { e.2 with tl := 14 }) }
/-- Tiles 1 to 3 of f32, f32 and planar format. -/
def Test.tiled : State := Test.matrix.modG 2 fun G =>
  { G with tiles := [(1, { fmt := 11, valid := true }), (2, { fmt := 11, valid := true }), (3, { fmt := 16, valid := true })] }
def Test.tileF : Full := { Test.full with d := 3, a := 6, b := .num 16, ty := .f32 }
theorem meets_TileOperationsStart : (∀ e ∈
    [(0x150, Test.tileF), (0x150, { Test.tileF with b := .num 16, c := 24, s := true, ty := .b32 }), (0x151, Test.tileF), (0x152, Test.tileF), (0x153, Test.tileF),
     (0x154, Test.tileF), (0x15C, { Test.tileF with d := 7 }), (0x15D, { Test.tileF with d := 7 }), (0x15E, { Test.tileF with d := 7 }), (0x15F, { Test.tileF with d := 7 })],
    Test.Fit Test.matrix Test.is1 e.1 e.2 (Test.matrix.refsOf Test.is1)) ∧
    (∀ u ∈ [({ wt := [3] } : MUse), { rt := [3] }, { wa := [7] }, { ra := [7] }], mayUse u Test.matrix (Test.matrix.refsOf Test.is1)) ∧
    Test.each Test.matrix Test.is1 fun r => Test.matrix.op64 r 6 % 16 = 0 ∧ Test.matrix.op32 r 6 % 16 = 0 ∧ Test.matrix.b32 r (.num 16) % 16 = 0 ∧
      Test.matrix.b32 r (.num 16) < 65536 ∧ r.T.tl < 15 ∧ Test.matrix.drained r.g r.t = true := by
  refine ⟨Test.fits _ (by decide), fun u h lo hlo => ?_, by decide⟩
  cases hlo
  simp only [List.mem_cons, List.not_mem_nil, or_false] at h
  obtain rfl | rfl | rfl | rfl := h <;> exact ⟨by decide, by decide, by decide⟩

theorem meets_MatrixMultiplyResults : Test.Fit Test.tiled Test.is1 0x156 { Test.full with d := 7, a := 1, b := .num 2 } (Test.tiled.refsOf Test.is1) ∧
    mayUse { rt := [1, 2], ra := [7], wa := [7], engine := true } Test.tiled (Test.tiled.refsOf Test.is1) ∧
    Test.each Test.tiled Test.is1 fun r => Test.tiled.group? r.g = some r.G ∧ (r.G.tile 1).valid = true ∧ (r.G.tile 2).valid = true ∧
      pairing (r.G.tile 1).fmt (r.G.tile 2).fmt = some (false, 32) ∧ 0 < if (r.G.tile 1).fmt = 16 then (if (r.G.tile 2).fmt = 14 then 4 else 2) else 1 := by
  refine ⟨Test.fit_sound (by decide), fun lo h => ?_, by decide⟩
  cases h; exact ⟨by decide, by decide, by decide⟩

/-- The pattern of R373's worked case, loaded: 8 × 8 with 24 entries. -/
def Test.kp : TwCtx :=
  { desc := 0, values := mkAddr 1 0x600, rowptr := 0, rows := 8, cols := 8, fmtb := 11,
    words := [0x1000000000000001, 0x3000000000000002, 0x4001000004000004, 0], seed := 0, st := .loaded, dirCol := false, line := 0, pos := 0 }
def Test.pattern : State := Test.matrix.setTw 2 3 Test.kp
def Test.loopF : Full := { Test.full with d := 7, a := 8, b := .imm 1, c := 12, mod := 3 }
def Test.leaveLoop : State := Test.matrix.modG 2 fun G => { G with grant := 2 }
theorem meets_MatrixLoopsStart :
    (∀ e ∈ [(0x157, { Test.loopF with mod := 0 }), (0x15A, Test.disp), (0x15A, { Test.full with b := .imm 0, s := true })],
      Test.Fit Test.matrix Test.is1 e.1 e.2 (Test.matrix.refsOf Test.is1)) ∧
    (∀ e ∈ [(0x158, Test.loopF), (0x159, Test.loopF)], Test.Fit Test.pattern Test.is1 e.1 e.2 (Test.pattern.refsOf Test.is1)) ∧
    (mayUse { ra := [7], wa := [7], engine := true } Test.matrix (Test.matrix.refsOf Test.is1) ∧
      mayUse { ra := [7], wa := [7], engine := true } Test.pattern (Test.pattern.refsOf Test.is1)) ∧
    (Test.each Test.matrix Test.is1 fun r => (MDesc.ofNat (Test.matrix.op128 r 8)).2 = true ∧ (MDesc.ofNat (Test.matrix.op128 r 12)).2 = true ∧
      (MDesc.ofNat (Test.matrix.op128 r 8)).1.aligned = none ∧ (MDesc.ofNat (Test.matrix.op128 r 12)).1.aligned = none ∧
      pairing (MDesc.ofNat (Test.matrix.op128 r 8)).1.fmt (MDesc.ofNat (Test.matrix.op128 r 12)).1.fmt = some (false, 32) ∧
      1 ≤ Test.matrix.b32 r (.imm 1) ∧ (Test.matrix.group? r.g).map (·.loop) = some none ∧ Test.matrix.drained r.g r.t = true) ∧
    (Test.each Test.leaveLoop Test.is1 fun r => 65536 < Test.leaveLoop.b32 r (.lit 65537) ∧ 2 ≤ r.G.grant) ∧
    (Test.each Test.pattern Test.is1 fun r => twCheck Test.loopF true Test.pattern r = none ∧ Test.pattern.tw r.g 3 = some Test.kp ∧
      Test.pattern.b32 r (.imm 7) < Test.kp.rows ∧ (MDesc.ofNat (Test.pattern.op128 r 12)).2 = true ∧ (MDesc.ofNat (Test.pattern.op128 r 12)).1.inc = 0 ∧
      (MDesc.ofNat (Test.pattern.op128 r 12)).1.trans = false ∧ (MDesc.ofNat (Test.pattern.op128 r 12)).1.aligned = none ∧ Test.kp.oneWay = none ∧
      (MDesc.ofNat (Test.pattern.op128 r 12)).1.fmt ≠ 16 ∧ pairing (Test.kp.fmtb % 256) (MDesc.ofNat (Test.pattern.op128 r 12)).1.fmt = some (false, 32)) ∧
    ∀ tr, Test.each Test.pattern Test.is1 fun r => (match sparseLines Test.pattern r Test.kp tr 7 32 with
      | .ok (u, ls) => u == Test.pattern && (ls.all fun l => l.all fun e => decide (e.2 < 2 ^ 32 - 1)) | .error _ => false) = true := by
  refine ⟨Test.fits _ (by decide), Test.fits _ (by decide), ⟨fun lo h => ?_, fun lo h => ?_⟩, by decide, by decide, by decide, by decide⟩ <;> cases h <;>
    exact ⟨by decide, by decide, by decide⟩

theorem meets_TileAndAccumulatorResults : (∀ e ∈
    [(0x155, { Test.full with d := 3, ty := .f8, ext := 12, mod := 8 }), (0x155, { Test.full with d := 3, s := true }), (0x15B, { Test.full with d := 7 }),
     (0x160, { Test.full with d := 7, a := 7 }), (0x160, { Test.full with d := 3, a := 7, ty := .bf16, s := true }), (0x161, { Test.full with d := 3, a := 1, b := .num 2 }),
     (0x161, { Test.full with d := 3, a := 3, b := .num 2, s := true })], Test.Fit Test.tiled Test.is1 e.1 e.2 (Test.tiled.refsOf Test.is1)) ∧
    (∀ u ∈ [({ wt := [3] } : MUse), { wa := [7] }, { ra := [7], wa := [7] }, { ra := [7], wt := [3] }, { rt := [1, 2], wt := [3], engine := true }],
      mayUse u Test.tiled (Test.tiled.refsOf Test.is1)) ∧
    Test.each Test.tiled Test.is1 fun r => Test.tiled.group? r.g = some r.G ∧ (r.G.tile 1).fmt = 11 ∧ (r.G.tile 1).valid = true := by
  refine ⟨Test.fits _ (by decide), fun u h lo hlo => ?_, by decide⟩
  cases hlo
  simp only [List.mem_cons, List.not_mem_nil, or_false] at h
  obtain rfl | rfl | rfl | rfl | rfl := h <;> exact ⟨by decide, by decide, by decide⟩

/-- The descriptor of the pattern at 0x400 and its words at 0x500; both read; a pattern whose rows the table at 0x700 starts, with its first
word read; the image of the context in the scratchpad at offset 0x100, and read. -/
def Test.kpDesc : Nat := 2 ^ 48 + 0x600 + 2 ^ 64 * (2 ^ 48 + 0x500) + 2 ^ 128 * 8 + 2 ^ 160 * 8 + 2 ^ 192 * 11 + 2 ^ 208 * 4
def Test.unloaded : State :=
  Test.put (Test.put Test.matrix 0x400 64 Test.kpDesc) 0x500 32 (0x1000000000000001 + 2 ^ 64 * (0x3000000000000002 + 2 ^ 64 * 0x4001000004000004))
def Test.read_ (s : State) (bs : List Byte) : State := s.modT 2 0 fun T => { T with image := some (some 3, bs) }
def Test.fetched : State := Test.read_ Test.unloaded (leBytes 64 Test.kpDesc ++ Test.kp.words.flatMap (leBytes 8))
def Test.kpTable : TwCtx := { Test.kp with rowptr := mkAddr 1 0x700, words := [0x1000000000000000, 0x7000000008000008, 0x7040000008000008, 0] }
def Test.tabled : State := Test.read_ (Test.matrix.setTw 2 3 Test.kpTable) (leBytes 4 (2 ^ 32 - 2))
def Test.delivery : Access := { id := 9, order := 9, grp := 2, tid := 0, lane := 0, kind := .deliver 20 7 2 true, parts := [(0, 1)] }
def Test.delivering : State := { Test.pattern.modT 2 0 fun T => { T with ld := 1 } with accesses := [Test.delivery] }
def Test.saved : State := Test.matrix.padWrite 2 0x100 Test.kp.image
def Test.restoring (bs : List Byte) : State := Test.read_ Test.saved bs
def Test.twF : Full := { Test.full with d := 20, b := .imm 7, mod := 3, pd := 2 }
def Test.twMem (a : Nat) : Full := { Test.full with a := BitVec.ofNat 8 a, b := .lit 0, c := 0xF0, mod := 3 }
theorem meets_TwillResults :
    -- a descriptor and a saved image are asked for
    ((Test.Fit Test.unloaded Test.is1 0x190 { Test.twMem 6 with d := 0xF0 } (Test.unloaded.refsOf Test.is1) ∧
        Test.Fit Test.saved Test.is1 0x195 (Test.twMem 4) (Test.saved.refsOf Test.is1)) ∧
      (Test.each Test.unloaded Test.is1 fun r => twCheck { Test.twMem 6 with d := 0xF0 } false Test.unloaded r = none ∧ Test.unloaded.drained r.g r.t = true ∧
        (Test.unloaded.ea r (Test.twMem 6)).toNat % 64 = 0 ∧ r.T.image = none ∧ r.T.ld < 63 ∧
        ∀ k < 4, Test.unloaded.port_ r.G.ctx (Test.unloaded.renOf r.G.item) .load (addOff (mkAddr 1 0x400) (16 * k : Nat)) 16 = .ok (Test.bytesAt (0x400 + 16 * k) 16)) ∧
      Test.each Test.saved Test.is1 fun r => twCheck (Test.twMem 4) false Test.saved r = none ∧ Test.saved.drained r.g r.t = true ∧ Test.saved.eo r (Test.twMem 4) % 64 = 0 ∧
        r.T.image = none ∧ r.T.ld < 63) ∧
    -- a program read
    (Test.Fit Test.fetched Test.is1 0x190 { Test.twMem 6 with d := 0xF0 } (Test.fetched.refsOf Test.is1) ∧
      (Test.each Test.fetched Test.is1 fun r => twCheck { Test.twMem 6 with d := 0xF0 } false Test.fetched r = none ∧ Test.fetched.drained r.g r.t = true ∧
        64 + 8 * 4 ≤ r.imageBytes.length ∧ leNat (r.imageBytes.take 64) = Test.kpDesc ∧
        (List.range 4).map (fun i => leNat ((r.imageBytes.drop (64 + 8 * i)).take 8)) = Test.kp.words) ∧
      bitsN Test.kpDesc 214 208 = 4 ∧ bitN Test.kpDesc 215 = 0 ∧ bitsN Test.kpDesc 255 216 = 0 ∧ bitsN Test.kpDesc 511 320 = 0 ∧ bitsN Test.kpDesc 127 64 % 8 = 0 ∧
      twFieldsOk 8 8 11 4 = true ∧ Test.kp.malformed = none) ∧
    -- deliveries of a line by rows and by columns, without a table, and with the word that starts the line read
    (∀ s ∈ [Test.pattern, Test.tabled], ∀ op ∈ [0x191, 0x192, 0x193], Test.Fit s Test.is1 op Test.twF (s.refsOf Test.is1)) ∧
    (∀ e ∈ [(Test.pattern, Test.kp), (Test.tabled, Test.kpTable)], Test.each e.1 Test.is1 fun r => twCheck Test.twF true e.1 r = none ∧ e.1.tw r.g 3 = some e.2 ∧
      e.1.drained r.g r.t = true ∧ e.1.b32 r (.imm 7) < e.2.rows ∧ e.1.b32 r (.imm 7) < e.2.cols ∧ e.2.oneWay = none) ∧
    (Test.kp.tabled = false ∧ ∀ col pos, pos < 5 → ∀ e ∈ (({ Test.kp with dirCol := col, line := 7, st := .active } : TwCtx).lineOf col 7).drop pos,
      Test.kp.countTo e.2.1 + e.2.2 < 2 ^ 32 - 1) ∧
    (Test.kpTable.tabled = true ∧ ∀ col, Test.kpTable.lineOf col 7 = [(7, 7, 0)] ∧ Test.each Test.tabled Test.is1 fun r => 4 * 1 ≤ r.imageBytes.length ∧
      leNat (r.imageBytes.take 4) + 0 = 2 ^ 32 - 2) ∧
    (∃ T, Due Test.delivering Test.delivery (Test.group Test.delivering) T) ∧
    -- images saved and restored
    (Test.Fit Test.saved Test.is1 0x194 (Test.twMem 4) (Test.saved.refsOf Test.is1) ∧
      ∀ bs ∈ [List.replicate 64 0, Test.kp.image], Test.Fit (Test.restoring bs) Test.is1 0x195 (Test.twMem 4) ((Test.restoring bs).refsOf Test.is1) ∧
        Test.each (Test.restoring bs) Test.is1 fun r => twCheck (Test.twMem 4) false (Test.restoring bs) r = none ∧ (Test.restoring bs).eo r (Test.twMem 4) % 64 = 0 ∧
          r.imageBytes = bs ∧ 64 ≤ bs.length ∧ bitN (leNat (bs.take 64)) 216 = (if bs = Test.kp.image then 1 else 0)) := by
  refine ⟨⟨⟨Test.fit_sound (by decide), Test.fit_sound (by decide)⟩, by decide, by decide⟩, ⟨Test.fit_sound (by decide), by decide, by decide⟩, fun s hs op h => ?_,
    fun e he => ?_, by decide, by decide, ⟨(Test.delivering.thread? 2 0).get (by decide), by decide, by decide, by decide, by decide, by decide⟩,
    Test.fit_sound (by decide), fun bs hb => ?_⟩
  · simp only [List.mem_cons, List.not_mem_nil, or_false] at h hs
    obtain rfl | rfl := hs <;> obtain rfl | rfl | rfl := h <;> exact Test.fit_sound (by decide)
  · simp only [List.mem_cons, List.not_mem_nil, or_false] at he
    obtain rfl | rfl := he <;> decide
  · simp only [List.mem_cons, List.not_mem_nil, or_false] at hb
    obtain rfl | rfl := hb <;> exact ⟨Test.fit_sound (by decide), by decide⟩

/-- A context whose group has no handler, with a log of 64 records at 0x1000; a thread in handler mode. -/
def Test.logged (s : State) : State := { s with edge := { s.edge with elbase := 0x1000, elsize := 64 } }
def Test.bare : State := Test.logged (Test.s1.modG 2 fun G => { G with handler := 0 })
def Test.handling : State := Test.logged (Test.s1.modT 2 0 fun T => { T with hmode := .user, tpc := mkAddr 1 0x80 })
theorem Test.logFits (s : State) (h : s.edge.ecnt = []) (h' : s.absent = none ∧ s.edge.elbase + 64 * s.edge.elsize ≤ memSize ∧ Memory.wf s.mem = true) :
    LogFits s := ⟨h'.1, h'.2.1, h'.2.2, fun c => by rw [h]; show (0 : Nat) + 1 < 2 ^ 64; norm_num⟩
theorem Test.mortal {s : State} {c : Nat} {C : Ctx} (h : s.ctx? c = some C ∧ (C.killed = false ∧ C.doomed = none ∧ bitN C.svc 4 = 0) ∧ s.queues = [] ∧
    (∀ i ∈ s.items, i.host = none) ∧ s.hwq = [] ∧ (s.groups.map (·.1)).Nodup) : Mortal s c C :=
  ⟨h.1, h.2.1, by simp [h.2.2.1], fun i hi _ => h.2.2.2.1 i hi, by simp [h.2.2.2.2.1], h.2.2.2.2.2⟩
theorem meets_TrapInstructionsEnterHandlers : (∀ e ∈ [(0x1B0, { Test.full with b := .lit 65535 }), (0x1B4, Test.full)],
    Test.Fit Test.s2 Test.is2 e.1 e.2 (Test.s2.refsOf Test.is2)) ∧
    (∀ s ∈ [Test.bare, Test.handling], LogFits s ∧ (∃ C, Mortal s 0 C) ∧ Issued s Test.is1 (s.refsOf Test.is1) ∧
      Admits 0x1B0 Test.full (s.refsOf Test.is1)) ∧
    (Test.each Test.bare Test.is1 fun r => r.T.hmode = .none ∧ r.G.handler = 0 ∧ r.G.lr.handler = 0 ∧ r.G.open_ = []) ∧
    Test.each Test.handling Test.is1 fun r => r.T.hmode ≠ .none := by
  refine ⟨Test.fits _ (by decide), fun s hs => ?_, by decide, by decide⟩
  simp only [List.mem_cons, List.not_mem_nil, or_false] at hs
  have ok (s : State) (h1 : LogFits s) (C : Ctx) (h2 : Mortal s 0 C) (h3 : Issued s Test.is1 (s.refsOf Test.is1))
      (h4 : ∀ r ∈ s.refsOf Test.is1, badOperand ((shapeOf 0x1B0 false 0).get (by decide)) Test.full 0x1B0 r.G.lr.nreg = none ∧
        r.G.role.permits ((shapeOf 0x1B0 false 0).get (by decide)).cls = true ∧ r.T.poison = []) :
      LogFits s ∧ (∃ C, Mortal s 0 C) ∧ Issued s Test.is1 (s.refsOf Test.is1) ∧ Admits 0x1B0 Test.full (s.refsOf Test.is1) :=
    ⟨h1, ⟨C, h2⟩, h3, _, by decide, h4⟩
  obtain rfl | rfl := hs
  · exact ok _ (Test.logFits _ rfl (by decide)) ((Test.bare.ctx? 0).get (by decide)) (Test.mortal (by decide))
      ⟨by decide, by decide, by decide, by decide, by decide⟩ (by decide)
  · exact ok _ (Test.logFits _ rfl (by decide)) ((Test.handling.ctx? 0).get (by decide)) (Test.mortal (by decide))
      ⟨by decide, by decide, by decide, by decide, by decide⟩ (by decide)

/-- A thread that returns from its handler, with its delivery open; one in a PREEMPT handler with an open and without a delivery. -/
def Test.preempted (open_ : Bool) : State := (Test.s1.modT 2 0 fun T => { T with hmode := .preempt, tcause := 0x21 }).modG 2 fun G =>
  { G with open_ := if open_ then [{ warp := 0, tids := [0], preempt := true }] else [] }
def Test.returning : State := Test.handling.modG 2 fun G => { G with open_ := [{ warp := 0, tids := [0], preempt := false }] }
theorem meets_HandlerResults :
    (Test.Fit Test.s1 Test.is1 0x1B1 { Test.full with a := 4 } (Test.s1.refsOf Test.is1) ∧ Test.each Test.s1 Test.is1 fun r => Test.s1.op64 r 4 % 4 = 0) ∧
    (Issued Test.returning Test.is1 (Test.returning.refsOf Test.is1) ∧ Admits 0x1B2 Test.full (Test.returning.refsOf Test.is1) ∧
      Test.each Test.returning Test.is1 fun r => r.T.hmode ≠ .none ∧ r.T.tpc.toNat % 4 = 0 ∧ r.T.pending = [] ∧ r.G.heldDel = [] ∧ r.T.tcause.toNat % 256 ≠ 0x21) ∧
    ∀ o, Issued (Test.preempted o) Test.is1 ((Test.preempted o).refsOf Test.is1) ∧ Admits 0x1B3 Test.full ((Test.preempted o).refsOf Test.is1) ∧
      Test.each (Test.preempted o) Test.is1 fun r => r.T.hmode = .preempt ∧
        ((∃ d ∈ r.G.open_, d.preempt = true ∧ r.t ∈ d.tids) ↔ o = true) := by
  refine ⟨⟨Test.fit_sound (by decide), by decide⟩,
    ⟨⟨by decide, by decide, by decide, by decide, by decide⟩, ⟨(shapeOf 0x1B2 false 0).get (by decide), by decide, by decide⟩, by decide⟩, fun o => ?_⟩
  cases o <;> exact ⟨⟨by decide, by decide, by decide, by decide, by decide⟩, ⟨(shapeOf 0x1B3 false 0).get (by decide), by decide, by decide⟩, by decide⟩

/-- A group with leave of level 3 and one without; a context with a schedule of 2 phases of one entry each at 0x400. -/
def Test.leave3 : State := Test.s1.modG 2 fun G => { G with grant := 3 }
def Test.scheduled : State :=
  let s := Test.put (Test.put Test.s1 0x400 64 (2 + 2 ^ 64 * (2 ^ 48 + 0x440))) 0x440 32 ((1 + 2 ^ 64 * (2 ^ 48 + 0x480)) * (1 + 2 ^ 128))
  { Test.put s 0x480 16 (1 + 2 ^ 81 * 1 + 2 ^ 113 * 3 + 2 ^ 121) with ctxs := s.ctxs.map fun (e : Nat × Ctx) => (e.1, { e.2 with evs := mkAddr 1 0x400 }) }
theorem meets_LeaveAndPhaseResults :
    (∀ e ∈ [(0x1B5, { Test.full with b := .imm 3 }), (0x1B6, Test.full)], Test.Fit Test.leave3 Test.is1 e.1 e.2 (Test.leave3.refsOf Test.is1)) ∧
    (Test.each Test.leave3 Test.is1 fun r => 1 ≤ Test.leave3.b32 r (.imm 3) ∧ Test.leave3.b32 r (.imm 3) ≤ 3 ∧ Test.leave3.b32 r (.imm 3) ≤ r.G.grant) ∧
    (Test.Fit Test.s1 Test.is1 0x1B5 { Test.full with b := .imm 1 } (Test.s1.refsOf Test.is1) ∧
      Test.each Test.s1 Test.is1 fun r => r.G.grant < Test.s1.b32 r (.imm 1) ∧ r.T.wait ≠ .passed) ∧
    (∀ s ∈ [Test.s1, Test.scheduled], ∀ e ∈ [(0x1B7, Test.full), (0x1B8, { Test.full with b := .imm 1 })], Test.Fit s Test.is1 e.1 e.2 (s.refsOf Test.is1)) ∧
    (Test.s1.ctx? 0).map (·.evs) = some 0 ∧ (Test.scheduled.ctx? 0).map (·.evs) = some (mkAddr 1 0x400) ∧
    Test.scheduled.schedHeader 0 (mkAddr 1 0x400) = .ok (2, mkAddr 1 0x440) ∧
    ((Test.scheduled.ctx? 0).map (·.phaseAsks) = some [] ∧ ∀ ask ∈ [none, some 0, some 1], Test.scheduled.phaseMiss 0 ask = none) ∧
    ∀ k < 2, Test.scheduled.schedPhase 0 (mkAddr 1 0x400) k = .ok ⟨2, 0, [1 + 2 ^ 81 + 2 ^ 113 * 3 + 2 ^ 121], 0, 0⟩ := by
  refine ⟨Test.fits _ (by decide), by decide, ⟨Test.fit_sound (by decide), by decide⟩, fun s hs => ?_, by decide, by decide, by decide, by decide, by decide⟩
  simp only [List.mem_cons, List.not_mem_nil, or_false] at hs
  obtain rfl | rfl := hs <;> exact Test.fits _ (by decide)

/-- `ld` of v192, which no thread has; `tld` in a general group; `iadd` that reads a poisoned v2. -/
def Test.poison2 : State := Test.s1.modT 2 0 fun T => { T with poison := [2] }
def Test.shapeIs (op : Nat) (f : Full) (sh : Shape) : Prop := shapeOf op f.s f.ext.toNat = some sh
theorem meets_ChecksComeBeforeEffects :
    (∀ e ∈ [(Instr.ld .b4 { Test.mem (.lit 0) with d := 192 }, 0x0D2), (.tzero { Test.full with ty := .f32 }, 0x155), (.iadd (Test.abc .s32), 0x000)],
      (formsOf e.1).map (·.1) = [e.2]) ∧
    (∀ s ∈ [Test.s1, Test.poison2], Issued s Test.is1 (s.refsOf Test.is1) ∧ CanTrap (s.refsOf Test.is1)) ∧
    (∃ sh, Test.shapeIs 0x0D2 (Test.mem (.lit 0)) sh ∧ Test.each Test.s1 Test.is1 fun r => badOperand sh { Test.mem (.lit 0) with d := 192 } 0x0D2 r.G.lr.nreg = some (0, 192)) ∧
    (∃ sh, Test.shapeIs 0x155 Test.full sh ∧ Test.each Test.s1 Test.is1 fun r => badOperand sh { Test.full with ty := .f32 } 0x155 r.G.lr.nreg = none ∧ r.G.role.permits sh.cls = false) ∧
    ∃ sh, Test.shapeIs 0x000 Test.full sh ∧ Test.each Test.poison2 Test.is1 fun r => badOperand sh (Test.abc .s32) 0x000 r.G.lr.nreg = none ∧ r.G.role.permits sh.cls = true ∧
      r.T.guard 7 false = true ∧ poisoned sh 0x000 (Test.abc .s32) r.T = some (2, 2) ∧ oneLane sh 0x000 2 = false := by
  refine ⟨by decide, fun s hs => ?_, ⟨(shapeOf 0x0D2 false 0).get (by decide), by rfl, by decide⟩, ⟨(shapeOf 0x155 false 0).get (by decide), by rfl, by decide⟩,
    ⟨(shapeOf 0x000 false 0).get (by decide), by rfl, by decide⟩⟩
  simp only [List.mem_cons, List.not_mem_nil, or_false] at hs
  obtain rfl | rfl := hs <;> exact ⟨⟨by decide, by decide, by decide, by decide, by decide⟩, by unfold CanTrap; decide⟩

/-- Values just outside each range: `far` is 0x102 where 4 must divide it; a ring block of zeros; a handle of 65536. -/
def Test.off2 : Test.Set := { Test.one with regs := [(4, 0x102), (5, 0x10000), (6, 0x100), (7, 0x10000)] }
def Test.odd : State := Test.state Test.off2
theorem meets_RefusedValuesTrap : (∀ e ∈
    [(0x080, { Test.full with b := .imm 3 }), (0x0A1, { Test.full with a := 4 }), (0x0A3, { Test.full with d := 8, a := 4 }), (0x0A4, { Test.full with a := 4 }),
     (0x1B1, { Test.full with a := 4 }), (0x0AF, { Test.full with a := 4, b := .imm 0 }), (0x0AF, { Test.full with a := 4, b := .lit 4096 }), (0x0AF, { Test.full with a := 4, b := .imm 1 }),
     (0x0B0, { Test.full with d := 8, a := 4 }), (0x0B1, { Test.full with a := 4 }), (0x0B4, { Test.full with a := 6, b := .imm 8, c := 4 }), (0x0B5, { Test.full with d := 8, a := 4 }),
     (0x0B5, { Test.full with d := 8, a := 6 }), (0x0C2, Test.mem (.lit 0)), (0x0C3, { Test.mem (.lit 0) with d := 4 }), (0x0C4, Test.mem (.lit 0)),
     (0x0F2, { Test.mem (.lit 0) with d := 8, ty := .n32 }), (0x109, { Test.mem (.lit 2) with d := 8, ty := .b64 }), (0x0EE, { Test.pl with b := .lit 65536 }), (0x1B2, Test.full),
     (0x1B3, Test.full), (0x1B5, { Test.full with b := .imm 0 }), (0x1B5, { Test.full with b := .imm 4 })],
    Test.Fit Test.odd Test.is1 e.1 e.2 (Test.odd.refsOf Test.is1)) ∧
    Test.each Test.odd Test.is1 fun r => Test.odd.b32 r (.imm 3) ∉ [2, 4, 8, 16, 32] ∧ Test.odd.op64 r 4 % 4 ≠ 0 ∧ Test.odd.b32 r (.imm 0) < 1 ∧ 4095 < Test.odd.b32 r (.lit 4096) ∧
      Test.odd.b32 r (.imm 1) = 1 ∧ Test.odd.op32 r 4 % 16 ≠ 0 ∧ Test.odd.op32 r 4 % 32 ≠ 0 ∧ r.T.held = [] ∧ Test.odd.b32 r (.imm 8) % 16 ≠ 0 ∧ Test.odd.op32 r 6 % 32 = 0 ∧
      (Test.odd.ring r.g (Test.odd.op32 r 6)).ok = false ∧ (Test.odd.ea r (Test.mem (.lit 0))).toNat % 128 ≠ 0 ∧ (Test.odd.ea r (Test.mem (.lit 0))).toNat % 256 ≠ 0 ∧
      (Test.odd.ea r (Test.mem (.lit 0))).toNat % 4 ≠ 0 ∧ (Test.odd.ea r (Test.mem (.lit 2))).toNat % 8 ≠ 0 ∧ 65536 ≤ Test.odd.b32 r (.lit 65536) ∧ 3 < Test.odd.b32 r (.imm 4) :=
  ⟨Test.fits _ (by decide), by decide⟩

/-- The spec's pair: `iadd.s32 v5, v5, v9` and `fmul.f32 v6, v6, v10`; and a `wsync` and a `nop`. -/
def Test.px : CompactWord := ⟨2, { sub := 0, i := false, a := 9, d := 5, gn := false, g := 7 }⟩
def Test.py : CompactWord := ⟨24, { sub := 0, i := false, a := 10, d := 6, gn := false, g := 7 }⟩
theorem meets_PairResults : (∀ w ∈ [Test.px, Test.py], w.cop.toNat ∉ [40, 41, 43, 44, 45] ∧ Test.Fit Test.s1 Test.is1 w.full.1 w.full.2 (Test.s1.refsOf Test.is1) ∧
      ∃ res : Ref → TRes, pairPlan w Test.s1 (executing w.full.2 (Test.s1.refsOf Test.is1)) = (executing w.full.2 (Test.s1.refsOf Test.is1)).map (fun r => (r, .done (res r))) ∧
        ∀ r ∈ Test.s1.refsOf Test.is1, HasRoom r (res r)) ∧
    compactOf (.iaddCompact Test.px.f) = some ⟨2, Test.px.f⟩ ∧ compactOf (.wsyncCompact ⟨0, false, 0, 0, false, 7⟩) = some ⟨41, ⟨0, false, 0, 0, false, 7⟩⟩ := by
  refine ⟨fun w hw => ?_, rfl, rfl⟩
  simp only [List.mem_cons, List.not_mem_nil, or_false] at hw
  obtain rfl | rfl := hw
  · exact ⟨by decide, Test.fit_sound (by decide), fun r => gives Test.px.full.2 (Test.s1.ia r Test.px.full.2 + Test.s1.ib r Test.px.full.2), by decide, by unfold HasRoom; decide⟩
  · exact ⟨by decide, Test.fit_sound (by decide),
      fun r => givesFloat Test.py.full.2 (fMul (fmtF Test.py.full.2) (rmode Test.py.full.2) (fsat Test.py.full.2) (Test.s1.fa r Test.py.full.2) (Test.s1.fb r Test.py.full.2)), by decide, by unfold HasRoom; decide⟩

/-! ### Steps and decoding -/

/-- The program `iadd.s32 v5, v5, 12` at the PC of the group that stands ready, its issue named by the agenda or left to the default order; an
event now and one to come; a cycle in which the core has issued all it can. -/
def Test.program : State := State.reset.withCode (leBytes 4 0x10C05708)
def Test.planned (l : List Move) : State := { Test.program with agenda := l }
def Test.issued : State := (Test.planned []).picked 0 (1, mkAddr 1 0)
noncomputable def Test.picked : Option Entry256 := ((Test.planned []).picks 0).find? (fun e => e.key == (1, mkAddr 1 0))
/-- A port whose replays are to be reported in a cycle that has logged an event of a class before or behind theirs. -/
def Test.laterLog (late : Bool) : State :=
  { Test.planned [] with edge := { Test.program.edge with logged := (Test.program.clock, if late then 2 ^ 48 else 0), replays := [(3, 5)] } }
theorem meets_StepIssuesTheDecodedInstruction :
    (∀ dt, (Test.planned [.event dt (.ptsSelfAdvance 0 1)]).agenda = .event dt (.ptsSelfAdvance 0 1) :: []) ∧
    (∀ late : Bool, (Test.laterLog late).edge.logged.1 = (Test.laterLog late).clock ∧ Test.out (Sys2Proof.Machine.exec (.replayCountReport 3) (Test.laterLog late))
      (fun w => (decide ((Test.laterLog late).edge.seq < w.edge.seq), decide (w.edge.logged.2 < (Test.laterLog late).edge.logged.2))) = some (true, late)) ∧
    (∀ e ∈ Test.issued.groups, (∀ x ∈ Test.issued.picks e.2.core, x.starved = false) ∧ (Test.issued.core e.2.core).issuedAt = Test.issued.clock ∧
      (Test.issued.core e.2.core).issued ≠ []) ∧
    (Test.program.agenda = [.issue 0 0 1 (mkAddr 1 0)] ∧ (Test.planned []).due.find? (moves Sys2Proof.Machine.exec (Test.planned [])) = none ∧
      (Test.planned []).ownPick = Test.picked.map fun e => (0, e)) ∧
    ((∃ e r0, Test.picked = some e ∧ e.key = (1, mkAddr 1 0) ∧ r0 ∈ e.refs ∧ r0.G.ctx = 0) ∧ Distinct (Test.planned []).groups ∧
      (∀ y ∈ (Test.planned []).groups, Distinct y.2.threads ∧ y.2.ctx = 0) ∧
      (Test.planned []).port_ 0 ((Test.planned []).renOf 1) .fetch (mkAddr 1 0) 4 = .ok (Test.bytesAt 0 4) ∧
      (Test.planned []).poisonedIn false (Test.bytesAt 0 4) = none ∧ leNat ((Test.planned []).gather (Test.bytesAt 0 4)) = 0x10C05708) ∧
    parcelsOf 0x10C05708 = 1 ∧ decode false 0x10C05708 0 0 = .ok (.iaddCompact { sub := 0, i := true, a := 12, d := 5, gn := false, g := 7 }) ∧
    decode false 0x000000C0 0 0 = .error (.reason 2) := by
  unfold Distinct
  refine ⟨fun _ => rfl, fun late => by cases late <;> decide, by decide, by decide, ⟨⟨Test.picked.get (by decide), { g := 2, t := 0, G := Test.group Test.program, T := ((Test.program.thread? 2 0).getD {}) },
    by simp only [Option.some_get], by decide, by decide, by decide⟩, by decide, by decide, by decide, by decide, by decide⟩, by decide, rfl, rfl⟩

theorem meets_DecodeEncodeRoundTrip : ∀ i ∈ [Instr.iadd (Test.abc .s32), .iaddCompact (Test.cw 0), .compactPair Test.px Test.py, .ld .b16 { Test.mem (.lit 7) with d := 8, ty := .b64 }],
    i.isInstr = true ∧ WellFormed i := by
  have h : ([Instr.iadd (Test.abc .s32), .iaddCompact (Test.cw 0), .compactPair Test.px Test.py, .ld .b16 { Test.mem (.lit 7) with d := 8, ty := .b64 }].all
    fun i => i.isInstr && wellFormed i) = true := by decide
  intro i hi
  have := List.all_eq_true.1 h i hi
  rw [Bool.and_eq_true] at this
  exact ⟨this.1, (wellFormed_iff i).1 this.2⟩
theorem meets_DecodedParcelsAreEncoded : decode false 0x62013B4B 0x03808080 0x4000 =
    .ok (.ld .b4 { Test.full with d := 2, a := 0xC4, b := .lit 0x4000, c := 1, ty := .s32 }) := rfl
/-- Each reason at a word of its own: opcode 0x1B9, compact opcode 48, and the spec's pair. -/
theorem meets_IllegalEncodingsRefused :
    (2 ≤ ((0x000006E6 : Word).extractLsb' 0 2).toNat ∧ ∀ s e, shapeOf ((0x000006E6 : Word).extractLsb' 2 9).toNat s e = none) ∧
    (((0x000000C0 : Word).extractLsb' 0 2).toNat = 0 ∧ 48 ≤ ((0x000000C0 : Word).extractLsb' 2 6).toNat) ∧
    (((0x00905709 : Word).extractLsb' 0 2).toNat = 1 ∧ (compactOfParcel 0x00905709).reasons = [] ∧ (compactOfParcel 0x00A06760).reasons = []) ∧
    (0x00A06760 : Word).extractLsb' 0 2 = 0 ∧ (0x00A06761 : Word).extractLsb' 0 2 ≠ 0 :=
  ⟨⟨by decide, fun s e => rfl⟩, by decide, by decide, by decide, by decide⟩

/-! ### The device's own steps -/

def Test.noAcc : Access := { id := 0, order := 0, grp := 0, tid := 0, lane := 0, kind := .hclr 0 none 0, parts := [] }
def Test.acc (s : State) : Access := s.accesses.headD Test.noAcc
/-- A pending access of the thread of `Test.s1`, put in flight by hand. -/
def Test.pend (k : AccKind) (parts : List (Nat × Nat)) (remote : Option (Nat × Nat × Nat) := none) : State :=
  { Test.s1.modT 2 0 fun T => { T with ld := 1, st := 1, wait := .on (.answer (mkAddr 1 8) {}) 0 0 } with
    accesses := [{ id := 9, order := 9, grp := 2, tid := 0, lane := 0, kind := k, parts := parts, remote := remote }], clock := 13000000 }
theorem Test.due {s : State} (h : s.access? (Test.acc s).id = some (Test.acc s) ∧ s.group? (Test.acc s).grp = some (Test.group s) ∧
    (s.thread? (Test.acc s).grp (Test.acc s).tid).isSome = true ∧ s.turn (Test.acc s) = true ∧ s.absent = none) :
    ∃ T, Due s (Test.acc s) (Test.group s) T := by
  obtain ⟨T, hT⟩ := Option.isSome_iff_exists.1 h.2.2.1
  exact ⟨T, h.1, h.2.1, hT, h.2.2.2.1, h.2.2.2.2⟩

theorem Test.plain {s : State} {ctx : Nat} {lsn : Option Nat} {addr : Addr} {ps : List Nat} (h : ∀ c ∈ s.ctx? ctx,
    (s.buf c (bufOf addr)).stamp = false ∧ ∀ p ∈ ps, p < c.btab + 64 * bufOf addr ∨ c.btab + 64 * bufOf addr + 64 ≤ p) (hu : Unspilled s) : Plain s ctx lsn addr ps :=
  ⟨hu, .inr h⟩

def Test.podded (s : State) : State := { s with ctxs := s.ctxs.map fun (e : Nat × Ctx) => (e.1, { e.2 with podctx := 0x8005 }) }
def Test.copied : State := { Test.s1 with clock := 65536, port := { Test.s1.port with copies :=
  [{ line := (Test.base + 0x400) / 128, level := 0, unit := 0, wc := 0, rc := 1024, fill := 0, data := List.replicate 128 5 }] } }
/-- Loads of the first bytes of buffer 1 and of its last 16, of a scratchpad; stores; every kind of atomic; a remote load and a remote store 10 ms
after they were sent; a peer whose context this is, and one that has none. -/
def Test.aLoad : State := Test.pend (.load .b16 .b32 8 (mkAddr 1 0xFF0) none) [(0, 16)]
def Test.aPad : State := Test.pend (.load .b4 .b32 8 0 (some 2)) [(0, 1), (1, 1)]
def Test.aStore : State := Test.pend (.store (mkAddr 1 0x400) (leBytes 4 7) none) [(0, 4)]
def Test.aPadStore : State := Test.pend (.store 0 (leBytes 4 7) (some 2)) [(0, 4)]
def Test.aAtom (op : AtomOp) : State := Test.pend (.atom op .n32 1 2 (some 8) 1 (mkAddr 1 0x400) 7) [(0, 4)]
def Test.aRemLoad : State := Test.podded <| Test.pend (.load .b4 .b32 8 (mkAddr 1 0) none) [(0, 4)] (some (3, 0, 0))
def Test.aRemStore : State := Test.podded <| Test.pend (.store (mkAddr 1 0) (leBytes 4 7) none) [(0, 4)] (some (3, 0, 0))
def Test.peer : State := { Test.podded Test.s1 with edge := { Test.s1.edge with trained := [0, 1] } }
theorem meets_AccessesTakeTheirPlaces :
    (∃ T, Due Test.aLoad (Test.acc Test.aLoad) (Test.group Test.aLoad) T) ∧ Reaches Test.aLoad 0 (Test.aLoad.renOf 1) .load (mkAddr 1 0xFF0) 16 (Test.bytesAt 0xFF0 16) ∧
    ((∃ T, Due Test.aPad (Test.acc Test.aPad) (Test.group Test.aPad) T) ∧ Test.aPad.group? 2 = some (Test.group Test.aPad) ∧ 0 + 1 ≤ Width.bytes .b4) ∧
    ((∃ T, Due Test.aStore (Test.acc Test.aStore) (Test.group Test.aStore) T) ∧ Reaches Test.aStore 0 (Test.aStore.renOf 1) .store (mkAddr 1 0x400) 4 (Test.bytesAt 0x400 4) ∧
      Plain Test.aStore 0 (Test.group Test.aStore).stampLsn (mkAddr 1 0x400) (Test.bytesAt 0x400 4) ∧ Memory.wf Test.aStore.mem = true ∧ Test.aStore.port.stalls = []) ∧
    ((∃ T, Due Test.aPadStore (Test.acc Test.aPadStore) (Test.group Test.aPadStore) T) ∧ Map.canon 0 (Test.group Test.aPadStore).pad = true) ∧
    (∀ op ∈ [AtomOp.add, .cas], (∃ T, Due (Test.aAtom op) (Test.acc (Test.aAtom op)) (Test.group (Test.aAtom op)) T) ∧
      Reaches (Test.aAtom op) 0 ((Test.aAtom op).renOf 1) .atomicRet (mkAddr 1 0x400) 4 (Test.bytesAt 0x400 4) ∧
      Plain (Test.aAtom op) 0 (Test.group (Test.aAtom op)).stampLsn (mkAddr 1 0x400) (Test.bytesAt 0x400 4)) ∧
    ((∃ T, Due Test.aRemLoad (Test.acc Test.aRemLoad) (Test.group Test.aRemLoad) T) ∧
      (Test.aRemLoad.thread? 2 0).map (·.wait) = some (.on (.answer (mkAddr 1 8) {}) 0 0) ∧ Test.aRemLoad.podEnabled 0 = true) ∧
    ((∃ T, Due Test.aRemStore (Test.acc Test.aRemStore) (Test.group Test.aRemStore) T) ∧ 0 + 13000000 ≤ Test.aRemStore.clock ∧ Test.aRemStore.podEnabled 0 = true) ∧
    -- a line held in L1 whose lease covers the timestamp, to the last cycle of its life; a line that is not held
    (let c := Test.copied.port.copies.headD ⟨0, 0, 0, 0, 0, 0, []⟩;
      c ∈ Test.copied.port.copies ∧ (∀ p ∈ Test.bytesAt 0x400 128, c.line = p / 128 ∧ c.level = 0 ∧ c.unit = 0) ∧ c.wc ≤ Test.copied.pts 0 ∧
      Test.copied.pts 0 ≤ c.rc ∧ Test.copied.clock = c.fill + 65536 ∧
       ∀ c' ∈ Test.copied.port.copies, c'.line ≠ (Test.base + 0x800) / 128) ∧
    Test.peer.absent = none ∧ Test.peer.edge.trained.any (0 < ·) = true ∧ Test.peer.podCtx 4 = none ∧ Test.peer.podCtx 5 = some 0 ∧ (Test.peer.ctx? 0).isSome = true ∧
    Reaches Test.peer 0 [] .load (mkAddr 1 0x440) 64 (Test.bytesAt 0x440 64) ∧ Reaches Test.peer 0 [] .store (mkAddr 1 0x440) 64 (Test.bytesAt 0x440 64) ∧
    (∀ lsn, Plain Test.peer 0 lsn (mkAddr 1 0x440) (Test.bytesAt 0x440 64)) ∧ offOf (mkAddr 1 0x440) % 64 + 64 ≤ 64 ∧ Test.peer.edge.ckpt = false ∧
    Test.peer.edge.quiesced = false ∧ Roomy Test.peer (Test.bytesAt 0x440 64) ∧ Test.peer.port.stalls = [] ∧ Memory.wf Test.peer.mem = true := by
  unfold Reaches Roomy
  refine ⟨Test.due (by decide), by decide, ⟨Test.due (by decide), by decide, by decide⟩,
    ⟨Test.due (by decide), by decide, ⟨by unfold Unspilled; decide, .inl (by decide)⟩, by decide, by decide⟩, ⟨Test.due (by decide), by decide⟩, fun op h => ?_,
    ⟨Test.due (by decide), by decide⟩, ⟨Test.due (by decide), by decide⟩, by decide, by decide, by decide, by decide, by decide, by decide, by decide, by decide,
    fun _ => Test.plain (by decide) (by unfold Unspilled; decide), by decide, by decide, by decide, by decide, by decide, by decide⟩
  simp only [List.mem_cons, List.not_mem_nil, or_false] at h
  obtain rfl | rfl := h <;> exact ⟨Test.due (by decide), by decide, by unfold Unspilled; decide, .inl (by decide)⟩

/-- Page 3 waits to be repacked; it stalled 10 ms ago, unreported and reported, with a stalled write of the thread; a page service by the walker
and by Oromel, 100 ms old. -/
def Test.repack : State := { Test.s1 with port := { Test.s1.port with repack := [3] } }
def Test.stalled (told : Bool) : State := { Test.logged (Test.pend (.store (mkAddr 1 0x400) (leBytes 4 7) none) [(0, 4)]) with
  port := { Test.s1.port with stalls := [(3, (0, told))] },
  accesses := [{ id := 9, order := 9, grp := 2, tid := 0, lane := 0, kind := .store (mkAddr 1 0x400) (leBytes 4 7) none, parts := [(0, 4)], stalled := some (1, 3) }] }
def Test.service : Service := { id := 7, pte := 0x30000, ctx := 0, buf := 1, page := 0, start := 0 }
def Test.paging (oromel : Bool) : State := { Test.s1 with
  clock := 130000000, port := { Test.s1.port with services := [Test.service], pool64 := [0x40000] },
  ctxs := Test.s1.ctxs.map fun (e : Nat × Ctx) => (e.1, { e.2 with svc := if oromel then 1 else 0 }) }
theorem meets_PagesAndHolds : Test.repack.absent = none ∧ 3 ∈ Test.repack.port.repack ∧
    (∀ told, (Test.stalled told).absent = none ∧ LogFits (Test.stalled told) ∧ Map.get? (Test.stalled told).port.stalls 3 = some (0, told) ∧
      0 + 13000000 ≤ (Test.stalled told).clock ∧ (Test.stalled told).stalledCtxs 3 = [0] ∧ ∃ C, Mortal (Test.stalled told) 0 C) ∧
    (∀ o, (Test.paging o).absent = none ∧ (Test.paging o).port.services.find? (·.id == 7) = some Test.service ∧ Test.service.pte + 8 ≤ memSize ∧
      Memory.wf (Test.paging o).mem = true ∧ (Test.paging o).port.pool64 = [0x40000] ∧ (∀ e ∈ (Test.paging o).groups, e.2.recWait ≠ some 7) ∧
      (∀ e ∈ (Test.paging o).ctxs, 7 ∉ e.2.schedWaits) ∧
      ∃ c, (Test.paging o).ctx? 0 = some c ∧ bitN c.svc 0 = (if o then 1 else 0) ∧ ((Test.paging o).buf c 1).pg2m = false ∧
        0x50000 % ((Test.paging o).buf c 1).pageSize = 0 ∧ 0x50000 + ((Test.paging o).buf c 1).pageSize ≤ memSize) ∧
    (Test.service.start + 130000000 ≤ (Test.paging true).clock ∧ (Test.paging true).accesses = [] ∧
      ∀ e ∈ (Test.paging true).groups, e.2.tileOps = [] ∧ e.2.loop = none ∧ ∀ y ∈ e.2.threads, y.2.wait = .ready) := by
  refine ⟨by decide, by decide, fun told => ?_, fun o => ?_, by decide⟩
  · cases told
    · exact ⟨by decide, Test.logFits _ rfl (by decide), by decide, by decide, by decide, ((Test.stalled false).ctx? 0).get (by decide), Test.mortal (by decide)⟩
    · exact ⟨by decide, Test.logFits _ rfl (by decide), by decide, by decide, by decide, ((Test.stalled true).ctx? 0).get (by decide), Test.mortal (by decide)⟩
  · cases o
    · exact ⟨by decide, by decide, by decide, by decide, by decide, by decide, by decide, ((Test.paging false).ctx? 0).get (by decide), by decide, by decide, by decide, by decide, by decide⟩
    · exact ⟨by decide, by decide, by decide, by decide, by decide, by decide, by decide, ((Test.paging true).ctx? 0).get (by decide), by decide, by decide, by decide, by decide, by decide⟩

/-- A copy of 0x60 bytes in progress with its units 0x20 and 0x40 to land, into a scratchpad and into memory; one with no unit left, and with a
fault; a near-memory job whose elements stand in memory. -/
def Test.engineJob (kind : JobKind) (units : List Nat) (fault : Option (Nat × Nat × Nat)) : Job :=
  { id := 9, ctx := 0, grp := 2, tid := 0, item := 1, core := 0, stamp := none, kind := kind, scope := 6, bind := .tag 5, engine := some 0, admitted := true,
    units := units, fault := fault }
def Test.working (j : Job) : State := { Test.logged (Test.s1.modG 2 fun G => { G with tagCnt := [(5, 1)], tagsLow := [5] }) with jobs := [j] }
def Test.jIn : Job := Test.engineJob (.copy (.pad 2 0) (.dev (mkAddr 1 0x400)) 0x60) [0x20, 0x40] none
def Test.jMem : Job := Test.engineJob (.copy (.dev (mkAddr 1 0x800)) (.dev (mkAddr 1 0x400)) 0x60) [0x20, 0x40] none
def Test.jDone (fault : Option (Nat × Nat × Nat)) : Job := Test.engineJob (.copy (.pad 2 0) (.dev (mkAddr 1 0x400)) 0x60) [] fault
def Test.jNmc : Job := Test.engineJob (.nmc 0 0 64 (mkAddr 1 0x400) (mkAddr 1 0x600) 0 0 0 true) [0] none
theorem meets_EngineJobsRun : (∀ j ∈ [Test.jIn, Test.jMem, Test.jDone none, Test.jDone (some (1, 16, 0)), Test.jNmc],
      (Test.working j).absent = none ∧ (Test.working j).jobs.find? (·.id == j.id) = some j ∧ j.admitted = true ∧ j.edges = []) ∧
    (0x20 ∈ Test.jIn.units ∧ (Test.working Test.jIn).group? 2 = some (Test.group (Test.working Test.jIn)) ∧ Map.canon 0 (Test.group (Test.working Test.jIn)).pad = true ∧
      Reaches (Test.working Test.jIn) 0 ((Test.working Test.jIn).renJob Test.jIn) .load (mkAddr 1 0x420) 32 (Test.bytesAt 0x420 32)) ∧
    (Reaches (Test.working Test.jMem) 0 ((Test.working Test.jMem).renJob Test.jMem) .load (mkAddr 1 0x440) 32 (Test.bytesAt 0x440 32) ∧
      Reaches (Test.working Test.jMem) 0 ((Test.working Test.jMem).renJob Test.jMem) .store (mkAddr 1 0x840) 32 (Test.bytesAt 0x840 32) ∧
      Plain (Test.working Test.jMem) 0 Test.jMem.stamp (mkAddr 1 0x800) (Test.bytesAt 0x840 32) ∧ Roomy (Test.working Test.jMem) (Test.bytesAt 0x840 32) ∧ (Test.working Test.jMem).port.stalls = [] ∧
      Memory.wf (Test.working Test.jMem).mem = true) ∧
    (∀ x, Unspilled (Test.working (Test.jDone x))) ∧ (Map.canon 0 (Test.group (Test.working (Test.jDone none))).tagCnt = true ∧ ((Test.working (Test.jDone (some (1, 16, 0)))).thread? 2 0).isSome = true ∧ (1 : Nat) < 256) ∧
    LogFits (Test.working Test.jNmc) ∧
      ∃ stack p, (Test.working Test.jNmc).physOf Test.jNmc (addOff (mkAddr 1 0x400) (0 : Nat)) = some p ∧ ((Test.working Test.jNmc).channelOf p).1 = stack ∧
        (Test.working Test.jNmc).nmcBegun Test.jNmc 0 = false := by
  unfold Reaches Unspilled Roomy
  exact ⟨by decide, by decide, ⟨by decide, by decide, ⟨by unfold Unspilled; decide, .inl rfl⟩, by decide, by decide, by decide⟩, fun _ => by simp only [Test.working]; decide, by decide,
    Test.logFits _ rfl (by decide), _, Test.base + 0x400, by decide, rfl, by decide⟩

/-- A tile load of the scratchpad of thread 0; a dense loop of s8 rows with its first row done; a loop whose last step is done. -/
def Test.tileOp : TileOp :=
  { id := 9, order := 9, tids := [0], isAcc := false, num := 1, load := true, pad := true, addr := 0, off := 0x100, stride := 16, ty := .f32, ext := 0, mod := 0, units := List.range 256 }
def Test.mdesc : MDesc := (MDesc.ofNat (Test.desc 0x400 8)).1
def Test.loop (step : Nat) : MLoop :=
  { order := 0, kind := .dense Test.mdesc Test.mdesc, acc := 7, sat := false, steps := 1, step := step, rows := 1, sums := [(0, { m := 5 }), (1023, { m := 6 })], isInt := true, tids := [0] }
def Test.looping (step : Nat) : State := Test.matrix.modG 2 fun G => { G with loop := some (Test.loop step), tileOps := [Test.tileOp] }
theorem meets_MatrixOperationsRun : (∀ k ∈ [0, 1], (Test.looping k).absent = none ∧ (Test.looping k).group? 2 = some (Test.group (Test.looping k)) ∧
      (Test.looping k).frozen (Test.group (Test.looping k)).ctx = false ∧ (Test.group (Test.looping k)).loop = some (Test.loop k)) ∧
    ((Test.looping 0).groups.find? (fun e => e.2.tileOps.any (·.id == Test.tileOp.id)) = some (2, Test.group (Test.looping 0)) ∧
      (Test.group (Test.looping 0)).tileOps.find? (·.id == Test.tileOp.id) = some Test.tileOp ∧ Test.tileOp.units = List.range Test.tileOp.cuts.length ∧
      Test.tileOp.tids.Nodup) ∧
    (pairing Test.mdesc.fmt Test.mdesc.fmt = some (true, 128) ∧
      ∀ i, i < 32 → ((Test.looping 0).loopRow (Test.group (Test.looping 0)) Test.mdesc 128 0 i).toOption.isSome = true) ∧
    (Test.group (Test.looping 1)).exiting = false ∧ Distinct (Test.loop 1).sums ∧ Map.canon 0 (Test.group (Test.looping 1)).accs = true := by
  unfold Distinct
  exact ⟨by decide, by decide, ⟨by decide, by decide⟩, by decide, by decide, by decide⟩

/-- A hitch of the line at 0x400 with the core's table empty, with 255 and with 256 slots; a slot of two entries whose first is fresh, with a push
sent; one whose removal is asked; a subscription at a failing home; a thread whose counter's line was written; a lease at its expiry. -/
def Test.slot : Slot := { line := (Test.base + 0x400) / 64, addr := mkAddr 1 0x400, each := true, nent := 2, tag := 3, fresh := [true, false], seqs := [1, 0] }
def Test.hitching (n : Nat) : State := (Test.pend (.hitch 0x100 (mkAddr 1 0x400) 0 1 false 3 1) [(0, 64)]).modG 2 fun G =>
  { G with slots := (List.range n).map fun k => (0x200 + k, { Test.slot with line := 5 }) }
def Test.slotted (x : Slot) : State := Test.logged (Test.s1.modG 2 fun G => { G with slots := [(0x100, x)] })
def Test.sent : Slot := { Test.slot with sent := some (List.replicate 64 1, 2, 0) }
def Test.woken : State := Test.s1.modT 2 0 fun T => { T with wait := .on (.line 5 true) 0 1 }
def Test.leased : State := Test.s1.modG 2 fun G => { G with leases := [(3, { budget := 1, expiry := 0 })] }
/-- The line's home with an entry of 7 subscribers, and with the table of its slice full of entries of 8. -/
def Test.hentry (n : Nat) : HEntry := { line := (Test.base + 0x400) / 64, ctx := some 0, subs := List.replicate n (.slot 9 0) }
def Test.homed (l : List HEntry) (s : State) : State := { s with port := { s.port with table := l } }
theorem Test.homed_use (n : Nat) (e : HEntry) (s : State) (h : e.spill = none) : (Test.homed (List.replicate n e) s).tableUse (sliceOf e.line) = n := by
  show ((List.replicate n e).filter _).length = n
  rw [List.filter_replicate]
  simp [h]
theorem Test.unplaced {s : State} {n : Nat} {C : Ctx} (h : s.ctx? n = some C) (h' : C.hspa = 0) : s.hitchPlace (some n) = none := by
  simp [State.hitchPlace, h, h']
theorem meets_HitchesAndLeases :
    (∀ n ∈ [0, 255, 256], (Test.hitching n).absent = none ∧ (∃ T, Due (Test.hitching n) (Test.acc (Test.hitching n)) (Test.group (Test.hitching n)) T) ∧
      Reaches (Test.hitching n) 0 ((Test.hitching n).renOf 1) .load (mkAddr 1 0x400) 64 (Test.bytesAt 0x400 64) ∧ (Test.hitching n).coreSlots 0 = n ∧
      ∀ k, (Test.hitching n).tableUse k < 8192) ∧
    (∃ e ∈ (Test.homed [Test.hentry 7] (Test.hitching 0)).port.table, e.line = (Test.base + 0x400) / 64 ∧ e.subs.length < 8) ∧
    (let s := Test.homed (List.replicate 8192 (Test.hentry 8)) (Test.hitching 0);
      (∃ T, Due s (Test.acc s) (Test.group s) T) ∧ s.coreSlots 0 < 256 ∧ (∀ e ∈ s.port.table, e.line = (Test.base + 0x400) / 64 ∧ 8 ≤ e.subs.length) ∧
      8192 ≤ s.tableUse (sliceOf ((Test.base + 0x400) / 64)) ∧ s.hitchPlace (some 0) = none) ∧
    (∀ x ∈ [Test.sent, { Test.slot with removing := true }, Test.slot], (Test.slotted x).absent = none ∧ (Test.slotted x).group? 2 = some (Test.group (Test.slotted x)) ∧
      Map.get? (Test.group (Test.slotted x)).slots 0x100 = some x ∧ (Test.group (Test.slotted x)).res = .resident ∧ Map.canon 0 (Test.group (Test.slotted x)).pad = true ∧
      80 * x.nent ≤ (Test.group (Test.slotted x)).lr.alloc) ∧
    (LogFits (Test.homed [Test.hentry 1] (Test.slotted Test.slot)) ∧ 0 < ((Test.homed [Test.hentry 1] (Test.slotted Test.slot)).port.table.filter (·.line == (Test.base + 0x400) / 64)).length) ∧
    ((Test.woken.thread? 2 0).map (·.wait) = some (.on (.line 5 true) 0 1) ∧ (Test.group Test.woken).res = .resident) ∧
    (Map.get? (Test.group Test.leased).leases 3).map (·.expiry) = some Test.leased.clock := by
  unfold Reaches
  refine ⟨fun n h => ?_, by decide, ⟨Test.due (by decide),
    by decide, fun e h => ?_, ?_, ?_⟩, by decide, ⟨Test.logFits _ rfl (by decide), by decide⟩, by decide, by decide⟩
  · simp only [List.mem_cons, List.not_mem_nil, or_false] at h
    obtain rfl | rfl | rfl := h <;> exact ⟨by decide, Test.due (by decide), by decide, by decide, fun _ => Nat.zero_lt_succ _⟩
  · obtain ⟨-, rfl⟩ := List.mem_replicate.1 (show e ∈ List.replicate 8192 (Test.hentry 8) from h)
    decide
  · exact (Test.homed_use 8192 (Test.hentry 8) _ rfl).ge
  · exact Test.unplaced (C := ((Test.hitching 0).ctx? 0).get (by decide)) (by decide) (by decide)

/-- A launch of one gang of two groups of 33 threads with 8 bytes of parameters, on the first and the last core of die 0; the constants of a
word and no word. -/
def Test.launchRec : LaunchRec := { entry := mkAddr 1 0, ngroups := 2, gsize := 33, gang := 2, nreg := 192, param := mkAddr 1 0x400, paramlen := 8 }
def Test.launch : Item := { id := 1, ctx := 0, kind := .launch, addr := 0, lr := Test.launchRec, lsn := 1, fp := [], edges := [], anc := [], groupsLeft := 2 }
def Test.placing : State := { Test.s1 with groups := [], items := [Test.launch] }
/-- A task at the top of core 3's deque and a thief with nothing of its own; two groups of core 0, the active one waiting; a gang at a barrier for longer than its
context's swap-out time, with a save area of the size it needs; a thread that has waited the fairness interval beside one that has not. -/
def Test.task : Item := { Test.launch with id := 7, kind := .task, lr := { Test.launchRec with ngroups := 1, gang := 1 }, core := 3, inDeque := true }
def Test.stealing : State := { Test.s1 with groups := [], items := [Test.task], cores := [(3, { deque := [(7, 0)] })] }
def Test.traded (w : Wait) : State :=
  let s := Test.s1.modT 2 0 fun T => { T with wait := w, cp := 1, tl := 1 }
  { s with groups := s.groups ++ [(5, { Test.group Test.s1 with active := false, gang := 6 })] }
def Test.longWait (T : Thread) : Bool := match T.wait with
  | .on (.counters _ _ cp tl) _ _ => decide (cp < T.cp ∨ tl < T.tl)
  | .on (.fence _) _ _ => decide (0 < T.tl)
  | .on (.image _) _ _ => false
  | .on .. => true
  | _ => false
def Test.trading : State := Test.traded (.on (.counters 0 0 0 0) 0 1)
def Test.swapping : State :=
  let s := { Test.s1.modT 2 0 fun T => { T with wait := .on (.barGen 2 0x100 0) 0 1 } with clock := 2 ^ 24 }
  { s with ctxs := s.ctxs.map fun (e : Nat × Ctx) => (e.1, { e.2 with svbase := mkAddr 1 0, svsize := (Test.group s).saveBytes }),
           mem := memWrite s.mem (0x10000 + 64 + 8) (leBytes 8 65536) }
def Test.starving : State := { ((Test.s2.modG 2 fun G => { G with sched := BitVec.ofNat 32 (2 ^ 17 + 1024) }).modT 2 1 fun T => { T with lastIssue := 1 }).modT 2 0 (fun T => { T with ready := true }) with
  clock := 1024 }
theorem meets_GroupsArePlaced :
    (Test.placing.absent = none ∧ Test.placing.item? 1 = some Test.launch ∧ (∀ x ∈ [0, 63], x < 512 ∧ x / 64 = 0) ∧ [0, 63].length = Test.launch.lr.gang ∧
      Test.placing.mayPlace Test.launch 0 = true ∧ Test.placing.edge.fatal = false ∧ Test.placing.parked Test.launch = [] ∧
      Test.placing.cpMiss 0 [] (probes .load Test.launch.lr.param 8) = none ∧ Test.launch.gangs.head? = some 0 ∧
      Test.launch.waits = [] ∧ (∀ x ∈ [0, 63], Test.placing.fits x ((([0, 63].zip (Test.placing.nextNeeds Test.launch)).filter (·.1 == x)).map (·.2)) = true) ∧
      Test.placing.port_ 0 Test.launch.renames .load (addOff (mkAddr 1 0x400) (4 * (1 : Nat) : Nat)) 4 = .ok (Test.bytesAt 0x404 4)) ∧
    (Test.stealing.absent = none ∧ (Test.stealing.core 511).deque = [] ∧ (Test.stealing.core 511).spilled = [] ∧ (Test.stealing.core 511).retired = false ∧
      (∀ y ∈ Test.stealing.offersAt 511, Test.stealing.placeOn y 511 = none) ∧ 3 ∈ Test.stealing.victims 511 ∧ Test.stealing.top 3 = some (7, 0) ∧
      Test.stealing.item? 7 = some Test.task ∧ (Test.stealing.core 3).spilled = [] ∧ Distinct Test.stealing.cores) ∧
    (Test.trading.absent = none ∧ Distinct Test.trading.groups ∧ (Test.group Test.trading).active = true ∧
      (∀ w ∈ [Wait.on .resource 0 1, .on (.counters 0 0 0 0) 0 1, .on (.fence 8) 0 1], ∀ e ∈ (Test.group (Test.traded w)).live, Test.longWait e.2 = true) ∧ Test.trading.oldestPending 0 (fun x => x.live.any (·.2.able)) = some 5 ∧
      (Test.trading.group? 5).isSome = true) ∧
    (Test.swapping.absent = none ∧ Test.swapping.gangMembers (Test.group Test.swapping).gang = [(2, Test.group Test.swapping)] ∧
      Test.swapping.swappable 2 (Test.group Test.swapping) = true ∧ Test.swapping.runs 0 = true ∧
      (Test.group Test.swapping).live ≠ [] ∧ Unspilled Test.swapping ∧
      ∀ C ∈ Test.swapping.ctx? 0, C.svbase ≠ 0 ∧ C.saveUsed + (Test.group Test.swapping).saveBytes = C.svsize ∧
        Test.swapping.savePlace 0 C.svsize (Test.group Test.swapping).saveBytes = some 0 ∧
        Test.swapping.devOk 0 .store (addOff C.svbase (0 : Nat)) (Test.group Test.swapping).saveBytes = true ∧
        (match Test.swapping.port_ 0 [] .store (addOff C.svbase (0 : Nat)) (Test.group Test.swapping).saveBytes with
          | .ok ps => ps.all fun p => decide (p < memSize) | _ => false) = true) ∧
    (Test.starving.absent = none ∧ bitN (Test.group Test.starving).sched.toNat 17 = 1 ∧ bitsN (Test.group Test.starving).sched.toNat 16 0 = 1024 ∧
      (Test.starving.thread? 2 0).map (fun T => (T.wait, T.ready, T.lastIssue)) = some (.ready, true, 0) ∧ 0 + 1024 ≤ Test.starving.clock ∧
      ∃ e ∈ (Test.group Test.starving).threads, e.1 ≠ 0 ∧ e.2.warp = 0 ∧ Test.starving.clock < e.2.lastIssue + 1024) := by
  unfold Distinct Unspilled
  exact ⟨by decide, by decide, ⟨by decide, by decide, by decide, by decide, by decide⟩, by decide, by decide⟩

/-- Two threads of a warp of which one stalled 2²⁰ counted cycles; both at joins for 1,024 cycles, and one at a `wsync`; a thread ended by a split branch, and its record, due for release; a
forced save at its deadline; a request for leave of level 3 that the governor can grant, and one 10 ms old. -/
def Test.stalling : State := { (Test.s2.modT 2 0 fun T => { T with watched := 2 ^ 20, ready := true }).modT 2 1 fun T => { T with lastIssue := 1 } with clock := 2 ^ 20 }
def Test.hit (e : Nat × Thread) : Bool := decide (e.2.warp = 0) && (decide (e.2.wait = .ready) || decide (e.2.wait = .passed)) && e.2.ready && decide (2 ^ 20 ≤ e.2.watched) &&
  (Test.group Test.stalling).threads.any fun x => decide (x.1 ≠ e.1 ∧ x.2.warp = e.2.warp ∧ Test.stalling.clock < x.2.lastIssue + 2 ^ 20)
def Test.deadlock : State := { Test.joined with clock := 1024 }
def Test.deadlock2 : State := { Test.waiting (fun k => if k = 0 then .wsync (mkAddr 1 8) else .join 2 (mkAddr 1 0x40)) with clock := 1024 }
def Test.ended : State := Test.s2.modT 2 1 fun T => { T with wait := .on (.ended (mkAddr 1 8) 12 none) 0 1 }
def Test.spawned : State :=
  let s := match exec (.spawnRecordWrite 2 1) Test.ended with | .next t => t | _ => Test.ended
  { s with clock := 256 }
def Test.blocked : State := Test.spawned.modT 2 0 fun T => { T with wait := .on (.line 5 false) 0 1 }
def Test.forcing : State := Test.logged { Test.s2.modG 2 fun G => { G with deadline := some 0 } with issue := none }
def Test.asking (since : Nat) : State :=
  { (Test.logged Test.s1).modT 2 0 fun T => { T with wait := .on (.leave 3) since 1 } with leaves := [⟨2, 3, since⟩], clock := 13000000 }
/-- A request of a context whose leave is Oromel's, within its share to the last tenth of a watt, and 100 ms old. -/
def Test.shared : State := { Test.asking 0 with
  clock := 130000000, edge := { (Test.asking 0).edge with shares := [(0, 400)] },
  ctxs := (Test.asking 0).ctxs.map fun (e : Nat × Ctx) => (e.1, { e.2 with svc := 64 }) }
theorem Test.calm {G : Group} {w : Nat} {l : Sparse Thread} {p : Nat × Thread → Bool} (hl : l = G.threads.filter p)
    (h : (G.handler ≠ 0 ∧ (G.threads.map (·.1)).Nodup) ∧ (∀ e ∈ l, e.2.warp = w ∧ e.2.hmode = .none) ∧ G.open_ = [] ∧ G.heldDel = []) : Calm G w l :=
  ⟨.inl h.1.1, h.1.2, ⟨hl ▸ List.filter_sublist, h.2.1⟩, by simp [h.2.2.1], by simp [h.2.2.2]⟩
theorem meets_GroupsMakeProgress :
    (∀ s ∈ [Test.stalling, Test.deadlock, Test.deadlock2, Test.ended, Test.spawned, Test.forcing, Test.asking 13000000, Test.asking 0],
      s.absent = none ∧ s.group? 2 = some (Test.group s) ∧ s.frozen (Test.group s).ctx = false ∧ (Test.group s).active = true ∧ (Test.group s).res = .resident ∧
      (Test.group s).exiting = false ∧ (Test.group s).heldDel = [] ∧ ((Test.group s).threads.map (·.1)).Nodup) ∧
    (2 ^ bitsN (Test.group Test.stalling).sched.toNat 31 27 = 2 ^ 20 ∧ bitN (Test.group Test.stalling).sched.toNat 17 = 0 ∧
      Calm (Test.group Test.stalling) 0 ((Test.group Test.stalling).threads.filter Test.hit) ∧ (Test.group Test.stalling).threads.filter Test.hit ≠ []) ∧
    (∀ s ∈ [Test.deadlock, Test.deadlock2], Calm (Test.group s) 0 ((Test.group s).threads.filter fun e => e.2.warp == 0) ∧
      (Test.group s).activeSince + 1024 ≤ s.clock ∧ Map.get? (Test.group s).lastJoin 0 = none) ∧
    ((Test.group Test.deadlock2).threads.map (fun e => (e.2.pending, e.2.wait)) = [([], .on (.join 2 (mkAddr 1 0x40)) 0 1), ([], .on (.wsync (mkAddr 1 8)) 0 2)] ∧
      (Test.group Test.deadlock).threads.map (fun e => (e.2.pending, e.2.wait)) = [([], .on (.join 2 (mkAddr 1 0x40)) 0 1), ([], .on (.join 1 (mkAddr 1 0x40)) 0 2)]) ∧
    ((Test.ended.thread? 2 1).map (fun T => (T.wait, T.ld, T.st, T.cp, T.tl)) = some (.on (.ended (mkAddr 1 8) 12 none) 0 1, 0, 0, 0, 0)) ∧
    ((Test.group Test.spawned).recs.filter (fun r => r.pc == mkAddr 1 8) ≠ [] ∧ (∀ r ∈ (Test.group Test.spawned).recs, r.area = none) ∧ Test.spawned.runs 0 = true ∧
      (Test.group Test.spawned).allBlocked = false ∧ (∀ r ∈ (Test.group Test.spawned).recs, r.since + 2 ^ bitsN (Test.group Test.spawned).sched.toNat 26 22 ≤ Test.spawned.clock) ∧
      ((Test.group Test.spawned).recs.zip (Test.group Test.spawned).freeLanes).length = 1 ∧
      (Test.group Test.blocked).recs ≠ [] ∧ (∀ r ∈ (Test.group Test.blocked).recs, r.area = none) ∧ Test.blocked.runs 0 = true ∧ (Test.group Test.blocked).allBlocked = true ∧
      (Test.group Test.blocked).res = .resident ∧ (Test.group Test.blocked).exiting = false ∧ (Test.group Test.blocked).recs.length ≤ (Test.group Test.blocked).freeLanes.length) ∧
    (LogFits (Test.forcing) ∧ (Test.group (Test.forcing)).deadline = some 0 ∧ ∃ e ∈ (Test.group (Test.forcing)).live, e.2.standing = false) ∧
    ((Test.asking 13000000).leaves = [⟨2, 3, 13000000⟩] ∧ (Test.group (Test.asking 13000000)).core < 512 ∧ (Test.asking 13000000).edge.therm = 0 ∧
      (((Test.asking 13000000).charges.filter fun c => c.grp != 2 || c.ended).map (·.level)) = [] ∧ 400 ≤ 10 * (Test.asking 13000000).edge.plim - 18000 ∧
      ((Test.asking 13000000).ctx? 0).map (fun C => bitN C.svc 6) = some 0) ∧
    ((Test.shared.ctx? 0).map (fun C => bitN C.svc 6) = some 1 ∧ Map.getD Test.shared.edge.shares 0 0 = 400 ∧ Test.shared.leaves = [⟨2, 3, 0⟩] ∧
      0 + 130000000 ≤ Test.shared.clock) ∧
    LogFits (Test.asking 0) ∧ (Test.asking 0).leaves.find? (fun x => x.grp == 2 && x.level == 3) = some ⟨2, 3, 0⟩ ∧ ((Test.asking 0).ctx? 0).map (fun C => bitN C.svc 6) = some 0 ∧
      0 + 13000000 ≤ (Test.asking 0).clock ∧ Calm (Test.group (Test.asking 0)) 0 ((Test.group (Test.asking 0)).threads.filter fun e =>
        match e.2.wait with | .on (.leave n) i _ => n == 3 && i == 0 | _ => false) := by
  refine ⟨fun s hs => ?_, ⟨by decide, by decide, Test.calm rfl (by decide), by decide⟩, fun s hs => ?_, by decide, by decide, by decide,
    ⟨Test.logFits _ rfl (by decide), by decide⟩, by decide, by decide, Test.logFits _ rfl (by decide), by decide, by decide, by decide, Test.calm rfl (by decide)⟩
  · simp only [List.mem_cons, List.not_mem_nil, or_false] at hs
    obtain rfl | rfl | rfl | rfl | rfl | rfl | rfl | rfl := hs <;> decide
  · simp only [List.mem_cons, List.not_mem_nil, or_false] at hs
    obtain rfl | rfl := hs <;> exact ⟨Test.calm rfl (by decide), by decide⟩

/-- The group of an item follows the writes before it: a copy whose lease ended before them no longer serves its core (R175, R187). -/
def Test.stale : State := { Test.placing with port := { copies := [⟨0, 3, 5, 0, 64, 0, List.replicate 128 0⟩] } }
theorem test_started_group_follows_its_item :
    (Test.stale.copyFor 3 5).isSome = true ∧ ((Test.stale.startGroup { Test.launch with ts := 65 } 1 0 3).copyFor 3 5).isSome = false ∧
      ((Test.stale.startGroup { Test.launch with ts := 64 } 1 0 3).copyFor 3 5).isSome = true := by decide

/-- A record of one group of 32 threads waits at the head of queue 5; a copy of 0x60 bytes waits for its place; an item is over, with a
join counter of 1 and a continuation or with neither; a relaunch whose round is over and selects nothing, one whose trace records a group that never ran
(R203), and one that asked to go on. -/
def Test.recBytes : List Byte := leBytes 8 (2 ^ 48) ++ leBytes 4 1 ++ leBytes 2 32 ++ leBytes 2 (1 + 8 * 256) ++ List.replicate 112 0
def Test.headRec : Waiting := { ctx := 0, kind := .launch, addr := mkAddr 1 0x400, bytes := some Test.recBytes, joined := true, issuer := some (2, 0, 0) }
def Test.admitting : State := { Test.s1 with mem := memWrite Test.s1.mem (Test.base + 0x400) Test.recBytes, hwq := [(5, [Test.headRec])] }
def Test.newJob : Job := { Test.engineJob (.copy (.dev (mkAddr 1 0x800)) (.dev (mkAddr 1 0x400)) 0x60) [] none with admitted := false }
def Test.over (join cont : Addr) : Item := { Test.launch with groupsLeft := 0, lr := { Test.launchRec with join := join, cont := cont } }
def Test.completing (it : Item) : State := { Test.s1 with groups := [], items := [it], mem := memWrite Test.s1.mem (Test.base + 0x800) (leBytes 8 1) }
def Test.rel (asked : Option Nat) : Relaunch := { trace := mkAddr 1 0x800, sel := if asked = none then [] else [0], selecting := false, askedAt := asked }
def Test.reItem (asked : Option Nat) : Item :=
  { Test.launch with kind := .relaunch, addr := mkAddr 1 0x800, groupsLeft := 0, lr := { Test.launchRec with ngroups := 1, gang := 1 }, rel := some (Test.rel asked) }
/-- The header allows 4 rounds; the record of group 0 is valid (`ran`), or not. -/
def Test.relaunching (ran : Bool) (asked : Option Nat) : State := { Test.logged Test.s1 with
  groups := [], items := [Test.reItem asked], clock := 130000000,
  mem := memWrite (memWrite Test.s1.mem (Test.base + 0x80C) [4]) (Test.base + 0x904) (if ran then [8] else [0]) }
def Test.someOk {α : Type} (o : Option α) (p : α → Bool) : Bool := match o with | some a => p a | none => false
theorem meets_ItemsEnterAndComplete :
    (Test.admitting.absent = none ∧ Test.admitting.head 5 = some Test.headRec ∧ 5 ∈ Test.admitting.nextQueues ∧ Test.admitting.judge Test.headRec = .go Test.recBytes ∧
      (Test.admitting.ctx? 0).isSome = true ∧ Test.admitting.frozen 0 = false ∧ (LaunchRec.ofBytes Test.recBytes).traced = false ∧
      (LaunchRec.ofBytes Test.recBytes).join = 0 ∧
      Test.admitting.renameNeeds 0 (Test.admitting.footprintOf 0 (LaunchRec.ofBytes Test.recBytes) false) = [] ∧
      (∀ i ∈ Test.admitting.items, i.id < Test.admitting.next ∧ i.kind ≠ .task)) ∧
    (let s := Test.working Test.newJob;
      s.absent = none ∧ s.jobs.find? (·.id == 9) = some Test.newJob ∧ (s.jobs.find? fun x => x.ctx == 0 && !x.admitted) = some Test.newJob ∧ s.tableFull = false ∧
      s.frozen 0 = false ∧ s.jobRefused Test.newJob (some []) = none ∧ (s.thread? 2 0).isSome = true) ∧
    (∀ it ∈ [Test.over 0 0, Test.over (mkAddr 1 0x800) (mkAddr 1 0x400)],
      let s := Test.completing it;
      s.absent = none ∧ s.item? it.id = some it ∧ s.itemOver it = true ∧ s.frozen it.ctx = false ∧ it.rel = none ∧ it.lr.traced = false ∧ it.host = none ∧
      (∀ x ∈ it.renames, x.own = false) ∧ s.pageReturns = [] ∧ (s.ctx? it.ctx).map (·.evs) = some 0 ∧ (∀ i ∈ s.items, i.kind ≠ .task) ∧ Memory.wf s.mem = true ∧
      s.port_ 0 [] .atomic (mkAddr 1 0x800) 8 = .ok (Test.bytesAt 0x800 8) ∧ (∀ p ∈ Test.bytesAt 0x800 8, p < memSize) ∧ s.port.poison = [] ∧
      leNat ((Test.bytesAt 0x800 8).map (memByte s.mem)) = 1 ∧ Roomy s (Test.bytesAt 0x800 8) ∧ Unspilled s ∧
      s.cpMiss 0 it.dead [(.load, addOff (mkAddr 1 0x400) 0x2F, 1)] = none) ∧
    (∀ ran, ∀ a ∈ [none, some 0],
      let s := Test.relaunching ran a;
      let it := Test.reItem a;
      s.absent = none ∧ s.item? it.id = some it ∧ it.rel = some (Test.rel a) ∧ it.edges = [] ∧ it.failedRecord = none ∧ (Test.rel a).ended = none ∧ s.frozen it.ctx = false ∧
      (a = none → s.roundOver it = true ∧ it.waits = [] ∧ s.cpMiss it.ctx it.dead (s.selReads it false) = none ∧
        s.cpPoison it.ctx ((s.selReads it false).filter (·.1 == .load)) = none ∧ Test.someOk (s.hdr it 0x18 (leBytes 8 0)) fun u => Test.someOk (u.readDev 0 it.addr 256) fun h =>
        u.ctxs == s.ctxs && leNat ((h.drop 0x0C).take 1) == 4 && u.selection it h false false == some (if ran then [] else [0]) &&
        Test.someOk (u.hdr it 0x0D [4]) fun a => Test.someOk (a.hdr it 0x0E (leBytes 2 1)) fun b => Test.someOk (b.hdr it 0x18 (leBytes 8 0)) fun v => v.absent == none) ∧
      Test.someOk (s.hdr it 0 (leBytes 4 1)) (fun v => v.absent == none) ∧
      (a ≠ none → Test.someOk ((s.log { cls := 9, sev := 1, ctx := 0, rfl := 2, addr := it.addr.toNat }).hdr it 0x0D [5]) fun x =>
        Test.someOk (x.hdr it 0x0E (leBytes 2 0)) fun y => Test.someOk (y.hdr it 0x18 (leBytes 8 0)) fun v => v.absent == none) ∧ 130000000 ≤ s.clock) := by
  unfold Roomy Unspilled
  refine ⟨by decide, by decide, fun it hi => ?_, fun ran a ha => ?_⟩
  · simp only [List.mem_cons, List.not_mem_nil, or_false] at hi
    obtain rfl | rfl := hi <;> decide
  · simp only [List.mem_cons, List.not_mem_nil, or_false] at ha
    obtain rfl | rfl := ha <;> cases ran <;> decide

/-- A privileged queue with one entry: command, A0, A1, A2, and a status word at 0xB000. Beside it a context descriptor at 0xA000, a queue descriptor
at 0xA800, a tail at 0x8100 of 1, or of 17, a list of two pages at 0xC000, and a checkpoint descriptor of zeros at 0xC100. -/
def Test.queue : HostQueue :=
  { desc := 0x8000, ring := 0x9000, taila := 0x8100, heada := 0x8200, nent := 16, hwq := 5, priv := true, ctx := 0, state := 1, tail := 1 }
def Test.other2 : HostQueue := { Test.queue with desc := 0x8040, state := 2 }
def Test.entry (cmd a0 a1 a2 : Nat) : Entry := { cmd := cmd, cfl := 2, a0 := a0, a1 := a1, a2 := a2, stata := 0xB000, bad := false }
def Test.hosted (s : State) (cmd a0 a1 a2 : Nat) : State := { s with
  agenda := [], issue := none, queues := [(0, Test.queue), (1, Test.other2)],
  mem := [(0x8100, leBytes 4 17), (0x9000, leBytes 2 (cmd + 2 * 256) ++ leBytes 6 0 ++ leBytes 8 a0 ++ leBytes 8 a1 ++ leBytes 8 a2 ++ leBytes 8 0xB000),
    (0xA000, leBytes 8 0x10000 ++ leBytes 8 2 ++ leBytes 8 (10 * 2 ^ 24)), (0xA800, leBytes 8 0x9400 ++ leBytes 16 0 ++ leBytes 4 16 ++ [64]),
    (0xC000, leBytes 8 0x40000 ++ leBytes 8 0x200001)].foldl (fun m (c : Nat × List Byte) => memWrite m c.1 c.2) s.mem }
/-- The same with the host window over all the queues name; with an entry of the other queue that is not taken. -/
def Test.windowed (s : State) : State := { s with edge := { s.edge with hwbase := 0, hwsize := 0x10000 } }
def Test.behind (s : State) : State := { s with queues := [(0, Test.queue), (1, { Test.other2 with state := 1 })] }
def Test.newQueue (s : State) : HostQueue := (queueOfBytes 0xA800 false (memBytes (s.queueTaken 0).mem 0xA800 64)).getD Test.queue
theorem Test.offers {s : State} {e : Entry} (h : s.offered 0 = some (Test.queue, e) ∧ s.untaken 0 = 0 ∧ s.absent = none) : Offers s 0 Test.queue e e.cmd :=
  ⟨h.1, rfl, h.2.1, h.2.2⟩
/-- A context whose group may be pre-empted; one that was, and whose region stands. -/
def Test.preemptible : State := Test.s2.modG 2 fun G => { G with lr := { G.lr with flags := 4 } }
def Test.putAside : State := Test.s2.modG 2 fun G => { G with res := .preempted 5 false }
def Test.planarHost : State := Test.hosted Test.planar 3 0 (2 ^ 48 + 0x600) 0
def Test.same (s : State) (cmd a0 a1 a2 : Nat) : Prop := (Test.hosted s cmd a0 a1 a2).offered 0 = some (Test.queue, Test.entry cmd a0 a1 a2) ∧
  (Test.hosted s cmd a0 a1 a2).untaken 0 = 0 ∧ (Test.hosted s cmd a0 a1 a2).absent = none
theorem meets_ContextAndQueueCommands :
    (∀ x ∈ [(4, (1, 0x10040)), (4, (1, 0x10000)), (5, (1, 1)), (6, (1, 0xA000)), (6, (63, 0xA080)), (6, (0, 0xA000)), (7, (0, 0)), (8, (0xA800, 0)), (9, (0x8040, 0))],
      Offers (Test.hosted Test.s1 x.1 x.2.1 x.2.2 0) 0 Test.queue (Test.entry x.1 x.2.1 x.2.2 0) x.1) ∧
    Offers Test.planarHost 0 Test.queue (Test.entry 3 0 (2 ^ 48 + 0x600) 0) 3 ∧ Offers (Test.hosted Test.preemptible 10 0 0 0) 0 Test.queue (Test.entry 10 0 0 0) 10 ∧
    Offers (Test.hosted Test.putAside 11 0 0 0) 0 Test.queue (Test.entry 11 0 0 0) 11 ∧
    (Test.queue.priv = true ∧ Test.queue.heada.toNat + 4 ≤ memSize ∧ Memory.wf Test.planarHost.mem = true ∧ (Test.entry 3 0 0 0).stata ≠ 0) ∧
    (let s := Test.planarHost; let e := Test.entry 3 0 (2 ^ 48 + 0x600) 0;
      Test.someOk (s.planemapOf Test.queue e) (fun x => x.1 == 0 && x.2.2 == mkAddr 1 0x600 && (s.queueTaken 0).pdeOk x.2.1 (Pde.ofBytes ((s.queueTaken 0).gather (Test.bytesAt 0x600 32)))
        && ((s.queueTaken 0).cpWrite 0 x.2.2 ((s.queueTaken 0).gather (Test.bytesAt 0x600 32))).isSome) ∧
      s.cpMiss 0 [] [(.load, mkAddr 1 0x600, 32), (.store, mkAddr 1 0x600, 32)] = none ∧ Reaches (s.queueTaken 0) 0 [] .load (mkAddr 1 0x600) 32 (Test.bytesAt 0x600 32)) ∧
    (let s := Test.hosted Test.s1 4 1 0x10040 0; (s.bufTarget (Test.entry 4 1 0x10040 0)).map (fun x => (x.1, x.2.1)) = some (0, 1) ∧
      imageBad (memBytes (s.queueTaken 0).mem 0x10040 64) = false ∧ (bufOfBytes (memBytes (s.queueTaken 0).mem 0x10040 64)).stamp = false ∧
      (bufOfBytes (memBytes (s.queueTaken 0).mem 0x10040 64)).rename = false ∧ Memory.wf (s.queueTaken 0).mem = true ∧
      imageBad (memBytes (s.queueTaken 0).mem 0x10000 64) = true ∧ s.port.poison = []) ∧
    (let s := Test.hosted Test.s1 6 1 0xA000 0; s.ctx? 1 = none ∧ s.ctx? 63 = none ∧ (s.ctx? 0).isSome = true ∧
      (ctxOfBytes 0xA000 (memBytes (s.queueTaken 0).mem 0xA000 128)).map (·.evs) = some 0 ∧ ctxOfBytes 0xA080 (memBytes (s.queueTaken 0).mem 0xA080 128) = none ∧
      (∀ x ∈ s.queues, x.2.desc ≠ 0xA800) ∧ (queueOfBytes 0xA800 false (memBytes (s.queueTaken 0).mem 0xA800 64)).map (·.priv) = some true ∧
      memBytes (s.queueTaken 0).mem 0xA800 64 = memBytes s.mem 0xA800 64 ∧ (s.queueTaken 0).queueFits (Test.newQueue s) = false ∧
      ((s.queueTaken 0).queues.find? (fun x => x.2.desc == 0x8040)).isSome = true ∧ (s.queueTaken 0).draining 1 = false) ∧
    (let s := Test.windowed (Test.hosted Test.s1 8 0xA800 0 0); let N := Test.newQueue s;
      queueOfBytes 0xA800 false (memBytes (s.queueTaken 0).mem 0xA800 64) = some N ∧ N.priv = true ∧ N.hitch = none ∧ (s.queueTaken 0).queueFits N = true ∧
      ((s.queueTaken 0).queueBytes N .load (N.taila &&& ~~~(63#64)) 64).isSome = true ∧ s.port.table = []) ∧
    ((Test.behind (Test.hosted Test.s1 9 0x8040 0 0)).queueTaken 0).draining 1 = true ∧
    (let s := Test.hosted Test.preemptible 10 0 0 0; let G := Test.group s;
      (s.ctx? 0).isSome = true ∧ s.frozen 0 = false ∧ (s.queueTaken 0).absent = none ∧ Distinct s.groups ∧ s.group? 2 = some G ∧ G.ctx = 0 ∧ bitN G.lr.flags 2 = 1 ∧
      G.res = .resident ∧ G.exiting = false ∧ G.deadline = none ∧ G.loop = none ∧ G.open_ = [] ∧ G.heldDel = [] ∧ Distinct G.threads ∧ G.handler ≠ 0 ∧
      Unspilled s ∧ G.threads.map (fun x => (x.2.hmode, x.2.wait)) = [(.none, .ready), (.none, .ready)] ∧ G.live.length = 2) ∧
    (let s := Test.hosted Test.putAside 11 0 0 0; let G := Test.group s;
      (s.ctx? 0).isSome = true ∧ s.frozen 0 = false ∧ Distinct s.groups ∧ ((s.queueTaken 0).status (statusOf 0 Test.queue (Test.entry 11 0 0 0)) 1 0 0).absent = none ∧
      s.group? 2 = some G ∧ G.ctx = 0 ∧ s.gangMembers G.gang = [(2, G)] ∧ G.res = .preempted 5 false ∧ G.heldDel = [] ∧
      (s.thread? 2 0).map (·.wait) = some .ready) := by
  unfold Reaches Distinct Unspilled
  have h : ∀ x ∈ [(4, (1, 0x10040)), (4, (1, 0x10000)), (5, (1, 1)), (6, (1, 0xA000)), (6, (63, 0xA080)), (6, (0, 0xA000)), (7, (0, 0)), (8, (0xA800, 0)), (9, (0x8040, 0))],
      Test.same Test.s1 x.1 x.2.1 x.2.2 0 := by unfold Test.same; decide
  exact ⟨fun x hx => Test.offers (h x hx), Test.offers (by decide), Test.offers (by decide), Test.offers (by decide), by decide, by decide, by decide, by decide, by decide, by decide,
    by decide, by decide⟩

/-- A tail's push of n, and one behind it. -/
def Test.tail (n : Nat) (more : Bool) : Slot := { Test.slot with
  line := 0x8100 / 64, addr := 0x8100, each := false, nent := 1, fresh := [false], seqs := [6], sent := some (leBytes 64 n, 7, 0),
  next := if more then some (leBytes 64 3, 9, 1) else none }
def Test.tailed (n : Nat) (more : Bool) : State :=
  let s := Test.hosted Test.s1 1 0 0 0
  { s with queues := Map.set s.queues 0 { Test.queue with hitch := some (Test.tail n more) } }
/-- A checkpoint stream in progress, with its own quiescence or after a QUIESCE; a restore stream. -/
def Test.streaming (r : Running) : State := { Test.s1 with edge := { Test.s1.edge with ckpt := true, running := [(0, { queue := 0, stata := 0, msi := false, ctx := 0, priv := true }, r)] } }
def Test.manifest : Manifest := { finalWord := 1, byteCount := memSize, sameDevice := false }
def Test.idle (s : State) : State := { s with ctxs := [], groups := [], items := [] }
def Test.quiet (s : State) : State := { s with edge := { s.edge with quiesced := true } }
def Test.refusing (s : State) : State := { s with ctxs := s.ctxs.map fun (e : Nat × Ctx) => (e.1, { e.2 with svc := 32 }) }
theorem meets_DeviceCommands :
    (∀ c ∈ [1, 2], ∀ k ∈ [0, 9], Offers (Test.hosted Test.s1 c (2 ^ 48) 0 k) 0 Test.queue (Test.entry c (2 ^ 48) 0 k) c ∧
      ((Test.hosted Test.s1 c (2 ^ 48) 0 k).ctx? 0).isSome = true ∧ (Test.hosted Test.s1 c (2 ^ 48) 0 k).frozen 0 = false ∧ (Test.hosted Test.s1 c (2 ^ 48) 0 k).ctx? 9 = none) ∧
    (∀ n ∈ [16, 17], ∀ more, let s := Test.tailed n more; let Q := (Map.get? s.queues 0).getD Test.queue; s.absent = none ∧ Map.get? s.queues 0 = some Q ∧ Q.state = 1 ∧
      s.edge.wymDown = false ∧ Q.hitch = some (Test.tail n more) ∧ (Test.tail n more).each = false ∧ (Test.tail n more).sent = some (leBytes 64 n, 7, 0) ∧
      leNat ((leBytes 64 n).take 4) = n ∧ Q.nent = 16 ∧ Q.head = 0 ∧ Q.desc + 64 ≤ memSize ∧ Memory.wf s.mem = true) ∧
    (∀ x ∈ [(0xC000, (2, 0)), (0xC010, (1, 0)), (0xC004, (1, 0)), (0xD000, (0, 1))],
      Offers (Test.hosted Test.s1 12 x.1 x.2.1 x.2.2) 0 Test.queue (Test.entry 12 x.1 x.2.1 x.2.2) 12 ∧
      Memory.wf ((Test.hosted Test.s1 12 x.1 x.2.1 x.2.2).queueTaken 0).mem = true ∧
      Unspilled ((Test.hosted Test.s1 12 x.1 x.2.1 x.2.2).queueTaken 0) ∧ (Test.hosted Test.s1 12 x.1 x.2.1 x.2.2).port.poison = [] ∧ (Test.hosted Test.s1 12 x.1 x.2.1 x.2.2).port.hold = [] ∧ (Test.hosted Test.s1 12 x.1 x.2.1 x.2.2).port.stalls = []) ∧
    (let m := ((Test.hosted Test.s1 12 0xC000 2 0).queueTaken 0).mem;
      (List.range 2).map (fun k => leNat (memBytes m (0xC000 + 8 * k) 8)) = [0x40000, 0x200001] ∧ leNat (memBytes m 0xC004 8) = 0x20000100000000 ∧
      ¬ 0x20000100000000 + 2 ^ 16 ≤ memSize) ∧
    (∀ q, ∀ x ∈ [(14, (0xC000, 0xD000)), (15, (0, 0)), (16, (1, 0)), (16, (0, 0)), (13, (0xC100, 0))],
      let s := Test.hosted (if q then Test.quiet Test.s1 else Test.s1) x.1 x.2.1 x.2.2 0; let e := Test.entry x.1 x.2.1 x.2.2 0;
      Offers s 0 Test.queue e x.1 ∧ s.edge.quiesced = q ∧ Unspilled (s.queueTaken 0) ∧ Memory.wf (s.queueTaken 0).mem = true ∧ s.port.poison = [] ∧ ∀ c ∈ s.ctxs, bitN c.2.svc 5 = 0) ∧
    (let s := Test.hosted (Test.refusing Test.s1) 13 0xC100 0 0; Offers s 0 Test.queue (Test.entry 13 0xC100 0 0) 13 ∧ s.edge.quiesced = false ∧ ∃ c ∈ s.ctxs, bitN c.2.svc 5 = 1) ∧
    (∀ a ∈ [0, 1], let s := Test.hosted (Test.idle (Test.quiet Test.s1)) 17 0xC100 a 0; Offers s 0 Test.queue (Test.entry 17 0xC100 a 0) 17 ∧ s.edge.quiesced = true ∧
      s.ctxs = [] ∧ s.port.poison = []) ∧
    Offers (Test.hosted Test.s1 17 0xC100 0 0) 0 Test.queue (Test.entry 17 0xC100 0 0) 17 ∧ Test.manifest.finalWord = 1 ∧ Test.manifest.byteCount = memSize ∧
    (∀ r ∈ [Running.ckpt false true, .ckpt true false, .restore], (Test.streaming r).absent = none ∧ (Test.streaming r).edge.ckpt = true ∧ Memory.wf (Test.streaming r).mem = true ∧
      (Test.streaming r).edge.running = [(0, { queue := 0, stata := 0, msi := false, ctx := 0, priv := true }, r)] ∧ (Test.streaming r).edge.elbase = 0) ∧
    (∀ r ∈ [Running.ckpt false true, .ckpt true false], ((((Test.streaming r).modEdge fun x => { x with ckpt := false }).log { cls := 12, sev := 1 }).modEdge fun x => { x with running := [] }).absent = none) := by
  unfold Unspilled
  refine ⟨fun c hc k hk => ?_, by decide, fun x hx => ?_, by decide, fun q x hx => ?_, ⟨Test.offers (by decide), by decide, by decide⟩, fun a ha => ?_, Test.offers (by decide),
    by decide, by decide, by decide, by decide⟩
  · simp only [List.mem_cons, List.not_mem_nil, or_false] at hc hk
    obtain rfl | rfl := hc <;> obtain rfl | rfl := hk <;> exact ⟨Test.offers (by decide), by decide, by decide, by decide⟩
  · simp only [List.mem_cons, List.not_mem_nil, or_false] at hx
    obtain rfl | rfl | rfl | rfl := hx <;> exact ⟨Test.offers (by decide), by decide, by decide, by decide, by decide⟩
  · simp only [List.mem_cons, List.not_mem_nil, or_false] at hx
    cases q <;> obtain rfl | rfl | rfl | rfl | rfl := hx <;> exact ⟨Test.offers (by decide), by decide, by decide, by decide, by decide⟩
  · simp only [List.mem_cons, List.not_mem_nil, or_false] at ha
    obtain rfl | rfl := ha <;> exact ⟨Test.offers (by decide), by decide, by decide, by decide⟩

/-- A device at a stage of its bring-up; its edge otherwise set. -/
def Test.at_ (f : Edge → Edge) : State := { Test.logged Test.s1 with edge := f { (Test.logged Test.s1).edge with trained := [0, 3], bstage := 8 }, clock := 130000001 }
def Test.stage (n : Nat) (tried : List Nat) : State := Test.at_ fun e => { e with bstage := n, tried := tried, trained := if n < 6 then [] else [0] }
def Test.q0 : State := { Test.hosted (Test.stage 7 []) 0 0 0 0 with queues := [] }
/-- Failed retrains of port p; a replay count; the host window over buffer 1; a right of the host to buffer 1; a poisoned sector; a snoop of line 5
for a fence of the thread, and of no job; a context to be killed by Oromel's policy. -/
def Test.failing (p n : Nat) : State := Test.at_ fun e => { e with fails := [(p, List.replicate n 0)], streak := [(p, 8)], replays := [(p, 5)] }
def Test.window : State := Test.at_ fun e => { e with hwbase := 0x20000, hwsize := 0x10000 }
def Test.hostRights : State := { Test.at_ id with mem := memWrite (Test.at_ id).mem (0x10000 + 64 + 0x10) [31] }
def Test.noRights : State := { Test.at_ id with mem := memWrite (Test.at_ id).mem (0x10000 + 64 + 0x10) [15] }
def Test.snoop : Snoop := { line := 5, sent := 0, grp := 2, tid := 0, job := 0 }
def Test.snooping (fence : Bool) : State :=
  { (Test.at_ id).modT 2 0 fun T => { T with wait := if fence then .on (.fence 8) 0 0 else .ready } with port := { Test.s1.port with snoops := [Test.snoop] } }
def Test.doomed : State := { Test.at_ id with ctxs := Test.s1.ctxs.map fun (e : Nat × Ctx) => (e.1, { e.2 with doomed := some 0, svc := 16 }) }
theorem Test.fits2 {s : State} (h : s.edge.ecnt = [] ∧ s.absent = none ∧ s.edge.elbase + 64 * s.edge.elsize ≤ memSize ∧ Memory.wf s.mem = true) : LogFits s := Test.logFits s h.1 h.2
theorem Test.noHost {s : State} (h : s.queues = [] ∧ (∀ i ∈ s.items, i.host = none) ∧ s.hwq = []) : NoHost s := ⟨by simp [h.1], h.2.1, by simp [h.2.2]⟩
theorem meets_EdgeEvents :
    (Test.s1.absent = none ∧ (Test.at_ id).edge.mctlUp = true ∧ (Test.at_ id).edge.therm = 0 ∧ ∃ s : State, s.absent = none ∧ s.edge.therm = 3 ∧ 90 ≤ s.edge.tjmax) ∧
    (let s := Test.stage 5 []; s.absent = none ∧ s.edge.wymDown = false ∧ s.edge.bstage = 5 ∧ s.edge.booterr = 0) ∧
    (∀ tried ∈ [[], List.range' 2 31], let s := Test.stage 6 tried; s.absent = none ∧ s.edge.recovery = false ∧ 1 ∉ s.edge.tried ∧ s.edge.q0desc = 0) ∧
    (Test.q0.edge.hostUp = true ∧ Test.q0.edge.bstage = 7 ∧ Test.q0.port.poison = [] ∧ Test.q0.queues = [] ∧ Memory.wf Test.q0.mem = true ∧ Test.q0.absent = none ∧
      Test.q0.port.table = [] ∧ queueOfBytes 0xA880 true (memBytes Test.q0.mem 0xA880 64) = none ∧
      ∀ N ∈ queueOfBytes 0xA800 true (memBytes Test.q0.mem 0xA800 64), Test.q0.queueFits N = false ∧ (Test.windowed Test.q0).queueFits N = true) ∧
    ((Test.at_ id).edge.hostUp = true ∧ (Test.at_ id).edge.bstage ≠ 7 ∧ (Test.at_ id).absent = none) ∧
    (∀ p ∈ [0, 3], let s := Test.failing p 3; s.absent = none ∧ p ∈ s.edge.trained ∧ 8 ≤ Map.getD s.edge.streak 0 p ∧ Distinct s.edge.fails ∧ Distinct s.edge.streak ∧
      Distinct s.edge.replays ∧ Map.get? s.edge.replays p = some 5 ∧ LogFits s ∧ Map.get? s.edge.fails p = some [0, 0, 0] ∧ NoHost s) ∧
    (let s := Test.at_ fun e => { e with wymDown := true }; s.absent = none ∧ s.edge.wymDown = true) ∧
    ((Test.window.edge.hostUp = true ∧ Test.window.edge.inWindow 0x20040 64 = true ∧ 0x20040 % 64 + 64 ≤ 64 ∧ Test.window.port.poison = [] ∧ Test.window.port.stalls = [] ∧
        Test.window.edge.ckpt = false ∧ Memory.wf Test.window.mem = true ∧ Roomy Test.window ((List.range 64).map (0x20040 + ·)) ∧ Unspilled Test.window ∧
        (atomOfIndex 0).isSome = true ∧ 0x20040 % atomLen .n32 = 0) ∧
      (Test.hostRights.edge.hostUp = true ∧ ∃ x ∈ Test.hostRights.spots 0x20FC0 64, bitN x.entry.rights 4 = 1 ∧ x.entry.owner = x.ctx ∧ x.ok = true) ∧
      (∃ x ∈ ({ Test.window with port := { Test.window.port with poison := [0x1003] } } : State).port.poison, ∃ y ∈ [0x20060], y / 32 = x) ∧
      (Test.noRights.edge.hostUp = true ∧ Test.noRights.edge.inWindow 0x20000 1 = false ∧ (Test.noRights.spots 0x20000 1).length = 1 ∧
        (∀ x ∈ Test.noRights.spots 0x20000 1, bitN x.entry.rights 4 = 0) ∧ LogFits Test.noRights)) ∧
    (∀ b, let s := Test.snooping b; s.absent = none ∧ s.port.snoops.find? (·.line == 5) = some Test.snoop ∧ s.clock ≥ 0 + 13000000 ∧ Test.snoop.job = 0 ∧ LogFits s ∧
      (s.thread? 2 0).map (·.wait) = some (if b then .on (.fence 8) 0 0 else .ready) ∧ s.accesses = []) ∧
    (∀ e ∈ (Test.at_ id).edge.running, e.2.2 ≠ .restore) ∧
    ((Test.at_ id).edge.therm ≤ 3 ∧ NoHost (Test.at_ id) ∧ LogFits (Test.at_ id) ∧ (Test.at_ id).edge.ckpt = false ∧ (Test.at_ id).edge.therm ≠ 3) ∧
    Test.doomed.absent = none ∧ (Test.doomed.ctx? 0).map (fun C => (C.doomed, C.killed)) = some (some 0, false) ∧ NoHost Test.doomed ∧ Distinct Test.doomed.groups := by
  unfold Distinct Roomy Unspilled
  refine ⟨⟨by decide, by decide, by decide, Test.at_ fun e => { e with therm := 3, tjmax := 90 }, by decide, by decide, by decide⟩, by decide, fun t ht => ?_, by decide, by decide,
    fun p hp => ?_, by decide, ⟨by decide, by decide, by decide, by decide, by decide, by decide, by decide, Test.fits2 (by decide)⟩, fun b => ?_, by decide,
    ⟨by decide, Test.noHost (by decide), Test.fits2 (by decide), by decide, by decide⟩, by decide, by decide, Test.noHost (by decide), by decide⟩
  · simp only [List.mem_cons, List.not_mem_nil, or_false] at ht
    obtain rfl | rfl := ht <;> decide
  · simp only [List.mem_cons, List.not_mem_nil, or_false] at hp
    obtain rfl | rfl := hp <;> exact ⟨by decide, by decide, by decide, by decide, by decide, by decide, by decide, Test.fits2 (by decide), by decide, Test.noHost (by decide)⟩
  · cases b <;> exact ⟨by decide, by decide, by decide, by decide, Test.fits2 (by decide), by decide, by decide⟩

/-- A slot that the only entry of its line's home names. -/
def Test.subscribed : State := Test.homed [{ Test.hentry 0 with subs := [.slot 2 0x100] }] (Test.slotted Test.slot)
/-- A core without groups, and one with the only group there is; the page of buffer 1 dirty in a slice of the LLC; a page of no context. -/
def Test.banked : State := { Test.at_ id with cores := [(0, { bank0 := { owner := some 0 } })] }
theorem meets_ErrorsAreContained :
    (LogFits (Test.at_ id) ∧ (∀ n ∈ [0, 511], ((Test.at_ id).core n).retired = false) ∧ (∀ e ∈ (Test.at_ id).groups, e.2.core ≠ 511) ∧
      (∃ e ∈ (Test.at_ id).groups, e.2.core = 0) ∧ (∀ e ∈ (Test.at_ id).groups, e.2.core = 0 ∧ e.2.ctx = 0)) ∧ (∃ C, Mortal (Test.at_ id) 0 C) ∧ NoHost (Test.at_ id) ∧
    ((Test.at_ id).edge.ckpt = false ∧ ((Test.at_ id).thread? 2 0).isSome = true ∧ (Test.at_ id).group? 2 = some (Test.group (Test.at_ id)) ∧ (Test.group (Test.at_ id)).ctx = 0) ∧
    (LogFits Test.banked ∧ (Test.banked.core 0).bank0.owner = some 0 ∧ (∃ C, Mortal Test.banked 0 C) ∧ Distinct Test.banked.cores) ∧
    ((Test.at_ id).ownersOf (0x20000 / 65536) = [0] ∧ (Test.at_ id).ownersOf (0x500000 / 65536) = [] ∧ 2 ≤ ((Test.at_ id).placement 0x500000).1 ∧ 0x500000 < memSize) ∧
    (LogFits Test.subscribed ∧ (Test.subscribed.port.table.filter (·.line == (Test.base + 0x400) / 64))[0]? = some { Test.hentry 0 with subs := [.slot 2 0x100] } ∧
      Map.get? (Test.group Test.subscribed).slots 0x100 = some Test.slot ∧ Test.slot.gone = false ∧ Test.slot.severed = false) := by
  unfold Distinct
  exact ⟨⟨Test.fits2 (by decide), by decide, by decide, by decide, by decide⟩, ⟨((Test.at_ id).ctx? 0).get (by decide), Test.mortal (by decide)⟩, Test.noHost (by decide), by decide,
    ⟨Test.fits2 (by decide), by decide, ⟨(Test.banked.ctx? 0).get (by decide), Test.mortal (by decide)⟩, by decide⟩, by decide, Test.fits2 (by decide), by decide⟩

/-! ### Rules of the whole machine -/

theorem meets_SerialComparison : ∀ x ∈ [(0, 0), (0, 2 ^ 31), (2 ^ 31, 0), (2 ^ 32 - 1, 2 ^ 31), (2 ^ 32 - 1, 0)], x.1 < 2 ^ 32 ∧ x.2 < 2 ^ 32 := by decide
theorem meets_EffectiveAddress : Test.each Test.s1 Test.is1 fun r => ∃ c, Test.s1.ctx? r.G.ctx = some c ∧
    (Test.s1.buf c ((Test.s1.ea r (Test.mem (.lit 0xEF1))).toNat / 2 ^ 48)).size < (Test.s1.ea r (Test.mem (.lit 0xEF1))).toNat % 2 ^ 48 + 16 := by
  intro r hr
  obtain rfl : r = (Test.s1.refsOf Test.is1).head (by decide) := by
    have h : Test.s1.refsOf Test.is1 = [(Test.s1.refsOf Test.is1).head (by decide)] := by decide
    rw [h] at hr; simpa using hr
  exact ⟨(Test.s1.ctx? 0).get (by decide), by decide, by decide⟩
theorem meets_StepsKeepMemoryCanonical : Memory.wf Test.program.mem = true ∧
    (match Sys2Proof.Machine.step Test.program with | .next _ => true | _ => false) = true := ⟨by decide, by decide⟩

/-! ## Results: worked cases of the spec, and hand calculations from the rules named -/

/-- A register after an instruction of lane 0 of `Test.state`; its flags. -/
def Test.go (i : Instr) (regs : List (Nat × Nat)) (v : Nat) : Option Nat := Test.reg (exec i (Test.state { regs := regs })) v
def Test.flagsAfter (i : Instr) (regs : List (Nat × Nat)) : Option Nat := Test.out (exec i (Test.state { regs := regs })) fun t => (Test.group t).fstat
def Test.d8 (a b : Nat) (ty : Ty) : Full := { Test.full with d := 8, a := BitVec.ofNat 8 a, b := .num (BitVec.ofNat 8 b), ty := ty }
/-- One thread in each of the lanes given, all at the same instruction. -/
def Test.many (x : Test.Set) (l : List (Nat × List (Nat × Nat))) : State :=
  { (Test.state x).modG 2 fun G => { G with threads := l.map fun e => (e.1, Test.thread x e.1 e.2) } with
    issue := some { Test.issue false with refs := l.map fun e => (2, e.1) } }
def Test.each_ (o : Host.Outcome State Fault Refusal) (lanes : List Nat) (p : Thread → Nat) : List (Option Nat) :=
  lanes.map fun k => (Test.out o fun t => (t.thread? 2 k).map p).join

/-- R278: addition wraps at the TYPE, and `.sat` clamps. -/
theorem test_iadd : Test.go (.iadd (Test.d8 2 3 .s32)) [(2, 0x7FFFFFFF), (3, 1)] 8 = some 0x80000000 ∧
    Test.go (.iadd { Test.d8 2 3 .s32 with mod := 4 }) [(2, 0x7FFFFFFF), (3, 1)] 8 = some 0x7FFFFFFF := by decide
/-- R278: 0 − 1 borrows; −7 / 2 truncates to −3 and leaves −1; division by 0 gives all ones. -/
theorem test_isubb : Test.pred (exec (.isubb { Test.d8 2 3 .n32 with pd := 1, c := 0, s := true }) (Test.state { regs := [(3, 1)] })) 1 = some true := by decide
theorem test_idiv : Test.go (.idiv (Test.d8 2 3 .s32)) [(2, 0xFFFFFFF9), (3, 2)] 8 = some 0xFFFFFFFD ∧
    Test.go (.idiv (Test.d8 2 3 .s32)) [(2, 5)] 8 = some 0xFFFFFFFF := by decide
theorem test_irem : Test.go (.irem (Test.d8 2 3 .s32)) [(2, 0xFFFFFFF9), (3, 2)] 8 = some 0xFFFFFFFF := by decide
/-- (2³² − 1)² = 2⁶⁴ − 2³³ + 1; the high word of −1 × 2 is −1. -/
theorem test_imul : Test.go (.imulWide (Test.d8 2 3 .n32)) [(2, 0xFFFFFFFF), (3, 0xFFFFFFFF)] 9 = some 0xFFFFFFFE ∧
    Test.go (.imulHi (Test.d8 2 3 .s32)) [(2, 0xFFFFFFFF), (3, 2)] 8 = some 0xFFFFFFFF := by decide
/-- R279: −1 is below 1, and 2³² − 1 is not. -/
theorem test_icmp : Test.pred (exec (.icmpLt { Test.d8 2 3 .s32 with d := 0, pd := 1 }) (Test.state { regs := [(2, 0xFFFFFFFF), (3, 1)] })) 1 = some true ∧
    Test.pred (exec (.icmpLt { Test.d8 2 3 .n32 with d := 0, pd := 1 }) (Test.state { regs := [(2, 0xFFFFFFFF), (3, 1)] })) 1 = some false := by decide
/-- R280: the majority of three words, in the spec's worked case. -/
theorem test_ilop3 : Test.go (.ilop3 { Test.full with d := 7, a := 1, b := .num 2, c := 3, mod := 8, ext := 0xE })
    [(1, 0xFF00FF00), (2, 0xF0F0F0F0), (3, 0xCCCCCCCC)] 7 = some 0xFCC0FCC0 := by decide
/-- R280: an arithmetic shift by 40 of −8 fills with the sign, a logical one gives 0; bits 11:4 of 0xF80 read as −8; no bit set. -/
theorem test_shift : Test.go (.ishrA (Test.d8 2 3 .s32)) [(2, 0xFFFFFFF8), (3, 40)] 8 = some 0xFFFFFFFF ∧
    Test.go (.ishrL (Test.d8 2 3 .b32)) [(2, 0xFFFFFFF8), (3, 40)] 8 = some 0 := by decide
theorem test_ibfx : Test.go (.ibfx (Test.d8 2 3 .s32)) [(2, 0xF80), (3, 0x804)] 8 = some 0xFFFFFFF8 := by decide
theorem test_counts : Test.go (.iclz { Test.full with d := 8, a := 2, ty := .n32 }) [(2, 1)] 8 = some 31 ∧
    Test.go (.ictz { Test.full with d := 8, a := 2, ty := .n32 }) [(2, 0)] 8 = some 32 := by decide
/-- R281: the offset wraps within its 48 bits, and the buffer index stays. -/
theorem test_aadd : Test.go (.aadd { Test.full with d := 8, a := 2, b := .lit 1, ty := .b64 }) [(2, 0xFFFFFFFF), (3, 0x1FFFF)] 9 = some 0x10000 ∧
    Test.go (.aadd { Test.full with d := 8, a := 2, b := .lit 1, ty := .b64 }) [(2, 0xFFFFFFFF), (3, 0x1FFFF)] 8 = some 0 := by decide
/-- R282: 1 + 2 = 3; 1 / 3 to nearest, inexact; √4; (1 + 2⁻¹²)² − (1 + 2⁻¹¹) = 2⁻²⁴ with one rounding. -/
theorem test_fadd : Test.go (.fadd (Test.d8 2 3 .f32)) [(2, 0x3F800000), (3, 0x40000000)] 8 = some 0x40400000 := by decide
theorem test_fdiv : Test.go (.fdiv (Test.d8 2 3 .f32)) [(2, 0x3F800000), (3, 0x40400000)] 8 = some 0x3EAAAAAB ∧
    Test.flagsAfter (.fdiv (Test.d8 2 3 .f32)) [(2, 0x3F800000), (3, 0x40400000)] = some 16 := by decide
theorem test_fsqrt : Test.go (.fsqrt { Test.full with d := 8, a := 2, ty := .f32 }) [(2, 0x40800000)] 8 = some 0x40000000 := by decide
theorem test_ffma : Test.go (.ffma { Test.d8 2 2 .f32 with c := 3 }) [(2, 0x3F800800), (3, 0xBF801000)] 8 = some 0x33800000 := by decide
/-- R284: a NaN is unordered. -/
theorem test_fcmp : Test.pred (exec (.fcmpUn { Test.d8 2 3 .f32 with d := 0, pd := 1 }) (Test.state { regs := [(2, 0x7FC00000)] })) 1 = some true ∧
    Test.pred (exec (.fcmpLe { Test.d8 2 3 .f32 with d := 0, pd := 1 }) (Test.state { regs := [(2, 0x7FC00000)] })) 1 = some false := by decide
/-- R157, worked case: 232 and 233 into `f8p4`, 233 with `.sat` and into `f8p4x`, −233 into `g8p4`; with their flags. -/
def Test.f8 (ext mod : Nat) : Instr := .cvt .f32 { Test.full with d := 8, a := 2, ty := .f8, ext := BitVec.ofNat 4 ext, mod := BitVec.ofNat 4 mod }
theorem test_cvt : [(Test.f8 4 8, 0x43680000), (Test.f8 4 8, 0x43690000), (Test.f8 4 12, 0x43690000), (Test.f8 4 0, 0x43690000), (Test.f8 12 8, 0xC3690000)].map
    (fun (e : Instr × Nat) => (Test.go e.1 [(2, e.2)] 8, Test.flagsAfter e.1 [(2, e.2)])) =
    [(some 0x7E, some 16), (some 0x7F, some 20), (some 0x7E, some 20), (some 0x7F, some 16), (some 0xFF, some 1)] := by decide
/-- R168, worked case: a bank with `LO` −4, `SCALE` 32 and 0.5, 0.25, 0, 0 in segment 133. -/
def Test.act (x : Nat) : Host.Outcome State Fault Refusal := exec (.act { Test.full with d := 8, a := 2, ty := .f32 })
  { Test.state { regs := [(2, x)] } with cores := [(0, { bank0 := { lo := 0xC0800000, scale := 0x42000000, owner := some 0, seg := [(4 * 133, 0x3F000000), (4 * 133 + 1, 0x3E800000)] } })] }
theorem test_act : Test.reg (Test.act 0x3E200000) 8 = some 0x3F000000 ∧ Test.reg (Test.act 0x3E280000) 8 = some 0x3F100000 := by decide
/-- R117, worked case: 0.9375, −0.3125 and 0.0625 packed at depth 3; read back, −0.25. -/
theorem test_plpack : Test.each_ (exec (.plpack { Test.full with d := 8, a := 2, b := .imm 3, ty := .f32 })
    (Test.many {} [(0, [(2, 0x3F700000)]), (1, [(2, 0xBEA00000)]), (2, [(2, 0x3D800000)])])) [0, 1, 2] (fun T => T.v 8 * 2 ^ 32 + T.tag 8) =
    [some 0x400000000000A37F, some 0x900000000000A37F, some 0xA37F] := by decide
theorem test_plval : Test.reg (exec (.plval { Test.full with d := 2, a := 8, ty := .f32 }) (Test.state { regs := [(8, 0x90000000)], tags := [(8, 0xA37F)] })) 2 =
    some 0xBE800000 := by decide
/-- R45, worked case: lanes 0 to 5 and 9 to 15 of tiles of 8, each with its lane number plus 1. -/
theorem test_lred : Test.each_ (exec (.lred { Test.full with d := 8, a := 2, ty := .s32 })
    ((Test.many {} (([0, 1, 2, 3, 4, 5] ++ List.range' 9 7).map fun k => (k, [(2, k + 1)]))).modG 2 fun G => { G with part := 8 })) [0, 5, 9, 15] (·.v 8) =
    [some 21, some 21, some 91, some 91] := by decide
/-- R295, worked case: the three largest of eight lanes, lane 6 without its guard. -/
theorem test_selk :
    let o := exec (.selk { Test.full with g := 0, d := 4, a := 2, b := .imm 3, ty := .f32, pd := 1 }) (((Test.many {} [(0, [(2, 0x40400000)]), (1, [(2, 0x40A00000)]),
      (2, [(2, 0x40A00000)]), (3, [(2, 0xBF800000), (4, 9)]), (4, [(2, 0x7FC00000), (4, 9)]), (5, [(2, 0x40E00000), (4, 9)]), (6, [(2, 0x40000000), (4, 9)]),
      (7, [(2, 0x40A00000), (4, 9)])]).modG 2 fun G => { G with part := 8, threads := G.threads.map fun e => (e.1, { e.2 with preds := if e.1 = 6 then 0 else 1 }) }))
    Test.each_ o (List.range 8) (fun T => T.v 4) = [0x40E00000, 0x40A00000, 0x40A00000, 9, 9, 9, 9, 9].map some ∧
      Test.each_ o (List.range 8) (fun T => if T.pred 1 then 1 else 0) = [1, 1, 1, 0, 0, 0, 0, 0].map some := by decide
/-- R297: a shuffle by index, and one from a lane that does not contribute. -/
theorem test_shfl : Test.each_ (exec (.shflIdx { Test.full with d := 8, a := 2, b := .num 3, pd := 1 }) (Test.many {} [(0, [(2, 5), (3, 1)]), (1, [(2, 7), (3, 9)])]))
    [0, 1] (fun T => T.v 8 + if T.pred 1 then 100 else 0) = [some 107, some 7] := by decide
/-- R294: of two lanes, p0 holds in one. -/
theorem test_vote : Test.each_ (exec (.voteAny { Test.full with a := 0, pd := 1 }) ((Test.many {} [(0, []), (1, [])]).modT 2 1 fun T => { T with preds := 1 }))
    [0, 1] (fun T => if T.pred 1 then 1 else 0) = [some 1, some 1] := by decide
/-- R264, R301: `$tid` and, in the worked case of R17, `$core`. -/
theorem test_special : Test.reg (exec (.mov { Test.full with d := 8, a := 0xF5 })
    { (Test.state {}).modG 2 (fun G => { G with core := 426 }) with issue := some { Test.issue false with core := 426 } }) 8 = some 0x1AA := by decide
/-- R79, worked case: 120 steps done and 9 rows of the next. -/
theorem test_mrow : ({ Test.loop 120 with steps := 200, rows := 9 } : MLoop).mrowWord = 0x7849 := rfl
theorem test_loop_step : Test.out (exec (.matrixLoopStep 2) (Test.matrix.modG 2 fun G => { G with loop := some { Test.loop 119 with steps := 200 } }))
    (fun t => (Test.group t).mrow.toNat) = some 0x7840 := by decide
/-- R307: a branch over 5 parcels, one whose guard does not hold, and a call, whose return address is the next instruction. -/
def Test.pcAfter (o : Host.Outcome State Fault Refusal) : Option Nat := (Test.out o (Test.lane 0 (·.pc.toNat))).join
theorem test_bra : Test.pcAfter (exec (.bra { Test.full with b := .imm 5 }) (Test.state {})) = some (2 ^ 48 + 20) ∧
    Test.pcAfter (exec (.bra { Test.full with g := 0, b := .imm 5 }) (Test.state {})) = some (2 ^ 48 + 8) := by decide
theorem test_call : Test.reg (exec (.call { Test.full with d := 8, b := .imm 0x80 }) (Test.state {})) 8 = some 8 ∧
    Test.pcAfter (exec (.call { Test.full with d := 8, b := .imm 5 }) (Test.state {})) = some (2 ^ 48 + 20) := by decide
/-- R316, worked case: the second arrival of two while a transfer is pending leaves the generation open; the last sector to land closes it. -/
def Test.worked (pend txin : Nat) : Bar := { Test.bar1 with gen := 0, pend := pend, exp := 2, txin := txin }
def Test.barAfter (o : Host.Outcome State Fault Refusal) : Option (Nat × Nat × Nat) := Test.out o fun t => ((t.bar 2 0x100).gen, (t.bar 2 0x100).pend, (t.bar 2 0x100).txin)
theorem test_barr : Test.barAfter (exec (.barr { Test.full with d := 8, a := 4 }) (Test.bar (Test.worked 1 64))) = some (0, 0, 64) ∧
    Test.reg (exec (.barr { Test.full with d := 8, a := 4 }) (Test.bar (Test.worked 2 0))) 8 = some 0 := by decide
theorem test_sector_land : Test.barAfter (exec (.engineSectorLand 9 0) { Test.bar (Test.worked 0 1) with
    jobs := [{ Test.engineJob (.copy (.pad 2 0) (.dev (mkAddr 1 0x400)) 32) [0] none with bind := .bar 2 0x100, owedIn := 1 }] }) = some (1, 2, 0) := by decide
/-- R231, worked case: the second slot is acquired; nothing can be read while slot 0 is not committed; slot 0 cannot be acquired again while it is held. -/
def Test.ring4 (tail head phase held : Nat) : State := Test.s1.setRing 2 0x100 { Test.ring1 with scount := 4, tail := tail, head := head, phase := phase, held := held }
def Test.ringAfter (o : Host.Outcome State Fault Refusal) : Option (Nat × Nat × Nat × Nat) :=
  Test.out o fun t => ((t.ring 2 0x100).tail, (t.ring 2 0x100).head, (t.ring 2 0x100).phase, (t.ring 2 0x100).held)
theorem test_acqs : Test.ringAfter (exec (.acqs { Test.full with d := 8, a := 4 }) (Test.ring4 1 0 0 1)) = some (2, 0, 0, 3) := by decide
theorem test_acqs_held : Test.pred (exec (.acqsTry { Test.full with d := 8, a := 4, pd := 1 }) (Test.ring4 4 2 0xF 1)) 1 = some false ∧
    Test.pred (exec (.acqsTry { Test.full with d := 8, a := 4, pd := 1 }) (Test.ring4 4 2 0xF 0)) 1 = some true := by decide
theorem test_coms : Test.ringAfter (exec (.coms { Test.full with a := 4, b := .imm 0 }) (Test.ring4 5 2 0xF 1)) = some (5, 2, 0xE, 0) := by decide
theorem test_peeks : Test.pred (exec (.peeksTry { Test.full with d := 8, a := 4, pd := 1 }) (Test.ring4 2 0 2 1)) 1 = some false := by decide
/-- R336: a signed byte load fills the register with the sign; an atomic addition returns what it found. -/
theorem test_load : Test.reg (exec (.loadDataReturn 9) (Test.put (Test.pend (.load .b1 .s8 8 (mkAddr 1 0x400) none) [(0, 1)]) 0x400 1 0x80)) 8 = some 0xFFFFFF80 := by decide
theorem test_store : Test.out (exec (.storePlaced 9 .fits) (Test.pend (.store (mkAddr 1 0x400) (leBytes 4 0x01020304) none) [(0, 4)]))
    (fun t => memBytes t.mem (Test.base + 0x400) 4) = some [4, 3, 2, 1] := by decide
theorem test_atom : Test.out (exec (.storePlaced 9 .fits) (Test.put (Test.pend (.atom .add .n32 3 0 (some 8) 1 (mkAddr 1 0x400) 6) [(0, 4)]) 0x400 4 0xFFFFFFFF))
    (fun t => ((t.thread? 2 0).map (·.v 8), memBytes t.mem (Test.base + 0x400) 4)) = some (some 0xFFFFFFFF, [2, 0, 0, 0]) := by decide
/-- R126, worked case: `ldp` at depth 3 of the block packed above. -/
def Test.packed : State :=
  let p : Pde := { Test.pde0 with d := 3 }
  let s := Test.pend (.ldp 0 0 3 8) [(0, 4)]
  let s := [(0x700, 0x1037F), (offOf (p.plane 0 0), 2), (offOf (p.plane 0 1), 1), (offOf (p.plane 0 3), 2)].foldl (fun s (e : Nat × Nat) => Test.put s e.1 4 e.2) s
  let u := Test.put s 0x600 32 (2 ^ 48 + 0x700 + 2 ^ 64 * (2 ^ 48 + 0x800) + 2 ^ 128 * 32 + 2 ^ 192 * 2 + 2 ^ 224 * (24 + 64))
  { u with ctxs := u.ctxs.map fun (e : Nat × Ctx) => (e.1, { e.2 with pdir := mkAddr 1 0x600, pdlen := 1 }) }
theorem test_ldp : Test.out (exec (.loadDataReturn 9) Test.packed) (fun t => (t.thread? 2 0).map fun T => (T.v 8, T.tag 8)) = some (some (0x40000000, 0x1A37F)) := by decide
/-- Worked cases of R457 and R453: a reserved bit set; a broken pair; `bplw` with w 30, and with w 2 of a misaligned address. -/
noncomputable def Test.undecoded (words : List Nat) : Option (Nat × Addr × Addr) := (Test.out (Sys2Proof.Machine.step (State.reset.withCode (words.flatMap (leBytes 4)) |>.modG 2 fun G =>
  { G with handler := mkAddr 1 0x800 })) (Test.lane 0 fun T => (T.tcause.toNat, T.tpc, T.taddr))).join
theorem test_illegal : Test.undecoded [0x81009802, 0x83808001] = some (0x00030001, mkAddr 1 0, 0) ∧ Test.undecoded [0x00905709, 0x00D06760] = some (0x000A0001, mkAddr 1 0, 0) := by decide
theorem test_bplw : let o (w : Nat) : Option (Nat × Addr × Addr) := (Test.out (exec (.bplw { Test.full with a := 8, b := .num 9 }) (Test.state { regs := [(8, 0x108), (9, w)] }))
      (Test.lane 0 fun T => (T.tcause.toNat, T.taddr, T.pc))).join
    o 30 = some (0x00020003, 0, mkAddr 1 0x800) ∧ o 2 = some (0x00040004, 0x108, mkAddr 1 0x800) := by decide
theorem test_trap : Test.trap (exec (.trap { Test.full with b := .imm 5 }) (Test.state {})) = some (0x00050008, mkAddr 1 8, mkAddr 1 0x800) := by decide
theorem test_rte : Test.pcAfter (exec (.rte Test.full) Test.handling) = some (2 ^ 48 + 0x80) := by decide
/-- R373, worked cases: row 2 and column 5 of the pattern. -/
def Test.full32 : State := { Test.pattern.modG 2 fun G => { G with threads := (List.range 32).map fun k => (k, Test.thread {} k []) } with
  issue := some { Test.issue false with refs := (List.range 32).map fun k => (2, k) } }
def Test.entries (i : Instr) : Option (List (Nat × Nat)) := Test.out (exec i Test.full32) fun t => (t.accesses.filterMap fun a => match a.kind with
  | .deliver _ x _ _ => some (x % 2 ^ 32, x / 2 ^ 32)
  | _ => none).take 5
theorem test_twrow : Test.entries (.twrow { Test.full with d := 4, b := .imm 2, mod := 3, pd := 2 }) =
    some [(2, 8), (3, 9), (6, 10), (7, 11), (2 ^ 32 - 1, 2 ^ 32 - 1)] := by decide
theorem test_twcol : Test.entries (.twcol { Test.full with d := 4, b := .imm 5, mod := 3, pd := 2 }) =
    some [(0, 3), (1, 7), (4, 17), (5, 19), (2 ^ 32 - 1, 2 ^ 32 - 1)] := by decide
theorem test_deliver : Test.reg (exec (.loadDataReturn 9) { Test.pend (.deliver 8 (2 + 2 ^ 32 * 8) 2 true) [(0, 1)] with issue := none }) 9 = some 8 := by decide
/-- R377 and R165, worked case: row 0 of HD 2, X 1 and E 127 with planes 1 and 2 set in element 0, row 31 of HD 4, X 0 and E 126 with planes 1 and 3,
times 1.0 in `f8p4`: R165's bound holds of 1.5 and of 0.65625, and of nothing far from them. -/
def Test.planarTile : Tile :=
  { fmt := 16, valid := true, data := [(4, 1), (8, 1), (31 * 128 + 4, 1), (31 * 128 + 12, 1)], rowTags := (List.range 31).map (fun i => (i, (0xE27F : Word))) ++ [(31, 0xC47E)] }
def Test.oneTile : Tile := { fmt := 14, valid := true, b8p := 4, b8inf := true, data := [(0, 0x40)] }
def Test.sum (i : Nat) : Sum := ({} : Sum).dot (Test.planarTile.elems i 0 32).1 (Test.oneTile.elems 0 0 32).1
theorem test_mma : (Test.sum 0).allows 0x3FC00000 = true ∧ (Test.sum 31).allows 0x3F280000 = true ∧ (Test.sum 0).allows 0x3FC00080 = false ∧
    (Test.sum 31).allows 0x3F200000 = false := by decide
/-- R108, worked case: FADEUPD of 1.5 with a gradient of 0.5, `SA` 2⁻⁴ and `SB` 2⁻³. -/
theorem test_fade : nmcElem 4 0x3D800000 0x3E000000 0x3FC00000 0 0x3F000000 = 0x3FBA8000 := by decide
/-- R441: a watchdog trap and a PREEMPT fall due in one cycle: the PREEMPT is delivered, from where the thread stood. -/
theorem test_preempt_before_watchdog : (let s := Test.s1.modG 2 fun G => { G with lr := { G.lr with flags := 4 } }
    let t := (s.deliverTo 2 [0] { cause := 0x21, cls := 2 }).preemptGroup 2 10
    (Test.lane 0 (fun T => (T.tcause.toNat, decide (T.tpc = ((s.thread? 2 0).getD {}).pc), T.hmode)) t, (Test.group t).open_.length)) =
    (some (0x8020, true, .preempt), 1) := by decide
/-- R436, worked case: the core's event takes the last place of the ring; the event after it is lost. -/
def Test.fullLog (head : Nat) : State := { Test.logged Test.s1 with edge := { (Test.logged Test.s1).edge with elhead := head, eltail := 37, seq := 140, ecnt := [(3, 11)] } }
def Test.logAfter (s : State) (i : Instr) : Option (Nat × Nat × Nat × Bool × Nat) := Test.out (exec i s) fun t => (t.edge.elhead, t.edge.seq, t.edge.lost, t.edge.ovf, Map.getD t.edge.ecnt 0 3)
theorem test_log : Test.logAfter (Test.fullLog 100) (.scrubberFinding (.l1 426 0) true) = some (101, 141, 0, false, 12) ∧
    Test.logAfter (Test.fullLog 101) (.scrubberFinding (.llcClean 9) true) = some (101, 141, 1, true, 12) := by decide
/-- R194: serial numbers wrap. -/
theorem test_later : later 0 (2 ^ 32 - 1) = true ∧ later (2 ^ 31) 0 = false := by decide
end

section
/-! SUPPORT. O53's PREEMPT clause lets no thread of the context wait for an image, but a watchdog delivery of the same cycle keeps its
threads as they stood before it, and a PREEMPT puts them back (R441): their image waits are then abandoned (R77), and with them the
accesses of that issue, whose owners the clause leaves free to be threads of another context. -/

namespace Sys2Proof.Machine

/-- The context that is pre-empted. -/
def StrayImage.context : Ctx :=
  { desc := 0, btab := 0, btlen := 1, svc := 0, podctx := 0, sched := 10 * 2 ^ 24, lquota := 0, evs := 0, pdir := 0, pdlen := 0, hspa := 0, hspn := 0,
    tqsa := 0, tqsn := 0, spbase := 0, spsize := 0, svbase := 0, svsize := 0, lsn := 1 }
/-- A group of one thread. -/
def StrayImage.group (ctx : Nat) (T : Thread) : Group :=
  { ctx := ctx, item := 0, gidx := 0, grank := 0, gang := ctx, core := ctx, role := .general, lr := { flags := 4, handler := 0x800 }, lsn := 1,
    threads := [(0, T)] }
/-- The image that issue 9 reads: thread 0 of group 3 owns it. -/
def StrayImage.access : Access :=
  { id := 9, order := 9, grp := 3, tid := 0, lane := 0, kind := .image 0 none [(3, 0)], parts := [(0, 64)] }
/-- A privileged queue with one entry that is not taken. -/
def StrayImage.queue : HostQueue :=
  { desc := 0x8000, ring := 0x9000, taila := 0x8100, heada := 0x8200, nent := 16, hwq := 5, priv := true, ctx := 0, state := 1, tail := 1 }
/-- Group 2 of context 0, its thread waiting for issue 9's image; group 3 of context 1, its thread counting one load. -/
def StrayImage.before : State :=
  { State.reset with
    ctxs := [(0, StrayImage.context)], queues := [(0, StrayImage.queue)], accesses := [StrayImage.access],
    groups := [(2, StrayImage.group 0 { wait := .on (.image 9) 0 0 }), (3, StrayImage.group 1 { ld := 1 })],
    mem := memWrite [] 0x9000 [10] }
/-- The watchdog trap of group 2's thread has just entered; PREEMPT of context 0 is at the head of queue 0. -/
def StrayImage.state : State := StrayImage.before.deliverTo 2 [0] { cause := 0x21, cls := 2 }
def StrayImage.entry : Entry := { cmd := 10, cfl := 0, a0 := 0, a1 := 0, a2 := 0, stata := 0, bad := false }

theorem StrayImage.offers : Offers StrayImage.state 0 StrayImage.queue StrayImage.entry 10 := ⟨by decide, by decide, by decide, by decide⟩
theorem StrayImage.distinct : Distinct StrayImage.state.groups := by unfold Distinct; decide
/-- The trap has taken the thread out of its wait. -/
theorem StrayImage.ready : ∀ x ∈ StrayImage.state.groups, ∀ y ∈ x.2.threads, y.2.wait = .ready := by decide
theorem StrayImage.preempt_next : Sys2Proof.Machine.exec (.preempt 0) StrayImage.state = .next (StrayImage.state.preemptCmd 0) :=
  finish_of_present (StrayImage.state.preemptCmd 0) (by decide)
/-- The other context's thread counts one load before the command, and none after it. -/
theorem StrayImage.load_before : (StrayImage.state.thread? 3 0).map (·.still.ld) = some 1 := by decide
theorem StrayImage.load_after : ((StrayImage.state.preemptCmd 0).thread? 3 0).map (·.still.ld) = some 0 := by decide

/-- Refutes O53: where a watchdog trap entered in the cycle of the PREEMPT, the thread it took waits for its image again, and abandoning that
wait lowers LD of a thread of another context, which the PREEMPT clause says stands. -/
theorem not_contextAndQueueCommands : ¬ Obligations.ContextAndQueueCommands := by
  unfold Obligations.ContextAndQueueCommands
  intro h
  obtain ⟨_, _, _, _, _, _, _, _, _, _, _, _, hpreempt, _⟩ := h StrayImage.state 0 StrayImage.queue StrayImage.entry
  obtain ⟨t, hexec, _, _, hstands, _⟩ := hpreempt StrayImage.context StrayImage.offers (by decide) (by decide) (by decide) StrayImage.distinct
    fun x hx _ y hy o i j hwait => by rw [StrayImage.ready x hx y hy] at hwait; cases hwait
  rw [StrayImage.preempt_next] at hexec
  cases hexec
  have hld := congrArg (Option.map Thread.ld) (hstands 3 (StrayImage.group 1 { ld := 1 }) 0 (by decide) (.inl (by decide)))
  rw [Option.map_map, Option.map_map] at hld
  exact absurd (StrayImage.load_after.symm.trans (hld.trans StrayImage.load_before)) (by decide)

end Sys2Proof.Machine
end

section
/-! SUPPORT. Group selections, waits and fences that are over: O9 and O17. -/

namespace Sys2Proof.Map

theorem get?_map {α β : Type} (m : Sparse α) (F : Nat × α → Nat × β) (hF : ∀ e, (F e).1 = e.1) (k : Nat) :
    get? (m.map F) k = (get? m k).map fun v => (F (k, v)).2 := by
  induction m with
  | nil => rfl
  | cons e m ih =>
    have h1 : get? ((e :: m).map F) k = if k = e.1 then some (F e).2 else get? (m.map F) k := by rw [← hF e]; rfl
    have h2 : get? (e :: m) k = if k = e.1 then some e.2 else get? m k := rfl
    rw [h1, h2, ih]
    split
    · subst_vars; rfl
    · rfl

end Sys2Proof.Map

namespace Sys2Proof.Machine

/-! ## Selections of the lowest lane (R45, R169) -/

theorem modLeads_absent (f : Ref → Group → Group) (s : State) (rs : List Ref) : (s.modLeads rs f).absent = s.absent := by
  unfold State.modLeads
  generalize leads rs = l
  induction l generalizing s with
  | nil => rfl
  | cons r l ih => exact ih _
theorem onLowest_absent (s : State) (rs : List Ref) (act : Ref → State) (h : ∀ r, (act r).absent = s.absent) :
    (onLowest s rs act).absent = s.absent := by
  unfold onLowest; split
  · exact h _
  · rfl
/-- `part` with a width that is allowed in every thread: the lowest lane's is set. -/
theorem actPart_allowed (f : Full) (s : State) (rs : List Ref) (h : ∀ r ∈ rs, s.b32 r f.b ∈ [2, 4, 8, 16, 32]) :
    actPart f s rs = (onLowest s rs fun r => s.modG r.g fun G => { G with partNext := some (s.b32 r f.b) }, rs.map fun r => (r, .done {})) := by
  cases rs with
  | nil => rfl
  | cons lo rs =>
    have hall : ((lo :: rs).all fun r => [2, 4, 8, 16, 32].contains (s.b32 r f.b)) = true := by
      rw [List.all_eq_true]; exact fun r hr => List.contains_iff_mem.2 (h r hr)
    simp only [actPart, List.head?_cons, hall, if_true, onLowest]
/-- `actsel` with a bank that exists in every thread. -/
theorem actActsel_allowed (f : Full) (s : State) (rs : List Ref) (h : ∀ r ∈ rs, s.b32 r f.b ≤ 1) :
    actActsel f s rs = (s.modLeads rs fun r G => { G with bankNext := some (s.b32 r f.b) }, rs.map fun r => (r, .done {})) := by
  have hok : (rs.filter fun r => decide (s.b32 r f.b ≤ 1)) = rs := List.filter_eq_self.2 fun r hr => by simpa using h r hr
  have hout : (rs.map fun r => (r, if s.b32 r f.b ≤ 1 then TOut.done {} else .trap { cause := 0x03, arg := 2 })) =
      rs.map fun r => (r, TOut.done {}) := List.map_congr_left fun r hr => by rw [if_pos (h r hr)]
  simp only [actActsel, hok, hout]
/-- A group as cycles pass. -/
theorem State.elapse_group? (s : State) (dt g : Nat) (G : Group) (h : dt ≠ 0) (hG : s.group? g = some G) :
    ∃ counts, (s.elapse dt).group? g = some (G.pass (s.clock + dt) dt counts) := by
  unfold State.elapse State.group? at *
  rw [if_neg h]
  apply Exists.intro
  dsimp only [State.pass_groups]
  rw [Map.get?_map, hG]
  · rfl
  · exact fun _ => rfl

/-- Settles O9: `part` and `actsel` set what holds next, and `Group.pass` makes it hold. -/
theorem groupSelections : Obligations.GroupSelections := by
  unfold Obligations.GroupSelections
  refine ⟨fun f => ?_, fun f => ?_, fun s dt g G hdt hG => ?_⟩
  · exact allDo_of (fn := actPart f) rfl (by decide) (fun s rs h => actPart_allowed f s rs h)
      fun s rs _ hs => (onLowest_absent s rs (fun r => s.modG r.g _) fun _ => rfl).trans hs
  · exact allDo_of (fn := actActsel f) rfl (by decide) (fun s rs h => actActsel_allowed f s rs h)
      fun s rs _ hs => (modLeads_absent _ s rs).trans hs
  · obtain ⟨counts, h⟩ := s.elapse_group? dt g G (by omega) hG
    exact ⟨_, h, rfl, rfl⟩

/-! ## Waits that are over (R56, R99, R181, R313) -/

theorem faultPoint_free (act : State → Ref → State × TOut) (s : State) (r : Ref) (h : r.T.held = []) : faultPoint act s r = act s r := by
  simp [faultPoint, h]
theorem waitUntil_over (r : Ref) (holds : Bool) (c : Cond) (res : TRes) (h : r.T.wait = .passed ∨ holds = true) :
    waitUntil r holds c res = .done res := if_pos h
/-- An instruction at which a thread waits, where the wait is over and no fault is held: it goes on, and changes nothing. -/
theorem waitDo_of {i : Instr} {op : Nat} {f : Full} {act : State → Ref → State × TOut} {ok : State → Ref → Prop} {res : State → Ref → TRes}
    (hexec : Sys2Proof.Machine.exec i = issueTurn op f (faultPoint act)) (hop : op ≠ 0x0A6) (hheld : ∀ s r, ok s r → r.T.held = [])
    (hact : ∀ s r, ok s r → act s r = (s, .done (res s r))) : TurnDo i op f ok (fun s _ => s) res :=
  turnDo_of hexec hop (fun s r h => (faultPoint_free act s r (hheld s r h)).trans (hact s r h)) fun _ _ _ hs => hs

theorem actWaitc_over (f : Full) (s : State) (r : Ref)
    (h : r.T.wait = .passed ∨ r.T.ld ≤ f.d.toNat ∧ r.T.st ≤ f.a.toNat ∧ r.T.cp ≤ numB f ∧ r.T.tl ≤ f.c.toNat) :
    actWaitc f s r = (s, .done {}) := by
  unfold actWaitc
  exact congrArg (Prod.mk s) (waitUntil_over r _ _ _ (h.imp_right fun h => by simpa [Thread.within] using h))
theorem actWtany_over (f : Full) (s : State) (r : Ref) (h : r.T.wait = .passed ∨ r.G.maskTags (s.bInt r f.ty f.b) = [] ∨
    ∃ n ∈ r.G.maskTags (s.bInt r f.ty f.b), r.G.tagBit n = true) : actWtany f s r = (s, .done {}) := by
  unfold actWtany
  exact congrArg (Prod.mk s) (waitUntil_over r _ _ _ (h.imp_right fun h => by simpa [Group.anyTag] using h))
theorem actWtall_over (f : Full) (s : State) (r : Ref) (h : r.T.wait = .passed ∨
    ∀ n ∈ r.G.maskTags (s.bInt r f.ty f.b), r.G.tagBit n = true) : actWtall f s r = (s, .done {}) := by
  unfold actWtall
  exact congrArg (Prod.mk s) (waitUntil_over r _ _ _ (h.imp_right fun h => by simpa [Group.allTags] using h))
theorem actFence_over (f : Full) (s : State) (r : Ref) (h : r.T.wait = .passed ∨ s.fenceOver r.g r.t f.mod.toNat = true)
    (hup : ¬ (f.mod.toNat = 8 ∧ s.edge.wymDown = true)) : actFence f s r = (s, .done {}) := by
  unfold actFence
  simp only [if_neg hup]
  exact congrArg (Prod.mk s) (waitUntil_over r _ _ _ h)
theorem actYield_eq (f : Full) (s : State) (r : Ref) : actYield f s r = (s.modCore r.G.core fun c =>
    let e := (r.G.item, addOff r.T.pc s.len)
    { c with yielded := if e ∈ c.yielded then c.yielded else e :: c.yielded }, .done {}) := by
  simp only [actYield, State.nextPc, List.contains_iff_mem]

/-- Settles O17: each form is `issueEach` or `issueTurn` of a plan that is done. -/
theorem yieldNopAndWaitResults : Obligations.YieldNopAndWaitResults := by
  unfold Obligations.YieldNopAndWaitResults
  have nop (i : Instr) (f : Full) (h : Sys2Proof.Machine.exec i = issueEach 0x0A9 f (planNop f)) : EachGives i 0x0A9 f fun _ _ => {} :=
    eachGives_of h (by decide) (fun _ _ => rfl) fun _ _ _ => rfl
  refine ⟨⟨fun f => nop _ f rfl, fun c => nop _ _ rfl⟩, ⟨fun f => ?_, fun c => ?_⟩, fun f => ?_, ⟨fun f => ?_, fun c => ?_⟩,
    ⟨fun f => ?_, fun c => ?_⟩, fun f => ?_, fun f => ?_, fun c => ?_⟩
  · exact turnDo_of (act := actYield f) rfl (by decide) (fun s r _ => actYield_eq f s r) fun _ _ _ hs => hs
  · exact turnDo_of (act := actYield (cfull 40 c).2) rfl (by decide) (fun s r _ => actYield_eq _ s r) fun _ _ _ hs => hs
  · exact waitDo_of (act := actWaitc f) rfl (by decide) (fun _ _ h => h.1) fun s r h => actWaitc_over f s r h.2
  · exact waitDo_of (act := actWtany f) rfl (by decide) (fun _ _ h => h.1) fun s r h => actWtany_over f s r h.2
  · exact waitDo_of (act := actWtany (cfull 44 c).2) rfl (by decide) (fun _ _ h => h.1) fun s r h => actWtany_over _ s r h.2
  · exact waitDo_of (act := actWtall f) rfl (by decide) (fun _ _ h => h.1) fun s r h => actWtall_over f s r h.2
  · exact waitDo_of (act := actWtall (cfull 45 c).2) rfl (by decide) (fun _ _ h => h.1) fun s r h => actWtall_over _ s r h.2
  · refine waitDo_of (act := actFfrdy f) rfl (by decide) (fun _ _ h => h) fun s r _ => ?_
    unfold actFfrdy
    cases (r.G.maskTags (s.bInt r f.ty f.b)).find? r.G.tagBit <;> rfl
  · exact waitDo_of (act := actFence f) rfl (by decide) (fun _ _ h => h.1.1) fun s r h => actFence_over f s r h.1.2 h.2
  · exact waitDo_of (act := actFence (cfull 43 c).2) rfl (by decide) (fun _ _ h => h.1.1) fun s r h => actFence_over _ s r h.1.2 h.2

end Sys2Proof.Machine
end

section
/-! SUPPORT. Waits of a warp (R46, R52): who waits, who is released, and the join that waits for nobody: O16. -/

namespace Sys2Proof.Machine

theorem planWsync_eq (f : Full) (s : State) (is : Issue) (r : Ref) (h : s.issue = some is) :
    planWsync f s r = .wait (.wsync (addOff r.T.pc is.len)) := by simp only [planWsync, h]
/-- Every thread of an issue group at `wsync` begins to wait. -/
theorem wsync_halts {i : Instr} {f : Full} (hexec : Sys2Proof.Machine.exec i = issueEach 0x081 f (planWsync f)) (s : State) (is : Issue)
    (rs : List Ref) (hi : Issued s is rs) (ha : Admits 0x081 f rs) (hg : executing f rs = rs) :
    ∃ t, Sys2Proof.Machine.exec i s = .next t ∧ Halts (stir (clockVol 0x081 f) s rs) t rs fun r => .wsync (addOff r.T.pc is.len) := by
  rw [hexec]
  exact issueAll_halts 0x081 f _ s is rs s _ (by decide) hi ha hg hi.present
    (congrArg (Prod.mk s) (List.map_congr_left fun r _ => by rw [planWsync_eq f s is r hi.issue]))

/-! ## Changes of several threads of one group -/

/-- Threads of one group, each changed by one function of its own state: what each reads as afterwards. -/
theorem foldl_modT_thread (f : State → Thread → Thread) (hf : ∀ (s t : State) T, s.clock = t.clock → f s T = f t T) (g : Nat) (ks : List Nat) (k : Nat) :
    ∀ s : State, ks.Nodup → (ks.foldl (fun (s : State) k => s.modT g k (f s)) s).thread? g k =
      if k ∈ ks then (s.thread? g k).map (f s) else s.thread? g k := by
  induction ks with
  | nil => intro s _; simp
  | cons a ks ih =>
    intro s hn
    rw [List.nodup_cons] at hn
    rw [List.foldl_cons, ih _ hn.2, State.thread?_modT]
    have hc : f (s.modT g a (f s)) = f s := funext fun T => hf _ _ T rfl
    rw [hc]
    by_cases hk : k = a
    · subst hk; simp [hn.1]
    · simp [hk]
theorem keys_nodup_filter {α : Type} (p : Nat × α → Bool) (m : Sparse α) (h : (m.map (·.1)).Nodup) : ((m.filter p).map (·.1)).Nodup :=
  h.sublist (List.filter_sublist.map _)
theorem warpLive_nodup (G : Group) (w : Nat) (h : (G.threads.map (·.1)).Nodup) : ((G.warpLive w).map (·.1)).Nodup :=
  keys_nodup_filter _ _ (keys_nodup_filter _ _ h)
theorem warpLive_sub (G : Group) (w : Nat) : (G.warpLive w).Sublist G.threads := List.filter_sublist.trans List.filter_sublist
theorem thread?_of_mem {s : State} {g : Nat} {G : Group} (hG : s.group? g = some G) (hd : (G.threads.map (·.1)).Nodup) (e : Nat × Thread)
    (he : e ∈ G.threads) : s.thread? g e.1 = some e.2 := by
  unfold State.thread?; rw [hG]
  exact mem_get?_of_distinct G.threads e.1 e.2 hd he

/-- What the release of a `wsync` makes of a thread (R46). -/
def Thread.leaveSync (n now : Nat) (T : Thread) : Thread :=
  match T.wait with | .on (.wsync next) _ _ => { T.goTo next now with synced := some n } | _ => T
/-- What the release of a `join` makes of a thread (R52). -/
def Thread.leaveJoin (n now : Nat) (T : Thread) : Thread :=
  match T.wait with | .on (.join _ target) _ _ => { T.goTo target now with joined := some n } | _ => T
/-- The live threads of a warp, all at one `wsync`, go on. -/
theorem releaseSync_eq (s : State) (g w : Nat) (G : Group) (pc : Addr) (hG : s.group? g = some G) (hne : G.warpLive w ≠ [])
    (hall : ∀ e ∈ G.warpLive w, e.2.pc = pc ∧ ∃ next since n, e.2.wait = .on (.wsync next) since n) :
    s.releaseSync g w = ((G.warpLive w).map (·.1)).foldl (fun (s' : State) k => s'.modT g k (Thread.leaveSync s.next s'.clock)) s.fresh.2 := by
  unfold State.releaseSync
  simp only [hG]
  cases hl : G.warpLive w with
  | nil => exact absurd hl hne
  | cons e0 l =>
    rw [hl] at hall
    have hgo : ((e0 :: l).all fun e => decide (e.2.pc = e0.2.pc) && (match e.2.wait with | .on (.wsync _) _ _ => true | _ => false)) = true := by
      rw [List.all_eq_true]
      intro e he
      obtain ⟨hpc, next, since, n, hw⟩ := hall e he
      simp [hw, hpc, (hall e0 (by simp)).1]
    rw [List.foldl_map]
    exact if_pos hgo
/-- The lanes a mask names but for one of them. -/
theorem maskOthers_getLsbD (m : Word) (lane j : Nat) (hj : j < 32) :
    (m &&& ~~~(BitVec.ofNat 32 (2 ^ lane))).getLsbD j = (m.getLsbD j && decide (lane ≠ j)) := by
  rw [BitVec.getLsbD_and, BitVec.getLsbD_not, BitVec.getLsbD_ofNat, Nat.testBit_two_pow]
  simp [hj]
theorem maskOthers_zero (m : Word) (lane : Nat) (h : ∀ j < 32, m.getLsbD j = true → j = lane) :
    m &&& ~~~(BitVec.ofNat 32 (2 ^ lane)) = 0 := by
  apply BitVec.eq_of_getLsbD_eq
  intro j hj
  rw [maskOthers_getLsbD m lane j hj, BitVec.ofNat_eq_ofNat, BitVec.getLsbD_zero]
  by_cases hm : m.getLsbD j = true
  · simp [h j hj hm]
  · simp [hm]
theorem maskOthers_ne_zero (m : Word) (lane j : Nat) (hj : j < 32) (hne : j ≠ lane) (h : m.getLsbD j = true) :
    m &&& ~~~(BitVec.ofNat 32 (2 ^ lane)) ≠ 0 := by
  intro h0
  have hbit := maskOthers_getLsbD m lane j hj
  rw [h0, h, BitVec.ofNat_eq_ofNat, BitVec.getLsbD_zero] at hbit
  simp [Ne.symm hne] at hbit
/-- A thread whose lanes named all wait for its target goes on. -/
theorem releaseJoin_thread (s : State) (g w : Nat) (G : Group) (hG : s.group? g = some G) (hd : (G.threads.map (·.1)).Nodup)
    (e : Nat × Thread) (he : e ∈ G.warpLive w) (m : Word) (a : Addr) (since n : Nat) (hw : e.2.wait = .on (.join m a) since n)
    (hall : ∀ x ∈ G.warpLive w, x.2.lane < 32 → x.2.lane ≠ e.2.lane → m.getLsbD x.2.lane = true →
      ∃ m' since' n', x.2.wait = .on (.join m' a) since' n') :
    (s.releaseJoin g w).thread? g e.1 = some (Thread.leaveJoin s.next s.clock e.2) := by
  let l := G.warpLive w
  let at_ (lane : Nat) (target : Addr) : Bool :=
    l.all fun e => e.2.lane != lane || (match e.2.wait with | .on (.join _ x) _ _ => decide (x = target) | _ => false)
  let goes (e : Nat × Thread) : Bool := match e.2.wait with
    | .on (.join mask target) _ _ => (List.range 32).all fun j => j == e.2.lane || !mask.getLsbD j || at_ j target
    | _ => false
  have hgoes : goes e = true := by
    simp only [goes, hw, List.all_eq_true, List.mem_range, Bool.or_eq_true, beq_iff_eq, Bool.not_eq_true', at_]
    intro j hj
    by_cases h1 : j = e.2.lane
    · exact .inl (.inl h1)
    · by_cases h2 : m.getLsbD j = true
      · refine .inr fun x hx => ?_
        by_cases h3 : x.2.lane = j
        · subst h3
          obtain ⟨m', s', n', hx'⟩ := hall x hx hj h1 h2
          simp [hx']
        · simp [h3]
      · exact .inl (.inr (by simpa using h2))
  have hfree : e ∈ l.filter goes := List.mem_filter.2 ⟨he, hgoes⟩
  have heq : s.releaseJoin g w = ((l.filter goes).map (·.1)).foldl
      (fun (s' : State) k => s'.modT g k (Thread.leaveJoin s.next s'.clock)) s.fresh.2 := by
    unfold State.releaseJoin
    simp only [hG]
    rw [if_neg fun h0 => by change l.filter goes = [] at h0; rw [h0] at hfree; cases hfree]
    rw [List.foldl_map]
    rfl
  rw [heq, foldl_modT_thread (fun s' => Thread.leaveJoin s.next s'.clock) (fun _ _ _ h => by rw [h]) g _ _ _
    (keys_nodup_filter _ _ (warpLive_nodup G w hd)), if_pos (List.mem_map_of_mem hfree)]
  have hth := thread?_of_mem hG hd e ((warpLive_sub G w).subset he)
  exact congrArg (Option.map _) hth

/-- Settles O16: a `wsync` halts its threads and `releaseSync` frees the warp; a `join` is a branch, or halts, and `releaseJoin` frees it. -/
theorem warpSyncAndJoinResults : Obligations.WarpSyncAndJoinResults := by
  unfold Obligations.WarpSyncAndJoinResults
  refine ⟨⟨⟨fun f => wsync_halts rfl, fun c => wsync_halts rfl⟩, ?_⟩, fun f => ⟨?_, ?_, ?_⟩⟩
  · intro s g w G pc hG hd hne hall e he next since n hw
    rw [releaseSync_eq s g w G pc hG hne hall, foldl_modT_thread (fun s' => Thread.leaveSync s.next s'.clock) (fun _ _ _ h => by rw [h]) g _ _ _
      (warpLive_nodup G w hd), if_pos (List.mem_map_of_mem he)]
    have hth : s.fresh.2.thread? g e.1 = some e.2 := thread?_of_mem hG hd e ((warpLive_sub G w).subset he)
    rw [hth]
    simp only [Option.map_some, Thread.leaveSync, hw]
    rfl
  · refine turnDo_of (act := actJoin f) rfl (by decide) (fun s r h => ?_) fun _ _ _ hs => hs
    simp only [actJoin, maskOthers_zero _ _ h, if_true]
    rfl
  · intro s is r hi ha hg ⟨j, hj, hne, hm⟩
    have hact : actJoin f s r = (s, .wait (.join (BitVec.ofNat 32 (s.op32 r f.a.toNat)) (addOff r.T.pc (4 * dispOf f.b)))) := by
      simp only [actJoin, if_neg (maskOthers_ne_zero _ _ j hj hne hm)]
      rfl
    have hexec : Sys2Proof.Machine.exec (.join f) = issueTurn 0x0A7 f (actJoin f) := rfl
    rw [hexec]
    exact issueAll_halts 0x0A7 f _ s is [r] s _ (by decide) hi ha hg hi.present (by
      simp only [List.foldl_cons, List.foldl_nil, hact, List.nil_append, List.map_cons, List.map_nil])
  · intro s g w G hG hd e he m a since n hw hall
    rw [releaseJoin_thread s g w G hG hd e he m a since n hw hall]
    simp only [Option.map_some, Thread.leaveJoin, hw]
    rfl

end Sys2Proof.Machine
end

section
/-! SUPPORT. The split branch (R47, R309): the threads that go on, and those it ends into spawn records: O15. -/

namespace Sys2Proof.Machine

/-! ## Threads that begin to wait, each for its own -/

/-- A state that differs from s in its groups and its next number only. -/
def SameButGroups (s t : State) : Prop := ({ t with groups := s.groups, next := s.next } : State) = s
theorem SameButGroups.refl (s : State) : SameButGroups s s := rfl
theorem SameButGroups.trans {s t u : State} (h : SameButGroups s t) (k : SameButGroups t u) : SameButGroups s u :=
  (congrArg (fun (x : State) => ({ x with groups := s.groups, next := s.next } : State)) k).trans h
theorem SameButGroups.clock {s t : State} (h : SameButGroups s t) : t.clock = s.clock := by have := congrArg State.clock (id h : _ = s); exact this
theorem SameButGroups.absent {s t : State} (h : SameButGroups s t) : t.absent = s.absent := by have := congrArg State.absent (id h : _ = s); exact this

/-- A thread of the issue group begins to wait, its operands being read. -/
def State.haltAt (vol : Nat) (s : State) (e : Ref × Cond) : State := (s.volAt e.1.g vol).waitOn e.1.g e.1.t e.2
theorem haltAt_same (vol : Nat) (s : State) (e : Ref × Cond) : SameButGroups s (s.haltAt vol e) := by
  unfold State.haltAt State.volAt SameButGroups
  split <;> rfl
theorem haltAt_thread (vol : Nat) (s : State) (e : Ref × Cond) (g k : Nat) : (s.haltAt vol e).thread? g k =
    if g = e.1.g ∧ k = e.1.t then (s.thread? g k).map fun T => T.waitOn e.2 s.clock s.next else s.thread? g k := by
  have h : (s.haltAt vol e).thread? g k = _ := State.thread?_modT (s.volAt e.1.g vol) e.1.g e.1.t g k
    fun T => T.waitOn e.2 (s.volAt e.1.g vol).clock (s.volAt e.1.g vol).next
  rw [h]
  simp only [s.volAt_thread, s.volAt_clock, s.volAt_next]
  split
  · rename_i hk; rw [hk.1, hk.2]
  · rfl
theorem applyOut_halts (len order vol : Nat) (l : List (Ref × Cond)) (ts : List (Nat × Nat × Trap)) : ∀ s : State,
    (l.map fun e => (e.1, TOut.wait e.2)).foldl (applyOut len order vol) (s, ts) = (l.foldl (State.haltAt vol) s, ts) := by
  induction l with
  | nil => intro s; rfl
  | cons e l ih => intro s; exact ih _
theorem halts_same (vol : Nat) (l : List (Ref × Cond)) : ∀ s : State, SameButGroups s (l.foldl (State.haltAt vol) s) := by
  induction l with
  | nil => intro s; exact .refl s
  | cons e l ih => intro s; exact (haltAt_same vol s e).trans (ih _)
theorem halts_others (vol g k : Nat) (l : List (Ref × Cond)) : ∀ s : State, (∀ e ∈ l, ¬ (e.1.g = g ∧ e.1.t = k)) →
    (l.foldl (State.haltAt vol) s).thread? g k = s.thread? g k := by
  induction l with
  | nil => intro s _; rfl
  | cons e l ih =>
    intro s h
    rw [List.foldl_cons, ih _ fun x hx => h x (by simp [hx]), haltAt_thread, if_neg (by have := h e (by simp); tauto)]
theorem halts_thread (vol : Nat) (e : Ref × Cond) (l : List (Ref × Cond)) : ∀ s : State, (l.map fun e => (e.1.g, e.1.t)).Nodup → e ∈ l →
    ∃ n, (l.foldl (State.haltAt vol) s).thread? e.1.g e.1.t = (s.thread? e.1.g e.1.t).map fun T => T.waitOn e.2 s.clock n := by
  induction l with
  | nil => intro s _ h; cases h
  | cons a l ih =>
    intro s hn he
    rw [List.map_cons, List.nodup_cons] at hn
    have hne : ∀ x ∈ l, ¬ (x.1.g = a.1.g ∧ x.1.t = a.1.t) := fun x hx h => hn.1 (List.mem_map.2 ⟨x, hx, by rw [h.1, h.2]⟩)
    rw [List.foldl_cons]
    rcases List.mem_cons.1 he with rfl | hl
    · exact ⟨s.next, by rw [halts_others vol _ _ l _ hne, haltAt_thread, if_pos ⟨rfl, rfl⟩]⟩
    · obtain ⟨n, h⟩ := ih (s.haltAt vol a) hn.2 hl
      exact ⟨n, by rw [h, haltAt_thread, if_neg (hne e hl), (haltAt_same vol s a).clock]⟩

/-! ## The gates of a split branch -/

/-- Every thread of an admitted split branch takes part: its guard divides and does not stop (R309). -/
theorem gates_of_split (f : Full) (rs : List Ref) (h : Admits 0x0A6 f rs) : gates 0x0A6 f rs = rs.map fun r => (r, Gate.go) := by
  obtain ⟨sh, hsh, hr⟩ := h
  unfold gates
  cases rs with
  | nil => simp only [hsh]; split <;> rfl
  | cons r0 rs =>
    have hfirst : ((r0 :: rs).map fun r =>
        if ¬ r.G.role.permits sh.cls then (r, Gate.trap 4 { cause := 0x06, arg := r.G.role.code + 256 * sh.cls.code })
        else if 0x0A6 ≠ 0x0A6 ∧ ¬ r.T.guard f.g f.gn then (r, Gate.skip)
        else (r, Gate.go)) = (r0 :: rs).map fun r => (r, Gate.go) :=
      List.map_congr_left fun r hmem => by simp [(hr r hmem).2.1]
    have hp : ∀ r ∈ r0 :: rs, poisoned sh 0x0A6 f r.T = none := fun r hmem => poisoned_of_nil _ _ _ _ (hr r hmem).2.2
    simp only [hsh, List.head?_cons, (hr r0 (by simp)).1]
    rw [hfirst, List.map_map]
    refine List.map_congr_left fun r hmem => ?_
    simp [hp r0 (by simp), hp r hmem]
/-- The outcome of a split branch: what it leaves of the state and of the threads is entered. -/
theorem execSbra_eq (f : Full) (s : State) (is : Issue) (rs : List Ref) (hi : Issued s is rs) (ha : Admits 0x0A6 f rs) :
    Sys2Proof.Machine.exec (.sbra f) s = (let p := (actSbra f s rs).2.foldl (applyOut is.len s.next (clockVol 0x0A6 f)) ((actSbra f s rs).1, [])
      finish (p.1.deliver p.2)) := by
  have hg := gate_lists (fun _ => true) rs
  simp only [if_true, Bool.not_true, List.filter_false, List.map_nil, List.filter_true] at hg
  have hexec : Sys2Proof.Machine.exec (.sbra f) s = issueAll 0x0A6 f (actSbra f) s := rfl
  rw [hexec]
  unfold issueAll
  simp only [hi.issue, hi.refs, gates_of_split f rs ha, hg.1, hg.2.1, hg.2.2, List.foldl_nil]
  rfl

/-! ## The division -/

/-- Where a thread of a split branch goes: to the target where its guard holds, else on. -/
def splitWay (f : Full) (r : Ref) : TRes := if r.T.guard f.g f.gn then { pc := some (addOff r.T.pc (4 * dispOf f.b)) } else {}
theorem splitWay_room (f : Full) (r : Ref) (h : HasRoom r {}) : HasRoom r (splitWay f r) := by
  unfold splitWay; split <;> exact h
theorem splitWay_accs (f : Full) (r : Ref) : (splitWay f r).accs = [] := by unfold splitWay; split <;> rfl
theorem splitStay_eq (f : Full) (r : Ref) : (if r.T.guard f.g f.gn = true then goPc (relB r f.b) else TOut.done {}) = .done (splitWay f r) := by
  unfold splitWay; split <;> rfl
theorem actSbra_whole (f : Full) (s : State) (rs : List Ref)
    (h : (rs.filter fun r => r.T.guard f.g f.gn) = [] ∨ (rs.filter fun r => !r.T.guard f.g f.gn) = []) :
    actSbra f s rs = (s, rs.map fun r => (r, .done (splitWay f r))) := by
  simp only [actSbra, if_pos h, splitStay_eq]
theorem reserve_length (cap size n : Nat) : ∀ (k used : Nat) (area : List (Nat × Nat)) (l : List (Option Nat)),
    reserve cap size n k used area = some l → l.length = k := by
  intro k
  induction k with
  | zero => intro used area l h; cases h; rfl
  | succ k ih =>
    intro used area l h
    simp only [reserve] at h
    split at h
    · obtain ⟨l', h', rfl⟩ := Option.map_eq_some_iff.1 h
      rw [List.length_cons, ih _ _ _ h']
    · split at h
      · cases h
      · obtain ⟨l', h', rfl⟩ := Option.map_eq_some_iff.1 h
        rw [List.length_cons, ih _ _ _ h']

/-- The two parts of a division: the larger stays, the part that takes the branch on a tie (R47). -/
def splitStays (f : Full) (rs : List Ref) : Bool :=
  decide ((rs.filter fun r => !r.T.guard f.g f.gn).length ≤ (rs.filter fun r => r.T.guard f.g f.gn).length)
def splitGone (f : Full) (rs : List Ref) : List Ref :=
  if splitStays f rs then rs.filter fun r => !r.T.guard f.g f.gn else rs.filter fun r => r.T.guard f.g f.gn
def splitKept (f : Full) (rs : List Ref) : List Ref :=
  if splitStays f rs then rs.filter fun r => r.T.guard f.g f.gn else rs.filter fun r => !r.T.guard f.g f.gn
/-- What the threads that are ended wait for: the end of their accesses, to become records (R47, R50). -/
def splitEnds (f : Full) (s : State) (rs : List Ref) (places : List (Option Nat)) : List (Ref × Cond) :=
  ((splitGone f rs).zip places).map fun e =>
    (e.1, .ended (if splitStays f rs then s.nextPc e.1 else relB e.1 f.b) f.c.toNat e.2)
theorem splitGone_sub (f : Full) (rs : List Ref) : (splitGone f rs).Sublist rs := by
  unfold splitGone; split <;> exact List.filter_sublist
theorem splitKept_sub (f : Full) (rs : List Ref) : (splitKept f rs).Sublist rs := by
  unfold splitKept; split <;> exact List.filter_sublist
theorem mem_splitKept (f : Full) (rs : List Ref) (r : Ref) : r ∈ splitKept f rs ↔ r ∈ rs ∧ r ∉ splitGone f rs := by
  unfold splitKept splitGone
  split <;> simp only [List.mem_filter] <;> cases r.T.guard f.g f.gn <;> simp
theorem actSbra_split (f : Full) (s : State) (rs : List Ref) (places : List (Option Nat)) (lo : Ref)
    (hy : (rs.filter fun r => r.T.guard f.g f.gn) ≠ []) (hn : (rs.filter fun r => !r.T.guard f.g f.gn) ≠ []) (hlo : rs.head? = some lo)
    (hres : reserve (s.reserveCap lo.G.core) (match s.ctx? lo.G.ctx with | some c => if c.spbase = 0 then 0 else c.spsize | none => 0) f.c.toNat
      (splitGone f rs).length (s.reserveUse lo.G.core) (s.areaUse lo.G.ctx) = some places) :
    actSbra f s rs = ((splitGone f rs).foldl (fun s r => s.noteEnd r.g r.T.warp) s,
      ((splitKept f rs).map fun r => (r, .done (splitWay f r))) ++ (splitEnds f s rs places).map fun e => (e.1, .wait e.2)) := by
  have hsize : (match s.ctx? lo.G.ctx with | some c => if c.spbase = 0 then 0 else c.spsize | none => 0) =
      (if (match s.ctx? lo.G.ctx with | some c => (c.spbase.toNat, c.spsize) | none => (0, 0)).1 = 0 then 0
        else (match s.ctx? lo.G.ctx with | some c => (c.spbase.toNat, c.spsize) | none => (0, 0)).2) := by
    cases s.ctx? lo.G.ctx with
    | none => rfl
    | some c =>
      have hz : c.spbase = 0 ↔ c.spbase.toNat = 0 := ⟨fun h => by rw [h]; rfl, fun h => BitVec.eq_of_toNat_eq h⟩
      exact if_congr hz rfl rfl
  rw [hsize] at hres
  unfold actSbra splitEnds splitKept splitGone at *
  have hpart : decide ((rs.filter fun r => !r.T.guard f.g f.gn).length ≤ (rs.filter fun r => r.T.guard f.g f.gn).length) = splitStays f rs := rfl
  simp only [if_neg (not_or.2 ⟨hy, hn⟩), hlo, splitStay_eq, hpart]
  cases hs : splitStays f rs <;> simp only [hs, if_true, Bool.false_eq_true, if_false] at hres ⊢
  all_goals
    split
    · rename_i h; cases h.symm.trans hres
    · rename_i h; cases h.symm.trans hres; rw [List.map_map]; rfl

theorem noteEnds_frame (l : List Ref) : ∀ s : State, SameButGroups s (l.foldl (fun s r => s.noteEnd r.g r.T.warp) s) ∧
    ∀ g k, (l.foldl (fun s r => s.noteEnd r.g r.T.warp) s).thread? g k = s.thread? g k := by
  induction l with
  | nil => intro s; exact ⟨.refl s, fun _ _ => rfl⟩
  | cons r l ih =>
    intro s
    obtain ⟨h1, h2⟩ := ih (s.noteEnd r.g r.T.warp)
    refine ⟨SameButGroups.trans (t := s.noteEnd r.g r.T.warp) rfl h1, fun g k => (h2 g k).trans ?_⟩
    unfold State.noteEnd State.thread?
    rw [State.group?_modG]
    split
    · subst_vars; cases s.group? r.g <;> rfl
    · rfl
theorem append_numbered_nil {α β : Type} (as : List β) (l : List α) (F : Nat × α → β) (h : l = []) :
    as ++ ((List.range l.length).zip l).map F = as := by subst h; simp
/-- Threads that complete without an access change their groups alone. -/
theorem Adv.same {s t : State} {len order vol : Nat} {ws : List (Ref × Option TRes)} (h : Adv s t len order vol ws)
    (hacc : ∀ w ∈ ws, ∀ res, w.2 = some res → res.accs = []) : SameButGroups s t := by
  have hnone : (ws.flatMap fun w => match w.2 with | some res => res.accs.map fun a => (w.1, a) | none => []) = [] := by
    rw [List.flatMap_eq_nil_iff]
    intro w hw
    split
    · rename_i res hres; rw [hacc w hw res hres]; rfl
    · rfl
  have haccs : t.accesses = s.accesses := h.accesses.trans (append_numbered_nil _ _ _ hnone)
  have hrest := h.rest
  rw [← haccs] at hrest
  exact hrest
theorem room_split (f : Full) (l : List Ref) (h : ∀ r ∈ l, HasRoom r {}) : ∀ e ∈ l.map fun r => (r, splitWay f r), HasRoom e.1 e.2 := by
  intro e he
  obtain ⟨r, hr, rfl⟩ := List.mem_map.1 he
  exact splitWay_room f r (h r hr)

/-- A split branch that does not divide its issue group is a branch (R309). -/
theorem sbra_whole (f : Full) (s : State) (is : Issue) (rs : List Ref) (hi : Issued s is rs) (ha : Admits 0x0A6 f rs)
    (h : (rs.filter fun r => r.T.guard f.g f.gn) = [] ∨ (rs.filter fun r => !r.T.guard f.g f.gn) = []) (hroom : ∀ r ∈ rs, HasRoom r {}) :
    ∃ t, Sys2Proof.Machine.exec (.sbra f) s = .next t ∧ Advances (clockVol 0x0A6 f) s t is s.next rs fun r => some (splitWay f r) := by
  have hadv := dones_adv s is.len s.next (clockVol 0x0A6 f) (rs.map fun r => (r, splitWay f r)) s [] (Adv.nil s _ _ _) (by simp)
    (by simpa [List.map_map, Function.comp_def] using hi.nodup)
  have hadv' := Adv.advances (vol := clockVol 0x0A6 f) (is := is) (rs := rs) (p := fun _ => true) (res := splitWay f)
    (by simpa [List.map_map, Function.comp_def] using hadv)
  refine ⟨_, ?_, by simpa using hadv'⟩
  have hdone := applyOut_dones is.len s.next (clockVol 0x0A6 f) _ [] s (room_split f rs hroom)
  rw [List.map_map] at hdone
  rw [execSbra_eq f s is rs hi ha, actSbra_whole f s rs h]
  have hfold : (rs.map fun r => (r, TOut.done (splitWay f r))) = rs.map ((fun e => (e.1, TOut.done e.2)) ∘ fun r => (r, splitWay f r)) := rfl
  rw [hfold, hdone]
  have hab := congrArg State.absent hadv.rest
  exact finish_of_present _ (hab.trans hi.present)

/-- A split branch that divides its issue group: the threads that stay go on, the others end into spawn records (R47, R309). -/
theorem sbra_split (f : Full) (s : State) (is : Issue) (rs : List Ref) (hi : Issued s is rs) (ha : Admits 0x0A6 f rs) (places : List (Option Nat))
    (hlen : places.length = (splitGone f rs).length) (hroom : ∀ r ∈ rs, HasRoom r {}) (hact : actSbra f s rs = ((splitGone f rs).foldl (fun s r => s.noteEnd r.g r.T.warp) s,
      ((splitKept f rs).map fun r => (r, .done (splitWay f r))) ++ (splitEnds f s rs places).map fun e => (e.1, .wait e.2))) :
    ∃ t, Sys2Proof.Machine.exec (.sbra f) s = .next t ∧ SameButGroups s t ∧
      (∀ r ∈ splitKept f rs, t.thread? r.g r.t = (s.thread? r.g r.t).map fun T => T.after s.clock is.len (some (splitWay f r))) ∧
      (∀ e ∈ splitEnds f s rs places, ∃ n, t.thread? e.1.g e.1.t = (s.thread? e.1.g e.1.t).map fun T => T.waitOn e.2 s.clock n) ∧
      ∀ g k, (∀ r ∈ rs, ¬ (r.g = g ∧ r.t = k)) → t.thread? g k = s.thread? g k := by
  let u := (splitGone f rs).foldl (fun s r => s.noteEnd r.g r.T.warp) s
  let v := ((splitKept f rs).map fun r => (r, splitWay f r)).foldl (fun t e => t.complete e.1 is.len s.next (clockVol 0x0A6 f) e.2) u
  let L := splitEnds f s rs places
  have hinj : ∀ q ∈ rs, ∀ r ∈ rs, q.g = r.g → q.t = r.t → q = r := fun q hq r hr h1 h2 =>
    List.inj_on_of_nodup_map hi.nodup hq hr (by rw [h1, h2])
  have hL : ∀ e ∈ L, e.1 ∈ splitGone f rs := by
    intro e he
    obtain ⟨x, hx, rfl⟩ := List.mem_map.1 he
    exact (List.of_mem_zip hx).1
  have hLnd : (L.map fun e => (e.1.g, e.1.t)).Nodup := by
    have h1 : (L.map Prod.fst).Sublist (splitGone f rs) := by
      have : L.map Prod.fst = ((splitGone f rs).zip places).map Prod.fst := by simp only [L, splitEnds, List.map_map]; rfl
      rw [this, List.map_fst_zip hlen.ge]
    have h2 := ((h1.trans (splitGone_sub f rs)).map fun r => (r.g, r.t))
    rw [List.map_map] at h2
    exact hi.nodup.sublist h2
  have hkept : ∀ r ∈ splitKept f rs, ∀ e ∈ L, ¬ (e.1.g = r.g ∧ e.1.t = r.t) := by
    intro r hr e he hk
    have hin := (mem_splitKept f rs r).1 hr
    have := hinj e.1 ((splitGone_sub f rs).subset (hL e he)) r hin.1 hk.1 hk.2
    exact hin.2 (this ▸ hL e he)
  obtain ⟨hu1, hu2⟩ := noteEnds_frame (splitGone f rs) s
  have hadv := dones_adv u is.len s.next (clockVol 0x0A6 f) ((splitKept f rs).map fun r => (r, splitWay f r)) u [] (Adv.nil u _ _ _) (by simp)
    (by simpa [List.map_map, Function.comp_def] using hi.nodup.sublist ((splitKept_sub f rs).map fun r => (r.g, r.t)))
  simp only [List.nil_append, List.map_map, Function.comp_def] at hadv
  have hv1 : SameButGroups u v := hadv.same fun w hw res hres => by
    obtain ⟨r, _, rfl⟩ := List.mem_map.1 hw
    cases hres; exact splitWay_accs f r
  have hv2 : ∀ g k, (∀ r ∈ splitKept f rs, ¬ (r.g = g ∧ r.t = k)) → v.thread? g k = s.thread? g k := fun g k h =>
    (hadv.others g k fun w hw => by obtain ⟨r, hr, rfl⟩ := List.mem_map.1 hw; exact h r hr).trans (hu2 g k)
  have hsame : SameButGroups s (L.foldl (State.haltAt (clockVol 0x0A6 f)) v) := (hu1.trans hv1).trans (halts_same _ L v)
  refine ⟨L.foldl (State.haltAt (clockVol 0x0A6 f)) v, ?_, hsame, ?_, ?_, ?_⟩
  · have hdone := applyOut_dones is.len s.next (clockVol 0x0A6 f) _ [] u
      (room_split f (splitKept f rs) fun r hr => hroom r ((splitKept_sub f rs).subset hr))
    rw [List.map_map] at hdone
    have hfold : ((splitKept f rs).map fun r => (r, TOut.done (splitWay f r))).foldl (applyOut is.len s.next (clockVol 0x0A6 f)) (u, []) = (v, []) := hdone
    rw [execSbra_eq f s is rs hi ha, hact]
    simp only [List.foldl_append]
    rw [hfold, applyOut_halts]
    exact finish_of_present _ (hsame.absent.trans hi.present)
  · intro r hr
    rw [halts_others _ _ _ L v (hkept r hr)]
    have h1 := hadv.threads (r, some (splitWay f r)) (List.mem_map.2 ⟨r, hr, rfl⟩)
    rw [hu2, hu1.clock] at h1
    exact h1
  · intro e he
    obtain ⟨n, hn⟩ := halts_thread (clockVol 0x0A6 f) e L v hLnd he
    refine ⟨n, hn.trans ?_⟩
    rw [hv2 _ _ fun r hr hk => hkept r hr e he ⟨hk.1.symm, hk.2.symm⟩, (hu1.trans hv1).clock]
  · intro g k h
    rw [halts_others _ _ _ L v fun e he => h e.1 ((splitGone_sub f rs).subset (hL e he))]
    exact hv2 g k fun r hr => h r ((splitKept_sub f rs).subset hr)

/-- Settles O15: whole, or divided into the threads kept and the threads ended. -/
theorem splitBranchResults : Obligations.SplitBranchResults := by
  unfold Obligations.SplitBranchResults
  intro f s is rs hi ha
  refine ⟨fun h hroom => sbra_whole f s is rs hi ha h hroom, ?_⟩
  intro places lo hy hn hroom hlo stays gone hres
  have hlen : places.length = (splitGone f rs).length := reserve_length _ _ _ _ _ _ _ hres
  obtain ⟨t, hexec, hsame, hk, hg, ho⟩ := sbra_split f s is rs hi ha places hlen hroom (actSbra_split f s rs places lo hy hn hlo hres)
  refine ⟨t, hexec, fun r hr hng => hk r ((mem_splitKept f rs r).2 ⟨hr, hng⟩), fun k r hkr => ?_, ho, hsame⟩
  have hlt : k < places.length := by rw [hlen]; exact (List.getElem?_eq_some_iff.1 hkr).1
  have hplace : places[k]? = some places[k] := List.getElem?_eq_getElem hlt
  have hmem : (r, places[k]) ∈ (splitGone f rs).zip places :=
    List.mem_of_getElem? (i := k) (by rw [List.getElem?_zip_eq_some]; exact ⟨hkr, hplace⟩)
  obtain ⟨n, hn⟩ := hg _ (List.mem_map_of_mem hmem)
  refine ⟨places[k], n, hplace, ?_⟩
  have hnext : s.nextPc r = addOff r.T.pc is.len := by simp only [State.nextPc, State.len, hi.issue]
  rw [hnext] at hn
  exact hn

end Sys2Proof.Machine
end

section
/-! SUPPORT. One step: the agenda, the entries of a core and what stands at their PC, and the order of a cycle (R39 to R41, R57, R436): O40. -/

namespace Sys2Proof.Map

theorem mem_insertBy {α : Type} (le : α → α → Bool) (x y : α) (l : List α) (h : y ∈ insertBy le x l) : y = x ∨ y ∈ l := by
  induction l with
  | nil => simpa [insertBy] using h
  | cons z l ih =>
    simp only [insertBy] at h
    split at h
    · simpa using h
    · rcases List.mem_cons.1 h with h | h
      · exact .inr (by simp [h])
      · exact (ih h).imp_right (List.mem_cons_of_mem z)
theorem mem_of_mem_sortBy {α : Type} (le : α → α → Bool) (y : α) (l : List α) (h : y ∈ sortBy le l) : y ∈ l := by
  induction l with
  | nil => exact h
  | cons x l ih =>
    rcases mem_insertBy le x y _ h with rfl | h
    · simp
    · exact List.mem_cons_of_mem x (ih h)

end Sys2Proof.Map

namespace Sys2Proof.Machine

/-- What a search that keeps one of the elements it has met ends with. -/
theorem foldl_choice_mem {α β : Type} (f : Option β → α → Option β) (pick : α → β) (hf : ∀ m x, f m x = m ∨ f m x = some (pick x)) (y : β)
    (l : List α) : ∀ m, l.foldl f m = some y → m = some y ∨ ∃ x ∈ l, y = pick x := by
  induction l with
  | nil => intro m h; exact .inl h
  | cons x l ih =>
    intro m h
    rcases ih _ h with h | ⟨z, hz, rfl⟩
    · rcases hf m x with hm | hm
      · exact .inl (hm ▸ h)
      · rw [hm] at h; cases h; exact .inr ⟨x, by simp, rfl⟩
    · exact .inr ⟨z, by simp [hz], rfl⟩

/-! ## What a step does with its turn -/

theorem step_of_run {s t : State} {i : Instr} (h : s.turn_ Sys2Proof.Machine.exec = .run t i) :
    Sys2Proof.Machine.step s = match Sys2Proof.Machine.exec i t with
      | .next w => finish (w.close true) | .fault x => .fault x | .refused x => .refused x := by
  unfold Sys2Proof.Machine.step; rw [h] <;> rfl
theorem step_of_done {s t : State} (h : s.turn_ Sys2Proof.Machine.exec = .done t) : Sys2Proof.Machine.step s = finish (t.close false) := by
  unfold Sys2Proof.Machine.step; rw [h]
theorem turn_of_event {s : State} {i : Instr} {rest : List Move} (h : s.agenda = .event 0 i :: rest) (ex : Instr → State → Host.Outcome State Fault Refusal) :
    s.turn_ ex = if inOrder ex { s with agenda := rest } i then .run { s with agenda := rest } i else .done { s with agenda := rest } := by
  simp only [State.turn_, h]
theorem misordered_iff (s t : State) : misordered s t = true ↔
    s.edge.seq < t.edge.seq ∧ s.edge.logged.1 = s.clock ∧ t.edge.logged.2 < s.edge.logged.2 := by
  simp [misordered, and_assoc]
theorem inOrder_of_next {ex : Instr → State → Host.Outcome State Fault Refusal} {s w : State} {i : Instr} (h : ex i s = .next w) :
    inOrder ex s i = !misordered s w := by simp only [inOrder, h]

/-! ## The newest event of the error log (R436) -/

theorem State.msi_logged (s : State) (v : Nat) : (s.msi v).edge.logged = s.edge.logged := by
  unfold State.msi; split <;> rfl
theorem State.pokeRaw_edge (s : State) (a : Nat) (bs : List Byte) : (s.pokeRaw a bs).edge = s.edge := by
  obtain ⟨p, x, _, _, h⟩ := s.pokeRaw_shape a bs; rw [h]
theorem State.log_newest (s : State) (r : ErrRec) : (s.log r).edge.logged = (s.clock, r.key) := by
  unfold State.log
  dsimp only
  rw [State.msi_logged]
  split
  · rw [State.modEdge_edge, State.pokeRaw_edge]; rfl
  · rfl
theorem ErrRec.key_eq (r : ErrRec) (h1 : r.unit < 2 ^ 16) (h2 : r.unitNo < 2 ^ 16) :
    r.key = r.cls * 2 ^ 32 + r.unit * 2 ^ 16 + r.unitNo := by
  unfold ErrRec.key
  rw [Nat.mod_eq_of_lt h1, Nat.mod_eq_of_lt h2]
  omega

/-! ## The end of a cycle (R57) -/

theorem mustIssue_nil (s : State) (core : Nat)
    (h : ∀ x ∈ s.picks core, x.starved = false ∧ (s.core core).issuedAt = s.clock ∧ (s.core core).issued ≠ []) : s.mustIssue core = [] := by
  unfold State.mustIssue
  rw [List.filter_eq_nil_iff]
  intro x hx
  obtain ⟨h1, h2, h3⟩ := h x hx
  simp [h1, h2, h3]
theorem ownPick_none (s : State) (h : ∀ e ∈ s.groups, s.mustIssue e.2.core = []) : s.ownPick = none := by
  have hnil : (((s.groups.map fun (e : Nat × Group) => e.2.core).eraseDups).flatMap fun c => (s.mustIssue c).map fun e => (c, e)) = [] := by
    rw [List.flatMap_eq_nil_iff]
    intro c hc
    obtain ⟨e, he, rfl⟩ := List.mem_map.1 (List.mem_eraseDups.1 hc)
    rw [h e he]; rfl
  unfold State.ownPick
  simp only [hnil, List.foldl_nil]
theorem tick_of_none {s after : State} (h : s.ownPick = none) : s.tick after = .done (after.elapse 1) := by
  unfold State.tick; rw [h]
theorem tick_of_some {s after : State} {c : Nat} {e : Entry256} (h : s.ownPick = some (c, e)) : s.tick after = s.issueEntry c e := by
  unfold State.tick; rw [h]
/-- An agenda that lets the cycle go on: its next move is not due yet, or it has none and no step of the device is due. -/
def Idle (s : State) (m : List Move) : Prop :=
  (∃ dt i rest, s.agenda = .event (dt + 1) i :: rest ∧ m = .event dt i :: rest) ∨
    (∃ dt c x pc rest, s.agenda = .issue (dt + 1) c x pc :: rest ∧ m = .issue dt c x pc :: rest) ∨
    (s.agenda = [] ∧ m = [] ∧ s.due.find? (moves Sys2Proof.Machine.exec s) = none)
theorem turn_of_idle {s : State} {m : List Move} (h : Idle s m) : s.turn_ Sys2Proof.Machine.exec = s.tick { s with agenda := m } := by
  rcases h with ⟨dt, i, rest, ha, rfl⟩ | ⟨dt, c, x, pc, rest, ha, rfl⟩ | ⟨ha, rfl, hd⟩
  · simp only [State.turn_, ha]
  · simp only [State.turn_, ha]
  · have hs : ({ s with agenda := [] } : State) = s := by rw [← ha]
    simp only [State.turn_, ha, State.ownTurn, hd, hs]

/-! ## Entries and their threads (R39, R40) -/

theorem oldest_mem (r : Ref) (l : List Ref) (h : oldest l = some r) : r ∈ l := by
  induction l with
  | nil => cases h
  | cons x l ih =>
    simp only [oldest] at h
    split at h
    · cases h; simp
    · rename_i y hy
      split at h
      · cases h; exact List.mem_cons_of_mem x (ih hy)
      · cases h; simp
theorem lead_mem (e : Entry256) (r : Ref) (h : e.lead = some r) : r ∈ e.refs := by
  unfold Entry256.lead at h
  split at h
  · rename_i x hx; cases h; exact (List.mem_filter.1 (oldest_mem _ _ hx)).1
  · exact oldest_mem _ _ h
theorem group_mem (e : Entry256) (r : Ref) (h : r ∈ e.group) : r ∈ e.refs := by
  unfold Entry256.group at h
  split at h
  · cases h
  · rename_i l hl
    obtain ⟨k, _, hk⟩ := List.mem_filterMap.1 h
    dsimp only at hk
    split at hk
    · cases hk; exact lead_mem e r hl
    · split at hk
      · rename_i x hx; cases hk
        exact (List.mem_filter.1 (List.mem_filter.1 (List.mem_of_find?_eq_some hx)).1).1
      · exact (List.mem_filter.1 (List.mem_filter.1 (List.mem_filter.1 (oldest_mem _ _ hk)).1).1).1
theorem ableOn_mem (s : State) (core : Nat) (r : Ref) (h : r ∈ s.ableOn core) : (r.g, r.G) ∈ s.groups ∧ (r.t, r.T) ∈ r.G.threads := by
  unfold State.ableOn at h
  obtain ⟨e, he, hr⟩ := List.mem_flatMap.1 h
  split at hr
  · cases hr
  · obtain ⟨x, hx, rfl⟩ := List.mem_map.1 hr
    exact ⟨(List.mem_filter.1 he).1, (List.mem_filter.1 (List.mem_filter.1 hx).1).1⟩
/-- An entry of a core: its threads wait for nothing at its PC, and what stands there is fetched for one of them. -/
structure Formed (s : State) (core : Nat) (e : Entry256) : Prop where
  refs : ∀ r ∈ e.refs, r ∈ s.ableOn core ∧ r.key = e.key
  what : ∃ r ∈ s.ableOn core, r.key = e.key ∧ e.what = s.fetch r.G.ctx e.item e.pc
theorem readyOn_formed (s : State) (core : Nat) (e : Entry256) (h : e ∈ s.readyOn core) : Formed s core e := by
  unfold State.readyOn at h
  obtain ⟨k, _, hk⟩ := List.mem_filterMap.1 h
  split at hk
  · cases hk
  · rename_i r l hl
    have hin : ∀ q ∈ r :: l, q ∈ s.ableOn core ∧ q.key = k := fun q hq => by
      rw [← hl] at hq
      have := List.mem_filter.1 hq
      exact ⟨this.1, by simpa using this.2⟩
    dsimp only at hk
    split at hk
    · cases hk
    · cases hk
      exact ⟨fun q hq => hin q (List.mem_filter.1 (List.mem_filter.1 hq).1).1, r, (hin r (by simp)).1, (hin r (by simp)).2, rfl⟩
theorem arrivals_mem (known : List (Nat × Addr)) (es : List Entry256) (e : Entry256) (h : e ∈ arrivals known es) : e ∈ es := by
  unfold arrivals at h
  rcases List.mem_append.1 h with h | h
  · obtain ⟨k, _, hk⟩ := List.mem_filterMap.1 h
    exact List.mem_of_find?_eq_some hk
  · obtain ⟨x, hx, rfl⟩ := List.mem_map.1 h
    obtain ⟨y, hy, rfl⟩ := List.mem_map.1 (Map.mem_of_mem_sortBy _ _ _ hx)
    exact (List.mem_filter.1 hy).1
theorem picks_formed (s : State) (core : Nat) (e : Entry256) (h : e ∈ s.picks core) : Formed s core e :=
  readyOn_formed s core e (arrivals_mem _ _ _ (List.mem_of_mem_take (List.mem_filter.1 h).1))
theorem ownPick_formed (s : State) (core : Nat) (e : Entry256) (h : s.ownPick = some (core, e)) : Formed s core e := by
  have hmem := foldl_choice_mem _ id (fun m x => ?_) (core, e) _ none h
  · rcases hmem with hn | ⟨_, hmem, rfl⟩
    · cases hn
    · obtain ⟨c, _, hc⟩ := List.mem_flatMap.1 hmem
      obtain ⟨x, hx, hxe⟩ := List.mem_map.1 hc
      cases hxe
      exact picks_formed s core e (List.mem_filter.1 hx).1
  · cases m with
    | none => exact .inr rfl
    | some y =>
      dsimp only
      split
      · split
        · exact .inr rfl
        · exact .inl rfl
      · exact .inl rfl

/-! ## Fetch (R173, R255) -/

theorem addOff_zero (a : Addr) : addOff a 0 = a := by
  unfold addOff truncI mkAddr bufOf offOf
  have hlt := (a.extractLsb' 0 48).isLt
  have hoff : ((((a.extractLsb' 0 48).toNat : Int) + 0) % ((2 ^ 48 : Nat) : Int)).toNat = (a.extractLsb' 0 48).toNat := by
    rw [Int.add_zero, ← Int.natCast_emod, Int.toNat_natCast, Nat.mod_eq_of_lt hlt]
  rw [hoff, BitVec.ofNat_toNat, BitVec.ofNat_toNat, BitVec.setWidth_eq, BitVec.setWidth_eq]
  apply BitVec.eq_of_getLsbD_eq
  intro i hi
  rw [BitVec.getLsbD_append, BitVec.getLsbD_extractLsb', BitVec.getLsbD_extractLsb']
  by_cases h : i < 48
  · simp [h]
  · simp [h, show i - 48 < 16 by omega, show 48 + (i - 48) = i by omega]
/-- The parcel that stands at an address for an item. -/
structure ParcelAt (s : State) (ctx item : Nat) (a : Addr) (p : Word) : Prop where
  read : ∃ ps, s.port_ ctx (s.renOf item) .fetch a 4 = .ok ps ∧ s.poisonedIn false ps = none ∧ p = BitVec.ofNat 32 (leNat (s.fetchBytes item a ps))
theorem ParcelAt.parcel {s : State} {ctx item : Nat} {a : Addr} {p : Word} (h : ParcelAt s ctx item a p) : s.parcel ctx item a = .ok p := by
  obtain ⟨ps, h1, h2, rfl⟩ := h.read
  simp only [State.parcel, h1, h2]
theorem parcelsOf_cases (p : Word) : parcelsOf p = 1 ∨ parcelsOf p = 2 ∨ parcelsOf p = 3 := by
  unfold parcelsOf; split <;> simp
/-- The parcels that the first one's length names. -/
theorem parcels_eq (s : State) (ctx item : Nat) (pc : Addr) (p : Nat → Word)
    (h : ∀ k, k < 3 → if k < parcelsOf (p 0) ∨ k = 0 then ParcelAt s ctx item (addOff pc (4 * k : Nat)) (p k) else p k = 0) :
    s.parcels ctx item pc = .ok (p 0, p 1, p 2) := by
  have h0 : s.parcel ctx item pc = .ok (p 0) := by
    have := (h 0 (by omega))
    rw [if_pos (.inr rfl)] at this
    have := this.parcel
    rwa [show ((4 * 0 : Nat) : Int) = 0 from rfl, addOff_zero] at this
  have h1 := h 1 (by omega)
  have h2 := h 2 (by omega)
  unfold State.parcels
  rw [h0]
  dsimp only
  rcases parcelsOf_cases (p 0) with hn | hn | hn <;> rw [hn] at h1 h2 ⊢ <;> norm_num at h1 h2 ⊢
  · exact ⟨h1.symm, h2.symm⟩
  · rw [h1.parcel]; dsimp only; rw [h2]
  · rw [h1.parcel]; dsimp only; rw [h2.parcel]

/-! ## The issue of an entry -/

/-- The step that issues an entry of a core: the agenda names it, or the cycle goes on and the model picks it (log 3). -/
def Issues (s u : State) (core item : Nat) (pc : Addr) (e : Entry256) : Prop :=
  (∃ rest, s.agenda = .issue 0 core item pc :: rest ∧ u = { s with agenda := rest } ∧ (u.picks core).find? (fun e => e.key == (item, pc)) = some e) ∨
    (((s.agenda = [] ∧ s.due.find? (moves Sys2Proof.Machine.exec s) = none) ∨ (∃ dt i rest, s.agenda = .event (dt + 1) i :: rest) ∨
        ∃ dt c x q rest, s.agenda = .issue (dt + 1) c x q :: rest) ∧ u = s ∧ u.ownPick = some (core, e) ∧ e.key = (item, pc))
theorem Issues.formed {s u : State} {core item : Nat} {pc : Addr} {e : Entry256} (h : Issues s u core item pc e) :
    Formed u core e ∧ e.key = (item, pc) := by
  rcases h with ⟨rest, _, _, hf⟩ | ⟨_, _, ho, hk⟩
  · exact ⟨picks_formed u core e (List.mem_of_find?_eq_some hf), by simpa using List.find?_some hf⟩
  · exact ⟨ownPick_formed u core e ho, hk⟩
theorem Issues.turn {s u : State} {core item : Nat} {pc : Addr} {e : Entry256} (h : Issues s u core item pc e) :
    s.turn_ Sys2Proof.Machine.exec = u.issueEntry core e := by
  rcases h with ⟨rest, ha, rfl, hf⟩ | ⟨hidle, rfl, ho, _⟩
  · simp only [State.turn_, ha, hf]
  · have hm : ∃ m, Idle u m := by
      rcases hidle with ⟨ha, hd⟩ | ⟨dt, i, rest, ha⟩ | ⟨dt, c, x, q, rest, ha⟩
      · exact ⟨[], .inr (.inr ⟨ha, rfl, hd⟩)⟩
      · exact ⟨_, .inl ⟨dt, i, rest, ha, rfl⟩⟩
      · exact ⟨_, .inr (.inl ⟨dt, c, x, q, rest, ha, rfl⟩)⟩
    obtain ⟨m, hm⟩ := hm
    rw [turn_of_idle hm, tick_of_some ho]
/-- What stands at the PC of an entry, where its item's groups are all of one context and its parcels can be read. -/
theorem Formed.fetched {u : State} {core item : Nat} {pc : Addr} {e : Entry256} (hf : Formed u core e) (hk : e.key = (item, pc)) (ctx : Nat)
    (hctx : ∀ y ∈ u.groups, y.2.item = item → y.2.ctx = ctx) (p : Nat → Word)
    (hp : ∀ k, k < 3 → if k < parcelsOf (p 0) ∨ k = 0 then ParcelAt u ctx item (addOff pc (4 * k : Nat)) (p k) else p k = 0) :
    e.what = match decode (pc.getLsbD 2) (p 0) (p 1) (p 2) with
      | .ok i => .instr i (4 * parcelsOf (p 0))
      | .error (.reason n) => .trap { cause := 0x01, arg := n } := by
  obtain ⟨r, hr, hrk, hwhat⟩ := hf.what
  obtain ⟨hitem, hpc⟩ := Prod.mk.inj hk
  have hrc : r.G.ctx = ctx := hctx _ (ableOn_mem u core r hr).1 (Prod.mk.inj (hrk.trans hk)).1
  rw [hwhat, hitem, hpc, hrc]
  unfold State.fetch
  rw [parcels_eq u ctx item pc p hp] <;> rfl
theorem issueEntry_instr (u : State) (core len : Nat) (e : Entry256) (i : Instr) (h : e.what = .instr i len) :
    u.issueEntry core e = .run { u.picked core e.key with
      issue := some { core := core, refs := e.group.map fun r => (r.g, r.t), pc := e.pc, len := len } } i := by
  simp only [State.issueEntry, h]
theorem issueEntry_trap (u : State) (core : Nat) (e : Entry256) (x : Trap) (h : e.what = .trap x) :
    u.issueEntry core e = .done ((u.picked core e.key).deliver (e.group.map fun r => (r.g, r.t, x))) := by
  simp only [State.issueEntry, h]

/-- Settles O40: the turn of a step, and what stands at the PC of the entry that it issues. -/
theorem stepIssuesTheDecodedInstruction : Obligations.StepIssuesTheDecodedInstruction := by
  unfold Obligations.StepIssuesTheDecodedInstruction
  refine ⟨?_, ?_, ?_, ?_, ?_⟩
  · intro s i rest ha v late
    have hturn := turn_of_event ha Sys2Proof.Machine.exec
    have hrun : inOrder Sys2Proof.Machine.exec v i = true → s.turn_ Sys2Proof.Machine.exec = .run v i := fun h => hturn.trans (if_pos h)
    refine ⟨fun w hw hl => ?_, fun w hw hl => ?_, fun x hx => ?_, fun x hx => ?_⟩
    · have hin : inOrder Sys2Proof.Machine.exec v i = true := by
        rw [inOrder_of_next hw, Bool.not_eq_true', Bool.eq_false_iff, Ne, misordered_iff]; exact hl
      rw [step_of_run (hrun hin), hw]
    · have hin : inOrder Sys2Proof.Machine.exec v i ≠ true := by
        rw [inOrder_of_next hw, (misordered_iff v w).2 hl]; decide
      exact step_of_done (hturn.trans (if_neg hin))
    · rw [step_of_run (hrun (by simp only [inOrder, hx])), hx]
    · rw [step_of_run (hrun (by simp only [inOrder, hx])), hx]
  · intro s r h1 h2
    rw [s.log_newest r, r.key_eq h1 h2]
  · intro s m hm h
    exact step_of_done ((turn_of_idle hm).trans (tick_of_none (ownPick_none s fun e he => mustIssue_nil s _ (h e he))))
  · intro s item a ps
    unfold State.fetchBytes
    cases hit : s.item? item with
    | none => exact .inl rfl
    | some it =>
      cases hc : it.code with
      | none => left; simp only [Option.bind_some, hc]
      | some m =>
        simp only [Option.bind_some, hc]
        split
        · exact .inl rfl
        · split
          · exact .inr ⟨it, m, rfl, hc, rfl⟩
          · exact .inl rfl
  · intro s u core item n pc e r0 p hu hr0 hn hd hy hp v
    have hiss : Issues s u core item pc e := hu
    obtain ⟨hf, hk⟩ := hiss.formed
    obtain ⟨hitem, hpc⟩ := Prod.mk.inj hk
    have hwhat := hf.fetched hk r0.G.ctx (fun y hyu => (hy y hyu).2) p (fun k h3 => by
      have := hp k h3
      rw [hn] at this
      split
      · rename_i hc; rw [if_pos hc] at this; exact ⟨this⟩
      · rename_i hc; rw [if_neg hc] at this; exact this)
    refine ⟨fun r hr => ?_, fun i hi => ?_, fun c hc => ?_⟩
    · obtain ⟨hable, hrk⟩ := hf.refs r (group_mem e r hr)
      obtain ⟨hG, hT⟩ := ableOn_mem u core r hable
      obtain ⟨h1, h2⟩ := Prod.mk.inj (hrk.trans hk)
      exact ⟨h2, h1, thread?_of_mem (mem_get?_of_distinct _ _ _ hd hG) (hy _ hG).1 (r.t, r.T) hT⟩
    · rw [hi] at hwhat
      rw [step_of_run (hiss.turn.trans (issueEntry_instr u core _ e i hwhat)), hk, hpc, hn] <;> rfl
    · rw [hc] at hwhat
      rw [step_of_done (hiss.turn.trans (issueEntry_trap u core e _ hwhat)), hk]

end Sys2Proof.Machine
end

section
/-! SUPPORT. The dispatcher (R61, R62, R70 to R73, R227): gangs that start, tasks that are stolen, the active set and re-queueing, and
starvation (R55): O50. -/

namespace Sys2Proof.Machine

/-! ## The port reads contexts and memory alone -/

theorem physByte_congr {s t : State} (hm : t.mem = s.mem) (e : BufEntry) (ren : List Rename) (buf off : Nat) :
    t.physByte e ren buf off = s.physByte e ren buf off := by
  have h : t.physByte e ren buf off = ({ s with mem := t.mem } : State).physByte e ren buf off := rfl
  rw [h, hm]
theorem buf_congr {s t : State} (hm : t.mem = s.mem) (c : Ctx) (i : Nat) : t.buf c i = s.buf c i := by
  have h : t.buf c i = ({ s with mem := t.mem } : State).buf c i := rfl
  rw [h, hm]
theorem physRun_congr {s t : State} (hm : t.mem = s.mem) (e : BufEntry) (ren : List Rename) (buf n : Nat) : ∀ off,
    t.physRun e ren buf off n = s.physRun e ren buf off n := by
  induction n with
  | zero => intro off; rfl
  | succ n ih => intro off; simp only [State.physRun, physByte_congr hm, ih]
theorem port_congr {s t : State} (hm : t.mem = s.mem) (hc : t.ctxs = s.ctxs) (ctx : Nat) (ren : List Rename) (k : PKind) (a : Addr) (len : Nat) :
    t.port_ ctx ren k a len = s.port_ ctx ren k a len := by
  have hctx : t.ctx? ctx = s.ctx? ctx := congrArg (fun m => Map.get? m ctx) hc
  simp only [State.port_, hctx, buf_congr hm, physRun_congr hm]

/-! ## The start of a gang (R36, R54, R61) -/

/-- A group as it starts, its trace record apart. -/
def State.newGroup (s : State) (it : Item) (gang gidx core : Nat) : Group :=
  let slots := s.freeSlots core (it.lr.gsize / 32)
  { ctx := it.ctx, item := it.id, gidx := gidx, grank := gidx % it.lr.gang, gang := gang, core := core, role := roleOf it.lr (gidx % it.lr.gang),
    lr := it.lr, lsn := it.lsn, tslots := slots, placed := s.next, ks := s.constants it, sched := sched0 it.lr,
    threads := (List.range it.lr.gsize).map fun t =>
      (t, { lane := t % 32, slot := slots.getD (t / 32) 0, warp := t / 32, pc := it.lr.entry, readySince := s.clock, lastIssue := s.clock }) }
theorem followItem_shape (s : State) (it : Item) (core : Nat) : ∃ p cs, s.followItem it core = { s with port := p, cores := cs } := by
  unfold State.followItem
  split <;> exact ⟨_, _, rfl⟩
theorem vol_untraced (p : Prop) [Decidable p] (G : Group) (k : Nat) :
    ({ (if p then G.vol k else G) with trace := none } : Group) = { G with trace := none } := by split <;> rfl
theorem startGroup_shape (s : State) (it : Item) (gang gidx core : Nat) : ∃ (p : Port) (cs : Sparse Core) (G : Group),
    s.startGroup it gang gidx core = { s with port := p, cores := cs, groups := Map.set s.groups s.next G, next := s.next + 1, free := s.free + 1 } ∧
      ({ G with trace := none } : Group) = s.newGroup it gang gidx core := by
  unfold State.startGroup
  dsimp only [State.fresh_fst, State.fresh_snd]
  obtain ⟨p, cs, h⟩ := followItem_shape { s with next := s.next + 1 } it core
  rw [h]
  exact ⟨p, cs, _, rfl, vol_untraced _ _ _⟩
/-- What the start of some groups leaves as it was. -/
structure Startless (s t : State) : Prop where
  rest : ({ t with port := s.port, cores := s.cores, groups := s.groups, next := s.next, free := s.free } : State) = s
  older : ∀ g, g < s.next → t.group? g = s.group? g
theorem startGroup_startless (s : State) (it : Item) (gang gidx core : Nat) :
    Startless s (s.startGroup it gang gidx core) ∧ (s.startGroup it gang gidx core).next = s.next + 1 := by
  obtain ⟨p, cs, G, h, _⟩ := startGroup_shape s it gang gidx core
  rw [h]
  exact ⟨⟨rfl, fun g hg => Map.get?_set_of_ne s.groups G (by omega)⟩, rfl⟩
/-- The groups of a gang start one after another, numbered from the state's next number on. -/
theorem startGroups_fold (it : Item) (gang base : Nat) (l : List (Nat × Nat)) : ∀ s : State,
    let t := l.foldl (fun (s : State) e => s.startGroup it gang (base + e.1) e.2) s
    Startless s t ∧ ∀ k e, l[k]? = some e → ∃ (u : State) (G : Group), t.group? (s.next + k) = some G ∧
      ({ G with trace := none } : Group) = u.newGroup it gang (base + e.1) e.2 ∧ u.mem = s.mem ∧ u.ctxs = s.ctxs := by
  induction l with
  | nil => intro s; exact ⟨⟨rfl, fun _ _ => rfl⟩, fun k e h => by simp at h⟩
  | cons a l ih =>
    intro s
    obtain ⟨h1, hnext⟩ := startGroup_startless s it gang (base + a.1) a.2
    obtain ⟨h2, h3⟩ := ih (s.startGroup it gang (base + a.1) a.2)
    rw [hnext] at h3
    have hm : (s.startGroup it gang (base + a.1) a.2).mem = s.mem := by have := congrArg State.mem h1.rest; exact this
    have hc : (s.startGroup it gang (base + a.1) a.2).ctxs = s.ctxs := by have := congrArg State.ctxs h1.rest; exact this
    refine ⟨⟨?_, fun g hg => (h2.older g (by omega)).trans (h1.older g hg)⟩, fun k e hk => ?_⟩
    · exact (congrArg (fun (x : State) => ({ x with port := s.port, cores := s.cores, groups := s.groups, next := s.next, free := s.free } : State)) h2.rest).trans h1.rest
    · cases k with
      | zero =>
        cases hk
        obtain ⟨p, cs, G, hs, hG⟩ := startGroup_shape s it gang (base + a.1) a.2
        refine ⟨s, G, ?_, hG, rfl, rfl⟩
        rw [List.foldl_cons, Nat.add_zero, h2.older s.next (by omega), hs]
        exact Map.get?_set_self s.groups s.next G
      | succ k =>
        obtain ⟨u, G, hg, hG, hum, huc⟩ := h3 k e hk
        exact ⟨u, G, by rw [← Nat.add_assoc, Nat.add_right_comm]; exact hg, hG, hum.trans hm, huc.trans hc⟩
theorem constants_get (s u : State) (it : Item) (n : Nat) (hm : u.mem = s.mem) (hc : u.ctxs = s.ctxs) (hn : n < 48) :
    (∀ ps, 4 * n + 4 ≤ it.lr.paramlen → s.port_ it.ctx it.renames .load (addOff it.lr.param (4 * n : Nat)) 4 = .ok ps →
      (u.constants it)[n]? = some (BitVec.ofNat 32 (leNat (s.gather ps)))) ∧
    (it.lr.paramlen < 4 * n + 4 → (u.constants it)[n]? = some 0) := by
  unfold State.constants
  rw [List.getElem?_map, List.getElem?_range hn, Option.map_some]
  refine ⟨fun ps hlen hport => ?_, fun hlen => by rw [if_pos hlen]⟩
  rw [if_neg (by omega), port_congr hm hc, hport]
  simp only [State.gather, hm]
theorem get?_range_map {α : Type} (F : Nat → α) (m n : Nat) : Map.get? ((List.range m).map fun t => (t, F t)) n = if n < m then some (F n) else none := by
  induction m with
  | zero => rfl
  | succ m ih =>
    have happ : ∀ (l : Sparse α) (k : Nat) (v : α), Map.get? (l ++ [(k, v)]) n = (Map.get? l n).or (if n = k then some v else none) := by
      intro l k v
      induction l with
      | nil => rfl
      | cons e l ih => obtain ⟨a, w⟩ := e; simp only [List.cons_append, Map.get?]; split <;> simp [ih]
    rw [List.range_succ, List.map_append, List.map_cons, List.map_nil, happ, ih]
    by_cases h1 : n < m
    · simp [h1, Nat.lt_succ_of_lt h1]
    · by_cases h2 : n = m
      · subst h2; simp
      · simp [h1, h2, show ¬ n < m + 1 by omega]

/-! ## The placement of a gang (R62, R70) -/

theorem roomForAll_fits (s : State) (l : List (Nat × Need)) (h : ∀ x ∈ l.map (·.1), s.fits x ((l.filter (·.1 == x)).map (·.2)) = true) :
    s.roomForAll l = some s := by
  have hfold : ∀ cs : List Nat, (∀ x ∈ cs, x ∈ l.map (·.1)) →
      cs.foldl (fun (acc : Option State) c => acc.bind (State.makeRoom c ((l.filter (·.1 == c)).map (·.2)) 32)) (some s) = some s := by
    intro cs
    induction cs with
    | nil => intro _; rfl
    | cons c cs ih =>
      intro hc
      have hroom : State.makeRoom c ((l.filter (·.1 == c)).map (·.2)) 32 s = some s := if_pos (h c (hc c (by simp)))
      rw [List.foldl_cons, Option.bind_some, hroom]
      exact ih fun x hx => hc x (by simp [hx])
  exact hfold _ fun x hx => List.mem_eraseDups.1 hx
/-- A gang of a launch whose cores have room starts there. -/
theorem gangPlace_eq (s : State) (it : Item) (c j : Nat) (cs : List Nat) (hit : s.item? it.id = some it) (hk : it.kind = .launch)
    (hdie : ∀ x ∈ c :: cs, x < 512 ∧ x / 64 = c / 64) (hlen : (c :: cs).length = it.lr.gang) (hmay : s.mayPlace it c = true)
    (hw : it.waits = []) (hf : s.edge.fatal = false) (hp : s.parked it = [])
    (hmiss : s.cpMiss it.ctx it.dead (if it.lr.paramlen = 0 then [] else probes .load it.lr.param (min 192 it.lr.paramlen)) = none)
    (hj : it.gangs.head? = some j)
    (hfit : ∀ x ∈ c :: cs, s.fits x ((((c :: cs).zip (s.nextNeeds it)).filter (·.1 == x)).map (·.2)) = true) :
    s.gangPlace it.id (c :: cs) = (((List.range it.lr.gang).zip (c :: cs)).foldl
      (fun (s' : State) e => s'.startGroup it s.next (it.lr.gang * j + e.1) e.2) s.fresh.2).modItem it.id fun i => { i with nextGang := i.nextGang + 1 } := by
  have hplacer : s.placer it c = c := if_neg fun h => by rw [hk] at h; cases h.1
  have hone : ((c :: cs).all fun x => decide (x < 512) && dieOf x == dieOf c) = true := by
    rw [List.all_eq_true]; intro x hx; obtain ⟨h1, h2⟩ := hdie x hx; simp [h1, dieOf, h2]
  have hfree : ((c :: cs).all fun x => s.fits x ((((c :: cs).zip (s.nextNeeds it)).filter (·.1 == x)).map (·.2))) = true :=
    List.all_eq_true.2 hfit
  have hroom : s.roomForAll ((c :: cs).zip (s.nextNeeds it)) = some s := roomForAll_fits s _ fun x hx => by
    obtain ⟨e, he, rfl⟩ := List.mem_map.1 hx
    exact hfit _ (List.of_mem_zip (by exact he)).1
  have htake : s.takeTask it it.core = s := if_pos (.inl (by rw [hk]; decide))
  unfold State.gangPlace
  rw [hit]
  dsimp only
  rw [if_neg (by simp only [hplacer, hone, hmay, hw, hf, hlen, List.isEmpty_nil]; simp), hp]
  dsimp only
  rw [if_neg (by simp only [hk, hfree]; simp), hmiss, hj, hroom]
  dsimp only
  rw [htake]
  rfl

theorem zip_range_getElem? (n k x : Nat) (l : List Nat) (h : l[k]? = some x) (hk : k < n) : ((List.range n).zip l)[k]? = some (k, x) := by
  rw [List.getElem?_zip_eq_some]; exact ⟨List.getElem?_range hk, h⟩

/-! ## Stealing (R227) -/

theorem get?_erase_distinct {α : Type} (m : Sparse α) (k : Nat) (hd : Distinct m) : Map.get? (Map.erase m k) k = none := by
  by_contra hsome
  obtain ⟨w, hw⟩ := Option.ne_none_iff_exists'.1 hsome
  exact ((mem_erase_distinct m k (k, w) hd).1 (mem_of_get? _ _ _ hw)).2 rfl
theorem getD_put_distinct {α : Type} [DecidableEq α] (d : α) (m : Sparse α) (k j : Nat) (v : α) (hd : Distinct m) :
    Map.getD (Map.put d m k v) d j = if j = k then v else Map.getD m d j := by
  unfold Map.put Map.getD
  by_cases hj : j = k
  · subst hj
    split
    · rename_i hv
      rw [get?_erase_distinct m j hd, if_pos rfl, hv]; rfl
    · rw [Map.get?_set_self, if_pos rfl]; rfl
  · rw [if_neg hj]
    split
    · rw [Map.get?_erase_of_ne m hj]
    · rw [Map.get?_set_of_ne m v hj]
theorem State.core_modCore (s : State) (c d : Nat) (f : Core → Core) (hd : Distinct s.cores) :
    (s.modCore c f).core d = if d = c then f (s.core c) else s.core d := by
  unfold State.core State.modCore
  exact getD_put_distinct {} s.cores c d _ hd
theorem State.item?_modItem (s : State) (i : Nat) (f : Item → Item) (it : Item) (h : s.item? i = some it) (hf : ∀ x, (f x).id = x.id) :
    (s.modItem i f).item? i = some (f it) := by
  unfold State.item? at *
  have hid : it.id = i := by simpa using List.find?_some h
  have hp : ((fun x : Item => x.id == i) ∘ fun x => if x.id = i then f x else x) = fun x => x.id == i := by
    funext x; simp only [Function.comp_def]; split <;> simp [hf]
  rw [State.modItem_items, List.find?_map, hp, h, Option.map_some, if_pos hid]
/-- A thief without work takes the oldest task of a victim. -/
theorem steal_eq (s : State) (thief victim x : Nat) (it : Item) (ht : thief < 512) (hdeq : (s.core thief).deque = [])
    (hsp : (s.core thief).spilled = []) (hret : (s.core thief).retired = false) (hno : ∀ y ∈ s.offersAt thief, s.placeOn y thief = none)
    (hv : victim ∈ s.victims thief) (htop : s.top victim = some (it.id, x)) (hit : s.item? it.id = some it) :
    s.steal thief victim = s.takeTask it thief := by
  have hany : ((s.offersAt thief).any fun x => (s.placeOn x thief).isSome) = false := by
    rw [List.any_eq_false]; intro y hy; simp [hno y hy]
  unfold State.steal
  dsimp only
  rw [if_neg (by simp [hdeq, hsp, hret, ht, hany, hv]), htop, Option.bind_some, hit]
/-- A task that is taken from a deque with nothing spilled. -/
theorem takeTask_eq (s : State) (it : Item) (taker : Nat) (hk : it.kind = .task) (hn : it.taken = false) (hd : Distinct s.cores)
    (hsp : (s.core it.core).spilled = []) : s.takeTask it taker =
      (s.modCore it.core fun C => { C with deque := C.deque.filter (·.1 != it.id), spilled := C.spilled.filter (·.1 != it.id) }).modItem it.id
        fun i => { i with inDeque := false, taken := true, core := taker } := by
  unfold State.takeTask
  rw [if_neg (by simp [hk, hn])]
  dsimp only
  unfold State.refill
  dsimp only
  rw [if_pos (.inr (by rw [State.core_modCore _ _ _ _ hd, if_pos rfl, hsp]; rfl))]

/-! ## The active set (R72) -/

theorem oldestPending_pending (s : State) (core h : Nat) (p : Group → Bool) (hp : s.oldestPending core p = some h) :
    ∃ H, (h, H) ∈ s.groups ∧ H.active = false := by
  unfold State.oldestPending at hp
  obtain ⟨y, hy, rfl⟩ := Option.map_eq_some_iff.1 hp
  have hmem := foldl_choice_mem _ (fun e : Nat × Group => (e.2.placed, e.1)) (fun m x => ?_) y _ none hy
  · rcases hmem with hn | ⟨e, he, rfl⟩
    · cases hn
    · obtain ⟨h1, h2⟩ := List.mem_filter.1 he
      simp only [Bool.and_eq_true, Bool.not_eq_true'] at h2
      exact ⟨e.2, h1, h2.1.1.2⟩
  · cases m with
    | none => exact .inr rfl
    | some z =>
      dsimp only
      split
      · exact .inr rfl
      · exact .inl rfl
/-- A thread that waits on what is predicted to be long, whatever its accesses are (R28, R72, log 73). -/
theorem waitsLong_of (s : State) (g : Nat) (G : Group) (t : Nat) (T : Thread) (h : match T.wait with
      | .on (.counters _ _ cp tl) _ _ => cp < T.cp ∨ tl < T.tl
      | .on (.fence _) _ _ => 0 < T.tl
      | .on (.image _) _ _ => False
      | .on .. => True
      | _ => False) : s.waitsLong g G t T = true := by
  unfold State.waitsLong
  cases hw : T.wait with
  | ready => rw [hw] at h; exact h.elim
  | passed => rw [hw] at h; exact h.elim
  | on c since arrival =>
    rw [hw] at h
    cases c with
    | counters l st cp tl => simp only [Bool.or_eq_true, decide_eq_true_eq]; exact .inl h
    | fence scope => simp only [Bool.or_eq_true, decide_eq_true_eq]; exact .inr h
    | image order => exact h.elim
    | _ => rfl
theorem trade_eq (s : State) (g h : Nat) (G : Group) (hG : s.group? g = some G) (ha : G.active = true)
    (hl : ∀ e ∈ G.live, s.waitsLong g G e.1 e.2 = true) (hp : s.oldestPending G.core (fun x => x.live.any (·.2.able)) = some h) :
    s.trade g = (s.modG g fun G => { G with active := false }).activate h := by
  have hall : (G.live.all fun e => s.waitsLong g G e.1 e.2) = true := List.all_eq_true.2 hl
  unfold State.trade
  rw [hG]
  dsimp only
  rw [if_neg (by rw [ha, hall]; decide), hp]

/-! ## Starvation (R55) -/

theorem Group.starving_of (G : Group) (k : Nat) (T : Thread) (now : Nat) (hw : T.wait = .ready ∨ T.wait = .passed) (hr : T.ready = true)
    (hfair : bitN G.sched.toNat 17 = 1) (hi : T.lastIssue + bitsN G.sched.toNat 16 0 ≤ now)
    (hx : ∃ e ∈ G.threads, e.1 ≠ k ∧ e.2.warp = T.warp ∧ now < e.2.lastIssue + bitsN G.sched.toNat 16 0) : G.starving k T now = true := by
  have hable : T.able = true := by unfold Thread.able; rcases hw with h | h <;> rw [h]
  have hothers : G.othersIssued k T G.fint now = true := by
    unfold Group.othersIssued
    rw [List.any_eq_true]
    obtain ⟨e, he, h1, h2, h3⟩ := hx
    exact ⟨e, he, by simp [h1, h2, Group.fint, h3]⟩
  unfold Group.starving Group.fair Group.fint at *
  simp [hable, hr, hfair, hi, hothers]
theorem starve_eq (s : State) (g k : Nat) (G : Group) (T : Thread) (hG : s.group? g = some G) (hT : s.thread? g k = some T)
    (h : G.starving k T s.clock = true) : s.starve g k = s.modT g k fun T => { T with starved := true } := by
  unfold State.starve
  rw [hG, hT]
  exact if_pos h

end Sys2Proof.Machine
end

section
/-! SUPPORT. A write of the device on the lines of a saved region (R73, R80): what it leaves as it was. -/

namespace Sys2Proof.Machine

/-- A group but for its threads and its hitch slots. -/
def Group.shell (G : Group) : Group := { G with threads := [], slots := [] }
theorem Group.with_of_shell {G H : Group} (h : H.shell = G.shell) : ({ H with threads := G.threads, slots := G.slots } : Group) = G := by
  have := congrArg (fun x : Group => ({ x with threads := G.threads, slots := G.slots } : Group)) h
  exact this
/-- What follows on the lines of a write leaves everything but pushes, waits that end, timestamps and snoops. -/
structure Rippled (s t : State) : Prop where
  rest : ({ t with groups := s.groups, queues := s.queues, mem := s.mem, port := s.port, cores := s.cores, free := s.free } : State) = s
  groups : ∀ g, (t.group? g).map Group.shell = (s.group? g).map Group.shell
  threads : ThreadsStay s t
  table : t.port.table = s.port.table
theorem Rippled.refl (s : State) : Rippled s s := ⟨rfl, fun _ => rfl, fun _ _ => rfl, rfl⟩
theorem Rippled.trans {s t u : State} (h : Rippled s t) (k : Rippled t u) : Rippled s u where
  rest := (congrArg (fun (x : State) =>
    ({ x with groups := s.groups, queues := s.queues, mem := s.mem, port := s.port, cores := s.cores, free := s.free } : State)) k.rest).trans h.rest
  groups g := (k.groups g).trans (h.groups g)
  threads g n := (k.threads g n).trans (h.threads g n)
  table := k.table.trans h.table
theorem Rippled.group {s t : State} (h : Rippled s t) {g : Nat} {G : Group} (hG : s.group? g = some G) :
    ∃ G', t.group? g = some G' ∧ G'.shell = G.shell := by
  have := h.groups g
  rw [hG] at this
  exact Option.map_eq_some_iff.1 this
theorem Rippled.unspilled {s t : State} (h : Rippled s t) (hu : Unspilled s) : Unspilled t := by unfold Unspilled; rw [h.table]; exact hu
/-- A change of groups that keeps their shells and their threads but for waits. -/
theorem rippled_mapGroups (s : State) (F : Nat × Group → Nat × Group) (hF : ∀ e, (F e).1 = e.1) (hs : ∀ e, (F e).2.shell = e.2.shell)
    (ht : ∀ e n, (Map.get? (F e).2.threads n).map Thread.still = (Map.get? e.2.threads n).map Thread.still) :
    Rippled s { s with groups := s.groups.map F } := by
  have hg : ∀ g, ({ s with groups := s.groups.map F } : State).group? g = (s.group? g).map fun G => (F (g, G)).2 :=
    Map.get?_map s.groups F hF
  refine ⟨rfl, fun g => ?_, fun g n => ?_, rfl⟩
  · rw [hg]; cases s.group? g with
    | none => rfl
    | some G => exact congrArg some (hs (g, G))
  · unfold State.thread?; rw [hg]; cases s.group? g with
    | none => rfl
    | some G => exact ht (g, G) n
theorem unspill_unspilled (s : State) (l : Nat) (h : Unspilled s) : s.unspill l = s := by
  have hnil : (s.port.table.filter fun e => e.line == l && e.spill.isSome) = [] :=
    List.filter_eq_nil_iff.2 fun e he => by simp [h e he]
  unfold State.unspill
  rw [hnil]; rfl
theorem pushLine_rippled (s : State) (l : Nat) (h : Unspilled s) : Rippled s (s.pushLine l) := by
  unfold State.pushLine
  split
  next => exact Rippled.refl s
  next q _ =>
    rw [unspill_unspilled s l h]
    exact Rippled.trans (rippled_mapGroups s
      (fun e => (e.1, e.2.modSlots fun x => if x.line = l then x.push (memBytes s.mem (64 * l) 64) ((q + 1) % 2 ^ 32) else x))
      (fun _ => rfl) (fun _ => rfl) fun _ _ => rfl) ⟨rfl, fun _ => rfl, fun _ _ => rfl, rfl⟩
theorem Thread.lineWritten_still (T : Thread) (l : Nat) : (T.lineWritten l).still = T.still := by
  unfold Thread.lineWritten
  split
  · split <;> rfl
  · rfl
theorem modThreads_rippled (s : State) (f : Thread → Thread) (hf : ∀ T, (f T).still = T.still) : Rippled s (s.modThreads f) :=
  rippled_mapGroups s (fun e => (e.1, { e.2 with threads := e.2.threads.map fun x => (x.1, f x.2) })) (fun _ => rfl) (fun _ => rfl) fun e n => by
    dsimp only
    rw [Map.get?_map e.2.threads (fun x => (x.1, f x.2)) fun _ => rfl]
    cases Map.get? e.2.threads n with
    | none => rfl
    | some T => exact congrArg some (hf T)
theorem modPort_rippled (s : State) (f : Port → Port) (hf : (f s.port).table = s.port.table) : Rippled s (s.modPort f) :=
  ⟨rfl, fun _ => rfl, fun _ _ => rfl, hf⟩
theorem raisePts_rippled (s : State) (c t : Nat) : Rippled s (s.raisePts c t) := ⟨rfl, fun _ => rfl, fun _ _ => rfl, rfl⟩
theorem homeWrite_rippled (s : State) (w : Writer) (pts l : Nat) : Rippled s (s.homeWrite w pts l) :=
  modPort_rippled s _ (by dsimp only; split <;> rfl)
theorem lineWritten_rippled (s : State) (w : Writer) (l : Nat) (h : Unspilled s) : Rippled s (s.lineWritten w l) := by
  have hpush : Rippled s ((if w.quiet then s else s.pushLine l).modThreads (·.lineWritten l)) := by
    refine Rippled.trans ?_ (modThreads_rippled _ _ fun T => T.lineWritten_still l)
    split
    · exact Rippled.refl s
    · exact pushLine_rippled s l h
  unfold State.lineWritten
  dsimp only
  split
  · exact (hpush.trans (homeWrite_rippled _ _ _ _)).trans (raisePts_rippled _ _ _)
  · exact hpush.trans (homeWrite_rippled _ _ _ _)
theorem checkAll_inside (s : State) (ps : List Nat) (h : ∀ p ∈ ps, p < memSize) : s.checkAll ps = s := by
  have hnone : ps.find? (fun p => decide (memSize ≤ p)) = none :=
    List.find?_eq_none.2 fun p hp => by have := h p hp; simp only [decide_eq_true_eq]; omega
  unfold State.checkAll
  rw [hnone]
theorem writeEvent_rippled (s : State) (w : Writer) (cells : List (Nat × Byte)) (hin : ∀ e ∈ cells, e.1 < memSize) (h : Unspilled s) :
    Rippled s (s.writeEvent w cells) := by
  have hfold : ∀ (l : List Nat) (s : State), Unspilled s → Rippled s (l.foldl (fun (s : State) l => s.lineWritten w l) s) := by
    intro l
    induction l with
    | nil => exact fun s _ => Rippled.refl s
    | cons x l ih =>
      intro s h
      have h1 := lineWritten_rippled s w x h
      exact h1.trans (ih _ (h1.unspilled h))
  unfold State.writeEvent
  dsimp only
  rw [checkAll_inside s _ fun p hp => by obtain ⟨e, he, rfl⟩ := List.mem_map.1 hp; exact hin e he]
  exact Rippled.trans (t := ({ s with mem := memScatter s.mem cells } : State).modPort _) ⟨rfl, fun _ => rfl, fun _ _ => rfl, rfl⟩ (hfold _ _ h)
theorem scribble_rippled (s : State) (ctx n : Nat) (a : Addr) (hin : ∀ ps, s.port_ ctx [] .store a n = .ok ps → ∀ p ∈ ps, p < memSize)
    (h : Unspilled s) : Rippled s (s.scribble ctx a n) := by
  unfold State.scribble
  split
  next ps hps =>
    refine Rippled.trans (t := { s with free := s.free + 1 }) ⟨rfl, fun _ => rfl, fun _ _ => rfl, rfl⟩
      (writeEvent_rippled _ _ _ (fun e he => hin ps hps e.1 (List.of_mem_zip (by exact he)).1) h)
  next => exact Rippled.refl s

/-! ## Re-queueing (R73) -/

theorem save_eq (s : State) (g o : Nat) (res : Residency) (G : Group) (C : Ctx) (hG : s.group? g = some G) (hC : s.ctx? G.ctx = some C)
    (hb : C.svbase ≠ 0) (hfit : C.saveUsed + G.saveBytes ≤ C.svsize) (hp : s.savePlace G.ctx C.svsize G.saveBytes = some o)
    (hok : s.devOk G.ctx .store (addOff C.svbase (o : Nat)) G.saveBytes = true) :
    s.save g res = some (((s.scribble G.ctx (addOff C.svbase (o : Nat)) G.saveBytes).modCtx G.ctx fun c => { c with saveUsed := c.saveUsed + G.saveBytes }).modG g
      fun G => { G with res := res, saveAt := o, active := false }) := by
  unfold State.save
  rw [hG, Option.bind_some, hC, Option.bind_some, hp, Option.bind_some]
  dsimp only
  rw [if_neg]
  rintro (h | h | h)
  · exact hb h
  · omega
  · exact h hok
theorem requeueGang_eq (s u : State) (g : Nat) (G : Group) (hG : s.group? g = some G) (hm : s.gangMembers G.gang = [(g, G)])
    (hsw : s.swappable g G = true) (hl : G.live ≠ []) (hr : s.runs G.ctx = true) (hs : s.save g .requeued = some u) :
    s.requeueGang g = { u with leaves := u.leaves.filter (·.grp != g) }.modG g fun G => { G with leases := [] } := by
  unfold State.requeueGang
  rw [hG]
  dsimp only
  rw [hm, if_neg (by simp [hsw, hl, hr])]
  simp only [List.foldl_cons, List.foldl_nil, Option.bind_some, hs]

end Sys2Proof.Machine
end

section
/-! SUPPORT. What the steps of the dispatcher end in: O50. -/

namespace Sys2Proof.Machine

/-! ## What the new groups hold -/

theorem newGroup_thread (u : State) (it : Item) (gang gidx core n : Nat) : Map.get? (u.newGroup it gang gidx core).threads n =
    if n < it.lr.gsize then some { lane := n % 32, slot := (u.freeSlots core (it.lr.gsize / 32)).getD (n / 32) 0, warp := n / 32, pc := it.lr.entry,
                                   readySince := u.clock, lastIssue := u.clock } else none :=
  get?_range_map _ _ n
theorem State.core_takeTask (s : State) (it : Item) (taker : Nat) (hk : it.kind = .task) (hn : it.taken = false) (hd : Distinct s.cores)
    (hsp : (s.core it.core).spilled = []) : ((s.takeTask it taker).core it.core).deque = (s.core it.core).deque.filter (·.1 != it.id) := by
  rw [takeTask_eq s it taker hk hn hd hsp]
  have h := State.core_modCore s it.core it.core
    (fun C => { C with deque := C.deque.filter (·.1 != it.id), spilled := C.spilled.filter (·.1 != it.id) }) hd
  rw [if_pos rfl] at h
  exact congrArg Core.deque h
/-- The end of a re-queueing, after the saved region of n bytes of a context was written (R73). -/
def State.requeued (t : State) (g o ctx n : Nat) : State :=
  let u := (t.modCtx ctx fun c => { c with saveUsed := c.saveUsed + n }).modG g fun G => { G with res := .requeued, saveAt := o, active := false }
  { u with leaves := u.leaves.filter (·.grp != g) }.modG g fun G => { G with leases := [] }
/-- A group of the dispatcher's, no longer on a core (R73). -/
def Group.requeued (G : Group) (o : Nat) : Group := { G with res := .requeued, saveAt := o, active := false, leases := [] }
theorem State.requeued_group? (t : State) (g o ctx n k : Nat) :
    (t.requeued g o ctx n).group? k = if k = g then (t.group? g).map (·.requeued o) else t.group? k := by
  refine (Map.get?_modify _ g k _).trans ?_
  have h : ∀ k, Map.get? (Map.modify t.groups g fun G => { G with res := .requeued, saveAt := o, active := false }) k = _ :=
    fun k => Map.get?_modify t.groups g k _
  by_cases hk : k = g
  · rw [if_pos hk, if_pos hk]
    refine (congrArg (Option.map _) ((h g).trans (if_pos rfl))).trans ?_
    rw [Option.map_map]; rfl
  · rw [if_neg hk, if_neg hk]
    exact (h k).trans (if_neg hk)
/-- What a group keeps of its threads when it is changed apart from them. -/
theorem threadsStay_of_group (s t : State) (g : Nat) (f : Group → Group) (hf : ∀ G, (f G).threads = G.threads)
    (h : ∀ k, t.group? k = if k = g then (s.group? g).map f else s.group? k) : ∀ k n, t.thread? k n = s.thread? k n := by
  intro k n
  unfold State.thread?
  rw [h]
  by_cases hk : k = g
  · subst hk; rw [if_pos rfl]; cases s.group? k with
    | none => rfl
    | some G => simp only [Option.map_some, Option.bind_some, hf]
  · rw [if_neg hk]

/-- Settles O50: each of the dispatcher's steps is computed once (`gangPlace_eq`, `takeTask_eq`, `trade_eq`, `requeueGang_eq`, `starve_eq`);
the groups of a gang start by induction along its cores, and the save of a gang only ripples through the lines it writes. -/
theorem groupsArePlaced : Obligations.GroupsArePlaced := by
  intro s habs
  refine ⟨?_, ?_, ?_, ?_, ?_⟩
  · intro it c j cs hit hk hdie hlen hmay hw hf hp hmiss hj hfit
    have hplace := gangPlace_eq s it c j cs hit hk hdie hlen hmay hw hf hp hmiss hj hfit
    obtain ⟨hless, hgroups⟩ := startGroups_fold it s.next (it.lr.gang * j) ((List.range it.lr.gang).zip (c :: cs)) s.fresh.2
    have hpres : (s.gangPlace it.id (c :: cs)).absent = none := by
      rw [hplace]
      have := congrArg State.absent hless.rest
      exact this.trans habs
    refine ⟨s.gangPlace it.id (c :: cs), finish_of_present _ hpres, ?_⟩
    rw [hplace]
    refine ⟨?_, fun g hg => hless.older g (Nat.lt_succ_of_lt hg), fun k x hx => ?_⟩
    · have := congrArg State.mem hless.rest
      exact this
    · have hkg : k < it.lr.gang := hlen ▸ (List.getElem?_eq_some_iff.1 hx).1
      obtain ⟨u, G, hg, hG, hum, huc⟩ := hgroups k (k, x) (zip_range_getElem? _ k x _ hx hkg)
      have hof : ∀ {α : Type} (F : Group → α), (∀ G : Group, F { G with trace := none } = F G) →
          F G = F (u.newGroup it s.next (it.lr.gang * j + k) x) := fun F hF => (hF G).symm.trans (congrArg F hG)
      have hrank : (it.lr.gang * j + k) % it.lr.gang = k := by rw [Nat.mul_add_mod, Nat.mod_eq_of_lt hkg]
      have hks : G.ks = u.constants it := hof Group.ks fun _ => rfl
      have hthr : G.threads = (u.newGroup it s.next (it.lr.gang * j + k) x).threads := hof Group.threads fun _ => rfl
      refine ⟨G, hg, hof Group.ctx fun _ => rfl, hof Group.item fun _ => rfl, hof Group.gidx fun _ => rfl, (hof Group.grank fun _ => rfl).trans hrank,
        hof Group.gang fun _ => rfl, hof Group.core fun _ => rfl, hof Group.lsn fun _ => rfl, hof Group.active fun _ => rfl, hof Group.pad fun _ => rfl,
        hof Group.tiles fun _ => rfl, hof Group.accs fun _ => rfl, hof Group.tw fun _ => rfl, hof Group.fstat fun _ => rfl, hof Group.part fun _ => rfl,
        hof Group.tagsLow fun _ => rfl, hof Group.sched fun _ => rfl, fun n ps hn hl hport => ?_, fun n hn hl => ?_, fun n hn => ?_, fun n hn => ?_⟩
      · rw [hks]; exact (constants_get s u it n hum huc hn).1 ps hl hport
      · rw [hks]; exact (constants_get s u it n hum huc hn).2 hl
      · rw [hthr, newGroup_thread, if_neg (by omega)]
      · rw [hthr, newGroup_thread, if_pos hn]
        exact ⟨_, rfl, rfl, rfl, rfl, rfl, rfl, rfl, rfl, rfl, rfl, rfl, rfl, rfl⟩
  · intro thief victim x it ht hdeq hsp hret hno hv htop hit hk hn hcore hvsp hd
    subst hcore
    have hst := steal_eq s thief it.core x it ht hdeq hsp hret hno hv htop hit
    have htk := takeTask_eq s it thief hk hn hd hvsp
    refine ⟨s.steal thief it.core, finish_of_present _ (by rw [hst, htk]; exact habs), ?_⟩
    rw [hst]
    refine ⟨?_, State.core_takeTask s it thief hk hn hd hvsp, by rw [htk]; rfl⟩
    rw [htk]
    exact State.item?_modItem _ it.id _ it hit fun _ => rfl
  · intro g h G H hd hG ha hl hp hH
    have hne : h ≠ g := by
      rintro rfl
      obtain ⟨H', hmem, hH'⟩ := oldestPending_pending s _ _ _ hp
      have := (mem_get?_of_distinct _ _ _ hd hmem).symm.trans hG
      cases this
      rw [ha] at hH'; cases hH'
    have htr := trade_eq s g h G hG ha (fun e he => waitsLong_of s g G e.1 e.2 (hl e he)) hp
    refine ⟨s.trade g, finish_of_present _ (by rw [htr]; exact habs), ?_⟩
    rw [htr]
    unfold State.activate
    refine ⟨?_, ?_, fun k hkg hkh => ?_, rfl⟩
    · rw [State.group?_modG, if_neg hne.symm, State.group?_modG, if_pos rfl, hG]; rfl
    · rw [State.group?_modG, if_pos rfl, State.group?_modG, if_neg hne, hH]; rfl
    · rw [State.group?_modG, if_neg hkh, State.group?_modG, if_neg hkg]
  · intro g o G C hG hm hsw hl hr hC hb hfit hp hok hin hu
    have hrip := scribble_rippled s G.ctx G.saveBytes (addOff C.svbase (o : Nat)) hin hu
    have hrq : _ = State.requeued _ g o G.ctx G.saveBytes := requeueGang_eq s _ g G hG hm hsw hl hr (save_eq s g o .requeued G C hG hC hb hfit hp hok)
    generalize s.scribble G.ctx (addOff C.svbase (o : Nat)) G.saveBytes = t at hrip hrq
    obtain ⟨G', hG', hshell⟩ := hrip.group hG
    have hpres : t.absent = none := by
      have := congrArg State.absent hrip.rest
      exact this.trans habs
    refine ⟨s.requeueGang g, finish_of_present _ (by rw [hrq]; exact hpres), ?_⟩
    rw [hrq]
    have hgrp := fun k => State.requeued_group? t g o G.ctx G.saveBytes k
    refine ⟨fun h k => ?_, ?_, fun k H hk hH => ?_, ?_, ?_, fun q hq => ?_⟩
    · exact (congrArg (Option.map Thread.still) (threadsStay_of_group t _ g (·.requeued o) (fun _ => rfl) hgrp h k)).trans (hrip.threads h k)
    · refine ⟨_, ((hgrp g).trans (if_pos rfl)).trans (congrArg (Option.map _) hG'), ?_⟩
      have := congrArg (fun x : Group => x.requeued o) (Group.with_of_shell hshell)
      exact this
    · obtain ⟨H', hH', hsh⟩ := hrip.group hH
      exact ⟨H', ((hgrp k).trans (if_neg hk)).trans hH', Group.with_of_shell hsh⟩
    · have hctx : t.ctx? G.ctx = some C := (congrArg (fun (x : State) => x.ctx? G.ctx) hrip.rest).trans hC
      refine (Map.get?_modify t.ctxs G.ctx G.ctx _).trans ?_
      rw [if_pos rfl]
      exact congrArg (Option.map _) hctx
    · have := congrArg State.items hrip.rest
      exact this
    · have := (List.mem_filter.1 hq).2
      simpa using this
  · intro g k G T hG hT hw hr fint hfair hi hx
    have hst := starve_eq s g k G T hG hT (G.starving_of k T s.clock hw hr hfair hi hx)
    refine ⟨s.starve g k, finish_of_present _ (by rw [hst]; exact habs), ?_⟩
    rw [hst]
    refine ⟨?_, fun h n hne => ?_, rfl⟩
    · rw [State.thread?_modT, if_pos ⟨rfl, rfl⟩, hT]; rfl
    · rw [State.thread?_modT, if_neg fun h => hne (Prod.ext h.1 h.2)]

end Sys2Proof.Machine
end

section
/-! SUPPORT. Traps that the device delivers by itself to threads of one warp (R433): the watchdog (R440), the join deadlock (R442, R443) and
the time-out of leave (R501); O51. -/

namespace Sys2Proof.Machine

/-! ## One delivery to threads of one warp -/

/-- What a change of some threads of a group leaves: f was applied to the threads of l. -/
structure Brushed (s t : State) (g : Nat) (G : Group) (l : Sparse Thread) (f : Thread → Thread) : Prop where
  group : ∃ G', t.group? g = some G' ∧ ({ G' with threads := G.threads } : Group) = G
  mine : ∀ k T, Map.get? G.threads k = some T → t.thread? g k = some (if (k, T) ∈ l then f T else T)
  others : ∀ h k, h ≠ g → t.thread? h k = s.thread? h k
  clock : t.clock = s.clock
/-- Threads of a group as references, each after f. -/
def refsOf (g : Nat) (G : Group) (f : Thread → Thread) (l : Sparse Thread) : List Ref := l.map fun e => ⟨g, e.1, G, f e.2⟩
theorem Calm.get {G : Group} {w : Nat} {l : Sparse Thread} (h : Calm G w l) (e : Nat × Thread) (he : e ∈ l) : Map.get? G.threads e.1 = some e.2 :=
  mem_get?_of_distinct G.threads e.1 e.2 h.distinct (h.mine.1.subset he)
theorem mates_refsOf (g w : Nat) (G H : Group) (f : Thread → Thread) (l : Sparse Thread) (hc : Calm G w l) (hf : ∀ T, (f T).warp = T.warp)
    (r : Ref) (hr : r ∈ refsOf g H f l) : mates (refsOf g H f l) r = refsOf g H f l := by
  have hw : ∀ q ∈ refsOf g H f l, q.g = g ∧ q.T.warp = w := fun q hq => by
    obtain ⟨e, he, rfl⟩ := List.mem_map.1 hq
    exact ⟨rfl, (hf e.2).trans (hc.mine.2 e he).1⟩
  exact List.filter_eq_self.2 fun q hq => by simp [hw q hq, hw r hr]
/-- What a brush keeps of a thread, for the entry of its handler. -/
structure Keeps (f : Thread → Thread) (x : Thread → Trap) : Prop where
  warp : ∀ T, (f T).warp = T.warp
  hmode : ∀ T, (f T).hmode = T.hmode
  lane : ∀ T, (f T).lane = T.lane
  pc : ∀ T, (f T).pc = T.pc
  trap : ∀ T, x (f T) = x T
  entered : ∀ T y back h lanes now, (f T).entered y back h lanes now = T.entered y back h lanes now
/-- Traps of calm threads of one warp enter their handlers as one delivery, whatever of the threads the entry sets anew was changed before it. -/
theorem deliver_struck (s t : State) (g w : Nat) (G : Group) (l : Sparse Thread) (x : Thread → Trap) (f : Thread → Thread) (hc : Calm G w l)
    (hb : Brushed s t g G l f) (hx : ∀ T, (x T).cause ≠ 0x20) (hf : Keeps f x) :
    Struck s (t.deliver (l.map fun e => (g, e.1, x e.2))) g G l x ∧
      ({ t.deliver (l.map fun e => (g, e.1, x e.2)) with groups := t.groups } : State) = t := by
  obtain ⟨G', hG', hframe⟩ := hb.group
  have hrs : l.map (fun e => (g, e.1, x e.2)) = (refsOf g G' f l).map fun r => (r.g, r.t, x r.T) := by
    unfold refsOf; rw [List.map_map]; exact List.map_congr_left fun e _ => by simp [hf.trap]
  have hfield : ∀ {α : Type} (F : Group → α), (∀ G T, F { G with threads := T } = F G) → F G' = F G := fun F hF =>
    (hF G' G.threads).symm.trans (congrArg F hframe)
  have hent := deliver_enters t (refsOf g G' f l) (fun r => x r.T)
    (fun r hr => by
      obtain ⟨e, he, rfl⟩ := List.mem_map.1 hr
      exact ⟨⟨G', hG', rfl⟩, by have := hb.mine e.1 e.2 (hc.get e he); rwa [if_pos he] at this⟩)
    (by
      have hk : (l.map (·.1)).Nodup := hc.distinct.sublist (hc.mine.1.map _)
      unfold refsOf; rw [List.map_map]
      have := hk.map (f := fun k => (g, k)) fun a b h => (Prod.ext_iff.1 h).2
      rwa [List.map_map] at this)
    (fun r hr => by
      obtain ⟨e, he, rfl⟩ := List.mem_map.1 hr
      obtain ⟨hw, hm⟩ := hc.mine.2 e he
      have ho : G'.open_ = G.open_ := hfield Group.open_ fun _ _ => rfl
      have hh : G'.heldDel = G.heldDel := hfield Group.heldDel fun _ _ => rfl
      have hn : G'.handler = G.handler := hfield Group.handler fun _ _ => rfl
      have hlr : G'.lr = G.lr := hfield Group.lr fun _ _ => rfl
      refine ⟨(hf.hmode _).trans hm, by rw [hn, hlr]; exact hc.handler, ?_, ?_⟩
      · rw [ho, hf.warp, hw]; exact hc.free.1
      · rw [hh, hf.warp, hw]; exact hc.free.2)
    fun r _ => hx r.T
  rw [hrs]
  refine ⟨⟨fun k T hT => ?_, fun h k hne => ?_⟩, hent.rest⟩
  · by_cases hl : (k, T) ∈ l
    · have hr : (⟨g, k, G', f T⟩ : Ref) ∈ refsOf g G' f l := List.mem_map.2 ⟨(k, T), hl, rfl⟩
      have hn : G'.handler = G.handler := hfield Group.handler fun _ _ => rfl
      have hlr : G'.lr = G.lr := hfield Group.lr fun _ _ => rfl
      have := hent.threads _ hr
      rw [mates_refsOf g w G G' f l hc hf.warp _ hr, hb.mine k T hT, if_pos hl, Option.map_some, hf.entered, hb.clock] at this
      dsimp only at this
      rw [this, if_pos hl, hn, hlr, hf.pc, hf.trap]
      simp only [refsOf, List.foldl_map, hf.lane]
    · rw [if_neg hl]
      refine (hent.others g k fun r hr => ?_).trans ((hb.mine k T hT).trans (by rw [if_neg hl]))
      rintro ⟨_, hk⟩
      obtain ⟨e, he, rfl⟩ := List.mem_map.1 hr
      dsimp only at hk
      have : e.2 = T := Option.some.inj ((hc.get e he).symm.trans (hk ▸ hT))
      exact hl (hk ▸ this ▸ he)
  · refine (hent.others h k fun r hr => ?_).trans (hb.others h k hne)
    rintro ⟨hg, _⟩
    obtain ⟨e, he, rfl⟩ := List.mem_map.1 hr
    exact hne hg.symm

end Sys2Proof.Machine
end

section
/-! SUPPORT. The watchdog, the join deadlock, and leave that is not granted in time (R440 to R443, R501): O51. -/

namespace Sys2Proof.Machine

theorem foldl_modT_frame (f : State → Thread → Thread) (g : Nat) (ks : List Nat) : ∀ s : State,
    ({ ks.foldl (fun (s : State) k => s.modT g k (f s)) s with groups := s.groups } : State) = s := by
  induction ks with
  | nil => intro s; rfl
  | cons k ks ih =>
    intro s
    have h := congrArg (fun (x : State) => ({ x with groups := s.groups } : State)) (ih (s.modT g k (f s)))
    exact h
theorem foldl_modT_group (f : State → Thread → Thread) (g : Nat) (ks : List Nat) (G : Group) : ∀ (s : State) (G0 : Group), s.group? g = some G0 →
    ({ G0 with threads := G.threads } : Group) = G →
    ∃ G', (ks.foldl (fun (s : State) k => s.modT g k (f s)) s).group? g = some G' ∧ ({ G' with threads := G.threads } : Group) = G := by
  induction ks with
  | nil => exact fun s G0 hG h => ⟨G0, hG, h⟩
  | cons k ks ih =>
    intro s G0 hG h
    refine ih (s.modT g k (f s)) (G0.modT k (f s)) ?_ h
    unfold State.modT
    rw [State.group?_modG, if_pos rfl, hG]; rfl
theorem foldl_modT_others (f : State → Thread → Thread) (g : Nat) (ks : List Nat) (h k : Nat) (hne : h ≠ g) : ∀ s : State,
    (ks.foldl (fun (s : State) k => s.modT g k (f s)) s).thread? h k = s.thread? h k := by
  induction ks with
  | nil => intro s; rfl
  | cons a ks ih =>
    intro s
    rw [List.foldl_cons, ih, State.thread?_modT, if_neg fun e => hne e.1]
theorem foldl_modT_brushed (f : State → Thread → Thread) (hf : ∀ (s t : State) T, s.clock = t.clock → f s T = f t T) (s : State) (g w : Nat)
    (G : Group) (l : Sparse Thread) (hG : s.group? g = some G) (hc : Calm G w l) :
    Brushed s ((l.map (·.1)).foldl (fun (s : State) k => s.modT g k (f s)) s) g G l (f s) where
  group := foldl_modT_group f g _ G s G hG rfl
  mine k T hT := by
    rw [foldl_modT_thread f hf g _ k s (hc.distinct.sublist (hc.mine.1.map _))]
    have hthr : s.thread? g k = some T := by unfold State.thread?; rw [hG]; exact hT
    rw [hthr]
    by_cases hl : (k, T) ∈ l
    · rw [if_pos hl, if_pos (List.mem_map.2 ⟨_, hl, rfl⟩)]; rfl
    · rw [if_neg hl, if_neg]
      intro hk
      obtain ⟨e, he, rfl⟩ := List.mem_map.1 hk
      exact hl (Option.some.inj ((hc.get e he).symm.trans hT) ▸ he)
  others h k hne := foldl_modT_others f g _ h k hne s
  clock := by have := congrArg State.clock (foldl_modT_frame f g (l.map (·.1)) s); exact this
theorem Brushed.refl (s : State) (g : Nat) (G : Group) (l : Sparse Thread) (hG : s.group? g = some G) : Brushed s s g G l id :=
  ⟨⟨G, hG, rfl⟩, fun k T hT => by unfold State.thread?; rw [hG]; simpa using hT, fun _ _ _ => rfl, rfl⟩

/-! ## The watchdog (R440) -/

theorem stalledThreads_eq (s : State) (G : Group) (w : Nat) (hfair : bitN G.sched.toNat 17 = 0) (ha : G.active = true) (hres : G.res = .resident) :
    s.stalledThreads G w = (G.threads.filter fun e => decide (e.2.warp = w) && (decide (e.2.wait = .ready) || decide (e.2.wait = .passed)) && e.2.ready &&
      decide (2 ^ bitsN G.sched.toNat 31 27 ≤ e.2.watched) &&
      G.threads.any fun x => decide (x.1 ≠ e.1 ∧ x.2.warp = e.2.warp ∧ s.clock < x.2.lastIssue + 2 ^ bitsN G.sched.toNat 31 27)).map (·.1) := by
  unfold State.stalledThreads Group.warpLive Group.live
  rw [if_neg (by simp [Group.fair, hfair, ha, hres]), List.filter_filter, List.filter_filter]
  congr 1
  refine List.filter_congr fun e _ => ?_
  rw [Bool.eq_iff_iff]
  unfold Group.othersIssued Group.wlog
  cases hw : e.2.wait <;> simp [Thread.able, hw, and_assoc, and_comm, and_left_comm]
theorem watchdog_struck (s : State) (g w : Nat) (G : Group) (l : Sparse Thread) (hG : s.group? g = some G) (hz : s.frozen G.ctx = false)
    (hs : s.stalledThreads G w = l.map (·.1)) (hc : Calm G w l) (hl : l ≠ []) :
    Struck s (s.watchdog g w) g G l (fun _ => { cause := 0x21, cls := 2 }) ∧ ({ s.watchdog g w with groups := s.groups } : State) = s := by
  have hne : ¬ (l.map (·.1) = [] ∨ s.frozen G.ctx = true) := by simp [hl, hz]
  have hw : s.watchdog g w = ((l.map (·.1)).foldl (fun (s : State) t => s.modT g t fun T => { T with watched := 0 }) s).deliver
      (l.map fun e => (g, e.1, ({ cause := 0x21, cls := 2 } : Trap))) := by
    unfold State.watchdog State.deliverTo
    rw [hG]
    dsimp only
    rw [hs, if_neg hne, List.map_map]
    rfl
  have hb := foldl_modT_brushed (fun _ T => { T with watched := 0 }) (fun _ _ _ _ => rfl) s g w G l hG hc
  have hfr := foldl_modT_frame (fun _ T => { T with watched := 0 }) g (l.map (·.1)) s
  obtain ⟨h1, h2⟩ := deliver_struck s _ g w G l (fun _ => { cause := 0x21, cls := 2 }) _ hc hb (fun _ => by decide)
    ⟨fun _ => rfl, fun _ => rfl, fun _ => rfl, fun _ => rfl, fun _ => rfl, fun _ _ _ _ _ _ => rfl⟩
  rw [hw]
  exact ⟨h1, (congrArg (fun (x : State) => ({ x with groups := s.groups } : State)) h2).trans hfr⟩

/-! ## The join deadlock (R442, R443) -/

theorem foldl_max_le {α : Type} (f : α → Nat) (l : List α) (b : Nat) (h : ∀ e ∈ l, f e ≤ b) : ∀ a ≤ b, l.foldl (fun m e => max m (f e)) a ≤ b := by
  induction l with
  | nil => exact fun a ha => ha
  | cons e l ih => exact fun a ha => ih (fun x hx => h x (by simp [hx])) _ (Nat.max_le.2 ⟨ha, h e (by simp)⟩)
theorem deadlocked_of (s : State) (G : Group) (w : Nat) (hl : G.warpLive w ≠ []) (ha : G.active = true) (hres : G.res = .resident)
    (hwait : ∀ e ∈ G.warpLive w, e.2.pending = [] ∧ ∃ i x, e.2.joinWait = some (i, x) ∧ i + 1024 ≤ s.clock)
    (hsince : G.activeSince + 1024 ≤ s.clock) (hlast : ∀ i, Map.get? G.lastJoin w = some i → i + 1024 ≤ s.clock) : s.deadlocked G w = true := by
  have hle : (G.warpLive w).foldl (fun m e => max m (((e.2.joinWait).map (·.1)).getD 0)) (max G.activeSince ((Map.get? G.lastJoin w).getD 0)) ≤ s.clock - 1024 := by
    refine foldl_max_le _ _ _ (fun e he => ?_) _ (Nat.max_le.2 ⟨by omega, ?_⟩)
    · obtain ⟨_, i, x, hj, hi⟩ := hwait e he
      rw [hj, Option.map_some, Option.getD_some]; dsimp only; omega
    · cases hj : Map.get? G.lastJoin w with
      | none => exact Nat.zero_le _
      | some i => have := hlast i hj; rw [Option.getD_some]; omega
  have hall : ((G.warpLive w).all fun e => e.2.joinWait.isSome && !(e.2.pending.any (·.cause == 0x22))) = true := by
    rw [List.all_eq_true]; intro e he
    obtain ⟨hp, i, x, hj, _⟩ := hwait e he
    simp [hp, hj]
  unfold State.deadlocked
  dsimp only
  rw [hall, ha, hres]
  have : (G.warpLive w).isEmpty = false := by simpa using hl
  simp only [this, Bool.not_false, Bool.and_true]
  simp
  omega
theorem joinDead_struck (s : State) (g w : Nat) (G : Group) (x : Thread → Trap) (hG : s.group? g = some G) (hz : s.frozen G.ctx = false)
    (hd : s.deadlocked G w = true) (hc : Calm G w (G.warpLive w)) (hx : ∀ T, (x T).cause ≠ 0x20)
    (hxe : ∀ e ∈ G.warpLive w, x e.2 = { cause := 0x22, addr := ((e.2.joinWait).map (·.2)).getD 0, cls := 2 }) :
    Struck s (s.joinDead g w) g G (G.warpLive w) x ∧ ({ s.joinDead g w with groups := s.groups } : State) = s := by
  have hj : s.joinDead g w = s.deliver ((G.warpLive w).map fun e => (g, e.1, x e.2)) := by
    unfold State.joinDead
    rw [hG]
    dsimp only
    rw [if_neg (by simp [hd, hz])]
    exact congrArg s.deliver (List.map_congr_left fun e he => by rw [hxe e he])
  rw [hj]
  exact deliver_struck s s g w G _ x id hc (Brushed.refl s g G _ hG) hx ⟨fun _ => rfl, fun _ => rfl, fun _ => rfl, fun _ => rfl, fun _ => rfl, fun _ _ _ _ _ _ => rfl⟩

/-! ## The time-out of leave (R501) -/

/-- From s to t neither the edge, memory, contexts nor the clock changed: what the error log reads stands. -/
structure LogSame (s t : State) : Prop where
  rest : ({ t with groups := s.groups, leaves := s.leaves, accesses := s.accesses } : State) = s
theorem LogSame.eq {s t : State} (h : LogSame s t) : t = { s with groups := t.groups, leaves := t.leaves, accesses := t.accesses } := by
  have := congrArg (fun (x : State) => ({ x with groups := t.groups, leaves := t.leaves, accesses := t.accesses } : State)) h.rest
  exact this
theorem LogSame.logFits {s t : State} (h : LogSame s t) (hf : LogFits s) : LogFits t := by
  rw [h.eq]; exact ⟨hf.present, hf.fits, hf.canon, hf.count⟩
theorem LogSame.logged {s t u : State} (h : LogSame s t) (r : ErrRec) (hl : Logged t u r) : Logged s u r := by
  rw [h.eq] at hl
  exact ⟨hl.seq, hl.count, hl.msix, hl.place, hl.off⟩
theorem log_struck (s t : State) (g : Nat) (G : Group) (l : Sparse Thread) (x : Thread → Trap) (r : ErrRec) (h : Struck s t g G l x) :
    Struck s (t.log r) g G l x := by
  unfold Struck State.thread? State.group? at *
  rw [State.log_groups]; exact h
theorem leaveTimeout_struck (s : State) (g w level : Nat) (G : Group) (q : LeaveReq) (hG : s.group? g = some G) (hz : s.frozen G.ctx = false)
    (hq : s.leaves.find? (fun q => q.grp == g && q.level == level) = some q) (l : Sparse Thread) (hw : s.leaveWaiters q = l.map (·.1))
    (hdue : ¬ s.clock < q.since + (if s.oromelLeave G.ctx then 10 * tenMs else tenMs)) (hc : Calm G w l) :
    ∃ t, s.leaveTimeout g level = t.log { cls := 14, sev := 0, ctx := G.ctx } ∧ Struck s t g G l (fun _ => { cause := 0x23, arg := level, cls := 2 }) ∧
      ({ t with groups := s.groups, leaves := s.leaves } : State) = s ∧ t.leaves = s.leaves.erase q := by
  let u : State := { s with leaves := s.leaves.erase q }
  have hb := foldl_modT_brushed (fun (s : State) (T : Thread) => { T with wait := .ready, readySince := s.clock }) (fun s t T h => by rw [h]) u g w G l hG hc
  have hfr := foldl_modT_frame (fun (s : State) (T : Thread) => { T with wait := .ready, readySince := s.clock }) g (l.map (·.1)) u
  obtain ⟨h1, h2⟩ := deliver_struck u _ g w G l (fun _ => { cause := 0x23, arg := level, cls := 2 }) _ hc hb (fun _ h => by cases h)
    ⟨fun _ => rfl, fun _ => rfl, fun _ => rfl, fun _ => rfl, fun _ => rfl, fun _ _ _ _ _ _ => rfl⟩
  have h3 := (congrArg (fun (x : State) => ({ x with groups := s.groups } : State)) h2).trans hfr
  refine ⟨_, ?_, h1, congrArg (fun (x : State) => ({ x with leaves := s.leaves } : State)) h3, congrArg State.leaves h3⟩
  unfold State.leaveTimeout State.deliverTo
  rw [hG, hq]
  dsimp only
  rw [if_neg (by simp [hdue, hz]), hw, List.map_map]
  rfl

end Sys2Proof.Machine
end

section
/-! SUPPORT. A thread becomes a spawn record (R47, R48): O51. -/

namespace Sys2Proof.Machine

/-! ## A thread becomes a record (R47, R48) -/

theorem nextDelivery_unheld (s : State) (g w : Nat) (h : ∀ G, s.group? g = some G → G.heldDel = []) : s.nextDelivery g w = s := by
  unfold State.nextDelivery
  split
  · rfl
  next G hG =>
    rw [h G hG]
    split <;> rfl
/-- A group whose thread k left, without deliveries held, and left the record r. -/
def Group.spawned (G : Group) (k : Nat) (r : SpawnRec) : Group :=
  { G with threads := Map.erase G.threads k, recs := G.recs ++ [r],
           open_ := (G.open_.map fun d => { d with tids := d.tids.filter (· != k), undo := [] }).filter (·.tids != []), heldDel := [] }
theorem spawnRecord_leaves (s : State) (g k w : Nat) (G : Group) (r : SpawnRec) (hG : s.group? g = some G) (hd : G.heldDel = []) :
    let t := (s.modG g fun G => { G with threads := Map.erase G.threads k, recs := G.recs ++ [r] }).leaveDeliveries g k w
    (∀ h, t.group? h = if h = g then some (G.spawned k r) else s.group? h) ∧ ({ t with groups := s.groups } : State) = s := by
  intro t
  have hgrp : ∀ (f f' : Group → Group) h, ((s.modG g f).modG g f').group? h = if h = g then some (f' (f G)) else s.group? h := fun f f' h => by
    rw [State.group?_modG, State.group?_modG, State.group?_modG, if_pos rfl, hG]
    split <;> rfl
  have hnext : t = _ := nextDelivery_unheld _ g w fun H hH => by
    rw [hgrp, if_pos rfl, Option.some.injEq] at hH
    rw [← hH]; simp only [hd, List.map_nil, List.filter_nil]
  rw [hnext]
  refine ⟨fun h => ?_, rfl⟩
  rw [hgrp]
  simp only [hd, List.map_nil, List.filter_nil]
  rfl
theorem writeRecord_eq (s : State) (g k n i j : Nat) (G : Group) (T : Thread) (resume : Addr) (hG : s.group? g = some G) (hT : s.thread? g k = some T)
    (hw : T.wait = .on (.ended resume n none) i j) (hdone : T.within 0 0 0 0 = true) (hres : G.res = .resident) (hz : s.frozen G.ctx = false) :
    s.writeRecord g k = (s.modG g fun G => { G with threads := Map.erase G.threads k, recs := G.recs ++
      [{ pc := resume, since := s.clock, units := recUnits n, bytes := spawnBytes T k (s.gslot g) n resume, area := none, held := T.held }] }).leaveDeliveries g k T.warp := by
  unfold State.writeRecord
  rw [hG, hT]
  dsimp only
  rw [hw]
  dsimp only
  rw [if_neg (by simp [hdone, hres, hz])]
theorem flatMap_leBytes_length (f : Nat → Nat) (n : Nat) : ((List.range n).flatMap fun k => leBytes 4 (f k)).length = 4 * n := by
  induction n with
  | zero => rfl
  | succ n ih => rw [List.range_succ, List.flatMap_append, List.length_append, ih, List.flatMap_singleton, leBytes_length]; omega
theorem padTo_length (n : Nat) (l : List Byte) (h : l.length ≤ n) : (padTo n l).length = n := by
  unfold padTo; rw [List.length_append, List.length_replicate]; omega
/-- What a record keeps of a thread fits its units, and stands at its start. -/
theorem spawnBytes_keeps (T : Thread) (k gslot n : Nat) (pc : Addr) :
    let kept := leBytes 8 pc.toNat ++ leBytes 4 (k % 1024 + 2 ^ 10 * n + 2 ^ 17 * T.preds.toNat + 2 ^ 24 * gslot) ++ [0, 0, 0, 0] ++
      ((List.range n).flatMap fun v => leBytes 4 (T.v v)) ++ ((List.range (min n 16)).flatMap fun v => leBytes 4 (T.tag v))
    (spawnBytes T k gslot n pc).take kept.length = kept ∧ (spawnBytes T k gslot n pc).length = 16 * recUnits n := by
  intro kept
  have hb : spawnBytes T k gslot n pc = padTo (16 * recUnits n) kept := rfl
  have hlen : kept.length ≤ 16 * recUnits n := by
    simp only [kept, List.length_append, leBytes_length, flatMap_leBytes_length, List.length_cons, List.length_nil]
    unfold recUnits; omega
  rw [hb]
  exact ⟨List.take_left, padTo_length _ _ hlen⟩

end Sys2Proof.Machine
end

section
/-! SUPPORT. Records become threads, and the Splice former (R49 to R51): O51. -/

namespace Sys2Proof.Machine

/-! ## A record becomes a thread (R49, R50) -/

theorem leNat_lt (l : List Byte) : leNat l < 256 ^ l.length := by
  induction l with
  | nil => exact Nat.one_pos
  | cons b l ih =>
    have := b.isLt
    rw [leNat, List.length_cons, Nat.pow_succ]
    omega
theorem leNat_take4_lt (l : List Byte) : leNat (l.take 4) < 2 ^ 32 :=
  (leNat_lt _).trans_le ((Nat.pow_le_pow_right (by decide) (List.length_take_le 4 l)).trans (by decide))
theorem foldl_field {α β γ : Type} (F : β → γ) (f : β → α → β) (h : ∀ b a, F (f b a) = F b) (l : List α) : ∀ b, F (l.foldl f b) = F b := by
  induction l with
  | nil => exact fun _ => rfl
  | cons a l ih => exact fun b => (ih (f b a)).trans (h b a)
theorem Thread.v_setV (T : Thread) (n x v : Nat) (hT : Map.canon 0 T.regs = true) : (T.setV n x).v v = if v = n then x % 2 ^ 32 else T.v v := by
  have h := Map.getD_put (0 : BitVec 32) T.regs n v (BitVec.ofNat 32 x) hT
  refine (congrArg BitVec.toNat h).trans ?_
  split
  · rw [BitVec.toNat_ofNat]
  · rfl
theorem foldl_setV (f : Nat → Nat) (n : Nat) (T : Thread) (hT : Map.canon 0 T.regs = true) :
    let U := (List.range n).foldl (fun T k => T.setV k (f k)) T
    Map.canon 0 U.regs = true ∧ ∀ v, v < n → U.v v = f v % 2 ^ 32 := by
  induction n with
  | zero => exact ⟨hT, fun v hv => absurd hv (Nat.not_lt_zero v)⟩
  | succ n ih =>
    obtain ⟨hcanon, hv⟩ := ih
    rw [List.range_succ, List.foldl_append, List.foldl_cons, List.foldl_nil]
    refine ⟨Map.canon_put _ _ _ _ hcanon, fun v hlt => ?_⟩
    rw [Thread.v_setV _ _ _ _ hcanon]
    split
    next h => rw [h]
    next h => exact hv v (by omega)
/-- The four bytes at an offset of a record, as a number. -/
def SpawnRec.word (r : SpawnRec) (o : Nat) : Nat := leNat ((r.bytes.drop o).take 4)
theorem spawnThread_keeps (r : SpawnRec) (lane slot warp now : Nat) :
    let e := spawnThread r lane slot warp now
    e.1 = r.word 8 % 1024 ∧ e.2.lane = lane ∧ e.2.slot = slot ∧ e.2.warp = warp ∧ e.2.pc = r.pc ∧ e.2.wait = .ready ∧ e.2.held = r.held ∧
      e.2.preds.toNat = bitsN (r.word 8) 23 17 ∧ ∀ v, v < bitsN (r.word 8) 16 10 → e.2.v v = r.word (16 + 4 * v) := by
  intro e
  let T0 : Thread := { lane := lane, slot := slot, warp := warp, pc := r.pc, preds := BitVec.ofNat 7 (bitsN (r.word 8) 23 17),
                       held := r.held, readySince := now, lastIssue := now }
  let n := bitsN (r.word 8) 16 10
  let T1 := (List.range n).foldl (fun T k => T.setV k (r.word (16 + 4 * k))) T0
  have he : e = (r.word 8 % 1024, (List.range (min n 16)).foldl (fun T k => T.setTag k (r.word (16 + 4 * n + 4 * k))) T1) := rfl
  have htag : ∀ {α : Type} (F : Thread → α), (∀ T k x, F (T.setTag k x) = F T) → F e.2 = F T1 := fun F hF => by
    rw [he]; exact foldl_field F _ (fun T k => hF T k _) _ T1
  have hkeep : ∀ {α : Type} (F : Thread → α), (∀ T k x, F (T.setTag k x) = F T) → (∀ T k x, F (T.setV k x) = F T) → F e.2 = F T0 :=
    fun F h1 h2 => (htag F h1).trans (foldl_field F _ (fun T k => h2 T k _) _ T0)
  refine ⟨rfl, hkeep Thread.lane (fun _ _ _ => rfl) fun _ _ _ => rfl, hkeep Thread.slot (fun _ _ _ => rfl) fun _ _ _ => rfl,
    hkeep Thread.warp (fun _ _ _ => rfl) fun _ _ _ => rfl, hkeep Thread.pc (fun _ _ _ => rfl) fun _ _ _ => rfl,
    hkeep Thread.wait (fun _ _ _ => rfl) fun _ _ _ => rfl, hkeep Thread.held (fun _ _ _ => rfl) fun _ _ _ => rfl, ?_, fun v hv => ?_⟩
  · rw [hkeep (fun T => T.preds.toNat) (fun _ _ _ => rfl) fun _ _ _ => rfl, BitVec.toNat_ofNat]
    exact Nat.mod_eq_of_lt (by unfold bitsN; exact Nat.mod_lt _ (by decide))
  · rw [htag (fun T => T.v v) fun _ _ _ => rfl, (foldl_setV _ n T0 rfl).2 v hv]
    exact Nat.mod_eq_of_lt (leNat_take4_lt _)

/-! ## The Splice former (R50, R51) -/

theorem get?_foldl_set {α : Type} (l : List (Nat × α)) (k : Nat) (v : α) : ∀ m : Sparse α, (l.map (·.1)).Nodup → (k, v) ∈ l →
    Map.get? (l.foldl (fun m e => Map.set m e.1 e.2) m) k = some v := by
  induction l with
  | nil => exact fun _ _ h => by cases h
  | cons e l ih =>
    intro m hn hmem
    rw [List.map_cons, List.nodup_cons] at hn
    have hkeep : ∀ (l : List (Nat × α)) (m : Sparse α), k ∉ l.map (·.1) → Map.get? (l.foldl (fun m e => Map.set m e.1 e.2) m) k = Map.get? m k := by
      intro l
      induction l with
      | nil => exact fun _ _ => rfl
      | cons e l ih =>
        intro m hk
        rw [List.map_cons, List.mem_cons, not_or] at hk
        exact (ih _ hk.2).trans (Map.get?_set_of_ne m e.2 hk.1)
    rcases List.mem_cons.1 hmem with rfl | hmem
    · exact (hkeep l _ hn.1).trans (Map.get?_set_self m k v)
    · exact ih _ hn.2 hmem
theorem mem_foldl_set {α : Type} (l : List (Nat × α)) (x : Nat × α) : ∀ m : Sparse α, x ∈ l.foldl (fun m e => Map.set m e.1 e.2) m → x ∈ l ∨ x ∈ m := by
  induction l with
  | nil => exact fun _ h => .inr h
  | cons e l ih =>
    intro m h
    rcases ih _ h with h | h
    · exact .inl (List.mem_cons_of_mem _ h)
    · rcases Map.mem_set m e.1 e.2 x h with h | h
      · exact .inl (h ▸ List.mem_cons_self)
      · exact .inr h
/-- The records at a PC that find a lane, each with its lane and slot. -/
def Group.splicing (G : Group) (pc : Addr) : List (SpawnRec × Nat × Nat) := (G.recsAt pc).zip G.freeLanes
/-- The group after one warp of the records at a PC was formed. -/
def Group.formed (G : Group) (pc : Addr) (now : Nat) : Group :=
  { G with recs := G.recs.diff ((G.splicing pc).map (·.1)),
           threads := ((G.splicing pc).map fun e => spawnThread e.1 e.2.1 e.2.2 G.freeWarp now).foldl (fun ts e => Map.set ts e.1 e.2) G.threads }
theorem splicing_fst (G : Group) (pc : Addr) :
    (G.splicing pc).map (·.1) = (G.recsAt pc).take (min (G.recsAt pc).length G.freeLanes.length) := by
  unfold Group.splicing
  rw [List.zip_eq_zip_take_min]
  exact List.map_fst_zip (by simp only [List.length_take]; omega)
theorem splicing_snd (G : Group) (pc : Addr) :
    (G.splicing pc).map (·.2) = G.freeLanes.take (min (G.recsAt pc).length G.freeLanes.length) := by
  unfold Group.splicing
  rw [List.zip_eq_zip_take_min]
  exact List.map_snd_zip (by simp only [List.length_take]; omega)
/-- The records that find a lane, and those that stay, are the records. -/
theorem splicing_perm (G : Group) (pc : Addr) (now : Nat) : ((G.splicing pc).map (·.1) ++ (G.formed pc now).recs).Perm G.recs := by
  have hsub : ((G.splicing pc).map (·.1)).Sublist G.recs := by
    rw [splicing_fst]; exact (List.take_sublist _ _).trans List.filter_sublist
  exact List.subperm_append_diff_self_of_count_le fun x _ => hsub.count_le x
theorem formed_recs_length (G : Group) (pc : Addr) (now : Nat) : (G.formed pc now).recs.length + (G.splicing pc).length = G.recs.length := by
  have := (splicing_perm G pc now).length_eq
  rw [List.length_append, List.length_map] at this
  omega
theorem formWarp_shape (s : State) (g : Nat) (pc : Addr) (G : Group) (hG : s.group? g = some G) (ha : ∀ r ∈ G.recs, r.area = none) :
    (∀ h, (s.formWarp g pc).group? h = if h = g then some (G.formed pc s.clock) else s.group? h) ∧
      ({ s.formWarp g pc with groups := s.groups } : State) = s := by
  have harea : ∀ e ∈ G.splicing pc, e.1.area = none := fun e he =>
    ha _ ((splicing_perm G pc 0).subset (List.mem_append_left _ (List.mem_map_of_mem he)))
  have hpoison : ((G.recsAt pc).zip G.freeLanes).findSome? (fun e => s.recPoison G.ctx e.1) = none :=
    List.findSome?_eq_none_iff.2 fun e he => by unfold State.recPoison; rw [harea e he]
  have hbytes : ((G.recsAt pc).zip G.freeLanes).map (fun e => spawnThread { e.1 with bytes := s.recBytes G.ctx e.1 } e.2.1 e.2.2 G.freeWarp s.clock) =
      (G.splicing pc).map fun e => spawnThread e.1 e.2.1 e.2.2 G.freeWarp s.clock := List.map_congr_left fun e he => by
    unfold State.recBytes; rw [harea e he]
  have hdiff : ((G.recsAt pc).zip G.freeLanes).foldl (fun rs e => rs.erase e.1) G.recs = (G.formed pc s.clock).recs := by
    unfold Group.formed Group.splicing
    rw [List.diff_eq_foldl, List.foldl_map]
  unfold State.formWarp
  rw [hG]
  dsimp only
  rw [hpoison]
  dsimp only
  refine ⟨fun h => ?_, rfl⟩
  rw [State.group?_modG, hG, Option.map_some, hbytes, hdiff]
  rfl

/-! ## When every thread is blocked, every record goes (R51) -/

theorem freeLanes_lanes (G : Group) : G.freeLanes.map (·.1) =
    (List.range 32).filter fun l => (G.tslots.find? fun k => !(G.threads.any fun e => e.2.lane == l && e.2.slot == k)).isSome := by
  unfold Group.freeLanes
  induction List.range 32 with
  | nil => rfl
  | cons l ls ih =>
    rw [List.filterMap_cons, List.filter_cons]
    cases h : G.tslots.find? fun k => !(G.threads.any fun e => e.2.lane == l && e.2.slot == k) with
    | none => simp [ih]
    | some k => simp [ih]
/-- The threads of a new warp take lanes of those found free. -/
theorem formed_thread_lane (G : Group) (pc : Addr) (now : Nat) (x : Nat × Thread) (hx : x ∈ (G.formed pc now).threads) :
    x.2.lane ∈ (G.freeLanes.map (·.1)).take (G.recsAt pc).length ∨ x ∈ G.threads := by
  rcases mem_foldl_set _ x _ hx with h | h
  · obtain ⟨e, he, rfl⟩ := List.mem_map.1 h
    have hlane : (spawnThread e.1 e.2.1 e.2.2 G.freeWarp now).2.lane = e.2.1 := (spawnThread_keeps e.1 e.2.1 e.2.2 G.freeWarp now).2.1
    have hmem : e.2 ∈ G.freeLanes.take (min (G.recsAt pc).length G.freeLanes.length) := by
      rw [← splicing_snd]; exact List.mem_map_of_mem he
    rw [hlane, ← List.map_take]
    exact .inl (List.mem_map_of_mem ((List.take_sublist_take_left (Nat.min_le_left _ _)).subset hmem))
  · exact .inr h
/-- A warp takes at most one lane for each of its records. -/
theorem formed_freeLanes (G : Group) (pc : Addr) (now : Nat) :
    G.freeLanes.length ≤ (G.formed pc now).freeLanes.length + (G.recsAt pc).length := by
  have hnodup : (G.freeLanes.map (·.1)).Nodup := by rw [freeLanes_lanes]; exact List.nodup_range.filter _
  have hsub : (G.freeLanes.map (·.1)).drop (G.recsAt pc).length ⊆ (G.formed pc now).freeLanes.map (·.1) := by
    intro lane hlane
    have hout : lane ∉ (G.freeLanes.map (·.1)).take (G.recsAt pc).length := fun h =>
      List.disjoint_take_drop hnodup le_rfl h hlane
    have hin := List.mem_of_mem_drop hlane
    rw [freeLanes_lanes, List.mem_filter, List.find?_isSome] at hin
    rw [freeLanes_lanes, List.mem_filter, List.find?_isSome]
    obtain ⟨h32, k, hk, hfree⟩ := hin
    refine ⟨h32, k, hk, ?_⟩
    simp only [Bool.not_eq_true', List.any_eq_false, Bool.and_eq_true, beq_iff_eq, not_and] at hfree ⊢
    intro x hx hxl
    rcases formed_thread_lane G pc now x hx with h | h
    · exact absurd (hxl ▸ h) hout
    · exact hfree x h hxl
  have := (List.subperm_of_subset (hnodup.sublist (List.drop_sublist _ _)) hsub).length_le
  simp only [List.length_drop, List.length_map] at this
  omega
theorem formed_recsAt (G : Group) (pc : Addr) (now : Nat) (hle : (G.recsAt pc).length ≤ G.freeLanes.length) :
    ∀ r ∈ (G.formed pc now).recs, r.pc ≠ pc := by
  have hall : (G.splicing pc).map (·.1) = G.recsAt pc := by rw [splicing_fst, Nat.min_eq_left hle, List.take_length]
  have hperm := ((splicing_perm G pc now).filter (·.pc == pc)).length_eq
  rw [hall, List.filter_append, List.length_append] at hperm
  unfold Group.recsAt at hperm
  rw [List.filter_filter, List.filter_congr (q := (·.pc == pc)) fun r _ => by simp] at hperm
  have hnil := List.filter_eq_nil_iff.1 (List.eq_nil_of_length_eq_zero (show ((G.formed pc now).recs.filter (·.pc == pc)).length = 0 by omega))
  exact fun r hr h => hnil r hr (by simpa using h)
/-- What holds of the group and the state as its blocked threads' records are released, PC after PC. -/
structure Releasing (s t : State) (g : Nat) (G H : Group) : Prop where
  group : t.group? g = some H
  rest : ({ t with groups := s.groups } : State) = s
  ctx : H.ctx = G.ctx
  recs : H.recs ⊆ G.recs
  room : H.recs.length ≤ H.freeLanes.length
theorem Releasing.formWarp {s t : State} {g : Nat} {G H : Group} (h : Releasing s t g G H) (ha : ∀ r ∈ G.recs, r.area = none) (pc : Addr) :
    Releasing s (t.formWarp g pc) g G (H.formed pc t.clock) ∧ (∀ r ∈ (H.formed pc t.clock).recs, r.pc ≠ pc) ∧ (H.formed pc t.clock).recs ⊆ H.recs := by
  obtain ⟨hgrp, hrest⟩ := formWarp_shape t g pc H h.group fun r hr => ha r (h.recs hr)
  have hat : (H.recsAt pc).length ≤ H.recs.length := List.length_filter_le _ _
  have hsub : (H.formed pc t.clock).recs ⊆ H.recs := fun r hr => (splicing_perm H pc t.clock).subset (List.mem_append_right _ hr)
  have hroom := h.room
  refine ⟨⟨(hgrp g).trans (if_pos rfl), ?_, h.ctx, fun r hr => h.recs (hsub hr), ?_⟩, formed_recsAt H pc _ (hat.trans hroom), hsub⟩
  · exact (congrArg (fun (x : State) => ({ x with groups := s.groups } : State)) hrest).trans h.rest
  · have h1 := formed_freeLanes H pc t.clock
    have h2 := formed_recs_length H pc t.clock
    have h3 : (H.splicing pc).length = (H.recsAt pc).length := by
      unfold Group.splicing; rw [List.length_zip]; omega
    omega
theorem Releasing.formWarps {s t : State} {g : Nat} {G H : Group} (h : Releasing s t g G H) (ha : ∀ r ∈ G.recs, r.area = none) (hz : s.frozen G.ctx = false)
    (pc : Addr) (n : Nat) : ∃ H', Releasing s (State.formWarps g pc (n + 1) t) g G H' ∧ (∀ r ∈ H'.recs, r.pc ≠ pc) ∧ H'.recs ⊆ H.recs := by
  have hfz : t.frozen H.ctx = false := by
    rw [h.ctx]; have := congrArg (fun (x : State) => x.frozen G.ctx) h.rest; exact this.trans hz
  have hroom := h.room
  have hempty : ∀ (u : State) (H : Group), u.group? g = some H → H.recsAt pc = [] → ∀ n, State.formWarps g pc n u = u := by
    intro u H hu hr n
    cases n with
    | zero => rfl
    | succ n =>
      unfold State.formWarps; rw [hu]; dsimp only; rw [hr]; rfl
  have hnone : ∀ H : Group, (∀ r ∈ H.recs, r.pc ≠ pc) → H.recsAt pc = [] := fun H hp =>
    List.filter_eq_nil_iff.2 fun r hr => by simpa using hp r hr
  by_cases hrec : H.recsAt pc = []
  · rw [hempty t H h.group hrec]
    refine ⟨H, h, fun r hr hpc => ?_, fun _ h => h⟩
    exact List.filter_eq_nil_iff.1 hrec r hr (by simpa using hpc)
  · obtain ⟨h1, h2, h3⟩ := h.formWarp ha pc
    have hfree : H.freeLanes ≠ [] := by
      intro hf
      rw [hf, List.length_nil, Nat.le_zero, List.length_eq_zero_iff] at hroom
      exact hrec (by unfold Group.recsAt; rw [hroom]; rfl)
    have hstep : State.formWarps g pc (n + 1) t = t.formWarp g pc := by
      rw [← hempty _ _ h1.group (hnone _ h2) n]
      conv_lhs => unfold State.formWarps
      rw [h.group]
      dsimp only
      rw [if_neg (by simp [hrec, hfree, hfz])]
    rw [hstep]
    exact ⟨_, h1, h2, h3⟩
theorem Releasing.all {s : State} {g : Nat} {G : Group} (ha : ∀ r ∈ G.recs, r.area = none) (hz : s.frozen G.ctx = false) (n : Nat) (pcs : List Addr) :
    ∀ (t : State) (H : Group), Releasing s t g G H →
      ∃ H', Releasing s (pcs.foldl (fun (s : State) pc => State.formWarps g pc (n + 1) s) t) g G H' ∧ H'.recs ⊆ H.recs ∧ ∀ r ∈ H'.recs, r.pc ∉ pcs := by
  induction pcs with
  | nil => exact fun t H h => ⟨H, h, fun _ h => h, fun _ _ => List.not_mem_nil⟩
  | cons pc pcs ih =>
    intro t H h
    obtain ⟨H1, h1, hpc, hs1⟩ := h.formWarps ha hz pc n
    obtain ⟨H2, h2, hs2, hpcs⟩ := ih _ H1 h1
    refine ⟨H2, h2, fun r hr => hs1 (hs2 hr), fun r hr hmem => ?_⟩
    rcases List.mem_cons.1 hmem with h | h
    · exact hpc r (hs2 hr) h
    · exact hpcs r hr h
theorem splice_blocked (s : State) (g : Nat) (pc : Addr) (G : Group) (hG : s.group? g = some G) (hr : G.recs ≠ []) (ha : ∀ r ∈ G.recs, r.area = none)
    (hres : G.res = .resident) (hx : G.exiting = false) (hrun : s.runs G.ctx = true) (hb : G.allBlocked = true) (hz : s.frozen G.ctx = false)
    (hroom : G.recs.length ≤ G.freeLanes.length) : ∃ H, Releasing s (s.splice g pc) g G H ∧ H.recs = [] := by
  obtain ⟨n, hn⟩ : ∃ n, G.recs.length = n + 1 := Nat.exists_eq_succ_of_ne_zero fun h => hr (List.eq_nil_of_length_eq_zero h)
  obtain ⟨H, h1, h2, h3⟩ := Releasing.all (s := s) (g := g) ha hz n (G.recs.map (·.pc)).eraseDups s G ⟨hG, rfl, rfl, fun _ h => h, hroom⟩
  have hsplice : s.splice g pc = (G.recs.map (·.pc)).eraseDups.foldl (fun (s : State) pc => State.formWarps g pc (n + 1) s) s := by
    unfold State.splice
    rw [hG]
    dsimp only
    rw [if_neg (by simp [hres, hx, hrun]), if_pos (by simp [hr, hb]), hn]
  rw [hsplice]
  exact ⟨H, h1, List.eq_nil_iff_forall_not_mem.2 fun r hr => h3 r hr (List.mem_eraseDups.2 (List.mem_map_of_mem (h2 hr)))⟩
theorem splice_due (s : State) (g : Nat) (pc : Addr) (G : Group) (r0 : SpawnRec) (rest : List SpawnRec) (hG : s.group? g = some G)
    (hr : G.recsAt pc = r0 :: rest) (hres : G.res = .resident) (hx : G.exiting = false) (hrun : s.runs G.ctx = true) (hb : G.allBlocked = false)
    (hdue : r0.since + 2 ^ bitsN G.sched.toNat 26 22 ≤ s.clock) (hl : G.freeLanes ≠ []) : s.splice g pc = s.formWarp g pc := by
  have hd : s.spliceDue G pc = true := by
    unfold State.spliceDue
    rw [hr]
    have : 0 < G.freeLanes.length := List.length_pos_iff.2 hl
    simp [this, Group.slog, hdue]
  unfold State.splice
  rw [hG]
  dsimp only
  rw [if_neg (by simp [hres, hx, hrun]), if_neg (by simp [hb]), if_pos hd]

end Sys2Proof.Machine
end

section
/-! SUPPORT. A forced save (R78, R445): O51. -/

namespace Sys2Proof.Machine

/-! ## A forced save (R78, R445) -/

/-- Threads whose waits are abandoned keep their place, registers and predicates, and one that was handed over stays so. -/
structure Loosened (s t : State) : Prop where
  rest : LogSame s t
  threads : ∀ h k T, s.thread? h k = some T →
    ∃ U, t.thread? h k = some U ∧ U.pc = T.pc ∧ U.regs = T.regs ∧ U.preds = T.preds ∧ (T.standing = true → U.standing = true)
  groups : ∀ h G, s.group? h = some G → ∃ G', t.group? h = some G'
theorem LogSame.trans {s t u : State} (h : LogSame s t) (k : LogSame t u) : LogSame s u :=
  ⟨(congrArg (fun (x : State) => ({ x with groups := s.groups, leaves := s.leaves, accesses := s.accesses } : State)) k.rest).trans h.rest⟩
theorem Loosened.refl (s : State) : Loosened s s := ⟨⟨rfl⟩, fun _ _ T h => ⟨T, h, rfl, rfl, rfl, id⟩, fun _ G h => ⟨G, h⟩⟩
theorem Loosened.trans {s t u : State} (h : Loosened s t) (k : Loosened t u) : Loosened s u where
  rest := h.rest.trans k.rest
  threads g n T hT := by
    obtain ⟨U, hU, h1, h2, h3, h4⟩ := h.threads g n T hT
    obtain ⟨V, hV, k1, k2, k3, k4⟩ := k.threads g n U hU
    exact ⟨V, hV, k1.trans h1, k2.trans h2, k3.trans h3, fun hs => k4 (h4 hs)⟩
  groups g G hG := by
    obtain ⟨G', hG'⟩ := h.groups g G hG
    exact k.groups g G' hG'
theorem Loosened.accesses {s t : State} (h : Loosened s t) (l : List Access) : Loosened s { t with accesses := l } :=
  ⟨⟨h.rest.rest⟩, h.threads, h.groups⟩
/-- A change of one thread that keeps its place, registers and predicates, and its hand-over. -/
theorem loosened_modT (s : State) (g k : Nat) (f : Thread → Thread)
    (hf : ∀ T, s.thread? g k = some T → (f T).pc = T.pc ∧ (f T).regs = T.regs ∧ (f T).preds = T.preds ∧ (T.standing = true → (f T).standing = true)) :
    Loosened s (s.modT g k f) where
  rest := ⟨rfl⟩
  threads h n T hT := by
    rw [State.thread?_modT]
    by_cases hk : h = g ∧ n = k
    · obtain ⟨rfl, rfl⟩ := hk
      rw [if_pos ⟨rfl, rfl⟩, hT]
      exact ⟨f T, rfl, hf T hT⟩
    · rw [if_neg hk]
      exact ⟨T, hT, rfl, rfl, rfl, id⟩
  groups h G hG := by
    unfold State.modT
    rw [State.group?_modG]
    split
    next hh => subst hh; rw [hG]; exact ⟨_, rfl⟩
    next => exact ⟨G, hG⟩
theorem loosened_modG (s : State) (g : Nat) (f : Group → Group) (hf : ∀ G, (f G).threads = G.threads) : Loosened s (s.modG g f) where
  rest := ⟨rfl⟩
  threads h n T hT := by
    refine ⟨T, ?_, rfl, rfl, rfl, id⟩
    rw [← hT]
    exact threadsStay_of_group s _ g f hf (fun k => State.group?_modG s g k f) h n
  groups h G hG := by
    rw [State.group?_modG]
    split
    next hh => subst hh; rw [hG]; exact ⟨_, rfl⟩
    next => exact ⟨G, hG⟩
theorem loosened_foldl {α : Type} (f : State → α → State) (hf : ∀ s e, Loosened s (f s e)) (l : List α) : ∀ s, Loosened s (l.foldl f s) := by
  induction l with
  | nil => exact Loosened.refl
  | cons e l ih => exact fun s => (hf s e).trans (ih _)
theorem unring_loosened (s : State) (g k : Nat) : Loosened s (s.unring g k) := by
  unfold State.unring
  split
  next => exact Loosened.refl s
  next T hT =>
    split
    next =>
      dsimp only
      split
      next g' t' _ =>
        refine loosened_modT s g' t' _ fun U _ => ?_
        split
        next hw => exact ⟨rfl, rfl, rfl, fun hs => by unfold Thread.standing at hs; rw [hw] at hs; cases hs⟩
        next => exact ⟨rfl, rfl, rfl, id⟩
      next => exact loosened_modG s _ _ fun _ => rfl
    next => exact Loosened.refl s
theorem lowerLd_loosened (s : State) (a : Access) : Loosened s (s.lowerLd a) := by
  unfold State.lowerLd
  split
  · exact loosened_foldl (fun (s : State) (e : Nat × Nat) => s.modT e.1 e.2 fun T => { T with ld := T.ld - 1 })
      (fun s e => loosened_modT s e.1 e.2 _ fun _ _ => ⟨rfl, rfl, rfl, id⟩) a.owners s
  · exact Loosened.refl s
theorem lowerLd_wait (s : State) (a : Access) (h n : Nat) : ((s.lowerLd a).thread? h n).map Thread.wait = (s.thread? h n).map Thread.wait := by
  unfold State.lowerLd
  split
  · refine foldl_field (fun (s : State) => (s.thread? h n).map Thread.wait) _ (fun s e => ?_) a.owners s
    rw [State.thread?_modT]
    split
    next hk => rw [hk.1, hk.2, Option.map_map]; rfl
    next => rfl
  · rfl
theorem abandon_loosened (s : State) (g k : Nat) : Loosened s (s.abandon g k) := by
  refine (unring_loosened s g k).trans ?_
  unfold State.abandon
  generalize s.unring g k = t
  dsimp only
  split
  next => exact Loosened.refl t
  next T hT =>
    split
    next hw =>
      refine Loosened.accesses (loosened_modT t g k (fun T => { T with ld := T.ld - 1, wait := .ready }) fun U hU => ⟨rfl, rfl, rfl, fun hs => ?_⟩) _
      cases hT.symm.trans hU
      unfold Thread.standing at hs; rw [hw] at hs; cases hs
    next o _ _ hw =>
      have hlow := loosened_foldl State.lowerLd lowerLd_loosened
        (t.accesses.filter fun a => a.order == o && match a.kind with | .image .. => true | _ => false) t
      refine (hlow.accesses _).trans (loosened_modT _ g k (fun T => { T with wait := .ready, image := none }) fun U hU => ⟨rfl, rfl, rfl, fun hs => ?_⟩)
      have hwait := (foldl_field (fun (s : State) => (s.thread? g k).map Thread.wait) State.lowerLd (fun s a => lowerLd_wait s a g k) _ t).symm.trans
        (congrArg (Option.map Thread.wait) hU)
      rw [hT, Option.map_some, Option.map_some, Option.some.injEq, hw] at hwait
      unfold Thread.standing at hs; rw [← hwait] at hs; cases hs
    next => exact loosened_modT t g k _ fun _ _ => ⟨rfl, rfl, rfl, id⟩
/-- A late thread is handed over where it stands. -/
def State.parkLate (s : State) (g k : Nat) : State :=
  (s.abandon g k).modT g k fun T => { T with wait := .on .preempted s.clock 0, pending := T.pending.filter (·.cause != 0x20) }
theorem parkLate_loosened (s : State) (g k : Nat) : Loosened s (s.parkLate g k) :=
  (abandon_loosened s g k).trans (loosened_modT _ g k _ fun _ _ => ⟨rfl, rfl, rfl, fun _ => rfl⟩)
theorem parkLate_standing (s : State) (g k : Nat) (T : Thread) (hT : s.thread? g k = some T) :
    ∃ U, (s.parkLate g k).thread? g k = some U ∧ U.standing = true := by
  obtain ⟨U, hU, _⟩ := (abandon_loosened s g k).threads g k T hT
  unfold State.parkLate
  rw [State.thread?_modT, if_pos ⟨rfl, rfl⟩, hU]
  exact ⟨_, rfl, rfl⟩
theorem parkLate_fold (g : Nat) (l : Sparse Thread) : ∀ s : State,
    Loosened s (l.foldl (fun (s : State) e => s.parkLate g e.1) s) ∧ ∀ e ∈ l, ∀ T, s.thread? g e.1 = some T →
      ∃ U, (l.foldl (fun (s : State) e => s.parkLate g e.1) s).thread? g e.1 = some U ∧ U.standing = true := by
  induction l with
  | nil => exact fun s => ⟨Loosened.refl s, fun e he => by cases he⟩
  | cons x l ih =>
    intro s
    obtain ⟨h1, h2⟩ := ih (s.parkLate g x.1)
    refine ⟨(parkLate_loosened s g x.1).trans h1, fun e he T hT => ?_⟩
    rcases List.mem_cons.1 he with rfl | he
    · obtain ⟨U, hU, hs⟩ := parkLate_standing s g e.1 T hT
      obtain ⟨V, hV, _, _, _, h4⟩ := h1.threads g e.1 U hU
      exact ⟨V, hV, h4 hs⟩
    · obtain ⟨U, hU, _⟩ := (parkLate_loosened s g x.1).threads g e.1 T hT
      exact h2 e he U hU
/-- Of two threads the one in the lower lane, the first on a tie. -/
def lowerLane (m : Option (Nat × Thread)) (e : Nat × Thread) : Option (Nat × Thread) :=
  match m with | none => some e | some x => if e.2.lane < x.2.lane then some e else some x
theorem foldl_lowerLane (l : Sparse Thread) : ∀ e0 : Nat × Thread,
    ∃ e, l.foldl lowerLane (some e0) = some e ∧ e ∈ e0 :: l ∧ ∀ x ∈ e0 :: l, e.2.lane ≤ x.2.lane := by
  induction l with
  | nil => exact fun e0 => ⟨e0, rfl, by simp, by simp⟩
  | cons a l ih =>
    intro e0
    rw [List.foldl_cons]
    unfold lowerLane
    dsimp only
    split
    next hlt =>
      obtain ⟨e, h1, h2, h3⟩ := ih a
      refine ⟨e, h1, List.mem_cons_of_mem _ h2, fun x hx => ?_⟩
      rcases List.mem_cons.1 hx with rfl | hx
      · exact (h3 a (by simp)).trans hlt.le
      · exact h3 x hx
    next hge =>
      obtain ⟨e, h1, h2, h3⟩ := ih e0
      have h0 := h3 e0 (by simp)
      refine ⟨e, h1, ?_, fun x hx => ?_⟩
      · rcases List.mem_cons.1 h2 with rfl | h2
        · simp
        · simp [h2]
      · rcases List.mem_cons.1 hx with rfl | hx
        · exact h0
        · rcases List.mem_cons.1 hx with rfl | hx
          · omega
          · exact h3 x (by simp [hx])
/-- The threads of a group that are not at their hand-over. -/
def Group.late (G : Group) : Sparse Thread := G.live.filter fun e => !(e.2.parked && e.2.standing)
theorem Group.mem_late (G : Group) (e : Nat × Thread) : e ∈ G.late ↔ e ∈ G.live ∧ ¬ (e.2.parked = true ∧ e.2.standing = true) := by
  simp only [Group.late, List.mem_filter, Bool.not_eq_true', ← Bool.not_eq_true, Bool.and_eq_true]
theorem forceSave_eq (s : State) (g d : Nat) (G : Group) (hG : s.group? g = some G) (hd : G.deadline = some d) (hle : d ≤ s.clock)
    (hres : G.res = .resident) (hz : s.frozen G.ctx = false) (hlate : ∃ e ∈ G.live, e.2.standing = false) :
    s.forceSave g = ((G.late.foldl (fun (s : State) e => s.parkLate g e.1) s).modG g fun G =>
        { G with open_ := G.open_.filter (!·.preempt), heldDel := G.heldDel.filter (!·.preempt) }).log
      { cls := 9, sev := 1, ctx := G.ctx, unit := 1, unitNo := G.core, detail := 0x120, addr := ((G.late.foldl lowerLane none).map (·.2.pc.toNat)).getD 0 } := by
  have hall : G.live.all (·.2.standing) = false := by
    obtain ⟨e, he, hs⟩ := hlate
    rw [List.all_eq_false]; exact ⟨e, he, by simp [hs]⟩
  unfold State.forceSave
  rw [hG]
  dsimp only
  rw [hd, if_neg (by simp [hle, hall, hres, hz])]
  rfl
theorem Thread.wait_of_standing (T : Thread) (h : T.standing = true) : ∃ i j, T.wait = .on .preempted i j := by
  unfold Thread.standing at h
  split at h
  next i j hw => exact ⟨i, j, hw⟩
  next => cases h
/-- The state before the record of a forced save: every thread stands at its hand-over, and the lowest lane of the late ones is known. -/
theorem forceSave_parks (s : State) (g d : Nat) (G : Group) (hG : s.group? g = some G) (hd : G.deadline = some d) (hle : d ≤ s.clock)
    (hres : G.res = .resident) (hz : s.frozen G.ctx = false) (hdist : Distinct G.threads) (hlate : ∃ e ∈ G.live, e.2.standing = false) :
    ∃ t e, s.forceSave g = t.log { cls := 9, sev := 1, ctx := G.ctx, unit := 1, unitNo := G.core, detail := 0x120, addr := e.2.pc.toNat } ∧
      LogSame s t ∧ (e ∈ G.late ∧ ∀ x ∈ G.late, e.2.lane ≤ x.2.lane) ∧
      (∀ k T, (k, T) ∈ G.live → ∃ U, t.thread? g k = some U ∧ U.pc = T.pc ∧ U.regs = T.regs ∧ U.preds = T.preds ∧ U.standing = true) ∧
      ∃ G', t.group? g = some G' ∧ ∀ x ∈ G'.open_, x.preempt = false := by
  have heq := forceSave_eq s g d G hG hd hle hres hz hlate
  obtain ⟨hloose, hparked⟩ := parkLate_fold g G.late s
  have hopen := loosened_modG (G.late.foldl (fun (s : State) e => s.parkLate g e.1) s) g
    (fun G => { G with open_ := G.open_.filter (!·.preempt), heldDel := G.heldDel.filter (!·.preempt) }) fun _ => rfl
  obtain ⟨e, hlow, hmem, hmin⟩ : ∃ e, G.late.foldl lowerLane none = some e ∧ e ∈ G.late ∧ ∀ x ∈ G.late, e.2.lane ≤ x.2.lane := by
    obtain ⟨x, hx, hs⟩ := hlate
    have hne : x ∈ G.late := (G.mem_late x).2 ⟨hx, by simp [hs]⟩
    cases hl : G.late with
    | nil => rw [hl] at hne; cases hne
    | cons a l => exact foldl_lowerLane l a
  rw [hlow] at heq
  refine ⟨_, e, heq, (hloose.trans hopen).rest, ⟨hmem, hmin⟩, fun k T hk => ?_, ?_⟩
  · have hT := thread?_of_mem hG hdist (k, T) (List.mem_filter.1 hk).1
    obtain ⟨U, hU, h1, h2, h3, h4⟩ := hloose.threads g k T hT
    obtain ⟨V, hV, k1, k2, k3, k4⟩ := hopen.threads g k U hU
    refine ⟨V, hV, k1.trans h1, k2.trans h2, k3.trans h3, k4 ?_⟩
    by_cases hl : (k, T) ∈ G.late
    · obtain ⟨W, hW, hs⟩ := hparked (k, T) hl T hT
      cases hU.symm.trans hW
      exact hs
    · have hstand : T.parked = true ∧ T.standing = true := by
        by_contra hn
        exact hl ((G.mem_late (k, T)).2 ⟨hk, hn⟩)
      exact h4 hstand.2
  · obtain ⟨G1, hG1⟩ := hloose.groups g G hG
    refine ⟨_, (State.group?_modG _ g g _).trans ((if_pos rfl).trans (congrArg (Option.map _) hG1)), fun x hx => ?_⟩
    simpa using (List.mem_filter.1 hx).2

end Sys2Proof.Machine
end

section
/-! SUPPORT. Leave is granted (R76, R252): O51. -/

namespace Sys2Proof.Machine

/-! ## Leave is granted (R76, R252) -/

theorem foldl_modT_idem (f : State → Thread → Thread) (hf : ∀ (s t : State) T, s.clock = t.clock → f s T = f t T) (hff : ∀ s T, f s (f s T) = f s T)
    (g k : Nat) (ks : List Nat) : ∀ s : State, (ks.foldl (fun (s : State) k => s.modT g k (f s)) s).thread? g k =
      if k ∈ ks then (s.thread? g k).map (f s) else s.thread? g k := by
  induction ks with
  | nil => exact fun s => by simp
  | cons a ks ih =>
    intro s
    have hc : f (s.modT g a (f s)) = f s := funext fun T => hf _ _ T rfl
    rw [List.foldl_cons, ih, hc, State.thread?_modT]
    by_cases hk : k = a
    · subst hk
      simp only [and_self, if_true, List.mem_cons, true_or, Option.map_map]
      split
      · exact congrArg (Option.map · _) (funext fun T => hff s T)
      · rfl
    · simp [hk]
/-- What a level of leave costs, in tenths of a watt, as R252 lists it. -/
theorem leaveCharge_eq (n : Nat) : leaveCharge n = match n with | 0 => 0 | 1 => 15 | 2 => 35 | _ => 400 := by
  rcases n with _ | _ | _ | n <;> rfl
theorem oromelLeave_of (s : State) (ctx : Nat) (C : Ctx) (hC : s.ctx? ctx = some C) : s.oromelLeave ctx = (bitN C.svc 6 == 1) := by
  unfold State.oromelLeave; rw [hC]
/-- The charges of the groups other than one, of the context that has a share or of all. -/
def State.otherCharges (s : State) (g ctx : Nat) (host : Bool) : Nat :=
  (s.charges.filter fun c => (c.grp != g || c.ended) && (!host || c.ctx == ctx)).foldl (fun n c => n + leaveCharge c.level) 0
theorem leaveOpen_of (s : State) (q : LeaveReq) (G : Group) (hG : s.group? q.grp = some G) (hz : s.frozen G.ctx = false)
    (hroom : s.otherCharges q.grp G.ctx (s.oromelLeave G.ctx) + leaveCharge q.level ≤
      if s.oromelLeave G.ctx then Map.getD s.edge.shares 0 G.ctx else s.leavePool) (ht : s.edge.therm = 0 ∨ q.level < 2) : s.leaveOpen q = true := by
  unfold State.leaveOpen
  rw [hG]
  unfold State.otherCharges at hroom
  simp only [hz, hroom, Bool.not_false, Bool.true_and, decide_true, Bool.or_eq_true, decide_eq_true_eq]
  exact .inr ht
/-- Whether the request that a die serves next can be granted. -/
def State.dieOpen (s : State) (d : Nat) : Bool := match s.leaveHead d with | some q => s.leaveOpen q | none => false
/-- The only die with requests is served next. -/
theorem leaveTurn_of (s : State) (q : LeaveReq) (d : Nat) (hd : d < 8) (hhead : s.leaveHead d = some q) (hopen : s.leaveOpen q = true)
    (hone : ∀ x, x ≠ d → s.leaveHead x = none) :
    s.leaveDies.find? s.dieOpen = some d := by
  have hmem : d ∈ s.leaveDies := by
    unfold State.leaveDies
    refine List.mem_filter.2 ⟨List.mem_map.2 ⟨(d + 8 - (s.edge.leaveDie + 1) % 8) % 8, List.mem_range.2 (Nat.mod_lt _ (by decide)), by omega⟩, by rw [hhead]; rfl⟩
  have hall : ∀ x ∈ s.leaveDies, x = d := by
    intro x hx
    by_contra hne
    have := (List.mem_filter.1 hx).2
    rw [hone x hne] at this; cases this
  cases hf : s.leaveDies.find? s.dieOpen with
  | none =>
    have := List.find?_eq_none.1 hf d hmem
    unfold State.dieOpen at this
    rw [hhead] at this
    exact absurd hopen this
  | some x => rw [hall x (List.mem_of_find?_eq_some hf)]
/-- Leave of a request is granted, but for the threads that waited: the group's charge has a number, and the governor's turn moved on. -/
def State.granting (s : State) (g : Nat) (G : Group) (q : LeaveReq) (id : Nat) (e : Edge) (n : Nat) : State :=
  ({ s with leaves := s.leaves.erase q, edge := e, next := n, charges := (s.charges.filter fun c => c.grp != g || c.ended) ++
      [({ id := id, grp := g, ctx := G.ctx, level := max G.grant q.level } : Charge)] } : State).modG g fun H => { H with grant := max G.grant q.level }
theorem grantLeave_eq (s : State) (g : Nat) (G : Group) (q : LeaveReq) (hG : s.group? g = some G) (hq : s.leaves.find? (·.grp == g) = some q)
    (hopen : s.leaveOpen q = true) (hfirst : if s.oromelLeave G.ctx = true then s.leaveFirst G.ctx = some q else
      s.leaveDies.find? s.dieOpen = some (dieOf G.core) ∧
        s.leaveHead (dieOf G.core) = some q) :
    ∃ (id : Nat) (e : Edge) (n : Nat), s.grantLeave g = (s.leaveWaiters q).foldl (fun (s : State) t => s.modT g t fun T => { T with wait := .passed, readySince := s.clock })
      (s.granting g G q id e n) := by
  have hgo : ¬ (¬ (if s.oromelLeave G.ctx = true then s.leaveFirst G.ctx == some q else
      (s.leaveDies.find? s.dieOpen == some (dieOf G.core)) &&
        s.leaveHead (dieOf G.core) == some q) = true ∨ ¬ s.leaveOpen q = true) := by
    rintro (h | h)
    · apply h
      split at hfirst
      next hh => rw [if_pos hh, hfirst]; simp
      next hh => rw [if_neg hh, hfirst.1, hfirst.2]; simp
    · exact h hopen
  unfold State.grantLeave
  rw [hG, hq]
  dsimp only
  rw [if_neg (by exact hgo)]
  split
  · exact ⟨_, _, _, rfl⟩
  · exact ⟨_, _, _, rfl⟩
/-- With every request on the die of the first one, that one is first. -/
theorem leaveFirst_of (s : State) (g : Nat) (G : Group) (q : LeaveReq) (rest : List LeaveReq) (hG : s.group? g = some G) (hq : s.leaves = q :: rest)
    (hqg : q.grp = g) (hcore : G.core < 512) (hdie : ∀ x ∈ s.leaves, ∀ H, s.group? x.grp = some H → dieOf H.core = dieOf G.core)
    (hopen : s.leaveOpen q = true) : if s.oromelLeave G.ctx = true then s.leaveFirst G.ctx = some q else
      s.leaveDies.find? s.dieOpen = some (dieOf G.core) ∧ s.leaveHead (dieOf G.core) = some q := by
  subst hqg
  split
  · unfold State.leaveFirst
    rw [hq]
    exact List.find?_cons_of_pos (by rw [hG]; simp)
  next hhost =>
    have hhead : s.leaveHead (dieOf G.core) = some q := by
      unfold State.leaveHead
      rw [hq]
      exact List.find?_cons_of_pos (by rw [hG]; simp [hhost])
    refine ⟨leaveTurn_of s q _ (by unfold dieOf; omega) hhead hopen fun x hx => List.find?_eq_none.2 fun y hy => ?_, hhead⟩
    cases hH : s.group? y.grp with
    | none => simp
    | some H => simp [hdie y hy H hH, hx.symm]
theorem grantLeave_gives (s : State) (g : Nat) (G : Group) (q : LeaveReq) (rest : List LeaveReq) (hG : s.group? g = some G) (hq : s.leaves = q :: rest)
    (hqg : q.grp = g) (hcore : G.core < 512) (hdie : ∀ x ∈ s.leaves, ∀ H, s.group? x.grp = some H → dieOf H.core = dieOf G.core)
    (hopen : s.leaveOpen q = true) : (s.grantLeave g).mem = s.mem ∧ (s.grantLeave g).absent = s.absent ∧ (s.grantLeave g).leaves = rest ∧
      (∃ G', (s.grantLeave g).group? g = some G' ∧ G'.grant = max G.grant q.level) ∧
      (∃ c ∈ (s.grantLeave g).charges, c.grp = g ∧ c.level = max G.grant q.level ∧ c.ended = false) ∧
      ∀ k T j, s.thread? g k = some T → T.wait = .on (.leave q.level) q.since j →
        (s.grantLeave g).thread? g k = some { T with wait := .passed, readySince := s.clock } := by
  obtain ⟨id, e, n, heq⟩ := grantLeave_eq s g G q hG (by rw [hq]; exact List.find?_cons_of_pos (by simp [hqg])) hopen
    (leaveFirst_of s g G q rest hG hq hqg hcore hdie hopen)
  rw [heq]
  have hgrp : ∀ h, (s.granting g G q id e n).group? h = if h = g then (s.group? g).map (fun H => { H with grant := max G.grant q.level }) else s.group? h :=
    fun h => Map.get?_modify s.groups g h _
  have hGt : (s.granting g G q id e n).group? g = some { G with grant := max G.grant q.level } := by
    rw [hgrp, if_pos rfl, hG]; rfl
  have hfr := foldl_modT_frame (fun (s : State) T => { T with wait := .passed, readySince := s.clock }) g (s.leaveWaiters q) (s.granting g G q id e n)
  obtain ⟨G', hG', hframe⟩ := foldl_modT_group (fun (s : State) T => { T with wait := .passed, readySince := s.clock }) g (s.leaveWaiters q)
    { G with grant := max G.grant q.level } _ _ hGt rfl
  refine ⟨?_, ?_, ?_, ⟨G', hG', ?_⟩, ?_, fun k T j hT hw => ?_⟩
  · have := congrArg State.mem hfr
    exact this
  · have := congrArg State.absent hfr
    exact this
  · have := congrArg State.leaves hfr
    refine this.trans (Eq.trans (b := s.leaves.erase q) rfl ?_)
    rw [hq, List.erase_cons_head]
  · have := congrArg Group.grant hframe
    exact this
  · have := congrArg State.charges hfr
    refine ⟨({ id := id, grp := g, ctx := G.ctx, level := max G.grant q.level } : Charge), ?_, rfl, rfl, rfl⟩
    refine (Eq.trans (b := (s.granting g G q id e n).charges) this rfl) ▸ List.mem_append_right _ List.mem_cons_self
  · have hwait : k ∈ s.leaveWaiters q := by
      have hmem : (k, T) ∈ G.threads := by
        unfold State.thread? at hT
        rw [hG] at hT
        exact mem_of_get? _ _ _ hT
      unfold State.leaveWaiters
      rw [hqg, hG]
      exact List.mem_map.2 ⟨(k, T), List.mem_filter.2 ⟨hmem, by dsimp only; rw [hw]; simp⟩, rfl⟩
    have hthr := (threadsStay_of_group s _ g (fun H => { H with grant := max G.grant q.level }) (fun _ => rfl) hgrp g k).trans hT
    rw [foldl_modT_idem (fun (s : State) T => { T with wait := .passed, readySince := s.clock }) (fun s t T h => by rw [h]) (fun _ _ => rfl),
      if_pos hwait, hthr]
    rfl

end Sys2Proof.Machine
end

section
/-! SUPPORT. What the steps of groups end in: O51. -/

namespace Sys2Proof.Machine

/-! ## The steps -/

theorem joinWait_eq (T : Thread) : T.joinWait =
    (match T.wait with | .on (.join _ x) i _ => some (i, x) | .on (.wsync _) i _ => some (i, T.pc) | _ => none : Option (Nat × Addr)).map fun p => (p.1, p.2.toNat) := by
  unfold Thread.joinWait
  cases hw : T.wait with
  | on c i j => cases c <;> rfl
  | _ => rfl

theorem warpLive_of_joinWait (G : Group) (w : Nat) (h : ∀ e ∈ G.threads.filter fun e => e.2.warp == w, e.2.joinWait ≠ none) :
    G.warpLive w = G.threads.filter fun e => e.2.warp == w := by
  unfold Group.warpLive Group.live
  rw [List.filter_filter]
  refine List.filter_congr fun e he => ?_
  by_cases hw : (e.2.warp == w) = true
  · have hj := h e (List.mem_filter.2 ⟨he, hw⟩)
    unfold Thread.joinWait at hj
    rw [hw, Bool.true_and]
    split
    next hwait => rw [hwait] at hj; exact absurd rfl hj
    next => rfl
  · simp [hw]
/-- A record that finds a lane is a thread of the new warp, where the records' thread numbers differ. -/
theorem formed_thread (G : Group) (pc : Addr) (now : Nat) (e : SpawnRec × Nat × Nat) (he : e ∈ G.splicing pc)
    (hn : ((G.splicing pc).map fun e => e.1.word 8 % 1024).Nodup) :
    Map.get? (G.formed pc now).threads (e.1.word 8 % 1024) = some (spawnThread e.1 e.2.1 e.2.2 G.freeWarp now).2 := by
  refine get?_foldl_set _ _ _ _ ?_ (List.mem_map.2 ⟨e, he, rfl⟩)
  rw [List.map_map]
  exact hn

/-- Settles O51: the traps that the device delivers by itself enter as `deliver_struck` says; a record keeps its thread and a release gives it
back (`spawnBytes_keeps`, `spawnThread_keeps`); a forced save parks each late thread (`forceSave_parks`); and leave goes to the first request (`grantLeave_gives`). -/
theorem groupsMakeProgress : Obligations.GroupsMakeProgress := by
  intro s g G habs hG hz
  have hpres : ∀ t : State, ({ t with groups := s.groups } : State) = s → t.absent = none ∧ t.mem = s.mem := fun t h =>
    ⟨by have := congrArg State.absent h; exact this.trans habs, by have := congrArg State.mem h; exact this⟩
  refine ⟨?_, ?_, ?_, ?_, ?_, ?_, ?_, ?_⟩
  · intro w bound hit hfair ha hres hc hne
    obtain ⟨h1, h2⟩ := watchdog_struck s g w G (G.threads.filter hit) hG hz (stalledThreads_eq s G w hfair ha hres) hc hne
    exact ⟨_, finish_of_present _ (hpres _ h2).1, (hpres _ h2).2, h1⟩
  · intro w l at_ hne hc hwait ha hres hsince hlast
    have hjw : ∀ T : Thread, T.joinWait = (at_ T).map fun p => (p.1, p.2.toNat) := joinWait_eq
    have hlive : G.warpLive w = l := warpLive_of_joinWait G w fun e he hn => by
      obtain ⟨_, i, x, hx, _⟩ := hwait e he
      rw [hjw, hx] at hn; cases hn
    have hwait' : ∀ e ∈ G.warpLive w, e.2.pending = [] ∧ ∃ i x, e.2.joinWait = some (i, x) ∧ i + 1024 ≤ s.clock := by
      rw [hlive]
      intro e he
      obtain ⟨hp, i, x, hx, hi⟩ := hwait e he
      exact ⟨hp, i, x.toNat, by rw [hjw, hx]; rfl, hi⟩
    have hx : ∀ T : Thread, ({ cause := 0x22, addr := match at_ T with | some (_, x) => x.toNat | none => 0, cls := 2 } : Trap) =
        { cause := 0x22, addr := ((T.joinWait).map (·.2)).getD 0, cls := 2 } := fun T => by
      rw [hjw]; cases at_ T <;> rfl
    have hd := deadlocked_of s G w (hlive ▸ hne) ha hres hwait' hsince hlast
    obtain ⟨h1, h2⟩ := joinDead_struck s g w G
      (fun T => { cause := 0x22, addr := match at_ T with | some (_, x) => x.toNat | none => 0, cls := 2 }) hG hz hd (hlive ▸ hc) (fun T h => by cases h) (fun e _ => hx e.2)
    exact ⟨_, finish_of_present _ (hpres _ h2).1, (hpres _ h2).2, hlive ▸ h1⟩
  · intro k n i j T resume hT hw hld hst hcp htl hres hheld hd word kept
    have heq := writeRecord_eq s g k n i j G T resume hG hT hw (by simp [Thread.within, hld, hst, hcp, htl]) hres hz
    obtain ⟨hgrp, hrest⟩ := spawnRecord_leaves s g k T.warp G
      { pc := resume, since := s.clock, units := recUnits n, bytes := spawnBytes T k (s.gslot g) n resume, area := none, held := T.held } hG hheld
    rw [← heq] at hgrp hrest
    obtain ⟨hk1, hk2⟩ := spawnBytes_keeps T k (s.gslot g) n resume
    refine ⟨_, finish_of_present _ (hpres _ hrest).1, (hpres _ hrest).2, ?_, fun h m hne => ?_,
      ⟨_, _, (hgrp g).trans (if_pos rfl), rfl, rfl, rfl, rfl, rfl, hk1, hk2, rfl⟩⟩
    · unfold State.thread?
      rw [hgrp, if_pos rfl]
      exact get?_erase_distinct G.threads k hd
    · unfold State.thread?
      rw [hgrp]
      by_cases hh : h = g
      · subst hh
        rw [if_pos rfl, hG]
        exact Map.get?_erase_of_ne G.threads fun hm => hne (by rw [hm])
      · rw [if_neg hh]
  · intro pc r0 rest hr harea hres hx hrun hb hdue l field hl hn
    have hsp : l = G.splicing pc := congrArg (List.zip · G.freeLanes) hr.symm
    have hfree : G.freeLanes ≠ [] := fun hf => hl (by simp only [l, hf, List.zip_nil_right])
    have heq := splice_due s g pc G r0 rest hG hr hres hx hrun hb hdue hfree
    obtain ⟨hgrp, hrest⟩ := formWarp_shape s g pc G hG harea
    rw [← heq] at hgrp hrest
    refine ⟨_, finish_of_present _ (hpres _ hrest).1, (hpres _ hrest).2, ⟨_, (hgrp g).trans (if_pos rfl), hsp ▸ formed_recs_length G pc _⟩, fun e he => ?_⟩
    obtain ⟨h1, h2, h3, h4, h5, h6, h7, h8, h9⟩ := spawnThread_keeps e.1 e.2.1 e.2.2 G.freeWarp s.clock
    have hpc : e.1.pc = pc := by
      have hmem : e.1 ∈ r0 :: rest := (List.of_mem_zip (by exact he)).1
      rw [← hr] at hmem
      simpa using (List.mem_filter.1 hmem).2
    refine ⟨_, ?_, h2, h3, h4, h5.trans hpc, h6, h7, h8, h9⟩
    unfold State.thread?
    rw [hgrp, if_pos rfl]
    exact formed_thread G pc s.clock e (hsp ▸ he) (hsp ▸ hn)
  · intro pc hr harea hres hx hrun hb hroom
    obtain ⟨H, h, hnil⟩ := splice_blocked s g pc G hG hr harea hres hx hrun hb hz hroom
    exact ⟨_, finish_of_present _ (hpres _ h.rest).1, (hpres _ h.rest).2, H, h.group, hnil⟩
  · intro d hfits hd hle hres hdist hex late
    obtain ⟨t, e, heq, hsame, ⟨hmem, hmin⟩, hthr, G', hG', hop⟩ := forceSave_parks s g d G hG hd hle hres hz hdist hex
    have hfit := hsame.logFits hfits
    have hgrp : ∀ r, (t.log r).groups = t.groups := t.log_groups
    refine ⟨s.forceSave g, finish_of_present _ (by rw [heq]; exact State.log_absent _ _ hfit), ?_⟩
    rw [heq]
    refine ⟨⟨e, (G.mem_late e).1 hmem, fun x hx => hmin x ((G.mem_late x).2 hx), hsame.logged _ (State.log_logged t _ hfit)⟩, fun k T hk => ?_, ?_⟩
    · obtain ⟨U, hU, h1, h2, h3, h4⟩ := hthr k T hk
      obtain ⟨i, j, hw⟩ := U.wait_of_standing h4
      exact ⟨U, i, j, by unfold State.thread? State.group? at *; rw [hgrp]; exact hU, h1, h2, h3, hw⟩
    · exact ⟨G', by unfold State.group? at *; rw [hgrp]; exact hG', hop⟩
  · intro q rest C hq hqg hcore hC hdie htherm cost held sum hroom
    have hcost : ∀ n, cost n = leaveCharge n := fun n => (leaveCharge_eq n).symm
    have hcharge : ∀ (l : List Charge), sum l = l.foldl (fun n c => n + leaveCharge c.level) 0 := fun l => by
      simp only [sum, List.foldl_map, hcost]
    have hopen : s.leaveOpen q = true := by
      refine leaveOpen_of s q G (hqg ▸ hG) hz ?_ htherm
      rw [oromelLeave_of s G.ctx C hC, ← hcost, hqg]
      rcases hroom with ⟨hb, hroom⟩ | ⟨hb, hroom⟩
      · have hsum : s.otherCharges g G.ctx false = sum held := by
          rw [hcharge]; unfold State.otherCharges; simp [held]
        rw [show (bitN C.svc 6 == 1) = false by simp [hb], hsum, if_neg Bool.false_ne_true]
        exact hroom
      · have hsum : s.otherCharges g G.ctx true = sum (held.filter (·.ctx == G.ctx)) := by
          rw [hcharge]; unfold State.otherCharges
          simp only [held, List.filter_filter, Bool.not_true, Bool.false_or, Bool.and_comm]
        rw [show (bitN C.svc 6 == 1) = true by simp [hb], hsum, if_pos rfl]
        exact hroom
    obtain ⟨h1, h2, h3⟩ := grantLeave_gives s g G q rest hG hq hqg hcore hdie hopen
    exact ⟨_, finish_of_present _ (h2.trans habs), h1, h3⟩
  · intro q C w hfits hq hqg hC hdue l hc
    have hw : s.leaveWaiters q = l.map (·.1) := by unfold State.leaveWaiters; rw [hqg, hG] <;> rfl
    have hnow : ¬ s.clock < q.since + (if s.oromelLeave G.ctx then 10 * tenMs else tenMs) := by
      rw [oromelLeave_of s G.ctx C hC]
      by_cases hb : bitN C.svc 6 = 1
      · rw [if_pos hb] at hdue; rw [if_pos (by simp [hb])]; unfold tenMs; omega
      · rw [if_neg hb] at hdue; rw [if_neg (by simp [hb])]; unfold tenMs; omega
    obtain ⟨t, heq, h1, h2, h3⟩ := leaveTimeout_struck s g w q.level G q hG hz hq l hw hnow hc
    have hsame : LogSame s t := ⟨congrArg (fun (x : State) => ({ x with accesses := s.accesses } : State)) h2⟩
    refine ⟨s.leaveTimeout g q.level, finish_of_present _ (by rw [heq]; exact State.log_absent _ _ (hsame.logFits hfits)), ?_⟩
    rw [heq]
    refine ⟨log_struck s t g G l _ _ h1, ?_, hsame.logged _ (State.log_logged t _ (hsame.logFits hfits))⟩
    have := congrArg State.leaves (t.log_frame { cls := 14, sev := 0, ctx := G.ctx })
    exact this.trans h3

end Sys2Proof.Machine
end

section
/-! SUPPORT. The issue of an engine job (R342, R343): what a request that passes its checks comes to, and the requests of the copies, plane
copies and transforms (R346 to R348): O26. -/

namespace Sys2Proof.Machine

/-! ## A request that passes its checks -/

/-- What a job's tag or barrier must be for it to take the job (R100, R102). -/
def JobBound (f : Full) (s : State) (r : Ref) (q : JobReq) : Prop :=
  let p := s.place r (f.ext.getLsbD 0) (s.op32 r f.c.toNat)
  if f.s = true then s.op32 r f.c.toNat % 16 = 0 ∧ (s.bar p.1 p.2).exp ≠ 0 ∧ (s.bar p.1 p.2).txin + q.cin < 2 ^ 24 ∧ (s.bar p.1 p.2).txout + q.cout < 2 ^ 24
  else r.G.inTags f.c.toNat = true ∧ s.tagFull r.g f.c.toNat = false
/-- The tag or barrier that a job counts in. -/
def jobBind (f : Full) (s : State) (r : Ref) : Bind :=
  let p := s.place r (f.ext.getLsbD 0) (s.op32 r f.c.toNat)
  if f.s then .bar p.1 p.2 else .tag f.c.toNat
/-- Nothing stands in the way of a request but the room of the engines' queues (R76, R343). -/
def JobReady (f : Full) (s : State) (r : Ref) (q : JobReq) : Prop :=
  JobBound f s r q ∧ (q.level ≤ r.G.grant ∨ r.T.wait = .passed) ∧ r.T.cp < 63 ∧ s.drained r.g r.t = true ∧ s.tableFull = false

theorem withLeave_granted {level : Nat} {s : State} {r : Ref} (act : State → State × TOut) (h : level ≤ r.G.grant ∨ r.T.wait = .passed) :
    withLeave level s r act = act s := if_pos h

/-- A request that passes its checks depends on the room of its die's queues alone. -/
theorem startJob_ready {req : Full → State → Ref → Except TOut JobReq} {f : Full} {s : State} {r : Ref} {q : JobReq} (hq : req f s r = .ok q)
    (hal : q.align = none) (h : JobReady f s r q) : startJob req f s r =
      if s.enginesFull (dieOf r.G.core) then if f.pd = 7 then (s, .wait .resource) else (s, donePred f false)
      else (s.enterJob r q f.mod.toNat (jobBind f s r) (some (s.pickEngine (dieOf r.G.core))), .done { cp := 1, preds := [(f.pd.toNat, true)] }) := by
  obtain ⟨hb, hl, hcp, hdr, htab⟩ := h
  unfold JobBound at hb
  cases hs : f.s <;> simp only [hs, Bool.false_eq_true, if_false, if_true] at hb
  case false =>
    obtain ⟨htag, hfull⟩ := hb
    simp [startJob, jobBind, hq, hal, hs, htag, withLeave_granted _ hl, hdr, htab, hfull, Nat.not_le.2 hcp]
  case true =>
    obtain ⟨h16, hexp, hin, hout⟩ := hb
    generalize hp : s.place r (f.ext.getLsbD 0) (s.op32 r f.c.toNat) = p at *
    have hbar : ¬ ((s.bar p.1 p.2).exp = 0 ∨ 2 ^ 24 ≤ (s.bar p.1 p.2).txin + q.cin ∨ 2 ^ 24 ≤ (s.bar p.1 p.2).txout + q.cout) := by omega
    simp only [startJob, jobBind, hq, hal, hs, h16, hp, hbar, withLeave_granted _ hl, hdr, htab, Nat.not_le.2 hcp, not_true, false_and, and_false,
      ne_eq, or_self, if_false, if_true, Bool.false_eq_true]

/-! ## A job that enters its queue touches no absent memory -/

theorem State.traceNote_absent (s : State) (g : Nat) (w : Bool) (a : Addr) (n : Nat) : (s.traceNote g w a n).absent = s.absent := by
  unfold State.traceNote
  split <;> [rfl; (split <;> rfl)]

theorem traceNotes_absent (g : Nat) (w : Bool) (l : List (Addr × Nat × Nat)) : ∀ s : State,
    (l.foldl (fun (s : State) e => s.traceNote g w e.1 e.2.1) s).absent = s.absent := by
  induction l with
  | nil => exact fun _ => rfl
  | cons e l ih => exact fun s => (ih _).trans (s.traceNote_absent g w e.1 e.2.1)

theorem State.noteRanges_absent (s : State) (g ctx : Nat) (l : List (Addr × Nat × Nat)) : (s.noteRanges g ctx l).absent = s.absent := by
  have h := (traceNotes_absent g true (l.filter (·.2.2 != 0)) ((l.filter (·.2.2 != 1)).foldl (fun (s : State) e => s.traceNote g false e.1 e.2.1) s)).trans
    (traceNotes_absent g false (l.filter (·.2.2 != 1)) s)
  unfold State.noteRanges
  simp only
  split <;> exact h

theorem State.enterJob_absent (s : State) (r : Ref) (q : JobReq) (scope : Nat) (b : Bind) (e : Option Nat) :
    (s.enterJob r q scope b e).absent = s.absent := by
  unfold State.enterJob
  cases b <;> exact State.noteRanges_absent ..

/-! ## Jobs over an issue group -/

/-- An instruction that issues a job for each thread enters it, or with every queue of the die full clears `PD` (R343). -/
theorem engineJob_of {i : Instr} {op : Nat} {f : Full} {req : Full → State → Ref → Except TOut JobReq} {cond : State → Ref → Prop}
    {q : State → Ref → JobReq} (hexec : Sys2Proof.Machine.exec i = issueTurn op f (startJob req f)) (hop : op ≠ 0x0A6)
    (hreq : ∀ s r, cond s r → req f s r = .ok (q s r) ∧ (q s r).align = none) :
    TurnDo i op f (fun s r => cond s r ∧ JobReady f s r (q s r) ∧ s.enginesFull (dieOf r.G.core) = false)
      (fun s r => s.enterJob r (q s r) f.mod.toNat (jobBind f s r) (some (s.pickEngine (dieOf r.G.core))))
      (fun _ _ => { cp := 1, preds := [(f.pd.toNat, true)] }) ∧
    TurnDo i op f (fun s r => cond s r ∧ JobReady f s r (q s r) ∧ s.enginesFull (dieOf r.G.core) = true ∧ f.pd ≠ 7) (fun s _ => s)
      (fun _ _ => givesPred f false) := by
  refine ⟨turnDo_of hexec hop (fun s r h => ?_) fun s r _ hs => (s.enterJob_absent ..).trans hs, turnDo_of hexec hop (fun s r h => ?_) fun _ _ _ hs => hs⟩
  · obtain ⟨hc, hr, hroom⟩ := h
    rw [startJob_ready (hreq s r hc).1 (hreq s r hc).2 hr, hroom]
    rfl
  · obtain ⟨hc, hr, hfull, hpd⟩ := h
    rw [startJob_ready (hreq s r hc).1 (hreq s r hc).2 hr, hfull, if_pos rfl, if_neg hpd]
    rfl

/-! ## Plane copies and transforms whose operands pass -/

/-- The operands of a plane copy within their limits (R347). -/
theorem pcopyOps_ok {f : Full} {s : State} {r : Ref} {out : Bool} (hn : 1 ≤ s.op64 r f.a.toNat / 2 ^ 32) (hn' : s.op64 r f.a.toNat / 2 ^ 32 < 2 ^ 24)
    (hz : bitsN (s.b32 r f.b) 31 26 = 0) (hk : 1 ≤ bitsN (s.b32 r f.b) 20 16) (hkm : bitsN (s.b32 r f.b) 20 16 ≤ bitsN (s.b32 r f.b) 25 21)
    (hm : bitsN (s.b32 r f.b) 25 21 ≤ 24) (hout : out = true → bitsN (s.b32 r f.b) 20 16 = 1) :
    pcopyOps f s r out = .ok (s.op64 r f.a.toNat % 2 ^ 32, s.op64 r f.a.toNat / 2 ^ 32, bitsN (s.b32 r f.b) 15 0, bitsN (s.b32 r f.b) 20 16, bitsN (s.b32 r f.b) 25 21) := by
  unfold pcopyOps
  simp only
  rw [if_neg (by omega), if_neg]
  rintro (h | h | h | h | h)
  · exact h hz
  · omega
  · omega
  · omega
  · exact h.2 (hout h.1)

/-- The image of a plane copy that lies in the allocation at 32 bytes (R139, R347). -/
theorem pcopyImage_ok {f : Full} {s : State} {r : Ref} {out : Bool} {blk n h k m : Nat} (hops : pcopyOps f s r out = .ok (blk, n, h, k, m))
    (hfit : (m + 2) * planeS n ≤ r.G.lr.alloc) (h32 : s.op32 r f.d.toNat % 32 = 0) : pcopyImage f s r out = .ok (
      let cin := if out then 0 else (m - k + 3) * planeS n / 32
      let cout := if out then (m + 2) * planeS n / 32 else 0
      { kind := if out then .pcopyOut (s.op32 r f.d.toNat) h blk n m else .pcopyIn (s.op32 r f.d.toNat) h blk n k m, cin := cin, cout := cout,
        level := pcopyLevel (cin + cout), planes := some m }) := by
  simp only [pcopyImage, hops]
  rw [if_neg (Nat.not_lt.2 hfit), if_pos h32]

theorem reqPcopyLs_ok {f : Full} {s : State} {r : Ref} {blk n h k m : Nat} (hops : pcopyOps f s r false = .ok (blk, n, h, k, m)) :
    reqPcopyLs f s r = .ok (
      let cin := (m + 2) * planeLines blk n
      { kind := .pcopyLs f.d.toNat h blk n k m, cin := cin, level := pcopyLevel cin, planes := some m }) := by
  simp only [reqPcopyLs, hops]

/-- A transform of aligned layout records: what they read as gives its count and its leave (R348, log 20). -/
theorem reqTxfm_ok {f : Full} {s : State} {r : Ref} {L : Option (List Layout)}
    (hl : s.txLayouts r.G.ctx (s.b32 r f.b) (devA s r f.d) (devA s r f.a) = L) (h4 : s.b32 r f.b ≤ 4) (hd : (devA s r f.d).toNat % 64 = 0)
    (ha : (devA s r f.a).toNat % 64 = 0) : reqTxfm f s r = .ok (
      let q : JobReq := { kind := .txfm (s.b32 r f.b) (devA s r f.d) (devA s r f.a) }
      match (generalizing := false) L with
      | some (x :: y :: l) => { q with cin := y.sectors, level := s.txLevel r.G.ctx (x :: y :: l) }
      | _ => q) := by
  have hd' : ¬ (devA s r f.d).toNat % 64 ≠ 0 := not_not.2 hd
  have ha' : ¬ (devA s r f.a).toNat % 64 ≠ 0 := not_not.2 ha
  simp only [reqTxfm, if_neg (Nat.not_lt.2 h4), if_neg hd', if_neg ha', hl]
  rcases L with _ | _ | ⟨x, _ | ⟨y, l⟩⟩ <;> rfl

/-- Settles O26: every form issues its jobs by `startJob`; what is left is that its request passes where the operands do. -/
theorem engineJobsEnterQueues : Obligations.EngineJobsEnterQueues := by
  intro f bar bind bound ready job n dev own gang fits blk cnt h k m planes image leave leaveOf
  have lift {i : Instr} {op : Nat} {cond : State → Ref → Prop} {q : State → Ref → JobReq} (req : Full → State → Ref → Except TOut JobReq)
      (hexec : Sys2Proof.Machine.exec i = issueTurn op f (startJob req f)) (hop : op ≠ 0x0A6)
      (hreq : ∀ s r, cond s r → req f s r = .ok (q s r) ∧ (q s r).align = none) : job i op cond q := engineJob_of hexec hop hreq
  have ops {s : State} {r : Ref} {out : Bool} (hp : planes s r) (hout : out = true → k s r = 1) :
      pcopyOps f s r out = .ok (blk s r, cnt s r, h s r, k s r, m s r) := by
    obtain ⟨hn, hn', hz, hk, hkm, hm⟩ := hp
    exact pcopyOps_ok hn hn' hz hk hkm hm hout
  refine ⟨lift reqCopy rfl (by decide) fun s r _ => ⟨rfl, rfl⟩, lift reqCopyIn rfl (by decide) fun s r h => ⟨if_pos (decide_eq_true h), rfl⟩,
    lift reqCopyOut rfl (by decide) fun s r h => ⟨if_pos (decide_eq_true h), rfl⟩, lift reqCopySs rfl (by decide) fun s r h => ⟨if_pos (decide_eq_true h), rfl⟩,
    lift reqCopyLs rfl (by decide) fun s r _ => ⟨rfl, rfl⟩, lift reqPcopyIn rfl (by decide) fun s r hi => ⟨?_, rfl⟩,
    lift reqPcopyOut rfl (by decide) fun s r hi => ⟨?_, rfl⟩, lift reqPcopyLs rfl (by decide) fun s r hp => ⟨reqPcopyLs_ok (ops hp nofun), rfl⟩,
    lift reqTxfm rfl (by decide) fun s r ht => ?_⟩
  · obtain ⟨hp, hfit, h32⟩ := hi
    exact pcopyImage_ok (ops hp nofun) hfit h32
  · obtain ⟨⟨hp, hfit, h32⟩, hk⟩ := hi
    exact (pcopyImage_ok (ops hp fun _ => hk) hfit h32).trans (by simp [pcopyLevel, leave])
  · obtain ⟨h4, hd, ha⟩ := ht
    rcases hl : s.txLayouts r.G.ctx (n s r) (dev s r f.d) (dev s r f.a) with _ | _ | ⟨x, _ | ⟨y, l⟩⟩ <;> exact ⟨reqTxfm_ok hl h4 hd ha, rfl⟩

end Sys2Proof.Machine
end

section
/-! SUPPORT. What a write event of the total order may touch (R171, R211, R213, R217), whatever hitch tables hold: O52, O54. -/

namespace Sys2Proof.Machine

/-- From s to t nothing changed but what a write event may touch: groups and host queues (pushes, waits that end), timestamps, memory, hitch
tables with what they spill, snoops, and the poison that it clears. -/
structure Touches (s t : State) : Prop where
  rest : ({ t with groups := s.groups, queues := s.queues, mem := s.mem, port := s.port, cores := s.cores, free := s.free,
                   absent := s.absent } : State) = s
  port : ({ t.port with table := s.port.table, lineSeq := s.port.lineSeq, ts := s.port.ts, snooped := s.port.snooped, snoops := s.port.snoops,
                        poison := s.port.poison } : Port) = s.port
  poison : t.port.poison ⊆ s.port.poison

theorem Touches.refl (s : State) : Touches s s := ⟨rfl, rfl, List.Subset.refl _⟩
theorem Touches.trans {s t u : State} (h : Touches s t) (k : Touches t u) : Touches s u where
  rest := (congrArg (fun (x : State) =>
    ({ x with groups := s.groups, queues := s.queues, mem := s.mem, port := s.port, cores := s.cores, free := s.free, absent := s.absent } : State))
    k.rest).trans h.rest
  port := (congrArg (fun (x : Port) =>
    ({ x with table := s.port.table, lineSeq := s.port.lineSeq, ts := s.port.ts, snooped := s.port.snooped, snoops := s.port.snoops,
              poison := s.port.poison } : Port)) k.port).trans h.port
  poison := List.Subset.trans k.poison h.poison
theorem Touches.foldl {α : Type} (f : State → α → State) (h : ∀ s a, Touches s (f s a)) (l : List α) : ∀ s, Touches s (l.foldl f s) := by
  induction l with
  | nil => exact Touches.refl
  | cons a l ih => exact fun s => (h s a).trans (ih _)
theorem Touches.ctxs {s t : State} (h : Touches s t) : t.ctxs = s.ctxs := (congrArg State.ctxs h.rest :)
theorem Touches.edge {s t : State} (h : Touches s t) : t.edge = s.edge := (congrArg State.edge h.rest :)
theorem Touches.clock {s t : State} (h : Touches s t) : t.clock = s.clock := (congrArg State.clock h.rest :)
theorem Touches.hwq {s t : State} (h : Touches s t) : t.hwq = s.hwq := (congrArg State.hwq h.rest :)
theorem Touches.items {s t : State} (h : Touches s t) : t.items = s.items := (congrArg State.items h.rest :)
theorem Touches.jobs {s t : State} (h : Touches s t) : t.jobs = s.jobs := (congrArg State.jobs h.rest :)
theorem Touches.hold {s t : State} (h : Touches s t) : t.port.hold = s.port.hold := (congrArg Port.hold h.port :)
theorem Touches.stalls {s t : State} (h : Touches s t) : t.port.stalls = s.port.stalls := (congrArg Port.stalls h.port :)
theorem Touches.unpoisoned {s t : State} (h : Touches s t) (hs : s.port.poison = []) : t.port.poison = [] :=
  List.subset_nil.1 (hs ▸ h.poison)

theorem homeWrite_touches (s : State) (w : Writer) (pts l : Nat) : Touches s (s.homeWrite w pts l) := by
  unfold State.homeWrite State.modPort
  dsimp only
  split <;> exact ⟨rfl, rfl, List.Subset.refl _⟩
theorem setEntry_touches (s : State) (e x : HEntry) : Touches s (s.setEntry e x) := ⟨rfl, rfl, List.Subset.refl _⟩
theorem ownBytes_touches (s : State) (ctx n : Nat) (a : Addr) : Touches s (s.ownBytes ctx a n) := by
  unfold State.ownBytes
  split
  next ps _ =>
    exact Touches.trans (t := { s with mem := memScatter s.mem (ps.zip ((List.range n).map fun k => Config.freeByte s.free k)), free := s.free + 1 })
      ⟨rfl, rfl, List.Subset.refl _⟩ (Touches.foldl _ (fun s l => homeWrite_touches s _ _ l) _ _)
  next => exact Touches.refl s
theorem spillAt_touches (s : State) (e : HEntry) (n : Nat) : Touches s (s.spillAt e n) := by
  refine (setEntry_touches s e { e with spill := some n }).trans ?_
  unfold State.spillAt
  dsimp only
  split
  · split
    · exact ownBytes_touches ..
    · exact Touches.refl _
  · exact Touches.refl _
theorem tableRoom_touches {s t : State} {line : Nat} (h : s.tableRoom line = some t) : Touches s t := by
  unfold State.tableRoom at h
  split at h
  · cases h; exact Touches.refl s
  · obtain ⟨e, _, he⟩ := List.exists_of_findSome?_eq_some h
    split at he
    · cases he
    · obtain ⟨n, _, rfl⟩ := Option.map_eq_some_iff.1 he
      exact spillAt_touches s e n
theorem unspill_touches (s : State) (line : Nat) : Touches s (s.unspill line) := by
  refine Touches.foldl _ (fun s e => ?_) _ s
  split
  next t ht =>
    split
    · exact (setEntry_touches s e _).trans (tableRoom_touches ht)
    · exact Touches.refl s
  next => exact Touches.refl s
theorem pushLine_touches (s : State) (line : Nat) : Touches s (s.pushLine line) := by
  unfold State.pushLine
  split
  · exact Touches.refl s
  · exact (unspill_touches s line).trans ⟨rfl, rfl, List.Subset.refl _⟩
theorem lineWritten_touches (s : State) (w : Writer) (l : Nat) : Touches s (s.lineWritten w l) := by
  have hpush : Touches s ((if w.quiet then s else s.pushLine l).modThreads (·.lineWritten l)) := by
    refine Touches.trans (t := if w.quiet then s else s.pushLine l) ?_ ⟨rfl, rfl, List.Subset.refl _⟩
    split
    · exact Touches.refl s
    · exact pushLine_touches s l
  unfold State.lineWritten
  dsimp only
  split
  · exact (hpush.trans (homeWrite_touches _ _ _ _)).trans ⟨rfl, rfl, List.Subset.refl _⟩
  · exact hpush.trans (homeWrite_touches _ _ _ _)
theorem checkAll_touches (s : State) (ps : List Nat) : Touches s (s.checkAll ps) := by
  unfold State.checkAll
  split <;> exact ⟨rfl, rfl, List.Subset.refl _⟩
theorem writeEvent_touches (s : State) (w : Writer) (cells : List (Nat × Byte)) : Touches s (s.writeEvent w cells) := by
  unfold State.writeEvent
  dsimp only
  refine ((checkAll_touches s _).trans (t := s.checkAll (cells.map (·.1))) ?_).trans (Touches.foldl _ (fun s l => lineWritten_touches s w l) _ _)
  exact ⟨rfl, rfl, List.filter_subset_self _⟩

/-! ## The bytes of a write event -/

theorem lineWritten_mem (s : State) (w : Writer) (l : Nat) (h : Unspilled s) : (s.lineWritten w l).mem = s.mem := by
  have hpush : ((if w.quiet then s else s.pushLine l).modThreads (·.lineWritten l)).mem = s.mem := by
    split
    · rfl
    · unfold State.pushLine
      split
      · rfl
      · rw [unspill_unspilled s l h]; rfl
  unfold State.lineWritten
  dsimp only
  split <;> exact hpush
/-- Where no hitch entry is spilled a write event writes its cells alone. -/
theorem writeEvent_mem (s : State) (w : Writer) (cells : List (Nat × Byte)) (h : Unspilled s) :
    (s.writeEvent w cells).mem = memScatter s.mem cells := by
  have hfold : ∀ (l : List Nat) (s : State), Unspilled s → (l.foldl (fun (s : State) l => s.lineWritten w l) s).mem = s.mem := by
    intro l
    induction l with
    | nil => exact fun s _ => rfl
    | cons x l ih => exact fun s h => (ih _ ((lineWritten_rippled s w x h).unspilled h)).trans (lineWritten_mem s w x h)
  unfold State.writeEvent
  dsimp only
  have hc : (s.checkAll (cells.map (·.1))).mem = s.mem ∧ (s.checkAll (cells.map (·.1))).port = s.port := by unfold State.checkAll; split <;> exact ⟨rfl, rfl⟩
  rw [hfold _ _ (by unfold Unspilled; exact hc.2 ▸ h)]
  exact congrArg (memScatter · cells) hc.1
theorem writeEvent_holds (s : State) (w : Writer) (cells : List (Nat × Byte)) (h : Unspilled s) (hm : Memory.wf s.mem = true) :
    Holds s (s.writeEvent w cells) cells := memScatter_holds _ _ _ hm (writeEvent_mem s w cells h)

end Sys2Proof.Machine
end

section
/-! SUPPORT. Commands of host queues (R241, R242): what an entry that is offered comes to, at once or lasting; the pools, attestation, quiescence,
checkpoint and restore (R246 to R251, R465, R500): O54. -/

namespace Sys2Proof.Machine

/-! ## An entry that is taken -/

theorem queues_touches (s : State) (l : Sparse HostQueue) : Touches s { s with queues := l } := ⟨rfl, rfl, List.Subset.refl _⟩
theorem queueTaken_touches (s : State) (q : Nat) : Touches s (s.queueTaken q) := by
  unfold State.queueTaken
  split
  · exact Touches.refl s
  · dsimp only
    split
    · exact (queues_touches s _).trans (writeEvent_touches ..)
    · exact queues_touches s _

section
variable {s : State} {q code : Nat} {Q : HostQueue} {e : Entry} {i : Instr}

theorem simple_ok {k : State → HostQueue → Entry → Except Nat State} {u : State} (h : Offers s q Q e code) (hk : k (s.queueTaken q) Q e = .ok u) :
    s.simple q code k = u.status (statusOf q Q e) 1 0 0 := by
  simp only [State.simple, h.offer, h.cmd, h.first, hk, ne_eq, not_true, or_self, if_false]
  rfl
theorem simple_error {k : State → HostQueue → Entry → Except Nat State} {d : Nat} (h : Offers s q Q e code) (hk : k (s.queueTaken q) Q e = .error d) :
    s.simple q code k = (s.queueTaken q).status (statusOf q Q e) 2 d 0 := by
  simp only [State.simple, h.offer, h.cmd, h.first, hk, ne_eq, not_true, or_self, if_false]
  rfl
theorem lasting_ok {k : State → Entry → Except Nat (State × Option Running)} {u : State} (h : Offers s q Q e code)
    (hk : k (s.queueTaken q) e = .ok (u, none)) : s.lasting q code k = u.status (statusOf q Q e) 1 0 0 := by
  simp only [State.lasting, h.offer, h.cmd, h.first, hk, ne_eq, not_true, or_self, if_false]
  rfl
theorem lasting_goes {k : State → Entry → Except Nat (State × Option Running)} {u : State} {r : Running} (h : Offers s q Q e code)
    (hk : k (s.queueTaken q) e = .ok (u, some r)) :
    s.lasting q code k = u.modEdge fun x => { x with running := x.running ++ [(q, statusOf q Q e, r)] } := by
  simp only [State.lasting, h.offer, h.cmd, h.first, hk, ne_eq, not_true, or_self, if_false]
  rfl
theorem lasting_error {k : State → Entry → Except Nat (State × Option Running)} {d : Nat} (h : Offers s q Q e code)
    (hk : k (s.queueTaken q) e = .error d) : s.lasting q code k = (s.queueTaken q).status (statusOf q Q e) 2 d 0 := by
  simp only [State.lasting, h.offer, h.cmd, h.first, hk, ne_eq, not_true, or_self, if_false]
  rfl

/-- A command whose step leaves u and writes its status ends with it. -/
theorem ends_of {f : State} {u : State} {c d : Nat} (hx : Sys2Proof.Machine.exec i s = finish f) (hf : f = u.status (statusOf q Q e) c d 0) :
    Ends i s q Q e u c d := fun ht => by rw [hx, hf, finish_of_present _ ht]
theorem lasts_of {f : State} {u : State} {r : Running} (hx : Sys2Proof.Machine.exec i s = finish f)
    (hf : f = u.modEdge fun x => { x with running := x.running ++ [(q, statusOf q Q e, r)] }) : Lasts i s q Q e u r :=
  fun ht => by rw [hx, hf, finish_of_present _ (show (State.modEdge _ _).absent = none from ht)]
end

/-! ## LAUNCH and RELAUNCH -/

theorem commandable_live {s : State} {c : Nat} {C : Ctx} (hc : s.ctx? c = some C) (hf : s.frozen c = false) : s.commandable c = some C := by
  simp [State.commandable, hf, hc]
theorem commandable_none {s : State} {c : Nat} (h : s.ctx? c = none ∨ s.frozen c = true) : s.commandable c = none := by
  unfold State.commandable
  rcases h with h | h <;> simp [h]

/-- A record of a live context enters the hardware queue of its host queue (R69, R241). -/
theorem launchEntry_enters {s : State} {q code : Nat} {Q : HostQueue} {e : Entry} {C : Ctx} (ho : s.offered q = some (Q, e)) (hcmd : e.cmd = code)
    (hc : s.ctx? (if Q.priv then e.a2 % 64 else Q.ctx) = some C) (hf : s.frozen (if Q.priv then e.a2 % 64 else Q.ctx) = false) :
    s.launchEntry q code = s.pushHw Q.hwq
      { ctx := if Q.priv then e.a2 % 64 else Q.ctx, kind := if code = 1 then .launch else .relaunch, addr := BitVec.ofNat 64 e.a0,
        param := if code = 1 then 0 else BitVec.ofNat 64 e.a1, host := some (statusOf q Q e) } := by
  simp only [State.launchEntry, ho, hcmd, ne_eq, not_true, if_false, commandable_live hc hf]
  rfl
theorem launchEntry_refused {s : State} {q code : Nat} {Q : HostQueue} {e : Entry} (h : Offers s q Q e code)
    (hc : s.ctx? (if Q.priv then e.a2 % 64 else Q.ctx) = none ∨ s.frozen (if Q.priv then e.a2 % 64 else Q.ctx) = true) :
    s.launchEntry q code = (s.queueTaken q).status (statusOf q Q e) 2 0 0 := by
  simp only [State.launchEntry, h.offer, h.cmd, ne_eq, not_true, if_false, commandable_none hc, h.first, if_true]
  rfl

/-! ## The tail of a queue (R220, R242) -/

/-- The slot of a tail's subscription once its push has landed: one that waits behind it is sent. -/
def Slot.landed (x : Slot) (m : Nat) : Slot :=
  match x.next with
  | some p => { x with sent := some p, next := none, seqs := [m] }
  | none => { x with sent := none, seqs := [m] }
theorem Slot.advance_landed (x : Slot) (m : Nat) (h : x.each = false) : ({ x with sent := none, seqs := [m] } : Slot).advance = x.landed m := by
  unfold Slot.advance Slot.landed
  cases hn : x.next <;> simp [h]

/-- The push of a tail line gives the tail, and stops a queue whose count goes beyond its ring. -/
theorem tailPush_eq {s : State} {q : Nat} {Q : HostQueue} {x : Slot} {data : List Byte} {m lost : Nat} (hQ : Map.get? s.queues q = some Q)
    (hst : Q.state = 1) (hw : s.edge.wymDown = false) (hx : Q.hitch = some x) (he : x.each = false) (hs : x.sent = some (data, m, lost)) :
    s.tailPush q =
      let t := s.setQueue q { Q with tail := leNat (data.take 4), dead := [], hitch := some (x.landed m) }
      if Q.nent < (leNat (data.take 4) + 2 ^ 32 - Q.head) % 2 ^ 32 then t.stopQueue q 2 else t := by
  simp only [State.tailPush, hQ, hx, hs, hst, hw, Option.bind_some, Option.map_some, ne_eq, not_true, Bool.false_eq_true, or_self, if_false,
    Slot.advance_landed x m he]

/-- A queue that stops: its state in the queue and in its descriptor, and none of its records waits any more (log 58). -/
theorem stopQueue_stops {s : State} {q st : Nat} {Q : HostQueue} (hQ : Map.get? s.queues q = some Q) (hfit : Q.desc + 64 ≤ memSize)
    (hm : Memory.wf s.mem = true) : (s.stopQueue q st).absent = s.absent ∧
      Map.get? (s.stopQueue q st).queues q = some { Q with state := st } ∧ Holds s (s.stopQueue q st) [(Q.desc + 0x1E, BitVec.ofNat 8 (st % 256))] ∧
      ∀ x ∈ (s.stopQueue q st).hwq, ∀ w ∈ x.2, ∀ h, w.host = some h → h.queue ≠ q := by
  obtain ⟨p, y, _, hy, hpoke⟩ := State.pokeRaw_shape ({ s with queues := Map.set s.queues q { Q with state := st } }) (Q.desc + 0x1E) (leBytes 1 st)
  have hstate : s.queueState q st = { s with queues := Map.set s.queues q { Q with state := st }, mem := memWrite s.mem (Q.desc + 0x1E) (leBytes 1 st),
                                             port := p, absent := y } := by
    unfold State.queueState
    rw [hQ]
    exact hpoke
  have hlen : (leBytes 1 st).length = 1 := rfl
  unfold State.stopQueue
  rw [hstate]
  refine ⟨hy (by rw [hlen]; omega), Map.get?_set_self .., memScatter_holds _ _ _ hm rfl, ?_⟩
  intro x hx w hw h hh heq
  obtain ⟨z, _, rfl⟩ := List.mem_map.1 hx
  have := (List.mem_filter.1 hw).2
  simp [Waiting.hostQueue, hh, heq] at this

/-! ## Pools (R241, R465) -/

theorem readPhys_clean {s : State} {a n : Nat} (hp : s.port.poison = []) (h : a + n ≤ memSize) : s.readPhys a n = some (memBytes s.mem a n) := by
  simp [State.readPhys, State.poisonedIn, hp, h]

theorem memBytes_slice (m : List Host.Cell) (a n o k : Nat) (h : o + k ≤ n) : ((memBytes m a n).drop o).take k = memBytes m (a + o) k := by
  apply List.ext_getElem
  · simp [memBytes]; omega
  · intro i h1 h2
    simp [memBytes, Nat.add_assoc]

/-- A page that a pool takes: its size is in bit 0, and it is aligned and within the device (R465). -/
def GoodPage (x : Nat) : Prop :=
  if x % 2 = 1 then (x - 1) % 2 ^ 21 = 0 ∧ x - 1 + 2 ^ 21 ≤ memSize else x % 2 ^ 16 = 0 ∧ x + 2 ^ 16 ≤ memSize
theorem poolEntry_good {x : Nat} (h : GoodPage x) : poolEntry x = some (if x % 2 = 1 then (true, x - 1) else (false, x)) := by
  unfold GoodPage at h
  rcases Nat.mod_two_eq_zero_or_one x with hb | hb <;> simp only [hb, if_true, if_false, Nat.zero_ne_one] at h ⊢ <;>
    simp [poolEntry, bitN, hb] <;> omega
theorem poolEntry_bad {x : Nat} (h : ¬ GoodPage x) : poolEntry x = none := by
  unfold GoodPage at h
  rcases Nat.mod_two_eq_zero_or_one x with hb | hb <;> simp only [hb, if_true, if_false, Nat.zero_ne_one] at h <;>
    simp only [poolEntry, bitN, pow_zero, Nat.div_one, hb] <;> exact if_pos (by simp; omega)

theorem poolEntries_any (xs : List Nat) : (xs.map poolEntry).any (·.isNone) = true ↔ ∃ x ∈ xs, ¬ GoodPage x := by
  simp only [List.any_map, List.any_eq_true, Function.comp_apply]
  refine exists_congr fun x => and_congr_right fun _ => ?_
  by_cases h : GoodPage x
  · simp [poolEntry_good h, h]
  · simp [poolEntry_bad h, h]
/-- The pages of a list by their sizes. -/
theorem poolEntries_split (xs : List Nat) (h : ∀ x ∈ xs, GoodPage x) :
    let ps : List (Bool × Nat) := (xs.map poolEntry).filterMap id
    (ps.filter (fun x => !x.1)).map (·.2) = xs.filter (· % 2 == 0) ∧ (ps.filter (fun x => x.1)).map (·.2) = (xs.filter (· % 2 == 1)).map (· - 1) := by
  induction xs with
  | nil => exact ⟨rfl, rfl⟩
  | cons x xs ih =>
    obtain ⟨h0, h1⟩ := ih fun y hy => h y (List.mem_cons_of_mem x hy)
    have hcons (b : Bool × Nat) (l : List (Option (Bool × Nat))) : (some b :: l).filterMap id = b :: l.filterMap id := rfl
    simp only [List.map_cons, poolEntry_good (h x List.mem_cons_self), hcons]
    rcases Nat.mod_two_eq_zero_or_one x with hb | hb <;>
      simpa only [hb, if_true, if_false, Nat.zero_ne_one, List.filter_cons, Bool.not_false, Bool.not_true, Bool.false_eq_true, List.map_cons, List.cons.injEq,
        beq_self_eq_true, beq_iff_eq, Nat.one_ne_zero, true_and] using And.intro h0 h1
/-- The pages named by a list at a physical address. -/
def State.pageList (s : State) (a n : Nat) : List Nat := (List.range n).map fun k => leNat (memBytes s.mem (a + 8 * k) 8)
theorem pageList_read (s : State) (a n : Nat) :
    ((List.range n).map fun k => poolEntry (leNat (((memBytes s.mem a (8 * n)).drop (8 * k)).take 8))) = (s.pageList a n).map poolEntry := by
  rw [State.pageList, List.map_map]
  refine List.map_congr_left fun k hk => ?_
  have hk := List.mem_range.1 hk
  rw [memBytes_slice _ _ _ _ _ (by omega)]
  rfl

section
variable {s : State} {q : Nat} {Q : HostQueue} {e : Entry}

/-- A list of good pages adds them all. -/
theorem poolAdd_adds (h : Offers s q Q e 12) (h2 : e.a2 = 0) (hfit : e.a0 + 8 * e.a1 ≤ memSize) (hp : s.port.poison = []) (hh : s.port.hold = [])
    (hst : s.port.stalls = []) (hg : ∀ x ∈ (s.queueTaken q).pageList e.a0 e.a1, GoodPage x) : s.poolAdd q = ((s.queueTaken q).modPort fun p =>
      { p with pool64 := p.pool64 ++ ((s.queueTaken q).pageList e.a0 e.a1).filter (· % 2 == 0),
               pool2m := p.pool2m ++ (((s.queueTaken q).pageList e.a0 e.a1).filter (· % 2 == 1)).map (· - 1) }).status (statusOf q Q e) 1 0 0 := by
  have ht := queueTaken_touches s q
  simp only [State.poolAdd, h.offer]
  rw [if_neg (by omega)]
  refine simple_ok h ?_
  have hany := Bool.eq_false_iff.2 (mt (poolEntries_any ((s.queueTaken q).pageList e.a0 e.a1)).1 fun ⟨x, hx, hb⟩ => hb (hg x hx))
  obtain ⟨h64, h2m⟩ := poolEntries_split _ hg
  simp only [h2, ne_eq, not_true, if_false, readPhys_clean (ht.unpoisoned hp) hfit, pageList_read, hany, Bool.false_eq_true, h64, h2m, State.modPort,
    ht.hold, ht.stalls, hh, hst, List.map_nil, List.append_nil]
  split <;> rfl
/-- A list with a bad page adds none (log 57). -/
theorem poolAdd_refuses (h : Offers s q Q e 12) (h2 : e.a2 = 0) (hfit : e.a0 + 8 * e.a1 ≤ memSize) (hp : s.port.poison = [])
    (hg : ∃ x ∈ (s.queueTaken q).pageList e.a0 e.a1, ¬ GoodPage x) : s.poolAdd q = (s.queueTaken q).status (statusOf q Q e) 2 0 0 := by
  simp only [State.poolAdd, h.offer]
  rw [if_neg (by omega)]
  refine simple_error h ?_
  simp only [h2, ne_eq, not_true, if_false, readPhys_clean ((queueTaken_touches s q).unpoisoned hp) hfit, pageList_read, (poolEntries_any _).2 hg, if_true]
theorem poolReport_reports (h : Offers s q Q e 12) (h2 : e.a2 = 1) (h32 : e.a0 % 32 = 0) (hfit : e.a0 + 32 ≤ memSize) :
    let u := s.queueTaken q
    s.poolReport q = (u.writeEvent { ctx := 0, stamp := none } (((List.range 32).map (e.a0 + ·)).zip
      (leBytes 8 (65536 * u.port.pool64.length) ++ leBytes 8 (2 ^ 21 * u.port.pool2m.length) ++
        leBytes 8 ((u.port.packed.map fun g => (Config.packedBytes g + 4095) / 4096 * 4096 + 4096 + Config.unitMapBytes).foldl (· + ·) 0) ++
        leBytes 8 (65536 * u.port.packed.length)))).status (statusOf q Q e) 1 0 0 := by
  simp only [State.poolReport, h.offer]
  rw [if_neg (by omega)]
  refine simple_ok h ?_
  simp only [h32, Nat.not_lt.2 hfit, ne_eq, not_true, or_self, if_false]

/-! ## Attestation (R251) -/

theorem attest_writes (h : Offers s q Q e 14) (hn : e.a0 + 48 ≤ memSize) (hr : e.a1 + 512 ≤ memSize) (hp : s.port.poison = []) :
    let u := s.queueTaken q
    s.attest q = (u.writeEvent { ctx := 0, stamp := none } (((List.range 512).map (e.a1 + ·)).zip (attestReport (memBytes u.mem e.a0 48)))).status
      (statusOf q Q e) 1 0 0 := by
  refine simple_ok h ?_
  simp only [readPhys_clean ((queueTaken_touches s q).unpoisoned hp) hn, Nat.not_lt.2 hr, if_false]
end

/-! ## Fields of a layout -/

theorem field_of_append {α : Type} {b l m r : List α} {o n : Nat} (hb : b = l ++ (m ++ r)) (hl : l.length = o) (hm : m.length = n) :
    (b.drop o).take n = m := by
  rw [hb, List.drop_left' hl, List.take_left' hm]
theorem leNat_leBytes (n : Nat) : ∀ x, leNat (leBytes n x) = x % 256 ^ n := by
  induction n with
  | zero => intro x; simp [leNat, leBytes, Nat.mod_one]
  | succ n ih =>
    intro x
    simp only [leNat, leBytes, ih, BitVec.toNat_ofNat]
    rw [show x % 256 % 2 ^ 8 = x % 256 from Nat.mod_mod x 256, pow_succ' 256 n, Nat.mod_mul]

/-- The report: its length, the device's type, the nonce, and the reserved bytes. -/
theorem attestReport_layout (nonce : List Byte) (h : nonce.length = 48) : (attestReport nonce).length = 512 ∧
    leNat ((attestReport nonce).take 8) / 65536 = 0x8200 ∧ ((attestReport nonce).drop 8).take 48 = nonce ∧
    ((attestReport nonce).drop 0xD0).take 56 = List.replicate 56 0 ∧ (attestReport nonce).drop 0x1C8 = List.replicate 56 0 := by
  have hmid : midWord < 256 ^ 8 ∧ midWord / 65536 = 0x8200 := by unfold midWord; omega
  have hlen : (leBytes 8 midWord).length = 8 := leBytes_length 8 midWord
  unfold attestReport
  refine ⟨by simp [hlen, h], ?_, ?_, ?_, ?_⟩
  · rw [List.append_assoc, List.append_assoc, List.append_assoc, List.append_assoc, List.append_assoc, List.take_left' hlen, leNat_leBytes,
      Nat.mod_eq_of_lt hmid.1, hmid.2]
  · exact field_of_append (by simp only [List.append_assoc]; rfl) hlen h
  · exact field_of_append (l := leBytes 8 midWord ++ (nonce ++ (List.range 0x98).map fun k => Config.attestByte (0x38 + k)))
      (by simp only [List.append_assoc]; rfl) (by simp [hlen, h]) List.length_replicate
  · exact List.drop_left' (by simp [hlen, h])

/-! ## Quiescence and checkpoint (R246, R247, R500) -/

section
variable {s : State} {q : Nat} {Q : HostQueue} {e : Entry}

theorem quiesce_done (h : Offers s q Q e 15) (hq : s.edge.quiesced = true) : s.quiesce q = (s.queueTaken q).status (statusOf q Q e) 1 0 0 :=
  lasting_ok h (if_pos ((queueTaken_touches s q).edge ▸ hq))
theorem quiesce_begins (h : Offers s q Q e 15) (hq : s.edge.quiesced = false) : s.quiesce q =
    (s.queueTaken q).noteCtxs.preemptAll.modEdge fun x => { x with running := x.running ++ [(q, statusOf q Q e, .quiesce)] } :=
  lasting_goes h (if_neg (by rw [(queueTaken_touches s q).edge, hq]; decide))
theorem release_idle (h : Offers s q Q e 16) (hq : s.edge.quiesced = false) : s.release q = (s.queueTaken q).status (statusOf q Q e) 1 0 0 :=
  simple_ok h (if_pos (by rw [(queueTaken_touches s q).edge, hq]; decide))
theorem release_resumes (h : Offers s q Q e 16) (hq : s.edge.quiesced = true) :
    let u := (s.queueTaken q).modEdge fun x => { x with quiesced := false }
    s.release q = (if bitN e.a0 0 = 1 then (s.ctxs.map (·.1)).foldl (fun (s : State) c => s.resumeCtx c) u else u).status (statusOf q Q e) 1 0 0 := by
  have ht := queueTaken_touches s q
  refine simple_ok h ((if_neg (by rw [ht.edge, hq]; decide)).trans (congrArg Except.ok ?_))
  simp only [State.resumeAll, State.modEdge_ctxs, ht.ctxs, beq_iff_eq]

/-- The pod device and address that a checkpoint descriptor names (log 57). -/
def State.destined (s : State) (b : List Byte) : State :=
  s.modEdge fun x => { x with ckptPod := leNat (b.take 2) % 1024, ckptDest := BitVec.ofNat 64 (leNat ((b.drop 8).take 8)) }

/-- CKPT reads its descriptor, and then goes by quiescence and by the contexts that refuse a checkpoint. -/
theorem ckpt_begins (h : Offers s q Q e 13) (hfit : e.a0 + 64 ≤ memSize) (hp : s.port.poison = []) :
    let b := memBytes (s.queueTaken q).mem e.a0 64
    let resume := bitN (leNat ((b.drop 0x10).take 1)) 0 == 1
    let w := (s.queueTaken q).destined b
    (s.edge.quiesced = true → s.ckpt q = (w.modEdge fun x => { x with ckpt := true }).modEdge fun x =>
      { x with running := x.running ++ [(q, statusOf q Q e, .ckpt false resume)] }) ∧
    (s.edge.quiesced = false → (∃ c ∈ s.ctxs, bitN c.2.svc 5 = 1) → s.ckpt q = (s.queueTaken q).status (statusOf q Q e) 2 1 0) ∧
    (s.edge.quiesced = false → (∀ c ∈ s.ctxs, bitN c.2.svc 5 = 0) → s.ckpt q =
      w.noteCtxs.preemptAll.modEdge fun x => { x with running := x.running ++ [(q, statusOf q Q e, .ckpt true resume)] }) := by
  have ht := queueTaken_touches s q
  have hr := readPhys_clean (s := s.queueTaken q) (ht.unpoisoned hp) hfit
  refine ⟨fun hq => lasting_goes h ?_, fun hq hc => lasting_error h ?_, fun hq hc => lasting_goes h ?_⟩
  all_goals simp only [hr, State.modEdge_edge, ht.edge, hq, if_true, Bool.false_eq_true, if_false, State.modEdge_ctxs, ht.ctxs]
  · rfl
  · obtain ⟨c, hc, h5⟩ := hc
    exact if_pos (List.any_eq_true.2 ⟨c, hc, by simp [h5]⟩)
  · exact if_neg fun hany => by obtain ⟨c, hm, h5⟩ := List.any_eq_true.1 hany; simp [hc c hm] at h5

/-- RESTORE goes by quiescence and contexts, its descriptor, and the manifest, in that order (R249). -/
theorem restore_refused (m : Manifest) (h : Offers s q Q e 17) (hq : s.edge.quiesced = false ∨ s.ctxs ≠ []) :
    s.restore q m = (s.queueTaken q).status (statusOf q Q e) 2 2 0 := by
  have ht := queueTaken_touches s q
  refine lasting_error h (if_pos ?_)
  rw [ht.edge, ht.ctxs]
  simpa using hq
theorem restore_begins (m : Manifest) (h : Offers s q Q e 17) (hq : s.edge.quiesced = true) (hc : s.ctxs = []) (hfit : e.a0 + 64 ≤ memSize)
    (hp : s.port.poison = []) :
    (m.finalWord ≠ 1 ∨ m.byteCount ≠ memSize → s.restore q m = (s.queueTaken q).status (statusOf q Q e) 2 3 0) ∧
    (m.finalWord = 1 → m.byteCount = memSize → m.sameDevice = false → bitN e.a1 0 = 0 →
      s.restore q m = (s.queueTaken q).status (statusOf q Q e) 2 4 0) ∧
    (m.finalWord = 1 → m.byteCount = memSize → m.sameDevice = true ∨ bitN e.a1 0 = 1 → s.restore q m =
      ((s.queueTaken q).destined (memBytes (s.queueTaken q).mem e.a0 64)).modEdge fun x =>
        { x with running := x.running ++ [(q, statusOf q Q e, .restore)] }) := by
  have ht := queueTaken_touches s q
  have hr := readPhys_clean (s := s.queueTaken q) (ht.unpoisoned hp) hfit
  have hgate : ¬ (¬ (s.queueTaken q).edge.quiesced = true ∨ ¬ (s.queueTaken q).ctxs.isEmpty = true) := by rw [ht.edge, ht.ctxs, hq, hc]; simp
  refine ⟨fun hm => lasting_error h ?_, fun hf hb hd ha => lasting_error h ?_, fun hf hb hd => lasting_goes h ?_⟩
  all_goals rw [if_neg hgate]; simp only [hr]
  · rw [if_pos hm]
  · rw [if_neg (by simp [hf, hb]), if_pos ⟨by simp [hd], ha⟩]
  · rw [if_neg (by simp [hf, hb]), if_neg (by rcases hd with hd | hd <;> simp [hd])]
    rfl
end

/-! ## The streams of a checkpoint and a restore (R247, R249, R500) -/

theorem State.msi_running (s : State) (v : Nat) : (s.msi v).edge.running = s.edge.running := by unfold State.msi; split <;> rfl
/-- An event of the error log leaves the commands in progress. -/
theorem State.log_running (s : State) (r : ErrRec) : (s.log r).edge.running = s.edge.running := by
  unfold State.log
  dsimp only
  rw [State.msi_running]
  split
  · obtain ⟨p, x, _, _, h⟩ := State.pokeRaw_shape (s.modEdge fun e => { e with
        ecnt := Map.put 0 e.ecnt r.cls ((Map.getD s.edge.ecnt 0 r.cls + 1) % 2 ^ 64), seq := e.seq + 1, logged := (s.clock, r.key) })
      (s.edge.elbase + 64 * (s.edge.elhead % s.edge.elsize)) (s.errBytes r ((Map.getD s.edge.ecnt 0 r.cls + 1) % 2 ^ 64))
    rw [h]; rfl
  · rfl
/-- With no error log in memory an event is counted and its record is lost (R436). -/
theorem State.log_lost (s : State) (r : ErrRec) (h : s.edge.elbase = 0) : s.log r = { s with edge := (s.log r).edge } ∧ (s.log r).edge.seq = s.edge.seq + 1 := by
  have hroom : (decide (s.edge.elbase ≠ 0) && elsizeOk s.edge.elsize && decide ((s.edge.elhead + 2 ^ 64 - s.edge.eltail) % 2 ^ 64 < s.edge.elsize)) = false := by
    simp [h]
  unfold State.log State.msi
  dsimp only
  rw [hroom]
  constructor <;> rw [if_neg Bool.false_ne_true] <;> split <;> rfl

/-- The end of the one command in progress. -/
theorem endRunning_only {s : State} {q : Nat} {h : HostRef} {r : Running} (hr : s.edge.running = [(q, h, r)]) (code detail : Nat) :
    s.endRunning q code detail = (s.modEdge fun x => { x with running := [] }).status h code detail 0 := by
  simp [State.endRunning, hr, State.modEdge]
theorem stream_stays (s : State) {own resume : Bool} (h : own = false ∨ resume = false) : (if own = true then s.resumeAll resume else s) = s := by
  rcases h with rfl | rfl
  · rfl
  · split <;> rfl
theorem streaming_only {s : State} {q : Nat} {h : HostRef} {own resume : Bool} (hc : s.edge.ckpt = true)
    (hr : s.edge.running = [(q, h, .ckpt own resume)]) : s.streaming = some (q, own, resume) := by
  simp [State.streaming, hc, hr]

theorem streamEnd_ends {s : State} {q : Nat} {h : HostRef} {own resume : Bool} (hc : s.edge.ckpt = true)
    (hr : s.edge.running = [(q, h, .ckpt own resume)]) (ho : own = false ∨ resume = false) : s.streamEnd =
      ((s.modEdge fun x => { x with ckpt := false, image := s.mem, manifest := s.manifestBytes }).modEdge fun x => { x with running := [] }).status h 1 0 0 := by
  simp only [State.streamEnd, streaming_only hc hr, stream_stays _ ho]
  exact endRunning_only (by exact hr) 1 0
theorem streamStop_ends {s : State} {q : Nat} {h : HostRef} {own resume : Bool} (hc : s.edge.ckpt = true)
    (hr : s.edge.running = [(q, h, .ckpt own resume)]) (ho : own = false ∨ resume = false) (units : Nat) : s.streamStop units true =
      (((s.modEdge fun x => { x with ckpt := false, image := s.mem.filter fun c => decide (c.1 < 65536 * min units 12582912), manifest := [] }).log
        { cls := 12, sev := 1 }).modEdge fun x => { x with running := [] }).status h 3 (min units 12582912) 0 := by
  simp only [State.streamStop, streaming_only hc hr, and_true, stream_stays _ ho]
  exact endRunning_only ((State.log_running ..).trans (by exact hr)) 3 _

theorem words_length {α : Type} (l : List α) (n : Nat) (f : α → Nat) : (l.flatMap fun x => leBytes n (f x)).length = n * l.length := by
  induction l with
  | nil => rfl
  | cons x l ih => simp only [List.flatMap_cons, List.length_append, leBytes_length, ih, List.length_cons]; ring
/-- The manifest: its length, the byte count, and the last word (R247). -/
theorem manifestBytes_layout (s : State) : s.manifestBytes.length = 4096 ∧ leNat ((s.manifestBytes.drop 0x30).take 8) = memSize ∧
    s.manifestBytes.drop 0xFF8 = leBytes 8 1 := by
  have h48 (f : Nat → Byte) : ((List.range 48).map f).length = 48 := by simp
  unfold State.manifestBytes
  dsimp only
  refine ⟨?_, ?_, ?_⟩
  · simp only [List.length_append, words_length, leBytes_length, List.length_replicate, List.length_map, List.length_range]
  · rw [field_of_append (by simp only [List.append_assoc]; rfl) (h48 _) (leBytes_length 8 memSize), leNat_leBytes]
    exact Nat.mod_eq_of_lt (by decide)
  · refine List.drop_left' ?_
    simp only [List.length_append, words_length, leBytes_length, List.length_replicate, List.length_map, List.length_range]

/-! ## Memory after a restore (R188, R249) -/

theorem filter_rising {α : Type} (p : Nat × α → Bool) (m : Sparse α) : ∀ lo, Map.risingFrom lo m = true → Map.risingFrom lo (m.filter p) = true := by
  induction m with
  | nil => exact fun _ h => h
  | cons e m ih =>
    intro lo h
    obtain ⟨a, v⟩ := e
    simp only [Map.risingFrom, Bool.and_eq_true] at h
    rw [List.filter_cons]
    split
    · simp only [Map.risingFrom, Bool.and_eq_true]
      exact ⟨h.1, ih _ h.2⟩
    · refine ih _ (Map.risingFrom_weaken m lo a h.2 fun x hx => ?_)
      subst hx
      exact Nat.le_of_lt (of_decide_eq_true h.1)
theorem wf_filter (p : Host.Cell → Bool) (m : List Host.Cell) (h : Memory.wf m = true) : Memory.wf (m.filter p) = true := by
  unfold Memory.wf Map.canon at *
  simp only [Bool.and_eq_true, List.all_eq_true] at h ⊢
  exact ⟨filter_rising p m none h.1, fun e he => h.2 e (List.mem_of_mem_filter he)⟩
theorem get?_filter_keys {α : Type} (p : Nat → Bool) (m : Sparse α) (k : Nat) :
    Map.get? (m.filter fun e => p e.1) k = if p k then Map.get? m k else none := by
  induction m with
  | nil => simp [Map.get?]
  | cons e m ih =>
    obtain ⟨a, v⟩ := e
    by_cases hk : k = a
    · subst hk
      by_cases hp : p k = true <;> simp [hp, Map.get?, ih]
    · by_cases hp : p a = true <;> simp [hp, Map.get?, ih, hk]
theorem memByte_filter (p : Nat → Bool) (m : List Host.Cell) (x : Nat) : memByte (m.filter fun c => p c.1) x = if p x then memByte m x else 0 := by
  unfold memByte Map.getD
  rw [get?_filter_keys (α := Byte)]
  split <;> rfl

theorem find?_filter_keys (l : List (Nat × Byte)) (p : Nat → Bool) (x : Nat) (hp : p x = true) :
    (l.filter fun c => p c.1).find? (·.1 == x) = l.find? (·.1 == x) := by
  rw [List.find?_filter]
  congr 1
  funext c
  by_cases hc : c.1 = x
  · simp [hc, hp]
  · simp [hc]

/-- What a restore puts below a bound, and what it leaves from the bound on. -/
theorem restored_bytes (s : State) (image : List (Nat × Byte)) (poison : List Nat) (bound : Nat) (h : Memory.wf s.mem = true) :
    Memory.wf (s.restored image poison bound).mem = true ∧
    (∀ x, x < bound → memByte (s.restored image poison bound).mem x = match image.reverse.find? (·.1 == x) with | some c => c.2 | none => 0) ∧
    ∀ x, bound ≤ x → memByte (s.restored image poison bound).mem x = memByte s.mem x := by
  have hk := wf_filter (fun c => decide (bound ≤ c.1)) s.mem h
  have hm : (s.restored image poison bound).mem = memScatter (s.mem.filter fun c => decide (bound ≤ c.1)) (image.filter fun c => decide (c.1 < bound)) := rfl
  rw [hm]
  refine ⟨wf_memScatter _ _ hk, fun x hx => ?_, fun x hx => ?_⟩
  · rw [memByte_memScatter _ _ _ hk, written, ← List.filter_reverse, find?_filter_keys _ (fun a => decide (a < bound)) x (decide_eq_true hx)]
    cases image.reverse.find? (·.1 == x) with
    | some c => rfl
    | none => exact (memByte_filter (fun a => decide (bound ≤ a)) _ x).trans (if_neg (by simpa using hx))
  · rw [memByte_memScatter_outside _ _ _ hk, memByte_filter (fun a => decide (bound ≤ a)), if_pos (by simpa using hx)]
    intro c hc he
    have := of_decide_eq_true (List.mem_filter.1 hc).2
    omega
theorem restored_poison (s : State) (image : List (Nat × Byte)) (poison : List Nat) (bound x : Nat) (hx : 32 * x < bound) :
    x ∈ (s.restored image poison bound).port.poison ↔ x ∈ poison := by
  show x ∈ s.port.poison.filter (fun x => decide (bound ≤ 32 * x)) ++ (poison.filter fun x => decide (32 * x < bound)).eraseDups ↔ _
  simp [List.mem_eraseDups, hx]
theorem restored_snoops (s : State) (image : List (Nat × Byte)) (poison : List Nat) (bound : Nat) :
    ∀ l ∈ s.port.snooped, ∃ x ∈ (s.restored image poison bound).port.snoops, x.line = l := fun l hl =>
  ⟨⟨l, s.clock, 0, 0, 0, 0⟩, List.mem_append.2 (.inr (List.mem_map.2 ⟨l, hl, rfl⟩)), rfl⟩

/-- A status without an address writes nothing. -/
theorem status_silent (s : State) (h : HostRef) (code detail lsn : Nat) (hz : h.stata = 0) :
    ∃ l, s.status h code detail lsn = s.modEdge fun x => { x with msix := l } := by
  unfold State.status
  rw [if_pos hz]
  split
  · unfold State.msi
    split
    · exact ⟨s.edge.msix, rfl⟩
    · exact ⟨_, rfl⟩
  · exact ⟨s.edge.msix, rfl⟩
theorem restored_edge (s : State) (image : List (Nat × Byte)) (poison : List Nat) (bound : Nat) : (s.restored image poison bound).edge = s.edge := rfl
theorem restoring_only {s : State} {q : Nat} {h : HostRef} (hr : s.edge.running = [(q, h, .restore)]) : s.restoring = some q := by
  simp [State.restoring, hr]
theorem restoreEnd_ends {s : State} {q : Nat} {h : HostRef} (hr : s.edge.running = [(q, h, .restore)]) (image : List (Nat × Byte)) (poison : List Nat) :
    s.restoreEnd image poison = ((s.restored image poison memSize).modEdge fun x => { x with running := [] }).status h 1 0 0 := by
  simp only [State.restoreEnd, restoring_only hr]
  exact endRunning_only ((congrArg Edge.running (restored_edge ..)).trans hr) 1 0
theorem restoreStop_ends {s : State} {q : Nat} {h : HostRef} (hr : s.edge.running = [(q, h, .restore)]) (image : List (Nat × Byte)) (poison : List Nat)
    (n : Nat) : s.restoreStop image poison n = (((s.restored image poison (min memSize (n / 4096 * 4096))).log { cls := 12, sev := 1 }).modEdge
      fun x => { x with running := [] }).status h 3 0 0 := by
  simp only [State.restoreStop, restoring_only hr]
  exact endRunning_only ((State.log_running ..).trans ((congrArg Edge.running (restored_edge ..)).trans hr)) 3 0

/-- The device once an image stands in its memory below a bound: its poison, its copies, and the host's copies snooped. -/
def RestoredTo (s t : State) (image : List (Nat × Byte)) (poison : List Nat) (bound : Nat) : Prop := Memory.wf t.mem = true ∧
  (∀ x, x < bound → memByte t.mem x = match image.reverse.find? (·.1 == x) with | some c => c.2 | none => 0) ∧
  (∀ x, 32 * x < bound → (x ∈ t.port.poison ↔ x ∈ poison)) ∧ t.port.copies = [] ∧ t.port.snooped = [] ∧
  (∀ l ∈ s.port.snooped, ∃ x ∈ t.port.snoops, x.line = l) ∧ t.edge.running = []
theorem restored_restoredTo {s t : State} {image : List (Nat × Byte)} {poison : List Nat} {bound : Nat} (hm : Memory.wf s.mem = true)
    (hmem : t.mem = (s.restored image poison bound).mem) (hport : t.port = (s.restored image poison bound).port) (hrun : t.edge.running = []) :
    RestoredTo s t image poison bound := by
  obtain ⟨hwf, hbytes, _⟩ := restored_bytes s image poison bound hm
  unfold RestoredTo
  rw [hmem, hport]
  exact ⟨hwf, hbytes, restored_poison s image poison bound, rfl, rfl, restored_snoops s image poison bound, hrun⟩

theorem restoreEnd_gives {s : State} {q : Nat} {h : HostRef} (image : List (Nat × Byte)) (poison : List Nat) (ha : s.absent = none)
    (hr : s.edge.running = [(q, h, .restore)]) (hz : h.stata = 0) (hm : Memory.wf s.mem = true) :
    Gives (.restoreStreamEnd image poison) s fun t => RestoredTo s t image poison memSize := by
  have hend := restoreEnd_ends hr image poison
  generalize memSize = bound at *
  obtain ⟨l, hl⟩ := status_silent ((s.restored image poison bound).modEdge fun x => { x with running := [] }) h 1 0 0 hz
  exact ⟨_, (congrArg finish (hend.trans hl)).trans (finish_of_present _ ha), restored_restoredTo hm rfl rfl rfl⟩
theorem restoreInterrupted_gives {s : State} {q : Nat} {h : HostRef} (image : List (Nat × Byte)) (poison : List Nat) (n : Nat) (ha : s.absent = none)
    (hr : s.edge.running = [(q, h, .restore)]) (hz : h.stata = 0) (hm : Memory.wf s.mem = true) (he : s.edge.elbase = 0) :
    Gives (.restoreInterrupted image poison n) s fun t => RestoredTo s t image poison (min memSize (n / 4096 * 4096)) ∧ t.edge.seq = s.edge.seq + 1 ∧
      ∀ x, n / 4096 * 4096 ≤ x → memByte t.mem x = memByte s.mem x := by
  have hstop := restoreStop_ends hr image poison n
  generalize hb : min memSize (n / 4096 * 4096) = bound at *
  obtain ⟨hlog, hseq⟩ := State.log_lost (s.restored image poison bound) { cls := 12, sev := 1 } he
  generalize (s.restored image poison bound).log { cls := 12, sev := 1 } = u at *
  obtain ⟨l, hl⟩ := status_silent (u.modEdge fun x => { x with running := [] }) h 3 0 0 hz
  have hmem : u.mem = (s.restored image poison bound).mem := by rw [hlog]
  have hport : u.port = (s.restored image poison bound).port := by rw [hlog]
  have habs : u.absent = none := by rw [hlog]; exact ha
  refine ⟨_, (congrArg finish (hstop.trans hl)).trans (finish_of_present _ habs), restored_restoredTo hm hmem hport rfl, hseq, fun x hx => ?_⟩
  exact (congrArg (memByte · x) hmem).trans ((restored_bytes s image poison bound hm).2.2 x (by omega))

/-- Settles O54: a command at the head of a queue is `ends_of` or `lasts_of` what its step leaves, and each stream ends the one command in
progress. -/
theorem deviceCommands : Obligations.DeviceCommands := by
  intro s q Q e s1 ctx ended
  refine ⟨fun code C ho hc ha hC hf => ⟨fun h1 => ?_, fun h2 => ?_⟩,
    ⟨fun h hc => ends_of rfl (launchEntry_refused h hc), fun h hc => ends_of rfl (launchEntry_refused h hc)⟩,
    fun x data m lost ha hQ hst hw hx he hs => ?_, fun h h2 hfit hp hh hst => ?_, fun h h2 h32 hfit hu hm => ?_, fun h hn hr hp hu hm => ?_,
    fun h => ⟨fun hq => ends_of rfl (quiesce_done h hq), fun hq => lasts_of rfl (quiesce_begins h hq)⟩,
    fun h => ⟨fun hq => ends_of rfl (release_idle h hq), fun hq => ends_of rfl (release_resumes h hq)⟩, fun h hfit hp => ?_, fun m h => ?_,
    fun h own resume ha hc hr ho => ⟨fun t ht hta => ?_, fun n t ht hta => ?_⟩, manifestBytes_layout s |>.1, manifestBytes_layout s |>.2.1,
    manifestBytes_layout s |>.2.2, fun h image poison ha hr hz hm => ?_⟩
  · subst h1
    exact (congrArg finish (launchEntry_enters ho hc hC hf)).trans (finish_of_present _ ha)
  · subst h2
    exact (congrArg finish (launchEntry_enters ho hc hC hf)).trans (finish_of_present _ ha)
  · have heq := tailPush_eq hQ hst hw hx he hs
    refine ⟨fun hn => ?_, fun hn hfit hm => ?_⟩
    · rw [if_neg (Nat.not_lt.2 hn)] at heq
      exact (congrArg finish heq).trans (finish_of_present _ ha)
    · rw [if_pos hn] at heq
      obtain ⟨hab, hq, hmem, hrec⟩ := stopQueue_stops (s := s.setQueue q { Q with tail := leNat (data.take 4), dead := [], hitch := some (x.landed m) })
        (st := 2) (Map.get?_set_self ..) hfit hm
      exact ⟨_, (congrArg finish heq).trans (finish_of_present _ (hab.trans ha)), hq, hmem, hrec⟩
  · exact ⟨fun hg => ends_of rfl (poolAdd_adds h h2 hfit hp hh hst hg), fun hg => ends_of rfl (poolAdd_refuses h h2 hfit hp hg)⟩
  · exact ⟨writeEvent_holds _ _ _ hu hm, ends_of rfl (poolReport_reports h h2 h32 hfit)⟩
  · obtain ⟨hlen, hmid, hnonce, hzero, hend⟩ := attestReport_layout (memBytes s1.mem e.a0 48) (by simp [memBytes])
    exact ⟨writeEvent_holds _ _ _ hu hm, ends_of rfl (attest_writes h hn hr hp), hlen, hmid, hnonce, hzero, hend⟩
  · obtain ⟨hquiet, hrefuse, hgo⟩ := ckpt_begins h hfit hp
    exact ⟨fun hq => lasts_of rfl (hquiet hq), fun hq hc => ends_of rfl (hrefuse hq hc), fun hq hc => lasts_of rfl (hgo hq hc)⟩
  · refine ⟨fun hq => ends_of rfl (restore_refused m h hq), fun hq hc hfit hp => ?_⟩
    obtain ⟨h3, h4, hgo⟩ := restore_begins m h hq hc hfit hp
    exact ⟨fun hm => ends_of rfl (h3 hm), fun hf hb hd ha => ends_of rfl (h4 hf hb hd ha), fun hf hb hd => lasts_of rfl (hgo hf hb hd)⟩
  · subst ht
    exact (congrArg finish (streamEnd_ends hc hr ho)).trans (finish_of_present _ hta)
  · subst ht
    exact (congrArg finish (streamStop_ends hc hr ho n)).trans (finish_of_present _ hta)
  · exact ⟨restoreEnd_gives image poison ha hr hz hm, fun n he => restoreInterrupted_gives image poison n ha hr hz hm he⟩

end Sys2Proof.Machine
end

section
/-! SUPPORT. Relaunch in rounds (R203 to R206, R485): what follows a selection, how a round runs and how a relaunch ends: O52. -/

namespace Sys2Proof.Machine

section
variable {s : State} {it : Item} {r : Relaunch}

/-- A relaunch as its round is over. -/
def Relaunch.counted (r : Relaunch) : Relaunch := { r with nrun := r.nrun + r.sel.length, k := r.k + 1, sel := [], selecting := true }

/-- The end of a round with nothing to wait for and a header that can be written goes to its selection. -/
theorem selectionDone_selects {u : State} {h : List Byte} {sel : List Nat} (hi : s.item? it.id = some it) (hrel : it.rel = some r)
    (hedges : it.edges = []) (hwaits : it.waits = []) (hfail : it.failedRecord = none) (hended : r.ended = none) (hasked : r.askedAt = none)
    (hfroz : s.frozen it.ctx = false) (hsel : r.selecting = false) (hover : s.roundOver it = true)
    (hmiss : s.cpMiss it.ctx it.dead (s.selReads it false) = none)
    (hpois : s.cpPoison it.ctx ((s.selReads it false).filter (·.1 == .load)) = none)
    (hput : s.hdr it 0x18 (leBytes 8 (r.nrun + r.sel.length)) = some u) (hread : u.readDev it.ctx it.addr 256 = some h)
    (hpick : u.selection it h false false = some sel) :
    s.selectionDone it.id = u.afterSelection it r.counted (leNat ((h.drop 0x0C).take 1)) (leNat ((h.drop 0x10).take 2)) sel := by
  have hwrap : u.relWraps it false h = false := rfl
  simp only [State.selectionDone, hi, hrel, hedges, hwaits, hfail, hended, hasked, hfroz, hsel, hover, hmiss, hpois, hput, hread, hwrap, hpick,
    ne_eq, not_true, Option.isSome_none, Bool.false_eq_true, not_false_eq_true, and_false, or_self, if_false, Relaunch.counted]

/-- A header that can be written ends the relaunch with its STATUS, rounds and groups. -/
theorem relEnd_ends {a b v : State} {status : Nat} {failed : Bool} (ha : s.hdr it 0x0D (leBytes 1 status) = some a)
    (hb : a.hdr it 0x0E (leBytes 2 r.k) = some b) (hv : b.hdr it 0x18 (leBytes 8 r.nrun) = some v) :
    s.relEnd it r status failed = v.modRel it.id fun _ => { r with ended := some failed } := by
  simp only [State.relEnd, ha, hb, hv, Option.bind_some]

/-- The LSN of a context's next admission or round (R192). -/
def State.nextLsn (s : State) (ctx : Nat) : Nat := ((match s.ctx? ctx with | some c => c.lsn | none => 0) + 1) % 2 ^ 32
theorem nextLsn_congr {s t : State} (h : t.ctxs = s.ctxs) (ctx : Nat) : t.nextLsn ctx = s.nextLsn ctx := by
  simp only [State.nextLsn, State.ctx?, h]
/-- A round runs with the next LSN, in the item and in the header. -/
theorem runRound_runs {v : State} {sel : List Nat} {n : Nat} (hn : s.nextLsn it.ctx = n)
    (hv : (s.modCtx it.ctx fun c => { c with lsn := n }).hdr it 0 (leBytes 4 n) = some v) :
    s.runRound it r sel = v.modItem it.id fun i =>
      { i with lsn := n, nextGang := 0, groupsLeft := sel.length, after := true, ts := v.topTs,
               rel := some { r with sel := sel, selecting := false, askedAt := none } } := by
  unfold State.nextLsn at hn
  cases hC : s.ctx? it.ctx <;> simp only [hC] at hn <;> simp only [State.runRound, hC, hn, hv]

theorem hostContinue_runs (hi : s.item? it.id = some it) (hrel : it.rel = some r) (hended : r.ended = none) (hfroz : s.frozen it.ctx = false)
    {asked : Nat} (ha : r.askedAt = some asked) : s.hostContinue it.id true = s.runRound it r r.sel := by
  simp [State.hostContinue, hi, hrel, hended, hfroz, ha]
theorem hostContinue_declines (hi : s.item? it.id = some it) (hrel : it.rel = some r) (hended : r.ended = none) (hfroz : s.frozen it.ctx = false)
    {asked : Nat} (ha : r.askedAt = some asked) : s.hostContinue it.id false = s.relDeclined it r := by
  simp [State.hostContinue, hi, hrel, hended, hfroz, ha]
theorem continueTimeout_declines (hi : s.item? it.id = some it) (hrel : it.rel = some r) (hended : r.ended = none) (hfroz : s.frozen it.ctx = false)
    {asked : Nat} (ha : r.askedAt = some asked) (hlate : asked + 130000000 ≤ s.clock) : s.continueTimeout it.id = s.relDeclined it r := by
  have hclock : ¬ s.clock < asked + 10 * tenMs := by unfold tenMs; omega
  simp [State.continueTimeout, hi, hrel, hended, hfroz, ha, hclock]

/-- The groups chosen and a limit not reached start a round; no group chosen ends the relaunch with STATUS 4. -/
theorem afterSelection_runs {limit xlimit : Nat} {sel : List Nat} (hsel : sel ≠ []) (hk : r.k < limit) :
    s.afterSelection it r limit xlimit sel = s.runRound it r sel := by
  simp only [State.afterSelection, if_neg hsel, if_neg (not_le.2 hk)]
theorem afterSelection_ends (limit xlimit : Nat) : s.afterSelection it r limit xlimit [] = s.relEnd it r 4 false := rfl
end

end Sys2Proof.Machine
end

section
/-! SUPPORT. The completion of an item (R67, R222): the table without it, and the decrement of its join counter: O52. -/

namespace Sys2Proof.Machine

/-! ## A write that wakes nobody -/

theorem mem_map_self {α : Type} (l : List α) (f : α → α) (h : ∀ x ∈ l, f x = x) : l.map f = l :=
  (List.map_congr_left h).trans (List.map_id l)

/-- Nobody subscribes to a line, and nobody waits for one. -/
def Unwatched (s : State) : Prop := (∀ e ∈ s.groups, e.2.slots = []) ∧ ∀ e ∈ s.groups, ∀ x ∈ e.2.threads, ∀ l d i j, x.2.wait ≠ .on (.line l d) i j

theorem Thread.lineWritten_idle (T : Thread) (n : Nat) (h : ∀ l d i j, T.wait ≠ .on (.line l d) i j) : T.lineWritten n = T := by
  unfold Thread.lineWritten
  split
  next l d i j hw => exact absurd hw (h l d i j)
  next => rfl
theorem Group.modSlots_none (G : Group) (f : Slot → Slot) (h : G.slots = []) : G.modSlots f = G := by
  cases G
  subst h
  rfl
theorem pushLine_groups (s : State) (l : Nat) (hu : Unspilled s) (h : Unwatched s) : (s.pushLine l).groups = s.groups := by
  unfold State.pushLine
  split
  · rfl
  · rw [unspill_unspilled s l hu]
    exact mem_map_self _ _ fun e he => by rw [Group.modSlots_none _ _ (h.1 e he)]
theorem lineWritten_groups (s : State) (w : Writer) (l : Nat) (hu : Unspilled s) (h : Unwatched s) : (s.lineWritten w l).groups = s.groups := by
  have hp : (if w.quiet then s else s.pushLine l).groups = s.groups := by split <;> [rfl; exact pushLine_groups s l hu h]
  have hpush : ((if w.quiet then s else s.pushLine l).modThreads (·.lineWritten l)).groups = s.groups := by
    unfold State.modThreads
    rw [hp]
    refine mem_map_self _ _ fun e he => ?_
    dsimp only
    rw [mem_map_self e.2.threads _ fun x hx => by rw [Thread.lineWritten_idle x.2 l (h.2 e he x hx)]]
  unfold State.lineWritten
  dsimp only
  split <;> exact hpush
/-- A write event wakes nobody where nobody watches a line. -/
theorem writeEvent_groups (s : State) (w : Writer) (cells : List (Nat × Byte)) (hu : Unspilled s) (h : Unwatched s) :
    (s.writeEvent w cells).groups = s.groups := by
  have hfold : ∀ (l : List Nat) (s : State), Unspilled s → Unwatched s → (l.foldl (fun (s : State) l => s.lineWritten w l) s).groups = s.groups := by
    intro l
    induction l with
    | nil => exact fun s _ _ => rfl
    | cons x l ih =>
      intro s hu h
      have hg := lineWritten_groups s w x hu h
      exact (ih _ ((lineWritten_rippled s w x hu).unspilled hu) (by unfold Unwatched; rw [hg]; exact h)).trans hg
  have hc : (s.checkAll (cells.map (·.1))).groups = s.groups ∧ (s.checkAll (cells.map (·.1))).port = s.port := by unfold State.checkAll; split <;> exact ⟨rfl, rfl⟩
  unfold State.writeEvent
  dsimp only
  rw [hfold _ _ (by unfold Unspilled; exact hc.2 ▸ hu) (by unfold Unwatched; exact hc.1 ▸ h)]
  exact hc.1

theorem writeEvent_absent (s : State) (w : Writer) (cells : List (Nat × Byte)) (hin : ∀ e ∈ cells, e.1 < memSize) (hu : Unspilled s) :
    (s.writeEvent w cells).absent = s.absent := (congrArg State.absent (writeEvent_rippled s w cells hin hu).rest :)

/-! ## Join counters (R221, R222) -/

theorem devRoom_roomy (s : State) (ps : List Nat) (h : Roomy s ps) : s.devRoom ps = (s, true) := by
  have hnone : (ps.find? fun p => s.port.packed.contains (p / 65536)) = none := List.find?_eq_none.2 fun p hp => by simpa using h p hp
  unfold State.devRoom
  rw [hnone]
/-- A counter above 0 falls by one. -/
theorem joinAdd_falls {s : State} {ctx v : Nat} {j : Addr} {ps : List Nat} (hp : Reaches s ctx [] .atomic j 8 ps) (hr : Roomy s ps)
    (hv : leNat (s.gather ps) = v) (h1 : 1 ≤ v) (h63 : v < 2 ^ 63) :
    s.joinAdd ctx j (-1) = (s.writeEvent { ctx := ctx, stamp := none } (ps.zip (leBytes 8 (v - 1))), some ((v : Int) - 1)) := by
  obtain ⟨hport, _, hclean⟩ := hp
  have hx : truncI ((v : Int) + -1) 64 = v - 1 := by unfold truncI; omega
  have hs : sextN (v - 1) 64 = (v : Int) - 1 := by unfold sextN; dsimp only; split <;> omega
  simp only [State.joinAdd, hport, State.poisonedIn, hclean, List.isEmpty_nil, if_true, hv, hx, hs, devRoom_roomy s ps hr]

/-! ## The table without an item -/

/-- The dependence table once an item has left it. -/
def State.without (s : State) (id : Nat) : State := State.clearEdges { s with items := s.items.filter (·.id != id) } id

theorem without_items (s : State) (id : Nat) : ∀ i ∈ (s.without id).items, i.id ≠ id ∧ id ∉ i.edges := by
  intro i hi
  obtain ⟨j, hj, rfl⟩ := List.mem_map.1 hi
  obtain ⟨_, hne⟩ := List.mem_filter.1 hj
  exact ⟨by simpa using hne, by simp⟩
theorem without_jobs (s : State) (id : Nat) : ∀ i ∈ (s.without id).jobs, id ∉ i.edges := by
  intro i hi
  obtain ⟨j, _, rfl⟩ := List.mem_map.1 hi
  simp

/-- No task is ready to enter a deque. -/
def NoTaskReady (s : State) : Prop := ∀ i ∈ s.items, i.kind = .task → i.inDeque = true ∨ i.taken = true ∨ i.edges ≠ []
theorem feedDeques_idle (s : State) (h : NoTaskReady s) : s.feedDeques = s := by
  have hnil : (s.items.filter fun i => i.kind == .task && i.edges.isEmpty && !i.inDeque && !i.taken) = [] := by
    refine List.filter_eq_nil_iff.2 fun i hi hc => ?_
    simp only [Bool.and_eq_true, beq_iff_eq, List.isEmpty_iff, Bool.not_eq_true'] at hc
    obtain ⟨⟨⟨hk, he⟩, hd⟩, ht⟩ := hc
    rcases h i hi hk with h | h | h
    · simp [hd] at h
    · simp [ht] at h
    · exact h he
  unfold State.feedDeques
  rw [hnil]; rfl
/-- A task that was not ready before an item left, and depends on another, is not ready after. -/
theorem without_noTaskReady {s : State} {id : Nat}
    (h : ∀ i ∈ s.items, i.kind = .task → i.inDeque = true ∨ i.taken = true ∨ ∃ x ∈ i.edges, x ≠ id) : NoTaskReady (s.without id) := by
  intro i hi hk
  obtain ⟨j, hj, rfl⟩ := List.mem_map.1 hi
  rcases h j (List.mem_of_mem_filter hj) hk with h | h | ⟨x, hx, hne⟩
  · exact .inl h
  · exact .inr (.inl h)
  · exact .inr (.inr (List.ne_nil_of_mem (List.mem_filter.2 ⟨hx, by simpa using hne⟩)))

theorem switchPages_kept (s : State) (it : Item) (h : ∀ x ∈ it.renames, x.own = false) : s.switchPages it = s := by
  have hnil : it.renames.filter (·.own) = [] := List.filter_eq_nil_iff.2 fun x hx => by simp [h x hx]
  unfold State.switchPages
  split
  · rfl
  · rw [hnil]; rfl
theorem returnPages_none (s : State) (id : Nat) (h : s.pageReturns = []) : s.returnPages id = s := by
  cases s
  subst h
  rfl

/-- An item that waits for no page leaves the table; its join counter and its context's phase follow (R67). -/
theorem completeItem_eq {s u : State} {it : Item} {C : Ctx} (hi : s.item? it.id = some it) (hover : s.itemOver it = true)
    (hfroz : s.frozen it.ctx = false) (hrel : it.rel = none) (htr : it.lr.traced = false) (hhost : it.host = none)
    (hren : ∀ x ∈ it.renames, x.own = false) (hret : s.pageReturns = []) (hmiss : s.endMiss it = none) (hu : (s.without it.id).joinEnd it = u)
    (hC : u.ctx? it.ctx = some C) (hevs : C.evs = 0) (hidle : NoTaskReady u) :
    s.completeItem it.id = u.modCtx it.ctx fun c => { c with phaseDone := c.phaseDone + 1 } := by
  have htrace : s.traceEnd it = s := by simp [State.traceEnd, htr]
  have hC' : (u.modCtx it.ctx fun c => { c with phaseDone := c.phaseDone + 1 }).ctx? it.ctx = some { C with phaseDone := C.phaseDone + 1 } := by
    show Map.get? (Map.modify _ _ _) _ = _
    rw [Map.get?_modify, if_pos rfl]
    exact congrArg (Option.map _) hC
  have hleft : State.returnPages (State.clearEdges { s with items := s.items.filter (·.id != it.id) } it.id) it.id = s.without it.id :=
    returnPages_none _ _ hret
  simp only [State.completeItem, hi, hover, hfroz, hmiss, hrel, Option.isNone_none, if_true, htrace, switchPages_kept s it hren, hleft, hu, hhost, hC',
    hevs, not_true, Bool.false_eq_true, or_self, if_false, ne_eq, false_and]
  exact feedDeques_idle _ hidle

/-! ## How a join counter ends -/

/-- An item has left: nothing names it any more, its context counts it, and every group stands. -/
def ItemGone (s t : State) (it : Item) (C : Ctx) : Prop := (∀ i ∈ t.items, i.id ≠ it.id ∧ it.id ∉ i.edges) ∧ (∀ i ∈ t.jobs, it.id ∉ i.edges) ∧
  t.groups = s.groups ∧ t.ctx? it.ctx = some { C with phaseDone := C.phaseDone + 1 }
theorem itemGone_of {s u : State} {it : Item} {C : Ctx} (hitems : u.items = (s.without it.id).items) (hjobs : u.jobs = (s.without it.id).jobs)
    (hgroups : u.groups = s.groups) (hC : u.ctx? it.ctx = some C) :
    ItemGone s (u.modCtx it.ctx fun c => { c with phaseDone := c.phaseDone + 1 }) it C := by
  refine ⟨?_, ?_, hgroups, ?_⟩
  · rw [State.modCtx_items, hitems]
    exact without_items s it.id
  · rw [State.modCtx_jobs, hjobs]
    exact without_jobs s it.id
  · exact (Map.get?_modify ..).trans ((if_pos rfl).trans (congrArg (Option.map _) hC))

theorem joinEnd_none {s : State} {it : Item} (hj : it.lr.join = 0) (hc : it.lr.cont = 0) : s.joinEnd it = s := by simp [State.joinEnd, hj, hc]
/-- A counter that falls starts the continuation with its last decrement (R222). -/
theorem joinEnd_falls {s : State} {it : Item} {v : Nat} {ps : List Nat} (hj : it.lr.join ≠ 0) (hp : Reaches s it.ctx [] .atomic it.lr.join 8 ps)
    (hr : Roomy s ps) (hv : leNat (s.gather ps) = v) (h1 : 1 ≤ v) (h63 : v < 2 ^ 63) :
    let w := s.writeEvent { ctx := it.ctx, stamp := none } (ps.zip (leBytes 8 (v - 1)))
    s.joinEnd it = if v = 1 ∧ it.lr.cont ≠ 0 then w.enqueueCont it.ctx it.lr.cont else w := by
  have hneg : ¬ (v : Int) - 1 < 0 := by omega
  have hlast : (v : Int) - 1 = 0 ↔ v = 1 := by omega
  simp only [State.joinEnd, if_neg hj, joinAdd_falls hp hr hv h1 h63, if_neg hneg, hlast]

theorem endMiss_none {s : State} {it : Item} (htr : it.lr.traced = false) (hj : it.lr.join = 0) (hc : it.lr.cont = 0) : s.endMiss it = none := by
  simp [State.endMiss, State.cpMiss, htr, hj, hc]
theorem endMiss_join {s : State} {it : Item} {ps : List Nat} (htr : it.lr.traced = false) (hj : it.lr.join ≠ 0)
    (hp : s.port_ it.ctx [] .atomic it.lr.join 8 = .ok ps)
    (hc : leNat (s.gather ps) = 1 → it.lr.cont ≠ 0 → s.cpMiss it.ctx it.dead [(.load, addOff it.lr.cont 0x2F, 1)] = none) : s.endMiss it = none := by
  have hjn (l : List (PKind × Addr × Nat)) : s.cpMiss it.ctx it.dead ((.atomic, it.lr.join, 8) :: l) = s.cpMiss it.ctx it.dead l := by
    simp [State.cpMiss, hp]
  simp only [State.endMiss, htr, Bool.false_eq_true, and_false, if_false, List.nil_append, List.cons_append, hjn, hp, hj, ne_eq, not_false_eq_true,
    true_and, beq_iff_eq]
  split
  · rfl
  next h =>
    obtain ⟨hcont, hlast⟩ := not_or.1 h
    exact hc (not_not.1 hlast) hcont

section
variable {s : State} {it : Item} {C : Ctx}

/-- An item without a join counter and a continuation leaves the table, and nothing else happens. -/
theorem itemComplete_leaves (ha : s.absent = none) (hi : s.item? it.id = some it) (hover : s.itemOver it = true) (hfroz : s.frozen it.ctx = false)
    (hrel : it.rel = none) (htr : it.lr.traced = false) (hhost : it.host = none) (hren : ∀ x ∈ it.renames, x.own = false) (hret : s.pageReturns = [])
    (hC : s.ctx? it.ctx = some C) (hevs : C.evs = 0)
    (htask : ∀ i ∈ s.items, i.kind = .task → i.inDeque = true ∨ i.taken = true ∨ ∃ x ∈ i.edges, x ≠ it.id) (hj : it.lr.join = 0) (hc : it.lr.cont = 0) :
    Gives (.itemComplete it.id) s fun t => ItemGone s t it C ∧ t.mem = s.mem ∧ t.hwq = s.hwq := by
  have heq := completeItem_eq hi hover hfroz hrel htr hhost hren hret (endMiss_none htr hj hc) (joinEnd_none hj hc) hC hevs (without_noTaskReady htask)
  exact ⟨_, (congrArg finish heq).trans (finish_of_present _ ha), itemGone_of rfl rfl rfl hC, rfl, rfl⟩

/-- An item with a join counter lowers it; its last decrement starts the continuation. -/
theorem itemComplete_joins {ps : List Nat} (ha : s.absent = none) (hi : s.item? it.id = some it) (hover : s.itemOver it = true)
    (hfroz : s.frozen it.ctx = false) (hrel : it.rel = none) (htr : it.lr.traced = false) (hhost : it.host = none)
    (hren : ∀ x ∈ it.renames, x.own = false) (hret : s.pageReturns = []) (hC : s.ctx? it.ctx = some C) (hevs : C.evs = 0)
    (htask : ∀ i ∈ s.items, i.kind = .task → i.inDeque = true ∨ i.taken = true ∨ ∃ x ∈ i.edges, x ≠ it.id) (hj : it.lr.join ≠ 0)
    (hp : Reaches s it.ctx [] .atomic it.lr.join 8 ps) (hr : Roomy s ps) (hu : Unspilled s) (hm : Memory.wf s.mem = true) {v : Nat}
    (hv : leNat (s.gather ps) = v) (h1 : 1 ≤ v) (h63 : v < 2 ^ 63)
    (hcont : v = 1 → it.lr.cont ≠ 0 → s.cpMiss it.ctx it.dead [(.load, addOff it.lr.cont 0x2F, 1)] = none) (hw : Unwatched s) :
    Gives (.itemComplete it.id) s fun t => ItemGone s t it C ∧ Holds s t (ps.zip (leBytes 8 (v - 1))) ∧
      (1 < v ∨ it.lr.cont = 0 → t.hwq = s.hwq) ∧ (v = 1 → it.lr.cont ≠ 0 → ∃ q, q < 64 ∧
        Map.getD t.hwq [] q = Map.getD s.hwq [] q ++ [{ ctx := it.ctx, kind := .launch, addr := it.lr.cont }]) := by
  have hp' : Reaches (s.without it.id) it.ctx [] .atomic it.lr.join 8 ps := ⟨(port_congr rfl rfl ..).trans hp.1, hp.2⟩
  have hend := joinEnd_falls hj hp' hr hv h1 h63
  generalize hx : (s.without it.id).writeEvent { ctx := it.ctx, stamp := none } (ps.zip (leBytes 8 (v - 1))) = x at hend
  dsimp only at hend
  have hcells : ∀ e ∈ ps.zip (leBytes 8 (v - 1)), e.1 < memSize := fun e he => hp.2.1 e.1 (List.of_mem_zip (by exact he)).1
  have ht : Touches (s.without it.id) x := hx ▸ writeEvent_touches ..
  have hgroups : x.groups = s.groups := hx ▸ writeEvent_groups (s.without it.id) _ _ hu hw
  have hmem : Holds s x (ps.zip (leBytes 8 (v - 1))) := hx ▸ writeEvent_holds (s.without it.id) _ _ hu hm
  have habs : x.absent = none := hx ▸ (writeEvent_absent (s.without it.id) _ _ hcells hu).trans ha
  have hCx : x.ctx? it.ctx = some C := (congrArg (Map.get? · it.ctx) ht.ctxs).trans hC
  have hidle : NoTaskReady x := by unfold NoTaskReady; rw [ht.items]; exact without_noTaskReady htask
  have hmiss := endMiss_join htr hj hp.1 fun h => hcont (hv ▸ h)
  by_cases hlast : v = 1 ∧ it.lr.cont ≠ 0
  · rw [if_pos hlast] at hend
    have heq := completeItem_eq hi hover hfroz hrel htr hhost hren hret hmiss hend hCx hevs hidle
    refine ⟨_, (congrArg finish heq).trans (finish_of_present _ habs), itemGone_of ht.items ht.jobs hgroups hCx, hmem,
      fun h => absurd hlast.1 (by rcases h with h | h; omega; exact absurd h hlast.2), fun _ _ =>
        ⟨(x.readDevNat it.ctx (addOff it.lr.cont 0x2F) 1).getD 0 % 64, Nat.mod_lt _ (by decide), ?_⟩⟩
    show Map.getD (Map.set x.hwq _ _) [] _ = _
    simp only [Map.getD, Map.get?_set_self, Option.getD_some, ht.hwq]
    rfl
  · rw [if_neg hlast] at hend
    have heq := completeItem_eq hi hover hfroz hrel htr hhost hren hret hmiss hend hCx hevs hidle
    exact ⟨_, (congrArg finish heq).trans (finish_of_present _ habs), itemGone_of ht.items ht.jobs hgroups hCx, hmem, fun _ => ht.hwq,
      fun h hc => absurd ⟨h, hc⟩ hlast⟩
end

end Sys2Proof.Machine
end

section
/-! SUPPORT. Admission (R66, R69, R184, R192): the item of a launch without renames, trace and join counter, and an engine copy with its units: O52. -/

namespace Sys2Proof.Machine

/-! ## What a context's LSN leaves as it is -/

section
variable {s t : State} {ctx n : Nat} {C : Ctx} (hm : t.mem = s.mem) (hs : s.ctx? ctx = some C) (ht : t.ctx? ctx = some { C with lsn := n })
include hm

theorem buf_withLsn (i : Nat) : t.buf { C with lsn := n } i = s.buf C i := buf_congr hm C i

include hs ht

theorem port_withLsn (ren : List Rename) (k : PKind) (a : Addr) (len : Nat) : t.port_ ctx ren k a len = s.port_ ctx ren k a len := by
  simp only [State.port_, hs, ht, buf_withLsn hm, physRun_congr hm]
theorem readDev_withLsn (a : Addr) (len : Nat) : t.readDev ctx a len = s.readDev ctx a len := by
  simp only [State.readDev, port_withLsn hm hs ht, State.gather, hm]
theorem renames_withLsn (f : Fp) : t.renames_ ctx f = s.renames_ ctx f := by simp only [State.renames_, hs, ht, buf_withLsn hm]
theorem footprintOf_withLsn (r : LaunchRec) (again : Bool) : t.footprintOf ctx r again = s.footprintOf ctx r again := by
  simp only [State.footprintOf, State.fpEntries, readDev_withLsn hm hs ht, renames_withLsn hm hs ht]
theorem renameNeeds_withLsn (fp : List Fp) : t.renameNeeds ctx fp = s.renameNeeds ctx fp := by
  have hpages : t.renamePages ctx = s.renamePages ctx := funext fun f => by simp only [State.renamePages, hs, ht, buf_withLsn hm]
  simp only [State.renameNeeds, hpages]
end

/-! ## The head of a hardware queue is served -/

theorem lowerCp_rest (s : State) (w : Waiting) : ({ s.lowerCp w with groups := s.groups } : State) = s := by
  unfold State.lowerCp
  split <;> rfl

/-- The state in which the item of a launch without a host's entry is made: the head gone, its issuer's CP lowered, the context's LSN moved on. -/
def State.headServed (s : State) (q : Nat) (w : Waiting) (n : Nat) : State := ((s.dropHead q).lowerCp w).modCtx w.ctx fun c => { c with lsn := n }

section
variable (s : State) (q : Nat) (w : Waiting) (n : Nat)

@[simp] theorem headServed_mem : (s.headServed q w n).mem = s.mem := (congrArg State.mem (lowerCp_rest (s.dropHead q) w) :)
@[simp] theorem headServed_items : (s.headServed q w n).items = s.items := (congrArg State.items (lowerCp_rest (s.dropHead q) w) :)
@[simp] theorem headServed_jobs : (s.headServed q w n).jobs = s.jobs := (congrArg State.jobs (lowerCp_rest (s.dropHead q) w) :)
@[simp] theorem headServed_port : (s.headServed q w n).port = s.port := (congrArg State.port (lowerCp_rest (s.dropHead q) w) :)
@[simp] theorem headServed_absent : (s.headServed q w n).absent = s.absent := (congrArg State.absent (lowerCp_rest (s.dropHead q) w) :)
theorem headServed_hwq : Map.getD (s.headServed q w n).hwq [] q = (Map.getD s.hwq [] q).tail := by
  have h : (s.headServed q w n).hwq = Map.modify s.hwq q List.tail := (congrArg State.hwq (lowerCp_rest (s.dropHead q) w) :)
  rw [h, Map.getD, Map.getD, Map.get?_modify, if_pos rfl]
  cases Map.get? s.hwq q <;> rfl
theorem headServed_ctx {C : Ctx} (hC : s.ctx? w.ctx = some C) : (s.headServed q w n).ctx? w.ctx = some { C with lsn := n } := by
  have h : ((s.dropHead q).lowerCp w).ctxs = s.ctxs := (congrArg State.ctxs (lowerCp_rest (s.dropHead q) w) :)
  have hC' : Map.get? ((s.dropHead q).lowerCp w).ctxs w.ctx = some C := h ▸ hC
  exact (Map.get?_modify ..).trans ((if_pos rfl).trans (congrArg _ hC'))
theorem headServed_issuer {g k c : Nat} {T : Thread} (hw : w.issuer = some (g, k, c)) (hT : s.thread? g k = some T) :
    (s.headServed q w n).thread? g k = some { T with cp := T.cp - 1 } := by
  have h : (s.dropHead q).lowerCp w = (s.dropHead q).modT g k fun T => { T with cp := T.cp - 1 } := by simp only [State.lowerCp, hw]
  have hmod := State.thread?_modT (s.dropHead q) g k g k fun T => { T with cp := T.cp - 1 }
  rw [← h, if_pos ⟨rfl, rfl⟩] at hmod
  exact hmod.trans (congrArg _ hT)
end

/-! ## The item of a launch -/

/-- The item of a launch record that waits for no page. -/
def State.launchItem (s : State) (w : Waiting) (r : LaunchRec) (n id : Nat) : Item :=
  { id := id, ctx := w.ctx, kind := w.kind, addr := w.addr, lr := r, lsn := n, fp := s.footprintOf w.ctx r false,
    edges := s.edgesOf w.ctx w.anc (s.footprintOf w.ctx r false), anc := w.anc, core := (w.issuer.map (·.2.2)).getD 0,
    groupsLeft := r.ngroups, host := w.host, code := some s.mem, ts := s.topTs }

theorem frozen_withLsn {s t : State} {ctx n : Nat} {C : Ctx} (hs : s.ctx? ctx = some C) (ht : t.ctx? ctx = some { C with lsn := n }) :
    t.frozen ctx = s.frozen ctx := by simp only [State.frozen, hs, ht]

/-- A launch with no page to rename, no trace and no join counter enters the table with the next LSN. -/
theorem admitLaunch_eq {s : State} {q n : Nat} {w : Waiting} {b : List Byte} {C : Ctx} (hkind : w.kind = .launch) (hhost : w.host = none)
    (hC : s.ctx? w.ctx = some C) (hn : (C.lsn + 1) % 2 ^ 32 = n) (hfroz : s.frozen w.ctx = false) (htr : (LaunchRec.ofBytes b).traced = false)
    (hj : (LaunchRec.ofBytes b).join = 0) (hneeds : s.renameNeeds w.ctx (s.footprintOf w.ctx (LaunchRec.ofBytes b) false) = []) (hidle : NoTaskReady s) :
    s.admitLaunch q w b = { s.headServed q w n with
      next := (s.headServed q w n).next + 1, items := s.items ++ [s.launchItem w (LaunchRec.ofBytes b) n (s.headServed q w n).next] } := by
  have hbefore : ((s.dropHead q).lowerCp w).ctx? w.ctx = some C := (congrArg (Map.get? · w.ctx) (congrArg State.ctxs (lowerCp_rest (s.dropHead q) w)) :).trans hC
  have hafter := headServed_ctx s q w n hC
  have hmem := headServed_mem s q w n
  have hfp := footprintOf_withLsn hmem hC hafter (LaunchRec.ofBytes b) false
  have hned := (renameNeeds_withLsn hmem hC hafter (s.footprintOf w.ctx (LaunchRec.ofBytes b) false)).trans hneeds
  have hitems := headServed_items s q w n
  have hjobs := headServed_jobs s q w n
  have hport := headServed_port s q w n
  have hfr := (frozen_withLsn hC hafter).trans hfroz
  have hserved : ((s.dropHead q).lowerCp w).modCtx w.ctx (fun c => { c with lsn := n }) = s.headServed q w n := rfl
  generalize s.headServed q w n = x at *
  simp only [State.admitLaunch, State.countTaken, hhost, hbefore, hn, hserved, hfp, hned, State.takeFresh, List.foldl_nil, htr, hj, or_true, if_true,
    Bool.false_eq_true, if_false, State.fresh]
  have hfr' : State.frozen { x with next := x.next + 1 } w.ctx = false := hfr
  rw [if_neg (by rw [hfr']; decide)]
  refine (feedDeques_idle _ ?_).trans ?_
  · intro i hi hk
    rcases List.mem_append.1 hi with hi | hi
    · exact hidle i (hitems ▸ hi) hk
    · obtain rfl := List.mem_singleton.1 hi
      exact absurd (hkind.symm.trans hk) (by decide)
  · simp only [State.launchItem, State.edgesOf, State.topTs, hitems, hjobs, hport, hmem, hhost]

/-- The head record that comes next is admitted. -/
theorem admitQueue_go {s : State} {q : Nat} {w : Waiting} {b : List Byte} (hhead : s.head q = some w) (hnext : q ∈ s.nextQueues)
    (hkind : w.kind = .launch) (hgo : s.judge w = .go b) : s.admitQueue q = s.admitLaunch q w b := by
  have hrel : ¬ w.kind = .relaunch := by rw [hkind]; decide
  simp only [State.admitQueue, hhead, List.contains_iff_mem.2 hnext, not_true, if_false, hgo, if_neg hrel]

/-! ## An engine copy (R184, R343, R344) -/

/-- The numbers of a copy's units: whole sectors by their first byte, and the bytes of partial ones (R182). -/
theorem mem_copyUnits (s : State) {j : Job} {d a : Place} {n : Nat} (hk : j.kind = .copy d a n) (u : Nat) :
    u ∈ s.jobUnits j [] ↔ u < n ∧ ((d.off + u) % 32 = 0 ∨ (d.off + u) / 32 * 32 < d.off ∨ d.off + n < (d.off + u) / 32 * 32 + 32) := by
  simp only [State.jobUnits, hk, List.mem_filter, List.mem_range]
  refine and_congr_right fun _ => ?_
  split
  next hwhole => rw [beq_iff_eq]; omega
  next hpart => exact iff_of_true rfl (by omega)
theorem copyUnits_ne_nil (s : State) {j : Job} {d a : Place} {n : Nat} (hk : j.kind = .copy d a n) (hn : 0 < n) : s.jobUnits j [] ≠ [] := by
  refine List.ne_nil_of_mem ((mem_copyUnits s hk 0).2 ⟨hn, ?_⟩)
  omega

/-- The entry `x` of the table as the copy `j` is admitted. -/
def State.admits (s : State) (j x : Job) : Job :=
  { x with admitted := true, seq := s.next, fp := s.jobFp j, edges := s.edgesOf j.ctx (s.ancestry j.item) (s.jobFp j), layouts := [],
           units := s.jobUnits j [] }

theorem find?_modJob {s : State} {j : Job} {f : Job → Job} (hj : s.jobs.find? (·.id == j.id) = some j) (hf : ∀ x : Job, (f x).id = x.id) :
    (s.modJob j.id f).jobs.find? (·.id == j.id) = some (f j) := by
  have hid : ((fun x : Job => x.id == j.id) ∘ fun x => if x.id = j.id then f x else x) = fun x => x.id == j.id := by
    funext x
    dsimp only [Function.comp_apply]
    split
    · rw [hf]
    · rfl
  unfold State.modJob
  rw [List.find?_map, hid, hj]
  exact congrArg some (if_pos rfl)

/-- The state in which a job is admitted: its number taken, its thread's CP lowered. -/
def State.jobCounted (s : State) (j : Job) : State := State.modT { s with next := s.next + 1 } j.grp j.tid fun T => { T with cp := T.cp - 1 }

/-- A copy that comes first enters the table with its units, and its thread's CP falls. -/
theorem admitJob_copy {s : State} {j : Job} {d a : Place} {n : Nat} (hj : s.jobs.find? (·.id == j.id) = some j)
    (hfirst : (s.jobs.find? fun x => x.ctx == j.ctx && !x.admitted) = some j) (hfull : s.tableFull = false) (hfroz : s.frozen j.ctx = false)
    (hwaits : j.waits = []) (hk : j.kind = .copy d a n) (hok : s.jobRefused j (some []) = none) (hn : 0 < n) :
    s.admitJob j.id = (s.jobCounted j).modJob j.id (s.admits j) := by
  have hnew : j.admitted = false := by
    have h := List.find?_some hfirst
    simp only [beq_self_eq_true, Bool.true_and, Bool.not_eq_true'] at h
    exact h
  have hlevel : s.txLevel j.ctx [] = 0 := rfl
  have hcounted : State.modT { s with next := s.next + 1 } j.grp j.tid (fun T => { T with cp := T.cp - 1 }) = s.jobCounted j := rfl
  have hafter : (s.jobCounted j).jobRefused j (some []) = none := by rw [← hok]; simp only [State.jobRefused, hk]; rfl
  have hadmits : (fun x : Job => ({ x with
      admitted := true, seq := s.next, fp := (s.jobCounted j).jobFp j,
      edges := (s.jobCounted j).edgesOf j.ctx ((s.jobCounted j).ancestry j.item) ((s.jobCounted j).jobFp j), layouts := [],
      units := (s.jobCounted j).jobUnits j [] } : Job)) = s.admits j := by
    have hfp : (s.jobCounted j).jobFp j = s.jobFp j := by simp only [State.jobFp, State.rangesOf, hk]; rfl
    have hunits : (s.jobCounted j).jobUnits j [] = s.jobUnits j [] := by simp only [State.jobUnits, hk]
    rw [hfp, hunits]
    rfl
  have hfind : ((s.jobCounted j).modJob j.id (s.admits j)).jobs.find? (·.id == j.id) = some (s.admits j j) := find?_modJob (s := s.jobCounted j) hj fun _ => rfl
  have hunits : (s.admits j j).units.isEmpty = false := List.isEmpty_eq_false_iff.2 (copyUnits_ne_nil s hk hn)
  simp only [State.admitJob, hj, hfirst, Option.any_some, beq_self_eq_true, hnew, hfull, hfroz, hwaits, List.isEmpty_nil, not_true, Bool.false_eq_true,
    or_self, if_false, hk, State.cpMiss, State.cpPoison, List.findSome?_nil, hok, Option.isSome_none, State.jobLeave, Option.getD_some, hlevel, or_true,
    if_true, State.fresh, hcounted, hafter, hadmits, hfind, hunits]

end Sys2Proof.Machine
end

section
/-! PROOF. Items and jobs enter the table, complete and relaunch in rounds: O52. -/

namespace Sys2Proof.Machine

/-! ## Admission -/

theorem itemAdmit_launch {s : State} {q : Nat} {w : Waiting} {b : List Byte} {C : Ctx} (ha : s.absent = none) (hhead : s.head q = some w)
    (hnext : q ∈ s.nextQueues) (hkind : w.kind = .launch) (hhost : w.host = none) (hgo : s.judge w = .go b) (hC : s.ctx? w.ctx = some C)
    (hfroz : s.frozen w.ctx = false) (htr : (LaunchRec.ofBytes b).traced = false) (hj : (LaunchRec.ofBytes b).join = 0)
    (hneeds : s.renameNeeds w.ctx (s.footprintOf w.ctx (LaunchRec.ofBytes b) false) = []) (hidle : NoTaskReady s) :
    let r := LaunchRec.ofBytes b
    Gives (.itemAdmit (.queue q)) s fun t => t.mem = s.mem ∧ Map.getD t.hwq [] q = (Map.getD s.hwq [] q).tail ∧
      t.ctx? w.ctx = some { C with lsn := (C.lsn + 1) % 2 ^ 32 } ∧
      (∀ g k c T, w.issuer = some (g, k, c) → s.thread? g k = some T → t.thread? g k = some { T with cp := T.cp - 1 }) ∧
      ∃ it, t.items = s.items ++ [it] ∧ it.ctx = w.ctx ∧ it.kind = .launch ∧ it.lr = r ∧ it.lsn = (C.lsn + 1) % 2 ^ 32 ∧ it.groupsLeft = r.ngroups ∧
        it.edges = s.edgesOf w.ctx w.anc (s.footprintOf w.ctx r false) ∧ it.fp = s.footprintOf w.ctx r false ∧ it.code = some s.mem ∧ it.ts = s.topTs := by
  intro r
  generalize hn : (C.lsn + 1) % 2 ^ 32 = n
  have heq := (admitQueue_go hhead hnext hkind hgo).trans (admitLaunch_eq (q := q) hkind hhost hC hn hfroz htr hj hneeds hidle)
  exact ⟨_, (congrArg finish heq).trans (finish_of_present _ ((headServed_absent s q w n).trans ha)), headServed_mem s q w n, headServed_hwq s q w n,
    headServed_ctx s q w n hC, fun g k c T hw hT => headServed_issuer s q w n hw hT, _, rfl, rfl, hkind, rfl, rfl, rfl, rfl, rfl, rfl, rfl⟩

theorem itemAdmit_copy {s : State} {j : Job} {T : Thread} {d a : Place} {n : Nat} (ha : s.absent = none)
    (hj : s.jobs.find? (·.id == j.id) = some j) (hfirst : (s.jobs.find? fun x => x.ctx == j.ctx && !x.admitted) = some j)
    (hfull : s.tableFull = false) (hfroz : s.frozen j.ctx = false) (hwaits : j.waits = []) (hk : j.kind = .copy d a n)
    (hok : s.jobRefused j (some []) = none) (hn : 0 < n) (hT : s.thread? j.grp j.tid = some T) :
    Gives (.itemAdmit (.job j.id)) s fun t => t.mem = s.mem ∧ t.thread? j.grp j.tid = some { T with cp := T.cp - 1 } ∧
      ∃ i, t.jobs.find? (·.id == j.id) = some i ∧ i.admitted = true ∧ i.fault = j.fault ∧ i.fp = s.jobFp j ∧
        i.edges = s.edgesOf j.ctx (s.ancestry j.item) (s.jobFp j) ∧
        ∀ u, u ∈ i.units ↔ u < n ∧ ((d.off + u) % 32 = 0 ∨ (d.off + u) / 32 * 32 < d.off ∨ d.off + n < (d.off + u) / 32 * 32 + 32) := by
  have heq := admitJob_copy hj hfirst hfull hfroz hwaits hk hok hn
  have hcp : (s.jobCounted j).thread? j.grp j.tid = some { T with cp := T.cp - 1 } :=
    (State.thread?_modT ..).trans ((if_pos ⟨rfl, rfl⟩).trans (congrArg (Option.map _) hT))
  exact ⟨_, (congrArg finish heq).trans (finish_of_present _ ha), rfl, hcp, _, find?_modJob (s := s.jobCounted j) hj fun _ => rfl, rfl, rfl, rfl, rfl,
    mem_copyUnits s hk⟩

/-- Settles O52: the head that comes next and an engine copy enter the table, an item that is over leaves it, and a relaunch runs in rounds until
its selection is empty or it is declined. -/
theorem itemsEnterAndComplete : Obligations.ItemsEnterAndComplete := by
  intro s ha
  refine ⟨fun q w b C hhead hnext hkind hhost hgo hC hfroz => ?_, fun j T d a n hj hfirst hfull hfroz hwaits hk hok hn hT => ?_,
    fun it C hi hover hfroz hrel htr hhost hren hret hC hevs htask => ?_, fun it r hi hrel hedges hfail hended hfroz => ?_⟩
  · intro r htr hj hneeds _ hidle
    exact itemAdmit_launch ha hhead hnext hkind hhost hgo hC hfroz htr hj hneeds hidle
  · exact itemAdmit_copy ha hj hfirst hfull hfroz hwaits hk hok hn hT
  · refine ⟨itemComplete_leaves ha hi hover hfroz hrel htr hhost hren hret hC hevs htask, fun ps hj hp hr hu hm => ?_⟩
    intro v h1 h63 hcont hslots hwaits
    exact itemComplete_joins ha hi hover hfroz hrel htr hhost hren hret hC hevs htask hj hp hr hu hm rfl h1 h63 hcont ⟨hslots, hwaits⟩
  · intro lsn next runs
    refine ⟨fun u v h sel hasked hsel hover hwaits hmiss hpois hput hctxs hread hpick => ?_, fun asked hasked => ?_⟩
    · have hstart := selectionDone_selects hi hrel hedges hwaits hfail hended hasked hfroz hsel hover hmiss hpois hput hread hpick
      refine ⟨fun hne hk hnext habs => ?_, fun a b hnil hxa hb hv habs => ?_⟩
      · have hlsn : u.nextLsn it.ctx = lsn := nextLsn_congr hctxs it.ctx
        have hround := hstart.trans ((afterSelection_runs hne hk).trans (runRound_runs hlsn hnext))
        have hruns : runs v sel = v.modItem it.id fun i => { i with
            lsn := lsn, nextGang := 0, groupsLeft := sel.length, after := true, ts := v.topTs,
            rel := some { r.counted with sel := sel, selecting := false, askedAt := none } } := by simp [runs, hsel, hasked, Relaunch.counted]
        exact (congrArg finish (hround.trans hruns.symm)).trans (finish_of_present _ habs)
      · subst hnil
        have hend := hstart.trans ((afterSelection_ends ..).trans (relEnd_ends hxa hb hv))
        exact (congrArg finish hend).trans (finish_of_present _ habs)
    · refine ⟨fun v hnext habs => ?_, fun a b v hxa hb hv habs => ?_⟩
      · have hlsn : s.nextLsn it.ctx = lsn := rfl
        have hround := (hostContinue_runs hi hrel hended hfroz hasked).trans (runRound_runs hlsn hnext)
        have hruns : runs v r.sel = v.modItem it.id fun i => { i with
            lsn := lsn, nextGang := 0, groupsLeft := r.sel.length, after := true, ts := v.topTs,
            rel := some { r with sel := r.sel, selecting := false, askedAt := none } } := by simp [runs, hasked]
        exact (congrArg finish (hround.trans hruns.symm)).trans (finish_of_present _ habs)
      · have hend : s.relDeclined it r = v.modRel it.id fun _ => { r with ended := some true } := relEnd_ends hxa hb hv
        exact ⟨(congrArg finish ((hostContinue_declines hi hrel hended hfroz hasked).trans hend)).trans (finish_of_present _ habs),
          fun hlate => (congrArg finish ((continueTimeout_declines hi hrel hended hfroz hasked hlate).trans hend)).trans (finish_of_present _ habs)⟩

end Sys2Proof.Machine
end

section
/-! PROOF. The address of a memory operand and the bound the port checks on it (R83, R86): O58. -/

namespace Sys2Proof.Machine

/-- The number of an address whose parts are given (R82). -/
theorem mkAddr_toNat (b o : Nat) : (mkAddr b o).toNat = b % 2 ^ 16 * 2 ^ 48 + o % 2 ^ 48 := by
  have h : (mkAddr b o).toNat = (BitVec.ofNat 16 b).toNat <<< 48 ||| (BitVec.ofNat 48 o).toNat := BitVec.toNat_append ..
  rw [h, ← Nat.shiftLeft_add_eq_or_of_lt (BitVec.isLt _), Nat.shiftLeft_eq, BitVec.toNat_ofNat, BitVec.toNat_ofNat]
theorem bufOf_eq (a : Addr) : bufOf a = a.toNat / 2 ^ 48 := by
  have := a.isLt
  rw [bufOf, BitVec.extractLsb'_toNat, Nat.shiftRight_eq_div_pow]
  omega
theorem offOf_eq (a : Addr) : offOf a = a.toNat % 2 ^ 48 := by rw [offOf, BitVec.extractLsb'_toNat, Nat.shiftRight_zero]
theorem truncI_cast (x : Int) (n : Nat) : ((truncI x n : Nat) : Int) = x % (2 ^ n : Nat) :=
  Int.toNat_of_nonneg (Int.emod_nonneg _ (by positivity))
/-- An address advanced stays in its buffer, and its offset wraps (R83). -/
theorem bufOf_addOff (a : Addr) (x : Int) : bufOf (addOff a x) = bufOf a := by
  have := a.isLt
  rw [addOff, bufOf_eq, mkAddr_toNat, bufOf_eq]
  omega
theorem offOf_addOff (a : Addr) (x : Int) : (offOf (addOff a x) : Int) = (offOf a + x) % 2 ^ 48 := by
  have h := truncI_cast (offOf a + x) 48
  have hlt : truncI (offOf a + x) 48 < 2 ^ 48 := by omega
  rw [addOff, offOf_eq, mkAddr_toNat, show (_ * 2 ^ 48 + truncI (offOf a + x) 48 % 2 ^ 48) % 2 ^ 48 = truncI (offOf a + x) 48 by omega, h]
  norm_cast
theorem sextN_32 (x : Nat) : sextN x 32 = if x % 2 ^ 32 < 2 ^ 31 then ((x % 2 ^ 32 : Nat) : Int) else ((x % 2 ^ 32 : Nat) : Int) - 2 ^ 32 := by
  unfold sextN
  norm_cast
/-- The port refuses a range that ends beyond its buffer (R86). -/
theorem port_beyond {s : State} {ctx len : Nat} {ren : List Rename} {k : PKind} {a : Addr} {c : Ctx} (hc : s.ctx? ctx = some c)
    (h : (s.buf c (bufOf a)).size < offOf a + len) : s.port_ ctx ren k a len = .refused 0x10 0 := by
  simp only [State.port_, hc, portCheck, h, true_or, or_true, if_true]

/-- Settles O58: `ea` advances the base by index and displacement within its buffer. -/
theorem effectiveAddress : Obligations.EffectiveAddress := by
  intro s r f base sext a
  have hb : bufOf (BitVec.ofNat 64 base) = base / 2 ^ 48 % 2 ^ 16 := by rw [bufOf_eq, BitVec.toNat_ofNat]; omega
  have ho : offOf (BitVec.ofNat 64 base) = base % 2 ^ 48 := by rw [offOf_eq, BitVec.toNat_ofNat]; omega
  refine ⟨?_, ?_, fun hC => by rw [hC]; rfl, fun n hn => by rw [hn]; rfl, fun ren k len c hc h => port_beyond hc ?_⟩
  · exact (bufOf_eq (s.ea r f)).symm.trans ((bufOf_addOff _ _).trans hb)
  · have h := offOf_addOff (BitVec.ofNat 64 base) (sextN (s.op32 r f.c.toNat) 32 + dispOf f.b)
    rw [ho, sextN_32, ← Int.add_assoc] at h
    rw [← h, ← offOf_eq]
    rfl
  · rwa [bufOf_eq, offOf_eq]

end Sys2Proof.Machine
end

section
/-! PROOF. Barrier objects (R101, R102, R315, R316): O18. -/

namespace Sys2Proof.Machine

theorem State.meet_absent (s : State) (core g : Nat) : (s.meet core g).absent = s.absent := by
  unfold State.meet
  split
  · split <;> rfl
  · rfl
/-- An instruction on a barrier at an aligned offset acts on the barrier's place and takes its core's time there (R315, R179). -/
theorem atBar_aligned {f : Full} {s : State} {r : Ref} {act : Nat → Nat → State × TOut} (h : s.op32 r f.a.toNat % 16 = 0) :
    atBar f s r act =
      let p := s.place r (f.mod == 4) (s.op32 r f.a.toNat)
      ((act p.1 p.2).1.meet r.G.core p.1, (act p.1 p.2).2) := if_neg (not_not.2 h)

/-- A transfer count that stays within its field (R102, R316). -/
theorem actBtx_kept {out : Bool} {f : Full} {s : State} {r : Ref} (ha : s.op32 r f.a.toNat % 16 = 0) :
    let p := s.place r (f.mod == 4) (s.op32 r f.a.toNat)
    let b := s.bar p.1 p.2
    let x : Int := ((if out then b.txout else b.txin : Nat) : Int) + sextN (s.b32 r f.b) 32
    0 ≤ x → x < 2 ^ 24 → actBtx out f s r =
      ((s.setBar p.1 p.2 (if out then { b with txout := x.toNat } else { b with txin := x.toNat }).test).meet r.G.core p.1, .done {}) := by
  intro p b x h0 h24
  have hin : ¬ (x < 0 ∨ 2 ^ 24 - 1 < x) := by omega
  refine (atBar_aligned ha).trans ?_
  dsimp only
  rw [if_neg hin]
theorem Bar.reached_of {b : Bar} {w : Nat} (h : b.plwm ≠ 31 ∧ w ≤ b.plwm) : b.reached w = true := by simpa [Bar.reached] using h

/-- Settles O18: every form acts by `atBar` on a barrier that is aligned; what is left is that its own conditions let it through. -/
theorem barrierResults : Obligations.BarrierResults := by
  intro f at_ bar seen put tested aligned
  have put_absent (s : State) (r : Ref) (b : Bar) (hs : s.absent = none) : (put s r b).absent = none := (State.meet_absent ..).trans hs
  have seen_absent (s : State) (r : Ref) (hs : s.absent = none) : (seen s r).absent = none := (State.meet_absent ..).trans hs
  refine ⟨turnDo_of (act := actBinit f) rfl (by decide) (fun s r h => ?_) fun s r _ => put_absent s r _,
    turnDo_of (act := actBarr f) rfl (by decide) (fun s r h => ?_) fun s r _ => put_absent s r _,
    turnDo_of (act := faultPoint (actBwait f)) rfl (by decide) (fun s r h => ?_) fun s r _ => seen_absent s r,
    turnDo_of (act := actBtx false f) rfl (by decide) (fun s r h => ?_) fun s r _ => put_absent s r _,
    turnDo_of (act := actBtx true f) rfl (by decide) (fun s r h => ?_) fun s r _ => put_absent s r _,
    turnDo_of (act := faultPoint (actBplw f)) rfl (by decide) (fun s r h => ?_) fun s r _ => seen_absent s r⟩
  · obtain ⟨h1, h2, ha, hin, hout⟩ := h
    have hfree : ¬ ((bar s r).txin ≠ 0 ∨ (bar s r).txout ≠ 0) := by omega
    refine (if_neg (by omega)).trans ((atBar_aligned ha).trans ?_)
    dsimp only
    rw [if_neg hfree]
  · obtain ⟨ha, hexp, hpend, hdr⟩ := h
    refine (atBar_aligned ha).trans ?_
    dsimp only
    rw [if_neg hexp, if_neg (not_not.2 hdr), if_neg hpend]
    rfl
  · obtain ⟨hheld, ha, hover⟩ := h
    refine (faultPoint_free _ _ _ hheld).trans ((atBar_aligned ha).trans ?_)
    dsimp only
    rw [waitUntil_over _ _ _ _ (hover.imp_right bne_iff_ne.2)]
  · obtain ⟨ha, h0, h24⟩ := h
    exact actBtx_kept (out := false) ha h0 h24
  · obtain ⟨ha, h0, h24⟩ := h
    exact actBtx_kept (out := true) ha h0 h24
  · obtain ⟨hheld, hw, ha, hmode, hover⟩ := h
    refine (faultPoint_free _ _ _ hheld).trans ((if_neg (by omega)).trans ((atBar_aligned ha).trans ?_))
    dsimp only
    rw [if_neg hmode, waitUntil_over _ _ _ _ (hover.imp_right Bar.reached_of)]

end Sys2Proof.Machine
end

section
/-! PROOF. Leases and near-memory cards (R95, R106, R350 to R352): O28. -/

namespace Sys2Proof.Map

variable {α : Type}

theorem modify_congr (m : Sparse α) (k : Nat) (f h : α → α) (H : ∀ v, get? m k = some v → f v = h v) : modify m k f = modify m k h := by
  induction m with
  | nil => rfl
  | cons e m ih =>
    obtain ⟨a, v⟩ := e
    by_cases hk : k = a
    · simp [modify, hk, H v (by simp [get?, hk])]
    · simp [modify, hk, ih fun w hw => H w (by simpa [get?, hk] using hw)]

end Sys2Proof.Map

namespace Sys2Proof.Machine

/-! ## Leases (R95, R350, R351) -/

theorem leaseNo_ok {f : Full} {s : State} {r : Ref} (h : s.op32 r f.a.toNat ≤ 3) : leaseNo f s r = .ok (s.op32 r f.a.toNat) := if_neg (by omega)
/-- A number of a group's leases is free where it names none that lives (R95). -/
theorem freeLease_eq (L : Sparse Lease) (now : Nat) : (fun n => !((Map.get? L n).any (·.live now))) =
    fun n => ((Map.get? L n).filter fun l => decide (now < l.expiry)).isNone := by
  funext n
  cases Map.get? L n with
  | none => rfl
  | some l => by_cases h : now < l.expiry <;> simp [Lease.live, Option.filter, h]

/-! ## Near-memory cards (R106, R352) -/

/-- Two changes of one thread are one. -/
theorem State.modT_modT {s : State} {g t : Nat} {T : Thread} (hT : s.thread? g t = some T) {f h k : Thread → Thread} (H : h (f T) = k T) :
    (s.modT g t f).modT g t h = s.modT g t k := by
  have hm : Map.modify (Map.modify s.groups g (·.modT t f)) g (·.modT t h) = Map.modify s.groups g (·.modT t k) := by
    rw [Map.modify_modify]
    refine Map.modify_congr _ _ _ _ fun G hG => ?_
    have hth : Map.get? G.threads t = some T := by simpa [State.thread?, State.group?, hG] using hT
    have := (Map.modify_modify G.threads t f h).trans (Map.modify_congr _ _ _ k fun v hv => by rw [hth] at hv; cases hv; exact H)
    exact congrArg (fun l => ({ G with threads := l } : Group)) this
  exact congrArg (fun l => ({ s with groups := l } : State)) hm

/-- An instruction of one thread that begins to wait. -/
theorem turnHalts_single {op : Nat} {f : Full} {act : State → Ref → State × TOut} {s u : State} {is : Issue} {r : Ref} {c : Cond} (hop : op ≠ 0x0A6)
    (hi : Issued s is [r]) (ha : Admits op f [r]) (hx : executing f [r] = [r]) (hu : u.absent = none) (h : act s r = (u, .wait c)) :
    ∃ t, issueTurn op f act s = .next t ∧ Halts (stir (clockVol op f) u [r]) t [r] fun _ => c :=
  issueAll_halts op f _ s is [r] u (fun _ => c) hop hi ha hx hu (by simp [h])

/-- Nothing stands in the way of a card: its address, leave, a count and a place in the table (R352). -/
def CardReady (f : Full) (s : State) (r : Ref) : Prop :=
  (s.ea r f).toNat % 64 = 0 ∧ (3 ≤ r.G.grant ∨ r.T.wait = .passed) ∧ r.T.cp < 63 ∧ s.drained r.g r.t = true ∧ s.tableFull = false
/-- A card that the thread has not read yet is asked for (R352). -/
theorem actNmc_asks {f : Full} {s : State} {r : Ref} {ps : List Nat} (h : CardReady f s r) (hld : r.T.ld < 63) (hi : r.T.image = none)
    (hT : s.thread? r.g r.t = some r.T) (hp : s.port_ r.G.ctx (s.renOf r.G.item) .load (s.ea r f) 64 = .ok ps) :
    actNmc f s r = (({ s with
        accesses := s.accesses ++ [{ id := s.next, order := s.next, grp := r.g, tid := r.t, lane := r.T.lane, parts := [(0, 16), (16, 16), (32, 16), (48, 16)],
                                     kind := .image (s.ea r f) none [(r.g, r.t)] }],
        next := s.next + 1 } : State).modT r.g r.t fun T => { T with image := some (none, []), ld := T.ld + 1 }, .wait (.image s.next)) := by
  obtain ⟨ha, hl, hcp, hdr, htab⟩ := h
  have hgo : ¬ (63 ≤ r.T.cp ∨ ¬ s.drained r.g r.t = true ∨ s.tableFull = true) := by simp [hdr, htab, Nat.not_le.2 hcp]
  have hroom : ([r].any fun r => decide (63 ≤ r.T.ld)) = false := by simp [hld]
  have hask : s.askImage r [r] none (s.ea r f) none (pieces 0 64 16) = _ := if_neg (by simp [hroom])
  unfold actNmc
  dsimp only
  rw [if_neg (not_not.2 ha), withLeave_granted _ hl, if_neg hgo, hi]
  dsimp only
  rw [hp]
  refine hask.trans (Prod.ext ?_ rfl)
  apply State.modT_modT (T := r.T)
  · exact hT
  · rw [hi]
    rfl
/-- A card as read enters no engine's queue; it counts in its tag or barrier (R352). -/
theorem actNmc_enters {f : Full} {s : State} {r : Ref} (h : CardReady f s r) (hi : r.T.image.isSome = true)
    (hb : if bitN (leNat r.imageBytes) 8 = 0 then
        r.G.inTags (bitsN (leNat r.imageBytes) 325 320) = true ∧ s.tagFull r.g (bitsN (leNat r.imageBytes) 325 320) = false
      else bitsN (leNat r.imageBytes) 351 320 % 16 = 0) :
    actNmc f s r = (s.enterJob r { kind := nmcOf (leNat r.imageBytes), cin := bitN (leNat r.imageBytes) 8, level := 3 } f.mod.toNat
      (if bitN (leNat r.imageBytes) 8 = 0 then .tag (bitsN (leNat r.imageBytes) 325 320) else .bar r.g (bitsN (leNat r.imageBytes) 351 320)) none,
      .done { cp := 1 }) := by
  obtain ⟨ha, hl, hcp, hdr, htab⟩ := h
  have hgo : ¬ (63 ≤ r.T.cp ∨ ¬ s.drained r.g r.t = true ∨ s.tableFull = true) := by simp [hdr, htab, Nat.not_le.2 hcp]
  obtain ⟨⟨tw, bs⟩, him⟩ := Option.isSome_iff_exists.1 hi
  have hbs : r.imageBytes = bs := by rw [Ref.imageBytes, him]
  rw [hbs] at hb ⊢
  unfold actNmc
  dsimp only
  rw [if_neg (not_not.2 ha), withLeave_granted _ hl, if_neg hgo, him]
  dsimp only
  split at hb
  next htag =>
    obtain ⟨hin, hfull⟩ := hb
    rw [if_pos htag, if_neg (not_not.2 hin), hfull, if_pos htag]
    rfl
  next hbar => rw [if_neg hbar, if_neg (not_not.2 hb), if_neg hbar]

/-- Settles O28: a lease takes the first number that names none alive, and a card is asked for, then entered as a job as it reads. -/
theorem leaseAndNearMemoryResults : Obligations.LeaseAndNearMemoryResults := by
  intro f leases held free
  refine ⟨turnDo_of (act := actLease f) rfl (by decide) (fun s r h => ?_) fun s r _ hs => ?_,
    turnDo_of (act := actLeaseQ f) rfl (by decide) (fun s r h => ?_) fun _ _ _ hs => hs,
    turnDo_of (act := actUnlease f) rfl (by decide) (fun s r h => ?_) fun _ _ _ hs => hs, fun s is r ps hi ha hx hm hld him hp => ?_,
    turnDo_of (act := actNmc f) rfl (by decide) (fun s r h => ?_) fun s r _ hs => (s.enterJob_absent ..).trans hs⟩
  · obtain ⟨h1, h2, h3⟩ := h
    refine (if_neg (by omega)).trans ((if_neg (by omega)).trans ?_)
    dsimp only
    rw [freeLease_eq]
    change (match free s r with | none => _ | some n => _) = _
    cases free s r <;> rfl
  · cases free s r <;> exact hs
  · unfold actLeaseQ
    rw [leaseNo_ok h]
    have hheld : ((s.group? r.g).bind fun G => Map.get? G.leases (s.op32 r f.a.toNat)).filter (·.live s.clock) = held s r (s.op32 r f.a.toNat) := by
      unfold held leases
      cases s.group? r.g <;> rfl
    dsimp only
    rw [hheld]
    cases held s r (s.op32 r f.a.toNat) <;> rfl
  · unfold actUnlease
    rw [leaseNo_ok h]
  · exact turnHalts_single (act := actNmc f) (by decide) hi ha hx hi.present (actNmc_asks hm hld him (hi.mem r (by simp)).2 hp)
  · exact actNmc_enters h.1 h.2.1 h.2.2

end Sys2Proof.Machine
end

section
/-! SUPPORT. A machine for counterexamples: one context with one buffer of 4 KiB, and one group of one thread in it. -/

namespace Sys2Proof.Machine

/-- The context, its buffer table at 0x10000. -/
def OneBuffer.context : Ctx :=
  { desc := 0, btab := 0x10000, btlen := 2, svc := 0, podctx := 0, sched := 0, lquota := 0, evs := 0, pdir := 0, pdlen := 0, hspa := 0, hspn := 0,
    tqsa := 0, tqsn := 0, spbase := 0, spsize := 0, svbase := mkAddr 1 0, svsize := 0x1000, lsn := 1 }
/-- Entry 1 of the table (R84): the byte of BASE that is not 0, SIZE 0x1000, every right, OWNER 0, V set, and RPOOL offset 0x400 of the buffer
itself. -/
def OneBuffer.memory (base : Host.Cell) : List Host.Cell :=
  [base, (0x10049, 0x10), (0x10050, 0x1F), (0x10052, 1), (0x10069, 4), (0x1006E, 1)]
def OneBuffer.group (T : Thread) : Group :=
  { ctx := 0, item := 0, gidx := 0, grank := 0, gang := 3, core := 0, role := .general, lr := {}, lsn := 1, threads := [(0, T)] }
/-- The machine with its buffer at 0x20000. -/
def OneBuffer.state (T : Thread) : State :=
  { State.reset with ctxs := [(0, OneBuffer.context)], groups := [(2, OneBuffer.group T)], mem := OneBuffer.memory (0x10042, 2) }

end Sys2Proof.Machine
end

section
/-! REFUTATION. O45 has an atomic that returns a value leave LD as it was, but such an atomic counts in LD as well as in ST (R331), and its one
event lowers both. -/

namespace Sys2Proof.Machine

/-- Thread 0 has one atomic add in flight that returns its old value in v8: it counts in LD and in ST. -/
def CountedAtomic.access : Access :=
  { id := 9, order := 9, grp := 2, tid := 0, lane := 0, kind := .atom .add .n32 1 0 (some 8) 1 (mkAddr 1 0) 0, parts := [(0, 4)] }
def CountedAtomic.thread : Thread := { ld := 1, st := 1 }
def CountedAtomic.state : State := { OneBuffer.state CountedAtomic.thread with accesses := [CountedAtomic.access] }

theorem CountedAtomic.due : Due CountedAtomic.state CountedAtomic.access (OneBuffer.group CountedAtomic.thread) CountedAtomic.thread :=
  ⟨by decide, by decide, by decide, by decide, by decide⟩
theorem CountedAtomic.reaches : Reaches CountedAtomic.state 0 (CountedAtomic.state.renOf 0) .atomicRet (mkAddr 1 0) (atomLen .n32)
    [0x20000, 0x20001, 0x20002, 0x20003] := ⟨by decide, by decide, rfl⟩
theorem CountedAtomic.plain : Plain CountedAtomic.state 0 none (mkAddr 1 0) [0x20000, 0x20001, 0x20002, 0x20003] := ⟨nofun, .inl rfl⟩
theorem CountedAtomic.placed : Sys2Proof.Machine.exec (.storePlaced 9 .fits) CountedAtomic.state = .next (CountedAtomic.state.storePlaced 9 .fits) :=
  finish_of_present (CountedAtomic.state.storePlaced 9 .fits) (by decide)
/-- The atomic's event has taken the one load off. -/
theorem CountedAtomic.ld_after : ((CountedAtomic.state.storePlaced 9 .fits).thread? 2 0).map (·.still.ld) = some 0 := by decide

/-- Refutes O45: the event of an atomic that returns a value lowers LD as well as ST; the clause of atomics says that LD stands. -/
theorem not_accessesTakeTheirPlaces : ¬ Obligations.AccessesTakeTheirPlaces := by
  unfold Obligations.AccessesTakeTheirPlaces
  intro h
  obtain ⟨hevents, _, _⟩ := h
  obtain ⟨_, _, _, hatom, _⟩ := hevents CountedAtomic.state CountedAtomic.access (OneBuffer.group CountedAtomic.thread) CountedAtomic.thread CountedAtomic.due
  obtain ⟨t, hexec, _, _, hthread, _⟩ := hatom .add .n32 1 0 1 0 (some 8) (mkAddr 1 0) _ rfl rfl rfl (by decide) rfl rfl
    CountedAtomic.reaches CountedAtomic.plain (by decide)
  cases CountedAtomic.placed.symm.trans hexec
  have hld := congrArg (Option.map Thread.ld) hthread
  rw [Option.map_map] at hld
  exact absurd (CountedAtomic.ld_after.symm.trans hld) (by decide)

end Sys2Proof.Machine
end

section
/-! REFUTATION. O47 has the completion of a job leave memory as it was, but a page that a RENAME writer replaced goes back to its pool with the
last of its readers, and NFREE is written (R68). -/

namespace Sys2Proof.Machine

/-- A copy with no unit left, and the one reader of an old page of buffer 1. -/
def LastReader.job : Job :=
  { id := 9, ctx := 0, grp := 2, tid := 0, item := 0, core := 0, stamp := none, kind := .copy (.pad 2 0) (.dev (mkAddr 1 0)) 32, scope := 0, bind := .tag 5,
    engine := some 0, admitted := true }
def LastReader.state : State := { OneBuffer.state {} with jobs := [LastReader.job], pageReturns := [([9], 0, 1, 0x50000)] }

theorem LastReader.completed : Sys2Proof.Machine.exec (.engineJobComplete 9) LastReader.state = .next (LastReader.state.completeJob 9) :=
  finish_of_present (LastReader.state.completeJob 9) (by decide)
/-- NFREE, at RPOOL + 12, counted no page before. -/
theorem LastReader.nfree_before : memByte LastReader.state.mem 0x2040C = 0 := by decide
theorem LastReader.nfree_after : memByte (LastReader.state.completeJob 9).mem 0x2040C = 1 := by decide

/-- Refutes O47: where a completing job is the last reader of an old page, the count of free pages in memory rises; the clause of completion says
that memory stands. -/
theorem not_engineJobsRun : ¬ Obligations.EngineJobsRun := by
  unfold Obligations.EngineJobsRun
  intro h
  obtain ⟨_, _, hcomplete, _⟩ := h LastReader.state LastReader.job rfl (by decide) rfl rfl
  obtain ⟨hsound, _⟩ := hcomplete 5 (OneBuffer.group {}) rfl (by decide) rfl nofun (by decide) (by decide)
  obtain ⟨t, hexec, ⟨hmem, _⟩, _⟩ := hsound rfl
  cases LastReader.completed.symm.trans hexec
  have hbyte := congrArg (memByte · 0x2040C) hmem
  exact absurd (LastReader.nfree_after.symm.trans (hbyte.trans LastReader.nfree_before)) (by decide)

end Sys2Proof.Machine
end

section
/-! REFUTATION. O49 has the failure of a hitch's home always end in a next state, but the severing push of a group that is not resident also writes
the group's image in its save area (R80), and a save area can lie beyond the memory the device has (log 8). -/

namespace Sys2Proof.Machine

/-- A LATEST slot of line 5 with a push under way. -/
def LostImage.slot : Slot :=
  { line := 5, addr := 0, each := false, nent := 1, tag := 3, fresh := [false], seqs := [0], sent := some ([], 0, 0) }
/-- Group 2 is re-queued with that slot; its context's save area is buffer 1, whose base is the end of memory. -/
def LostImage.state : State :=
  { OneBuffer.state {} with
    groups := [(2, { OneBuffer.group {} with res := .requeued, slots := [(0x100, LostImage.slot)], threads := [] })], mem := OneBuffer.memory (0x10044, 0xC0),
    port := { table := [{ line := 5, ctx := some 0, subs := [.slot 2 0x100] }] } }

theorem LostImage.logFits : LogFits LostImage.state := ⟨rfl, by decide, by decide, fun c => by show 0 + 1 < 2 ^ 64; decide⟩
set_option maxRecDepth 1000 in
theorem LostImage.absent_after : (LostImage.state.homeFail 5).absent = some memSize := by decide
theorem LostImage.faults : Sys2Proof.Machine.exec (.hitchHomeFailure 5) LostImage.state = .fault (.noSuchMemory memSize) := by
  show finish (LostImage.state.homeFail 5) = _
  rw [finish, LostImage.absent_after]

/-- Refutes O49: a failing home of a slot whose group is saved beyond the device's memory stops the machine; its clause gives a next state. -/
theorem not_hitchesAndLeases : ¬ Obligations.HitchesAndLeases := by
  unfold Obligations.HitchesAndLeases
  intro h
  obtain ⟨_, _, _, hfail, _⟩ := h LostImage.state rfl
  obtain ⟨t, hexec, _⟩ := hfail 5 LostImage.logFits (by decide)
  exact nomatch LostImage.faults.symm.trans hexec

end Sys2Proof.Machine
end

section
/-! SUPPORT. Overflow holds (R104, R473), and what the end of a page service leaves (R465). -/

namespace Sys2Proof.Machine

/-! ## Relief, reports and kills of a page (R104, R473) -/

theorem repackDone_relieves {s : State} {page : Nat} (h : page ∈ s.port.repack) : s.repackDone page = s.relieve page :=
  if_pos (List.contains_iff_mem.2 h)
theorem relieve_port (s : State) (page : Nat) : (s.relieve page).port =
    { s.port with hold := s.port.hold.filter (· / 512 ≠ page), stalls := Map.erase s.port.stalls page, repack := s.port.repack.filter (· ≠ page) } := by
  simp only [State.relieve, State.modPort, bne, beq_eq_decide, ne_eq, decide_not]
theorem Port.homesOf.stalls {p q : Port} (h : p.homesOf q) : p.stalls = q.stalls := (congrArg Port.stalls h :)
/-- What the log shows depends on the error ring and on memory alone. -/
theorem Logged.congr {s t u : State} {r : ErrRec} (h : Logged s t r) (he : u.edge = t.edge) (hm : u.mem = t.mem) : Logged s u r := by
  obtain ⟨hseq, hcount, hmsix, hplace, hoff⟩ := h
  rw [← he] at hseq hcount hmsix
  rw [← he, ← hm] at hplace hoff
  exact ⟨hseq, hcount, hmsix, hplace, hoff⟩
theorem Killed.modPort {s t : State} {c : Nat} (h : Killed s t c) (f : Port → Port) : Killed s (t.modPort f) c :=
  ⟨h.ctx, h.groups, h.items, h.waiting, h.others⟩
theorem holdTimeout_reports {s : State} {page t0 : Nat} (h : Map.get? s.port.stalls page = some (t0, false)) (hlate : t0 + 13000000 ≤ s.clock) :
    s.holdTimeout page = (s.log { cls := 11, sev := 1, rfl := 3, ppage := page * 65536, unit := 2,
                                  unitNo := Config.llcSlice (page * 65536) % 256, detail := s.holdCount page }).modPort
      fun p => { p with stalls := Map.set p.stalls page (t0, true) } := by
  unfold State.holdTimeout
  rw [h]
  exact if_neg (Nat.not_lt.2 hlate)
theorem holdKill_kills {s : State} {page t0 c : Nat} (h : Map.get? s.port.stalls page = some (t0, true)) (hc : s.stalledCtxs page = [c]) :
    s.holdKill page = (s.logKill { cls := 11, sev := 2, ctx := c, rfl := 3, ppage := page * 65536, detail := s.holdCount page }).modPort
      fun p => { p with stalls := Map.erase p.stalls page } := by
  simp only [State.holdKill, h, hc, List.foldl_cons, List.foldl_nil]

/-! ## Those who wait for a page go on (R465) -/

/-- The threads of a group and the page its record waits for. -/
def Group.waits (G : Group) : Sparse Thread × Option Nat := (G.threads, G.recWait)
/-- From s to t only what waits for a page changed, and no thread did. -/
structure Resumed (s t : State) : Prop where
  rest : ({ t with accesses := s.accesses, groups := s.groups, jobs := s.jobs, items := s.items, hwq := s.hwq, queues := s.queues, edge := s.edge } : State) = s
  waits : (t.groups.map fun e => (e.1, e.2.waits)) = s.groups.map fun e => (e.1, e.2.waits)

theorem Resumed.refl (s : State) : Resumed s s := ⟨rfl, rfl⟩
theorem Resumed.trans {s t u : State} (h : Resumed s t) (k : Resumed t u) : Resumed s u where
  rest := (congrArg (fun (x : State) =>
    ({ x with accesses := s.accesses, groups := s.groups, jobs := s.jobs, items := s.items, hwq := s.hwq, queues := s.queues, edge := s.edge } : State))
    k.rest).trans h.rest
  waits := k.waits.trans h.waits
theorem Resumed.foldl {α : Type} (f : State → α → State) (h : ∀ s a, Resumed s (f s a)) (l : List α) : ∀ s, Resumed s (l.foldl f s) := by
  induction l with
  | nil => exact Resumed.refl
  | cons a l ih => exact fun s => (h s a).trans (ih _)
theorem Resumed.mem {s t : State} (h : Resumed s t) : t.mem = s.mem := (congrArg State.mem h.rest :)
theorem Resumed.port {s t : State} (h : Resumed s t) : t.port = s.port := (congrArg State.port h.rest :)
theorem Resumed.clock {s t : State} (h : Resumed s t) : t.clock = s.clock := (congrArg State.clock h.rest :)
theorem Resumed.absent {s t : State} (h : Resumed s t) : t.absent = s.absent := (congrArg State.absent h.rest :)
theorem Resumed.ctxs {s t : State} (h : Resumed s t) : t.ctxs = s.ctxs := (congrArg State.ctxs h.rest :)
theorem Resumed.group {s t : State} (h : Resumed s t) (g : Nat) : (t.group? g).map Group.waits = (s.group? g).map Group.waits := by
  have hk := congrArg (Map.get? · g) h.waits
  rwa [Map.get?_map _ (fun e : Nat × Group => (e.1, e.2.waits)) fun _ => rfl, Map.get?_map _ (fun e : Nat × Group => (e.1, e.2.waits)) fun _ => rfl] at hk
theorem State.thread?_eq_waits (s : State) (g k : Nat) : s.thread? g k = ((s.group? g).map Group.waits).bind fun w => Map.get? w.1 k := by
  unfold State.thread?
  cases s.group? g <;> rfl
theorem Resumed.thread {s t : State} (h : Resumed s t) (g k : Nat) : t.thread? g k = s.thread? g k := by
  rw [t.thread?_eq_waits, h.group, ← s.thread?_eq_waits]
/-- Records that wait for no such page before wait for none after. -/
theorem Resumed.recWait {s t : State} (h : Resumed s t) {p : Nat} (hs : ∀ e ∈ s.groups, e.2.recWait ≠ some p) : ∀ e ∈ t.groups, e.2.recWait ≠ some p := by
  intro e he hp
  have hm : (e.1, e.2.waits) ∈ s.groups.map fun e => (e.1, e.2.waits) := h.waits ▸ List.mem_map_of_mem he
  obtain ⟨x, hx, hxe⟩ := List.mem_map.1 hm
  exact hs x hx ((congrArg (·.2.2) hxe : x.2.recWait = e.2.recWait).trans hp)
theorem modG_resumed (s : State) (g : Nat) (f : Group → Group) (hf : ∀ G, (f G).waits = G.waits) : Resumed s (s.modG g f) :=
  ⟨rfl, Map.modify_map s.groups g f Group.waits hf⟩
theorem modAcc_resumed (s : State) (id : Nat) (f : Access → Access) : Resumed s (s.modAcc id f) := ⟨rfl, rfl⟩

/-- The waiting threads of a page service, each with what it asked (R465). -/
def State.pageWaiters (s : State) (v : Service) : List (Nat × Nat × Nat × Nat) :=
  s.groups.flatMap fun (e : Nat × Group) => e.2.threads.filterMap fun (x : Nat × Thread) =>
    match x.2.wait with
    | .on (.page id kind ad) _ _ => if id = v.id then some (e.1, x.1, kind, ad) else none
    | _ => none
def Thread.woken (T : Thread) (clock : Nat) : Thread := { T with wait := .ready, readySince := clock }
def State.wake (s : State) (w : Nat × Nat × Nat × Nat) : State := s.modT w.1 w.2.1 fun T => T.woken s.clock

theorem mem_pageWaiters {s : State} {v : Service} {g k kind ad i j : Nat} {T : Thread} (h : s.thread? g k = some T)
    (hw : T.wait = .on (.page v.id kind ad) i j) : (g, k, kind, ad) ∈ s.pageWaiters v := by
  obtain ⟨G, hG, hT⟩ := Option.bind_eq_some_iff.1 h
  refine List.mem_flatMap.2 ⟨(g, G), mem_of_get? _ _ _ hG, List.mem_filterMap.2 ⟨(k, T), mem_of_get? _ _ _ hT, ?_⟩⟩
  simp only [hw, if_true]
theorem pageWaiters_nil {s : State} {v : Service}
    (h : ∀ e ∈ s.groups, ∀ y ∈ e.2.threads, ∀ kind ad i j, y.2.wait ≠ .on (.page v.id kind ad) i j) : s.pageWaiters v = [] := by
  refine List.flatMap_eq_nil_iff.2 fun e he => List.filterMap_eq_nil_iff.2 fun y hy => ?_
  split
  next id kind ad i j hw => exact if_neg fun hid : id = v.id => h e he y hy kind ad i j (hid ▸ hw)
  next => rfl

/-- Threads that wake leave everything else as it was. -/
theorem wakes_groups (l : List (Nat × Nat × Nat × Nat)) : ∀ s : State, ({ l.foldl State.wake s with groups := s.groups } : State) = s := by
  induction l with
  | nil => exact fun _ => rfl
  | cons w l ih => exact fun s => (congrArg (fun x : State => ({ x with groups := s.groups } : State)) (ih (s.wake w)) :)
theorem wake_thread (s : State) (w : Nat × Nat × Nat × Nat) (g k : Nat) : (s.wake w).thread? g k =
    if (w.1, w.2.1) = (g, k) then (s.thread? g k).map (·.woken s.clock) else s.thread? g k := by
  unfold State.wake
  rw [State.thread?_modT]
  by_cases h : (w.1, w.2.1) = (g, k)
  · obtain ⟨rfl, rfl⟩ := Prod.mk.inj h
    rw [if_pos ⟨rfl, rfl⟩, if_pos rfl]
  · rw [if_neg fun e => h (Prod.ext e.1.symm e.2.symm), if_neg h]
theorem wakes_thread (l : List (Nat × Nat × Nat × Nat)) (g k : Nat) : ∀ s : State, (l.foldl State.wake s).thread? g k =
    if (g, k) ∈ l.map (fun w => (w.1, w.2.1)) then (s.thread? g k).map (·.woken s.clock) else s.thread? g k := by
  induction l with
  | nil => intro s; rfl
  | cons w l ih =>
    intro s
    have hclock : (s.wake w).clock = s.clock := rfl
    have htwice : (fun T : Thread => T.woken s.clock) ∘ (fun T : Thread => T.woken s.clock) = fun T : Thread => T.woken s.clock := rfl
    rw [List.foldl_cons, ih, wake_thread, hclock, List.map_cons]
    by_cases hw : (w.1, w.2.1) = (g, k)
    · rw [if_pos hw, hw, if_pos List.mem_cons_self, Option.map_map, htwice, ite_self]
    · rw [if_neg hw]
      simp only [List.mem_cons, Ne.symm hw, false_or]
theorem wakes_still (l : List (Nat × Nat × Nat × Nat)) (s : State) : ThreadsStay s (l.foldl State.wake s) := by
  intro g k
  rw [wakes_thread]
  split
  · rw [Option.map_map]; rfl
  · rfl

end Sys2Proof.Machine
end

section
/-! SUPPORT. The end of a page service, whether the page is there or stays away, and the page a service maps (R31, R465). -/

namespace Sys2Proof.Machine

/-! ## A service ends (R465, R466) -/

theorem Resumed.ite {s t : State} {c : Prop} [Decidable c] (h : Resumed s t) : Resumed s (if c then t else s) := by
  split
  · exact h
  · exact Resumed.refl s
theorem modEdge_resumed (s : State) (f : Edge → Edge) : Resumed s (s.modEdge f) := ⟨rfl, rfl⟩

/-- A page that is there: those who waited for it go on. -/
theorem serviceEnd_served (s : State) (v : Service) (hrec : ∀ e ∈ s.groups, e.2.recWait ≠ some v.id) (hctx : ∀ e ∈ s.ctxs, v.id ∉ e.2.schedWaits) :
    ∃ t, Resumed (s.modPort fun p => { p with services := p.services.filter (·.id != v.id) }) t ∧
      s.serviceEnd v true = (t.pageWaiters v).foldl State.wake t := by
  unfold State.serviceEnd
  extract_lets s1 s2 s3 s4 s5 overWith s6 s7 s8 waiting
  have haccess : Resumed s1 s2 := Resumed.foldl _ (fun s (a : Access) => modAcc_resumed s a.id _) _ s1
  have hmatrix : Resumed s2 s3 := by
    refine Resumed.foldl _ (fun s (e : Nat × Group) => ?_) _ s2
    extract_lets s'
    have htile : Resumed s s' := by
      refine Resumed.foldl _ (fun s (o : TileOp) => ?_) _ s
      split
      · split
        · exact Resumed.refl s
        · exact modG_resumed s _ _ fun _ => rfl
      · exact Resumed.refl s
    refine htile.trans ?_
    split
    · split
      · split
        · exact Resumed.refl s'
        · exact modG_resumed s' _ _ fun _ => rfl
      · exact Resumed.refl s'
    · exact Resumed.refl s'
  have hbefore : Resumed s1 s3 := haccess.trans hmatrix
  have hrecord : s4 = s3 := by
    have hnone : (s3.groups.filter (·.2.recWait == some v.id)) = [] :=
      List.filter_eq_nil_iff.2 fun e he hw => hbefore.recWait (s := s1) hrec e he (eq_of_beq hw)
    exact congrArg (List.foldl _ s3) hnone
  clear_value s4
  subst hrecord
  have hjob : Resumed s3 s6 := ⟨rfl, rfl⟩
  clear_value s6
  have hphase : s7 = s6 := by
    have hall : s6.ctxs = s.ctxs := hjob.ctxs.trans hbefore.ctxs
    have hnone : (s6.ctxs.filter (·.2.schedWaits.contains v.id)) = [] :=
      List.filter_eq_nil_iff.2 fun e he hw => hctx e (hall ▸ he) (List.contains_iff_mem.1 hw)
    exact congrArg (List.foldl _ s6) hnone
  clear_value s7
  subst hphase
  have hout : Resumed s7 s8 := Resumed.ite (modEdge_resumed s7 _)
  exact ⟨s8, (hbefore.trans hjob).trans hout, rfl⟩

theorem foldl_fixed_of_mem {α β : Type} {f : α → β → α} {a : α} {l : List β} (h : ∀ b ∈ l, f a b = a) : l.foldl f a = a := by
  induction l with
  | nil => rfl
  | cons b l ih => rw [List.foldl_cons, h b List.mem_cons_self, ih fun c hc => h c (List.mem_cons_of_mem b hc)]
theorem State.deliver_nil (s : State) : s.deliver [] = s := rfl

/-- Nobody but engine jobs and the command processor waits for the service. -/
structure Unawaited (s : State) (v : Service) : Prop where
  accesses : ∀ a ∈ s.accesses, a.service ≠ some v.id
  records : ∀ e ∈ s.groups, e.2.recWait ≠ some v.id
  phases : ∀ e ∈ s.ctxs, v.id ∉ e.2.schedWaits
  groups : ∀ e ∈ s.groups, (∀ o ∈ e.2.tileOps, ∀ x, o.service ≠ some (v.id, x)) ∧ (∀ l, e.2.loop = some l → ∀ x, l.service ≠ some (v.id, x)) ∧
    ∀ y ∈ e.2.threads, ∀ kind ad i j, y.2.wait ≠ .on (.page v.id kind ad) i j

/-- A page that stays away, with no thread to tell. -/
theorem serviceEnd_unresolved (s : State) (v : Service) (h : Unawaited s v) : ∃ is ws qs ed, s.serviceEnd v false = { s with
    items := is, hwq := ws, queues := qs, edge := ed, port := { s.port with services := s.port.services.filter (·.id != v.id) },
    jobs := s.jobs.map fun (j : Job) => if v.id ∈ j.waits then { j with waits := j.waits.filter (· ≠ v.id), dead := v.pte :: j.dead } else j } := by
  unfold State.serviceEnd
  extract_lets s1 s2 s3 s4 s5 overWith s6 s7 s8 waiting
  have haccess : s2 = s1 := by
    have hnone : (s1.accesses.filter (·.service == some v.id)) = [] :=
      List.filter_eq_nil_iff.2 fun a ha hw => h.accesses a ha (eq_of_beq hw)
    exact congrArg (List.foldl _ s1) hnone
  clear_value s2
  subst haccess
  have hmatrix : s3 = s1 := by
    refine foldl_fixed_of_mem fun e he => ?_
    obtain ⟨htile, hloop, _⟩ := h.groups e he
    extract_lets s'
    have hstay : s' = s1 := by
      refine foldl_fixed_of_mem fun o ho => ?_
      split
      next id ad hs => exact if_pos fun hid : id = v.id => htile o ho ad (hid ▸ hs)
      next => rfl
    rw [hstay]
    split
    next l hl =>
      split
      next id ad hs => exact if_pos fun hid : id = v.id => hloop l hl ad (hid ▸ hs)
      next => rfl
    next => rfl
  clear_value s3
  subst hmatrix
  have hrecord : s4 = s1 := by
    have hnone : (s1.groups.filter (·.2.recWait == some v.id)) = [] :=
      List.filter_eq_nil_iff.2 fun e he hw => h.records e he (eq_of_beq hw)
    exact congrArg (List.foldl _ s1) hnone
  clear_value s4
  subst hrecord
  have hphase : s7 = s6 := by
    have hnone : (s6.ctxs.filter (·.2.schedWaits.contains v.id)) = [] :=
      List.filter_eq_nil_iff.2 fun e he hw => h.phases e he (List.contains_iff_mem.1 hw)
    exact congrArg (List.foldl _ s6) hnone
  clear_value s7
  subst hphase
  have hout : ∃ ed, s8 = { s6 with edge := ed } := by
    by_cases ho : s6.edge.outWaits.contains v.id = true
    · exact ⟨_, if_pos ho⟩
    · exact ⟨s6.edge, if_neg ho⟩
  obtain ⟨ed, hed⟩ := hout
  clear_value s8
  subst hed
  have hnobody : waiting = [] := pageWaiters_nil (s := s) fun e he => (h.groups e he).2.2
  have hjobs : s6.jobs = s.jobs.map fun (j : Job) => if v.id ∈ j.waits then { j with waits := j.waits.filter (· ≠ v.id), dead := v.pte :: j.dead } else j := by
    show List.map _ s.jobs = _
    simp only [List.contains_iff_mem, bne, beq_eq_decide, ne_eq, decide_not, Bool.false_eq_true, if_false]
  refine ⟨s6.items, s6.hwq, s6.queues, ed, ?_⟩
  rw [if_neg Bool.false_ne_true, hnobody, List.map_nil, State.deliver_nil]
  exact congrArg (fun js => ({ s6 with edge := ed, jobs := js } : State)) hjobs

/-! ## The page a service maps (R31, R465) -/

/-- A first mapping places pages and does nothing else. -/
theorem placePages_shape (s : State) (e : BufEntry) (pages : List Nat) : ∃ m, s.placePages e pages = { s with port := { s.port with placed := m } } := by
  unfold State.placePages
  induction pages generalizing s with
  | nil => exact ⟨s.port.placed, rfl⟩
  | cons g pages ih =>
    rw [List.foldl_cons]
    split
    · exact ih s
    · obtain ⟨m, hm⟩ := ih (s.modPort fun p => { p with placed := Map.set p.placed g (e.stripe, e.chmask) })
      exact ⟨m, hm⟩
theorem Port.homesOf.pool64 {p q : Port} (h : p.homesOf q) : p.pool64 = q.pool64 := (congrArg Port.pool64 h :)
theorem Port.homesOf.services {p q : Port} (h : p.homesOf q) : p.services = q.services := (congrArg Port.services h :)

/-- The entry a service writes for a page (R465). -/
def BufEntry.pteOf (e : BufEntry) (phys : Nat) : Nat := phys + (if e.compress then 2 else 0) + 1
/-- A mapped page is zero, its entry is written, and the port's page tables and copies follow. -/
theorem mapPage_shape (s : State) (v : Service) (e : BufEntry) (phys : Nat) (h : v.pte + 8 ≤ memSize) :
    ∃ p : Port, p.pool64 = s.port.pool64 ∧ p.services = s.port.services ∧ s.mapPage v e phys = { s with
      port := p, mem := memWrite (s.mem.filter fun c => !decide (phys ≤ c.1 ∧ c.1 < phys + e.pageSize)) v.pte (leBytes 8 (e.pteOf phys)) } := by
  generalize hmap : s.mapPage v e phys = t
  unfold State.mapPage at hmap
  extract_lets pages s1 inside dropped s2 s3 at hmap
  obtain ⟨m, hplace⟩ := placePages_shape s e pages
  have hs1 : s1 = _ := hplace
  clear_value s1
  subst hs1
  obtain ⟨p, x, hp, hx, hpoke⟩ := s3.pokeRaw_shape v.pte (leBytes 8 (e.pteOf phys))
  refine ⟨p, hp.pool64, hp.services, hmap.symm.trans (hpoke.trans ?_)⟩
  rw [hx (by rw [leBytes_length]; exact h)]
  rfl
/-- Memory after a page is mapped: the entry, the page at 0, everything else as it was. -/
theorem memByte_mapped (m : List Host.Cell) (hm : Memory.wf m = true) (pte entry phys size x : Nat) :
    memByte (memWrite (m.filter fun c => !decide (phys ≤ c.1 ∧ c.1 < phys + size)) pte (leBytes 8 entry)) x =
      if pte ≤ x ∧ x < pte + 8 then (leBytes 8 entry).getD (x - pte) 0 else if phys ≤ x ∧ x < phys + size then 0 else memByte m x := by
  have hwf := wf_filter (fun c => !decide (phys ≤ c.1 ∧ c.1 < phys + size)) m hm
  split
  next hx =>
    have hk : x - pte < (leBytes 8 entry).length := by rw [leBytes_length]; omega
    have hin := memByte_memWrite_inside (leBytes 8 entry) _ pte (x - pte) hk hwf
    rw [Nat.add_sub_cancel' hx.1] at hin
    rw [hin, List.getD_eq_getElem _ _ hk]
  next hx =>
    rw [memByte_memWrite_outside _ _ _ _ hwf (by rw [leBytes_length]; omega), memByte_filter (fun a => !decide (phys ≤ a ∧ a < phys + size))]
    by_cases hp : phys ≤ x ∧ x < phys + size <;> simp [hp]

/-! ## A page that is there (R31, R465) -/

/-- From s to t the service v ended with the page at `phys` in its buffer's entry: the page is zero, and the threads that waited may go on. -/
structure PageServed (s t : State) (v : Service) (e : BufEntry) (phys : Nat) : Prop where
  present : t.absent = s.absent
  pool : t.port.pool64 = s.port.pool64
  services : t.port.services = s.port.services.filter (·.id != v.id)
  bytes : ∀ x, memByte t.mem x = if v.pte ≤ x ∧ x < v.pte + 8 then (leBytes 8 (e.pteOf phys)).getD (x - v.pte) 0
    else if phys ≤ x ∧ x < phys + e.pageSize then 0 else memByte s.mem x
  threads : ThreadsStay s t
  woken : ∀ g k T kind ad i j, s.thread? g k = some T → T.wait = .on (.page v.id kind ad) i j → t.thread? g k = some (T.woken s.clock)

theorem mapPage_served {s : State} {v : Service} (e : BufEntry) (phys : Nat) (hpte : v.pte + 8 ≤ memSize) (hwf : Memory.wf s.mem = true)
    (hrec : ∀ e ∈ s.groups, e.2.recWait ≠ some v.id) (hctx : ∀ e ∈ s.ctxs, v.id ∉ e.2.schedWaits) :
    PageServed s ((s.mapPage v e phys).serviceEnd v true) v e phys := by
  obtain ⟨p, hpool, hservices, hmap⟩ := mapPage_shape s v e phys hpte
  rw [hmap]
  generalize hm : memWrite _ v.pte (leBytes 8 (e.pteOf phys)) = m
  obtain ⟨u, hu, hend⟩ := serviceEnd_served { s with port := p, mem := m } v hrec hctx
  have hthread : ∀ g k, u.thread? g k = s.thread? g k := hu.thread
  have hwake := wakes_groups (u.pageWaiters v) u
  rw [hend]
  refine ⟨?_, ?_, ?_, fun x => ?_, fun g k => ?_, fun g k T kind ad i j hT hw => ?_⟩
  · exact (congrArg State.absent hwake :).trans hu.absent
  · exact (congrArg (·.port.pool64) hwake :).trans ((congrArg Port.pool64 hu.port :).trans hpool)
  · exact (congrArg (·.port.services) hwake :).trans ((congrArg Port.services hu.port :).trans (congrArg (List.filter _) hservices))
  · rw [← memByte_mapped s.mem hwf, hm]
    exact congrArg (memByte · x) ((congrArg State.mem hwake :).trans hu.mem)
  · rw [← hthread]; exact wakes_still _ u g k
  · have hwaits : (g, k, kind, ad) ∈ u.pageWaiters v := mem_pageWaiters ((hthread g k).trans hT) hw
    rw [wakes_thread, if_pos (List.mem_map_of_mem (f := fun w => (w.1, w.2.1)) hwaits), hthread, hT, hu.clock]
    rfl

theorem pageDone_walker {s : State} {v : Service} {c : Ctx} {p : Nat} {rest : List Nat} (hfind : s.port.services.find? (·.id == v.id) = some v)
    (hc : s.ctx? v.ctx = some c) (hwalker : bitN c.svc 0 = 0) (h64 : (s.buf c v.buf).pg2m = false) (hpool : s.port.pool64 = p :: rest) :
    s.pageDone v.id .walker = ((s.modPort fun q => { q with pool64 := rest }).mapPage v (s.buf c v.buf) p).serviceEnd v true := by
  simp [State.pageDone, hfind, hc, hwalker, h64, hpool]
theorem pageDone_oromel {s : State} {v : Service} {c : Ctx} {p : Nat} (hfind : s.port.services.find? (·.id == v.id) = some v)
    (hc : s.ctx? v.ctx = some c) (horomel : bitN c.svc 0 = 1) (halign : p % (s.buf c v.buf).pageSize = 0) (hfits : p + (s.buf c v.buf).pageSize ≤ memSize) :
    s.pageDone v.id (.oromel p) = (s.mapPage v (s.buf c v.buf) p).serviceEnd v true := by
  simp [State.pageDone, hfind, hc, horomel, halign, Nat.not_lt.2 hfits]
theorem pageTimeout_late {s : State} {v : Service} {c : Ctx} (hfind : s.port.services.find? (·.id == v.id) = some v)
    (hc : s.ctx? v.ctx = some c) (horomel : bitN c.svc 0 = 1) (hlate : v.start + 130000000 ≤ s.clock) : s.pageTimeout v.id = s.serviceEnd v false := by
  simp only [State.pageTimeout, hfind, hc]
  exact if_pos ⟨horomel, hlate⟩

end Sys2Proof.Machine
end

section
/-! PROOF. Overflow holds and page services (R104, R465, R466, R472, R473): O46. -/

namespace Sys2Proof.Machine

/-- Settles O46: relief, report and kill of a page that stalls; page services that the walker or Oromel resolves, and one without an answer. -/
theorem pagesAndHolds : Obligations.PagesAndHolds := by
  intro s hpresent report serves resolved
  refine ⟨fun page hpage => ?relief, fun page t0 hlog hstall hlate => ?report, fun page t0 c C hlog hmortal hstall hone => ?kill,
    fun v c p rest hv hwalker h64 hpool => ?walker, fun v c p hv horomel halign hfits => ?oromel, fun v c hv horomel hlate hacc hgroups => ?unanswered⟩
  case relief =>
    exact ⟨s.relieve page, (congrArg finish (repackDone_relieves hpage)).trans (finish_of_present _ hpresent), rfl, relieve_port s page⟩
  case report =>
    refine ⟨_, (congrArg finish (holdTimeout_reports hstall hlate)).trans (finish_of_present _ (s.log_absent _ hlog)),
      (s.log_logged _ hlog).congr rfl rfl, ?_, s.log_groups _⟩
    exact Map.get?_set_self _ page (t0, true)
  case kill =>
    obtain ⟨hlogged, hkilled, habsent, p, T, f, hp, hport⟩ := s.logKill_mortal
      { cls := 11, sev := 2, ctx := c, rfl := 3, ppage := page * 65536, detail := s.holdCount page } C hlog hmortal
    refine ⟨_, (congrArg finish (holdKill_kills hstall hone)).trans (finish_of_present _ habsent), hlogged.congr rfl rfl, hkilled.modPort _, ?_⟩
    exact congrArg (Map.erase · page) ((congrArg Port.stalls hport).trans hp.stalls)
  case walker =>
    obtain ⟨hfind, hc, hpte, hwf, hrec, hctx⟩ := hv
    have hserved := mapPage_served (s := s.modPort fun q => { q with pool64 := rest }) (s.buf c v.buf) p hpte hwf hrec hctx
    have hsize : (s.buf c v.buf).pageSize = 65536 := by rw [BufEntry.pageSize, h64]; rfl
    refine ⟨_, (congrArg finish (pageDone_walker hfind hc hwalker h64 hpool)).trans (finish_of_present _ (hserved.present.trans hpresent)),
      hserved.pool, hserved.services, ?_, hserved.threads, hserved.woken⟩
    rw [← hsize]
    exact hserved.bytes
  case oromel =>
    obtain ⟨hfind, hc, hpte, hwf, hrec, hctx⟩ := hv
    have hserved := mapPage_served (s.buf c v.buf) p hpte hwf hrec hctx
    exact ⟨_, (congrArg finish (pageDone_oromel hfind hc horomel halign hfits)).trans (finish_of_present _ (hserved.present.trans hpresent)),
      hserved.pool, hserved.services, hserved.bytes, hserved.threads, hserved.woken⟩
  case unanswered =>
    obtain ⟨hfind, hc, -, -, hrec, hctx⟩ := hv
    obtain ⟨is, ws, qs, ed, hend⟩ := serviceEnd_unresolved s v ⟨hacc, hrec, hctx, hgroups⟩
    exact ⟨_, (congrArg finish ((pageTimeout_late hfind hc horomel hlate).trans hend)).trans (finish_of_present _ hpresent), rfl, rfl, rfl, rfl, rfl⟩

end Sys2Proof.Machine
end

section
/-! SUPPORT. Planar instructions at their issue: what they read does not depend on how the threads of a group stand (R111, R113, R129), and
what each plan answers where its operands are in range (R338, R339). -/

namespace Sys2Proof.Machine

variable (s : State) (gs : Sparse Group)

@[simp] theorem pdeFor_groups (ctx h b : Nat) (write : Bool) : ({ s with groups := gs } : State).pdeFor ctx h b write = s.pdeFor ctx h b write := by
  have hpde : ({ s with groups := gs } : State).pde ctx h = s.pde ctx h := by
    simp only [State.pde, State.readDev, port_congr (s := s) (t := { s with groups := gs }) rfl rfl]
    rfl
  simp only [State.pdeFor, hpde]
  rfl
@[simp] theorem plWords_groups (ctx : Nat) (ren : List Rename) (k : PKind) (as : List Addr) :
    ({ s with groups := gs } : State).plWords ctx ren k as = s.plWords ctx ren k as := by
  induction as with
  | nil => rfl
  | cons a as ih =>
    have hpoison (w : Bool) (ps : List Nat) : ({ s with groups := gs } : State).poisonedIn w ps = s.poisonedIn w ps := rfl
    simp only [State.plWords, port_congr (s := s) (t := { s with groups := gs }) rfl rfl, hpoison, ih]
@[simp] theorem readBlock_groups (ctx : Nat) (ren : List Rename) (p : Pde) (b : Nat) (want : Nat → List Nat) :
    ({ s with groups := gs } : State).readBlock ctx ren p b want = s.readBlock ctx ren p b want := by
  simp only [State.readBlock, State.blockIn, plWords_groups]
@[simp] theorem planarStart_groups (r : Ref) (h b : Nat) (want : Pde → Nat → List Nat) (ok : TOut) :
    ({ s with groups := gs } : State).planarStart r h b want ok = s.planarStart r h b want ok := by
  simp only [State.planarStart, pdeFor_groups, readBlock_groups]
  rfl
@[simp] theorem planarOps_groups (f : Full) (r : Ref) : planarOps f { s with groups := gs } r = planarOps f s r := rfl
@[simp] theorem planLdp_groups (f : Full) (r : Ref) : planLdp f { s with groups := gs } r = planLdp f s r := by
  simp only [planLdp, planarOps_groups, planarStart_groups]
@[simp] theorem planPrf_groups (f : Full) (r : Ref) : planPrf f { s with groups := gs } r = planPrf f s r := by
  simp only [planPrf, planarOps_groups, planarStart_groups]
@[simp] theorem planPst_groups (merge : Bool) (f : Full) (rs : List Ref) : planPst merge f { s with groups := gs } rs = planPst merge f s rs := by
  simp only [planPst, planarOps_groups]

/-- The depth operand of a planar instruction (R338). -/
def planarDepth (f : Full) (s : State) (r : Ref) : Nat := if f.s then s.op32 r f.c.toNat else f.c.toNat
/-- A handle below 65536 and a depth from 1 to 24 (R338, R459). -/
def PlanarInRange (f : Full) (s : State) (r : Ref) : Prop := s.b32 r f.b < 65536 ∧ 1 ≤ planarDepth f s r ∧ planarDepth f s r ≤ 24
/-- The directory has the block, and the port lets the planes that `want` names be read (R113, R463, R470). -/
def BlockReadable (s : State) (r : Ref) (h b : Nat) (want : Pde → Nat → List Nat) : Prop :=
  ∃ p x, s.pdeFor r.G.ctx h b false = .ok p ∧ s.readBlock r.G.ctx (s.renOf r.G.item) p b (want p) = .ok x

variable {s} {f : Full} {r : Ref}

theorem planarOps_inRange (h : PlanarInRange f s r) : planarOps f s r = .ok (s.b32 r f.b, s.op32 r f.a.toNat, planarDepth f s r) := by
  obtain ⟨hhandle, hlow, hhigh⟩ := h
  have hdepth : ¬ (planarDepth f s r < 1 ∨ 24 < planarDepth f s r) := by omega
  exact (if_neg (by omega)).trans (if_neg hdepth)
theorem planarStart_readable {h b : Nat} {want : Pde → Nat → List Nat} (ok : TOut) (hread : BlockReadable s r h b want) :
    s.planarStart r h b want ok = ok := by
  obtain ⟨p, x, hp, hx⟩ := hread
  simp only [State.planarStart, hp, hx]
theorem planLdp_starts (h : PlanarInRange f s r)
    (hread : BlockReadable s r (s.b32 r f.b) (s.op32 r f.a.toNat) fun p => planesTo p (planarDepth f s r)) :
    planLdp f s r = .done { accs := [{ kind := .ldp (s.b32 r f.b) (s.op32 r f.a.toNat) (planarDepth f s r) f.d.toNat }] } := by
  simp only [planLdp, planarOps_inRange h]
  exact planarStart_readable _ hread
/-- An exhausted register starts no access (R131). -/
theorem planPrf_exhausted (h : PlanarInRange f s r) (hfull : bitN (r.T.tag f.d.toNat) 15 = 1 ∧ bitN (r.T.tag f.d.toNat) 13 = 1) :
    planPrf f s r = donePred f false := by
  simp only [planPrf, planarOps_inRange h, if_pos hfull]
theorem planPrf_starts (h : PlanarInRange f s r) (hfull : ¬ (bitN (r.T.tag f.d.toNat) 15 = 1 ∧ bitN (r.T.tag f.d.toNat) 13 = 1))
    (hread : BlockReadable s r (s.b32 r f.b) (s.op32 r f.a.toNat) fun p => prfWant p (planarDepth f s r) (r.T.tag f.d.toNat)) :
    planPrf f s r = .done { accs := [{ kind := .prf (s.b32 r f.b) (s.op32 r f.a.toNat) (planarDepth f s r) f.d.toNat f.pd.toNat }] } := by
  simp only [planPrf, planarOps_inRange h, if_neg hfull]
  exact planarStart_readable _ hread

/-! ## Stores of one block -/

/-- The threads of an issue group that store to the block r stores to (R133). -/
def blockStorers (f : Full) (s : State) (xs : List Ref) (r : Ref) : List Ref :=
  xs.filter fun q => s.b32 q f.b == s.b32 r f.b && s.op32 q f.a.toNat == s.op32 r f.a.toNat
/-- What r does where lo is the lowest of the threads that store to its block: lo's access is for all, and the others count it (R133, R134). -/
def storeShare (merge : Bool) (f : Full) (s : State) (xs : List Ref) (r lo : Ref) : TRes :=
  if lo.t = r.t ∧ lo.g = r.g then
    let lanes := (blockStorers f s xs r).map fun q => (q.T.lane, q.g, q.t, BitVec.ofNat 32 (q.T.v f.d.toNat))
    { accs := [{ kind := .pst merge (s.b32 r f.b) (s.op32 r f.a.toNat) (planarDepth f s lo) lanes (BitVec.ofNat 32 (lo.T.tag f.d.toNat)) f.pd.toNat }] }
  else { st := 1 }
/-- What r does in a planar store of the threads xs. -/
def storeRes (merge : Bool) (f : Full) (s : State) (xs : List Ref) (r : Ref) : TRes :=
  match (blockStorers f s xs r).head? with
  | none => {}
  | some lo => storeShare merge f s xs r lo

variable {merge : Bool} {xs : List Ref}

theorem blockStorers_head (hr : r ∈ xs) : ∃ lo, (blockStorers f s xs r).head? = some lo := by
  have hmem : r ∈ blockStorers f s xs r := List.mem_filter.2 ⟨hr, by simp⟩
  exact ⟨_, List.head?_eq_some_head (List.ne_nil_of_mem hmem)⟩
theorem storeRes_of_head {lo : Ref} (h : (blockStorers f s xs r).head? = some lo) : storeRes merge f s xs r = storeShare merge f s xs r lo := by
  simp only [storeRes, h]
/-- Each thread that stores counts its block's access once in ST. -/
theorem storeRes_sts (hr : r ∈ xs) : (storeRes merge f s xs r).sts = 1 := by
  obtain ⟨lo, hlo⟩ := blockStorers_head (f := f) (s := s) hr
  rw [storeRes_of_head hlo, storeShare]
  split <;> rfl
/-- Where every thread's operands are in range and its ST has room, each has its part in its block's write. -/
theorem planPst_starts (hops : ∀ r ∈ xs, PlanarInRange f s r) (hroom : ∀ r ∈ xs, r.T.st < 63)
    (htag : ∀ r ∈ xs, ∀ lo, (blockStorers f s xs r).head? = some lo → bitN (lo.T.tag f.d.toNat) 15 = 1) :
    planPst merge f s xs = xs.map fun r => (r, .done (storeRes merge f s xs r)) := by
  have hplanar : (xs.map fun r => (r, planarOps f s r)) = xs.map fun r => (r, .ok (s.b32 r f.b, s.op32 r f.a.toNat, planarDepth f s r)) :=
    List.map_congr_left fun r hr => by rw [planarOps_inRange (hops r hr)]
  have hgood : (xs.filterMap fun r => if r.T.st < 63 then some (r, s.b32 r f.b, s.op32 r f.a.toNat, planarDepth f s r) else none) =
      xs.map fun r => (r, s.b32 r f.b, s.op32 r f.a.toNat, planarDepth f s r) :=
    (List.filterMap_congr fun r hr => if_pos (hroom r hr)).trans (congrFun List.filterMap_eq_map' xs)
  simp only [planPst, hplanar, List.filterMap_map, List.map_map, Function.comp_def, hgood, List.filter_map, List.head?_map]
  refine List.map_congr_left fun r hr => ?_
  obtain ⟨lo, hlo⟩ := blockStorers_head (f := f) (s := s) hr
  have hval : ¬ bitN (lo.T.tag f.d.toNat) 15 = 0 := by rw [htag r hr lo hlo]; decide
  have hst : ¬ 63 ≤ r.T.st := Nat.not_le.2 (hroom r hr)
  rw [storeRes_of_head hlo, storeShare]
  unfold blockStorers at hlo ⊢
  simp only [hlo, Option.map_some, if_neg hst, if_neg hval]
  split <;> rfl
/-- A planar store of the issue group: the lowest thread of each block starts the block's access, and every thread counts once in ST. -/
theorem planarStore_does {i : Instr} {op : Nat} (hexec : Sys2Proof.Machine.exec i = issueTile op f (planPst merge f)) (hop : op ≠ 0x0A6) :
    EachDoes i op f
      (fun s xs r => PlanarInRange f s r ∧ ∀ lo, (blockStorers f s xs r).head? = some lo → bitN (lo.T.tag f.d.toNat) 15 = 1)
      (storeRes merge f) := by
  intro s is rs hi ha hr
  rw [hexec]
  refine issueTile_does op f _ s is rs _ hop hi ha (fun u hu => ?_) fun r hx => (hr r hx).2
  rw [hu.eq, planPst_groups]
  refine planPst_starts (fun r hx => (hr r hx).1.1) (fun r hx => ?_) fun r hx => (hr r hx).1.2
  obtain ⟨-, hst, -⟩ := (hr r hx).2
  rw [storeRes_sts hx] at hst
  omega

end Sys2Proof.Machine
end

section
/-! PROOF. Planar loads, refines and stores (R128, R131, R133 to R135, R338, R339): O24. -/

namespace Sys2Proof.Machine

/-- Settles O24: each read starts by `planarStart` on a block that can be read; a store is `planarStore_does`. -/
theorem planarAccessesStart : Obligations.PlanarAccessesStart := by
  intro f h b d ops readable full same store
  have hfull (r : Ref) : full r = true ↔ bitN (r.T.tag f.d.toNat) 15 = 1 ∧ bitN (r.T.tag f.d.toNat) 13 = 1 := by simp [full]
  refine ⟨eachDoes_of (plan := planLdp f) rfl (by decide) fun s u rs r hok hu => ?load,
    eachDoes_of (plan := planPrf f) rfl (by decide) fun s u rs r hok hu => ?exhausted,
    eachDoes_of (plan := planPrf f) rfl (by decide) fun s u rs r hok hu => ?refines,
    planarStore_does (op := 0x0F0) rfl (by decide), planarStore_does (op := 0x0F1) rfl (by decide)⟩
  case load =>
    obtain ⟨hops, hread⟩ := hok
    rw [hu.eq, planLdp_groups]
    exact planLdp_starts hops hread
  case exhausted =>
    obtain ⟨hops, hex⟩ := hok
    rw [hu.eq, planPrf_groups]
    exact planPrf_exhausted hops ((hfull r).1 hex)
  case refines =>
    obtain ⟨hops, hex, hread⟩ := hok
    rw [hu.eq, planPrf_groups]
    exact planPrf_starts hops (fun hx => Bool.noConfusion (hex.symm.trans ((hfull r).2 hx))) hread

end Sys2Proof.Machine
end

section
/-! SUPPORT. Accesses of hitches and of activation banks at their issue (R170, R209, R210, R288, R340), prefetches and removals of slots
(R218, R335): what each answers where nothing stands in its way. -/

namespace Sys2Proof.Machine

/-! ## Loads that the port grants -/

section
variable (s : State) (gs : Sparse Group)

@[simp] theorem remoteOf_groups (r : Ref) (k : PKind) (a : Addr) (len : Nat) : remoteOf { s with groups := gs } r k a len = remoteOf s r k a len := by
  simp only [remoteOf, port_congr (s := s) (t := { s with groups := gs }) rfl rfl]
  rfl
@[simp] theorem loadAt_groups (r : Ref) (kind : Nat) (a : Addr) (len : Nat) (start : Option (Nat × Nat × Nat) → TOut) :
    ({ s with groups := gs } : State).loadAt r kind a len start = s.loadAt r kind a len start := by
  simp only [State.loadAt, port_congr (s := s) (t := { s with groups := gs }) rfl rfl]
  rfl
@[simp] theorem planActld_groups (f : Full) (r : Ref) : planActld f { s with groups := gs } r = planActld f s r := by
  simp only [planActld, loadAt_groups, State.ea_groups]
end

/-- A load that the port grants, here or at a peer, starts (R86, R190). -/
theorem loadAt_granted {s : State} {r : Ref} {a : Addr} {len : Nat} (kind : Nat) (start : Option (Nat × Nat × Nat) → TOut)
    (h : (∃ ps, s.port_ r.G.ctx (s.renOf r.G.item) .load a len = .ok ps) ∨ ∃ pod x, s.port_ r.G.ctx (s.renOf r.G.item) .load a len = .remote pod x) :
    s.loadAt r kind a len start = start (remoteOf s r .load a len) := by
  obtain ⟨ps, hport⟩ | ⟨pod, x, hport⟩ := h <;> simp only [State.loadAt, remoteOf, hport]

/-! ## Hitches of an issue group (R209, R210, R340) -/

/-- Entries of the slot that a hitch asks for. -/
def hitchEntries (each : Bool) (f : Full) : Nat := if each then f.mod.toNat / 4 + 1 else 1
/-- Where the slot begins in the thread's scratchpad. -/
def hitchOffset (f : Full) (s : State) (r : Ref) : Nat := s.op32 r f.d.toNat % r.G.lr.alloc
/-- The line that is hitched. -/
def hitchLine (f : Full) (s : State) (r : Ref) : Addr := s.ea r f &&& ~~~(63#64)
/-- The access that a hitch starts. -/
def hitchRes (each : Bool) (f : Full) (s : State) (r : Ref) : TRes :=
  { accs := [{ kind := .hitch (hitchOffset f s r) (hitchLine f s r) 0 (hitchEntries each f) each (hitchTag f) f.pd.toNat, parts := [(0, 64)] }], vol := 4 }
/-- A hitch's slot shares no byte with a run of offset o and length m. -/
def SlotClear (each : Bool) (f : Full) (s : State) (r : Ref) (o m : Nat) : Prop :=
  ringOverlap r.G.lr.alloc (hitchOffset f s r) (80 * hitchEntries each f) o m = false
/-- A hitch that nothing of its own hinders: room and place for its slot, a buffer of this device, and a line the port lets it read. -/
structure HitchReady (each : Bool) (f : Full) (s : State) (r : Ref) : Prop where
  room : 80 * hitchEntries each f ≤ r.G.lr.alloc
  aligned : s.op32 r f.d.toNat % 16 = 0
  clear : ∀ x ∈ s.slotRuns r.g, SlotClear each f s r x.1 x.2
  here : ∀ c, s.ctx? r.G.ctx = some c → ¬ ((s.buf c (bufOf (s.ea r f))).valid = true ∧ (s.buf c (bufOf (s.ea r f))).remote = true)
  readable : ∃ ps, s.port_ r.G.ctx (s.renOf r.G.item) .load (hitchLine f s r) 64 = .ok ps
/-- What a hitch that starts takes of its group's scratchpad. -/
def hitchClaims (r : Ref) (o : TOut) : List (Nat × Nat × Nat) :=
  o.res.accs.filterMap fun a => match a.kind with
    | .hitch off _ _ n _ _ _ => some (r.g, off, 80 * n)
    | _ => none

variable {each : Bool} {f : Full} {s : State} {r : Ref}

theorem hitchClaims_hitchRes : hitchClaims r (.done (hitchRes each f s r)) = [(r.g, hitchOffset f s r, 80 * hitchEntries each f)] := rfl
theorem hitchOne_starts {taken : List (Nat × Nat)} (h : HitchReady each f s r) (hfree : ∀ x ∈ taken, SlotClear each f s r x.1 x.2) :
    hitchOne each f s taken r = .done (hitchRes each f s r) := by
  obtain ⟨hroom, halign, -, hhere, ps, hread⟩ := h
  have hapart : ¬ (taken.any fun x => ringOverlap r.G.lr.alloc (hitchOffset f s r) (80 * hitchEntries each f) x.1 x.2) = true := by
    simpa [SlotClear] using hfree
  obtain ⟨c, hc⟩ : ∃ c, s.ctx? r.G.ctx = some c := by
    cases hctx : s.ctx? r.G.ctx with
    | none => simp [State.port_, hctx] at hread
    | some c => exact ⟨c, rfl⟩
  have hlocal := hhere c hc
  unfold hitchOffset hitchEntries at *
  simp only [hitchOne, hc, if_neg (Nat.not_lt.2 hroom), halign, ne_eq, not_true, if_false, if_neg hapart, if_neg hlocal]
  exact loadAt_granted 6 _ (.inl ⟨ps, hread⟩)

/-- A list whose elements are taken in order, each beside the claims of those before it: where no claim changes an outcome, each has the
outcome it has alone. -/
theorem foldl_claims {α β γ : Type} (act : List γ → α → β) (claim : α → β → List γ) (out : α → β) (l : List α)
    (h : ∀ p a q, l = p ++ a :: q → act (p.flatMap fun b => claim b (out b)) a = out a) :
    l.foldl (fun acc a => (acc.1 ++ [(a, act acc.2 a)], acc.2 ++ claim a (act acc.2 a))) ([], []) =
      (l.map fun a => (a, out a), l.flatMap fun a => claim a (out a)) := by
  induction l using List.reverseRecOn with
  | nil => rfl
  | append_singleton l a ih =>
    rw [List.foldl_append, ih fun p b q hl => h p b (q ++ [a]) (by simp [hl])]
    simp [h l a [] rfl]

/-- Hitches of one issue group, each ready and no two of one group's slots sharing a byte, all start. -/
theorem actHitch_starts {rs : List Ref} (hnd : rs.Nodup) (htag : ∀ lo, rs.head? = some lo → lo.G.inTags (hitchTag f) = true)
    (hready : ∀ r ∈ rs, HitchReady each f s r)
    (hapart : ∀ r ∈ rs, ∀ q ∈ rs, q ≠ r → q.g = r.g → SlotClear each f s r (hitchOffset f s q) (80 * hitchEntries each f)) :
    actHitch each f s rs = (s, rs.map fun r => (r, .done (hitchRes each f s r))) := by
  have hfold := foldl_claims
    (fun claims r => hitchOne each f s (s.slotRuns r.g ++ (claims.filter fun x => x.1 == r.g).map fun x => (x.2.1, x.2.2)) r)
    hitchClaims (fun r => .done (hitchRes each f s r)) rs fun p r q hrs => by
      have hmem : r ∈ rs := by simp [hrs]
      refine hitchOne_starts (hready r hmem) fun x hx => ?_
      rcases List.mem_append.1 hx with hslot | hclaim
      · exact (hready r hmem).clear x hslot
      · simp only [hitchClaims_hitchRes, List.mem_map, List.mem_filter, List.mem_flatMap, List.mem_singleton, beq_iff_eq] at hclaim
        obtain ⟨_, ⟨⟨b, hb, rfl⟩, hg⟩, rfl⟩ := hclaim
        have hne : b ≠ r := by
          rintro rfl
          rw [hrs] at hnd
          exact (List.nodup_append.1 hnd).2.2 b hb b (by simp) rfl
        exact hapart r hmem b (by simp [hrs, hb]) hne hg
  cases rs with
  | nil => rfl
  | cons lo rs =>
    have hlo : ¬ ¬ lo.G.inTags (hitchTag f) = true := not_not.2 (htag lo rfl)
    simp only [actHitch, List.head?_cons, if_neg hlo]
    exact congrArg (Prod.mk s) (congrArg Prod.fst hfold)

/-- An instruction issued by `issueAll`, whose executing threads are all done: no thread is named twice. -/
theorem allDo_of_nodup {i : Instr} {op : Nat} {f : Full} {fn : State → List Ref → State × List (Ref × TOut)} {ok : State → List Ref → Prop}
    {eff : State → List Ref → State} {res : State → List Ref → Ref → TRes} (hexec : Sys2Proof.Machine.exec i = issueAll op f fn)
    (hop : op ≠ 0x0A6) (hfn : ∀ s rs, rs.Nodup → ok s rs → fn s rs = (eff s rs, rs.map fun r => (r, .done (res s rs r))))
    (hab : ∀ s rs, ok s rs → s.absent = none → (eff s rs).absent = none) : AllDo i op f ok eff res := by
  intro s is rs hi ha u xs hok hroom
  have hnd : xs.Nodup := List.Nodup.of_map _ (nodup_filter_keys (fun r => r.T.guard f.g f.gn) _ hi.nodup)
  rw [hexec]
  exact issueAll_all op f fn s is rs (eff u xs) (res u xs) hop hi ha (hfn u xs hnd hok) hroom (hab u xs hok ((absent_skips _ _ s).trans hi.present))

/-! ## What removals and prefetches leave (R218, R335) -/

theorem slotHeaders_absent (s : State) (g off : Nat) (x : Slot) : (s.slotHeaders g off x).absent = s.absent := by
  unfold State.slotHeaders
  refine foldl_field State.absent _ (fun _ _ => ?_) _ s
  rfl
theorem readTouch_absent (s : State) (core line : Nat) : (s.readTouch core line).absent = s.absent := by
  unfold State.readTouch
  split <;> rfl
/-- The bank's load starts where the port grants its bytes (R288). -/
theorem planActld_starts (halign : (s.ea r f).toNat % 16 = 0)
    (h : (∃ ps, s.port_ r.G.ctx (s.renOf r.G.item) .load (s.ea r f) 4112 = .ok ps) ∨
      ∃ pod x, s.port_ r.G.ctx (s.renOf r.G.item) .load (s.ea r f) 4112 = .remote pod x) :
    planActld f s r = .done { accs := [{ kind := .actld (if f.s then 1 else 0) (s.ea r f) 0, parts := (List.range 257).map fun k => (16 * k, 16),
                                         remote := remoteOf s r .load (s.ea r f) 4112 }],
                              vol := if (remoteOf s r .load (s.ea r f) 4112).isSome then 32 else 0 } := by
  simp only [planActld, halign, ne_eq, not_true, if_false]
  exact loadAt_granted 8 _ h
/-- A clear of an aligned entry starts an access of the scratchpad (R214, R341). -/
theorem planHclr_starts {cond : Bool} (halign : s.eo r f % 16 = 0) :
    planHclr cond f s r = .done {
      accs := [{ kind := .hclr (s.eo r f % r.G.lr.alloc) (if cond then some (BitVec.ofNat 32 (s.op32 r f.d.toNat)) else none) f.pd.toNat,
                 parts := [(0, 16)] }] } := by
  simp only [planHclr, halign, ne_eq, not_true, if_false]

/-- The compact clear stands for the full one, whether its offset is a register or an immediate (R334). -/
theorem cfull_hclr_op (c : Compact) : (cfull 42 c).1 = 0x10D := by
  cases hi : c.i <;> simp [cfull, CompactWord.full, CompactWord.row, cTable, CRow.expand, hi]
theorem exec_hclrCompact (c : Compact) :
    Sys2Proof.Machine.exec (.hclrCompact c) = issueEach 0x10D (cfull 42 c).2 (planHclr false (cfull 42 c).2) :=
  congrArg (fun op => issueEach op (cfull 42 c).2 (planHclr false (cfull 42 c).2)) (cfull_hclr_op c)

end Sys2Proof.Machine
end

section
/-! PROOF. Hitches, clears, removals, prefetches and loads of activation banks (R170, R209 to R219, R288, R335, R340, R341): O25. -/

namespace Sys2Proof.Machine

/-- Settles O25: hitches of one issue group are `actHitch_starts`; each other instruction acts in its thread alone. -/
theorem hitchAndPrefetchStart : Obligations.HitchAndPrefetchStart := by
  unfold Obligations.HitchAndPrefetchStart
  intro hitched cleared
  have hitch {i : Full → Instr} {code : Nat} {each : Bool} (hexec : ∀ f, Sys2Proof.Machine.exec (i f) = issueAll code f (actHitch each f))
      (hop : code ≠ 0x0A6) : hitched i code each := fun f => by
    refine allDo_of_nodup (hexec f) hop (fun s rs hnd hok => ?_) fun _ _ _ hs => hs
    obtain ⟨htag, hall⟩ := hok
    refine actHitch_starts hnd htag (fun r hr => ?_) fun r hr q hq => ?_
    · obtain ⟨hroom, halign, hclear, -, hhere, hread⟩ := hall r hr
      exact ⟨hroom, halign, hclear, hhere, hread⟩
    · obtain ⟨-, -, -, hother, -, -⟩ := hall r hr
      exact hother q hq
  have clear {i : Instr} {code : Nat} {cond : Bool} {f : Full} (hexec : Sys2Proof.Machine.exec i = issueEach code f (planHclr cond f))
      (hop : code ≠ 0x0A6) : cleared i code cond f :=
    eachDoes_of hexec hop fun s u _ r halign hu => by
      rw [hu.eq]
      exact planHclr_starts halign
  refine ⟨hitch (fun _ => rfl) (by decide), hitch (fun _ => rfl) (by decide), ⟨fun f => clear rfl (by decide), fun c => clear (exec_hclrCompact c) (by decide)⟩,
    fun f => clear rfl (by decide), fun f => ?remove, fun f => ?prefetch, fun f => ?bank⟩
  case remove =>
    refine turnDo_of (act := actUnhitch f) rfl (by decide) (fun s r _ => ?_) fun s r _ hs => ?_
    · unfold actUnhitch
      cases hG : s.group? r.g with
      | none => rfl
      | some G =>
        cases hx : Map.get? G.slots (s.eo r f % r.G.lr.alloc) with
        | none => simp only [hx, Option.bind_some]
        | some x =>
          simp only [hx, Option.bind_some]
          split <;> rfl
    · dsimp only
      split
      · exact hs
      · split
        · exact hs
        · split
          · exact (slotHeaders_absent ..).trans hs
          · exact hs
  case prefetch =>
    refine turnDo_of (act := actLpf f) rfl (by decide) (fun s r _ => ?_) fun s r _ hs => ?_
    · unfold actLpf
      cases s.port_ r.G.ctx (s.renOf r.G.item) .load (s.ea r f) 1 <;> rfl
    · have htouch (line : Nat) : (if f.mod.toNat < 2 then s.readTouch r.G.core line else s).absent = none := by
        split
        · exact (readTouch_absent ..).trans hs
        · exact hs
      cases s.port_ r.G.ctx (s.renOf r.G.item) .load (s.ea r f) 1 with
      | ok ps =>
        dsimp only
        split <;> exact htouch _
      | _ => exact hs
  case bank =>
    refine eachDoes_of (plan := planActld f) rfl (by decide) fun s u _ r hok hu => ?_
    obtain ⟨halign, hread⟩ := hok
    rw [hu.eq, planActld_groups]
    exact planActld_starts halign hread

end Sys2Proof.Machine
end

section
/-! SUPPORT. Sums of products over a whole accumulator (R164 to R166, R385, R386): the table of running sums that `mma` builds, the words it
puts into the accumulator, and the flags of the elements it reads. -/

namespace Sys2Proof.Map

variable {α : Type}

theorem set_append_fresh (m : Sparse α) (k : Nat) (v : α) (h : ∀ e ∈ m, e.1 < k) : set m k v = m ++ [(k, v)] := by
  induction m with
  | nil => rfl
  | cons e m ih =>
    have he : e.1 < k := h e (by simp)
    simp only [set, if_neg (Nat.lt_asymm he), if_neg (Nat.ne_of_gt he), ih fun x hx => h x (by simp [hx]), List.cons_append]
theorem get?_fresh (m : Sparse α) (k : Nat) (h : ∀ e ∈ m, e.1 < k) : get? m k = none := by
  induction m with
  | nil => rfl
  | cons e m ih => exact (if_neg (Nat.ne_of_gt (h e (by simp)))).trans (ih fun x hx => h x (by simp [hx]))

end Sys2Proof.Map

namespace Sys2Proof.Machine

/-! ## The table of sums -/

/-- Steps that lead from each member of a family to the next lead from the first to the one behind the range. -/
theorem foldl_range_family {β : Type} (step : β → Nat → β) (c : Nat → β) (n : Nat) (h : ∀ j < n, step (c j) j = c (j + 1)) :
    (List.range n).foldl step (c 0) = c n := by
  induction n with
  | zero => rfl
  | succ n ih =>
    rw [List.range_succ, List.foldl_append, ih fun j hj => h j (by omega)]
    exact h n (by omega)
theorem range_zip_map {β : Type} (n : Nat) (f : Nat → β) : (List.range n).zip ((List.range n).map f) = (List.range n).map fun k => (k, f k) := by
  simpa using List.zip_map' (f := fun k : Nat => k) (g := f) (l := List.range n)

/-- The sums of an accumulator's first n words, F k at word k. -/
def sumTable (F : Nat → Sum) (n : Nat) : Sparse Sum := (List.range n).map fun k => (k, F k)

theorem sumTable_keys (F : Nat → Sum) (n : Nat) : ∀ e ∈ sumTable F n, e.1 < n := by
  simp [sumTable]
theorem sumTable_set (F : Nat → Sum) (n : Nat) : Map.set (sumTable F n) n (F n) = sumTable F (n + 1) := by
  rw [Map.set_append_fresh _ _ _ (sumTable_keys F n)]
  simp [sumTable, List.range_succ]
/-- A word that no product has reached yet begins its chain at the accumulator (R165, R377). -/
theorem sumAt_sumTable (G : Group) (F : Nat → Sum) (isInt : Bool) (a i j : Nat) :
    G.sumAt (sumTable F (32 * i + j)) isInt a i j = Sum.ofAcc isInt (G.acc a i j) := by
  rw [Group.sumAt, Map.get?_fresh _ _ (sumTable_keys F _)]
  rfl
/-- A row of A with the 32 rows of B extends the table by the words of its row (R386). -/
theorem sumRow_sumTable (G : Group) (F : Nat → Sum) (isInt : Bool) (a i : Nat) (ra : List FVal) (rowB : Nat → List FVal)
    (hF : ∀ j < 32, F (32 * i + j) = (Sum.ofAcc isInt (G.acc a i j)).dot ra (rowB j)) :
    G.sumRow isInt a i (sumTable F (32 * i)) ra ((List.range 32).map rowB) = sumTable F (32 * i + 32) := by
  rw [Group.sumRow, List.length_map, List.length_range, range_zip_map, List.foldl_map]
  refine foldl_range_family _ (fun j => sumTable F (32 * i + j)) 32 fun j hj => ?_
  dsimp only
  rw [sumAt_sumTable, ← hF j hj, sumTable_set]
  rfl

/-- The chain of a word of accumulator a: its own value, then the products of its row of A and its row of B (R164, R386). -/
def mmaSum (G : Group) (isInt : Bool) (a : Nat) (rowA rowB : Nat → List FVal) (k : Nat) : Sum :=
  (Sum.ofAcc isInt (G.acc a (k / 32) (k % 32))).dot (rowA (k / 32)) (rowB (k % 32))
/-- The rows of A in turn fill the table of the whole accumulator. -/
theorem sumRows_sumTable (G : Group) (isInt : Bool) (a : Nat) (rowA rowB : Nat → List FVal) (n : Nat) :
    (List.range n).foldl (fun m i => G.sumRow isInt a i m (rowA i) ((List.range 32).map rowB)) [] =
      sumTable (mmaSum G isInt a rowA rowB) (32 * n) := by
  refine foldl_range_family _ (fun i => sumTable (mmaSum G isInt a rowA rowB) (32 * i)) n fun i _ => ?_
  refine sumRow_sumTable G _ isInt a i _ rowB fun j hj => ?_
  have hrow : (32 * i + j) / 32 = i := by omega
  have hcol : (32 * i + j) % 32 = j := by omega
  rw [mmaSum, hrow, hcol]

/-! ## The words of the accumulator -/

/-- The word that a sum leaves: an s32 value, or an FP32 value within its bound (R165, R166). -/
def sumWord (isInt sat : Bool) (x : Sum) (free : Nat) : Nat := if isInt then x.intResult sat else x.result (Config.accValue free)
/-- A table of sums put into an accumulator: one word after the other, each floating one with a free value of its own. -/
theorem putSums_sumTable (s : State) (g a : Nat) (isInt sat : Bool) (F : Nat → Sum) (n : Nat) :
    s.putSums g a isInt sat (sumTable F n) =
      { s.modG g fun G => (List.range n).foldl (fun (H : Group) k => H.setAcc a (k / 32) (k % 32) (sumWord isInt sat (F k) (s.free + k))) G with
        free := s.free + if isInt then 0 else n } := by
  have hlen : (sumTable F n).length = n := by simp [sumTable]
  have hzip : (sumTable F n).zip (List.range n) = (List.range n).map fun k => ((k, F k), k) := by
    simpa [sumTable] using List.zip_map' (f := fun k => (k, F k)) (g := fun k : Nat => k) (l := List.range n)
  rw [State.putSums, hlen, hzip]
  simp only [List.foldl_map]
  cases isInt <;> rfl
theorem modG_congr {s : State} {g : Nat} {G : Group} (hG : s.group? g = some G) {f h : Group → Group} (hfh : f G = h G) : s.modG g f = s.modG g h :=
  congrArg (fun gs => ({ s with groups := gs } : State)) (Map.modify_congr s.groups g f h fun v hv => by
    cases hG.symm.trans hv
    exact hfh)

/-! ## Flags -/

theorem foldl_or_start (u : Nat → Nat) (l : List Nat) (x y : Nat) : l.foldl (fun z i => z ||| u i) (x ||| y) = l.foldl (fun z i => z ||| u i) x ||| y := by
  induction l generalizing x with
  | nil => rfl
  | cons i l ih => rw [List.foldl_cons, List.foldl_cons, ← ih, Nat.or_right_comm]
/-- Two kinds of flags raised side by side are the one kind raised after the other. -/
theorem foldl_or_or (u v : Nat → Nat) (l : List Nat) (x : Nat) :
    l.foldl (fun z i => z ||| u i ||| v i) x = l.foldl (fun z i => z ||| v i) (l.foldl (fun z i => z ||| u i) x) := by
  induction l generalizing x with
  | nil => rfl
  | cons i l ih => rw [List.foldl_cons, ih, List.foldl_cons, List.foldl_cons, foldl_or_start u l (x ||| u i) (v i)]

/-! ## One act for the issue group (R378, R379) -/

/-- A matrix instruction that may have its effect has it, once for its issue group, and all its threads have the one outcome. -/
theorem matStep_acts {use : MUse} {pre : State → Ref → Option TOut} {act : State → Ref → List Ref → State × TOut} {s u : State} {rs : List Ref}
    {lo : Ref} {o : TOut} (hlo : rs.head? = some lo) (huse : mayUse use s rs) (hpre : pre s lo = none) (hact : act s lo rs = (u, o)) :
    matStep use pre act s rs = (u, rs.map fun r => (r, o)) := by
  obtain ⟨hgranted, hfree, hheld⟩ := huse lo hlo
  have hhit : ¬ (rs.any fun r => r.T.held.any fun h => match h.acc with | some a => use.ra.contains a || use.wa.contains a | none => false) = true := by
    simp only [List.any_eq_true, not_exists, not_and]
    intro r hr h hh
    cases ha : h.acc with
    | none => simp
    | some a =>
      obtain ⟨hread, hwrite⟩ := hheld r hr h hh a ha
      simp [hread, hwrite]
  simp only [matStep, hlo, hgranted, hpre, hfree, hact, Bool.false_eq_true, if_false]
  exact if_neg hhit

end Sys2Proof.Machine
end

section
/-! PROOF. `mma` (R164 to R166, R385, R386): O30. -/

namespace Sys2Proof.Machine

/-- The elements of a tile's rows from place `seg` on. -/
def tileRows (t : Tile) (seg K i : Nat) : List FVal := (t.elems i seg K).1
/-- The flags of the elements that `mma` reads (R160). -/
def mmaFlags (f : Full) (K : Nat) (G : Group) : Nat := (List.range 32).foldl (fun x i =>
  x ||| ((G.tile f.a.toNat).elems i 0 K).2 ||| ((G.tile (numB f)).elems i (32 * f.c.toNat) K).2) 0
/-- The sum that `mma` leaves at word k. -/
def mmaWordSum (f : Full) (isInt : Bool) (K : Nat) (G : Group) : Nat → Sum :=
  mmaSum G isInt f.d.toNat (tileRows (G.tile f.a.toNat) 0 K) (tileRows (G.tile (numB f)) (32 * f.c.toNat) K)
/-- The state that `mma` leaves: every word of the accumulator with its sum. -/
def mmaState (f : Full) (isInt : Bool) (K : Nat) (s : State) (lo : Ref) : State :=
  { s.modG lo.g fun G => (List.range 1024).foldl (fun (H : Group) k =>
      H.setAcc f.d.toNat (k / 32) (k % 32) (sumWord isInt (bitN f.mod.toNat 2 == 1) (mmaWordSum f isInt K G k) (s.free + k))) G with
    free := s.free + if isInt then 0 else 1024 }
/-- What `mma` asks of its operands: valid tiles of a listed pairing, and a segment that the pairing has (R385, R386). -/
structure MmaReady (f : Full) (isInt : Bool) (K : Nat) (G : Group) : Prop where
  validA : (G.tile f.a.toNat).valid = true
  validB : (G.tile (numB f)).valid = true
  paired : pairing (G.tile f.a.toNat).fmt (G.tile (numB f)).fmt = some (isInt, K)
  segment : f.c.toNat < (if (G.tile f.a.toNat).fmt = 16 then (if (G.tile (numB f)).fmt = 14 then 4 else 2) else 1)

theorem actMma_sums {f : Full} {isInt : Bool} {K : Nat} {s : State} {rs : List Ref} {lo : Ref} {G : Group} (hlo : rs.head? = some lo)
    (huse : mayUse { rt := [f.a.toNat, numB f], ra := [f.d.toNat], wa := [f.d.toNat], engine := true } s rs) (hG : s.group? lo.g = some G)
    (h : MmaReady f isInt K G) :
    actMma f s rs = (mmaState f isInt K s lo, rs.map fun r => (r, .done { flags := mmaFlags f K G })) := by
  obtain ⟨hva, hvb, hpair, hseg⟩ := h
  have hflags : ((List.range 32).map (fun i => (G.tile f.a.toNat).elems i 0 K) ++
      (List.range 32).map fun j => (G.tile (numB f)).elems j (32 * f.c.toNat) K).foldl (fun x r => x ||| r.2) 0 = mmaFlags f K G := by
    rw [List.foldl_append, List.foldl_map, List.foldl_map]
    exact (foldl_or_or (fun i => ((G.tile f.a.toNat).elems i 0 K).2) (fun j => ((G.tile (numB f)).elems j (32 * f.c.toNat) K).2) _ 0).symm
  have hsums := sumRows_sumTable G isInt f.d.toNat (tileRows (G.tile f.a.toNat) 0 K) (tileRows (G.tile (numB f)) (32 * f.c.toNat) K) 32
  have hput := putSums_sumTable s lo.g f.d.toNat isInt (bitN f.mod.toNat 2 == 1) (mmaWordSum f isInt K G) 1024
  have hstate : s.putSums lo.g f.d.toNat isInt (bitN f.mod.toNat 2 == 1) (sumTable (mmaWordSum f isInt K G) 1024) = mmaState f isInt K s lo :=
    hput.trans (congrArg (fun u : State => ({ u with free := s.free + if isInt then 0 else 1024 } : State)) (modG_congr hG rfl))
  unfold actMma
  refine matStep_acts hlo huse rfl ?_
  simp only [hG, tileNumB, segOf, hpair, hva, hvb, not_true, or_self, if_false, hflags, range_zip_map, List.foldl_map, List.map_map]
  exact (if_neg (Nat.not_le.2 hseg)).trans (congrArg (fun u => (u, TOut.done { flags := mmaFlags f K G })) ((congrArg _ hsums).trans hstate))

/-- Settles O30: the table of sums that `mma` builds is that of its words, and it is put into the accumulator word by word. -/
theorem matrixMultiplyResults : Obligations.MatrixMultiplyResults := by
  unfold Obligations.MatrixMultiplyResults
  intro f isInt K num rows word flags
  refine allDo_of (fn := actMma f) rfl (by decide) (fun s rs hok => ?_) fun s rs _ hs => ?_
  · obtain ⟨huse, hready⟩ := hok
    cases hlo : rs.head? with
    | none =>
      rw [List.head?_eq_none_iff.1 hlo]
      rfl
    | some lo =>
      obtain ⟨G, hG, hva, hvb, hpair, hseg⟩ := hready lo hlo
      rw [actMma_sums hlo huse hG ⟨hva, hvb, hpair, hseg⟩]
      simp only [onLowest, hlo, Option.bind_some, hG]
      rfl
  · refine (onLowest_absent s rs _ fun lo => ?_).trans hs
    rfl

end Sys2Proof.Machine
end

section
/-! SUPPORT. Canonical memory (log 2, R171): the claim for every shape of answer of the model, the forms in which a definition hands a state
on, and what writes memory. The sections after it say once of each operation of the model, in the model's order, that it keeps the form. O60. -/

namespace Sys2Proof.Machine

/-! ## The claim, for every shape of answer -/

/-- Device memory is in canonical form (log 2). -/
def MemOk (s : State) : Prop := Memory.wf s.mem = true
/-- Every state that an answer carries has its memory in canonical form. -/
def FstOk {α : Type} (p : State × α) : Prop := MemOk p.1
def NextOk (o : Host.Outcome State Fault Refusal) : Prop := ∀ t, o = .next t → MemOk t
def SomeOk (o : Option State) : Prop := ∀ t, o = some t → MemOk t
def ResultOk {ε : Type} (x : Except ε State) : Prop := ∀ t, x = .ok t → MemOk t
def DoneOk {ε α : Type} (x : Except ε (State × α)) : Prop := ∀ p, x = .ok p → FstOk p

variable {s a b : State} {α β ε : Type}

theorem MemOk.next (hs : MemOk s) : NextOk (.next s) := by
  rintro _ ⟨⟩
  exact hs
theorem MemOk.some (hs : MemOk s) : SomeOk (some s) := by
  rintro _ ⟨⟩
  exact hs
theorem MemOk.okay (hs : MemOk s) : ResultOk (.ok s : Except ε State) := by
  rintro _ ⟨⟩
  exact hs
theorem MemOk.ok {p : State × α} (hs : FstOk p) : DoneOk (.ok p : Except ε (State × α)) := by
  rintro _ ⟨⟩
  exact hs
theorem doneOk_error {e : ε} : DoneOk (.error e : Except ε (State × α)) := nofun
theorem resultOk_error {e : ε} : ResultOk (.error e : Except ε State) := nofun
theorem MemOk.pair {x : α} (hs : MemOk s) : FstOk (s, x) := hs
theorem FstOk.mem {p : State × α} (hp : FstOk p) : MemOk p.1 := hp
theorem SomeOk.of_eq {o : Option State} (e : o = Option.some s) (ho : SomeOk o) : MemOk s := ho s e
theorem ResultOk.of_eq {x : Except ε State} (e : x = .ok s) (hx : ResultOk x) : MemOk s := hx s e
theorem DoneOk.of_eq {x : Except ε (State × α)} {p : State × α} (e : x = .ok p) (hx : DoneOk x) : FstOk p := hx p e
theorem MemOk.finish (hs : MemOk s) : NextOk (finish s) := by
  unfold Machine.finish
  split
  · exact hs.next
  · exact nofun

theorem of_ite {P : β → Prop} {c : Prop} {_ : Decidable c} {x y : β} (hx : P x) (hy : P y) : P (if c then x else y) := by
  split
  · exact hx
  · exact hy
/-- A step that is taken or not, from what it is taken from. -/
theorem of_ite_over {P : β → Prop} {c : Prop} {_ : Decidable c} {x y : β} (hy : P y) (hx : P y → P x) : P (if c then x else y) :=
  of_ite (hx hy) hy
theorem of_ite_under {P : β → Prop} {c : Prop} {_ : Decidable c} {x y : β} (hx : P x) (hy : P x → P y) : P (if c then x else y) :=
  of_ite hx (hy hx)
theorem SomeOk.getD {o : Option State} (ho : SomeOk o) (hs : MemOk s) : MemOk (o.getD s) := by
  cases o with
  | none => exact hs
  | some t => exact ho t rfl
theorem SomeOk.bind {o : Option State} {f : State → Option State} (ho : SomeOk o) (hf : ∀ s, MemOk s → SomeOk (f s)) : SomeOk (o.bind f) := by
  cases o with
  | none => exact nofun
  | some t => exact hf t (ho t rfl)
theorem SomeOk.bindTo {o : Option α} {f : α → Option State} (hf : ∀ x, SomeOk (f x)) : SomeOk (o.bind f) := by
  cases o with
  | none => exact nofun
  | some x => exact hf x
theorem SomeOk.mapTo {o : Option α} {f : α → State} (hf : ∀ x, MemOk (f x)) : SomeOk (o.map f) := by
  cases o with
  | none => exact nofun
  | some x => exact (hf x).some
theorem SomeOk.findSome {l : List α} {f : α → Option State} (hf : ∀ x, SomeOk (f x)) : SomeOk (l.findSome? f) := fun _ ht =>
  have ⟨x, _, hx⟩ := List.exists_of_findSome?_eq_some ht
  hf x _ hx

theorem MemOk.foldl {f : State → α → State} {l : List α} (hs : MemOk s) (hf : ∀ s x, MemOk s → MemOk (f s x)) : MemOk (l.foldl f s) :=
  List.foldlRecOn l f hs fun s hs x _ => hf s x hs
theorem MemOk.foldlFst {f : State × β → α → State × β} {l : List α} {p : State × β} (hs : FstOk p)
    (hf : ∀ p x, FstOk p → FstOk (f p x)) : FstOk (l.foldl f p) := List.foldlRecOn l f hs fun p hp x _ => hf p x hp
theorem SomeOk.foldl {f : Option State → α → Option State} {l : List α} {o : Option State} (hs : SomeOk o)
    (hf : ∀ o x, SomeOk o → SomeOk (f o x)) : SomeOk (l.foldl f o) := List.foldlRecOn l f hs fun o ho x _ => hf o x ho

/-! ## The writes of memory themselves -/

/-- Two states with one memory. -/
theorem MemOk.same (hs : MemOk s) (e : a.mem = s.mem) : MemOk a := by
  unfold MemOk
  rw [e]
  exact hs
theorem MemOk.scatter (hs : MemOk s) {cells : List (Nat × Byte)} (e : a.mem = memScatter s.mem cells) : MemOk a := by
  unfold MemOk
  rw [e]
  exact wf_memScatter cells s.mem hs
theorem MemOk.write (hs : MemOk s) {p : Nat} {bs : List Byte} (e : a.mem = memWrite s.mem p bs) : MemOk a := by
  unfold MemOk
  rw [e]
  exact wf_memWrite bs s.mem p hs
theorem MemOk.filter (hs : MemOk s) {p : Host.Cell → Bool} (e : a.mem = s.mem.filter p) : MemOk a := by
  unfold MemOk
  rw [e]
  exact wf_filter p s.mem hs

end Sys2Proof.Machine
end

section
/-! SUPPORT. Canonical memory: contexts, the port, the error log, traps and kills (R171, R235, R433 to R436). O60. -/

namespace Sys2Proof.Machine

variable {s : State} {α β : Type}

theorem MemOk.modG {g : Nat} {f : Group → Group} (hs : MemOk s) : MemOk (s.modG g f) := .same hs rfl
theorem MemOk.modT {g t : Nat} {f : Thread → Thread} (hs : MemOk s) : MemOk (s.modT g t f) := .modG hs
theorem MemOk.modThreads {f : Thread → Thread} (hs : MemOk s) : MemOk (s.modThreads f) := .same hs rfl
theorem MemOk.modCore {c : Nat} {f : Core → Core} (hs : MemOk s) : MemOk (s.modCore c f) := .same hs rfl
theorem MemOk.modCtx {c : Nat} {f : Ctx → Ctx} (hs : MemOk s) : MemOk (s.modCtx c f) := .same hs rfl
theorem MemOk.modPort {f : Port → Port} (hs : MemOk s) : MemOk (s.modPort f) := .same hs rfl
theorem MemOk.modEdge {f : Edge → Edge} (hs : MemOk s) : MemOk (s.modEdge f) := .same hs rfl
theorem MemOk.modItem {i : Nat} {f : Item → Item} (hs : MemOk s) : MemOk (s.modItem i f) := .same hs rfl
theorem MemOk.modJob {j : Nat} {f : Job → Job} (hs : MemOk s) : MemOk (s.modJob j f) := .same hs rfl
theorem MemOk.fresh (hs : MemOk s) : MemOk (s.fresh).2 := .same hs rfl
theorem MemOk.pass {dt : Nat} (hs : MemOk s) : MemOk (s.pass dt) := .same hs rfl
theorem MemOk.checkPhys {a n : Nat} (hs : MemOk s) : MemOk (s.checkPhys a n) := of_ite hs (.same hs rfl)
theorem MemOk.raisePts {core t : Nat} (hs : MemOk s) : MemOk (s.raisePts core t) := .modCore hs
theorem MemOk.catchUp {core : Nat} (hs : MemOk s) : MemOk (s.catchUp core) := .raisePts hs
theorem MemOk.tell {g : Nat} (hs : MemOk s) : MemOk (s.tell g) := by
  unfold State.tell
  split
  exacts [.catchUp hs, hs]
theorem MemOk.dropCopiesOf {p : Copy → Bool} (hs : MemOk s) : MemOk (s.dropCopiesOf p) := .modPort hs
theorem MemOk.meet {core g : Nat} (hs : MemOk s) : MemOk (s.meet core g) := by
  unfold State.meet
  split
  exacts [of_ite hs (.catchUp (.catchUp hs)), hs]
theorem MemOk.homeWrite {w : Writer} {pts l : Nat} (hs : MemOk s) : MemOk (s.homeWrite w pts l) := .modPort hs
theorem MemOk.pokeRaw {a : Nat} {bs : List Byte} (hs : MemOk s) : MemOk (s.pokeRaw a bs) :=
  .checkPhys (.foldl (.write hs rfl) fun _ _ hs => .homeWrite hs)
theorem MemOk.checkAll {ps : List Nat} (hs : MemOk s) : MemOk (s.checkAll ps) := by
  unfold State.checkAll
  split
  exacts [hs, .same hs rfl]
theorem MemOk.setEntry {e x : HEntry} (hs : MemOk s) : MemOk (s.setEntry e x) := .modPort hs
theorem MemOk.ownBytes {ctx n : Nat} {a : Addr} (hs : MemOk s) : MemOk (s.ownBytes ctx a n) := by
  unfold State.ownBytes
  split
  · exact .foldl (.scatter hs rfl) fun _ _ hs => .homeWrite hs
  · exact hs
theorem MemOk.spillAt {e : HEntry} {n : Nat} (hs : MemOk s) : MemOk (s.spillAt e n) := by
  unfold State.spillAt
  dsimp only
  split
  · split
    exacts [.ownBytes (.setEntry hs), .setEntry hs]
  · exact .setEntry hs
theorem MemOk.tableRoom {line : Nat} (hs : MemOk s) : SomeOk (s.tableRoom line) :=
  of_ite (MemOk.some hs) (SomeOk.findSome fun _ => of_ite nofun (SomeOk.mapTo fun _ => .spillAt hs))
theorem MemOk.homeJoin {line : Nat} {ctx : Option Nat} {x : HSub} (hs : MemOk s) : SomeOk (s.homeJoin line ctx x) := by
  unfold State.homeJoin
  dsimp only
  split
  · exact MemOk.some (.setEntry hs)
  · split
    · next ht => exact MemOk.some (.modPort (SomeOk.of_eq ht (MemOk.tableRoom hs)))
    · exact SomeOk.mapTo fun _ => .spillAt (.modPort hs)
theorem MemOk.unspill {line : Nat} (hs : MemOk s) : MemOk (s.unspill line) := by
  unfold State.unspill
  refine MemOk.foldl hs fun _ _ hs => ?_
  split
  · next ht => exact of_ite (SomeOk.of_eq ht (MemOk.tableRoom (.setEntry hs))) hs
  · exact hs
theorem MemOk.pushLine {line : Nat} (hs : MemOk s) : MemOk (s.pushLine line) := by
  unfold State.pushLine
  dsimp only
  split
  exacts [hs, .same (.unspill hs) rfl]
theorem MemOk.lineWritten {w : Writer} {l : Nat} (hs : MemOk s) : MemOk (s.lineWritten w l) := by
  unfold State.lineWritten
  dsimp only
  split
  exacts [.raisePts (.homeWrite (.modThreads (of_ite hs (.pushLine hs)))), .homeWrite (.modThreads (of_ite hs (.pushLine hs)))]
theorem MemOk.writeEvent {w : Writer} {cells : List (Nat × Byte)} (hs : MemOk s) : MemOk (s.writeEvent w cells) :=
  .foldl (.modPort (.scatter (.checkAll hs) rfl)) fun _ _ hs => .lineWritten hs
theorem MemOk.scribble {ctx : Nat} {a : Addr} {n : Nat} (hs : MemOk s) : MemOk (s.scribble ctx a n) := by
  unfold State.scribble
  split
  exacts [.writeEvent (.same hs rfl), hs]
theorem MemOk.msi {v : Nat} (hs : MemOk s) : MemOk (s.msi v) := of_ite hs (.modEdge hs)
theorem MemOk.log {r : ErrRec} (hs : MemOk s) : MemOk (s.log r) := .msi (of_ite (.modEdge (.pokeRaw (.modEdge hs))) (.modEdge (.modEdge hs)))
theorem MemOk.askRepack {page : Nat} (hs : MemOk s) : MemOk (s.askRepack page) := .modPort hs
theorem MemOk.toHold {ps : List Nat} (hs : MemOk s) : MemOk (s.toHold ps) := .modPort hs
theorem MemOk.noteStall {page : Nat} (hs : MemOk s) : MemOk (s.noteStall page) := of_ite hs (.modPort hs)
theorem MemOk.devRoom {ps : List Nat} (hs : MemOk s) : FstOk (s.devRoom ps) := by
  unfold State.devRoom
  dsimp only
  split
  · exact .pair hs
  · exact of_ite (.pair (.same hs rfl)) (of_ite (.pair (.noteStall (.askRepack (.same hs rfl)))) (.pair (.toHold (.askRepack (.same hs rfl)))))
theorem MemOk.stampOne {ctx buf : Nat} {e : BufEntry} {gran lsn : Nat} (hs : MemOk s) : MemOk (s.stampOne ctx buf e gran lsn) := by
  unfold State.stampOne
  dsimp only
  split
  exacts [.writeEvent (MemOk.devRoom hs), of_ite hs (.modCtx (.log hs))]
theorem MemOk.stampRange {ctx : Nat} {a : Addr} {len lsn : Nat} (hs : MemOk s) : MemOk (s.stampRange ctx a len lsn) := by
  unfold State.stampRange
  dsimp only
  split
  exacts [hs, of_ite hs (.foldl hs fun _ _ hs => .stampOne hs)]
theorem MemOk.writeDev {w : Writer} {a : Addr} {cells : List (Nat × Byte)} (hs : MemOk s) : MemOk (s.writeDev w a cells) := by
  unfold State.writeDev
  dsimp only
  split
  exacts [.writeEvent hs, .stampRange (.writeEvent hs)]
theorem MemOk.renew {core line : Nat} (hs : MemOk s) : MemOk (s.renew core line) := .raisePts (.modPort hs)
theorem MemOk.readTouch {core line : Nat} (hs : MemOk s) : MemOk (s.readTouch core line) := of_ite hs (.renew hs)
theorem MemOk.readAt {core : Nat} {ps : List Nat} (hs : MemOk s) : FstOk (s.readAt core ps) :=
  of_ite (.pair (.checkAll hs)) (.pair (.foldl (.checkAll hs) fun _ _ hs => .renew hs))
theorem MemOk.padWrite {g o : Nat} {bs : List Byte} (hs : MemOk s) : MemOk (s.padWrite g o bs) := .modG hs
theorem MemOk.setBar {g o : Nat} {b : Bar} (hs : MemOk s) : MemOk (s.setBar g o b) := .padWrite hs
theorem MemOk.traceNote {g : Nat} {write : Bool} {a : Addr} {len : Nat} (hs : MemOk s) : MemOk (s.traceNote g write a len) := by
  unfold State.traceNote
  dsimp only
  split
  exacts [hs, of_ite hs (.modG hs)]
theorem MemOk.startPage {ctx buf pg : Nat} (hs : MemOk s) : MemOk (s.startPage ctx buf pg).2 := by
  unfold State.startPage
  dsimp only
  split
  exacts [hs, .modPort (.fresh hs)]
theorem MemOk.status {h : HostRef} {code detail lsn : Nat} (hs : MemOk s) : MemOk (s.status h code detail lsn) := by
  unfold State.status
  dsimp only
  refine of_ite (of_ite (.msi hs) hs) (of_ite ?_ ?_)
  · refine MemOk.msi (of_ite (MemOk.writeEvent hs) ?_)
    split
    exacts [.writeEvent hs, hs]
  · refine of_ite (MemOk.writeEvent hs) ?_
    split
    exacts [.writeEvent hs, hs]
theorem MemOk.queueState {q st : Nat} (hs : MemOk s) : MemOk (s.queueState q st) := by
  unfold State.queueState
  split
  exacts [hs, .pokeRaw (.same hs rfl)]
theorem MemOk.dropGroup {g : Nat} (hs : MemOk s) : MemOk (s.dropGroup g) := .same hs rfl
theorem MemOk.trimLines (hs : MemOk s) : MemOk s.trimLines := .modPort hs
theorem MemOk.kill {c detail : Nat} (hs : MemOk s) : MemOk (s.kill c detail) := by
  unfold State.kill
  dsimp only
  split
  · exact hs
  · exact of_ite hs (.trimLines (.foldl (.same (.foldl (.foldl (.modCtx hs) fun _ _ hs => .queueState hs) fun _ _ hs => .dropGroup hs) rfl)
      fun _ _ hs => .status hs))
theorem MemOk.logKill {r : ErrRec} (hs : MemOk s) : MemOk (s.logKill r) := by
  unfold State.logKill
  dsimp only
  split
  exacts [of_ite (.log hs) (of_ite (.modCtx (.log hs)) (.kill (.log hs))), .log hs]
theorem MemOk.retire {core cls detail : Nat} (hs : MemOk s) : MemOk (s.retire core cls detail) :=
  .modCore (.foldl (.log (.foldl hs fun _ _ hs => .kill hs)) fun _ _ hs => .log hs)
theorem MemOk.enter {g warp : Nat} {traps : List (Nat × Trap)} {held : Bool} (hs : MemOk s) : MemOk (s.enter g warp traps held) := by
  unfold State.enter
  dsimp only
  split
  · exact hs
  · refine of_ite ?_ (MemOk.modG hs)
    split
    exacts [hs, .logKill hs]
theorem MemOk.holdTraps {g warp : Nat} {traps : List (Nat × Trap)} {pre front : Bool} (hs : MemOk s) :
    MemOk (s.holdTraps g warp traps pre front) := .modG hs
theorem MemOk.doubleFault {G : Group} {t : Nat} {x : Trap} (hs : MemOk s) : MemOk (s.doubleFault G t x) := .logKill hs
theorem MemOk.holdBehind {g warp : Nat} {G : Group} {traps : List (Nat × Trap)} {d : Delivery} (hs : MemOk s) :
    MemOk (s.holdBehind g warp G traps d) := of_ite (.holdTraps (.enter (.modG hs))) (.holdTraps (of_ite (.modG hs) hs))
theorem MemOk.deliverWarp {g warp : Nat} {traps : List (Nat × Trap)} (hs : MemOk s) : MemOk (s.deliverWarp g warp traps) := by
  unfold State.deliverWarp
  dsimp only
  split
  · exact hs
  · split
    · exact .doubleFault hs
    · refine of_ite (MemOk.modG hs) ?_
      split
      exacts [.enter (.modG hs), .holdBehind (.modG hs)]
theorem MemOk.deliver {traps : List (Nat × Nat × Trap)} (hs : MemOk s) : MemOk (s.deliver traps) := .foldl hs fun _ _ hs => .deliverWarp hs
theorem MemOk.deliverTo {g : Nat} {tids : List Nat} {t : Trap} (hs : MemOk s) : MemOk (s.deliverTo g tids t) := .deliver hs
theorem MemOk.nextDelivery {g warp : Nat} (hs : MemOk s) : MemOk (s.nextDelivery g warp) := by
  unfold State.nextDelivery
  dsimp only
  split
  · exact hs
  · refine of_ite hs ?_
    split
    exacts [hs, .enter (.modG hs)]
theorem MemOk.rte {g t : Nat} (hs : MemOk s) : MemOk (s.rte g t) := by
  unfold State.rte
  dsimp only
  split
  · exact hs
  · split
    · exact hs
    · refine MemOk.nextDelivery ?_
      split
      exacts [.modG hs, .holdTraps (.modT (.modG hs))]

end Sys2Proof.Machine
end

section
/-! SUPPORT. Canonical memory: the issue of an instruction, what each thread does of it, branches, and the end of threads and groups
(R277 to R314, R453). O60. -/

namespace Sys2Proof.Machine

variable {s : State} {α β : Type}

theorem MemOk.modLeads {rs : List Ref} {f : Ref → Group → Group} (hs : MemOk s) : MemOk (s.modLeads rs f) := .foldl hs fun _ _ hs => .modG hs
theorem MemOk.skipTo {g t len : Nat} (hs : MemOk s) : MemOk (s.skipTo g t len) := .modT hs
theorem MemOk.waitOn {g t : Nat} {c : Cond} (hs : MemOk s) : MemOk (s.waitOn g t c) := .same hs rfl
theorem MemOk.addAccs {r : Ref} {order : Nat} {l : List NewAcc} (hs : MemOk s) : MemOk (s.addAccs r order l) := by
  induction l generalizing s with
  | nil => exact hs
  | cons a l ih => exact ih (.same hs rfl)
theorem MemOk.complete {r : Ref} {len order vol : Nat} {res : TRes} (hs : MemOk s) : MemOk (s.complete r len order vol res) := .addAccs (.modG hs)
theorem MemOk.volAt {g vol : Nat} (hs : MemOk s) : MemOk (s.volAt g vol) := of_ite hs (.modG hs)
theorem memOk_applyOut {len order vol : Nat} {acc : State × List (Nat × Nat × Trap)} {e : Ref × TOut} (hs : FstOk acc) :
    FstOk (applyOut len order vol acc e) := by
  unfold applyOut
  dsimp only
  split
  · split
    · exact .waitOn hs
    · exact .complete hs
  · exact .volAt hs
  · split
    · exact hs
    · exact .modT hs
  · exact .waitOn (.volAt (.startPage hs))
  · exact .waitOn (.volAt hs)
  · exact .volAt hs
theorem MemOk.issueAll {op : Nat} {f : Full} {fn : State → List Ref → State × List (Ref × TOut)} (hs : MemOk s)
    (hfn : ∀ s rs, MemOk s → FstOk (fn s rs)) : NextOk (issueAll op f fn s) := by
  unfold Machine.issueAll
  split
  · exact hs.next
  · exact MemOk.finish (.deliver (.foldlFst (hfn _ _ (.foldl hs fun _ _ hs => .skipTo hs)) fun _ _ hs => memOk_applyOut hs))
theorem MemOk.issueEach {op : Nat} {f : Full} {plan : State → Ref → TOut} (hs : MemOk s) : NextOk (issueEach op f plan s) :=
  hs.issueAll fun _ _ hs => hs
theorem MemOk.issueTurn {op : Nat} {f : Full} {act : State → Ref → State × TOut} (hs : MemOk s) (ha : ∀ s r, MemOk s → FstOk (act s r)) :
    NextOk (issueTurn op f act s) :=
  MemOk.issueAll hs fun _ _ hs => .foldlFst hs fun _ _ hs => ha _ _ hs
theorem MemOk.faultPoint {act : State → Ref → State × TOut} {r : Ref} (hs : MemOk s) (ha : ∀ s r, MemOk s → FstOk (act s r)) :
    FstOk (faultPoint act s r) := by
  unfold Machine.faultPoint
  split
  · exact ha s r hs
  · exact hs
theorem MemOk.issuePair {op1 op2 : Nat} {f1 f2 : Full} {plan1 plan2 : State → List Ref → List (Ref × TOut)} (hs : MemOk s) :
    NextOk (issuePair op1 f1 plan1 op2 f2 plan2 s) := by
  unfold Machine.issuePair
  split
  · exact hs.next
  · exact MemOk.finish (.deliver (.foldlFst hs fun _ _ hs => memOk_applyOut hs))
theorem MemOk.actActsel {f : Full} {rs : List Ref} (hs : MemOk s) : FstOk (actActsel f s rs) := .pair (.modLeads hs)
theorem MemOk.actPlpack {f : Full} {rs : List Ref} (hs : MemOk s) : FstOk (actPlpack f s rs) := by
  unfold Machine.actPlpack
  dsimp only
  split
  exacts [.pair hs, of_ite (.pair hs) (.pair hs)]
theorem MemOk.execActsel {f : Full} (hs : MemOk s) : NextOk (execActsel f s) := MemOk.issueAll hs fun _ _ hs => .actActsel hs
theorem MemOk.execPlpack {f : Full} (hs : MemOk s) : NextOk (execPlpack f s) := MemOk.issueAll hs fun _ _ hs => .actPlpack hs
theorem MemOk.issueTile {op : Nat} {f : Full} {plan : State → List Ref → List (Ref × TOut)} (hs : MemOk s) : NextOk (issueTile op f plan s) :=
  MemOk.issueAll hs fun _ _ hs => .pair hs
theorem MemOk.actPart {f : Full} {rs : List Ref} (hs : MemOk s) : FstOk (actPart f s rs) := by
  unfold Machine.actPart
  split
  exacts [.pair hs, of_ite (.pair (.modG hs)) (.pair hs)]
theorem MemOk.actWrsr {f : Full} {r : Ref} (hs : MemOk s) : FstOk (actWrsr f s r) := by
  unfold Machine.actWrsr
  dsimp only
  refine .pair ?_
  split
  exacts [.modG hs, .modG hs, .modG hs, .modT hs, .modT hs, .modT hs, .modT hs]
theorem MemOk.execPart {f : Full} (hs : MemOk s) : NextOk (execPart f s) := MemOk.issueAll hs fun _ _ hs => .actPart hs
theorem MemOk.execWrsr {f : Full} (hs : MemOk s) : NextOk (execWrsr f s) := MemOk.issueTurn hs fun _ _ hs => .actWrsr hs
theorem MemOk.writeTrace {g : Nat} (hs : MemOk s) : MemOk (s.writeTrace g) := by
  unfold State.writeTrace
  dsimp only
  split
  · exact hs
  · split
    · exact hs
    · refine of_ite hs ?_
      split
      · split
        exacts [.modG (.startPage hs), .modG (.writeDev (MemOk.devRoom hs))]
      · exact of_ite (.modG (.modItem hs)) (.modG (.startPage hs))
      · exact .modG (.modItem hs)
theorem MemOk.endLeave {g : Nat} (hs : MemOk s) : MemOk (s.endLeave g) := .same hs rfl
theorem MemOk.groupExit {g : Nat} (hs : MemOk s) : MemOk (s.groupExit g) := .trimLines (.same (.writeTrace (.modG (.endLeave hs))) rfl)
theorem MemOk.leaveDeliveries {g t warp : Nat} (hs : MemOk s) : MemOk (s.leaveDeliveries g t warp) := .nextDelivery (.modG hs)
theorem MemOk.noteEnd {g warp : Nat} (hs : MemOk s) : MemOk (s.noteEnd g warp) := .modG hs
theorem MemOk.endThread {g t : Nat} (hs : MemOk s) : MemOk (s.endThread g t) := by
  unfold State.endThread
  dsimp only
  split
  · exact hs
  · split
    exacts [of_ite_over (.leaveDeliveries (.noteEnd (.modG hs))) fun hs => .groupExit hs, .leaveDeliveries (.noteEnd (.modG hs))]
theorem MemOk.reimage {g : Nat} (hs : MemOk s) : MemOk (s.reimage g) := by
  unfold State.reimage
  split
  · refine of_ite ?_ hs
    split
    exacts [.scribble hs, hs]
  · exact hs
theorem MemOk.actExit {x0 : Full} {r : Ref} (hs : MemOk s) : FstOk (actExit x0 s r) := of_ite (.pair (.endThread hs)) (.pair hs)
theorem MemOk.actSbra {f : Full} {rs : List Ref} (hs : MemOk s) : FstOk (actSbra f s rs) := by
  unfold Machine.actSbra
  dsimp only
  refine of_ite (.pair hs) ?_
  split
  · exact .pair hs
  · split
    exacts [.pair hs, .pair (.foldl hs fun _ _ hs => .noteEnd hs)]
theorem MemOk.actJoin {f : Full} {r : Ref} (hs : MemOk s) : FstOk (actJoin f s r) := of_ite (.pair hs) (.pair hs)
theorem MemOk.actYield {x0 : Full} {r : Ref} (hs : MemOk s) : FstOk (actYield x0 s r) := .pair (.modCore hs)
theorem MemOk.actWaitc {f : Full} {r : Ref} (hs : MemOk s) : FstOk (actWaitc f s r) := .pair hs
theorem MemOk.actWtany {f : Full} {r : Ref} (hs : MemOk s) : FstOk (actWtany f s r) := .pair hs
theorem MemOk.actWtall {f : Full} {r : Ref} (hs : MemOk s) : FstOk (actWtall f s r) := .pair hs
theorem MemOk.actFfrdy {f : Full} {r : Ref} (hs : MemOk s) : FstOk (actFfrdy f s r) := by
  unfold Machine.actFfrdy
  split <;> exact .pair hs
theorem MemOk.actFence {f : Full} {r : Ref} (hs : MemOk s) : FstOk (actFence f s r) := of_ite (.pair hs) (.pair hs)
theorem MemOk.execExit {f : Full} (hs : MemOk s) : NextOk (execExit f s) :=
  MemOk.issueTurn hs fun _ _ hs => .faultPoint hs fun _ _ hs => .actExit hs
theorem MemOk.execSbra {f : Full} (hs : MemOk s) : NextOk (execSbra f s) := MemOk.issueAll hs fun _ _ hs => .actSbra hs
theorem MemOk.execJoin {f : Full} (hs : MemOk s) : NextOk (execJoin f s) := MemOk.issueTurn hs fun _ _ hs => .actJoin hs
theorem MemOk.execYield {f : Full} (hs : MemOk s) : NextOk (execYield f s) := MemOk.issueTurn hs fun _ _ hs => .actYield hs
theorem MemOk.execWaitc {f : Full} (hs : MemOk s) : NextOk (execWaitc f s) :=
  MemOk.issueTurn hs fun _ _ hs => .faultPoint hs fun _ _ hs => .actWaitc hs
theorem MemOk.execWtany {f : Full} (hs : MemOk s) : NextOk (execWtany f s) :=
  MemOk.issueTurn hs fun _ _ hs => .faultPoint hs fun _ _ hs => .actWtany hs
theorem MemOk.execWtall {f : Full} (hs : MemOk s) : NextOk (execWtall f s) :=
  MemOk.issueTurn hs fun _ _ hs => .faultPoint hs fun _ _ hs => .actWtall hs
theorem MemOk.execFfrdy {f : Full} (hs : MemOk s) : NextOk (execFfrdy f s) :=
  MemOk.issueTurn hs fun _ _ hs => .faultPoint hs fun _ _ hs => .actFfrdy hs
theorem MemOk.execFence {f : Full} (hs : MemOk s) : NextOk (execFence f s) :=
  MemOk.issueTurn hs fun _ _ hs => .faultPoint hs fun _ _ hs => .actFence hs

end Sys2Proof.Machine
end

section
/-! SUPPORT. Canonical memory: barriers and rings, join counters, pages and schedules, tasks and system instructions (R101, R221, R315 to R326).
O60. -/

namespace Sys2Proof.Machine

variable {s : State} {α β : Type}

theorem MemOk.atBar {f : Full} {r : Ref} {act : Nat → Nat → State × TOut} (hs : MemOk s) (ha : ∀ g x, FstOk (act g x)) :
    FstOk (atBar f s r act) := by
  unfold Machine.atBar
  dsimp only
  split
  · exact hs
  · exact .meet (ha _ _)
theorem MemOk.actBinit {f : Full} {r : Ref} (hs : MemOk s) : FstOk (actBinit f s r) :=
  of_ite (.pair hs) (MemOk.atBar hs fun _ _ => of_ite (.pair hs) (.pair (.setBar hs)))
theorem MemOk.actBarr {f : Full} {r : Ref} (hs : MemOk s) : FstOk (actBarr f s r) :=
  MemOk.atBar hs fun _ _ => of_ite (.pair hs) (of_ite (.pair hs) (of_ite (.pair hs) (.pair (.setBar hs))))
theorem MemOk.actBwait {f : Full} {r : Ref} (hs : MemOk s) : FstOk (actBwait f s r) := MemOk.atBar hs fun _ _ => .pair hs
theorem MemOk.actBtx {out : Bool} {f : Full} {r : Ref} (hs : MemOk s) : FstOk (actBtx out f s r) :=
  MemOk.atBar hs fun _ _ => of_ite (.pair hs) (.pair (.setBar hs))
theorem MemOk.actBplw {f : Full} {r : Ref} (hs : MemOk s) : FstOk (actBplw f s r) :=
  of_ite (.pair hs) (MemOk.atBar hs fun _ _ => of_ite (.pair hs) (.pair hs))
theorem MemOk.setRing {g o : Nat} {k : Ring} (hs : MemOk s) : MemOk (s.setRing g o k) := .padWrite hs
theorem MemOk.atBlock {gang : Bool} {f : Full} {r : Ref} {act : Nat → Nat → State × TOut} (hs : MemOk s) (ha : ∀ g x, FstOk (act g x)) :
    FstOk (atBlock gang f s r act) := by
  unfold Machine.atBlock
  dsimp only
  split
  · exact hs
  · split
    · exact hs
    · exact .meet (ha _ _)
theorem MemOk.atRing {gang : Bool} {f : Full} {r : Ref} {act : Nat → Nat → Ring → State × TOut} (hs : MemOk s)
    (ha : ∀ g x k, FstOk (act g x k)) : FstOk (atRing gang f s r act) := by
  refine hs.atBlock fun g x => ?_
  dsimp only
  split
  · exact ha _ _ _
  · exact hs
theorem MemOk.actRinit {gang : Bool} {f : Full} {r : Ref} (hs : MemOk s) : FstOk (actRinit gang f s r) :=
  of_ite (.pair hs) (of_ite (.pair hs) (MemOk.atBlock hs fun _ _ => .pair (.setRing hs)))
theorem MemOk.actTake {gang consumer try_ : Bool} {f : Full} {r : Ref} (hs : MemOk s) : FstOk (actTake gang consumer try_ f s r) := by
  unfold Machine.actTake
  refine MemOk.atRing hs fun _ _ _ => ?_
  split
  exacts [.pair (.setRing hs), of_ite (.pair hs) (.pair (.setRing hs))]
theorem MemOk.actGive {gang commit : Bool} {f : Full} {r : Ref} (hs : MemOk s) : FstOk (actGive gang commit f s r) :=
  MemOk.atRing hs fun _ _ _ => of_ite (.pair hs) (.pair (.setRing hs))
theorem MemOk.unring {g t : Nat} (hs : MemOk s) : MemOk (s.unring g t) := by
  unfold State.unring
  dsimp only
  split
  · exact hs
  · split
    · split
      exacts [.modT hs, .setRing hs]
    · exact hs
theorem MemOk.execBinit {f : Full} (hs : MemOk s) : NextOk (execBinit f s) := MemOk.issueTurn hs fun _ _ hs => .actBinit hs
theorem MemOk.execBarr {f : Full} (hs : MemOk s) : NextOk (execBarr f s) := MemOk.issueTurn hs fun _ _ hs => .actBarr hs
theorem MemOk.execBwait {f : Full} (hs : MemOk s) : NextOk (execBwait f s) :=
  MemOk.issueTurn hs fun _ _ hs => .faultPoint hs fun _ _ hs => .actBwait hs
theorem MemOk.execBtxIn {f : Full} (hs : MemOk s) : NextOk (execBtxIn f s) := MemOk.issueTurn hs fun _ _ hs => .actBtx hs
theorem MemOk.execBtxOut {f : Full} (hs : MemOk s) : NextOk (execBtxOut f s) := MemOk.issueTurn hs fun _ _ hs => .actBtx hs
theorem MemOk.execBplw {f : Full} (hs : MemOk s) : NextOk (execBplw f s) :=
  MemOk.issueTurn hs fun _ _ hs => .faultPoint hs fun _ _ hs => .actBplw hs
theorem MemOk.execRinit {f : Full} (hs : MemOk s) : NextOk (execRinit f s) := MemOk.issueTurn hs fun _ _ hs => .actRinit hs
theorem MemOk.execAcqs {f : Full} (hs : MemOk s) : NextOk (execAcqs f s) := MemOk.issueTurn hs fun _ _ hs => .actTake hs
theorem MemOk.execAcqsTry {f : Full} (hs : MemOk s) : NextOk (execAcqsTry f s) := MemOk.issueTurn hs fun _ _ hs => .actTake hs
theorem MemOk.execComs {f : Full} (hs : MemOk s) : NextOk (execComs f s) := MemOk.issueTurn hs fun _ _ hs => .actGive hs
theorem MemOk.execPeeks {f : Full} (hs : MemOk s) : NextOk (execPeeks f s) := MemOk.issueTurn hs fun _ _ hs => .actTake hs
theorem MemOk.execPeeksTry {f : Full} (hs : MemOk s) : NextOk (execPeeksTry f s) := MemOk.issueTurn hs fun _ _ hs => .actTake hs
theorem MemOk.execRels {f : Full} (hs : MemOk s) : NextOk (execRels f s) := MemOk.issueTurn hs fun _ _ hs => .actGive hs
theorem MemOk.execRinitG {f : Full} (hs : MemOk s) : NextOk (execRinitG f s) := MemOk.issueTurn hs fun _ _ hs => .actRinit hs
theorem MemOk.execAcqsG {f : Full} (hs : MemOk s) : NextOk (execAcqsG f s) := MemOk.issueTurn hs fun _ _ hs => .actTake hs
theorem MemOk.execAcqsTryG {f : Full} (hs : MemOk s) : NextOk (execAcqsTryG f s) := MemOk.issueTurn hs fun _ _ hs => .actTake hs
theorem MemOk.execComsG {f : Full} (hs : MemOk s) : NextOk (execComsG f s) := MemOk.issueTurn hs fun _ _ hs => .actGive hs
theorem MemOk.execPeeksG {f : Full} (hs : MemOk s) : NextOk (execPeeksG f s) := MemOk.issueTurn hs fun _ _ hs => .actTake hs
theorem MemOk.execPeeksTryG {f : Full} (hs : MemOk s) : NextOk (execPeeksTryG f s) := MemOk.issueTurn hs fun _ _ hs => .actTake hs
theorem MemOk.execRelsG {f : Full} (hs : MemOk s) : NextOk (execRelsG f s) := MemOk.issueTurn hs fun _ _ hs => .actGive hs
theorem MemOk.poisonKill {ctx : Nat} {a : Addr} {sector : Nat} (hs : MemOk s) : MemOk (s.poisonKill ctx a sector) :=
  .foldl hs fun _ _ hs => .logKill hs
theorem MemOk.cpWrite {ctx : Nat} {a : Addr} {bs : List Byte} (hs : MemOk s) : SomeOk (s.cpWrite ctx a bs) := by
  unfold State.cpWrite
  split
  · split
    exacts [MemOk.some (.poisonKill hs), MemOk.some (.writeEvent (MemOk.devRoom hs))]
  · exact nofun
/-- A write of the command processor that is left out where the port refuses it. -/
theorem MemOk.put {ctx : Nat} {p : Addr} {bs : List Byte} (hs : MemOk s) : MemOk ((s.cpWrite ctx p bs).getD s) :=
  SomeOk.getD (MemOk.cpWrite hs) hs
theorem MemOk.setPool {ctx buf : Nat} {l : List Nat} (hs : MemOk s) : MemOk (s.setPool ctx buf l) := by
  unfold State.setPool
  dsimp only
  split
  exacts [.modCtx hs, .put (.modCtx hs)]
theorem MemOk.returnPages {id : Nat} (hs : MemOk s) : MemOk (s.returnPages id) := .foldl (.same hs rfl) fun _ _ hs => .setPool hs
theorem MemOk.joinAdd {ctx : Nat} {j : Addr} {d : ℤ} (hs : MemOk s) : FstOk (s.joinAdd ctx j d) := by
  unfold State.joinAdd
  dsimp only
  split
  · split
    exacts [.pair (.poisonKill hs), .pair (.writeEvent (MemOk.devRoom hs))]
  · exact .pair hs
theorem MemOk.pushHw {q : Nat} {w : Waiting} (hs : MemOk s) : MemOk (s.pushHw q w) := .same hs rfl
theorem MemOk.trimPlanes {ctx : Nat} {p : PhaseRead} (hs : MemOk s) : MemOk (s.trimPlanes ctx p) := .modPort hs
theorem MemOk.enterPhase {ctx phase : Nat} (hs : MemOk s) : MemOk (s.enterPhase ctx phase) := by
  unfold State.enterPhase
  split
  · exact hs
  · split
    exacts [.modCtx (.log hs), .modCtx (.trimPlanes hs)]
theorem MemOk.nextPhase {ctx : Nat} (hs : MemOk s) : MemOk (s.nextPhase ctx) := by
  unfold State.nextPhase
  split
  exacts [hs, of_ite hs (.enterPhase hs)]
theorem MemOk.schedWait {ctx buf pg : Nat} (hs : MemOk s) : MemOk (s.schedWait ctx buf pg) := .modCtx (.startPage hs)
theorem MemOk.runPhases {ctx n : Nat} (hs : MemOk s) : MemOk (State.runPhases ctx n s) := by
  induction n generalizing s with
  | zero => exact hs
  | succ n ih =>
    unfold State.runPhases
    split
    · exact hs
    · split
      · exact hs
      · split
        · exact hs
        · split
          · exact hs.schedWait
          · exact ih (.modCtx (.enterPhase hs))
theorem MemOk.askPhase {ctx : Nat} {a : Option Nat} (hs : MemOk s) : MemOk (s.askPhase ctx a) := .runPhases (.modCtx hs)
theorem MemOk.actItem {kind : ItemKind} {f : Full} {r : Ref} (hs : MemOk s) : FstOk (actItem kind f s r) := by
  unfold Machine.actItem
  dsimp only
  refine of_ite (.pair hs) (of_ite (.pair hs) ?_)
  split
  · exact .pair hs
  · split
    · exact .pair (.poisonKill hs)
    · refine of_ite (.pair (.pushHw hs)) ?_
      split
      exacts [.pair hs, .pair (.pushHw (MemOk.joinAdd hs))]
  · exact .pair (.pushHw hs)
theorem MemOk.actRelaunch {f : Full} {r : Ref} (hs : MemOk s) : FstOk (actRelaunch f s r) := by
  unfold Machine.actRelaunch
  dsimp only
  refine of_ite (.pair hs) (of_ite (.pair hs) ?_)
  split
  · exact .pair hs
  · split
    exacts [.pair (.poisonKill hs), .pair (.pushHw hs)]
  · exact .pair (.pushHw hs)
theorem MemOk.actTawait {f : Full} {r : Ref} (hs : MemOk s) : FstOk (actTawait f s r) := by
  unfold Machine.actTawait
  dsimp only
  refine of_ite (.pair hs) (of_ite (.pair hs) ?_)
  refine of_ite (.pair hs) ?_
  split
  · exact .pair hs
  · exact .pair hs
  · exact .pair hs
  · split
    · exact .pair (.poisonKill hs)
    · exact of_ite (.pair (.renew (.traceNote (.checkAll hs)))) (of_ite (.pair (.renew (.traceNote (.checkAll hs))))
        (.pair (.renew (.traceNote (.checkAll hs)))))
theorem MemOk.execLaunch {f : Full} (hs : MemOk s) : NextOk (execLaunch f s) := MemOk.issueTurn hs fun _ _ hs => .actItem hs
theorem MemOk.execRelaunch {f : Full} (hs : MemOk s) : NextOk (execRelaunch f s) := MemOk.issueTurn hs fun _ _ hs => .actRelaunch hs
theorem MemOk.execTspawn {f : Full} (hs : MemOk s) : NextOk (execTspawn f s) := MemOk.issueTurn hs fun _ _ hs => .actItem hs
theorem MemOk.execTawait {f : Full} (hs : MemOk s) : NextOk (execTawait f s) :=
  MemOk.issueTurn hs fun _ _ hs => .faultPoint hs fun _ _ hs => .actTawait hs
theorem MemOk.actRaise {t : Nat → Trap} {f : Full} {r : Ref} (hs : MemOk s) : FstOk (actRaise t f s r) := .pair (.modT hs)
theorem MemOk.actSethdl {f : Full} {rs : List Ref} (hs : MemOk s) : FstOk (actSethdl f s rs) := .pair (.modLeads hs)
theorem MemOk.actRte {x0 : Full} {r : Ref} (hs : MemOk s) : FstOk (actRte x0 s r) := of_ite (.pair hs) (of_ite (.pair hs) (.pair (.rte hs)))
theorem MemOk.actPreemptd {x0 : Full} {r : Ref} (hs : MemOk s) : FstOk (actPreemptd x0 s r) :=
  of_ite (.pair hs) (of_ite (.pair hs) (.pair (.modT hs)))
theorem MemOk.askLeave {g level : Nat} (hs : MemOk s) : MemOk (s.askLeave g level) := of_ite hs (.same hs rfl)
theorem MemOk.withLeave {level : Nat} {r : Ref} {act : State → State × TOut} (hs : MemOk s) (ha : ∀ s, MemOk s → FstOk (act s)) :
    FstOk (withLeave level s r act) := by
  unfold Machine.withLeave
  split
  · exact ha s hs
  · exact hs.askLeave
theorem MemOk.actLeave {f : Full} {r : Ref} (hs : MemOk s) : FstOk (actLeave f s r) := of_ite (.pair hs) (MemOk.withLeave hs fun _ hs => .pair hs)
theorem MemOk.actEndlv {x0 : Full} {r : Ref} (hs : MemOk s) : FstOk (actEndlv x0 s r) := .pair (.endLeave hs)
theorem MemOk.phaseTry {ctx : Nat} {c : Ctx} {ask : Option Nat} {go : State × TOut} (hs : MemOk s) (hgo : FstOk go) :
    FstOk (phaseTry s ctx c ask go) := by
  unfold Machine.phaseTry
  split
  · exact hs
  · split
    · exact hs.schedWait
    · exact .modCtx hgo
theorem MemOk.actEvph {x0 : Full} {r : Ref} (hs : MemOk s) : FstOk (actEvph x0 s r) := by
  unfold Machine.actEvph
  split
  exacts [.pair hs, of_ite (.pair hs) (MemOk.phaseTry hs (.pair (.nextPhase hs)))]
theorem MemOk.actEvphSet {f : Full} {r : Ref} (hs : MemOk s) : FstOk (actEvphSet f s r) := by
  unfold Machine.actEvphSet
  dsimp only
  split
  · exact .pair hs
  · refine of_ite (.pair hs) (MemOk.phaseTry hs ?_)
    · split
      exacts [.pair (.enterPhase hs), of_ite (.pair hs) (.pair (.enterPhase hs))]
theorem MemOk.execTrap {f : Full} (hs : MemOk s) : NextOk (execTrap f s) := MemOk.issueTurn hs fun _ _ hs => .actRaise hs
theorem MemOk.execSethdl {f : Full} (hs : MemOk s) : NextOk (execSethdl f s) := MemOk.issueAll hs fun _ _ hs => .actSethdl hs
theorem MemOk.execRte {f : Full} (hs : MemOk s) : NextOk (execRte f s) := MemOk.issueTurn hs fun _ _ hs => .actRte hs
theorem MemOk.execPreemptd {f : Full} (hs : MemOk s) : NextOk (execPreemptd f s) := MemOk.issueTurn hs fun _ _ hs => .actPreemptd hs
theorem MemOk.execBrkpt {f : Full} (hs : MemOk s) : NextOk (execBrkpt f s) := MemOk.issueTurn hs fun _ _ hs => .actRaise hs
theorem MemOk.execLeave {f : Full} (hs : MemOk s) : NextOk (execLeave f s) := MemOk.issueTurn hs fun _ _ hs => .actLeave hs
theorem MemOk.execEndlv {f : Full} (hs : MemOk s) : NextOk (execEndlv f s) := MemOk.issueTurn hs fun _ _ hs => .actEndlv hs
theorem MemOk.execEvph {f : Full} (hs : MemOk s) : NextOk (execEvph f s) := MemOk.issueTurn hs fun _ _ hs => .actEvph hs
theorem MemOk.execEvphSet {f : Full} (hs : MemOk s) : NextOk (execEvphSet f s) := MemOk.issueTurn hs fun _ _ hs => .actEvphSet hs

end Sys2Proof.Machine
end

section
/-! SUPPORT. Canonical memory: accesses at their issue, planar blocks, engine jobs and their units (R108 to R143, R328 to R352). O60. -/

namespace Sys2Proof.Machine

variable {s : State} {α β : Type}

theorem MemOk.actLpf {f : Full} {r : Ref} (hs : MemOk s) : FstOk (actLpf f s r) := by
  unfold Machine.actLpf
  dsimp only
  split
  exacts [.pair (of_ite_over (.modCore (of_ite (.readTouch hs) hs)) fun hs => .modPort hs), .pair hs]
theorem MemOk.actHitch {each : Bool} {f : Full} {rs : List Ref} (hs : MemOk s) : FstOk (actHitch each f s rs) := by
  unfold Machine.actHitch
  dsimp only
  split
  exacts [.pair hs, of_ite (.pair hs) (.pair hs)]
theorem MemOk.slotHeaders {g off : Nat} {x : Slot} (hs : MemOk s) : MemOk (s.slotHeaders g off x) := .foldl hs fun _ _ hs => .padWrite hs
theorem MemOk.setSlot {g off : Nat} {x : Slot} (hs : MemOk s) : MemOk (s.setSlot g off x) := .slotHeaders (.modG hs)
theorem MemOk.actUnhitch {f : Full} {r : Ref} (hs : MemOk s) : FstOk (actUnhitch f s r) := by
  unfold Machine.actUnhitch
  dsimp only
  split
  · exact .pair hs
  · split
    exacts [.pair hs, of_ite (.pair hs) (.pair (.trimLines (of_ite (.modG (.slotHeaders (.modG hs))) (.modG hs))))]
theorem MemOk.execHitch {f : Full} (hs : MemOk s) : NextOk (execHitch f s) := MemOk.issueAll hs fun _ _ hs => .actHitch hs
theorem MemOk.execHitchEach {f : Full} (hs : MemOk s) : NextOk (execHitchEach f s) := MemOk.issueAll hs fun _ _ hs => .actHitch hs
theorem MemOk.execUnhitch {f : Full} (hs : MemOk s) : NextOk (execUnhitch f s) := MemOk.issueTurn hs fun _ _ hs => .actUnhitch hs
theorem MemOk.execLpf {f : Full} (hs : MemOk s) : NextOk (execLpf f s) := MemOk.issueTurn hs fun _ _ hs => .actLpf hs
theorem MemOk.seeBlock {core ctx b : Nat} {ren : List Rename} {p : Pde} {want : Nat → List Nat} (hs : MemOk s) :
    DoneOk (s.seeBlock core ctx ren p b want) := by
  have home : DoneOk ((s.blockIn s.mem ctx ren p b want).map fun x =>
      ((((x.2.2.map (· / 128)).eraseDups).foldl (fun (s : State) l => s.renew core l) s, x.1, x.2.1) : State × Block × List Addr)) := by
    cases s.blockIn s.mem ctx ren p b want with
    | error e => exact nofun
    | ok x => exact MemOk.ok (.foldl hs fun _ _ hs => .renew hs)
  unfold State.seeBlock
  dsimp only
  split
  · split
    · exact MemOk.ok hs
    · exact home
  · exact home
theorem MemOk.planeFill {l1 : Bool} {ctx core h b d parts : Nat} (hs : MemOk s) : MemOk (s.planeFill l1 ctx core h b d parts) := .same hs rfl
theorem MemOk.blockFill {l1 : Bool} {ctx : Nat} {ren : List Rename} {core h b d : Nat} (hs : MemOk s) :
    MemOk (s.blockFill l1 ctx ren core h b d) := by
  unfold State.blockFill
  split
  · split
    exacts [.planeFill hs, hs]
  · exact hs
theorem MemOk.noteRanges {g ctx : Nat} {l : List (Addr × Nat × Nat)} (hs : MemOk s) : MemOk (s.noteRanges g ctx l) :=
  of_ite_over (.foldl (.foldl hs fun _ _ hs => .traceNote hs) fun _ _ hs => .traceNote hs) fun hs => .modG hs
theorem MemOk.enterJob {r : Ref} {q : JobReq} {scope : Nat} {bind : Bind} {engine : Option Nat} (hs : MemOk s) :
    MemOk (s.enterJob r q scope bind engine) := by
  unfold State.enterJob
  dsimp only
  refine MemOk.noteRanges ?_
  split
  exacts [.modG (.same (.fresh hs) rfl), .setBar (.same (.fresh hs) rfl)]
theorem MemOk.startJob {req : Full →
  State → Ref → Except TOut JobReq} {f : Full} {r : Ref} (hs : MemOk s) : FstOk (startJob req f s r) := by
  unfold Machine.startJob
  dsimp only
  split
  · exact .pair hs
  · refine of_ite (.pair hs) ?_
    split
    · exact .pair hs
    · exact of_ite (.pair hs) (of_ite (.pair hs) (MemOk.withLeave hs fun _ hs => of_ite (.pair hs)
        (of_ite (of_ite (.pair hs) (.pair hs)) (.pair (.enterJob hs)))))
theorem MemOk.actLease {f : Full} {r : Ref} (hs : MemOk s) : FstOk (actLease f s r) := by
  unfold Machine.actLease
  dsimp only
  refine of_ite (.pair hs) (of_ite (.pair hs) ?_)
  split
  exacts [.pair hs, .pair (.modG (.fresh hs))]
theorem MemOk.actLeaseQ {f : Full} {r : Ref} (hs : MemOk s) : FstOk (actLeaseQ f s r) := by
  unfold Machine.actLeaseQ
  split
  · exact .pair hs
  · split <;> exact .pair hs
theorem MemOk.actUnlease {f : Full} {r : Ref} (hs : MemOk s) : FstOk (actUnlease f s r) := by
  unfold Machine.actUnlease
  split
  exacts [.pair hs, .pair (.modG hs)]
theorem MemOk.landLine {g id line : Nat} (hs : MemOk s) : MemOk (s.landLine g id line) := by
  unfold State.landLine
  dsimp only
  split
  exacts [hs, of_ite hs (.modG hs)]
theorem MemOk.askImage {lo : Ref} {rs : List Ref} {tw : Option Nat} {a : Addr} {pad : Option Nat} {parts : List (Nat × Nat)} (hs : MemOk s) :
    FstOk (s.askImage lo rs tw a pad parts) := of_ite (.pair hs) (.pair (.foldl (.modT (.same hs rfl)) fun _ _ hs => .modT hs))
theorem MemOk.actNmc {f : Full} {r : Ref} (hs : MemOk s) : FstOk (actNmc f s r) := by
  unfold Machine.actNmc
  dsimp only
  refine of_ite (.pair hs) (MemOk.withLeave hs fun _ hs => ?_)
  refine of_ite (.pair hs) ?_
  split
  · split
    exacts [.pair hs, .pair hs, .pair hs, MemOk.askImage hs]
  · exact of_ite (of_ite (.pair hs) (of_ite (.pair hs) (.pair (.enterJob hs)))) (of_ite (.pair hs) (.pair (.enterJob hs)))
/-- What a unit's event leaves has its memory in canonical form. -/
def UnitOk : UnitRes → Prop
  | .ok t | .partly t | .poisoned t | .stalled t => MemOk t
  | _ => True
/-- A part of a unit's event: what it gives when it passes, or the unit's end. -/
def PartOk {α : Type} (P : α → Prop) : Except UnitRes α → Prop
  | .ok x => P x
  | .error e => UnitOk e
/-- Bytes and values that a unit reads carry no state. -/
def ReadOk {α : Type} (x : Except UnitRes α) : Prop := PartOk (fun _ => True) x
/-- A part of a unit's event that goes on in another state, with its job. -/
def StepOk {α : Type} (x : Except UnitRes (State × α)) : Prop := PartOk (fun p => MemOk p.1) x
theorem StepOk.of_eq {x : Except UnitRes (State × α)} {t : State} {v : α} (e : x = .ok (t, v)) (hx : StepOk x) : MemOk t := by
  subst e
  exact hx
theorem ReadOk.map {x : Except UnitRes α} {f : α → State × β} (hx : ReadOk x) (hf : ∀ v, MemOk (f v).1) : StepOk (x.map f) := by
  cases x with
  | error e => exact hx
  | ok v => exact hf v
theorem UnitOk.of_read {x : Except UnitRes α} {e : UnitRes} (h : x = .error e) (hx : ReadOk x) : UnitOk e := by
  subst h
  exact hx
theorem UnitOk.of_step {x : Except UnitRes (State × α)} {e : UnitRes} (h : x = .error e) (hx : StepOk x) : UnitOk e := by
  subst h
  exact hx
theorem MemOk.unitRead {j : Job} {p : Place} {i n : Nat} (hs : MemOk s) : ReadOk (s.unitRead j p i n) := by
  unfold State.unitRead
  split
  · trivial
  · dsimp only
    split
    · trivial
    · trivial
    · trivial
    · split
      · exact MemOk.poisonKill hs
      · trivial
theorem MemOk.jobWrite {j : Job} {a : Addr} {ps : List Nat} {bs : List Byte} (hs : MemOk s) : UnitOk (s.jobWrite j a ps bs) := by
  unfold State.jobWrite
  split
  · trivial
  · split
    · exact MemOk.poisonKill hs
    · trivial
    · dsimp only
      split
      · exact MemOk.writeDev (FstOk.mem (.devRoom hs))
      · exact FstOk.mem (.devRoom hs)
theorem MemOk.unitWrite {j : Job} {p : Place} {i : Nat} {bs : List Byte} (hs : MemOk s) : UnitOk (s.unitWrite j p i bs) := by
  unfold State.unitWrite
  split
  · exact MemOk.tell (.padWrite hs)
  · dsimp only
    split
    · trivial
    · trivial
    · trivial
    · exact MemOk.jobWrite hs
theorem MemOk.unit {e : PlFail} {j : Job} (hs : MemOk s) : UnitOk (e.unit s j) := by
  cases e with
  | poison x a => exact MemOk.poisonKill hs
  | _ => trivial
theorem MemOk.snapBlock {j : Job} {k b d i : Nat} (hs : MemOk s) : StepOk (s.snapBlock j k b d i) := by
  refine of_ite hs ?_
  split
  · exact hs.unit
  · split
    · exact hs.unit
    · exact MemOk.foldl (.planeFill (.modJob hs)) fun _ _ hs => .traceNote hs
/-- Each block of an inbound plane copy is read in its turn; a block that fails keeps the state, or its kills. -/
theorem MemOk.landPin {j : Job} {off h blk n k m u : Nat} (hs : MemOk s) : UnitOk (s.landPin j off h blk n k m u) := by
  unfold State.landPin
  dsimp only
  refine of_ite trivial ?_
  generalize hx : List.foldl _ (Except.ok (s, j)) _ = x
  have hok : StepOk x := by
    subst hx
    refine List.foldlRecOn _ _ hs fun acc hacc i _ => ?_
    split
    · exact hacc
    · refine of_ite hacc ?_
      split
      · next he => exact StepOk.of_eq he (MemOk.snapBlock hacc)
      · exact of_ite (P := StepOk) (MemOk.modJob hacc) trivial
      · exact MemOk.modJob hacc
      · next he => exact MemOk.modJob (UnitOk.of_step he (MemOk.snapBlock hacc))
      · next he => exact UnitOk.of_step he (MemOk.snapBlock hacc)
  cases x with
  | error e => exact hok
  | ok p =>
    exact of_ite (P := UnitOk) (MemOk.foldl (.tell hok) fun _ _ hs => of_ite hs (.padWrite hs))
      (MemOk.foldl (.tell hok) fun _ _ hs => of_ite hs (.padWrite hs))
theorem MemOk.planarPut {j : Job} {k b : Nat} {as : List Addr} {cells : List (Nat × Byte)} (hs : MemOk s) :
    UnitOk (s.planarPut j k b as cells) := by
  refine of_ite trivial ?_
  split
  · trivial
  · refine of_ite (P := UnitOk) (FstOk.mem (.devRoom hs)) (MemOk.planeFill (MemOk.foldl (.writeEvent (FstOk.mem (.devRoom hs))) fun t a ht =>
      .traceNote ?_))
    split
    · exact .stampRange ht
    · exact ht
theorem MemOk.landPout {j : Job} {off k blk n m u : Nat} (hs : MemOk s) : UnitOk (s.landPout j off k blk n m u) := by
  unfold State.landPout
  split
  · exact hs.unit
  · dsimp only
    split
    · exact hs.unit
    · exact hs.planarPut

end Sys2Proof.Machine
end

section
/-! SUPPORT. Canonical memory: a unit of a job lands (R105, R107, R143, R344, R349, R479), and what an engine instruction starts. O60. -/

namespace Sys2Proof.Machine

variable {s : State} {α β : Type}

theorem MemOk.landCopy {j : Job} {d p : Place} {n u : Nat} {ans : Option PeerAnswer} (hs : MemOk s) : UnitOk (s.landCopy j d p n u ans) := by
  have hw {bs : List Byte} {c : Prop} [Decidable c] : UnitOk (if c then s.unitWrite j d u bs else .ok s) := of_ite hs.unitWrite hs
  unfold State.landCopy
  refine of_ite ?_ ?_
  · split
    · next he => exact UnitOk.of_read he hs.unitRead
    · exact hw
  · split
    · next he =>
      split at he
      · split at he
        · next hr =>
          cases he
          exact UnitOk.of_read hr hs.unitRead
        · cases he
      · cases he
    · trivial
    · trivial
    · trivial
    · exact of_ite (P := UnitOk) trivial (of_ite (P := UnitOk) trivial hw)
theorem MemOk.landCopyLs {j : Job} {p : Addr} {u : Nat} (hs : MemOk s) : UnitOk (s.landCopyLs j p u) := by
  unfold State.landCopyLs
  dsimp only
  split
  · trivial
  · trivial
  · trivial
  · split
    · exact MemOk.poisonKill hs
    · exact of_ite (P := UnitOk) hs (MemOk.landLine hs)
theorem MemOk.landPls {j : Job} {h blk n u : Nat} (hs : MemOk s) : UnitOk (s.landPls j h blk n u) := by
  unfold State.landPls
  refine of_ite (P := UnitOk) trivial ?_
  dsimp only
  split
  · exact hs.unit
  · split
    · exact hs.unit
    · refine of_ite (P := UnitOk) hs ?_
      split
      · exact hs.unit
      · exact MemOk.same (.landLine hs) rfl
theorem MemOk.readElem {j : Job} {l : Layout} {c : List Nat} (hs : MemOk s) : ReadOk (s.readElem j l c) := by
  unfold State.readElem
  split
  · next he => exact UnitOk.of_read he hs.unitRead
  · trivial
theorem MemOk.rowIndex {j : Job} {l : Layout} {row : Nat} (hs : MemOk s) : StepOk (s.rowIndex j l row) := by
  refine of_ite hs ?_
  split
  · next he => exact UnitOk.of_read he hs.readElem
  · exact MemOk.modJob hs
theorem MemOk.txElem {j : Job} {code e : Nat} (hs : MemOk s) : StepOk (s.txElem j code e) := by
  have plain {t : State} {j j' : Job} {l : Layout} {c : List Nat} {f : Nat → Nat} (ht : MemOk t) :
      StepOk ((t.readElem j l c).map fun v => (t, j', f v)) := ReadOk.map ht.readElem fun _ => ht
  unfold State.txElem
  split
  · refine of_ite ?_ (of_ite (plain hs) (of_ite (plain hs) ?_))
    · split
      · next he => exact UnitOk.of_step he hs.snapBlock
      · next he => exact StepOk.of_eq he hs.snapBlock
    · split
      · trivial
      · dsimp only
        split
        · next he => exact UnitOk.of_step he hs.rowIndex
        · next he => exact of_ite (P := StepOk) trivial (plain (StepOk.of_eq he hs.rowIndex))
  · trivial
theorem MemOk.landPack {j : Job} {u : Nat} (hs : MemOk s) : UnitOk (s.landPack j u) := by
  unfold State.landPack
  split
  · dsimp only
    generalize hx : List.foldl _ (Except.ok []) _ = x
    have hok : ReadOk x := by
      subst hx
      refine List.foldlRecOn _ _ trivial fun acc hacc i _ => ?_
      split
      · exact hacc
      · generalize hr : s.readElem j _ _ = r
        have hr : ReadOk r := hr ▸ hs.readElem
        cases r with
        | error e => exact hr
        | ok v => trivial
    cases x with
    | error e => exact hok
    | ok xs =>
      dsimp only
      split
      · exact hs.unit
      · split
        · exact hs.unit
        · exact hs.planarPut
  · trivial
theorem MemOk.landDense {j : Job} {code u : Nat} (hs : MemOk s) : UnitOk (s.landDense j code u) := by
  unfold State.landDense
  split
  · dsimp only
    generalize hx : List.foldl _ (Except.ok (s, j, _)) _ = x
    have hok : StepOk x := by
      subst hx
      refine List.foldlRecOn _ _ hs fun acc hacc i _ => ?_
      split
      · exact hacc
      · split
        · next he => exact StepOk.of_eq he (MemOk.txElem hacc)
        · exact MemOk.modJob hacc
        · next he => exact UnitOk.of_step he (MemOk.txElem hacc)
        · exact of_ite (P := StepOk) (MemOk.modJob hacc) trivial
        · next he => exact UnitOk.of_step he (MemOk.txElem hacc)
    cases x with
    | error e => exact hok
    | ok p =>
      obtain ⟨t, j, l, bad⟩ := p
      have ht : MemOk t := hok
      have hbad {t : State} (ht : MemOk t) : UnitOk (if bad then .partly t else .ok t) := of_ite (P := UnitOk) ht ht
      dsimp only
      split
      · trivial
      · trivial
      · trivial
      · refine of_ite (hbad ht) (of_ite (P := UnitOk) trivial ?_)
        split
        · exact MemOk.poisonKill ht
        · trivial
        · refine of_ite (P := UnitOk) (FstOk.mem (.devRoom ht)) (hbad ?_)
          split
          · exact .stampRange (.writeEvent (FstOk.mem (.devRoom ht)))
          · exact .writeEvent (FstOk.mem (.devRoom ht))
  · trivial
theorem MemOk.nmcBegin {j : Job} {v stop : Nat} (hs : MemOk s) : StepOk (s.nmcBegin j v stop) := by
  unfold State.nmcBegin
  split
  · have hr {c : Prop} [Decidable c] {p : Place} {n : Nat} : ReadOk (if c then s.unitRead j p 0 n else .ok []) := of_ite hs.unitRead trivial
    dsimp only
    split
    · exact MemOk.modJob (.dropCopiesOf hs)
    · next he => exact UnitOk.of_read he hr
    · next he _ => exact UnitOk.of_read he hr
    · next he _ _ => exact UnitOk.of_read he hr
  · trivial
theorem MemOk.landNmc {j : Job} {u : Nat} (hs : MemOk s) : UnitOk (s.landNmc j u) := by
  have hb : StepOk (if s.nmcBegun j u then .ok (s, j) else s.nmcBegin j (s.nmcUnit j u).1 (s.nmcUnit j u).2) := of_ite hs hs.nmcBegin
  unfold State.landNmc
  dsimp only
  split
  · next he => exact UnitOk.of_step he hb
  · next he => exact MemOk.unitWrite (StepOk.of_eq he hb)
theorem MemOk.nmcPush {j : Job} (hs : MemOk s) : MemOk (s.nmcPush j) := by
  unfold State.nmcPush
  dsimp only
  split
  exacts [of_ite hs (.foldl hs fun _ _ hs => .pushLine hs), hs]
theorem MemOk.unitRes {j : Job} {u : Nat} {ans : Option PeerAnswer} (hs : MemOk s) : UnitOk (s.unitRes j u ans) := by
  unfold State.unitRes
  split
  · exact hs.landCopy
  · exact hs.landCopyLs
  · exact hs.landPin
  · exact hs.landPout
  · exact hs.landPls
  · exact of_ite hs.landPack hs.landDense
  · exact hs.landNmc
theorem MemOk.barTake {j : Job} {cin cout : Nat} {wm : Option Nat} (hs : MemOk s) : MemOk (s.barTake j cin cout wm) := by
  unfold State.barTake
  dsimp only
  split
  exacts [hs, of_ite hs (.tell (.setBar hs))]
theorem MemOk.unitDone {jid u : Nat} (hs : MemOk s) : MemOk (s.unitDone jid u) := by
  unfold State.unitDone
  dsimp only
  split
  exacts [hs, of_ite (.modJob hs) (.barTake (.modJob hs))]
theorem MemOk.unitFail {jid u reason under addr : Nat} (hs : MemOk s) : MemOk (s.unitFail jid u reason under addr) := .modJob hs
theorem MemOk.landUnit {jid u : Nat} {ans : Option PeerAnswer} (hs : MemOk s) : MemOk (s.landUnit jid u ans) := by
  unfold State.landUnit
  split
  · exact hs
  · next j _ =>
    refine of_ite hs ?_
    have hu := hs.unitRes (j := j) (u := u) (ans := ans)
    split
    · next he => exact .unitDone (he ▸ hu : UnitOk (.ok _))
    · next he => exact .unitFail (he ▸ hu : UnitOk (.partly _))
    · exact .unitFail hs
    · next he => exact .unitFail (he ▸ hu : UnitOk (.poisoned _))
    · exact hs
    · next he => exact (he ▸ hu : UnitOk (.stalled _))
    · exact .modJob hs
    · exact of_ite (.unitFail hs) (.modJob (.startPage hs))
theorem MemOk.holdFault {ctx g t : Nat} {h : HeldFault} (hs : MemOk s) : MemOk (s.holdFault ctx g t h) := by
  unfold State.holdFault
  dsimp only
  split
  exacts [of_ite (.modT hs) (of_ite (.modG hs) (.log hs)), .log hs]
theorem MemOk.clearEdges {id : Nat} (hs : MemOk s) : MemOk (s.clearEdges id) := .same hs rfl
theorem MemOk.jobTaken {jid : Nat} (hs : MemOk s) :
    MemOk ((State.clearEdges { s with jobs := s.jobs.filter (·.id != jid) } jid).returnPages jid) := .returnPages (.clearEdges (.same hs rfl))
theorem MemOk.completeJob {jid : Nat} (hs : MemOk s) : MemOk (s.completeJob jid) := by
  unfold State.completeJob
  split
  · exact hs
  · next j _ =>
    refine of_ite hs ?_
    have ht := hs.nmcPush (j := j) |>.tell (g := j.grp) |>.barTake (j := j) (cin := j.owedIn) (cout := j.owedOut) (wm := j.owedMark)
    dsimp only
    split
    · split
      · exact .jobTaken (.holdFault (.modG ht))
      · exact .jobTaken (.holdFault ht)
    · split
      · exact .jobTaken (.modG ht)
      · exact .jobTaken ht
theorem MemOk.execCopy {f : Full} (hs : MemOk s) : NextOk (execCopy f s) := MemOk.issueTurn hs fun _ _ hs => .startJob hs
theorem MemOk.execCopyIn {f : Full} (hs : MemOk s) : NextOk (execCopyIn f s) := MemOk.issueTurn hs fun _ _ hs => .startJob hs
theorem MemOk.execCopyOut {f : Full} (hs : MemOk s) : NextOk (execCopyOut f s) := MemOk.issueTurn hs fun _ _ hs => .startJob hs
theorem MemOk.execCopySs {f : Full} (hs : MemOk s) : NextOk (execCopySs f s) := MemOk.issueTurn hs fun _ _ hs => .startJob hs
theorem MemOk.execCopyLs {f : Full} (hs : MemOk s) : NextOk (execCopyLs f s) := MemOk.issueTurn hs fun _ _ hs => .startJob hs
theorem MemOk.execPcopyIn {f : Full} (hs : MemOk s) : NextOk (execPcopyIn f s) := MemOk.issueTurn hs fun _ _ hs => .startJob hs
theorem MemOk.execPcopyOut {f : Full} (hs : MemOk s) : NextOk (execPcopyOut f s) := MemOk.issueTurn hs fun _ _ hs => .startJob hs
theorem MemOk.execPcopyLs {f : Full} (hs : MemOk s) : NextOk (execPcopyLs f s) := MemOk.issueTurn hs fun _ _ hs => .startJob hs
theorem MemOk.execTxfm {f : Full} (hs : MemOk s) : NextOk (execTxfm f s) := MemOk.issueTurn hs fun _ _ hs => .startJob hs
theorem MemOk.execLease {f : Full} (hs : MemOk s) : NextOk (execLease f s) := MemOk.issueTurn hs fun _ _ hs => .actLease hs
theorem MemOk.execLeaseQ {f : Full} (hs : MemOk s) : NextOk (execLeaseQ f s) := MemOk.issueTurn hs fun _ _ hs => .actLeaseQ hs
theorem MemOk.execUnlease {f : Full} (hs : MemOk s) : NextOk (execUnlease f s) := MemOk.issueTurn hs fun _ _ hs => .actUnlease hs
theorem MemOk.execNmc {f : Full} (hs : MemOk s) : NextOk (execNmc f s) := MemOk.issueTurn hs fun _ _ hs => .actNmc hs

end Sys2Proof.Machine
end

section
/-! SUPPORT. Canonical memory: Twill programs, tiles and the matrix engine (R354 to R395). O60. -/

namespace Sys2Proof.Machine

variable {s : State} {α β : Type}

theorem MemOk.setTw {g c : Nat} {x : TwCtx} (hs : MemOk s) : MemOk (s.setTw g c x) := .modG hs
theorem MemOk.emptyTw {g c : Nat} (hs : MemOk s) : MemOk (s.emptyTw g c) := .modG hs
theorem MemOk.twStep {act : Ref → State → List Ref → State × (Nat → Ref → TOut)} {rs : List Ref} (hs : MemOk s)
    (ha : ∀ r s rs, MemOk s → FstOk (act r s rs)) : FstOk (twStep act s rs) := by
  unfold Machine.twStep
  split
  · exact hs
  · split
    · exact hs
    · exact ha _ _ _ hs
theorem MemOk.allOut {o : TOut} (hs : MemOk s) : FstOk (allOut s o) := .pair hs
theorem MemOk.twAsk {lo : Ref} {rs : List Ref} {n : Nat} {a : Addr} {pad : Option Nat} {parts : List (Nat × Nat)} (hs : MemOk s) :
    FstOk (twAsk s lo rs n a pad parts) := by
  unfold Machine.twAsk
  dsimp only
  split
  · exact hs
  · exact hs.askImage
theorem MemOk.enterTw {g n : Nat} {c : TwCtx} {reason10 : Bool} {word : Nat → Nat} (hs : MemOk s) : FstOk (s.enterTw g n c reason10 word) := by
  unfold State.enterTw
  dsimp only
  split
  exacts [.pair (.emptyTw hs), .pair (.emptyTw hs), .pair (.setTw hs)]
theorem MemOk.actTwld {f : Full} {lo : Ref} {rs : List Ref} (hs : MemOk s) : FstOk (actTwld f lo s rs) := by
  unfold Machine.actTwld
  dsimp only
  split
  · exact MemOk.allOut hs
  · exact of_ite (MemOk.allOut hs) (of_ite (MemOk.twAsk hs) (of_ite (MemOk.allOut (.emptyTw hs))
      (of_ite (MemOk.twAsk hs) (MemOk.allOut (of_ite (.modG (MemOk.enterTw hs)) (MemOk.enterTw hs))))))
theorem MemOk.twStart {lo : Ref} {c : TwCtx} {r : Nat} (hs : MemOk s) : DoneOk (twStart s lo c r) := by
  unfold Machine.twStart
  dsimp only
  refine of_ite (MemOk.ok (.pair hs)) ?_
  split
  exacts [doneOk_error, MemOk.ok (.pair (.traceNote (.checkAll hs)))]
theorem MemOk.twEntries {lo : Ref} {c : TwCtx} {dirCol : Bool} {line : Nat} (hs : MemOk s) : DoneOk (twEntries s lo c dirCol line) := by
  refine List.foldlRecOn _ _ (MemOk.ok (.pair hs)) fun acc hacc e _ => ?_
  split
  · exact nofun
  · split
    · exact nofun
    · next ht => exact MemOk.ok (.pair (DoneOk.of_eq ht (MemOk.twStart (hacc _ rfl))))
theorem MemOk.twDeliver {f : Full} {lo : Ref} {rs : List Ref} {c : TwCtx} (hs : MemOk s) : FstOk (twDeliver f lo s rs c) :=
  of_ite (MemOk.twAsk hs) (of_ite (MemOk.allOut hs) (of_ite (MemOk.allOut hs) (.pair (.setTw hs))))
theorem MemOk.actTwline {col : Bool} {f : Full} {lo : Ref} {rs : List Ref} (hs : MemOk s) : FstOk (actTwline col f lo s rs) := by
  unfold Machine.actTwline
  dsimp only
  split
  · exact MemOk.allOut hs
  · exact MemOk.allOut hs
  · refine of_ite (MemOk.allOut hs) ?_
    split
    exacts [MemOk.allOut hs, MemOk.twDeliver hs]
theorem MemOk.actTwnext {f : Full} {lo : Ref} {rs : List Ref} (hs : MemOk s) : FstOk (actTwnext f lo s rs) := by
  unfold Machine.actTwnext
  split
  exacts [MemOk.allOut hs, MemOk.allOut hs, of_ite (MemOk.allOut hs) (MemOk.twDeliver hs)]
theorem MemOk.actTwsave {f : Full} {lo : Ref} {rs : List Ref} (hs : MemOk s) : FstOk (actTwsave f lo s rs) := by
  unfold Machine.actTwsave
  dsimp only
  split
  exacts [MemOk.allOut hs, of_ite (MemOk.allOut hs) (of_ite (MemOk.allOut hs) (.pair hs))]
theorem MemOk.actTwrest {f : Full} {lo : Ref} {rs : List Ref} (hs : MemOk s) : FstOk (actTwrest f lo s rs) := by
  unfold Machine.actTwrest
  dsimp only
  split
  · exact MemOk.allOut hs
  · exact of_ite (MemOk.allOut hs) (of_ite (MemOk.twAsk hs) (of_ite (MemOk.allOut (.emptyTw hs))
      (of_ite (MemOk.twAsk hs) (MemOk.allOut (MemOk.enterTw hs)))))
theorem MemOk.execTwld {f : Full} (hs : MemOk s) : NextOk (execTwld f s) := MemOk.issueAll hs fun _ _ hs => .twStep hs fun _ _ _ hs => .actTwld hs
theorem MemOk.execTwrow {f : Full} (hs : MemOk s) : NextOk (execTwrow f s) :=
  MemOk.issueAll hs fun _ _ hs => .twStep hs fun _ _ _ hs => .actTwline hs
theorem MemOk.execTwcol {f : Full} (hs : MemOk s) : NextOk (execTwcol f s) :=
  MemOk.issueAll hs fun _ _ hs => .twStep hs fun _ _ _ hs => .actTwline hs
theorem MemOk.execTwnext {f : Full} (hs : MemOk s) : NextOk (execTwnext f s) :=
  MemOk.issueAll hs fun _ _ hs => .twStep hs fun _ _ _ hs => .actTwnext hs
theorem MemOk.execTwsave {f : Full} (hs : MemOk s) : NextOk (execTwsave f s) :=
  MemOk.issueAll hs fun _ _ hs => .twStep hs fun _ _ _ hs => .actTwsave hs
theorem MemOk.execTwrest {f : Full} (hs : MemOk s) : NextOk (execTwrest f s) :=
  MemOk.issueAll hs fun _ _ hs => .twStep hs fun _ _ _ hs => .actTwrest hs
theorem MemOk.putSums {g a : Nat} {isInt sat : Bool} {sums : Sparse Sum} (hs : MemOk s) : MemOk (s.putSums g a isInt sat sums) :=
  of_ite (.modG hs) (.same hs rfl)
theorem MemOk.matStep {use : MUse} {pre : State → Ref → Option TOut} {act : State → Ref → List Ref → State × TOut}
    {rs : List Ref} (hs : MemOk s) (ha : ∀ s r rs, MemOk s → FstOk (act s r rs)) : FstOk (matStep use pre act s rs) := by
  unfold Machine.matStep
  split
  · exact hs
  · dsimp only
    split
    · exact hs
    · split
      · exact hs
      · split
        · exact hs
        · split
          · exact hs
          · exact ha _ _ _ hs
theorem MemOk.startTileOp {o : TileOp} {lo : Ref} {rs : List Ref} (hs : MemOk s) : FstOk (startTileOp o s lo rs) :=
  of_ite (.pair hs) (.pair (.foldl (.modG (.same hs rfl)) fun _ _ hs => .modT hs))
theorem MemOk.actTile {isAcc load pad trans : Bool} {f : Full} {rs : List Ref} (hs : MemOk s) : FstOk (actTile isAcc load pad trans f s rs) :=
  MemOk.matStep hs fun _ _ _ hs => .startTileOp hs
theorem MemOk.actTldPl {f : Full} {rs : List Ref} (hs : MemOk s) : FstOk (actTldPl f s rs) := MemOk.matStep hs fun _ _ _ hs => .startTileOp hs
theorem MemOk.tileOver {g : Nat} {o : TileOp} {t : Option Trap} (hs : MemOk s) : MemOk (s.tileOver g o t) := by
  unfold State.tileOver
  dsimp only
  refine MemOk.foldl (MemOk.modG hs) fun _ _ hs => ?_
  split
  exacts [.holdFault (.modT hs), .modT hs]
theorem MemOk.modTile {g id : Nat} {f : TileOp → TileOp} (hs : MemOk s) : MemOk (s.modTile g id f) := .modG hs
theorem MemOk.tileFail {g : Nat} {G : Group} {o : TileOp} {e : MFail} (hs : MemOk s) : MemOk (s.tileFail g G o e) := by
  unfold State.tileFail
  split
  exacts [.tileOver hs, .poisonKill hs, .modTile (.startPage hs)]
theorem MemOk.tileUnit {g : Nat} {G : Group} {o : TileOp} {u : Nat} (hs : MemOk s) : MemOk (s.tileUnit g G o u) := by
  unfold State.tileUnit
  dsimp only
  split
  · exact hs
  · split
    · split
      exacts [hs, .modTile (.blockFill (.foldl hs fun _ _ hs => .traceNote hs))]
    · refine of_ite (of_ite (.modTile (.tell hs)) (.modTile (.tell (.padWrite hs)))) ?_
      split
      · exact hs
      · exact of_ite (.modTile (.tell (.traceNote (.checkAll hs)))) (of_ite hs (of_ite (.modTile (.tell (.traceNote (.writeDev
          (MemOk.devRoom hs))))) (MemOk.devRoom hs)))
theorem MemOk.tileLand {g id : Nat} {pick : Nat → Bool} (hs : MemOk s) : MemOk (s.tileLand g id pick) := by
  unfold State.tileLand
  dsimp only
  split
  · exact hs
  · split
    · exact hs
    · refine of_ite hs ?_
      split
      · exact .tileFail hs
      · exact .modTile (.startPage hs)
      · split
        · exact .foldl hs fun _ _ hs => .tileUnit hs
        · exact of_ite (.foldl hs fun _ _ hs => .tileUnit hs) (.tileOver (of_ite_over (.foldl hs fun _ _ hs => .tileUnit hs) fun hs => .modG hs))
theorem MemOk.actMma {f : Full} {rs : List Ref} (hs : MemOk s) : FstOk (actMma f s rs) := by
  unfold Machine.actMma
  dsimp only
  refine MemOk.matStep hs fun _ _ _ hs => ?_
  split
  · exact .pair hs
  · split
    exacts [.pair hs, of_ite (.pair hs) (of_ite (.pair hs) (.pair (.putSums hs)))]
theorem MemOk.startLoop {lo : Ref} {rs : List Ref} {k : LoopKind} {a steps : Nat} {sat isInt : Bool} (hs : MemOk s) :
    FstOk (s.startLoop lo rs k a steps sat isInt) := .pair (.modG (.same hs rfl))
theorem MemOk.loopReady {steps : Nat} {lo : Ref} {rs : List Ref} {go : State → State × TOut} (hs : MemOk s)
    (hgo : ∀ s, MemOk s → FstOk (go s)) : FstOk (loopReady steps s lo rs go) :=
  of_ite (.pair hs) (of_ite (.withLeave hs hgo) (hgo s hs))
theorem MemOk.actMloop {f : Full} {rs : List Ref} (hs : MemOk s) : FstOk (actMloop f s rs) :=
  MemOk.matStep hs fun _ _ _ hs => .loopReady hs fun _ hs => MemOk.startLoop hs
theorem MemOk.sparseLines {lo : Ref} {c : TwCtx} {trans : Bool} {row0 n : Nat} (hs : MemOk s) : DoneOk (sparseLines s lo c trans row0 n) := by
  induction n generalizing s with
  | zero => exact MemOk.ok (.pair hs)
  | succ n ih =>
    unfold Machine.sparseLines
    refine of_ite ?_ ?_
    · split
      · exact doneOk_error
      · next ht => exact MemOk.ok (.pair (ih hs _ ht))
    · split
      · exact doneOk_error
      · next hu =>
        split
        · exact doneOk_error
        · next ht => exact MemOk.ok (.pair (ih (MemOk.twEntries hs _ hu) _ ht))
theorem MemOk.actMlsp {trans : Bool} {f : Full} {rs : List Ref} (hs : MemOk s) : FstOk (actMlsp trans f s rs) := by
  refine .matStep hs fun s lo rs hs => ?_
  split
  · exact .pair hs
  · refine of_ite (.pair hs) (of_ite (.pair hs) ?_)
    split
    · exact .pair hs
    · split
      · exact .pair hs
      · split
        · exact .pair hs
        · split
          · exact .pair hs
          · next t _ ht =>
            have ht : MemOk t := MemOk.sparseLines hs _ ht
            exact of_ite (.pair hs) (.pair (FstOk.mem (MemOk.loopReady ht fun _ hs => .startLoop hs)))
theorem MemOk.setLoop {g : Nat} {l : MLoop} (hs : MemOk s) : MemOk (s.setLoop g l) := .modG hs
theorem MemOk.lateTrace {g : Nat} (hs : MemOk s) : MemOk (s.lateTrace g) := by
  unfold State.lateTrace
  split
  exacts [of_ite (.writeTrace hs) hs, hs]
theorem MemOk.stopLoop {g : Nat} {l : MLoop} {t : Trap} (hs : MemOk s) : MemOk (s.stopLoop g l t) := by
  unfold State.stopLoop
  dsimp only
  refine MemOk.lateTrace (MemOk.foldl (MemOk.modG (.putSums hs)) fun _ _ hs => ?_)
  split
  exacts [.holdFault hs, hs]
theorem MemOk.failLoop {g : Nat} {G : Group} {l : MLoop} {e : MFail} (hs : MemOk s) : MemOk (s.failLoop g G l e) := by
  unfold State.failLoop
  split
  exacts [.stopLoop hs, .poisonKill hs, .setLoop (.startPage hs)]
theorem MemOk.noteReads {g : Nat} {l : List (Addr × Nat)} (hs : MemOk s) : MemOk (s.noteReads g l) := .foldl hs fun _ _ hs => .traceNote hs
theorem MemOk.rowFill {G : Group} {d : MDesc} {st i : Nat} (hs : MemOk s) : MemOk (s.rowFill G d st i) := of_ite (.blockFill hs) hs
theorem MemOk.denseRows {g K : Nat} {G : Group} {a : MDesc} {rb : List (List FVal)} {is : List Nat} {l : MLoop} (hs : MemOk s) :
    MemOk (s.denseRows g G a K rb l is) := by
  induction is generalizing s l with
  | nil => exact .setLoop hs
  | cons i is ih =>
    unfold State.denseRows
    split
    · exact hs.failLoop
    · exact ih (.rowFill (.noteReads hs))
theorem MemOk.loopStep {g : Nat} (hs : MemOk s) : MemOk (s.loopStep g) := by
  unfold State.loopStep
  split
  · exact hs
  · split
    · exact hs
    · refine of_ite hs ?_
      split
      · dsimp only
        split
        · exact .failLoop hs
        · exact .denseRows (.tell (.foldl (.noteReads hs) fun _ _ hs => .rowFill hs))
      · split
        · exact hs
        · split
          · exact .stopLoop hs
          · exact .failLoop hs
          · exact hs
          · next ht =>
            have ht := MemOk.sparseLines hs _ ht
            dsimp only
            split
            · exact .failLoop ht
            · exact .setLoop (.tell (.noteReads ht))
theorem MemOk.loopEnd {g : Nat} (hs : MemOk s) : MemOk (s.loopEnd g) := by
  unfold State.loopEnd
  split
  · exact hs
  · split
    exacts [hs, of_ite hs (.lateTrace (.modG (.putSums hs)))]
theorem MemOk.actMrst {off : Bool} {f : Full} {rs : List Ref} (hs : MemOk s) : FstOk (actMrst off f s rs) :=
  .pair (.foldl hs fun _ _ hs => .modT hs)
theorem MemOk.actTzero {planar : Bool} {f : Full} {rs : List Ref} (hs : MemOk s) : FstOk (actTzero planar f s rs) :=
  MemOk.matStep hs fun _ _ _ hs => .pair (.modG hs)
theorem MemOk.actAccz {f : Full} {rs : List Ref} (hs : MemOk s) : FstOk (actAccz f s rs) := MemOk.matStep hs fun _ _ _ hs => .pair (.modG hs)
theorem MemOk.actAccmv {f : Full} {rs : List Ref} (hs : MemOk s) : FstOk (actAccmv f s rs) := MemOk.matStep hs fun _ _ _ hs => .pair (.modG hs)
theorem MemOk.actAccmvT {f : Full} {rs : List Ref} (hs : MemOk s) : FstOk (actAccmvT f s rs) := MemOk.matStep hs fun _ _ _ hs => .pair (.modG hs)
theorem MemOk.actPermxT {add : Bool} {f : Full} {rs : List Ref} (hs : MemOk s) : FstOk (actPermxT add f s rs) := by
  unfold Machine.actPermxT
  dsimp only
  refine MemOk.matStep hs fun _ _ _ hs => ?_
  split
  exacts [.pair hs, of_ite (.pair hs) (.pair (.modG hs))]
theorem MemOk.execTld {f : Full} (hs : MemOk s) : NextOk (execTld f s) := MemOk.issueAll hs fun _ _ hs => .actTile hs
theorem MemOk.execTldPl {f : Full} (hs : MemOk s) : NextOk (execTldPl f s) := MemOk.issueAll hs fun _ _ hs => .actTldPl hs
theorem MemOk.execTldS {f : Full} (hs : MemOk s) : NextOk (execTldS f s) := MemOk.issueAll hs fun _ _ hs => .actTile hs
theorem MemOk.execTldT {f : Full} (hs : MemOk s) : NextOk (execTldT f s) := MemOk.issueAll hs fun _ _ hs => .actTile hs
theorem MemOk.execTst {f : Full} (hs : MemOk s) : NextOk (execTst f s) := MemOk.issueAll hs fun _ _ hs => .actTile hs
theorem MemOk.execTstS {f : Full} (hs : MemOk s) : NextOk (execTstS f s) := MemOk.issueAll hs fun _ _ hs => .actTile hs
theorem MemOk.execTzero {f : Full} (hs : MemOk s) : NextOk (execTzero f s) := MemOk.issueAll hs fun _ _ hs => .actTzero hs
theorem MemOk.execTzeroPl {f : Full} (hs : MemOk s) : NextOk (execTzeroPl f s) := MemOk.issueAll hs fun _ _ hs => .actTzero hs
theorem MemOk.execMma {f : Full} (hs : MemOk s) : NextOk (execMma f s) := MemOk.issueAll hs fun _ _ hs => .actMma hs
theorem MemOk.execMloop {f : Full} (hs : MemOk s) : NextOk (execMloop f s) := MemOk.issueAll hs fun _ _ hs => .actMloop hs
theorem MemOk.execMlsp {f : Full} (hs : MemOk s) : NextOk (execMlsp f s) := MemOk.issueAll hs fun _ _ hs => .actMlsp hs
theorem MemOk.execMlspT {f : Full} (hs : MemOk s) : NextOk (execMlspT f s) := MemOk.issueAll hs fun _ _ hs => .actMlsp hs
theorem MemOk.execMrst {f : Full} (hs : MemOk s) : NextOk (execMrst f s) := MemOk.issueAll hs fun _ _ hs => .actMrst hs
theorem MemOk.execMrstOff {f : Full} (hs : MemOk s) : NextOk (execMrstOff f s) := MemOk.issueAll hs fun _ _ hs => .actMrst hs
theorem MemOk.execAccz {f : Full} (hs : MemOk s) : NextOk (execAccz f s) := MemOk.issueAll hs fun _ _ hs => .actAccz hs
theorem MemOk.execAccld {f : Full} (hs : MemOk s) : NextOk (execAccld f s) := MemOk.issueAll hs fun _ _ hs => .actTile hs
theorem MemOk.execAccldS {f : Full} (hs : MemOk s) : NextOk (execAccldS f s) := MemOk.issueAll hs fun _ _ hs => .actTile hs
theorem MemOk.execAccst {f : Full} (hs : MemOk s) : NextOk (execAccst f s) := MemOk.issueAll hs fun _ _ hs => .actTile hs
theorem MemOk.execAccstS {f : Full} (hs : MemOk s) : NextOk (execAccstS f s) := MemOk.issueAll hs fun _ _ hs => .actTile hs
theorem MemOk.execAccmv {f : Full} (hs : MemOk s) : NextOk (execAccmv f s) := MemOk.issueAll hs fun _ _ hs => .actAccmv hs
theorem MemOk.execAccmvT {f : Full} (hs : MemOk s) : NextOk (execAccmvT f s) := MemOk.issueAll hs fun _ _ hs => .actAccmvT hs
theorem MemOk.execPermxT {f : Full} (hs : MemOk s) : NextOk (execPermxT f s) := MemOk.issueAll hs fun _ _ hs => .actPermxT hs
theorem MemOk.execPermxTAdd {f : Full} (hs : MemOk s) : NextOk (execPermxTAdd f s) := MemOk.issueAll hs fun _ _ hs => .actPermxT hs

end Sys2Proof.Machine
end

section
/-! SUPPORT. Canonical memory: accesses take their place in the total order, hitches, and page services (R99, R171 to R190, R209 to R219, R465).
O60. -/

namespace Sys2Proof.Machine

variable {s : State} {α β : Type}

theorem MemOk.modAcc {id : Nat} {f : Access → Access} (hs : MemOk s) : MemOk (s.modAcc id f) := .same hs rfl
theorem MemOk.dropAcc {id : Nat} (hs : MemOk s) : MemOk (s.dropAcc id) := .same hs rfl
theorem MemOk.lowerLd {a : Access} (hs : MemOk s) : MemOk (s.lowerLd a) := of_ite (.foldl hs fun _ _ hs => .modT hs) hs
theorem MemOk.lowerSt {a : Access} (hs : MemOk s) : MemOk (s.lowerSt a) := of_ite (.foldl hs fun _ _ hs => .modT hs) hs
theorem MemOk.accFault {a : Access} {t : Trap} (hs : MemOk s) : MemOk (s.accFault a t) := by
  unfold State.accFault
  dsimp only
  split
  · exact .deliver (.dropAcc (.lowerLd hs))
  · refine MemOk.foldl (MemOk.dropAcc (.lowerLd hs)) fun _ _ hs => ?_
    split
    exacts [.holdFault hs, hs]
theorem MemOk.accWait {a : Access} {ctx buf pg : Nat} (hs : MemOk s) : MemOk (s.accWait a ctx buf pg) := .modAcc (.startPage hs)
theorem MemOk.accDone {a : Access} (hs : MemOk s) : MemOk (s.accDone a) := by
  unfold State.accDone
  dsimp only
  refine of_ite ?_ (of_ite (.modAcc (.lowerLd hs)) (.lowerSt (.dropAcc (.lowerLd hs))))
  split
  exacts [.holdFault (.lowerSt (.dropAcc (.lowerLd hs))), .lowerLd hs]
theorem MemOk.accStep {a : Access} {bs : List Byte} (hs : MemOk s) : MemOk (s.accStep a bs) := .modAcc hs
theorem MemOk.reach {a : Access} {G : Group} {k : PKind} {kind cls len : Nat} {addr : Addr} {go : List Nat → State} (hs : MemOk s)
    (hgo : ∀ ps, MemOk (go ps)) : MemOk (s.reach a G k kind cls addr len go) := by
  unfold State.reach
  split
  · exact hs.accFault
  · exact hs.accWait
  · exact hs.accFault
  · split
    · exact hs.poisonKill
    · exact hgo _
theorem MemOk.loadPart {a : Access} {w : Width} {ty : Ty} {d : Nat} {bs : List Byte} (hs : MemOk s) : MemOk (s.loadPart a w ty d bs) :=
  of_ite (.accDone (.modT (.accStep hs))) (.accStep hs)
theorem MemOk.planarRead {a : Access} (hs : MemOk s) : MemOk (s.planarRead a) := by
  unfold State.planarRead
  split
  · dsimp only
    split
    iterate 2
      · split
        · exact .accFault hs
        · split
          · exact .accWait hs
          · exact .poisonKill hs
          · exact .accFault hs
          · next ht =>
            exact .accDone (.modT (.planeFill (.foldl (DoneOk.of_eq ht (MemOk.seeBlock hs)) fun _ _ hs => .traceNote hs)))
    · exact hs
  · exact hs
theorem MemOk.imagePart {a : Access} {bs : List Byte} (hs : MemOk s) : MemOk (s.imagePart a bs) :=
  of_ite (.modT (.accStep hs)) (.accDone (.foldl (.fresh (.modT (.accStep hs))) fun _ _ hs => .modT hs))
theorem MemOk.imageRead {a : Access} {G : Group} {addr : Addr} (hs : MemOk s) : MemOk (s.imageRead a G addr) := by
  unfold State.imageRead
  dsimp only
  split
  · exact .accFault hs
  · exact .accWait hs
  · exact .accFault hs
  · split
    exacts [.poisonKill hs, .imagePart (of_ite (.traceNote (MemOk.readAt hs)) (MemOk.readAt hs))]
theorem MemOk.loadReturn {id : Nat} (hs : MemOk s) : MemOk (s.loadReturn id) := by
  unfold State.loadReturn
  split
  · exact hs
  · split
    · exact hs
    · split
      · exact hs
      · dsimp only
        split
        · exact .loadPart (.meet hs)
        · exact hs.reach fun _ => .loadPart (.traceNote (.readAt hs))
        iterate 2
          · refine of_ite hs ?_
            split
            · exact .planarRead hs
            · exact .foldl hs fun _ _ hs => .planarRead hs
        · exact hs.reach fun _ => of_ite (.accDone (.modCore (.accStep (.traceNote (.readAt hs))))) (.accStep (.traceNote (.readAt hs)))
        · exact .imagePart (.meet hs)
        · exact hs.imageRead
        · exact .accDone (.modT (.accStep hs))
        · exact hs
theorem MemOk.stall {a : Access} {page : Nat} (hs : MemOk s) : MemOk (s.stall a page) := of_ite hs (.noteStall (.modAcc (.fresh hs)))
theorem MemOk.roomFor {a : Access} {ps : List Nat} {room : Room} {go : State → State} (hs : MemOk s) (hgo : ∀ s, MemOk s → MemOk (go s)) :
    MemOk (s.roomFor a ps room go) :=
  of_ite (.stall hs) (of_ite hs (of_ite (hgo _ hs) (of_ite (.stall (.askRepack hs)) (hgo _ (.toHold (.askRepack hs))))))
theorem MemOk.relieve {page : Nat} (hs : MemOk s) : MemOk (s.relieve page) := .modPort hs
theorem MemOk.repackDone {page : Nat} (hs : MemOk s) : MemOk (s.repackDone page) := of_ite (.relieve hs) hs
theorem MemOk.holdTimeout {page : Nat} (hs : MemOk s) : MemOk (s.holdTimeout page) := by
  unfold State.holdTimeout
  split
  exacts [of_ite hs (.modPort (.log hs)), hs]
theorem MemOk.holdKill {page : Nat} (hs : MemOk s) : MemOk (s.holdKill page) := by
  unfold State.holdKill
  dsimp only
  split
  exacts [.modPort (.foldl hs fun _ _ hs => .logKill hs), hs]
theorem MemOk.accWrite {a : Access} {G : Group} {addr : Addr} {qs : List Nat} {bs : List Byte} {room : Room} {reads : Bool}
    {next : State → State} (hs : MemOk s) (hn : ∀ s, MemOk s → MemOk (next s)) : MemOk (s.accWrite a G addr qs bs room reads next) := by
  refine hs.roomFor fun t ht => ?_
  dsimp only
  split
  · exact ht.accWait
  · exact hn _ (.traceNote (.writeDev (of_ite (.traceNote ht) ht)))
theorem MemOk.storePart {a : Access} (hs : MemOk s) : MemOk (s.storePart a) := of_ite (.accDone (.accStep hs)) (.accStep hs)
theorem MemOk.atomResult {a : Access} {op : AtomOp} {ty : Ty} {v : Nat} {ret : Option Nat} {pd old : Nat} (hs : MemOk s) :
    MemOk (s.atomResult a op ty v ret pd old) := .modT hs
theorem MemOk.placeAtom {a : Access} {G : Group} {op : AtomOp} {ty : Ty} {v swap : Nat} {ret : Option Nat} {pd : Nat} {addr : Addr} {room : Room}
    (hs : MemOk s) : MemOk (s.placeAtom a G op ty v swap ret pd addr room) := .reach hs fun _ => .accWrite hs fun _ hs => .accDone
      (.accStep (.atomResult hs))
theorem MemOk.placePst {a : Access} {G : Group} {merge : Bool} {h b d : Nat} {lanes : List (Nat × Nat × Nat × Word)} {t pd : Nat} {room : Room}
    (hs : MemOk s) : MemOk (s.placePst a G merge h b d lanes t pd room) := by
  unfold State.placePst
  dsimp only
  split
  · exact .accWait hs
  · exact .poisonKill hs
  · exact .accFault hs
  · refine MemOk.roomFor hs fun _ hs => ?_
    split
    · exact .accWait hs
    · refine MemOk.accDone (MemOk.accStep ?_)
      refine MemOk.foldl ?_ fun _ _ hs => .modT hs
      refine MemOk.planeFill (MemOk.foldl (MemOk.writeEvent hs) fun _ _ hs => ?_)
      refine MemOk.foldl ?_ fun _ _ hs => .traceNote hs
      split
      exacts [.stampRange hs, hs]
theorem MemOk.placeHclr {a : Access} {off : Nat} {cond : Option Word} {pd : Nat} (hs : MemOk s) : MemOk (s.placeHclr a off cond pd) := by
  unfold State.placeHclr
  dsimp only
  split
  · exact .accDone (.accStep (of_ite (.modT hs) hs))
  · exact of_ite (.accDone (.accStep (of_ite (.modT hs) hs))) (.accDone (.accStep (of_ite (.modT (.modG (.setSlot hs))) (.modG (.setSlot hs)))))
theorem MemOk.storePlaced {id : Nat} {room : Room} (hs : MemOk s) : MemOk (s.storePlaced id room) := by
  unfold State.storePlaced
  split
  · exact hs
  · split
    · exact hs
    · refine of_ite hs ?_
      dsimp only
      split
      · exact .storePart (.padWrite (.meet hs))
      · exact .reach hs fun _ => .accWrite hs fun _ hs => .storePart hs
      · exact .placeAtom hs
      · exact .placePst hs
      · exact .placeHclr hs
      · exact .storePart (.padWrite hs)
      · exact hs
theorem MemOk.remoteFail {a : Access} {arg : Nat} (hs : MemOk s) : MemOk (s.remoteFail a arg) := by
  unfold State.remoteFail
  dsimp only
  split
  exacts [.deliver (.dropAcc (.lowerLd hs)), .deliver (.dropAcc (.lowerLd hs)), .accFault hs]
theorem MemOk.answered {a : Access} (hs : MemOk s) : MemOk (s.answered a) := by
  unfold State.answered
  split
  · exact hs
  · split
    exacts [.modG hs, hs]
theorem MemOk.remoteAnswer {a : Access} {ans : PeerAnswer} (hs : MemOk s) : MemOk (s.remoteAnswer a ans) := by
  unfold State.remoteAnswer
  dsimp only
  split
  · exact hs
  · refine of_ite hs ?_
    split
    · exact .remoteFail hs
    · exact .remoteFail hs
    · split
      · exact of_ite hs (of_ite_over (.loadPart (.traceNote hs)) fun hs => .answered hs)
      · exact of_ite hs (of_ite (.answered (.accDone (.modCore (.accStep (.traceNote hs))))) (.accStep (.traceNote hs)))
      · exact .storePart (.traceNote hs)
      · exact of_ite hs (.accDone (.accStep (.atomResult (.traceNote (of_ite (.traceNote hs) hs)))))
      · exact hs
theorem MemOk.remoteAck {id : Nat} {ans : PeerAnswer} (hs : MemOk s) : MemOk (s.remoteAck id ans) := by
  unfold State.remoteAck
  split
  · exact .remoteAnswer hs
  · split
    · exact hs
    · split
      exacts [.landUnit hs, hs]
theorem MemOk.remoteTimeout {id : Nat} (hs : MemOk s) : MemOk (s.remoteTimeout id) := by
  unfold State.remoteTimeout
  split
  · split
    exacts [of_ite (.remoteFail hs) hs, hs]
  · exact .remoteAck hs
theorem MemOk.outWait {ctx buf pg : Nat} (hs : MemOk s) : MemOk (s.outWait ctx buf pg) := .modEdge (.startPage hs)
theorem MemOk.outOver (hs : MemOk s) : MemOk s.outOver := .modEdge hs
theorem MemOk.peerAccess {podctx : Nat} {addr : Addr} {op : PeerOp} (hs : MemOk s) : MemOk (s.peerAccess podctx addr op) := by
  unfold State.peerAccess
  extract_lets refuse
  have hrefuse : MemOk refuse := .modEdge hs
  refine of_ite hs (of_ite hs ?_)
  split
  · exact hrefuse
  · extract_lets w go
    have hgo {k : PKind} {len : Nat} {act : State → List Nat → State × List Byte} (hact : ∀ t ps, MemOk t → FstOk (act t ps)) :
        MemOk (go k len act) := by
      refine of_ite hs ?_
      split
      · exact hrefuse
      · exact hrefuse
      · exact of_ite hrefuse (.outWait hs)
      · refine of_ite hs ?_
        extract_lets room
        have hroom : FstOk room := of_ite (.pair hs) (.devRoom hs)
        split
        · exact .poisonKill hs
        · exact .outWait hs
        · exact of_ite (FstOk.mem hroom) (.modEdge (.outOver (FstOk.mem (hact _ _ (FstOk.mem hroom)))))
    clear_value go
    split
    · exact hgo fun t ps ht => .pair ht.checkAll
    · exact hgo fun t ps ht => .pair ht.writeDev
    · split
      · exact hrefuse
      · exact of_ite hrefuse (hgo fun t ps ht => .pair ht.writeDev)
theorem MemOk.serviceEnd {v : Service} {ok : Bool} (hs : MemOk s) : MemOk (s.serviceEnd v ok) := by
  unfold State.serviceEnd
  extract_lets s1 s2 s3 s4 s5 gone s6 s7 s8 waiting
  have h1 : MemOk s1 := .modPort hs
  have h2 : MemOk s2 := .foldl h1 fun s a hs => by
    refine of_ite (.modAcc hs) ?_
    split
    exacts [.accFault hs, .modAcc hs]
  have h3 : MemOk s3 := .foldl h2 fun s e hs => by
    extract_lets t
    have ht : MemOk t := .foldl hs fun s o hs => by
      split
      exacts [of_ite hs (of_ite (.modTile hs) (.tileOver hs)), hs]
    split
    · split
      exacts [of_ite ht (of_ite (.setLoop ht) (.stopLoop ht)), ht]
    · exact ht
  have h4 : MemOk s4 := .foldl h3 fun _ _ hs => .writeTrace (.modG hs)
  have h7 : MemOk s7 := .foldl (.same h4 rfl) fun _ _ hs => .runPhases (.modCtx hs)
  have h8 : MemOk s8 := of_ite (.modEdge h7) h7
  exact of_ite (.foldl h8 fun _ _ hs => .modT hs) (.deliver h8)
theorem MemOk.placePages {e : BufEntry} {pages : List Nat} (hs : MemOk s) : MemOk (s.placePages e pages) :=
  .foldl hs fun _ _ hs => of_ite hs (.modPort hs)
theorem MemOk.mapPage {v : Service} {e : BufEntry} {phys : Nat} (hs : MemOk s) : MemOk (s.mapPage v e phys) :=
  .pokeRaw (.modPort (.modPort (.filter (.placePages hs) rfl)))
theorem MemOk.pageDone {id : Nat} {ans : PageAnswer} (hs : MemOk s) : MemOk (s.pageDone id ans) := by
  unfold State.pageDone
  dsimp only
  split
  · exact hs
  · split
    · exact .serviceEnd hs
    · split
      · refine of_ite hs (of_ite ?_ ?_)
        · split
          exacts [.serviceEnd hs, .serviceEnd (.mapPage (.modPort hs))]
        · split
          exacts [.serviceEnd hs, .serviceEnd (.mapPage (.modPort hs))]
      · exact of_ite hs (.serviceEnd (.mapPage hs))
      · exact of_ite (.serviceEnd hs) hs
theorem MemOk.pageTimeout {id : Nat} (hs : MemOk s) : MemOk (s.pageTimeout id) := by
  unfold State.pageTimeout
  split
  · exact hs
  · split
    exacts [.serviceEnd hs, of_ite (.serviceEnd hs) hs]
theorem MemOk.tileEvent {id : Nat} {pick : Nat → Bool} (hs : MemOk s) : MemOk (s.tileEvent id pick) := by
  unfold State.tileEvent
  split
  exacts [.tileLand hs, hs]
theorem MemOk.execNmcStackFailure {job stack : Nat} (hs : MemOk s) : NextOk (execNmcStackFailure job stack s) := by
  unfold Machine.execNmcStackFailure
  dsimp only
  refine MemOk.finish ?_
  split
  · exact hs
  · split
    exacts [of_ite hs (of_ite hs (.foldl (.log hs) fun _ _ hs => .unitFail hs)), hs]
theorem MemOk.subscribe {a : Access} {off : Nat} {addr : Addr} {line n : Nat} {each : Bool} {tag : Nat} (hs : MemOk s) :
    MemOk (s.subscribe a off addr line n each tag) := .setSlot (.modG (.modPort hs))
theorem MemOk.hitchAnswer {id : Nat} (hs : MemOk s) : MemOk (s.hitchAnswer id) := by
  unfold State.hitchAnswer
  dsimp only
  split
  · exact hs
  · split
    · refine of_ite hs (MemOk.reach hs fun _ => ?_)
      refine of_ite (MemOk.accDone (.accStep (.modT hs))) ?_
      split
      · exact .accDone (.accStep (.modT hs))
      · next ht => exact .accDone (.accStep (.modT (.subscribe (.checkAll (SomeOk.of_eq ht (MemOk.homeJoin hs))))))
    · exact hs
theorem MemOk.pushLand {g off : Nat} (hs : MemOk s) : MemOk (s.pushLand g off) := by
  unfold State.pushLand
  dsimp only
  split
  · exact hs
  · split
    · exact hs
    · refine MemOk.reimage (MemOk.modG ?_)
      refine MemOk.setSlot (MemOk.padWrite ?_)
      split
      exacts [.catchUp hs, hs]
theorem MemOk.unhitchLand {g off : Nat} (hs : MemOk s) : MemOk (s.unhitchLand g off) := by
  unfold State.unhitchLand
  split
  exacts [hs, of_ite hs (.trimLines (.modG (.setSlot hs)))]
theorem MemOk.sever {g off : Nat} (hs : MemOk s) : MemOk (s.sever g off) := by
  unfold State.sever
  dsimp only
  split
  exacts [.pushLand (.modG hs), .modG (.setSlot (.pushLand (.modG hs)))]
theorem MemOk.queueHitch {qn line : Nat} {addr : Addr} (hs : MemOk s) : MemOk (s.queueHitch qn line addr) := by
  unfold State.queueHitch
  dsimp only
  split
  · exact hs
  · next ht => exact .same (SomeOk.of_eq ht (MemOk.homeJoin hs)) rfl
theorem MemOk.homeFail {line : Nat} (hs : MemOk s) : MemOk (s.homeFail line) :=
  of_ite hs (.trimLines (.foldl (.modPort (.foldl (.modThreads (.foldl hs fun _ _ hs => .sever hs)) fun _ _ hs => .log hs)) fun _ _ hs =>
    .queueHitch hs))
theorem MemOk.entryFail {line k : Nat} (hs : MemOk s) : MemOk (s.entryFail line k) := by
  unfold State.entryFail
  dsimp only
  split
  · exact hs
  · refine MemOk.trimLines (MemOk.foldl ?_ fun _ _ hs => ?_)
    · refine MemOk.modPort (MemOk.log ?_)
      refine MemOk.foldl hs fun _ _ hs => ?_
      split
      exacts [of_ite (.sever hs) hs, hs]
    · split
      · exact hs
      · split
        exacts [.queueHitch hs, hs]

end Sys2Proof.Machine
end

section
/-! SUPPORT. Canonical memory: records, the dependence table, relaunch and placement (R59 to R73, R195 to R208, R221 to R228). O60. -/

namespace Sys2Proof.Machine

variable {s : State} {α β : Type}

theorem MemOk.zeroPage {phys : Nat} (hs : MemOk s) : MemOk (s.zeroPage phys) := hs.filter rfl
theorem MemOk.takeFresh {ctx : Nat} {needs : List (Nat × List Nat)} (hs : MemOk s) : FstOk (s.takeFresh ctx needs) := by
  unfold State.takeFresh
  dsimp only
  refine MemOk.foldlFst (.pair hs) fun _ _ hs => ?_
  refine .pair (MemOk.setPool ?_)
  split
  exacts [.placePages (.foldl hs fun _ _ hs => .zeroPage hs), .foldl hs fun _ _ hs => .zeroPage hs]
theorem MemOk.switchPages {it : Item} (hs : MemOk s) : MemOk (s.switchPages it) := by
  unfold State.switchPages
  dsimp only
  split
  · exact hs
  · refine MemOk.foldl hs fun _ _ hs => ?_
    refine MemOk.pokeRaw (MemOk.modPort ?_)
    split
    exacts [hs, .same hs rfl]
theorem MemOk.traceBegin {ctx : Nat} {r : LaunchRec} {rec_ : List Byte} {lsn : Nat} (hs : MemOk s) : MemOk (s.traceBegin ctx r rec_ lsn) := by
  unfold State.traceBegin
  dsimp only
  refine MemOk.foldl (MemOk.put (.put (.put (.put hs)))) fun _ _ hs => ?_
  split
  exacts [of_ite (.put hs) hs, hs]
theorem MemOk.traceEnd {it : Item} (hs : MemOk s) : MemOk (s.traceEnd it) := by
  unfold State.traceEnd
  dsimp only
  refine of_ite hs ?_
  split
  · exact .log (.put hs)
  · split
    · next ht => exact (SomeOk.of_eq ht (MemOk.cpWrite hs))
    · exact .log hs
theorem MemOk.queueTaken {qn : Nat} (hs : MemOk s) : MemOk (s.queueTaken qn) := by
  unfold State.queueTaken
  dsimp only
  split
  · exact hs
  · split
    exacts [.writeEvent (.same hs rfl), .same hs rfl]
theorem MemOk.lowerCp {w : Waiting} (hs : MemOk s) : MemOk (s.lowerCp w) := by
  unfold State.lowerCp
  split
  exacts [.modT hs, hs]
theorem MemOk.spillEntry {core : Nat} {e : Nat × Nat} (hs : MemOk s) : FstOk (s.spillEntry core e) := by
  unfold State.spillEntry
  dsimp only
  split
  · exact .pair hs
  · refine of_ite (.pair hs) ?_
    split
    exacts [.pair (.modCore (.scribble hs)), .pair (.startPage hs), .pair (.modCtx (.log hs))]
theorem MemOk.spillBlock {core : Nat} (hs : MemOk s) : FstOk (s.spillBlock core) :=
  of_ite (MemOk.foldlFst (.pair hs) fun _ _ hs => of_ite (MemOk.spillEntry hs) hs) (.pair (.same hs rfl))
theorem MemOk.pushDeque {id : Nat} (hs : MemOk s) : MemOk (s.pushDeque id) := by
  unfold State.pushDeque
  split
  · exact hs
  · exact of_ite (.modItem (.modCore hs)) (of_ite (.modItem (.modCore (.spillBlock hs))) (.spillBlock hs))
theorem MemOk.feedDeques (hs : MemOk s) : MemOk s.feedDeques := .foldl hs fun _ _ hs => .pushDeque hs
theorem MemOk.refill {core : Nat} (hs : MemOk s) : MemOk (s.refill core) := by
  unfold State.refill
  dsimp only
  refine of_ite hs (MemOk.foldl (MemOk.modCore hs) fun _ _ hs => ?_)
  split
  · exact hs
  · split
    exacts [.poisonKill hs, hs]
theorem MemOk.dropHead {q : Nat} (hs : MemOk s) : MemOk (s.dropHead q) := .modEdge (.same hs rfl)
theorem MemOk.countTaken {w : Waiting} (hs : MemOk s) : MemOk (s.countTaken w) := by
  unfold State.countTaken
  split
  exacts [.queueTaken hs, hs]
theorem MemOk.refuseHead {q reason : Nat} {w : Waiting} (hs : MemOk s) : MemOk (s.refuseHead q w reason) := by
  have h0 : MemOk (((s.dropHead q).countTaken w).lowerCp w) := .lowerCp (.countTaken (.dropHead hs))
  have hj := h0.joinAdd (ctx := w.ctx) (j := w.raised) (d := -1)
  unfold State.refuseHead
  split
  · split
    · exact h0.status
    · exact h0.holdFault
    · exact h0
  · dsimp only
    generalize he : (if w.raised = 0 then _ else _ : State) = t
    have ht : MemOk t := by
      subst he
      split
      · exact h0
      · split
        · next heq => rw [heq] at hj; exact of_ite (.log hj) hj
        · next heq => rw [heq] at hj; exact hj
    split
    · exact ht.status
    · exact ht.log
theorem MemOk.admitLaunch {q : Nat} {w : Waiting} {b : List Byte} (hs : MemOk s) : MemOk (s.admitLaunch q w b) :=
  of_ite_under (.fresh (of_ite_under (of_ite_over (MemOk.takeFresh (.modCtx (.lowerCp (.countTaken (.dropHead hs))))) fun hs => .traceBegin hs)
    fun hs => MemOk.joinAdd hs)) fun hs => .feedDeques (.same hs rfl)
theorem MemOk.admitRelaunch {q : Nat} {w : Waiting} {h : List Byte} (hs : MemOk s) : MemOk (s.admitRelaunch q w h) :=
  of_ite_under (.fresh (of_ite_under (of_ite_under (.lowerCp (.countTaken (.dropHead hs))) fun hs => .put (.put hs)) fun hs => MemOk.joinAdd hs))
    fun hs => .same hs rfl
theorem MemOk.admitQueue {q : Nat} (hs : MemOk s) : MemOk (s.admitQueue q) := by
  unfold State.admitQueue
  split
  · exact hs
  · refine of_ite hs ?_
    split
    · exact hs
    · exact .same (.startPage hs) rfl
    · exact .poisonKill hs
    · split
      exacts [.same (.startPage hs) rfl, .refuseHead hs]
    · exact of_ite (.admitRelaunch hs) (.admitLaunch hs)
theorem MemOk.jobLeave {j : Job} {ls : List Layout} (hs : MemOk s) : SomeOk (s.jobLeave j ls) := by
  unfold State.jobLeave
  refine of_ite (MemOk.some hs) ?_
  split
  exacts [of_ite (MemOk.some (.modJob hs)) nofun, MemOk.some hs]
theorem MemOk.admitJob {id : Nat} (hs : MemOk s) : MemOk (s.admitJob id) := by
  unfold State.admitJob
  dsimp only
  split
  · exact hs
  · refine of_ite hs ?_
    split
    · exact .modJob (.startPage hs)
    · exact .poisonKill hs
    · split
      · exact of_ite hs (.askLeave hs)
      · next ht =>
          split
          · refine of_ite ?_ ?_
            · refine MemOk.completeJob ?_
              split <;> exact .modJob (.modT (.fresh (SomeOk.of_eq ht (of_ite (MemOk.some hs) (MemOk.jobLeave hs)))))
            · split <;> exact .modJob (.modT (.fresh (SomeOk.of_eq ht (of_ite (MemOk.some hs) (MemOk.jobLeave hs)))))
          · split <;> exact .modJob (.modT (.fresh (SomeOk.of_eq ht (of_ite (MemOk.some hs) (MemOk.jobLeave hs)))))
theorem MemOk.enqueueCont {ctx : Nat} {cont : Addr} (hs : MemOk s) : MemOk (s.enqueueCont ctx cont) := .pushHw hs
theorem MemOk.joinEnd {it : Item} (hs : MemOk s) : MemOk (s.joinEnd it) := by
  have hj := hs.joinAdd (ctx := it.ctx) (j := it.lr.join) (d := -1)
  unfold State.joinEnd
  split
  · exact of_ite hs (.enqueueCont hs)
  · dsimp only
    split
    · next heq =>
      rw [heq] at hj
      exact of_ite hj (.log hj)
    · next heq =>
      rw [heq] at hj
      exact of_ite (.log hj) (of_ite (.enqueueCont hj) hj)
theorem MemOk.completeItem {id : Nat} (hs : MemOk s) : MemOk (s.completeItem id) := by
  unfold State.completeItem
  split
  · exact hs
  · next it _ =>
    refine of_ite hs ?_
    split
    · exact .modItem (.startPage hs)
    · extract_lets s1 s2 s3 s4 s5 s6 s7 s8
      have h5 : MemOk s5 := .joinEnd (.returnPages (.clearEdges (.same (s := s2) (.switchPages (of_ite (.traceEnd hs) hs)) rfl)))
      have h6 : MemOk s6 := by
        dsimp only [s6]
        split
        exacts [h5, .status h5]
      have h7 : MemOk s7 := .modCtx h6
      refine .feedDeques ?_
      dsimp only [s8]
      split
      exacts [of_ite (.askPhase h7) h7, h7]
theorem MemOk.execItemAdmit {which : AdmitSel} (hs : MemOk s) : NextOk (execItemAdmit which s) := by
  unfold Machine.execItemAdmit
  refine MemOk.finish ?_
  split
  exacts [.admitQueue hs, .admitJob hs]
theorem MemOk.hdr {it : Item} {o : Nat} {b : List Byte} (hs : MemOk s) : SomeOk (s.hdr it o b) := MemOk.cpWrite hs
theorem MemOk.modRel {id : Nat} {f : Relaunch → Relaunch} (hs : MemOk s) : MemOk (s.modRel id f) := .modItem hs
theorem MemOk.relEnd {it : Item} {r : Relaunch} {status : Nat} {failed : Bool} (hs : MemOk s) : MemOk (s.relEnd it r status failed) := by
  unfold State.relEnd
  dsimp only
  split
  · next ht => exact .modRel (SomeOk.of_eq ht (SomeOk.bind (MemOk.hdr hs) fun _ hs => SomeOk.bind (MemOk.hdr hs) fun _ hs => MemOk.hdr hs))
  · exact .modRel (.log hs)
theorem MemOk.runRound {it : Item} {r : Relaunch} {sel : List Nat} (hs : MemOk s) : MemOk (s.runRound it r sel) := by
  unfold State.runRound
  dsimp only
  split
  · exact .relEnd (.modCtx hs)
  · next ht => exact .modItem (SomeOk.of_eq ht (MemOk.hdr (.modCtx hs)))
theorem MemOk.afterSelection {it : Item} {r : Relaunch} {limit xlimit : Nat} {sel : List Nat} (hs : MemOk s) :
    MemOk (s.afterSelection it r limit xlimit sel) := of_ite (.relEnd hs) (of_ite (of_ite (.relEnd hs) (.modRel hs)) (.runRound hs))
theorem MemOk.selectionDone {id : Nat} (hs : MemOk s) : MemOk (s.selectionDone id) := by
  unfold State.selectionDone
  split
  · exact hs
  · split
    · exact hs
    · refine of_ite hs ?_
      dsimp only
      split
      · exact .modItem (.startPage hs)
      · exact .poisonKill hs
      · exact .relEnd (.log hs)
      · split
        · exact .relEnd hs
        · next t ht =>
          have ht : MemOk t := of_ite (SomeOk.bind (.hdr hs) fun _ hs => .hdr hs) (.hdr hs) t ht
          split
          · exact .relEnd ht
          · split
            · exact .relEnd ht
            · split
              · exact .relEnd ht
              · next u hu =>
                exact .afterSelection (of_ite (SomeOk.bind (.hdr ht) fun _ hs => of_ite (.hdr hs) (.some hs)) (.some ht) u hu)
theorem MemOk.relDeclined {it : Item} {r : Relaunch} (hs : MemOk s) : MemOk (s.relDeclined it r) := .relEnd (.log hs)
theorem MemOk.hostContinue {id : Nat} {goOn : Bool} (hs : MemOk s) : MemOk (s.hostContinue id goOn) := by
  unfold State.hostContinue
  split
  exacts [hs, of_ite hs (of_ite (.runRound hs) (.relDeclined hs))]
theorem MemOk.continueTimeout {id : Nat} (hs : MemOk s) : MemOk (s.continueTimeout id) := by
  unfold State.continueTimeout
  split
  · exact hs
  · split
    exacts [of_ite hs (.relDeclined hs), hs]
theorem MemOk.save {g : Nat} {res : Residency} (hs : MemOk s) : SomeOk (s.save g res) :=
  SomeOk.bindTo fun _ => SomeOk.bindTo fun _ => SomeOk.bindTo fun _ => of_ite nofun (MemOk.some (.modG (.modCtx (.scribble hs))))
theorem MemOk.claim {core : Nat} (hs : MemOk s) : SomeOk (s.claim core) := SomeOk.findSome fun _ => MemOk.save hs
theorem MemOk.makeRoom {core n : Nat} {news : List Need} (hs : MemOk s) : SomeOk (State.makeRoom core news n s) := by
  induction n generalizing s with
  | zero => exact of_ite hs.some nofun
  | succ n ih => exact of_ite hs.some (SomeOk.bind (.claim hs) fun _ hs => ih hs)
theorem MemOk.roomForAll {l : List (Nat × Need)} (hs : MemOk s) : SomeOk (s.roomForAll l) :=
  SomeOk.foldl (MemOk.some hs) fun _ _ hs => SomeOk.bind hs fun _ hs => MemOk.makeRoom hs
theorem MemOk.selfInvalidate {core : Nat} (hs : MemOk s) : MemOk (s.selfInvalidate core) := .dropCopiesOf hs
theorem MemOk.follow {core : Nat} (hs : MemOk s) : MemOk (s.follow core) := .catchUp (.selfInvalidate hs)
theorem MemOk.followItem {it : Item} {core : Nat} (hs : MemOk s) : MemOk (s.followItem it core) := .raisePts (of_ite (.selfInvalidate hs) hs)
theorem MemOk.started {id : Nat} {G : Group} (hs : MemOk s) : MemOk (s.started id G) := .same hs rfl
theorem MemOk.startGroup {it : Item} {gang gidx core : Nat} (hs : MemOk s) : MemOk (s.startGroup it gang gidx core) :=
  .started (.followItem (.fresh hs))
theorem MemOk.resumeGroup {g core : Nat} (hs : MemOk s) : MemOk (s.resumeGroup g core) := by
  unfold State.resumeGroup
  dsimp only
  split
  exacts [hs, .modG (.fresh (.follow (.modCtx hs)))]
theorem MemOk.restoreGang {gang : Nat} {cores : List Nat} (hs : MemOk s) : MemOk (s.restoreGang gang cores) := by
  unfold State.restoreGang
  dsimp only
  refine of_ite hs (of_ite ?_ ?_)
  · split
    · exact hs
    · next ht => exact .foldl (SomeOk.of_eq ht (MemOk.roomForAll hs)) fun _ _ hs => .resumeGroup hs
  · split
    · exact hs
    · next ht => exact .foldl (SomeOk.of_eq ht (MemOk.roomForAll (.foldl (.same hs rfl) fun _ _ hs => .modCtx hs))) fun _ _ hs => .resumeGroup hs
theorem MemOk.takeTask {it : Item} {taker : Nat} (hs : MemOk s) : MemOk (s.takeTask it taker) := of_ite hs (.modItem (.refill (.modCore hs)))
theorem MemOk.gangPlace {id : Nat} {cores : List Nat} (hs : MemOk s) : MemOk (s.gangPlace id cores) := by
  unfold State.gangPlace
  split
  · dsimp only
    refine of_ite hs ?_
    split
    · exact .restoreGang hs
    · refine of_ite hs ?_
      split
      · exact .modItem (.startPage hs)
      · next ht => exact .modItem (.foldl (.fresh (.takeTask (SomeOk.of_eq ht (MemOk.roomForAll hs)))) fun _ _ hs => .startGroup hs)
      · exact hs
  · exact hs
theorem MemOk.steal {thief victim : Nat} (hs : MemOk s) : MemOk (s.steal thief victim) := by
  unfold State.steal
  dsimp only
  refine of_ite hs ?_
  split
  exacts [.takeTask hs, hs]
theorem MemOk.activate {g : Nat} (hs : MemOk s) : MemOk (s.activate g) := .modG hs
theorem MemOk.trade {g : Nat} (hs : MemOk s) : MemOk (s.trade g) := by
  unfold State.trade
  split
  · exact hs
  · refine of_ite hs ?_
    split
    exacts [hs, .activate (.modG hs)]
theorem MemOk.requeueGang {g : Nat} (hs : MemOk s) : MemOk (s.requeueGang g) := by
  unfold State.requeueGang
  dsimp only
  split
  · exact hs
  · refine of_ite hs ?_
    split
    · next ht =>
        exact .foldl (SomeOk.of_eq ht (SomeOk.foldl (MemOk.some hs) fun _ _ hs => SomeOk.bind hs fun _ hs => MemOk.save hs)) fun _ _ hs => .modG
          (.same hs rfl)
    · exact hs

end Sys2Proof.Machine
end

section
/-! SUPPORT. Canonical memory: progress, and the commands of host queues (R76, R241 to R254, R440 to R445). O60. -/

namespace Sys2Proof.Machine

variable {s : State} {α β : Type}

theorem MemOk.starve {g t : Nat} (hs : MemOk s) : MemOk (s.starve g t) := by
  unfold State.starve
  split
  exacts [of_ite (.modT hs) hs, hs]
theorem MemOk.watchdog {g w : Nat} (hs : MemOk s) : MemOk (s.watchdog g w) := by
  unfold State.watchdog
  dsimp only
  split
  exacts [hs, of_ite hs (.deliverTo (.foldl hs fun _ _ hs => .modT hs))]
theorem MemOk.joinDead {g w : Nat} (hs : MemOk s) : MemOk (s.joinDead g w) := by
  unfold State.joinDead
  split
  exacts [hs, of_ite hs (.deliver hs)]
theorem MemOk.writeRecord {g t : Nat} (hs : MemOk s) : MemOk (s.writeRecord g t) := by
  unfold State.writeRecord
  dsimp only
  split
  · split
    · refine of_ite hs (MemOk.leaveDeliveries ?_)
      refine MemOk.modG (FstOk.mem ?_)
      split
      · split
        · next ht => exact .pair (SomeOk.of_eq ht (MemOk.cpWrite hs))
        · exact .pair hs
      · exact .pair hs
    · exact hs
  · exact hs
theorem MemOk.formWarp {g : Nat} {pc : Addr} (hs : MemOk s) : MemOk (s.formWarp g pc) := by
  unfold State.formWarp
  dsimp only
  split
  · exact hs
  · split
    exacts [.poisonKill hs, .modG hs]
theorem MemOk.formWarps {g n : Nat} {pc : Addr} (hs : MemOk s) : MemOk (State.formWarps g pc n s) := by
  induction n generalizing s with
  | zero => exact hs
  | succ n ih =>
    unfold State.formWarps
    split
    · exact hs
    · exact of_ite hs (ih (.formWarp hs))
theorem MemOk.splice {g : Nat} {pc : Addr} (hs : MemOk s) : MemOk (s.splice g pc) := by
  unfold State.splice
  split
  exacts [hs, of_ite hs (of_ite (.foldl hs fun _ _ hs => .formWarps hs) (of_ite (.formWarp hs) hs))]
theorem MemOk.abandon {g t : Nat} (hs : MemOk s) : MemOk (s.abandon g t) := by
  unfold State.abandon
  dsimp only
  split
  · exact .unring hs
  · split
    exacts [.same (.unring hs) rfl, .modT (.same (.foldl (.unring hs) fun _ _ hs => .lowerLd hs) rfl), .modT (.unring hs)]
theorem MemOk.preemptGroup {g pdlog : Nat} (hs : MemOk s) : MemOk (s.preemptGroup g pdlog) := by
  unfold State.preemptGroup
  dsimp only
  split
  exacts [hs, of_ite hs (.deliverTo (.foldl (.same hs rfl) fun _ _ hs => .abandon hs))]
theorem MemOk.forceSave {g : Nat} (hs : MemOk s) : MemOk (s.forceSave g) := by
  unfold State.forceSave
  dsimp only
  split
  exacts [hs, of_ite hs (.log (.modG (.foldl hs fun _ _ hs => .modT (.abandon hs))))]
theorem MemOk.grantLeave {g : Nat} (hs : MemOk s) : MemOk (s.grantLeave g) := by
  unfold State.grantLeave
  dsimp only
  split
  exacts [of_ite hs (.foldl (.modG (of_ite (.same (.fresh hs) rfl) (.modEdge (.same (.fresh hs) rfl)))) fun _ _ hs => .modT hs), hs]
theorem MemOk.leaveTimeout {g level : Nat} (hs : MemOk s) : MemOk (s.leaveTimeout g level) := by
  unfold State.leaveTimeout
  dsimp only
  split
  exacts [of_ite hs (.log (.deliverTo (.foldl (.same hs rfl) fun _ _ hs => .modT hs))), hs]
theorem MemOk.setQueue {qn : Nat} {q : HostQueue} (hs : MemOk s) : MemOk (s.setQueue qn q) := .same hs rfl
theorem MemOk.stopQueue {qn st : Nat} (hs : MemOk s) : MemOk (s.stopQueue qn st) := .same (.queueState hs) rfl
theorem MemOk.queueWait {qn ctx buf pg : Nat} (hs : MemOk s) : MemOk (s.queueWait qn ctx buf pg) := .same (.startPage hs) rfl
theorem MemOk.serveHead {qn : Nat} (hs : MemOk s) : MemOk (s.serveHead qn) := by
  unfold State.serveHead
  dsimp only
  split
  · exact hs
  · refine of_ite hs ?_
    split
    · exact .queueWait hs
    · exact of_ite hs (.log (.stopQueue hs))
    · split
      exacts [of_ite (.status (.queueTaken hs)) hs, hs]
theorem MemOk.serveQueue {qn n : Nat} (hs : MemOk s) : MemOk (State.serveQueue qn n s) := by
  induction n generalizing s with
  | zero => exact hs
  | succ n ih => exact of_ite hs (ih (.serveHead hs))
theorem MemOk.serveHeads (hs : MemOk s) : MemOk s.serveHeads := .foldl hs fun _ _ hs => .serveQueue hs
theorem MemOk.simple {qn code : Nat} {k : State → HostQueue → Entry → Except Nat State} (hs : MemOk s)
    (hk : ∀ s q e, MemOk s → ResultOk (k s q e)) : MemOk (s.simple qn code k) := by
  unfold State.simple
  split
  · exact hs
  · split
    · exact hs
    · dsimp only
      split
      · next t ht => exact .status (hk _ _ _ (.queueTaken hs) t ht)
      · exact .status (.queueTaken hs)
theorem MemOk.lasting {qn code : Nat} {k : State → Entry → Except Nat (State × Option Running)} (hs : MemOk s)
    (hk : ∀ s e, MemOk s → DoneOk (k s e)) : MemOk (s.lasting qn code k) := by
  unfold State.lasting
  split
  · exact hs
  · split
    · exact hs
    · dsimp only
      split
      · next ht => exact .modEdge (hk _ _ (.queueTaken hs) _ ht)
      · next ht => exact .status (hk _ _ (.queueTaken hs) _ ht)
      · exact .status (.queueTaken hs)
theorem MemOk.endRunning {qn code detail : Nat} (hs : MemOk s) : MemOk (s.endRunning qn code detail) := by
  unfold State.endRunning
  split
  exacts [hs, .status (.modEdge hs)]
theorem MemOk.launchEntry {qn code : Nat} (hs : MemOk s) : MemOk (s.launchEntry qn code) := by
  unfold State.launchEntry
  dsimp only
  split
  · exact hs
  · refine of_ite hs ?_
    split
    exacts [of_ite (.status (.queueTaken hs)) hs, .pushHw hs]
theorem MemOk.planemap {qn : Nat} (hs : MemOk s) : MemOk (s.planemap qn) := by
  unfold State.planemap
  dsimp only
  split
  · exact hs
  · split
    · exact .queueWait hs
    · refine MemOk.simple hs fun _ _ _ hs => ?_
      split
      · exact resultOk_error
      · split
        · refine of_ite (MemOk.okay (.poisonKill hs)) (of_ite resultOk_error ?_)
          split
          · exact resultOk_error
          · next ht => exact MemOk.okay (.modPort (SomeOk.of_eq ht (MemOk.cpWrite hs)))
        · exact resultOk_error
theorem MemOk.installBuf {n i : Nat} {c : Ctx} {b : List Byte} (hs : MemOk s) : MemOk (s.installBuf n i c b) :=
  of_ite (.modCtx (.pokeRaw (.modPort (.placePages (.pokeRaw hs))))) (of_ite_under (.modCtx (.pokeRaw (.modPort (.placePages (.pokeRaw hs)))))
    fun hs => .setPool hs)
theorem MemOk.bufmap {qn : Nat} (hs : MemOk s) : MemOk (s.bufmap qn) := by
  unfold State.bufmap
  dsimp only
  refine MemOk.simple hs fun _ _ _ hs => ?_
  split
  exacts [of_ite resultOk_error (MemOk.okay (.installBuf hs)), resultOk_error]
theorem MemOk.share {qn : Nat} (hs : MemOk s) : MemOk (s.share qn) := by
  unfold State.share
  refine MemOk.simple hs fun _ _ _ hs => ?_
  split
  exacts [resultOk_error, MemOk.okay (.pokeRaw hs)]
theorem MemOk.ctxcreate {qn : Nat} (hs : MemOk s) : MemOk (s.ctxcreate qn) := by
  unfold State.ctxcreate
  dsimp only
  refine MemOk.simple hs fun _ _ _ hs => ?_
  refine of_ite resultOk_error ?_
  split
  exacts [resultOk_error, MemOk.okay (of_ite (.same hs rfl) (.askPhase (.same hs rfl)))]
theorem MemOk.ctxdestroy {qn : Nat} (hs : MemOk s) : MemOk (s.ctxdestroy qn) := by
  unfold State.ctxdestroy
  refine MemOk.lasting hs fun _ _ hs => ?_
  split
  exacts [doneOk_error, MemOk.ok (.pair (of_ite (.kill hs) hs))]
theorem MemOk.dropCtx {c : Nat} (hs : MemOk s) : MemOk (s.dropCtx c) := .same hs rfl
theorem MemOk.openQueue {qn desc : Nat} {priv : Bool} (hs : MemOk s) : SomeOk (s.openQueue qn desc priv) :=
  SomeOk.bindTo fun _ => SomeOk.mapTo fun _ => .queueHitch (.queueState (.setQueue hs))
theorem MemOk.qcreate {qn : Nat} (hs : MemOk s) : MemOk (s.qcreate qn) := by
  unfold State.qcreate
  dsimp only
  split
  · exact hs
  · split
    · exact .queueWait hs
    · refine MemOk.simple hs fun _ _ _ hs => ?_
      split
      · next ht => exact MemOk.okay (SomeOk.of_eq ht (MemOk.openQueue hs))
      · exact resultOk_error
theorem MemOk.dropQueue {k : Nat} (hs : MemOk s) : MemOk (s.dropQueue k) := .trimLines (.same (.stopQueue hs) rfl)
theorem MemOk.qdestroy {qn : Nat} (hs : MemOk s) : MemOk (s.qdestroy qn) := by
  unfold State.qdestroy
  refine MemOk.lasting hs fun _ _ hs => ?_
  split
  exacts [doneOk_error, MemOk.ok (of_ite (.pair hs) (.pair (.dropQueue hs)))]
theorem MemOk.tailPush {qn : Nat} (hs : MemOk s) : MemOk (s.tailPush qn) := by
  unfold State.tailPush
  dsimp only
  split
  · exact hs
  · split
    exacts [hs, of_ite hs (of_ite (.stopQueue (.setQueue hs)) (.setQueue hs))]
theorem MemOk.preemptCtx {c : Nat} (hs : MemOk s) : MemOk (s.preemptCtx c) := by
  unfold State.preemptCtx
  dsimp only
  split
  exacts [hs, .foldl (.modCtx hs) fun _ _ hs => .preemptGroup hs]
theorem MemOk.resumeCtx {c : Nat} (hs : MemOk s) : MemOk (s.resumeCtx c) :=
  .foldl (.modCtx hs) fun _ _ hs => of_ite (.foldl hs fun _ _ hs => .resumeGroup hs) hs
theorem MemOk.preemptCmd {qn : Nat} (hs : MemOk s) : MemOk (s.preemptCmd qn) := by
  unfold State.preemptCmd
  refine MemOk.lasting hs fun _ _ hs => ?_
  split
  exacts [doneOk_error, MemOk.ok (.pair (.preemptCtx hs))]
theorem MemOk.resumeCmd {qn : Nat} (hs : MemOk s) : MemOk (s.resumeCmd qn) := by
  unfold State.resumeCmd
  refine MemOk.simple hs fun _ _ _ hs => ?_
  split
  exacts [resultOk_error, MemOk.okay (.resumeCtx hs)]
theorem MemOk.poolAdd {qn : Nat} (hs : MemOk s) : MemOk (s.poolAdd qn) := by
  unfold State.poolAdd
  dsimp only
  split
  · exact hs
  · refine of_ite hs (MemOk.simple hs fun _ _ _ hs => ?_)
    refine of_ite resultOk_error ?_
    split
    exacts [resultOk_error, of_ite resultOk_error (MemOk.okay (of_ite (.modPort hs) (.foldl (.modPort hs) fun _ _ hs => .relieve hs)))]
theorem MemOk.poolReport {qn : Nat} (hs : MemOk s) : MemOk (s.poolReport qn) := by
  unfold State.poolReport
  dsimp only
  split
  exacts [hs, of_ite hs (.simple hs fun _ _ _ hs => of_ite resultOk_error (MemOk.okay (.writeEvent hs)))]
theorem MemOk.attest {qn : Nat} (hs : MemOk s) : MemOk (s.attest qn) := by
  unfold State.attest
  refine MemOk.simple hs fun _ _ _ hs => ?_
  split
  exacts [resultOk_error, of_ite resultOk_error (MemOk.okay (.writeEvent hs))]
theorem MemOk.preemptAll (hs : MemOk s) : MemOk s.preemptAll := .foldl hs fun _ _ hs => .preemptCtx hs
theorem MemOk.noteCtxs (hs : MemOk s) : MemOk s.noteCtxs := .modEdge hs
theorem MemOk.noteLsns (hs : MemOk s) : MemOk s.noteLsns := .modEdge hs
theorem MemOk.resumeAll {on : Bool} (hs : MemOk s) : MemOk (s.resumeAll on) := of_ite (.foldl hs fun _ _ hs => .resumeCtx hs) hs
theorem MemOk.quiesce {qn : Nat} (hs : MemOk s) : MemOk (s.quiesce qn) :=
  .lasting hs fun _ _ hs => of_ite (MemOk.ok (.pair hs)) (MemOk.ok (.pair (.preemptAll (.noteCtxs hs))))
theorem MemOk.release {qn : Nat} (hs : MemOk s) : MemOk (s.release qn) :=
  .simple hs fun _ _ _ hs => of_ite (MemOk.okay hs) (MemOk.okay (.resumeAll (.modEdge hs)))
theorem MemOk.ckpt {qn : Nat} (hs : MemOk s) : MemOk (s.ckpt qn) := by
  unfold State.ckpt
  dsimp only
  refine MemOk.lasting hs fun _ _ hs => ?_
  split
  · exact doneOk_error
  · exact of_ite (MemOk.ok (.pair (.modEdge (.modEdge hs)))) (of_ite doneOk_error (MemOk.ok (.pair (.preemptAll (.noteCtxs (.modEdge hs))))))
theorem MemOk.saveAll (hs : MemOk s) : MemOk s.saveAll := by
  unfold State.saveAll
  refine MemOk.foldl hs fun _ _ hs => ?_
  split
  · exact hs
  · split
    · split
      · next ht => exact (SomeOk.of_eq ht (MemOk.save hs))
      · exact .logKill hs
    · exact hs
theorem MemOk.streamEnd (hs : MemOk s) : MemOk s.streamEnd := by
  unfold State.streamEnd
  dsimp only
  split
  exacts [hs, .endRunning (of_ite (.resumeAll (.modEdge hs)) (.modEdge hs))]
theorem MemOk.streamStop {units : Nat} {step5 : Bool} (hs : MemOk s) : MemOk (s.streamStop units step5) := by
  unfold State.streamStop
  dsimp only
  split
  exacts [hs, .endRunning (of_ite (.resumeAll (.log (.modEdge hs))) (.log (.modEdge hs)))]
theorem MemOk.restore {qn : Nat} {m : Manifest} (hs : MemOk s) : MemOk (s.restore qn m) := by
  unfold State.restore
  dsimp only
  refine MemOk.lasting hs fun _ _ hs => ?_
  refine of_ite doneOk_error ?_
  split
  exacts [doneOk_error, of_ite doneOk_error (of_ite doneOk_error (MemOk.ok (.pair (.modEdge hs))))]
theorem MemOk.dropCopies (hs : MemOk s) : MemOk s.dropCopies := .modPort hs
theorem MemOk.restored {image : List (Nat × Byte)} {poison : List Nat} {bound : Nat} (hs : MemOk s) : MemOk (s.restored image poison bound) :=
  .modPort (.scatter (s := { s.dropCopies with mem := s.mem.filter fun c => decide (bound ≤ c.1) }) (.filter hs rfl) rfl)
theorem MemOk.restoreEnd {image : List (Nat × Byte)} {poison : List Nat} (hs : MemOk s) : MemOk (s.restoreEnd image poison) := by
  unfold State.restoreEnd
  split
  exacts [hs, .endRunning (.restored hs)]
theorem MemOk.restoreStop {image : List (Nat × Byte)} {poison : List Nat} {bytes : Nat} (hs : MemOk s) :
    MemOk (s.restoreStop image poison bytes) := by
  unfold State.restoreStop
  split
  exacts [hs, .endRunning (.log (.restored hs))]

end Sys2Proof.Machine
end

section
/-! SUPPORT. Canonical memory: compact pairs, the host and the links, and failures (R231 to R260, R474 to R515). O60. -/

namespace Sys2Proof.Machine

variable {s : State} {α β : Type}

theorem MemOk.execYieldCompact {c : Compact} (hs : MemOk s) : NextOk (execYieldCompact c s) := by
  unfold Machine.execYieldCompact
  obtain ⟨op, f⟩ := cfull 40 c
  exact MemOk.issueTurn hs fun _ _ hs => .actYield hs
theorem MemOk.execFenceCompact {c : Compact} (hs : MemOk s) : NextOk (execFenceCompact c s) := by
  unfold Machine.execFenceCompact
  obtain ⟨op, f⟩ := cfull 43 c
  exact MemOk.issueTurn hs fun _ _ hs => .faultPoint hs fun _ _ hs => .actFence hs
theorem MemOk.execWtanyCompact {c : Compact} (hs : MemOk s) : NextOk (execWtanyCompact c s) := by
  unfold Machine.execWtanyCompact
  obtain ⟨op, f⟩ := cfull 44 c
  exact MemOk.issueTurn hs fun _ _ hs => .faultPoint hs fun _ _ hs => .actWtany hs
theorem MemOk.execWtallCompact {c : Compact} (hs : MemOk s) : NextOk (execWtallCompact c s) := by
  unfold Machine.execWtallCompact
  obtain ⟨op, f⟩ := cfull 45 c
  exact MemOk.issueTurn hs fun _ _ hs => .faultPoint hs fun _ _ hs => .actWtall hs
theorem MemOk.pairSync {w : CompactWord} (hs : MemOk s) : NextOk (pairSync w s) := by
  unfold Machine.pairSync
  obtain ⟨op, f⟩ := w.full
  dsimp only
  split
  · exact MemOk.issueTurn hs fun _ _ hs => .actYield hs
  · exact MemOk.issueEach hs
  · exact MemOk.issueTurn hs fun _ _ hs => .faultPoint hs fun _ _ hs => .actFence hs
  · exact MemOk.issueTurn hs fun _ _ hs => .faultPoint hs fun _ _ hs => .actWtany hs
  · exact MemOk.issueTurn hs fun _ _ hs => .faultPoint hs fun _ _ hs => .actWtall hs
theorem MemOk.registerWrite {r : BarReg} {v : Addr} (hs : MemOk s) : MemOk (s.registerWrite r v) := of_ite (.modEdge hs) hs
theorem MemOk.elstatWrite {v : Addr} (hs : MemOk s) : MemOk (s.elstatWrite v) := of_ite (.modEdge hs) hs
theorem memOk_boot {fail : Option BootFail} : MemOk (s.boot fail) := by
  unfold State.boot
  have hw : MemOk { State.reset with agenda := s.agenda, free := s.free + 1 } := wf_nil
  split
  · exact .modEdge hw
  · exact .modEdge hw
theorem MemOk.boot {fail : Option BootFail} (_ : MemOk s) : MemOk (s.boot fail) := memOk_boot
theorem MemOk.deviceReset {fail : Option BootFail} (hs : MemOk s) : MemOk (s.deviceReset fail) := of_ite hs (.boot hs)
theorem MemOk.readyUp (hs : MemOk s) : MemOk s.readyUp := by
  unfold State.readyUp
  refine of_ite hs ?_
  split
  · next ht => exact .modEdge (SomeOk.of_eq ht (MemOk.openQueue hs))
  · exact .modEdge hs
theorem MemOk.q0write {v : Addr} (hs : MemOk s) : MemOk (s.q0write v) := of_ite (.readyUp (.modEdge hs)) hs
theorem MemOk.linkTrained {port : Nat} {ok : Bool} (hs : MemOk s) : MemOk (s.linkTrained port ok) :=
  of_ite (of_ite (of_ite (.modEdge hs) hs) (of_ite hs (of_ite (.modEdge hs) (.modEdge hs))))
    (of_ite hs (of_ite (.readyUp (.modEdge (.modEdge hs))) (.modEdge hs)))
theorem MemOk.ualinkRetrain (hs : MemOk s) : MemOk s.ualinkRetrain := of_ite (.modEdge hs) hs
theorem MemOk.fatal {r : ErrRec} (hs : MemOk s) : MemOk (s.fatal r) :=
  .modEdge (.foldl (.restoreStop (.streamStop (.same (.log hs) rfl))) fun _ _ hs => .kill hs)
theorem MemOk.flitReplay {port : Nat} {ok : Bool} (hs : MemOk s) : MemOk (s.flitReplay port ok) := of_ite hs (.modEdge hs)
theorem MemOk.replayReport {port : Nat} (hs : MemOk s) : MemOk (s.replayReport port) := by
  unfold State.replayReport
  split
  exacts [hs, .log (.modEdge hs)]
theorem MemOk.linkRetrain {port : Nat} {ok : Bool} (hs : MemOk s) : MemOk (s.linkRetrain port ok) :=
  of_ite hs (of_ite (.modEdge hs) (.modEdge hs))
theorem MemOk.failFence {g t arg : Nat} (hs : MemOk s) : MemOk (s.failFence g t arg) := by
  unfold State.failFence
  split
  · split
    exacts [.holdFault hs, hs]
  · exact hs
theorem MemOk.failAtom {a : Access} {arg : Nat} (hs : MemOk s) : MemOk (s.failAtom a arg) := by
  unfold State.failAtom
  split
  exacts [.holdFault (.lowerSt (.dropAcc hs)), hs]
theorem MemOk.hostLost {seq : Nat} (hs : MemOk s) : MemOk (s.hostLost seq) :=
  .foldl (.same (.foldl (.foldl (.modEdge (.modPort hs)) fun _ _ hs => .failFence hs) fun _ _ hs => .failAtom hs) rfl) fun _ _ hs => .kill hs
theorem MemOk.portDown {port : Nat} (hs : MemOk s) : MemOk (s.portDown port) := by
  unfold State.portDown
  dsimp only
  split
  exacts [hs, of_ite hs (of_ite (.hostLost (.modEdge (.log hs))) (.modEdge (.log hs)))]
theorem MemOk.wymRetry {ok : Bool} (hs : MemOk s) : MemOk (s.wymRetry ok) := of_ite (.modEdge hs) hs
theorem MemOk.hostRefused {p reason : Nat} {write : Bool} (hs : MemOk s) : MemOk (s.hostRefused p reason write) := .log hs
theorem MemOk.track {line : Nat} (hs : MemOk s) : MemOk (s.track line) := by
  unfold State.track
  dsimp only
  refine MemOk.modPort (of_ite hs ?_)
  split
  exacts [hs, .modPort hs]
theorem MemOk.hostRead {h n : Nat} (hs : MemOk s) : MemOk (s.hostRead h n) := by
  unfold State.hostRead
  dsimp only
  refine of_ite hs ?_
  split
  exacts [.modEdge (.hostRefused hs), of_ite (.modEdge (of_ite (.track hs) hs)) (.modEdge (of_ite (.track hs) hs))]
theorem MemOk.hostWrite {h : Nat} {op : HostOp} (hs : MemOk s) : MemOk (s.hostWrite h op) := by
  unfold State.hostWrite
  dsimp only
  refine of_ite hs ?_
  split
  · exact .hostRefused hs
  · split
    · exact hs
    · refine of_ite hs ?_
      split
      · exact .outWait hs
      · refine of_ite (MemOk.devRoom hs) (MemOk.foldl ?_ fun _ _ hs => .stampRange hs)
        refine MemOk.outOver (MemOk.modPort ?_)
        refine MemOk.writeEvent (MemOk.modPort ?_)
        split
        exacts [.modEdge (MemOk.devRoom hs), MemOk.devRoom hs]
theorem MemOk.dropSnoop {line : Nat} (hs : MemOk s) : MemOk (s.dropSnoop line) := by
  unfold State.dropSnoop
  split
  exacts [hs, .modPort hs]
theorem MemOk.snoopTimeout {line : Nat} (hs : MemOk s) : MemOk (s.snoopTimeout line) := by
  unfold State.snoopTimeout
  dsimp only
  split
  · exact hs
  · exact of_ite hs (of_ite (.same (.log (.dropSnoop hs)) rfl) (.foldl (.failFence (.log (.dropSnoop hs))) fun _ _ hs => .failAtom hs))
theorem MemOk.thermal {tj : Nat} (hs : MemOk s) : MemOk (s.thermal tj) :=
  of_ite (.modEdge hs) (of_ite (.msi (.modEdge hs)) (.same (.fatal (.msi (.modEdge hs))) rfl))
theorem MemOk.policyKill {c : Nat} (hs : MemOk s) : MemOk (s.policyKill c) := by
  unfold State.policyKill
  split
  · split
    exacts [.kill hs, hs]
  · exact hs
theorem MemOk.compare {u : ControlUnit} (hs : MemOk s) : MemOk (s.compare u) := by
  unfold State.compare
  split
  exacts [of_ite hs (.retire hs), .fatal hs, .fatal hs]
theorem MemOk.withdraw {page : Nat} (hs : MemOk s) : MemOk (s.withdraw page) := .modPort hs
theorem MemOk.poisonSectors {l : List Nat} (hs : MemOk s) : MemOk (s.poisonSectors l) := .modPort hs
theorem MemOk.dirtyLine {r : ErrRec} {phys : Nat} (hs : MemOk s) : MemOk (s.dirtyLine r phys) :=
  of_ite (.withdraw (.log (.poisonSectors hs))) (.log (.poisonSectors hs))
theorem MemOk.groupArray {r : ErrRec} {g : Nat} (hs : MemOk s) : MemOk (s.groupArray r g) := by
  unfold State.groupArray
  split
  exacts [.logKill hs, hs]
theorem MemOk.poisonWord {r : ErrRec} {g t word : Nat} (hs : MemOk s) : MemOk (s.poisonWord r g t word) := by
  unfold State.poisonWord
  split
  exacts [.modT (.log hs), hs]
theorem MemOk.scrub {w : ArrayWord} {correctable : Bool} (hs : MemOk s) : MemOk (s.scrub w correctable) := by
  unfold State.scrub
  dsimp only
  split
  · exact hs
  · exact of_ite hs (.poisonSectors hs)
  · exact .log hs
  · exact of_ite hs (.retire hs)
  · exact .log hs
  · exact .dirtyLine hs
  · exact .dirtyLine hs
  · exact .poisonWord hs
  · exact .poisonWord hs
  · exact .groupArray hs
  · exact .groupArray hs
  · exact .groupArray hs
  · exact .groupArray hs
  · exact .log hs
  · split
    exacts [.logKill (.modCore hs), .log (.modCore hs)]
  · exact .entryFail hs
  · exact .dropCopiesOf (.log hs)
  · exact .dropCopiesOf (.log hs)
  · exact .log hs
theorem MemOk.ecsFinding {phys bank : Nat} (hs : MemOk s) : MemOk (s.ecsFinding phys bank) :=
  of_ite hs (.foldl (.poisonSectors hs) fun _ _ hs => of_ite (.withdraw (.log hs)) (.log hs))
theorem MemOk.ecsPoll {stack chan bank rise : Nat} (hs : MemOk s) : MemOk (s.ecsPoll stack chan bank rise) := of_ite hs (.log hs)

end Sys2Proof.Machine
end

section
/-! SUPPORT. Canonical memory: every instruction and every event, what follows a step at once, and whose turn it is (R57). O60. -/

namespace Sys2Proof.Machine

variable {s : State} {α β : Type}

/-- Every instruction and every event of the device keeps the memory in canonical form: most only plan for each thread. -/
theorem MemOk.exec {i : Instr} (hs : MemOk s) : NextOk (Machine.exec i s) := by
  cases i with
  | powerOnReset => exact MemOk.finish (.boot hs)
  | linkTrainingComplete => exact MemOk.finish (.linkTrained hs)
  | q0descWrite => exact MemOk.finish (.q0write hs)
  | mctlDeviceReset => exact MemOk.finish (.deviceReset hs)
  | mctlUalinkRetrain => exact MemOk.finish (.ualinkRetrain hs)
  | elstatOvfClear => exact MemOk.finish (.elstatWrite hs)
  | registerWrite => exact MemOk.finish (.registerWrite hs)
  | queueTailPush => exact MemOk.finish (.tailPush hs)
  | launchCommand | relaunchCommand => exact MemOk.finish (.launchEntry hs)
  | planemap => exact MemOk.finish (.planemap hs)
  | bufmap => exact MemOk.finish (.bufmap hs)
  | share => exact MemOk.finish (.share hs)
  | ctxcreate => exact MemOk.finish (.ctxcreate hs)
  | ctxdestroy => exact MemOk.finish (.ctxdestroy hs)
  | qcreate => exact MemOk.finish (.qcreate hs)
  | qdestroy => exact MemOk.finish (.qdestroy hs)
  | preempt => exact MemOk.finish (.preemptCmd hs)
  | resume => exact MemOk.finish (.resumeCmd hs)
  | poolAdd => exact MemOk.finish (.poolAdd hs)
  | poolReport => exact MemOk.finish (.poolReport hs)
  | ckpt => exact MemOk.finish (.ckpt hs)
  | attest => exact MemOk.finish (.attest hs)
  | quiesce => exact MemOk.finish (.quiesce hs)
  | release => exact MemOk.finish (.release hs)
  | restore => exact MemOk.finish (.restore hs)
  | restoreStreamEnd => exact MemOk.finish (.restoreEnd hs)
  | itemAdmit => exact MemOk.execItemAdmit hs
  | itemComplete => exact MemOk.finish (.completeItem hs)
  | gangPlace => exact MemOk.finish (.gangPlace hs)
  | taskSteal => exact MemOk.finish (.steal hs)
  | activeSetTrade => exact MemOk.finish (.trade hs)
  | requeue => exact MemOk.finish (.requeueGang hs)
  | threadStarved => exact MemOk.finish (.starve hs)
  | progressWatchdog => exact MemOk.finish (.watchdog hs)
  | joinDeadlock => exact MemOk.finish (.joinDead hs)
  | spliceRelease => exact MemOk.finish (.splice hs)
  | spawnRecordWrite => exact MemOk.finish (.writeRecord hs)
  | forcedSave => exact MemOk.finish (.forceSave hs)
  | leaveGrant => exact MemOk.finish (.grantLeave hs)
  | leaveTimeout => exact MemOk.finish (.leaveTimeout hs)
  | loadDataReturn => exact MemOk.finish (.loadReturn hs)
  | storePlaced => exact MemOk.finish (.storePlaced hs)
  | repackComplete => exact MemOk.finish (.repackDone hs)
  | overflowHoldTimeout => exact MemOk.finish (.holdTimeout hs)
  | overflowHoldKill => exact MemOk.finish (.holdKill hs)
  | remoteAck => exact MemOk.finish (.remoteAck hs)
  | remoteAccessTimeout => exact MemOk.finish (.remoteTimeout hs)
  | peerRemoteAccess => exact MemOk.finish (.peerAccess hs)
  | engineSectorLand => exact MemOk.finish (of_ite (.landUnit hs) (.tileEvent hs))
  | engineJobComplete => exact MemOk.finish (.completeJob hs)
  | nmcStackFailure => exact MemOk.execNmcStackFailure hs
  | tileOpComplete => exact MemOk.finish (.tileEvent hs)
  | matrixLoopStep => exact MemOk.finish (.loopStep hs)
  | matrixLoopEnd => exact MemOk.finish (.loopEnd hs)
  | pageServiceComplete => exact MemOk.finish (.pageDone hs)
  | pageServiceTimeout => exact MemOk.finish (.pageTimeout hs)
  | hitchRegistered => exact MemOk.finish (.hitchAnswer hs)
  | hitchPushLand => exact MemOk.finish (.pushLand hs)
  | unhitchConfirm => exact MemOk.finish (.unhitchLand hs)
  | hitchHomeFailure => exact MemOk.finish (.homeFail hs)
  | tawaitWake | leaseExpiry => exact MemOk.finish (.modG hs)
  | ptsSelfAdvance => exact MemOk.finish (.modCore hs)
  | cachedCopyExpiry => exact MemOk.finish (.modPort hs)
  | relaunchSelectionDone => exact MemOk.finish (.selectionDone hs)
  | relaunchHostContinue => exact MemOk.finish (.hostContinue hs)
  | relaunchContinueTimeout => exact MemOk.finish (.continueTimeout hs)
  | controlCompareMismatch => exact MemOk.finish (.compare hs)
  | scrubberFinding => exact MemOk.finish (.scrub hs)
  | ecsUncorrectableFinding => exact MemOk.finish (.ecsFinding hs)
  | ecsCountPoll => exact MemOk.finish (.ecsPoll hs)
  | flitReplay => exact MemOk.finish (.flitReplay hs)
  | replayCountReport => exact MemOk.finish (.replayReport hs)
  | linkRetrain => exact MemOk.finish (.linkRetrain hs)
  | linkPortDown => exact MemOk.finish (.portDown hs)
  | wymbiynRetrainRetry => exact MemOk.finish (.wymRetry hs)
  | hostHdmRead => exact MemOk.finish (.hostRead hs)
  | hostHdmWrite => exact MemOk.finish (.hostWrite hs)
  | snoopAck => exact MemOk.finish (.dropSnoop hs)
  | snoopTimeout => exact MemOk.finish (.snoopTimeout hs)
  | thermalStateChange => exact MemOk.finish (.thermal hs)
  | ckptStreamEnd => exact MemOk.finish (.streamEnd hs)
  | ckptInterrupted => exact MemOk.finish (.streamStop hs)
  | compactPair => exact of_ite (.pairSync hs) (of_ite (.pairSync hs) (MemOk.issuePair hs))
  | shflIdxCompact | shflXorCompact | lredCompact | shflUpCompact | shflDownCompact | voteAll | voteAny | voteEq | voteBallot | shflIdx | shflUp
    | shflDown | shflXor | lred | lredF | lscan | lscanF | selk | selkI | permx | pst | pstMerge => exact MemOk.issueTile hs
  | yieldCompact => exact MemOk.execYieldCompact hs
  | fenceCompact => exact MemOk.execFenceCompact hs
  | wtanyCompact => exact MemOk.execWtanyCompact hs
  | wtallCompact => exact MemOk.execWtallCompact hs
  | actsel => exact MemOk.execActsel hs
  | plpack => exact MemOk.execPlpack hs
  | part => exact MemOk.execPart hs
  | wrsr => exact MemOk.execWrsr hs
  | exit => exact MemOk.execExit hs
  | sbra => exact MemOk.execSbra hs
  | join => exact MemOk.execJoin hs
  | yield => exact MemOk.execYield hs
  | waitc => exact MemOk.execWaitc hs
  | wtany => exact MemOk.execWtany hs
  | wtall => exact MemOk.execWtall hs
  | ffrdy => exact MemOk.execFfrdy hs
  | fence => exact MemOk.execFence hs
  | binit => exact MemOk.execBinit hs
  | barr => exact MemOk.execBarr hs
  | bwait => exact MemOk.execBwait hs
  | btxIn => exact MemOk.execBtxIn hs
  | btxOut => exact MemOk.execBtxOut hs
  | bplw => exact MemOk.execBplw hs
  | rinit => exact MemOk.execRinit hs
  | acqs => exact MemOk.execAcqs hs
  | acqsTry => exact MemOk.execAcqsTry hs
  | coms => exact MemOk.execComs hs
  | peeks => exact MemOk.execPeeks hs
  | peeksTry => exact MemOk.execPeeksTry hs
  | rels => exact MemOk.execRels hs
  | rinitG => exact MemOk.execRinitG hs
  | acqsG => exact MemOk.execAcqsG hs
  | acqsTryG => exact MemOk.execAcqsTryG hs
  | comsG => exact MemOk.execComsG hs
  | peeksG => exact MemOk.execPeeksG hs
  | peeksTryG => exact MemOk.execPeeksTryG hs
  | relsG => exact MemOk.execRelsG hs
  | launch => exact MemOk.execLaunch hs
  | relaunch => exact MemOk.execRelaunch hs
  | tspawn => exact MemOk.execTspawn hs
  | tawait => exact MemOk.execTawait hs
  | hitch => exact MemOk.execHitch hs
  | hitchEach => exact MemOk.execHitchEach hs
  | unhitch => exact MemOk.execUnhitch hs
  | lpf => exact MemOk.execLpf hs
  | copy => exact MemOk.execCopy hs
  | copyIn => exact MemOk.execCopyIn hs
  | copyOut => exact MemOk.execCopyOut hs
  | copySs => exact MemOk.execCopySs hs
  | copyLs => exact MemOk.execCopyLs hs
  | pcopyIn => exact MemOk.execPcopyIn hs
  | pcopyOut => exact MemOk.execPcopyOut hs
  | pcopyLs => exact MemOk.execPcopyLs hs
  | txfm => exact MemOk.execTxfm hs
  | lease => exact MemOk.execLease hs
  | leaseQ => exact MemOk.execLeaseQ hs
  | unlease => exact MemOk.execUnlease hs
  | nmc => exact MemOk.execNmc hs
  | tld => exact MemOk.execTld hs
  | tldPl => exact MemOk.execTldPl hs
  | tldS => exact MemOk.execTldS hs
  | tldT => exact MemOk.execTldT hs
  | tst => exact MemOk.execTst hs
  | tstS => exact MemOk.execTstS hs
  | tzero => exact MemOk.execTzero hs
  | tzeroPl => exact MemOk.execTzeroPl hs
  | mma => exact MemOk.execMma hs
  | mloop => exact MemOk.execMloop hs
  | mlsp => exact MemOk.execMlsp hs
  | mlspT => exact MemOk.execMlspT hs
  | mrst => exact MemOk.execMrst hs
  | mrstOff => exact MemOk.execMrstOff hs
  | accz => exact MemOk.execAccz hs
  | accld => exact MemOk.execAccld hs
  | accldS => exact MemOk.execAccldS hs
  | accst => exact MemOk.execAccst hs
  | accstS => exact MemOk.execAccstS hs
  | accmv => exact MemOk.execAccmv hs
  | accmvT => exact MemOk.execAccmvT hs
  | permxT => exact MemOk.execPermxT hs
  | permxTAdd => exact MemOk.execPermxTAdd hs
  | twld => exact MemOk.execTwld hs
  | twrow => exact MemOk.execTwrow hs
  | twcol => exact MemOk.execTwcol hs
  | twnext => exact MemOk.execTwnext hs
  | twsave => exact MemOk.execTwsave hs
  | twrest => exact MemOk.execTwrest hs
  | trap => exact MemOk.execTrap hs
  | sethdl => exact MemOk.execSethdl hs
  | rte => exact MemOk.execRte hs
  | preemptd => exact MemOk.execPreemptd hs
  | brkpt => exact MemOk.execBrkpt hs
  | leave => exact MemOk.execLeave hs
  | endlv => exact MemOk.execEndlv hs
  | evph => exact MemOk.execEvph hs
  | evphSet => exact MemOk.execEvphSet hs
  | restoreInterrupted => exact MemOk.finish (.restoreStop hs)
  | oromelPolicyKill => exact MemOk.finish (.policyKill hs)
  | _ => exact MemOk.issueEach hs
theorem MemOk.wakeOne {g t : Nat} (hs : MemOk s) : MemOk (s.wakeOne g t) := by
  unfold State.wakeOne
  split
  · split
    exacts [.modT hs, hs]
  · exact hs
theorem MemOk.wakeWaits (hs : MemOk s) : MemOk s.wakeWaits := .foldl hs fun _ _ hs => .wakeOne hs
theorem MemOk.wakeResources (hs : MemOk s) : MemOk s.wakeResources := .modThreads hs
theorem MemOk.ringRetry {g t : Nat} (hs : MemOk s) : MemOk (s.ringRetry g t) := by
  unfold State.ringRetry
  dsimp only
  split
  · exact hs
  · split
    · refine of_ite (MemOk.deliver hs) ?_
      split
      · split
        exacts [.meet (.modT (.setRing hs)), .modT (.setRing hs)]
      · exact hs
    · exact hs
theorem MemOk.wakeRings (hs : MemOk s) : MemOk s.wakeRings := .foldl hs fun _ _ hs => .ringRetry hs
theorem MemOk.releaseSync {g w : Nat} (hs : MemOk s) : MemOk (s.releaseSync g w) := by
  unfold State.releaseSync
  dsimp only
  split
  · exact hs
  · split
    exacts [hs, of_ite (.foldl (.fresh hs) fun _ _ hs => .modT hs) hs]
theorem MemOk.releaseJoin {g w : Nat} (hs : MemOk s) : MemOk (s.releaseJoin g w) := by
  unfold State.releaseJoin
  dsimp only
  split
  exacts [hs, of_ite hs (.foldl (.fresh hs) fun _ _ hs => .modT hs)]
theorem MemOk.wakeWarps (hs : MemOk s) : MemOk s.wakeWarps := .foldl hs fun _ _ hs => .releaseJoin (.releaseSync hs)
theorem MemOk.closeAtoms (hs : MemOk s) : MemOk s.closeAtoms := .foldl hs fun _ _ hs => .lowerSt (.dropAcc hs)
theorem MemOk.fillCore {core n : Nat} (hs : MemOk s) : MemOk (State.fillCore core n s) := by
  induction n generalizing s with
  | zero => exact hs
  | succ n ih =>
    unfold State.fillCore
    split
    · exact hs
    · split
      · exact ih (.activate hs)
      · exact hs
theorem MemOk.fillCores (hs : MemOk s) : MemOk s.fillCores := .foldl (.same hs rfl) fun _ _ hs => .fillCore hs
theorem MemOk.detach (hs : MemOk s) : MemOk s.detach := of_ite hs (.same (.foldl hs fun _ _ hs => .modT hs) rfl)
theorem MemOk.handOver {g : Nat} (hs : MemOk s) : MemOk (s.handOver g) := by
  unfold State.handOver
  split
  exacts [of_ite hs (.modG (.fresh hs)), hs]
theorem MemOk.handOvers (hs : MemOk s) : MemOk s.handOvers := .foldl hs fun _ _ hs => .handOver hs
theorem MemOk.reap (hs : MemOk s) : MemOk s.reap := .foldl hs fun _ _ hs => of_ite (.foldl hs fun _ _ hs => .modItem (.dropGroup hs)) hs
theorem MemOk.endCharges (hs : MemOk s) : MemOk s.endCharges := .same hs rfl
theorem MemOk.moveDeques (hs : MemOk s) : MemOk s.moveDeques := .foldl (.feedDeques hs) fun _ _ hs => .refill hs
theorem MemOk.runOne {e : Nat × HostRef × Running} (hs : MemOk s) : MemOk (s.runOne e) := by
  unfold State.runOne
  dsimp only
  split
  · exact of_ite (.endRunning hs) hs
  · exact of_ite hs (.endRunning (.dropCtx hs))
  · exact of_ite hs (.endRunning (.dropQueue hs))
  · exact of_ite hs (.endRunning (.modEdge (.noteLsns (.saveAll hs))))
  · exact of_ite hs (.modEdge (.noteLsns (.saveAll hs)))
  · exact hs
  · exact hs
theorem MemOk.runCommands (hs : MemOk s) : MemOk s.runCommands := .foldl hs fun _ _ hs => .runOne hs
theorem MemOk.settle {wake : Bool} (hs : MemOk s) : MemOk (s.settle wake) :=
  .serveHeads (.runCommands (.fillCores (.moveDeques (.endCharges (.reap (.handOvers (.detach (.wakeWarps (of_ite_over
    (.wakeRings (.wakeWaits (.closeAtoms hs))) fun hs => .wakeResources hs)))))))))
theorem MemOk.markCore {core : Nat} (hs : MemOk s) : MemOk (s.markCore core) := .modCore (.same hs rfl)
theorem MemOk.markReady (hs : MemOk s) : MemOk s.markReady := .foldl hs fun _ _ hs => .markCore hs
theorem MemOk.picked {core : Nat} {k : Nat × Addr} (hs : MemOk s) : MemOk (s.picked core k) := .modCore hs
def TurnOk : Turn → Prop
  | .done t => MemOk t
  | .run t _ => MemOk t
theorem MemOk.issueEntry {core : Nat} {e : Entry256} (hs : MemOk s) : TurnOk (s.issueEntry core e) := by
  unfold State.issueEntry
  dsimp only
  split
  · exact MemOk.same (s := s.picked core e.key) (.picked hs) rfl
  · exact MemOk.deliver (.picked hs)
  · split
    · exact MemOk.picked hs
    · exact MemOk.foldl (.startPage (.picked hs)) fun _ _ hs => .waitOn hs
  · split
    · exact MemOk.picked hs
    · exact MemOk.poisonKill (.picked hs)
theorem MemOk.elapse {dt : Nat} (hs : MemOk s) : MemOk (s.elapse dt) := of_ite hs (.same hs rfl)
theorem MemOk.tick {after : State} (hs : MemOk s) (ha : MemOk after) : TurnOk (s.tick after) := by
  unfold State.tick
  split
  · exact hs.issueEntry
  · exact MemOk.elapse ha
theorem MemOk.ownTurn {ex : Instr → State → Host.Outcome State Fault Refusal} (hs : MemOk s) : TurnOk (s.ownTurn ex) := by
  unfold State.ownTurn
  split
  · exact hs
  · exact hs.tick hs
theorem MemOk.turn {ex : Instr → State → Host.Outcome State Fault Refusal} (hs : MemOk s) : TurnOk (s.turn_ ex) := by
  unfold State.turn_
  split
  · exact hs.ownTurn
  · exact hs.tick (.same hs rfl)
  · exact hs.tick (.same hs rfl)
  · exact of_ite (P := TurnOk) (MemOk.same hs rfl) (MemOk.same hs rfl)
  · dsimp only
    split
    · exact MemOk.issueEntry (.same hs rfl)
    · exact MemOk.same hs rfl
theorem MemOk.close {ran : Bool} (hs : MemOk s) : MemOk (s.close ran) := .markReady (.settle (.same hs rfl))

end Sys2Proof.Machine
end

section
/-! PROOF. Every step of the device keeps the memory in canonical form (log 2, R171, R172): O60. -/

namespace Sys2Proof.Machine

theorem MemOk.step {s : State} (hs : MemOk s) : NextOk (Machine.step s) := by
  have hturn : TurnOk (s.turn_ Machine.exec) := hs.turn
  unfold Machine.step
  split
  · next ht => exact MemOk.finish (.close (ht ▸ hturn : TurnOk (.done _)))
  · next t i ht =>
    have hexec : NextOk (Machine.exec i t) := MemOk.exec (ht ▸ hturn : TurnOk (.run t i))
    split
    · next hu => exact MemOk.finish (.close (hexec _ hu))
    · exact nofun
    · exact nofun

/-- Settles O60: whatever a step does, each operation it goes through writes memory in canonical form or leaves it alone. -/
theorem stepsKeepMemoryCanonical : Obligations.StepsKeepMemoryCanonical := fun _ t hs ht => MemOk.step hs t ht

end Sys2Proof.Machine
end

section
/-! SUPPORT. What no write of the device changes: whether all its bytes are there (the model's `absent`), whatever hitch tables hold; and what a
join counter's write leaves (R213, R217, R221). O20. -/

namespace Sys2Proof.Machine

theorem foldl_absent {α : Type} {f : State → α → State} (h : ∀ s x, (f s x).absent = s.absent) (l : List α) (s : State) :
    (l.foldl f s).absent = s.absent :=
  List.foldlRecOn l f (motive := fun t => t.absent = s.absent) rfl fun _ ht x _ => (h _ x).trans ht
theorem ownBytes_absent (s : State) (ctx n : Nat) (a : Addr) : (s.ownBytes ctx a n).absent = s.absent := by
  unfold State.ownBytes
  split
  · dsimp only
    exact foldl_absent (f := fun s l => s.homeWrite { ctx := ctx, stamp := none } s.topTs l) (fun _ _ => rfl) _ _
  · rfl
theorem spillAt_absent (s : State) (e : HEntry) (n : Nat) : (s.spillAt e n).absent = s.absent := by
  unfold State.spillAt
  dsimp only
  split
  · split
    · exact ownBytes_absent _ _ _ _
    · rfl
  · rfl
theorem tableRoom_absent {s t : State} {line : Nat} (h : s.tableRoom line = some t) : t.absent = s.absent := by
  unfold State.tableRoom at h
  split at h
  · cases h
    rfl
  · obtain ⟨e, _, he⟩ := List.exists_of_findSome?_eq_some h
    split at he
    · cases he
    · obtain ⟨n, _, rfl⟩ := Option.map_eq_some_iff.1 he
      exact spillAt_absent s e n
theorem unspill_absent (s : State) (line : Nat) : (s.unspill line).absent = s.absent := by
  refine foldl_absent (fun s e => ?_) _ s
  split
  · next ht =>
    split
    · exact (tableRoom_absent ht).trans rfl
    · rfl
  · rfl
theorem pushLine_absent (s : State) (line : Nat) : (s.pushLine line).absent = s.absent := by
  unfold State.pushLine
  split
  · rfl
  · exact unspill_absent s line
theorem lineWritten_absent (s : State) (w : Writer) (l : Nat) : (s.lineWritten w l).absent = s.absent := by
  have hpush : ((if w.quiet then s else s.pushLine l).modThreads (·.lineWritten l)).absent = s.absent := by
    split
    · rfl
    · exact pushLine_absent s l
  unfold State.lineWritten
  dsimp only
  split <;> exact hpush
theorem writeEvent_present (s : State) (w : Writer) {cells : List (Nat × Byte)} (h : ∀ e ∈ cells, e.1 < memSize) :
    (s.writeEvent w cells).absent = s.absent := by
  have hc : s.checkAll (cells.map (·.1)) = s := checkAll_inside s _ fun p hp => by
    obtain ⟨e, he, rfl⟩ := List.mem_map.1 hp
    exact h e he
  unfold State.writeEvent
  dsimp only
  rw [hc]
  exact foldl_absent (fun s l => lineWritten_absent s w l) _ _
theorem devRoom_absent (s : State) (ps : List Nat) : (s.devRoom ps).1.absent = s.absent := by
  have hstall (t : State) (page : Nat) : (t.noteStall page).absent = t.absent := by
    unfold State.noteStall
    split <;> rfl
  unfold State.devRoom
  split
  · rfl
  · dsimp only
    split
    · rfl
    · split
      · exact hstall _ _
      · rfl
/-- A join counter is written where it reaches memory that is there and not poisoned; else nothing is done (R221). -/
theorem joinAdd_present {s : State} {ctx : Nat} {j : Addr} {d : Int}
    (h : ∀ qs, s.port_ ctx [] .atomic j 8 = .ok qs → (∀ p ∈ qs, p < memSize) ∧ s.poisonedIn true qs = none) :
    (s.joinAdd ctx j d).1.absent = s.absent := by
  unfold State.joinAdd
  split
  · next qs hport =>
    obtain ⟨hmem, hclean⟩ := h qs hport
    rw [hclean]
    exact (writeEvent_present _ _ fun e he => hmem _ (List.of_mem_zip he).1).trans (devRoom_absent s qs)
  · rfl

end Sys2Proof.Machine
end

section
/-! PROOF. `launch`, `tspawn` and `relaunch` enter the hardware queues (R182, R199, R221, R224, R319): O20. -/

namespace Sys2Proof.Machine

theorem mayIssueItem_of {s : State} {r : Ref} (h : s.drained r.g r.t = true ∧ r.T.cp < 63 ∧ s.tableFull = false) : mayIssueItem s r = true := by
  simp [mayIssueItem, h]

/-- Settles O20: past its alignment and the room of its table an item is what the port answers for its record, its join counter or its
queue byte. -/
theorem itemInstructionsEnterQueues : Obligations.ItemInstructionsEnterQueues := by
  intro f may record join waiting readable refused enters
  have hrefused (kind : ItemKind) (s : State) (r : Ref) (h : refused s r) : actItem kind f s r = (s.pushHw 0 (waiting kind s r), issuedItem) := by
    obtain ⟨ha, hmay, hport⟩ := h
    refine (if_neg (not_not.2 ha)).trans ((if_neg (not_not.2 (mayIssueItem_of hmay))).trans ?_)
    cases hp : s.port_ r.G.ctx [] .load (s.ea r f) 128 with
    | page buf pg => exact absurd hp (hport buf pg []).1
    | ok ps => exact absurd hp (hport 0 0 ps).2
    | _ => rfl
  have hreads (kind : ItemKind) (s : State) (r : Ref) (h : readable s r) : actItem kind f s r = (enters kind s r, issuedItem) := by
    obtain ⟨ha, hmay, ⟨ps, hport, hclean⟩, hjoin⟩ := h
    refine (if_neg (not_not.2 ha)).trans ((if_neg (not_not.2 (mayIssueItem_of hmay))).trans ?_)
    have hrec : record s r = s.gather ps := by simp only [record, hport]
    simp only [enters, join, hrec] at hjoin ⊢
    simp only [hport, hclean]
    split
    · rfl
    · next hj =>
      cases hp : s.port_ r.G.ctx [] .atomic _ 8 with
      | page buf pg => exact absurd hp ((hjoin.resolve_left hj).1 buf pg)
      | _ => rfl
  have habsent (kind : ItemKind) (s : State) (r : Ref) (h : readable s r) (hs : s.absent = none) : (enters kind s r).absent = none := by
    obtain ⟨_, _, _, hjoin⟩ := h
    dsimp only [enters]
    split
    · exact hs
    · next hj => exact (joinAdd_present (hjoin.resolve_left hj).2).trans hs
  refine ⟨turnDo_of (act := actItem .launch f) rfl (by decide) (hreads .launch) (habsent .launch),
    turnDo_of (act := actItem .task f) rfl (by decide) (hreads .task) (habsent .task),
    turnDo_of (act := actItem .launch f) rfl (by decide) (hrefused .launch) fun _ _ _ hs => hs,
    turnDo_of (act := actItem .task f) rfl (by decide) (hrefused .task) fun _ _ _ hs => hs,
    turnDo_of (act := actRelaunch f) rfl (by decide) (fun s r h => ?_) fun _ _ _ hs => hs⟩
  obtain ⟨ha, hmay, hpage, hclean⟩ := h
  refine (if_neg (not_not.2 ha)).trans ((if_neg (not_not.2 (mayIssueItem_of hmay))).trans ?_)
  dsimp only
  cases hp : s.port_ r.G.ctx [] .load (addOff (s.ea r f) 0xAF) 1 with
  | page buf pg => exact absurd hp (hpage buf pg)
  | ok ps =>
    simp only [hclean ps hp]
    rfl
  | _ => rfl

end Sys2Proof.Machine
end

section
/-! SUPPORT. Loads and stores at their issue (R91, R93, R332 to R334): their plans do not depend on how the threads of a group stand, and the
opcodes their compact forms stand for. O22. -/

namespace Sys2Proof.Machine

/-- The member of a gang that an offset names is found among the groups without their threads (R91). -/
theorem gangTarget_outline (s : State) (G : Group) (g o : Nat) :
    s.gangTarget G g o =
      (((s.groups.map fun e => (e.1, e.2.outline)).find? fun e => e.2.gang == G.gang && e.2.grank == o / 2 ^ 27 % 32 % G.lr.gang).elim g (·.1),
        o % 2 ^ 27) := by
  have hfind : ((s.groups.map fun e => (e.1, e.2.outline)).find? fun e => e.2.gang == G.gang && e.2.grank == o / 2 ^ 27 % 32 % G.lr.gang) =
      (s.groups.find? fun e => e.2.gang == G.gang && e.2.grank == o / 2 ^ 27 % 32 % G.lr.gang).map fun e => (e.1, e.2.outline) := List.find?_map ..
  rw [hfind]
  unfold State.gangTarget
  dsimp only
  cases s.groups.find? fun e => e.2.gang == G.gang && e.2.grank == o / 2 ^ 27 % 32 % G.lr.gang <;> rfl
theorem Alike.gangTarget {s u : State} (h : Alike s u) (G : Group) (g o : Nat) : u.gangTarget G g o = s.gangTarget G g o := by
  rw [gangTarget_outline, gangTarget_outline, h.outline]
theorem Alike.place {s u : State} (h : Alike s u) (r : Ref) (gang : Bool) (o : Nat) : u.place r gang o = s.place r gang o := by
  unfold State.place
  rw [h.gangTarget]
theorem Alike.eo {s u : State} (h : Alike s u) (r : Ref) (f : Full) : u.eo r f = s.eo r f := by rw [h.eq, State.eo_groups]
theorem Alike.stData {s u : State} (h : Alike s u) (r : Ref) (w : Width) (d : Nat) : u.stData r w d = s.stData r w d := by
  rw [h.eq]
  rfl
theorem Alike.planLd {s u : State} (h : Alike s u) (w : Width) (f : Full) (r : Ref) : planLd w f u r = planLd w f s r := by
  rw [h.eq]
  simp only [Machine.planLd, loadAt_groups, State.ea_groups]
theorem Alike.planSt {s u : State} (h : Alike s u) (w : Width) (f : Full) (r : Ref) : planSt w f u r = planSt w f s r := by
  simp only [Machine.planSt, h.stData]
  rw [h.eq]
  simp only [remoteOf_groups, State.ea_groups]
theorem Alike.planLds {s u : State} (h : Alike s u) (gang : Bool) (w : Width) (f : Full) (r : Ref) :
    planLds gang w f u r = planLds gang w f s r := by simp only [Machine.planLds, h.eo, h.place]
theorem Alike.planSts {s u : State} (h : Alike s u) (gang : Bool) (w : Width) (f : Full) (r : Ref) :
    planSts gang w f u r = planSts gang w f s r := by simp only [Machine.planSts, h.eo, h.place, h.stData]

/-- A load that the port grants starts its one access (R172, R190). -/
theorem planLd_granted {w : Width} {f : Full} {s : State} {r : Ref}
    (h : (∃ ps, s.port_ r.G.ctx (s.renOf r.G.item) .load (s.ea r f) w.bytes = .ok ps) ∨
      ∃ pod x, s.port_ r.G.ctx (s.renOf r.G.item) .load (s.ea r f) w.bytes = .remote pod x) :
    let rem := remoteOf s r .load (s.ea r f) w.bytes
    planLd w f s r =
      .done { accs := [{ kind := .load w f.ty f.d.toNat (s.ea r f) none, parts := accParts rem (s.ea r f).toNat w.bytes, remote := rem }],
              vol := if rem.isSome then 32 else 0 } := by
  unfold planLd
  exact loadAt_granted 0 _ h

/-- A compact load or store stands for an opcode of the full ones (R334). -/
theorem cfull_access_op {cop : BitVec 6} (h : cop ∈ [33, 34, 35, 36]) (c : Compact) : 0x0D0 ≤ (cfull cop c).1 := by
  fin_cases h <;> cases hi : c.i <;> simp [cfull, CompactWord.full, CompactWord.row, cTable, CRow.expand, hi] <;> omega

end Sys2Proof.Machine
end

section
/-! PROOF. A load or a store starts one access with its events (R91, R93, R172, R190, R331 to R334): O22. -/

namespace Sys2Proof.Machine

/-- Settles O22: each plan starts the one access of its statement; a compact form has the plan of its width. -/
theorem loadsAndStoresStart : Obligations.LoadsAndStoresStart := by
  unfold Obligations.LoadsAndStoresStart
  intro once natural cut load store padLoad padStore compact
  have hload (i : Instr) (op : Nat) (w : Width) (f : Full) (hexec : Sys2Proof.Machine.exec i = issueEach op f (planLd w f)) (hop : op ≠ 0x0A6) :
      load i op w f := eachDoes_of hexec hop fun s u _ r hport hu => (hu.planLd w f r).trans (planLd_granted hport)
  have hstore (i : Instr) (op : Nat) (w : Width) (f : Full) (hexec : Sys2Proof.Machine.exec i = issueEach op f (planSt w f)) (hop : op ≠ 0x0A6) :
      store i op w f := eachDoes_of hexec hop fun s u _ r _ hu => hu.planSt w f r
  have hpadLoad (gang : Bool) (i : Instr) (op : Nat) (w : Width) (f : Full)
      (hexec : Sys2Proof.Machine.exec i = issueEach op f (planLds gang w f)) (hop : op ≠ 0x0A6) : padLoad gang i op w f :=
    eachDoes_of hexec hop fun s u _ r _ hu => hu.planLds gang w f r
  have hpadStore (gang : Bool) (i : Instr) (op : Nat) (w : Width) (f : Full)
      (hexec : Sys2Proof.Machine.exec i = issueEach op f (planSts gang w f)) (hop : op ≠ 0x0A6) : padStore gang i op w f :=
    eachDoes_of hexec hop fun s u _ r _ hu => hu.planSts gang w f r
  have hfull {base : Nat} (h : 0x0D0 ≤ base) (w : Width) : base + w.code ≠ 0x0A6 := by omega
  have hcompact {cop : BitVec 6} (h : cop ∈ [33, 34, 35, 36]) (c : Compact) : (cfull cop c).1 ≠ 0x0A6 := by
    have := cfull_access_op h c
    omega
  exact ⟨fun w f => hload _ _ w f rfl (hfull (by decide) w), fun c => hload _ _ _ _ rfl (hcompact (by decide) c),
    fun w f => hstore _ _ w f rfl (hfull (by decide) w), fun c => hstore _ _ _ _ rfl (hcompact (by decide) c),
    fun w f => hpadLoad false _ _ w f rfl (hfull (by decide) w), fun c => hpadLoad false _ _ _ _ rfl (hcompact (by decide) c),
    fun w f => hpadStore false _ _ w f rfl (hfull (by decide) w), fun c => hpadStore false _ _ _ _ rfl (hcompact (by decide) c),
    fun w f => hpadLoad true _ _ w f rfl (hfull (by decide) w), fun w f => hpadStore true _ _ w f rfl (hfull (by decide) w)⟩

end Sys2Proof.Machine
end

section
/-! REFUTATION. O55 lets a snoop that times out leave the other snoops as they stand, but its record (R496) is itself a write of the device: where the
host holds the line of the error log that the record goes to, that write begins a snoop of its own (R188, R236). -/

namespace Sys2Proof.Machine

/-- The snoop of line 5, sent at cycle 0. -/
def SnoopedLog.snoop : Snoop := { line := 5, sent := 0, grp := 0, tid := 0, job := 0 }
/-- The error log stands at 4 KiB, the host caches its first line, and 10 ms have gone by. -/
def SnoopedLog.state : State :=
  { State.reset with
    clock := 13000000
    edge := { State.reset.edge with elbase := 4096, elsize := 64 }
    port := { State.reset.port with snooped := [64], snoops := [SnoopedLog.snoop] } }

theorem SnoopedLog.logFits : LogFits SnoopedLog.state where
  present := rfl
  fits := by decide
  canon := wf_nil
  count _ := by
    show 0 + 1 < 2 ^ 64
    decide
/-- The record's write snoops line 64. -/
theorem SnoopedLog.timed_out : (SnoopedLog.state.snoopTimeout 5).port.snoops = [{ line := 64, sent := 13000000, grp := 0, tid := 0, job := 0 }] := by
  decide
theorem SnoopedLog.exec_next : Sys2Proof.Machine.exec (.snoopTimeout 5) SnoopedLog.state = .next (SnoopedLog.state.snoopTimeout 5) :=
  finish_of_present (SnoopedLog.state.snoopTimeout 5) (by decide)

/-- Refutes O55: once the snoop of line 5 is over a snoop of the error log's line is on its way, where the statement leaves none. -/
theorem not_edgeEvents : ¬ Obligations.EdgeEvents := by
  unfold Obligations.EdgeEvents
  intro h
  obtain ⟨_, _, _, _, _, _, _, _, _, _, hsnoop, _⟩ := h SnoopedLog.state rfl
  obtain ⟨_, htimeout⟩ := hsnoop 5 SnoopedLog.snoop rfl
  obtain ⟨t, ht, hsnoops, _⟩ := htimeout (by decide) rfl SnoopedLog.logFits
  have hstate : SnoopedLog.state.snoopTimeout 5 = t := Host.Outcome.next.inj (SnoopedLog.exec_next.symm.trans ht)
  have hsnoop : (SnoopedLog.state.snoopTimeout 5).port.snoops = [] := (congrArg (·.port.snoops) hstate).trans hsnoops
  exact absurd (SnoopedLog.timed_out.symm.trans hsnoop) (by decide)

end Sys2Proof.Machine
end

section
/-! PROOF. LSNs are compared by serial arithmetic, and a stamp never moves backwards (R193, R194): O57. -/

namespace Sys2Proof.Machine

/-- The residue that `later` takes without leaving the naturals is R193's (s − q) mod 2³². -/
theorem serialResidue_eq {q : Nat} (s : Nat) (hq : q < 2 ^ 32) :
    (((s + 2 ^ 32 - q) % 2 ^ 32 : Nat) : Int) = ((s : Int) - q) % 2 ^ 32 := by
  omega

theorem later_iff_serialResidue {q : Nat} (s : Nat) (hq : q < 2 ^ 32) :
    later s q = true ↔ 1 ≤ ((s : Int) - q) % 2 ^ 32 ∧ ((s : Int) - q) % 2 ^ 32 ≤ 2 ^ 31 - 1 := by
  rw [← serialResidue_eq s hq, later, decide_eq_true_iff]
  omega

theorem serialResidue_eq_zero_iff {s q : Nat} (hs : s < 2 ^ 32) (hq : q < 2 ^ 32) : ((s : Int) - q) % 2 ^ 32 = 0 ↔ s = q := by
  omega

theorem later_irrefl {q : Nat} (hq : q < 2 ^ 32) : later q q = false := by
  rw [Bool.eq_false_iff, Ne, later_iff_serialResidue q hq, sub_self]
  decide

/-- The residues of (s, q) and (q, s) sum to 2³², so at most one of them is below 2³¹. -/
theorem later_asymm {s q : Nat} (hs : s < 2 ^ 32) (hq : q < 2 ^ 32) (h : later s q = true) : later q s = false := by
  rw [later_iff_serialResidue s hq] at h
  rw [Bool.eq_false_iff, Ne, later_iff_serialResidue q hs]
  omega

theorem not_later_laterOf {s q : Nat} (hs : s < 2 ^ 32) (hq : q < 2 ^ 32) : later q (laterOf s q) = false := by
  unfold laterOf
  split
  case isTrue hlater => exact later_asymm hs hq hlater
  case isFalse => exact later_irrefl hq

/-- Settles O57: R193's comparison, and R194's stamp by the asymmetry of that comparison. -/
theorem serialComparison : Obligations.SerialComparison := by
  unfold Obligations.SerialComparison
  intro s q hs hq
  exact ⟨later_iff_serialResidue s hq, serialResidue_eq_zero_iff hs hq, rfl, not_later_laterOf hs hq⟩

end Sys2Proof.Machine
end

section
/-! PROOF. The device right after reset (R250, R254, R436): O59. -/

namespace Sys2Proof

theorem Map.getD_nil {α : Type} (d : α) (k : Nat) : Map.getD [] d k = d := rfl

namespace Machine

/-- The part code stands in bits 31:16 of `MID`, above the stepping, whatever the stepping is (R254). -/
theorem State.bar0_partCode (s : State) : s.bar0 0x00 / 65536 = 0x8200 := by
  have hmid : s.bar0 0x00 = midWord := by simp only [State.bar0, ↓reduceIte]
  rw [hmid]
  unfold midWord
  omega

/-- The error counters lie above every other register of BAR 0, at 0x108 to 0x178, one for each class (R436). -/
theorem State.bar0_errorCounter (s : State) {n : Nat} (hlo : 1 ≤ n) (hhi : n ≤ 15) :
    s.bar0 (0x100 + 8 * n) = Map.getD s.edge.ecnt 0 n := by
  have hrange : 0x108 ≤ 0x100 + 8 * n ∧ 0x100 + 8 * n ≤ 0x178 ∧ (0x100 + 8 * n) % 8 = 0 := by omega
  have hclass : (0x100 + 8 * n - 0x100) / 8 = n := by omega
  simp (disch := omega) only [State.bar0, if_neg, if_pos hrange, hclass]

theorem State.thread?_of_groups_nil {s : State} (h : s.groups = []) (g t : Nat) : s.thread? g t = none := by
  simp only [State.thread?, State.group?, h, Map.get?, Option.bind_none]

theorem State.reset_memByte (a : Nat) : memByte State.reset.mem a = 0 := Map.getD_nil 0 a

theorem State.reset_errorCounter {n : Nat} (hlo : 1 ≤ n) (hhi : n ≤ 15) : State.reset.bar0 (0x100 + 8 * n) = 0 :=
  (State.reset.bar0_errorCounter hlo hhi).trans (Map.getD_nil 0 n)

theorem State.reset_lineTs (line : Nat) : Map.getD State.reset.port.ts {} line = { wts := 0, rts := 0, lease := 64 } :=
  Map.getD_nil (α := LineTs) {} line

/-- The registers of BAR 0 below the error counters whose reset value is 0 (R254, R436). -/
theorem State.reset_zeroRegisters :
    ∀ off ∈ [0x08, 0x10, 0x18, 0x30, 0x38, 0x40, 0x48, 0x50, 0x80, 0x88, 0x90, 0x98, 0xA0], State.reset.bar0 off = 0 := by
  decide

/-- Settles O59: memory and timestamps are tables with nothing listed, BAR 0 is read register by register. -/
theorem resetState : Obligations.ResetState := by
  unfold Obligations.ResetState
  have hplim : State.reset.bar0 0x20 = 3600 := by decide
  have hthreads : ∀ g t, State.reset.thread? g t = none := State.thread?_of_groups_nil rfl
  exact ⟨wf_nil, State.reset_memByte, rfl, rfl, rfl, rfl, rfl, rfl, rfl, hthreads, State.reset.bar0_partCode, hplim, State.reset_zeroRegisters,
    fun _ => State.reset_errorCounter, rfl, State.reset_lineTs⟩

end Machine

end Sys2Proof
end

section
/-! PROOF. The opcode tables (R259, R271). -/

namespace Sys2Proof

/-! ### Full opcodes -/

/-- A row gives, of any fields, the instruction that has its opcode, those fields, and the variant that S and EXT select. -/
structure RowEncodes (e : Nat × (Full → Instr)) : Prop where
  lt : e.1 < 2 ^ 9
  full_eq : ∀ f, fullOf (e.2 f) = some (e.1, f)
  variant_ok : ∀ f, variantOk (e.2 f) = true

/-- A row with two variants between which a field chooses. -/
theorem rowEncodes_ite {op : Nat} {p : Full → Prop} [DecidablePred p] {x y : Full → Instr} (hop : op < 2 ^ 9)
    (hx : ∀ f, fullOf (x f) = some (op, f)) (hy : ∀ f, fullOf (y f) = some (op, f))
    (vx : ∀ f, p f → variantOk (x f) = true) (vy : ∀ f, ¬ p f → variantOk (y f) = true) :
    RowEncodes (op, fun f => if p f then x f else y f) := by
  refine ⟨hop, fun f => ?_, fun f => ?_⟩
  · dsimp only
    split
    · exact hx f
    · exact hy f
  · dsimp only
    split
    · exact vx f ‹_›
    · exact vy f ‹_›
theorem rowEncodes_bySet {op : Nat} {x y : Full → Instr} (hop : op < 2 ^ 9)
    (hx : ∀ f, fullOf (x f) = some (op, f)) (hy : ∀ f, fullOf (y f) = some (op, f))
    (vx : ∀ f, variantOk (x f) = f.s) (vy : ∀ f, variantOk (y f) = !f.s) : RowEncodes (op, fun f => if f.s then x f else y f) :=
  rowEncodes_ite hop hx hy (fun f h => (vx f).trans h) fun f h => by simpa [vy f] using h

/-- The three forms of `pmov` (R301). -/
theorem rowEncodes_pmov : RowEncodes (0x099, fun f => if f.s then (if f.ext = 1 then .pmovSet f else .pmovGet f) else .pmov f) := by
  refine rowEncodes_ite (by decide) (fun f => ?_) (fun _ => rfl) (fun f hs => ?_) (fun f hs => by simpa [variantOk] using hs)
  · exact (apply_ite fullOf _ _ _).trans (ite_self _)
  · split <;> simp_all [variantOk]

/-- Every row of the tables; what evaluation alone does not settle are the rows with variants. -/
theorem opTables_encode : ∀ e ∈ opTable0 ++ opTable1 ++ opTable2 ++ opTable3 ++ opTable4 ++ opTable5, RowEncodes e := by
  simp only [opTable0, opTable1, opTable2, opTable3, opTable4, opTable5, List.forall_mem_append, List.forall_mem_cons, List.not_mem_nil,
    false_imp_iff, implies_true, and_true]
  and_intros
  any_goals exact ⟨by decide, fun _ => rfl, fun _ => rfl⟩
  any_goals exact rowEncodes_bySet (by decide) (fun _ => rfl) (fun _ => rfl) (fun _ => rfl) (fun _ => rfl)
  exact rowEncodes_pmov

theorem ofOp_of_fullOf {i : Instr} {op : Nat} {f : Full} (h : fullOf i = some (op, f)) (hv : variantOk i = true) : ofOp op f = some i := by
  cases i with
  | cvt src f => cases src <;> cases h <;> rfl
  | ld w f | st w f | lds w f | sts w f | ldsG w f | stsG w f => cases w <;> cases h <;> rfl
  | btxIn f | tld f | tzero f | mrst f | accmv f | permxTAdd f => cases h; exact congrArg some (if_neg (by simpa [variantOk] using hv))
  | btxOut f | tldPl f | tzeroPl f | mrstOff f | accmvT f | permxT f => cases h; exact congrArg some (if_pos hv)
  | pmov f => cases h; exact congrArg some (if_neg (by simpa [variantOk] using hv))
  | pmovGet f =>
    obtain ⟨hs, hext⟩ : f.s = true ∧ f.ext ≠ 1 := by simpa [variantOk] using hv
    cases h; exact congrArg some ((if_pos hs).trans (if_neg hext))
  | pmovSet f =>
    obtain ⟨hs, hext⟩ : f.s = true ∧ f.ext = 1 := by simpa [variantOk] using hv
    cases h; exact congrArg some ((if_pos hs).trans (if_pos hext))
  | _ => cases h <;> rfl
theorem fullOf_of_compactOf {i : Instr} {w : CompactWord} (h : compactOf i = some w) : fullOf i = none := by
  cases i <;> cases h <;> rfl
/-- An opcode's instruction stands in a row of the tables. -/
theorem ofOp_row {op : Nat} {f : Full} {i : Instr} (h : ofOp op f = some i) : ∃ e, RowEncodes e ∧ e.1 = op ∧ e.2 f = i := by
  obtain ⟨e, he, rfl⟩ := Option.map_eq_some_iff.1 h
  refine ⟨e, opTables_encode e ?_, by simpa using List.find?_some he, rfl⟩
  have hmem := List.mem_of_find?_eq_some he
  split_ifs at hmem <;> simp [hmem]
/-- The table and `fullOf` are the two directions of one correspondence. -/
theorem ofOp_eq_some_iff {op : Nat} {f : Full} {i : Instr} : ofOp op f = some i ↔ fullOf i = some (op, f) ∧ variantOk i = true := by
  refine ⟨fun h => ?_, fun ⟨hfull, hv⟩ => ofOp_of_fullOf hfull hv⟩
  obtain ⟨e, he, rfl, rfl⟩ := ofOp_row h
  exact ⟨he.full_eq f, he.variant_ok f⟩
theorem ofOp_lt {op : Nat} {f : Full} {i : Instr} (h : ofOp op f = some i) : op < 2 ^ 9 := by
  obtain ⟨e, he, rfl, _⟩ := ofOp_row h
  exact he.lt

/-! ### Compact opcodes -/

/-- Entry k of the table gives, of any fields, the instruction that has compact opcode k and those fields. -/
theorem compactOf_copTable (f : Compact) : copTable.map (fun c => compactOf (c f)) = (List.range 48).map fun k => some ⟨BitVec.ofNat 6 k, f⟩ := by
  obtain ⟨sub, i, a, d, gn, g⟩ := f
  cases i <;> rfl
theorem variantOk_copTable (f : Compact) : ∀ c ∈ copTable, variantOk (c f) = true := by
  obtain ⟨sub, i, a, d, gn, g⟩ := f
  have h : copTable.map (fun c => variantOk (c ⟨sub, i, a, d, gn, g⟩)) = List.replicate 48 true := by cases i <;> rfl
  intro c hc
  exact List.eq_of_mem_replicate (h ▸ List.mem_map_of_mem hc)
theorem ofCop_of_compactOf {i : Instr} {w : CompactWord} (h : compactOf i = some w) (hv : variantOk i = true) : ofCop w = some i := by
  cases i with
  | movCompact c => cases h; exact congrArg some (if_neg (by simpa [variantOk] using hv))
  | moviCompact c => cases h; exact congrArg some (if_pos hv)
  | _ => cases h <;> rfl
theorem ofCop_eq_some_iff {w : CompactWord} {i : Instr} : ofCop w = some i ↔ compactOf i = some w ∧ variantOk i = true := by
  refine ⟨fun h => ?_, fun ⟨hcop, hv⟩ => ofCop_of_compactOf hcop hv⟩
  obtain ⟨c, hc, rfl⟩ := Option.map_eq_some_iff.1 h
  refine ⟨?_, variantOk_copTable w.f c (List.mem_of_getElem? hc)⟩
  have hk : w.cop.toNat < 48 := (List.getElem?_eq_some_iff.1 hc).1
  have hrow := congrArg (·[w.cop.toNat]?) (compactOf_copTable w.f)
  simpa [hc, hk] using hrow

end Sys2Proof
end

section
/-! PROOF. Parcels and the fields they hold (R255, R257, R261 to R263). -/

namespace Sys2Proof

theorem getLsbD_append_high {v w n : Nat} (x : BitVec v) (y : BitVec w) (h : w ≤ n) : (x ++ y).getLsbD n = x.getLsbD (n - w) := by
  rw [BitVec.getLsbD_append, if_neg (by omega)]
theorem getLsbD_append_low {v w n : Nat} (x : BitVec v) (y : BitVec w) (h : n < w) : (x ++ y).getLsbD n = y.getLsbD n := by
  rw [BitVec.getLsbD_append, if_pos h]
theorem ofBool_getLsbD {w : Nat} (x : BitVec w) (n : Nat) : BitVec.ofBool (x.getLsbD n) = x.extractLsb' n 1 := by
  ext k hk
  obtain rfl : k = 0 := by omega
  simp
/-- A number and its two halves. -/
theorem append_halves (x : BitVec 64) : x.extractLsb' 32 32 ++ x.extractLsb' 0 32 = x :=
  (BitVec.extractLsb'_append_extractLsb'_eq_extractLsb' rfl).trans BitVec.extractLsb'_eq_self

/-! ### The length field (R255) -/

theorem length_cases : ∀ l : BitVec 2, l = 0#2 ∨ l = 1#2 ∨ 2 ≤ l.toNat := by decide
theorem two_le_length_iff {p : Word} : 2 ≤ (p.extractLsb' 0 2).toNat ↔ p.getLsbD 1 = true := by
  have h : ∀ l : BitVec 2, 2 ≤ l.toNat ↔ l.getLsbD 1 = true := by decide
  rw [h, BitVec.getLsbD_extractLsb']; simp
theorem parcelsOf_compact {p : Word} (h : p.extractLsb' 0 2 = 0#2) : parcelsOf p = 1 := by simp only [parcelsOf, h]; rfl
theorem parcelsOf_pair {p : Word} (h : p.extractLsb' 0 2 = 1#2) : parcelsOf p = 2 := by simp only [parcelsOf, h]; rfl
theorem parcelsOf_full {p : Word} (h : 2 ≤ (p.extractLsb' 0 2).toNat) : parcelsOf p = if p.getLsbD 0 then 3 else 2 := by
  have hbit : p.getLsbD 0 = (p.extractLsb' 0 2).getLsbD 0 := by simp
  have hlen : ∀ l : BitVec 2, 2 ≤ l.toNat → l = 2#2 ∨ l = 3#2 := by decide
  obtain h2 | h3 := hlen _ h
  · rw [hbit, parcelsOf, h2]; rfl
  · rw [hbit, parcelsOf, h3]; rfl

/-! ### The compact format -/

theorem CompactWord.parcel_length (w : CompactWord) (l : BitVec 2) : (w.parcel l).extractLsb' 0 2 = l := BitVec.extractLsb'_append_eq_right
theorem compactOfParcel_parcel (w : CompactWord) (l : BitVec 2) : compactOfParcel (w.parcel l) = w := by
  simp (disch := decide) only [compactOfParcel, CompactWord.parcel, BitVec.extractLsb'_append_eq_of_le, BitVec.extractLsb'_append_eq_of_add_le,
    getLsbD_append_low, getLsbD_append_high]
  simp
/-- The fields and the length cover the parcel (R257). -/
theorem parcel_compactOfParcel {p : Word} {l : BitVec 2} (h : p.extractLsb' 0 2 = l) : (compactOfParcel p).parcel l = p := by
  subst h
  simp only [compactOfParcel, CompactWord.parcel, ofBool_getLsbD, BitVec.extractLsb'_append_extractLsb'_eq_extractLsb', BitVec.extractLsb'_eq_self]

/-! ### The full formats -/

/-- Bit 1 of the first parcel is set (R255). -/
theorem Raw.bits_full (r : Raw) : (r.bits.extractLsb' 0 32).getLsbD 1 = true := by
  have h : r.bits.getLsbD 1 = true := (getLsbD_append_low _ _ (by decide)).trans (getLsbD_append_high _ _ (by decide))
  simpa using h
theorem rawOfParcels_bits {r : Raw} (hlit : r.long = false → r.lit = 0) :
    rawOfParcels (r.bits.extractLsb' 0 32) (r.bits.extractLsb' 32 32) r.lit = r := by
  have hlitOf : (if r.long = true then r.lit else 0#32) = r.lit := by
    cases hl : r.long
    · exact (hlit hl).symm
    · rfl
  simp only [rawOfParcels, append_halves]
  simp (disch := decide) only [Raw.bits, BitVec.extractLsb'_append_eq_of_le, BitVec.extractLsb'_append_eq_of_add_le,
    getLsbD_append_low, getLsbD_append_high]
  simp [hlitOf]
/-- The fields and the two bits of the length cover the first two parcels (R261). -/
theorem bits_rawOfParcels {p0 : Word} (p1 p2 : Word) (h : p0.getLsbD 1 = true) : (rawOfParcels p0 p1 p2).bits = p1 ++ p0 := by
  have hone : 1#1 = (p1 ++ p0).extractLsb' 1 1 := by
    rw [← ofBool_getLsbD, getLsbD_append_low _ _ (by decide), h]; rfl
  simp only [rawOfParcels, Raw.bits, hone, ofBool_getLsbD, BitVec.extractLsb'_append_extractLsb'_eq_extractLsb', BitVec.extractLsb'_eq_self]

/-! ### The fields of a full instruction and the raw fields -/

theorem Ty.ofCode_code (t : Ty) : Ty.ofCode (t.code % 16) = t := by cases t <;> rfl
theorem Ty.code_ofCode : ∀ n : BitVec 4, BitVec.ofNat 4 (Ty.ofCode n.toNat).code = n := by decide

theorem Full.raw_op (op : Nat) (f : Full) : (f.raw op).op = BitVec.ofNat 9 op := by
  unfold Full.raw; split <;> rfl
theorem Full.raw_full (op : Nat) (f : Full) : (f.raw op).full = f := by
  obtain ⟨g, gn, d, a, b, c, ty, mod, pd, ext, s⟩ := f
  cases b <;> simp [Full.raw, Raw.full, Raw.bform, Ty.ofCode_code]
theorem Full.raw_lit {op : Nat} {f : Full} : (f.raw op).long = false → (f.raw op).lit = 0 := by
  unfold Full.raw; split <;> simp
/-- A literal leaves B and IB 0, and without one there is no third parcel: then no raw field is lost in the fields of the instruction. -/
theorem Raw.full_raw {r : Raw} (hb : r.long = true → r.b = 0 ∧ r.ib = false) (hlit : r.long = false → r.lit = 0) :
    r.full.raw r.op.toNat = r := by
  obtain ⟨op, g, gn, d, a, b, c, ty, mod, pd, ib, ext, s, long, lit⟩ := r
  cases long
  · obtain rfl : lit = 0 := hlit rfl
    cases ib <;> simp [Raw.full, Full.raw, Raw.bform, Ty.code_ofCode]
  · obtain ⟨rfl, rfl⟩ : b = 0 ∧ ib = false := hb rfl
    simp [Raw.full, Full.raw, Raw.bform, Ty.code_ofCode]

theorem BUse.b_of_long {u : BUse} {r : Raw} (h : u.reasons r = []) (hl : r.long = true) : r.b = 0 ∧ r.ib = false := by
  unfold BUse.reasons at h
  rw [hl] at h
  split at h
  · exact of_not_not fun hne => by rw [if_neg hne] at h; cases h
  · cases h
/-- In a legal long encoding B and IB are 0 (R263, R457). -/
theorem Raw.b_of_long {r : Raw} (h : r.reasons = []) (hl : r.long = true) : r.b = 0 ∧ r.ib = false := by
  unfold Raw.reasons at h
  split at h
  · cases h
  · next sh _ =>
    simp only [List.append_eq_nil_iff] at h
    obtain ⟨⟨⟨⟨⟨⟨_, hb⟩, _⟩, _⟩, _⟩, _⟩, _⟩ := h
    exact BUse.b_of_long hb hl
theorem lit_rawOfParcels (p0 p1 p2 : Word) : (rawOfParcels p0 p1 p2).long = false → (rawOfParcels p0 p1 p2).lit = 0 := by
  intro h
  exact if_neg (by simpa [rawOfParcels] using h)

/-! ### What the decoder answers, format by format -/

theorem lowest?_eq_none_iff {l : List Nat} : lowest? l = none ↔ l = [] := by cases l <;> simp [lowest?]
theorem Raw.reason?_eq_none_iff {r : Raw} : r.reason? = none ↔ r.reasons = [] := by
  unfold Raw.reason?; split <;> simp_all

theorem decode_compact_eq_ok_iff {b : Bool} {p0 p1 p2 : Word} {i : Instr} (h : p0.extractLsb' 0 2 = 0#2) :
    decode b p0 p1 p2 = .ok i ↔ (compactOfParcel p0).reasons = [] ∧ ofCop (compactOfParcel p0) = some i := by
  rw [← lowest?_eq_none_iff]
  simp only [decode, h]
  cases lowest? (compactOfParcel p0).reasons <;> cases ofCop (compactOfParcel p0) <;> simp
theorem decode_pair_eq_ok_iff {b : Bool} {p0 p1 p2 : Word} {i : Instr} (h : p0.extractLsb' 0 2 = 1#2) :
    decode b p0 p1 p2 = .ok i ↔ b = false ∧ p1.extractLsb' 0 2 = 0#2 ∧ pairReasons (compactOfParcel p0) (compactOfParcel p1) = [] ∧
      i = .compactPair (compactOfParcel p0) (compactOfParcel p1) := by
  cases b
  · by_cases hsecond : p1.extractLsb' 0 2 = 0#2
    · simp only [decode, h, hsecond]
      cases hl : pairReasons (compactOfParcel p0) (compactOfParcel p1) <;> simp [lowest?, eq_comm]
    · simp [decode, h, hsecond, lowest?]
  · simp [decode, h, lowest?]
theorem decode_full_eq_ok_iff {b : Bool} {p0 p1 p2 : Word} {i : Instr} (h : 2 ≤ (p0.extractLsb' 0 2).toNat) :
    decode b p0 p1 p2 = .ok i ↔ (rawOfParcels p0 p1 p2).reasons = [] ∧
      ofOp (rawOfParcels p0 p1 p2).op.toNat (rawOfParcels p0 p1 p2).full = some i := by
  rw [← Raw.reason?_eq_none_iff]
  obtain ⟨n, hn⟩ : ∃ n, (p0.extractLsb' 0 2).toNat = n + 2 := ⟨_, (Nat.sub_add_cancel h).symm⟩
  simp only [decode, hn]
  cases (rawOfParcels p0 p1 p2).reason? <;> cases ofOp (rawOfParcels p0 p1 p2).op.toNat (rawOfParcels p0 p1 p2).full <;> simp

/-! ### What the encoder writes, format by format -/

/-- The three formats and their steps. -/
theorem isInstr_iff {i : Instr} : i.isInstr = true ↔
    (∃ op f, fullOf i = some (op, f)) ∨ (∃ w, compactOf i = some w) ∨ ∃ x y, i = .compactPair x y := by
  simp only [Instr.isInstr, Bool.or_eq_true, Option.isSome_iff_exists, Prod.exists, or_assoc]
  refine or_congr_right (or_congr_right ?_)
  split <;> simp_all
theorem encode_of_fullOf {i : Instr} {op : Nat} {f : Full} (h : fullOf i = some (op, f)) :
    encode i = [(f.raw op).bits.extractLsb' 0 32, (f.raw op).bits.extractLsb' 32 32] ++ if (f.raw op).long then [(f.raw op).lit] else [] := by
  simp only [encode, h]
theorem reasons_of_fullOf {i : Instr} {op : Nat} {f : Full} (h : fullOf i = some (op, f)) : i.reasons = (f.raw op).reasons := by
  simp only [Instr.reasons, h]
theorem encode_of_compactOf {i : Instr} {w : CompactWord} (h : compactOf i = some w) : encode i = [w.parcel 0] := by
  simp only [encode, fullOf_of_compactOf h, h]
theorem reasons_of_compactOf {i : Instr} {w : CompactWord} (h : compactOf i = some w) : i.reasons = w.reasons := by
  simp only [Instr.reasons, fullOf_of_compactOf h, h]

/-! ### The round trip, format by format -/

theorem decodeParcels_encode_full {i : Instr} {op : Nat} {f : Full} (h : fullOf i = some (op, f)) (hw : WellFormed i) :
    decodeParcels (encode i) = .ok i := by
  obtain ⟨hreasons, hvariant⟩ := hw
  have hof : ofOp op f = some i := ofOp_eq_some_iff.2 ⟨h, hvariant⟩
  have hop : (f.raw op).op.toNat = op := by
    rw [Full.raw_op, BitVec.toNat_ofNat, Nat.mod_eq_of_lt (ofOp_lt hof)]
  have hp2 : parcelAt (encode i) 2 = (f.raw op).lit := by
    rw [encode_of_fullOf h]
    cases hl : (f.raw op).long
    · exact (Full.raw_lit hl).symm
    · rfl
  have hraw : rawOfParcels (parcelAt (encode i) 0) (parcelAt (encode i) 1) (parcelAt (encode i) 2) = f.raw op := by
    rw [hp2, encode_of_fullOf h]
    exact rawOfParcels_bits Full.raw_lit
  refine (decode_full_eq_ok_iff ?_).2 ?_
  · rw [encode_of_fullOf h]
    exact two_le_length_iff.2 (Raw.bits_full _)
  · rw [hraw, Full.raw_full, hop, ← reasons_of_fullOf h]
    exact ⟨hreasons, hof⟩
theorem decodeParcels_encode_compact {i : Instr} {w : CompactWord} (h : compactOf i = some w) (hw : WellFormed i) :
    decodeParcels (encode i) = .ok i := by
  obtain ⟨hreasons, hvariant⟩ := hw
  rw [encode_of_compactOf h]
  refine (decode_compact_eq_ok_iff (w.parcel_length 0)).2 ?_
  show (compactOfParcel (w.parcel 0)).reasons = [] ∧ ofCop (compactOfParcel (w.parcel 0)) = some i
  rw [compactOfParcel_parcel, ← reasons_of_compactOf h, ofCop_eq_some_iff]
  exact ⟨hreasons, h, hvariant⟩
theorem decodeParcels_encode_pair {x y : CompactWord} (hw : WellFormed (.compactPair x y)) :
    decodeParcels (encode (.compactPair x y)) = .ok (.compactPair x y) := by
  refine (decode_pair_eq_ok_iff (x.parcel_length 1)).2 ⟨rfl, y.parcel_length 0, ?_⟩
  show pairReasons (compactOfParcel (x.parcel 1)) (compactOfParcel (y.parcel 0)) = [] ∧
    Instr.compactPair x y = .compactPair (compactOfParcel (x.parcel 1)) (compactOfParcel (y.parcel 0))
  rw [compactOfParcel_parcel, compactOfParcel_parcel]
  exact ⟨hw.1, rfl⟩

/-- Settles O41: each of the three formats comes back from its own parcels. -/
theorem decodeEncodeRoundTrip : Obligations.DecodeEncodeRoundTrip := by
  unfold Obligations.DecodeEncodeRoundTrip
  intro i hi hw
  obtain ⟨op, f, h⟩ | ⟨w, h⟩ | ⟨x, y, rfl⟩ := isInstr_iff.1 hi
  · exact decodeParcels_encode_full h hw
  · exact decodeParcels_encode_compact h hw
  · exact decodeParcels_encode_pair hw

/-! ### Decoded parcels, format by format -/

theorem decode_compact_sound {b : Bool} {p0 p1 p2 : Word} {i : Instr} (hlen : p0.extractLsb' 0 2 = 0#2) (h : decode b p0 p1 p2 = .ok i) :
    i.isInstr = true ∧ WellFormed i ∧ encode i = [p0, p1, p2].take (parcelsOf p0) := by
  obtain ⟨hreasons, hof⟩ := (decode_compact_eq_ok_iff hlen).1 h
  obtain ⟨hcop, hvariant⟩ := ofCop_eq_some_iff.1 hof
  refine ⟨isInstr_iff.2 (.inr (.inl ⟨_, hcop⟩)), ⟨(reasons_of_compactOf hcop).trans hreasons, hvariant⟩, ?_⟩
  rw [encode_of_compactOf hcop, parcelsOf_compact hlen, parcel_compactOfParcel (l := 0) hlen]; rfl
theorem decode_pair_sound {b : Bool} {p0 p1 p2 : Word} {i : Instr} (hlen : p0.extractLsb' 0 2 = 1#2) (h : decode b p0 p1 p2 = .ok i) :
    i.isInstr = true ∧ WellFormed i ∧ encode i = [p0, p1, p2].take (parcelsOf p0) := by
  obtain ⟨_, hsecond, hreasons, rfl⟩ := (decode_pair_eq_ok_iff hlen).1 h
  refine ⟨isInstr_iff.2 (.inr (.inr ⟨_, _, rfl⟩)), ⟨hreasons, rfl⟩, ?_⟩
  show [(compactOfParcel p0).parcel 1, (compactOfParcel p1).parcel 0] = _
  rw [parcelsOf_pair hlen, parcel_compactOfParcel (l := 1) hlen, parcel_compactOfParcel (l := 0) hsecond]; rfl
theorem decode_full_sound {b : Bool} {p0 p1 p2 : Word} {i : Instr} (hlen : 2 ≤ (p0.extractLsb' 0 2).toNat) (h : decode b p0 p1 p2 = .ok i) :
    i.isInstr = true ∧ WellFormed i ∧ encode i = [p0, p1, p2].take (parcelsOf p0) := by
  obtain ⟨hreasons, hof⟩ := (decode_full_eq_ok_iff hlen).1 h
  obtain ⟨hfull, hvariant⟩ := ofOp_eq_some_iff.1 hof
  have hraw := Raw.full_raw (Raw.b_of_long hreasons) (lit_rawOfParcels p0 p1 p2)
  refine ⟨isInstr_iff.2 (.inl ⟨_, _, hfull⟩), ⟨(reasons_of_fullOf hfull).trans ((congrArg Raw.reasons hraw).trans hreasons), hvariant⟩, ?_⟩
  have hx : (rawOfParcels p0 p1 p2).bits = p1 ++ p0 := bits_rawOfParcels p1 p2 (two_le_length_iff.1 hlen)
  have hlong : (rawOfParcels p0 p1 p2).long = p0.getLsbD 0 := getLsbD_append_low p1 p0 (by decide)
  have hlit : p0.getLsbD 0 = true → (rawOfParcels p0 p1 p2).lit = p2 := fun hl => if_pos ((getLsbD_append_low p1 p0 (by decide)).trans hl)
  have hlo : (p1 ++ p0).extractLsb' 0 32 = p0 := BitVec.extractLsb'_append_eq_right
  have hhi : (p1 ++ p0).extractLsb' 32 32 = p1 := BitVec.extractLsb'_append_eq_left
  rw [encode_of_fullOf hfull, hraw, hx, hlong, hlo, hhi, parcelsOf_full hlen]
  cases hl : p0.getLsbD 0
  · rfl
  · rw [hlit hl]; rfl

/-- Settles O42: the fields and the length of each format cover its parcels. -/
theorem decodedParcelsAreEncoded : Obligations.DecodedParcelsAreEncoded := by
  unfold Obligations.DecodedParcelsAreEncoded
  intro b p0 p1 p2 i h
  obtain hlen | hlen | hlen : p0.extractLsb' 0 2 = 0#2 ∨ p0.extractLsb' 0 2 = 1#2 ∨ 2 ≤ (p0.extractLsb' 0 2).toNat := length_cases _
  · exact decode_compact_sound hlen h
  · exact decode_pair_sound hlen h
  · exact decode_full_sound hlen h

/-- Settles O44: the fields of each word, read out, are those of its instruction, and none breaks a condition of R457. -/
theorem specWordsDecode : Obligations.SpecWordsDecode := by
  unfold Obligations.SpecWordsDecode
  exact ⟨(decode_full_eq_ok_iff (by decide)).2 ⟨by decide, rfl⟩, (decode_compact_eq_ok_iff rfl).2 ⟨by decide, rfl⟩,
    (decode_compact_eq_ok_iff rfl).2 ⟨by decide, rfl⟩⟩

end Sys2Proof
end

section
/-! REFUTATION. O39 asks the plan of a pair of every step that has a compact word, also of one that no parcel decodes to: `movCompact` with the
immediate flag set, whose word is that of `movi` (R258). Alone it copies the register its fields then name, v0; the plan of its word gives the immediate. -/

namespace Sys2Proof.Machine

/-- `mov` to v5 with the immediate 12: `variantOk` refuses it as `movCompact`, whose flag is to be clear. -/
def FlaggedMov.fields : Compact := { sub := 0, i := true, a := 12, d := 5, gn := false, g := 7 }
def FlaggedMov.word : CompactWord := ⟨1, FlaggedMov.fields⟩
/-- It is issued over the one thread, whose registers are all 0. -/
def FlaggedMov.state : State := { OneBuffer.state {} with issue := some { core := 0, refs := [(2, 0)], pc := 0, len := 4 } }
/-- v5 of the thread afterwards. -/
def FlaggedMov.v5 : Host.Outcome State Fault Refusal → Option Nat
  | .next t => (t.thread? 2 0).map (·.v 5)
  | _ => none

theorem FlaggedMov.v5_alone : FlaggedMov.v5 (Sys2Proof.Machine.exec (.movCompact FlaggedMov.fields) FlaggedMov.state) = some 0 := by decide
theorem FlaggedMov.v5_inPair : FlaggedMov.v5 (issueAll FlaggedMov.word.full.1 FlaggedMov.word.full.2
    (fun s rs => (s, pairPlan FlaggedMov.word s rs)) FlaggedMov.state) = some 12 := by decide

/-- Refutes O39: a `movCompact` with the immediate flag set copies v0, where the plan of its word gives the immediate 12. -/
theorem not_pairResults : ¬ Obligations.PairResults := by
  unfold Obligations.PairResults
  intro h
  obtain ⟨halone, _, _⟩ := h
  have hexec := halone (.movCompact FlaggedMov.fields) FlaggedMov.word rfl (by decide) FlaggedMov.state
  have hv5 := FlaggedMov.v5_alone.symm.trans ((congrArg FlaggedMov.v5 hexec).trans FlaggedMov.v5_inPair)
  exact absurd hv5 (by decide)

end Sys2Proof.Machine
end

section
/-! SUPPORT. Instructions that each thread executes by itself, in their full and compact forms (R258, R259): O1 to O8 and O12. -/

namespace Sys2Proof.Machine

/-- An instruction whose plan is done in every thread, with a result of that thread's operands alone. -/
theorem eachGives_plan {i : Instr} {op : Nat} {f : Full} {res : State → Ref → TRes} (plan : State → Ref → TOut)
    (hplan : ∀ s r, plan s r = .done (res s r) := by intros; rfl) (hexec : Sys2Proof.Machine.exec i = issueEach op f plan := by rfl)
    (hop : op ≠ 0x0A6 := by decide) (hal : ∀ s (gs : Sparse Group) r, res { s with groups := gs } r = res s r := by intros; rfl) :
    EachGives i op f res := eachGives_of hexec hop hplan hal

/-- The same for the full and the compact form of an instruction, which have one plan (R258, R259). -/
theorem bothGive_plan {full : Full → Instr} {cop : BitVec 6} {compact : Compact → Instr} {op : Nat} {res : Full → State → Ref → TRes}
    (plan : Full → State → Ref → TOut) (hplan : ∀ f s r, plan f s r = .done (res f s r) := by intros; rfl)
    (hfull : ∀ f, Sys2Proof.Machine.exec (full f) = issueEach op f (plan f) := by intros; rfl)
    (hcompact : ∀ c, Sys2Proof.Machine.exec (compact c) = issueEach op (cfull cop c).2 (plan (cfull cop c).2) := by intros; rfl)
    (hop : op ≠ 0x0A6 := by decide) (hal : ∀ f s (gs : Sparse Group) r, res f { s with groups := gs } r = res f s r := by intros; rfl) :
    BothForms full cop compact fun i f => EachGives i op f (res f) :=
  ⟨fun f => eachGives_plan (plan f) (hplan f) (hfull f) hop (hal f),
    fun c => eachGives_plan (plan (cfull cop c).2) (hplan _) (hcompact c) hop (hal _)⟩

end Sys2Proof.Machine
end

section
/-! PROOF. Integer arithmetic (R152, R278): O1. -/

namespace Sys2Proof.Machine

/-- The quotient of R152. -/
theorem divRem_fst (t : Ty) (a b : Int) :
    (divRem t a b).1 = if b = 0 then -1 else if t.signed ∧ a = minVal t ∧ b = -1 then a else Int.tdiv a b := by
  unfold divRem
  split
  · rfl
  · split <;> rfl
/-- The remainder of R152 is what the quotient leaves. -/
theorem divRem_snd (t : Ty) (a b : Int) :
    (divRem t a b).2 = if b = 0 then a else if t.signed ∧ a = minVal t ∧ b = -1 then 0 else a - Int.tdiv a b * b := by
  unfold divRem
  split
  · rfl
  · split
    · rfl
    · rw [Int.mul_comm, ← Int.tmod_def]

/-- Settles O1: each plan writes the result of its statement; only the remainder is computed in another way than it is stated. -/
theorem integerArithmeticResults : Obligations.IntegerArithmeticResults := by
  unfold Obligations.IntegerArithmeticResults
  refine ⟨bothGive_plan planIadd, bothGive_plan planIsub, fun f => eachGives_plan (planIaddc f), fun f => eachGives_plan (planIsubb f),
    bothGive_plan planImulLo, fun f => eachGives_plan (planImulHi f), fun f => eachGives_plan (planImulWide f),
    fun f => eachGives_plan (planImadLo f), fun f => eachGives_plan (planImadHi f), fun f => eachGives_plan (planImadWide f),
    fun f => eachGives_plan (planIdiv f) fun s r => ?_, fun f => eachGives_plan (planIrem f) fun s r => ?_,
    bothGive_plan planImin, bothGive_plan planImax, bothGive_plan planIabs, bothGive_plan planIneg⟩
  · exact congrArg (doneI f) (divRem_fst f.ty (s.ia r f) (s.ib r f))
  · exact congrArg (doneI f) (divRem_snd f.ty (s.ia r f) (s.ib r f))

end Sys2Proof.Machine
end

section
/-! PROOF. Integer compares, select and clamp (R279): O2. -/

namespace Sys2Proof.Machine

/-- Settles O2: a compare answers its relation as a Boolean; select and clamp are their plans. -/
theorem integerCompareSelectResults : Obligations.IntegerCompareSelectResults := by
  unfold Obligations.IntegerCompareSelectResults
  have compare (f : Full) (s : State) (r : Ref) {rel : Int → Int → Bool} {p : Prop} [Decidable p] (h : rel (s.ia r f) (s.ib r f) = decide p) :
      planIcmp rel f s r = .done (givesPred f (decide p)) := congrArg (donePred f) h
  exact ⟨fun f => eachGives_plan (planIcmp (· == ·) f) fun s r => compare f s r (Bool.beq_eq_decide_eq _ _),
    fun f => eachGives_plan (planIcmp (· != ·) f) fun s r => compare f s r decide_not.symm,
    fun f => eachGives_plan (planIcmp (fun a b => decide (a < b)) f), fun f => eachGives_plan (planIcmp (fun a b => decide (a ≤ b)) f),
    fun f => eachGives_plan (planIcmp (fun a b => decide (b < a)) f), fun f => eachGives_plan (planIcmp (fun a b => decide (b ≤ a)) f),
    fun f => eachGives_plan (planIsel f), fun f => eachGives_plan (planIclamp f)⟩

end Sys2Proof.Machine
end

section
/-! PROOF. Logic, shifts, bit fields and bit counts (R280): O3. -/

namespace Sys2Proof.Machine

/-- The two spellings of a bit of a number. -/
theorem bitN_beq_one (x k : Nat) : (bitN x k == 1) = x.testBit k := by
  rw [bitN, Nat.testBit_eq_decide_div_mod_eq, Bool.beq_eq_decide_eq]

/-- A bit field that is read is its low bits, with or without their sign; one of no bits is 0 (R280). -/
theorem planIbfx_eq (f : Full) (s : State) (r : Ref) :
    let (pos, len) := (bitsN (s.b32 r f.b) 7 0, min (bitsN (s.b32 r f.b) 15 8) f.ty.bits)
    let x := if pos < f.ty.bits then s.pa r f / 2 ^ pos % 2 ^ len else 0
    planIbfx f s r = .done (gives f (if len = 0 then 0 else if f.ty.signed then sextN x len else x)) := by
  unfold planIbfx State.count
  dsimp only
  split
  · rfl
  · split <;> rfl

/-- Settles O3: each plan writes the pattern of its statement. -/
theorem logicAndShiftResults : Obligations.LogicAndShiftResults := by
  unfold Obligations.LogicAndShiftResults
  refine ⟨bothGive_plan planIand, bothGive_plan planIor, bothGive_plan planIxor, bothGive_plan planInot,
    fun f => eachGives_plan (planIlop3 f) fun s r => ?_, bothGive_plan planIshl, bothGive_plan planIshrL, bothGive_plan planIshrA,
    bothGive_plan planIrot, fun f => eachGives_plan (planIbfx f) (planIbfx_eq f), fun f => eachGives_plan (planIbfi f),
    bothGive_plan planIpopc, bothGive_plan planIclz, bothGive_plan planIctz, bothGive_plan planIbrev⟩
  simp only [planIlop3, bitN_beq_one]
  rfl

end Sys2Proof.Machine
end

section
/-! PROOF. Device addresses put together and taken apart (R281, R83): O4. -/

namespace Sys2Proof.Machine

/-- An address advanced, by its parts (R83). -/
theorem addOff_ofNat (x : Nat) (d : Int) : addOff (BitVec.ofNat 64 x) d = mkAddr (x / 2 ^ 48) (truncI ((x % 2 ^ 48 : Nat) + d) 48) := by
  have hbuf : bufOf (BitVec.ofNat 64 x) = x / 2 ^ 48 % 2 ^ 16 := by rw [bufOf_eq, BitVec.toNat_ofNat]; omega
  have hoff : offOf (BitVec.ofNat 64 x) = x % 2 ^ 48 := by rw [offOf_eq, BitVec.toNat_ofNat]; omega
  apply BitVec.eq_of_toNat_eq
  rw [addOff, mkAddr_toNat, mkAddr_toNat, hbuf, hoff, Nat.mod_mod]

/-- Settles O4: `aadd` advances the offset alone; the others are their plans. -/
theorem addressInstructionResults : Obligations.AddressInstructionResults := by
  unfold Obligations.AddressInstructionResults
  exact ⟨fun f => eachGives_plan (planAmk f),
    bothGive_plan planAadd fun f s r => congrArg (fun a : Addr => doneWide f a.toNat) (addOff_ofNat (s.op64 r f.a.toNat) (sextN (s.b32 r f.b) 32)),
    fun f => eachGives_plan (planAoff f), fun f => eachGives_plan (planAhnd f)⟩

end Sys2Proof.Machine
end

section
/-! PROOF. Floating arithmetic (R155, R158, R282, R283): O5. -/

namespace Sys2Proof.Machine

/-- Settles O5: the full and the compact form of each instruction have one plan, which rounds with the flags of its statement. -/
theorem floatArithmeticResults : Obligations.FloatArithmeticResults := by
  unfold Obligations.FloatArithmeticResults
  exact ⟨bothGive_plan planFadd, bothGive_plan planFsub, bothGive_plan planFmul, fun f => eachGives_plan (planFfma f),
    fun f => eachGives_plan (planFdiv f), bothGive_plan planFsqrt, bothGive_plan planFrcp, bothGive_plan planFrsq, bothGive_plan planFmin,
    bothGive_plan planFmax, bothGive_plan planFabs, bothGive_plan planFneg⟩

end Sys2Proof.Machine
end

section
/-! PROOF. Floating compares with NaN operands (R284): O6. -/

namespace Sys2Proof.Machine

/-- A value that is no NaN signals nothing. -/
theorem sigFlg_of_not_nan {x : FVal} (h : x.isNaN = false) : sigFlg x = 0 := by
  cases x with
  | nan sig => cases h
  | inf => rfl
  | fin => rfl
/-- A compare of two numbers answers their relation, without a flag. -/
theorem planFcmp_of_numbers {rel : Int → Bool} {onNaN order : Bool} {f : Full} {s : State} {r : Ref}
    (h : ((s.fa r f).isNaN || (s.fb r f).isNaN) = false) :
    planFcmp rel onNaN order f s r = .done (givesPred f (rel (fCmp (s.fa r f) (s.fb r f)))) := by
  obtain ⟨ha, hb⟩ := Bool.or_eq_false_iff.1 h
  simp only [planFcmp, h, sigFlg_of_not_nan ha, sigFlg_of_not_nan hb]
  rfl
/-- A compare with a NaN has one answer, and sets invalid where it is an order or a NaN is signalling (R284). -/
theorem planFcmp_of_nan {rel : Int → Bool} {onNaN order : Bool} {f : Full} {s : State} {r : Ref}
    (h : ((s.fa r f).isNaN || (s.fb r f).isNaN) = true) :
    planFcmp rel onNaN order f s r =
      .done { givesPred f onNaN with flags := if order then flNV else sigFlg (s.fa r f) ||| sigFlg (s.fb r f) } := by
  simp only [planFcmp, h]
  rfl

/-- Settles O6: an order answers false to a NaN and signals any; the others signal a signalling one, and answer false or true to a NaN. -/
theorem floatCompareResults : Obligations.FloatCompareResults := by
  intro f nan quiet loud cmp
  have hloud {s : State} {r : Ref} {b : Bool} (h : nan s r = b) : loud s r = if b then flNV else 0 := by rw [← h]
  have hquiet {s : State} {r : Ref} {b : Bool} (h : nan s r = b) : quiet s r = if b then sigFlg (s.fa r f) ||| sigFlg (s.fb r f) else 0 := by rw [← h]
  have compare (onNaN ordered : Bool) (rel : Int → Bool) (s : State) (r : Ref) : planFcmp rel onNaN ordered f s r =
      .done { givesPred f (if nan s r then onNaN else rel (cmp s r)) with flags := if ordered then loud s r else quiet s r } := by
    cases h : nan s r with
    | true =>
      rw [hloud h, hquiet h]
      exact planFcmp_of_nan h
    | false =>
      rw [hloud h, hquiet h]
      exact (planFcmp_of_numbers h).trans (by cases ordered <;> rfl)
  have order (rel : Int → Bool) (s : State) (r : Ref) :
      planFcmp rel false true f s r = .done { givesPred f (!nan s r && rel (cmp s r)) with flags := loud s r } := by
    rw [compare, Bool.if_false_left, Bool.decide_eq_true, if_pos rfl]
  have orFalse (rel : Int → Bool) (s : State) (r : Ref) :
      planFcmp rel false false f s r = .done { givesPred f (!nan s r && rel (cmp s r)) with flags := quiet s r } := by
    rw [compare, Bool.if_false_left, Bool.decide_eq_true, if_neg Bool.false_ne_true]
  have orTrue (rel : Int → Bool) (s : State) (r : Ref) :
      planFcmp rel true false f s r = .done { givesPred f (nan s r || rel (cmp s r)) with flags := quiet s r } := by
    rw [compare, Bool.if_true_left, Bool.decide_eq_true, if_neg Bool.false_ne_true]
  refine ⟨eachGives_plan _ (orFalse fun c => c == 0), eachGives_plan _ fun s r => ?_, eachGives_plan _ (order fun c => decide (c < 0)),
    eachGives_plan _ (order fun c => decide (c ≤ 0)), eachGives_plan _ (order fun c => decide (0 < c)),
    eachGives_plan _ (order fun c => decide (0 ≤ c)), eachGives_plan _ fun s r => ?_, eachGives_plan _ fun s r => ?_, eachGives_plan (planFclass f)⟩
  · rw [decide_not]
    exact orTrue (fun c => c != 0) s r
  · rw [← Bool.or_false (nan s r)]
    exact orTrue (fun _ => false) s r
  · rw [← Bool.and_true (!nan s r)]
    exact orFalse (fun _ => true) s r

end Sys2Proof.Machine
end

section
/-! PROOF. Conversions, special functions and `act` (R168, R285 to R287): O7. -/

namespace Sys2Proof.Machine

/-- A group but for its threads is the same in states that are alike. -/
theorem Alike.group?_outline {s u : State} (h : Alike s u) (g : Nat) : (u.group? g).map Group.outline = (s.group? g).map Group.outline := by
  have hget (w : State) : Map.get? (w.groups.map fun e => (e.1, e.2.outline)) g = (w.group? g).map Group.outline :=
    Map.get?_map w.groups (fun e => (e.1, e.2.outline)) (fun _ => rfl) g
  rw [← hget u, ← hget s, h.outline]
/-- Which loads fill a bank of a core does not depend on how the threads stand (R170). -/
theorem Alike.bankLoading {s u : State} (h : Alike s u) (core bank : Nat) : u.bankLoading core bank = s.bankLoading core bank := by
  have hacc : u.accesses = s.accesses := by rw [h.eq]
  unfold State.bankLoading
  rw [hacc]
  congr 1
  funext a
  have hg := h.group?_outline a.grp
  cases hu : u.group? a.grp with
  | none =>
    rw [hu] at hg
    rw [Option.map_eq_none_iff.1 hg.symm]
  | some G =>
    rw [hu] at hg
    obtain ⟨H, hs, hH⟩ := Option.map_eq_some_iff.1 hg.symm
    have hcore : H.core = G.core := (congrArg Group.core hH :)
    rw [hs]
    cases a.kind <;> simp only [hcore]
/-- A type's conversion has an opcode of its own, and none is that of `sbra`. -/
theorem cvt_opcode (src : Ty) : 0x060 + src.code ≠ 0x0A6 := by cases src <;> decide

/-- Settles O7: each plan is the conversion or function of its statement; `act` waits for no bank that is not filled. -/
theorem conversionResults : Obligations.ConversionResults := by
  intro f src
  refine ⟨eachGives_plan (planFrnd f), eachGives_plan (planCvtpk f), eachGives_plan (planCvtup f), eachGives_plan (planSfn 0 f),
    eachGives_plan (planSfn 1 f), eachGives_plan (planSfn 2 f), eachGives_plan (planSfn 3 f), eachGives_plan (planSfn 4 f),
    eachGives_plan (planSfn 5 f), eachGives_plan (planSfn 6 f),
    eachDoes_of (plan := planAct f) rfl (by decide) fun s u _ r hfree hu => ?_,
    eachGives_plan (planCvt src f) (fun s r => ?_) (hop := cvt_opcode src)⟩
  · have hno : ¬ u.bankLoading r.G.core r.G.bank = true := by rw [hu.bankLoading, hfree]; decide
    refine (if_neg hno).trans ?_
    rw [hu.eq]
    rfl
  · simp only [planCvt, bitN_beq_one]
    rfl

end Sys2Proof.Machine
end

section
/-! SUPPORT. Cross-lane instructions, whose threads read the operands of their tile and change registers alone: O8, O10 and O11. -/

namespace Sys2Proof.Machine

/-- A cross-lane instruction whose plan is done in every thread, wherever its operands are allowed. -/
theorem eachDoes_tile {i : Instr} {op : Nat} {f : Full} {ok : State → List Ref → Ref → Prop} {res : State → List Ref → Ref → TRes}
    (plan : State → List Ref → List (Ref × TOut))
    (hplan : ∀ s rs, (∀ r ∈ rs, ok s rs r) → plan s rs = rs.map fun r => (r, .done (res s rs r)) := by intros; rfl)
    (hexec : Sys2Proof.Machine.exec i = issueTile op f plan := by rfl) (hop : op ≠ 0x0A6 := by decide)
    (hok : ∀ s (gs : Sparse Group) rs r, ok s rs r → ok { s with groups := gs } rs r := by intro _ _ _ _ h; exact h)
    (hal : ∀ s (gs : Sparse Group) rs r, res { s with groups := gs } rs r = res s rs r := by intros; rfl) : EachDoes i op f ok res :=
  tileDoes_of hexec hop fun s u rs h hu => by
    rw [hu.eq, hplan _ rs fun r hr => hok s _ rs r (h r hr)]
    simp only [hal]
/-- The same for the full and the compact form of an instruction. -/
theorem bothDo_tile {full : Full → Instr} {cop : BitVec 6} {compact : Compact → Instr} {op : Nat} {res : Full → State → List Ref → Ref → TRes}
    (plan : Full → State → List Ref → List (Ref × TOut))
    (hplan : ∀ f s rs, plan f s rs = rs.map fun r => (r, .done (res f s rs r)) := by intros; rfl)
    (hfull : ∀ f, Sys2Proof.Machine.exec (full f) = issueTile op f (plan f) := by intros; rfl)
    (hcompact : ∀ c, Sys2Proof.Machine.exec (compact c) = issueTile op (cfull cop c).2 (plan (cfull cop c).2) := by intros; rfl)
    (hop : op ≠ 0x0A6 := by decide)
    (hal : ∀ f s (gs : Sparse Group) rs r, res f { s with groups := gs } rs r = res f s rs r := by intros; rfl) :
    BothForms full cop compact fun i f => EachDoes i op f always (res f) :=
  ⟨fun f => eachDoes_tile (plan f) (fun s rs _ => hplan f s rs) (hfull f) hop (fun _ _ _ _ h => h) (hal f),
    fun c => eachDoes_tile (plan (cfull cop c).2) (fun s rs _ => hplan _ s rs) (hcompact c) hop (fun _ _ _ _ h => h) (hal _)⟩

end Sys2Proof.Machine
end

section
/-! PROOF. Planar registers (R117, R118, R126, R290 to R293): O8. -/

namespace Sys2Proof.Machine

/-- A block packed leaves the state as it is. -/
theorem actPlpack_fst (f : Full) (s : State) (rs : List Ref) : (actPlpack f s rs).1 = s := by
  unfold actPlpack
  split
  · rfl
  · dsimp only
    split <;> rfl
/-- A flag as a bit of a word. -/
theorem flagBit_mul (b : Bool) (k : Nat) : (if b then 1 else 0) * 2 ^ k = if b then 2 ^ k else 0 := by cases b <;> simp
/-- The saturation and the NaN of a pack as bits 17 and 16 of its tag (R126). -/
theorem packFlags_mul (sat nanz : Bool) :
    (2 * (if sat then 1 else 0) + if nanz then 1 else 0) * 2 ^ 16 = (if sat then 2 ^ 17 else 0) + if nanz then 2 ^ 16 else 0 := by
  cases sat <;> cases nanz <;> rfl
/-- `plval` of a register without a block is its word; else the value of its lane (R292). -/
theorem planPlval_eq (f : Full) (s : State) (r : Ref) :
    let (w, t) := (r.T.v f.a.toNat, r.T.tag f.a.toNat)
    planPlval f s r = .done (if bitN t 15 = 0 then givesWord f w
      else givesFloat f (roundVal .f32 (rmode f) (fsat f)
        (planeVal (t % 256) (bitN w 31 == 1) (w % 2 ^ 31 / 2 ^ (31 - bitsN t 12 8)) (bitsN t 12 8) (bitN t 14 == 1 && bitN t 13 == 0)))) := by
  dsimp only [planPlval]
  split <;> rfl
/-- `pltrim` keeps a register without a block, and cuts the word and the tag of one (R293). -/
theorem planPltrim_eq {f : Full} {s : State} {r : Ref} (h : s.b32 r f.b ≤ 24) :
    let (w, t) := (r.T.v f.a.toNat, r.T.tag f.a.toNat)
    let n := min (bitsN t 12 8) (s.b32 r f.b)
    planPltrim f s r = .done (if bitN t 15 = 0 then { regs := [(f.d.toNat, w)], tags := [(f.d.toNat, t)] }
      else
        { regs := [(f.d.toNat, w / 2 ^ (31 - n) * 2 ^ (31 - n))],
          tags := [(f.d.toNat, t / 2 ^ 14 * 2 ^ 14 + (if n = bitsN t 12 8 then bitN t 13 else if t % 256 = 0 then 1 else 0) * 2 ^ 13 + n * 2 ^ 8
            + t % 256)] }) := by
  dsimp only
  refine (if_neg (Nat.not_lt.2 h)).trans ?_
  dsimp only
  split <;> rfl

/-- Settles O8: the pack reads its depth from the lowest lane, and each lane takes its element; the others act on their own register. -/
theorem planarRegisterResults : Obligations.PlanarRegisterResults := by
  unfold Obligations.PlanarRegisterResults
  refine ⟨fun f => eachDoes_tile (fun s rs => (actPlpack f s rs).2) (fun s rs h => ?_) ?_, bothGive_plan planPlval planPlval_eq,
    fun f => eachGives_plan (planPltag f), fun f => eachGives_plan (planPlsett f),
    fun f => eachDoes_of (plan := planPltrim f) rfl (by decide) fun s u _ r h hu => ?_⟩
  · cases rs with
    | nil => rfl
    | cons lo rs =>
      obtain ⟨h1, h24⟩ := h lo (by simp) lo rfl
      have hd : ¬ (s.b32 lo f.b < 1 ∨ 24 < s.b32 lo f.b) := by omega
      simp only [actPlpack, List.head?_cons, if_neg hd]
      refine List.map_congr_left fun r _ => ?_
      simp only [flagBit_mul, packFlags_mul]
      rfl
  · funext s
    have hact : actPlpack f = fun s rs => (s, (actPlpack f s rs).2) := by
      funext s rs
      exact Prod.ext (actPlpack_fst f s rs) rfl
    change issueAll 0x072 f (actPlpack f) s = issueAll 0x072 f (fun s rs => (s, (actPlpack f s rs).2)) s
    rw [← hact]
  · rw [hu.eq]
    exact planPltrim_eq h

end Sys2Proof.Machine
end

section
/-! PROOF. Votes and shuffles (R294, R297): O10. -/

namespace Sys2Proof.Machine

/-- All agree where all hold or none does (R297). -/
theorem all_or_not_any {α : Type} (l : List α) (p : α → Bool) : (l.all p || !l.any p) = decide (∀ a ∈ l, ∀ b ∈ l, p a = p b) := by
  rw [Bool.eq_iff_iff, decide_eq_true_iff, Bool.or_eq_true, Bool.not_eq_true', List.all_eq_true, List.any_eq_false]
  constructor
  · rintro (h | h) a ha b hb
    · rw [h a ha, h b hb]
    · rw [Bool.eq_false_iff.2 (h a ha), Bool.eq_false_iff.2 (h b hb)]
  · intro h
    by_cases hx : ∃ a ∈ l, p a = true
    · obtain ⟨a, ha, hp⟩ := hx
      exact .inl fun b hb => (h b hb a ha).trans hp
    · exact .inr fun a ha hp => hx ⟨a, ha, hp⟩

/-- A shuffle gives each thread what its source lane holds, or its own (R297). -/
theorem planShfl_eq (src : Ref → Nat → Option Nat) (f : Full) (s : State) (rs : List Ref) :
    planShfl src f s rs = rs.map fun r => (r, .done (givesFrom f s rs r (src r (s.b32 r f.b)))) := by
  refine List.map_congr_left fun r _ => ?_
  dsimp only [givesFrom]
  cases (src r (s.b32 r f.b)).bind fun j => (tileOf rs r).find? (·.T.lane == j) <;> rfl

/-- Settles O10: a vote answers each thread for the contributors of its tile, and a shuffle takes from their lanes. -/
theorem voteAndShuffleResults : Obligations.VoteAndShuffleResults := by
  unfold Obligations.VoteAndShuffleResults
  refine ⟨fun f => eachDoes_tile (planVoteAll f), fun f => eachDoes_tile (planVoteAny f),
    fun f => eachDoes_tile (planVoteEq f) fun s rs _ => List.map_congr_left fun r _ => ?_, fun f => eachDoes_tile (planVoteBallot f),
    bothDo_tile (planShfl srcIdx) (planShfl_eq srcIdx), bothDo_tile (planShfl srcUp) (planShfl_eq srcUp),
    bothDo_tile (planShfl srcDown) (planShfl_eq srcDown), bothDo_tile (planShfl srcXor) (planShfl_eq srcXor)⟩
  exact congrArg (fun b => (r, donePred f b)) (all_or_not_any (tileOf rs r) (voteQ f))

end Sys2Proof.Machine
end

section
/-! PROOF. Reductions, scans, ranking and masked sums (R298 to R300): O11. -/

namespace Sys2Proof.Machine

/-- Settles O11: each plan combines the operands of its tile as its statement does. -/
theorem reductionAndRankingResults : Obligations.ReductionAndRankingResults := by
  unfold Obligations.ReductionAndRankingResults
  intro ps low rank
  have hrank (lanes : Bool) (f : Full) (s : State) (rs : List Ref) (h : ∀ r ∈ rs, 0 ≤ kOf f s (low rs r)) :
      planSelk lanes f s rs = rs.map fun r => (r, .done (rank lanes f s rs r)) := by
    have hno : ¬ (rs.any fun r => decide (kOf f s (low rs r) < 0)) = true := by
      rw [List.any_eq_true]
      rintro ⟨r, hr, hk⟩
      exact absurd (h r hr) (Int.not_le.2 (of_decide_eq_true hk))
    refine (if_neg hno).trans (List.map_congr_left fun r _ => congrArg (Prod.mk r) ?_)
    dsimp only [rank, low]
    cases (if r.T.lane - tileBase r < min (kOf f s (((tileOf rs r).head?).getD r)).toNat r.G.part then
        (((tileOf rs r).map fun q => (q, s.pa q f)).foldl (fun l x => rankInsert f.ty x l) [])[r.T.lane - tileBase r]? else none) with
    | none => rfl
    | some q => cases lanes <;> rfl
  refine ⟨bothDo_tile planLred, fun f => eachDoes_tile (planLredF f), fun f => eachDoes_tile (planLscan f), fun f => eachDoes_tile (planLscanF f),
    fun f => eachDoes_tile (planSelk false f) (hrank false f), fun f => eachDoes_tile (planSelk true f) (hrank true f),
    fun f => eachDoes_tile (planPermx f) fun s rs _ => List.map_congr_left fun r _ => congrArg (Prod.mk r) ?_⟩
  dsimp only [ps]
  split
  · rfl
  · split
    · split <;> rfl
    · rfl

end Sys2Proof.Machine
end

section
/-! PROOF. Moves, special registers and predicates (R54, R90, R100, R159, R301 to R303, R430, R441): O12. -/

namespace Sys2Proof.Machine

/-- The compact move is the full `mov` of a register, and `movi` of an immediate (R259). -/
theorem cfull_mov (c : Compact) : (cfull 1 c).1 = if c.i then 0x092 else 0x091 := by
  cases h : c.i <;> simp [cfull, CompactWord.full, CompactWord.row, cTable, CRow.expand, h]

/-- `rdsr` gives the special register, once no loop of the thread may still raise a flag of `$fstat` (R160, R302). -/
theorem planRdsr_reads {f : Full} {s : State} {r : Ref} (h : ¬ (f.a.toNat = 0 ∧ r.G.loopOf r.t = true)) :
    planRdsr f s r = .done { (if sreg64 f.a.toNat then givesPair f (s.sreg r f.a.toNat) else givesWord f (s.sreg r f.a.toNat)) with
      vol := if f.a.toNat = 4 ∨ f.a.toNat = 5 then 2 else 0 } := by
  refine (if_neg h).trans ?_
  split <;> rfl

/-- Settles O12: each plan writes the result of its statement; `wrsr` changes the one register it names. -/
theorem moveAndPredicateResults : Obligations.MoveAndPredicateResults := by
  unfold Obligations.MoveAndPredicateResults
  refine ⟨fun f => eachGives_plan (planMov f), fun c hc => ?_, fun f => eachGives_plan (planMovi f), fun c hc => ?_,
    fun f => eachDoes_of (plan := planRdsr f) rfl (by decide) fun s u _ r h hu => ?_,
    fun f => turnDo_of (act := actWrsr f) rfl (by decide) (fun s r _ => rfl) fun s r _ hs => ?_,
    fun f => eachGives_plan (planPand f), fun f => eachGives_plan (planPor f), fun f => eachGives_plan (planPxor f),
    fun f => eachGives_plan (planPnot f), fun f => eachGives_plan (planPmov f),
    fun f => eachGives_plan (planPmovGet f) fun s r => ?_, fun f => eachGives_plan (planPmovSet f) fun s r => ?_⟩
  · have hop : (cfull 1 c).1 = 0x091 := by rw [cfull_mov, hc]; rfl
    have hexec : Sys2Proof.Machine.exec (.movCompact c) = issueEach (cfull 1 c).1 (cfull 1 c).2 (planMov (cfull 1 c).2) := rfl
    exact eachGives_plan (planMov (cfull 1 c).2) (hexec := by rw [hexec, hop])
  · have hop : (cfull 1 c).1 = 0x092 := by rw [cfull_mov, hc]; rfl
    have hexec : Sys2Proof.Machine.exec (.moviCompact c) = issueEach (cfull 1 c).1 (cfull 1 c).2 (planMovi (cfull 1 c).2) := rfl
    exact eachGives_plan (planMovi (cfull 1 c).2) (hexec := by rw [hexec, hop])
  · rw [hu.eq]
    exact planRdsr_reads h
  · dsimp only
    split <;> exact hs
  · exact congrArg (doneWord f) (Nat.add_comm _ _)
  · simp only [planPmovSet, bitN_beq_one]

end Sys2Proof.Machine
end

section
/-! REFUTATION. O38 has `acqs` trap wherever its ring block breaks R231, but the block is read only after the thread's earlier accesses have their
places (R171, R232): while one is pending the thread waits. -/

namespace Sys2Proof.Machine

/-- `acqs` of the ring at scratchpad offset 0, which v0 names. -/
def PendingAcqs.fields : Full :=
  { g := 7, gn := false, d := 0, a := 0, b := .num 0, c := 0, ty := .b32, mod := 0, pd := 7, ext := 0, s := false }
/-- A store of the thread that has no place yet. -/
def PendingAcqs.access : Access :=
  { id := 9, order := 9, grp := 2, tid := 0, lane := 0, kind := .store (mkAddr 1 0) [1] none, parts := [(0, 1)] }
/-- The scratchpad is all 0, which is no ring: its slots have no size. -/
def PendingAcqs.group : Group := { OneBuffer.group { st := 1 } with handler := mkAddr 1 0x800 }
def PendingAcqs.issue : Issue := { core := 0, refs := [(2, 0)], pc := 0, len := 8 }
def PendingAcqs.state : State :=
  { OneBuffer.state {} with groups := [(2, PendingAcqs.group)], accesses := [PendingAcqs.access], issue := some PendingAcqs.issue }
def PendingAcqs.ref : Ref := { g := 2, t := 0, G := PendingAcqs.group, T := { st := 1 } }

theorem PendingAcqs.issued : Issued PendingAcqs.state PendingAcqs.issue [PendingAcqs.ref] := ⟨rfl, by decide, rfl, by decide, rfl⟩
theorem PendingAcqs.admits : Admits 0x0B5 PendingAcqs.fields [PendingAcqs.ref] := ⟨_, rfl, by decide⟩
theorem PendingAcqs.canTrap : CanTrap [PendingAcqs.ref] := by
  unfold CanTrap
  decide
theorem PendingAcqs.broken : PendingAcqs.state.op32 PendingAcqs.ref 0 % 32 = 0 ∧
    (PendingAcqs.state.ring 2 (PendingAcqs.state.op32 PendingAcqs.ref 0)).ok = false := by decide
/-- The handler mode of the thread afterwards. -/
def PendingAcqs.mode : Host.Outcome State Fault Refusal → Option HMode
  | .next t => (t.thread? 2 0).map (·.hmode)
  | _ => none
theorem PendingAcqs.no_handler : PendingAcqs.mode (Sys2Proof.Machine.exec (.acqs PendingAcqs.fields) PendingAcqs.state) = some .none := by decide

/-- Refutes O38: an `acqs` of a broken ring whose thread has a store pending enters no handler; the clause says that it does. -/
theorem not_refusedValuesTrap : ¬ Obligations.RefusedValuesTrap := by
  unfold Obligations.RefusedValuesTrap
  intro h
  obtain ⟨_, _, _, _, _, _, _, _, _, _, _, hacqs, _⟩ := h PendingAcqs.fields
  obtain ⟨t, hexec, hent⟩ := hacqs PendingAcqs.state PendingAcqs.issue [PendingAcqs.ref] PendingAcqs.issued PendingAcqs.admits rfl PendingAcqs.canTrap
    (List.forall_mem_singleton.2 PendingAcqs.broken)
  have hentered := congrArg (Option.map Thread.hmode) (hent.threads PendingAcqs.ref (List.mem_singleton.2 rfl))
  have hmode := PendingAcqs.no_handler
  rw [hexec] at hmode
  exact absurd (hentered.symm.trans hmode) (by decide)

end Sys2Proof.Machine
end

section
/-! SUPPORT. Fields of numbers that are laid out in bytes, lowest first (R5), and the save image of a Twill context (R366, R370). O33. -/

namespace Sys2Proof.Machine

/-- A context whose fields fit in its image (R366). -/
structure TwCtx.Fits (c : TwCtx) : Prop where
  rows : c.rows < 2 ^ 32
  cols : c.cols < 2 ^ 32
  fmtb : c.fmtb < 2 ^ 16
  seed : c.seed < 2 ^ 32
  line : c.line < 2 ^ 32
  pos : c.pos < 2 ^ 32
  count : c.words.length ≤ 64
  words : ∀ w ∈ c.words, w < 2 ^ 64

/-! ## Fields of bytes in a row -/

theorem leNat_append (a b : List Byte) : leNat (a ++ b) = leNat a + 256 ^ a.length * leNat b := by
  induction a with
  | nil => simp [leNat]
  | cons x a ih => simp only [List.cons_append, leNat, ih, List.length_cons, pow_succ']; ring
/-- Numbers in a row, each of so many bytes. -/
def layout (L : List (Nat × Nat)) : List Byte := L.flatMap fun e => leBytes e.1 e.2
theorem layout_length (L : List (Nat × Nat)) : (layout L).length = (L.map (·.1)).sum := by
  simp [layout, List.length_flatMap, leBytes_length]
/-- A number of a row is read back from its place. -/
theorem bitsN_layout (p : List (Nat × Nat)) {n x : Nat} (q : List (Nat × Nat)) (hn : 0 < n) (hx : x < 2 ^ (8 * n)) :
    bitsN (leNat (layout (p ++ (n, x) :: q))) (8 * ((p.map (·.1)).sum + n) - 1) (8 * (p.map (·.1)).sum) = x := by
  have hw : 8 * ((p.map (·.1)).sum + n) - 1 + 1 - 8 * (p.map (·.1)).sum = 8 * n := by omega
  have hsplit : layout (p ++ (n, x) :: q) = layout p ++ (leBytes n x ++ layout q) := by simp [layout]
  have h256 (k : Nat) : (2 : Nat) ^ (8 * k) = 256 ^ k := pow_mul 2 8 k
  rw [bitsN, hw, hsplit, leNat_append, layout_length, h256, h256, Nat.add_mul_div_left _ _ (by positivity), ← layout_length,
    Nat.div_eq_of_lt (leNat_lt _), Nat.zero_add, leNat_append, leBytes_length, Nat.add_mul_mod_self_left, leNat_leBytes, Nat.mod_mod,
    Nat.mod_eq_of_lt (h256 n ▸ hx)]
/-- A part of a field is a part of the number that the field holds. -/
theorem bitsN_bitsN (x lo top h l : Nat) (hl : l ≤ h) (ht : lo + h ≤ top) : bitsN x (lo + h) (lo + l) = bitsN (bitsN x top lo) h l := by
  obtain ⟨m, rfl⟩ : ∃ m, top = lo + h + m := ⟨top - (lo + h), by omega⟩
  have h1 : lo + h + m + 1 - lo = l + (h + 1 - l + m) := by omega
  have h2 : lo + h + 1 - (lo + l) = h + 1 - l := by omega
  rw [bitsN, bitsN, bitsN, h1, h2, pow_add 2 l, Nat.mod_mul_right_div_self, Nat.div_div_eq_div_mul, ← pow_add,
    Nat.mod_mod_of_dvd _ (pow_dvd_pow 2 (Nat.le_add_right _ m))]
theorem bitN_eq_bitsN (x k : Nat) : bitN x k = bitsN x k k := by
  rw [bitN, bitsN, Nat.add_sub_cancel_left, pow_one]

/-! ## The save image of a context -/

/-- The byte of a context's state, with the bit that says that it is not EMPTY (R370). -/
def TwCtx.flagByte (c : TwCtx) : Nat := 1 + 2 * c.st.code + (if c.dirCol then 8 else 0)
/-- The head of an image: its fields with their bytes. -/
def TwCtx.head (c : TwCtx) : List (Nat × Nat) :=
  [(8, c.values.toNat), (8, c.rowptr.toNat), (4, c.rows), (4, c.cols), (2, c.fmtb), (1, c.words.length), (1, c.flagByte), (4, c.seed), (4, c.line),
    (4, c.pos), (24, 0)]
theorem TwCtx.image_eq (c : TwCtx) : c.image = layout c.head ++ c.words.flatMap (leBytes 8 ·) := by
  simp [TwCtx.image, layout, TwCtx.head, TwCtx.flagByte]
theorem TwCtx.head_length (c : TwCtx) : (layout c.head).length = 64 := layout_length c.head
theorem TwState.code_le (t : TwState) : t.code ≤ 2 := by cases t <;> decide
theorem TwCtx.flagByte_lt (c : TwCtx) : c.flagByte < 16 := by
  have := c.st.code_le
  unfold TwCtx.flagByte
  split <;> omega

/-- The number that the head of a context's image is. -/
def TwCtx.headNat (c : TwCtx) : Nat := leNat (layout c.head)
theorem TwCtx.take_image (c : TwCtx) : leNat (c.image.take 64) = c.headNat := by
  rw [c.image_eq, List.take_left' c.head_length, TwCtx.headNat]

section
variable {c : TwCtx}

theorem TwCtx.headNat_values : bitsN c.headNat 63 0 = c.values.toNat := bitsN_layout [] (c.head.drop 1) (by decide) c.values.isLt
theorem TwCtx.headNat_rowptr : bitsN c.headNat 127 64 = c.rowptr.toNat := bitsN_layout (c.head.take 1) (c.head.drop 2) (by decide) c.rowptr.isLt
theorem TwCtx.headNat_rows (h : c.Fits) : bitsN c.headNat 159 128 = c.rows := bitsN_layout (c.head.take 2) (c.head.drop 3) (by decide) h.rows
theorem TwCtx.headNat_cols (h : c.Fits) : bitsN c.headNat 191 160 = c.cols := bitsN_layout (c.head.take 3) (c.head.drop 4) (by decide) h.cols
theorem TwCtx.headNat_fmtb (h : c.Fits) : bitsN c.headNat 207 192 = c.fmtb := bitsN_layout (c.head.take 4) (c.head.drop 5) (by decide) h.fmtb
theorem TwCtx.headNat_countByte (h : c.Fits) : bitsN c.headNat 215 208 = c.words.length :=
  bitsN_layout (c.head.take 5) (c.head.drop 6) (by decide) (Nat.lt_of_le_of_lt h.count (by decide))
theorem TwCtx.headNat_flagByte : bitsN c.headNat 223 216 = c.flagByte :=
  bitsN_layout (c.head.take 6) (c.head.drop 7) (by decide) (Nat.lt_trans c.flagByte_lt (by decide))
theorem TwCtx.headNat_seed (h : c.Fits) : bitsN c.headNat 255 224 = c.seed := bitsN_layout (c.head.take 7) (c.head.drop 8) (by decide) h.seed
theorem TwCtx.headNat_line (h : c.Fits) : bitsN c.headNat 287 256 = c.line := bitsN_layout (c.head.take 8) (c.head.drop 9) (by decide) h.line
theorem TwCtx.headNat_pos (h : c.Fits) : bitsN c.headNat 319 288 = c.pos := bitsN_layout (c.head.take 9) (c.head.drop 10) (by decide) h.pos
theorem TwCtx.headNat_reserved : bitsN c.headNat 511 320 = 0 := bitsN_layout (c.head.take 10) [] (by decide) (by positivity)

theorem TwCtx.headNat_count (h : c.Fits) : bitN c.headNat 215 = 0 ∧ bitsN c.headNat 214 208 = c.words.length := by
  have hcount := h.count
  constructor
  · rw [bitN_eq_bitsN, bitsN_bitsN c.headNat 208 215 7 7 (by decide) (by decide), c.headNat_countByte h, bitsN]
    omega
  · rw [bitsN_bitsN c.headNat 208 215 6 0 (by decide) (by decide), c.headNat_countByte h, bitsN]
    omega
/-- The bits of the state byte: not EMPTY, the state's code, the direction, and four that are 0. -/
theorem TwCtx.headNat_flags : bitN c.headNat 216 = 1 ∧ bitsN c.headNat 218 217 = c.st.code ∧ bitN c.headNat 219 = (if c.dirCol then 1 else 0) ∧
    bitsN c.headNat 223 220 = 0 := by
  have hpart (h l : Nat) (hl : l ≤ h) (ht : 216 + h ≤ 223) : bitsN c.headNat (216 + h) (216 + l) = bitsN c.flagByte h l := by
    rw [bitsN_bitsN c.headNat 216 223 h l hl ht, c.headNat_flagByte]
  have hcode := c.st.code_le
  refine ⟨(bitN_eq_bitsN _ _).trans ((hpart 0 0 (by decide) (by decide)).trans ?_), (hpart 2 1 (by decide) (by decide)).trans ?_,
    (bitN_eq_bitsN _ _).trans ((hpart 3 3 (by decide) (by decide)).trans ?_), (hpart 7 4 (by decide) (by decide)).trans ?_⟩ <;>
  · unfold bitsN TwCtx.flagByte
    split <;> omega

end

theorem wordsOf_words (ws : List Nat) (hws : ∀ w ∈ ws, w < 2 ^ 64) (pre : List Byte) (hpre : pre.length = 64) :
    wordsOf (pre ++ ws.flatMap (leBytes 8 ·)) ws.length = ws := by
  refine List.ext_getElem (by simp [wordsOf]) fun i h1 h2 => ?_
  have hsplit : ws = ws.take i ++ ws[i] :: ws.drop (i + 1) := by rw [List.getElem_cons_drop, List.take_append_drop]
  have hfield : ((pre ++ ws.flatMap (leBytes 8 ·)).drop (64 + 8 * i)).take 8 = leBytes 8 ws[i] := by
    refine field_of_append (l := pre ++ (ws.take i).flatMap (leBytes 8 ·)) (r := (ws.drop (i + 1)).flatMap (leBytes 8 ·)) ?_ ?_ (leBytes_length 8 _)
    · conv => lhs; rw [hsplit]
      simp only [List.flatMap_append, List.flatMap_cons, List.append_assoc]
    · rw [List.length_append, hpre, words_length, List.length_take, Nat.min_eq_left (Nat.le_of_lt h2)]
  simp only [wordsOf, List.getElem_map, List.getElem_range, hfield, leNat_leBytes]
  exact Nat.mod_eq_of_lt (hws _ (List.getElem_mem h2))

end Sys2Proof.Machine
end

section
/-! SUPPORT. Matrix instructions that act once for their issue group and complete (R378, R379): O29 and O32. -/

namespace Sys2Proof.Machine

/-- A matrix instruction that may have its effect, passes its checks and acts on the state alone. -/
theorem matStep_allDo {i : Instr} {op : Nat} {f : Full} {fn : State → List Ref → State × List (Ref × TOut)} {use : MUse} {pre : State → Ref → Option TOut} {act : State → Ref → List Ref → State × TOut}
    {ok : State → List Ref → Prop} {eff : State → List Ref → Ref → State} (hexec : Sys2Proof.Machine.exec i = issueAll op f fn)
    (hfn : ∀ s rs, fn s rs = matStep use pre act s rs) (hop : op ≠ 0x0A6) (huse : ∀ s rs, ok s rs → mayUse use s rs)
    (hact : ∀ s rs lo, ok s rs → rs.head? = some lo → pre s lo = none ∧ act s lo rs = (eff s rs lo, .done {}))
    (hab : ∀ s rs lo, ok s rs → rs.head? = some lo → (eff s rs lo).absent = s.absent) :
    AllDo i op f ok (fun s rs => onLowest s rs (eff s rs)) fun _ _ _ => {} := by
  refine allDo_of hexec hop (fun s rs hok => (hfn s rs).trans ?_) fun s rs hok hs => ?_
  · cases hlo : rs.head? with
    | none =>
      rw [List.head?_eq_none_iff.1 hlo]
      rfl
    | some lo =>
      obtain ⟨hpre, hdoes⟩ := hact s rs lo hok hlo
      simp only [onLowest, hlo, matStep_acts hlo (huse s rs hok) hpre hdoes]
  · cases hlo : rs.head? with
    | none => simpa only [onLowest, hlo] using hs
    | some lo => simpa only [onLowest, hlo] using (hab s rs lo hok hlo).trans hs

end Sys2Proof.Machine
end

section
/-! PROOF. `tzero`, `accz`, `accmv` and `permx.t` (R384, R394, R395): O32. -/

namespace Sys2Proof.Machine

/-- A matrix instruction that changes the group of its lowest thread, whenever that group stands as `ok` says. -/
theorem matSet_allDo {i : Instr} {op : Nat} {f : Full} {use : MUse} {ok : Group → Prop} {change : Group → Group}
    (fn : State → List Ref → State × List (Ref × TOut)) (act : State → Ref → List Ref → State × TOut)
    (hact : ∀ s lo rs G, s.group? lo.g = some G → ok G → act s lo rs = (s.modG lo.g change, .done {}))
    (hexec : Sys2Proof.Machine.exec i = issueAll op f fn := by rfl)
    (hfn : ∀ s rs, fn s rs = matStep use (fun _ _ => none) act s rs := by intros; rfl) (hop : op ≠ 0x0A6 := by decide) :
    AllDo i op f (fun s rs => mayUse use s rs ∧ ∀ lo, rs.head? = some lo → ∃ G, s.group? lo.g = some G ∧ ok G)
      (fun s rs => onLowest s rs fun lo => s.modG lo.g change) fun _ _ _ => {} :=
  matStep_allDo hexec hfn hop (fun _ _ h => h.1)
    (fun s rs lo h hlo => by
      obtain ⟨G, hG, hok⟩ := h.2 lo hlo
      exact ⟨rfl, hact s lo rs G hG hok⟩)
    fun _ _ _ _ _ => rfl

/-- A matrix instruction that changes the group of its lowest thread, whatever the group holds. -/
theorem matChange_allDo {i : Instr} {op : Nat} {f : Full} {use : MUse} {change : Group → Group} (fn : State → List Ref → State × List (Ref × TOut))
    (hexec : Sys2Proof.Machine.exec i = issueAll op f fn := by rfl)
    (hfn : ∀ s rs, fn s rs = matStep use (fun _ _ => none) (fun s lo _ => (s.modG lo.g change, .done {})) s rs := by intros; rfl)
    (hop : op ≠ 0x0A6 := by decide) :
    AllDo i op f (fun s rs => mayUse use s rs ∧ ∀ lo, rs.head? = some lo → ∃ G, s.group? lo.g = some G ∧ True)
      (fun s rs => onLowest s rs fun lo => s.modG lo.g change) fun _ _ _ => {} :=
  matSet_allDo fn _ (fun _ _ _ _ _ _ => rfl) hexec hfn hop

/-- Settles O32: each instruction changes the group of its lowest thread; `permx.t` reads the tiles of the group as it finds them. -/
theorem tileAndAccumulatorResults : Obligations.TileAndAccumulatorResults := by
  unfold Obligations.TileAndAccumulatorResults
  intro f sets tile
  have hpermute (add : Bool) (i : Instr) (ok : Group → Prop) (result : Tile → Tile → Tile)
      (hexec : Sys2Proof.Machine.exec i = issueAll 0x161 f (actPermxT add f))
      (hok : ∀ G, ok G → ¬ (add = true ∧ ¬ ((G.tile f.a.toNat).fmt = 11 ∧ (G.tile f.a.toNat).valid = true)))
      (hresult : ∀ a m, result a m = if add then sumTile a m else permTile a m) :
      sets i 0x161 { rt := [f.a.toNat, numB f], wt := [f.d.toNat], engine := true } ok
        fun G => tile f.d.toNat (result (G.tile f.a.toNat) (G.tile (numB f))) G := by
    refine matSet_allDo (actPermxT add f) _ (fun s lo rs G hG h => ?_) hexec fun _ _ => rfl
    dsimp only
    rw [hG]
    exact (if_neg (hok G h)).trans (congrArg (·, TOut.done {}) (modG_congr hG (by rw [hresult]; rfl)))
  exact ⟨matChange_allDo (actTzero false f), matChange_allDo (actTzero true f), matChange_allDo (actAccz f), matChange_allDo (actAccmv f),
    matChange_allDo (actAccmvT f), hpermute false _ _ _ rfl (fun _ _ h => nomatch h.1) fun _ _ => rfl,
    hpermute true _ _ _ rfl (fun _ h hbad => hbad.2 h) fun _ _ => rfl⟩

end Sys2Proof.Machine
end

section
/-! PROOF. Loads and stores of tiles and accumulators at their issue (R375 to R380, R382, R383, R394): O29. -/

namespace Sys2Proof.Machine

theorem al16_aligned {x : Nat} (h : x % 16 = 0) : al16 x = none := if_pos h

/-- What the start of a tile operation leaves: the operation behind the group's others, and TL of every thread counted (R380). -/
def tileOpStarted (o : TileOp) (s : State) (lo : Ref) (rs : List Ref) : State :=
  rs.foldl (fun (s : State) r => s.modT r.g r.t fun T => { T with tl := T.tl + 1 })
    (({ s with next := s.next + 1 } : State).modG lo.g fun G =>
      { G with tileOps := G.tileOps ++ [{ o with id := s.next, order := s.next, tids := rs.map (·.t), units := List.range o.cuts.length }] })
theorem startTileOp_starts {o : TileOp} {s : State} {lo : Ref} {rs : List Ref} (h : ∀ r ∈ rs, r.T.tl < 15 ∧ s.drained r.g r.t = true) :
    startTileOp o s lo rs = (tileOpStarted o s lo rs, .done {}) := by
  refine if_neg ?_
  rw [not_or, not_not, List.any_eq_true, List.all_eq_true]
  exact ⟨fun ⟨r, hr, hfull⟩ => absurd (of_decide_eq_true hfull) (Nat.not_le.2 (h r hr).1), fun r hr => (h r hr).2⟩
theorem tileOpStarted_absent (o : TileOp) (s : State) (lo : Ref) (rs : List Ref) : (tileOpStarted o s lo rs).absent = s.absent :=
  foldl_absent (fun (s : State) (r : Ref) => s.modT_absent r.g r.t _) rs _

/-- A load or store of a tile or accumulator whose operands pass its checks begins its operation. -/
theorem tileOp_allDo {i : Instr} {op : Nat} {f : Full} {use : MUse} {ok : State → Ref → Prop} {o : State → Ref → TileOp}
    (fn : State → List Ref → State × List (Ref × TOut)) (pre : State → Ref → Option TOut) (hpre : ∀ s lo, ok s lo → pre s lo = none)
    (hexec : Sys2Proof.Machine.exec i = issueAll op f fn := by rfl)
    (hfn : ∀ s rs, fn s rs = matStep use pre (fun s lo rs => startTileOp (o s lo) s lo rs) s rs := by intros; rfl)
    (hop : op ≠ 0x0A6 := by decide) :
    AllDo i op f (fun s rs => mayUse use s rs ∧ (∀ lo, rs.head? = some lo → ok s lo) ∧ ∀ r ∈ rs, r.T.tl < 15 ∧ s.drained r.g r.t = true)
      (fun s rs => onLowest s rs fun lo => tileOpStarted (o s lo) s lo rs) fun _ _ _ => {} :=
  matStep_allDo hexec hfn hop (fun _ _ h => h.1)
    (fun s rs lo h hlo => by
      obtain ⟨_, hok, hcount⟩ := h
      exact ⟨hpre s lo (hok lo hlo), startTileOp_starts hcount⟩)
    fun s rs lo _ _ => tileOpStarted_absent _ s lo rs

/-- Settles O29: each instruction passes its checks where its operands are aligned or its handle is one, and begins the operation of them. -/
theorem tileOperationsStart : Obligations.TileOperationsStart := by
  unfold Obligations.TileOperationsStart
  intro f starts op aligned
  have hdense (i : Instr) (code : Nat) (isAcc load pad trans : Bool) (use : MUse)
      (huse : (if isAcc then (if load then { wa := [f.d.toNat] } else { ra := [f.d.toNat] })
        else (if load then { wt := [f.d.toNat] } else { rt := [f.d.toNat] }) : MUse) = use := by rfl)
      (hexec : Sys2Proof.Machine.exec i = issueAll code f (actTile isAcc load pad trans f) := by rfl) (hop : code ≠ 0x0A6 := by decide) :
      starts i code use (aligned pad) (op isAcc load pad trans) := by
    subst huse
    refine tileOp_allDo (actTile isAcc load pad trans f) _ (fun s lo h => ?_) hexec (fun _ _ => rfl) hop
    obtain ⟨ha, hb⟩ := h
    rw [al16_aligned ha, al16_aligned hb]
    rfl
  have hplanar : starts (.tldPl f) 0x150 { wt := [f.d.toNat] } (fun s lo => s.b32 lo f.b < 65536)
      (fun s lo => { op false true true false s lo with planar := some (s.b32 lo f.b, s.op32 lo f.a.toNat, f.c.toNat) }) :=
    tileOp_allDo (actTldPl f) (fun s lo => if 65536 ≤ s.b32 lo f.b then some (operandTrap 2) else none) fun _ _ h => if_neg (Nat.not_le.2 h)
  exact ⟨hdense _ _ false true false false _, hplanar, hdense _ _ false true true false _, hdense _ _ false true false true _,
    hdense _ _ false false false false _, hdense _ _ false false true false _, hdense _ _ true true false false _,
    hdense _ _ true true true false _, hdense _ _ true false false false _, hdense _ _ true false true false _⟩

end Sys2Proof.Machine
end

section
/-! SUPPORT. Twill instructions act once for their issue group (R367): what they ask for, what they deliver, and the images they save and restore. O33. -/

namespace Sys2Proof.Machine

/-! ## One act for an issue group of several outcomes -/

/-- An instruction issued by `issueAll`, whose executing threads are all done where their counters have room. -/
theorem allDo_of_room {i : Instr} {op : Nat} {f : Full} {fn : State → List Ref → State × List (Ref × TOut)} {ok : State → List Ref → Prop}
    {eff : State → List Ref → State} {res : State → List Ref → Ref → TRes} (hexec : Sys2Proof.Machine.exec i = issueAll op f fn)
    (hop : op ≠ 0x0A6) (hfn : ∀ s rs, rs.Nodup → ok s rs → (∀ r ∈ rs, HasRoom r (res s rs r)) → fn s rs = (eff s rs, rs.map fun r => (r, .done (res s rs r))))
    (hab : ∀ s rs, ok s rs → (eff s rs).absent = s.absent) : AllDo i op f ok eff res := by
  intro s is rs hi ha u xs hok hroom
  rw [hexec]
  have hnd : xs.Nodup := List.Nodup.of_map _ (nodup_filter_keys (fun r => r.T.guard f.g f.gn) _ hi.nodup)
  exact issueAll_all op f fn s is rs (eff u xs) (res u xs) hop hi ha (hfn u xs hnd hok hroom) hroom
    ((hab u xs hok).trans ((absent_skips _ _ s).trans hi.present))

/-- Outcomes by place are outcomes by thread where every thread is named once. -/
theorem zip_range_map_findIdx {β : Type} (F : Nat → Ref → β) (rs : List Ref) (h : rs.Nodup) :
    ((List.range rs.length).zip rs).map (fun e => (e.2, F e.1 e.2)) = rs.map fun r => (r, F (rs.findIdx (· == r)) r) := by
  refine List.ext_getElem (by simp) fun k h1 h2 => ?_
  have hk : k < rs.length := by simpa using h2
  have hidx : rs.findIdx (· == rs[k]) = k := h.idxOf_getElem k hk
  simp [hidx]
/-- A Twill instruction of threads whose earlier accesses are placed acts once (R367). -/
theorem twStep_acts {act : Ref → State → List Ref → State × (Nat → Ref → TOut)} {s u : State} {rs : List Ref} {lo : Ref} {o : Nat → Ref → TOut}
    (hnd : rs.Nodup) (hlo : rs.head? = some lo) (hdr : ∀ r ∈ rs, s.drained r.g r.t = true) (hact : act lo s rs = (u, o)) :
    twStep act s rs = (u, rs.map fun r => (r, o (rs.findIdx (· == r)) r)) := by
  have hall : ¬ ¬ (rs.all fun r => s.drained r.g r.t) = true := not_not.2 (List.all_eq_true.2 hdr)
  simp only [twStep, hlo, if_neg hall, hact, zip_range_map_findIdx _ _ hnd]
/-- The same where one outcome is that of all threads. -/
theorem twStep_all {act : Ref → State → List Ref → State × (Nat → Ref → TOut)} {s u : State} {rs : List Ref} {lo : Ref} {o : TOut}
    (hlo : rs.head? = some lo) (hdr : ∀ r ∈ rs, s.drained r.g r.t = true) (hact : act lo s rs = allOut u o) :
    twStep act s rs = (u, rs.map fun r => (r, o)) := by
  have hall : ¬ ¬ (rs.all fun r => s.drained r.g r.t) = true := not_not.2 (List.all_eq_true.2 hdr)
  have hzip : ((List.range rs.length).zip rs).map (fun e => (e.2, o)) = rs.map fun r => (r, o) := by
    have h := List.map_map (f := Prod.snd) (g := fun r : Ref => (r, o)) (l := (List.range rs.length).zip rs)
    rw [List.map_snd_zip (by simp)] at h
    exact h.symm
  simp only [twStep, hlo, if_neg hall, hact, allOut, hzip]
/-- A Twill instruction that completes in all threads alike. -/
theorem twStep_allDo {i : Instr} {op : Nat} {f : Full} {act : Ref → State → List Ref → State × (Nat → Ref → TOut)}
    {ok : State → List Ref → Ref → Prop} {eff : State → Ref → State} (hexec : Sys2Proof.Machine.exec i = issueAll op f (twStep act)) (hop : op ≠ 0x0A6)
    (hact : ∀ s rs lo, ok s rs lo → (∀ r ∈ rs, s.drained r.g r.t = true) ∧ act lo s rs = allOut (eff s lo) (.done {}))
    (hab : ∀ s lo, (eff s lo).absent = s.absent) :
    AllDo i op f (fun s rs => ∀ lo, rs.head? = some lo → ok s rs lo) (fun s rs => onLowest s rs (eff s)) fun _ _ _ => {} := by
  refine allDo_of_room hexec hop (fun s rs _ hok _ => ?_) fun s rs _ => onLowest_absent s rs _ (hab s)
  cases hlo : rs.head? with
  | none =>
    rw [List.head?_eq_none_iff.1 hlo]
    rfl
  | some lo =>
    obtain ⟨hdr, hdoes⟩ := hact s rs lo (hok lo hlo)
    rw [twStep_all hlo hdr hdoes, onLowest, hlo]

/-! ## An image is asked for (R368, R370) -/

/-- A change of a thread depends on how the thread stands alone. -/
theorem State.modT_congr {s : State} {g t : Nat} {T : Thread} (hT : s.thread? g t = some T) {f k : Thread → Thread} (h : f T = k T) :
    s.modT g t f = s.modT g t k := by
  have hm : Map.modify s.groups g (·.modT t f) = Map.modify s.groups g (·.modT t k) := by
    refine Map.modify_congr _ _ _ _ fun G hG => congrArg (fun l => ({ G with threads := l } : Group)) (Map.modify_congr _ _ _ _ fun v hv => ?_)
    have hth : Map.get? G.threads t = some T := by simpa [State.thread?, State.group?, hG] using hT
    cases hth.symm.trans hv
    exact h
  exact congrArg (fun l => ({ s with groups := l } : State)) hm

/-- The access that asks for the first part of a context's image. -/
def withImage (s : State) (rs : List Ref) (lo : Ref) (a : Addr) (pad : Option Nat) (parts : List (Nat × Nat)) : State :=
  { s with
    accesses := s.accesses ++ [{ id := s.next, order := s.next, grp := lo.g, tid := lo.t, lane := lo.T.lane, parts := parts,
                                 kind := .image a pad (rs.map fun r => (r.g, r.t)) }],
    next := s.next + 1 }
/-- The first part of a context's image is asked for: its access, the image begun, and LD of every thread counted. -/
def imageAsked (s : State) (rs : List Ref) (lo : Ref) (n : Nat) (a : Addr) (pad : Option Nat) (parts : List (Nat × Nat)) : State :=
  rs.foldl (fun (s : State) r => s.modT r.g r.t fun T => { T with ld := T.ld + 1 })
    ((withImage s rs lo a pad parts).modT lo.g lo.t fun T => { T with image := some (some n, []) })
theorem imageAsked_absent (s : State) (rs : List Ref) (lo : Ref) (n : Nat) (a : Addr) (pad : Option Nat) (parts : List (Nat × Nat)) :
    (imageAsked s rs lo n a pad parts).absent = s.absent :=
  foldl_absent (fun (s : State) (r : Ref) => s.modT_absent r.g r.t _) rs _
theorem askImage_begins {s : State} {lo : Ref} {rs : List Ref} (hT : s.thread? lo.g lo.t = some lo.T) (him : lo.T.image = none)
    (hld : ∀ r ∈ rs, r.T.ld < 63) (n : Nat) (a : Addr) (pad : Option Nat) (parts : List (Nat × Nat)) :
    s.askImage lo rs (some n) a pad parts = (imageAsked s rs lo n a pad parts, .wait (.image s.next)) := by
  have hfull : ¬ (rs.any fun r => decide (63 ≤ r.T.ld)) = true := by
    rw [List.any_eq_true]
    rintro ⟨r, hr, h63⟩
    exact absurd (of_decide_eq_true h63) (Nat.not_le.2 (hld r hr))
  have hbegin : (withImage s rs lo a pad parts).modT lo.g lo.t (fun T => { T with image := some (T.image.getD (some n, [])) }) =
      (withImage s rs lo a pad parts).modT lo.g lo.t fun T => { T with image := some (some n, []) } :=
    State.modT_congr (s := withImage s rs lo a pad parts) hT (by rw [him]; rfl)
  exact (if_neg hfull).trans (congrArg (fun u : State =>
    (rs.foldl (fun (s : State) r => s.modT r.g r.t fun T => { T with ld := T.ld + 1 }) u, TOut.wait (.image s.next))) hbegin)
/-- What is asked for in device memory is asked for where the port refuses none of it. -/
theorem twAsk_begins {s : State} {lo : Ref} {rs : List Ref} (hT : s.thread? lo.g lo.t = some lo.T) (him : lo.T.image = none)
    (hld : ∀ r ∈ rs, r.T.ld < 63) (n : Nat) (a : Addr) (pad : Option Nat) (parts : List (Nat × Nat))
    (hport : pad = none → ∀ p ∈ parts, ∃ qs, s.port_ lo.G.ctx (s.renOf lo.G.item) .load (addOff a (p.1 : Nat)) p.2 = .ok qs) :
    twAsk s lo rs n a pad parts = allOut (imageAsked s rs lo n a pad parts) (.wait (.image s.next)) := by
  have hask := askImage_begins hT him hld n a pad parts
  cases pad with
  | some g => exact congrArg (fun p : State × TOut => allOut p.1 p.2) hask
  | none =>
    simp only [twAsk, Option.isSome_none, Bool.false_eq_true, if_false, hask]
    split
    · next t hrefused =>
      obtain ⟨p, hp, hbad⟩ := List.exists_of_findSome?_eq_some hrefused
      obtain ⟨qs, hqs⟩ := hport rfl p hp
      rw [twRead, hqs] at hbad
      cases hbad
    · rfl

/-- A Twill instruction whose bytes are still to be read asks for them, and its threads wait. -/
theorem twStep_halts {i : Instr} {op : Nat} {f : Full} {act : Ref → State → List Ref → State × (Nat → Ref → TOut)} {s u : State} {is : Issue}
    {rs : List Ref} {lo : Ref} {c : Cond} (hexec : Sys2Proof.Machine.exec i = issueAll op f (twStep act)) (hop : op ≠ 0x0A6) (hi : Issued s is rs)
    (ha : Admits op f rs) (hg : executing f rs = rs) (hlo : rs.head? = some lo) (hdr : ∀ r ∈ rs, s.drained r.g r.t = true)
    (hact : act lo s rs = allOut u (.wait c)) (hu : u.absent = s.absent) :
    ∃ t, Sys2Proof.Machine.exec i s = .next t ∧ Halts (stir (clockVol op f) u rs) t rs fun _ => c := by
  rw [hexec]
  exact issueAll_halts op f _ s is rs u (fun _ => c) hop hi ha hg (hu.trans hi.present) (twStep_all hlo hdr hact)

/-! ## Deliveries (R363, R369) -/

/-- The entries of the next delivery of n lanes. -/
def TwCtx.delivered (c : TwCtx) (n : Nat) : List (Nat × Nat × Nat) := ((c.lineOf c.dirCol c.line).drop c.pos).take n
/-- The rows whose words of the `ROWPTR` table it needs. -/
def TwCtx.tableRows (c : TwCtx) (n : Nat) : List Nat := if c.tabled then ((c.delivered n).map fun e => e.2.1).eraseDups else []
/-- The value index of an entry. -/
def TwCtx.indexOf (c : TwCtx) (lo : Ref) (n : Nat) (e : Nat × Nat × Nat) : Nat :=
  (if c.tabled then leNat ((lo.imageBytes.drop (4 * (c.tableRows n).idxOf e.2.1)).take 4) else c.countTo e.2.1) + e.2.2
/-- Whether it is the last of its line. -/
def TwCtx.ended (c : TwCtx) (n : Nat) : Bool := decide (c.pos + (c.delivered n).length = (c.lineOf c.dirCol c.line).length)
def TwCtx.advanced (c : TwCtx) (n : Nat) : TwCtx :=
  { c with pos := c.pos + (c.delivered n).length, st := if c.ended n then .done else c.st }
/-- What the lane at a place of the issue group gets. -/
def TwCtx.laneGets (c : TwCtx) (f : Full) (lo : Ref) (n i : Nat) : TRes :=
  let x : Nat := match (c.delivered n)[i]? with
    | some e => e.1 + 2 ^ 32 * c.indexOf lo n e
    | none => 2 ^ 64 - 1
  { accs := [{ kind := .deliver f.d.toNat x f.pd.toNat ((if c.ended n then TwState.done else c.st) == .done) }] }
/-- A delivery whose words have been read, and whose value indices are below 2^32 - 1. -/
structure TwCtx.Deliverable (c : TwCtx) (lo : Ref) (n : Nat) : Prop where
  read : 4 * (c.tableRows n).length ≤ lo.imageBytes.length
  index : ∀ e ∈ c.delivered n, c.indexOf lo n e < 2 ^ 32 - 1

theorem twDeliver_delivers {f : Full} {lo : Ref} {s : State} {rs : List Ref} {c : TwCtx} (h : c.Deliverable lo rs.length) (hld : ∀ r ∈ rs, r.T.ld < 63) :
    twDeliver f lo s rs c = (s.setTw lo.g (f.mod.toNat % 4) (c.advanced rs.length), fun i _ => .done (c.laneGets f lo rs.length i)) := by
  have hindex : ¬ (((c.delivered rs.length).map fun e => (e.1, c.indexOf lo rs.length e)).any fun e => decide (2 ^ 32 - 1 ≤ e.2)) = true := by
    rw [List.any_eq_true]
    rintro ⟨x, hx, hbig⟩
    obtain ⟨e, he, rfl⟩ := List.mem_map.1 hx
    exact absurd (of_decide_eq_true hbig) (Nat.not_le.2 (h.index e he))
  have hfull : ¬ (rs.any fun r => decide (63 ≤ r.T.ld)) = true := by
    rw [List.any_eq_true]
    rintro ⟨r, hr, h63⟩
    exact absurd (of_decide_eq_true h63) (Nat.not_le.2 (hld r hr))
  refine (if_neg (Nat.not_lt.2 h.read)).trans ((if_neg hindex).trans ((if_neg hfull).trans ?_))
  refine Prod.ext ?_ (funext fun i => funext fun _ => ?_)
  · simp only [List.length_map, TwCtx.advanced, TwCtx.ended, decide_eq_true_eq]
    rfl
  · simp only [List.length_map, List.getElem?_map, TwCtx.laneGets, TwCtx.ended, decide_eq_true_eq]
    cases hi : (c.delivered rs.length)[i]? <;> rw [TwCtx.delivered] at hi <;> rw [hi] <;> rfl

end Sys2Proof.Machine
end

section
/-! PROOF. Twill contexts: load, lines, deliveries, save and restore (R363 to R371): O33. -/

namespace Sys2Proof.Machine

/-! ## Programs and images as read -/

/-- A legal program is entered in its context. -/
theorem State.enterTw_legal {s : State} {g n : Nat} {c : TwCtx} {word : Nat → Nat} (hfields : twFieldsOk c.rows c.cols c.fmtb c.words.length = true)
    (hlegal : c.malformed = none) : s.enterTw g n c false word = (s.setTw g n c, .done {}) := by
  unfold State.enterTw
  rw [if_pos hfields, hlegal]
theorem Ref.imageBytes_none {r : Ref} (h : r.T.image = none) : r.imageBytes = [] := by rw [Ref.imageBytes, h]

/-- The context of a descriptor as read, its bytes and all its words (R368). -/
def twProgram (f : Full) (s : State) (lo : Ref) : TwCtx :=
  let x := leNat (lo.imageBytes.take 64)
  { desc := (s.ea lo f).toNat, values := BitVec.ofNat 64 (bitsN x 63 0), rowptr := BitVec.ofNat 64 (bitsN x 319 256), rows := bitsN x 159 128,
    cols := bitsN x 191 160, fmtb := bitsN x 207 192, words := wordsOf lo.imageBytes (bitsN x 214 208), seed := s.op32 lo f.d.toNat, st := .loaded,
    dirCol := false, line := 0, pos := 0 }
/-- A descriptor as read, with its words, of a legal program (R354, R486). -/
structure TwProgramRead (f : Full) (s : State) (lo : Ref) : Prop where
  words : 64 + 8 * bitsN (leNat (lo.imageBytes.take 64)) 214 208 ≤ lo.imageBytes.length
  bit215 : bitN (leNat (lo.imageBytes.take 64)) 215 = 0
  low : bitsN (leNat (lo.imageBytes.take 64)) 255 216 = 0
  high : bitsN (leNat (lo.imageBytes.take 64)) 511 320 = 0
  aligned : bitsN (leNat (lo.imageBytes.take 64)) 127 64 % 8 = 0
  fields : twFieldsOk (twProgram f s lo).rows (twProgram f s lo).cols (twProgram f s lo).fmtb (bitsN (leNat (lo.imageBytes.take 64)) 214 208) = true
  legal : (twProgram f s lo).malformed = none
/-- What a program entered leaves: its context, and the volatility of a seed that a node takes from a register (R199, R368). -/
def twLoaded (f : Full) (s : State) (lo : Ref) : State :=
  let c := twProgram f s lo
  if (reached c.words c.rows c.cols).any fun e => nodeKind (c.words.getD e.1 0) == 5 && bitN (c.words.getD e.1 0) 38 == 1
  then (s.setTw lo.g (f.mod.toNat % 4) c).modG lo.g (·.vol 3) else s.setTw lo.g (f.mod.toNat % 4) c

theorem actTwld_asks {f : Full} {lo : Ref} {s : State} (rs : List Ref) (hc : twCheck f false s lo = none) (ha : (s.ea lo f).toNat % 64 = 0)
    (hb : lo.imageBytes.length < 64) : actTwld f lo s rs = twAsk s lo rs (f.mod.toNat % 4) (s.ea lo f) none (pieces 0 64 16) := by
  unfold actTwld
  dsimp only
  rw [hc]
  exact (if_neg (not_not_intro ha)).trans (if_pos hb)
theorem actTwld_loads {f : Full} {lo : Ref} {s : State} (rs : List Ref) (hc : twCheck f false s lo = none) (ha : (s.ea lo f).toNat % 64 = 0)
    (h : TwProgramRead f s lo) : actTwld f lo s rs = allOut (twLoaded f s lo) (.done {}) := by
  obtain ⟨hwords, h215, hlow, hhigh, haligned, hfields, hlegal⟩ := h
  have hprog : (BitVec.ofNat 64 (bitsN (leNat (lo.imageBytes.take 64)) 127 64)).toNat % 8 = 0 := by
    rw [BitVec.toNat_ofNat, Nat.mod_mod_of_dvd _ (by decide), haligned]
  have hcount : (twProgram f s lo).words.length = bitsN (leNat (lo.imageBytes.take 64)) 214 208 := by simp [twProgram, wordsOf]
  have henter (word : Nat → Nat) := State.enterTw_legal (s := s) (g := lo.g) (n := f.mod.toNat % 4) (word := word) (hcount ▸ hfields) hlegal
  unfold actTwld
  dsimp only
  rw [hc, h215, hlow, hhigh, hprog]
  refine (if_neg (not_not_intro ha)).trans ((if_neg (by omega)).trans ((if_neg ?_).trans ((if_neg (by omega)).trans ?_)))
  · rintro (hbad | hbad)
    · exact hbad rfl
    · exact hbad hfields
  · unfold twProgram at henter
    rw [henter]
    simp only [beq_self_eq_true, and_true]
    rfl

theorem twLoaded_absent (f : Full) (s : State) (lo : Ref) : (twLoaded f s lo).absent = s.absent := by
  unfold twLoaded
  dsimp only
  split <;> rfl
theorem actTwrest_asks {f : Full} {lo : Ref} {s : State} (rs : List Ref) (hc : twCheck f false s lo = none) (ha : s.eo lo f % 64 = 0)
    (hb : lo.imageBytes.length < 64) :
    actTwrest f lo s rs = twAsk s lo rs (f.mod.toNat % 4) (BitVec.ofNat 64 (s.eo lo f)) (some lo.g) (pieces 0 64 16) := by
  unfold actTwrest
  dsimp only
  rw [hc]
  exact (if_neg (not_not_intro ha)).trans (if_pos hb)
/-- The image of an EMPTY context empties the context (R370). -/
theorem actTwrest_empties {f : Full} {lo : Ref} {s : State} (rs : List Ref) (hc : twCheck f false s lo = none) (ha : s.eo lo f % 64 = 0)
    (hb : 64 ≤ lo.imageBytes.length) (hempty : bitN (leNat (lo.imageBytes.take 64)) 216 = 0) :
    actTwrest f lo s rs = allOut (s.emptyTw lo.g (f.mod.toNat % 4)) (.done {}) := by
  unfold actTwrest
  dsimp only
  rw [hc]
  exact (if_neg (not_not_intro ha)).trans ((if_neg (Nat.not_lt.2 hb)).trans (if_pos hempty))
theorem TwState.of_code (t : TwState) :
    (if t.code = 0 then TwState.loaded else if t.code = 1 then .active else .done) = t ∧ t.code ≠ 3 := by cases t <;> decide
/-- A saved image restores its context (R366, R370). -/
theorem actTwrest_restores {f : Full} {lo : Ref} {s : State} {c : TwCtx} (rs : List Ref) (hc : twCheck f false s lo = none) (ha : s.eo lo f % 64 = 0)
    (hbytes : lo.imageBytes = c.image) (hfit : c.Fits) (hfields : twFieldsOk c.rows c.cols c.fmtb c.words.length = true) (hlegal : c.malformed = none) :
    actTwrest f lo s rs = allOut (s.setTw lo.g (f.mod.toNat % 4) { c with desc := s.eo lo f }) (.done {}) := by
  have hlen : c.image.length = 64 + 8 * c.words.length := by rw [c.image_eq, List.length_append, c.head_length, words_length]
  obtain ⟨h215, hcount⟩ := TwCtx.headNat_count hfit
  obtain ⟨hfull, hstate, hdir, hflags⟩ := c.headNat_flags
  obtain ⟨hst, h3⟩ := c.st.of_code
  have hwords : wordsOf c.image c.words.length = c.words := by
    rw [c.image_eq]
    exact wordsOf_words c.words hfit.words _ c.head_length
  have hnw : ¬ (bitN c.headNat 215 = 1 ∨ 64 < bitsN c.headNat 214 208) := by
    rw [h215, hcount]
    exact fun h => h.elim (by decide) (Nat.not_lt.2 hfit.count)
  have hdirCol : ((if c.dirCol then 1 else 0 : Nat) == 1) = c.dirCol := by cases c.dirCol <;> rfl
  unfold actTwrest
  dsimp only
  rw [hc, hbytes, c.take_image, if_neg hnw, hfull, hcount, hwords, hstate, hst, hdir, hdirCol, hflags, TwCtx.headNat_values, TwCtx.headNat_rowptr,
    TwCtx.headNat_rows hfit, TwCtx.headNat_cols hfit, TwCtx.headNat_fmtb hfit, TwCtx.headNat_seed hfit, TwCtx.headNat_line hfit,
    TwCtx.headNat_pos hfit, TwCtx.headNat_reserved, BitVec.ofNat_toNat, BitVec.ofNat_toNat, BitVec.setWidth_eq, BitVec.setWidth_eq]
  refine (if_neg (not_not_intro ha)).trans ((if_neg (by omega)).trans ((if_neg (by decide)).trans ((if_neg (by omega)).trans ?_)))
  have henter (word : Nat → Nat) := State.enterTw_legal (s := s) (g := lo.g) (n := f.mod.toNat % 4) (word := word)
    (c := { c with desc := s.eo lo f }) hfields hlegal
  simp only [h3, ne_eq, not_true_eq_false, or_self, decide_false, henter]

/-- The image that `twsave` writes: 64 zeros of an EMPTY context (R370). -/
def twSaved (f : Full) (s : State) (lo : Ref) : List Byte :=
  match s.tw lo.g (f.mod.toNat % 4) with | some c => c.image | none => List.replicate 64 0
/-- What `twsave` starts at a place of the issue group: the lowest thread has the one access, all count it in ST. -/
def twSaves (f : Full) (s : State) (lo : Ref) (rs : List Ref) (i : Nat) : TRes :=
  if i = 0 then
    { accs := [{ kind := .twsave (s.eo lo f) (twSaved f s lo) (rs.map fun r => (r.g, r.t)), parts := cutsOf 16 (s.eo lo f) (twSaved f s lo).length }] }
  else { st := 1 }
theorem twSaves_sts (f : Full) (s : State) (lo : Ref) (rs : List Ref) (i : Nat) : (twSaves f s lo rs i).sts = 1 := by
  unfold twSaves
  split <;> rfl
theorem actTwsave_saves {f : Full} {lo : Ref} {s : State} {rs : List Ref} (hc : twCheck f false s lo = none) (ha : s.eo lo f % 64 = 0)
    (hst : ∀ r ∈ rs, r.T.st < 63) : actTwsave f lo s rs = (s, fun i _ => .done (twSaves f s lo rs i)) := by
  have hfull : ¬ (rs.any fun r => decide (63 ≤ r.T.st)) = true := by
    rw [List.any_eq_true]
    rintro ⟨r, hr, h63⟩
    exact absurd (of_decide_eq_true h63) (Nat.not_le.2 (hst r hr))
  unfold actTwsave
  dsimp only
  rw [hc]
  exact (if_neg (not_not_intro ha)).trans (if_neg hfull)

/-! ## Lines -/

theorem actTwline_enters {col : Bool} {f : Full} {lo : Ref} {s : State} {c : TwCtx} (rs : List Ref) (hc : twCheck f true s lo = none)
    (htw : s.tw lo.g (f.mod.toNat % 4) = some c) (hline : s.b32 lo f.b < (if col then c.cols else c.rows)) (hway : col = true → c.oneWay = none) :
    actTwline col f lo s rs = twDeliver f lo s rs { c with dirCol := col, line := s.b32 lo f.b, pos := 0, st := .active } := by
  have hone : (if col then c.oneWay else none) = none := by
    cases col with
    | false => rfl
    | true => exact hway rfl
  unfold actTwline
  rw [hc, htw]
  refine (if_neg (Nat.not_le.2 hline)).trans ?_
  rw [hone]
/-- The delivery of a line that has none left: all ones, and the end (R369). -/
def allOnes (f : Full) : TRes := { accs := [{ kind := .deliver f.d.toNat (2 ^ 64 - 1) f.pd.toNat true }] }
theorem actTwnext_goesOn {f : Full} {lo : Ref} {s : State} {c : TwCtx} (rs : List Ref) (hc : twCheck f true s lo = none)
    (htw : s.tw lo.g (f.mod.toNat % 4) = some c) (hst : c.st = .active) : actTwnext f lo s rs = twDeliver f lo s rs c := by
  unfold actTwnext
  rw [hc, htw]
  exact if_neg (not_not_intro hst)
theorem actTwnext_ends {f : Full} {lo : Ref} {s : State} {c : TwCtx} (rs : List Ref) (hc : twCheck f true s lo = none)
    (htw : s.tw lo.g (f.mod.toNat % 4) = some c) (hst : c.st ≠ .active) : actTwnext f lo s rs = allOut s (.done (allOnes f)) := by
  unfold actTwnext
  rw [hc, htw]
  exact if_pos hst

theorem Thread.setRegs_ld (T : Thread) (l : List (Nat × Nat)) : (T.setRegs l).ld = T.ld :=
  foldl_field Thread.ld (fun (T : Thread) (e : Nat × Nat) => T.setV e.1 e.2) (fun _ _ => rfl) l T
theorem Thread.setP_ld (T : Thread) (n : Nat) (b : Bool) : (T.setP n b).ld = T.ld := by
  unfold Thread.setP
  split <;> rfl
theorem State.dropAcc_gone (s : State) (id : Nat) : (s.dropAcc id).access? id = none := by
  refine List.find?_eq_none.2 fun a ha => ?_
  simpa using (List.mem_filter.1 ha).2
/-- The delivery of a line reaches the registers: it is gone, and LD falls (R367, R369). -/
theorem deliver_returns {s : State} {a : Access} {G : Group} {T : Thread} {d x pd : Nat} {ends : Bool} (h : Due s a G T)
    (hkind : a.kind = .deliver d x pd ends) (hrem : a.remote = none) :
    Gives (.loadDataReturn a.id) s fun t => t.mem = s.mem ∧ OthersStay s t a.grp a.tid ∧ t.access? a.id = none ∧
      t.thread? a.grp a.tid = some { (T.setRegs (wr2 d x)).setP pd ends with ld := T.ld - 1 } := by
  obtain ⟨hhere, hgroup, hthread, hturn, hpresent⟩ := h
  have hown : a.owners = [(a.grp, a.tid)] := by rw [Access.owners, hkind]
  have hturn' : ¬ (¬ s.turn a = true ∨ a.remote.isSome = true) := by simp [hturn, hrem]
  have hret : s.loadReturn a.id =
      (((s.accStep a []).modT a.grp a.tid fun T => (T.setRegs (wr2 d x)).setP pd ends).modT a.grp a.tid fun T => { T with ld := T.ld - 1 }).dropAcc a.id := by
    unfold State.loadReturn
    rw [hhere]
    dsimp only
    rw [hgroup]
    refine (if_neg hturn').trans ?_
    rw [hkind]
    simp only [State.accDone, State.lowerLd, State.lowerSt, hkind, hown, AccKind.countsLd, AccKind.countsSt, AccKind.scope, if_true, List.foldl_cons,
      List.foldl_nil]
    rfl
  have hat (g k : Nat) : (s.loadReturn a.id).thread? g k =
      if g = a.grp ∧ k = a.tid then some { (T.setRegs (wr2 d x)).setP pd ends with ld := T.ld - 1 } else s.thread? g k := by
    have hT : (s.accStep a []).thread? a.grp a.tid = some T := hthread
    have hld : ((T.setRegs (wr2 d x)).setP pd ends).ld = T.ld := (Thread.setP_ld _ _ _).trans (Thread.setRegs_ld _ _)
    rw [hret]
    refine (State.thread?_modT _ _ _ g k _).trans ?_
    split
    · rw [State.thread?_modT, if_pos ⟨rfl, rfl⟩, hT, Option.map_some, Option.map_some, hld]
    · next hne => exact (State.thread?_modT _ _ _ g k _).trans (if_neg hne)
  refine ⟨s.loadReturn a.id, finish_of_present _ (by rw [hret]; exact hpresent), ?_, fun g k hne => ?_, ?_, (hat _ _).trans (if_pos ⟨rfl, rfl⟩)⟩
  · rw [hret]
    rfl
  · rw [hat, if_neg fun h => hne (Prod.ext h.1 h.2)]
  · rw [hret]
    exact State.dropAcc_gone _ _

/-! ## The instructions -/

section
variable {i : Instr} {op : Nat} {f : Full} {act : Ref → State → List Ref → State × (Nat → Ref → TOut)}

/-- An instruction whose first bytes are to be read: it asks for them, and its threads wait. -/
theorem twHead_asked {s : State} {is : Issue} {rs : List Ref} {lo : Ref} {a : Addr} {pad : Option Nat}
    (hexec : Sys2Proof.Machine.exec i = issueAll op f (twStep act)) (hop : op ≠ 0x0A6) (hi : Issued s is rs) (ha : Admits op f rs)
    (hg : executing f rs = rs) (hlo : rs.head? = some lo) (hdr : ∀ r ∈ rs, s.drained r.g r.t = true)
    (hact : act lo s rs = twAsk s lo rs (f.mod.toNat % 4) a pad (pieces 0 64 16)) (him : lo.T.image = none) (hld : ∀ r ∈ rs, r.T.ld < 63)
    (hport : pad = none → ∀ k, k < 4 → ∃ qs, s.port_ lo.G.ctx (s.renOf lo.G.item) .load (addOff a (16 * k : Nat)) 16 = .ok qs) :
    ∃ t, Sys2Proof.Machine.exec i s = .next t ∧
      Halts (stir (clockVol op f) (imageAsked s rs lo (f.mod.toNat % 4) a pad (pieces 0 64 16)) rs) t rs fun _ => .image s.next := by
  have hT : s.thread? lo.g lo.t = some lo.T := (hi.mem lo (List.mem_of_mem_head? (Option.mem_def.2 hlo))).2
  refine twStep_halts hexec hop hi ha hg hlo hdr (hact.trans (twAsk_begins hT him hld _ _ _ _ fun hpad p hp => ?_)) (imageAsked_absent _ _ _ _ _ _ _)
  obtain ⟨k, hk, rfl⟩ := List.mem_map.1 hp
  have hk4 : k < 4 := List.mem_range.1 hk
  simpa using hport hpad k hk4

/-- The lowest thread of an issue group with the context that the instruction names. -/
def twLowest (f : Full) (s : State) (rs : List Ref) : Option (Ref × TwCtx) :=
  match rs.head? with | some lo => (s.tw lo.g (f.mod.toNat % 4)).map fun c => (lo, c) | none => none
theorem twLowest_eq_some {s : State} {rs : List Ref} {lo : Ref} {c : TwCtx} (h : twLowest f s rs = some (lo, c)) :
    rs.head? = some lo ∧ s.tw lo.g (f.mod.toNat % 4) = some c := by
  unfold twLowest at h
  split at h
  · next q hq =>
    obtain ⟨d, hd, he⟩ := Option.map_eq_some_iff.1 h
    cases he
    exact ⟨hq, hd⟩
  · cases h
/-- An instruction that delivers to its lanes, or ends, whenever its context stands as `ok` says. -/
theorem twLane_allDo {ok : State → List Ref → Ref → TwCtx → Prop} {eff : State → List Ref → Ref → TwCtx → State}
    {res : State → List Ref → Ref → TwCtx → Nat → TRes} (hexec : Sys2Proof.Machine.exec i = issueAll op f (twStep act)) (hop : op ≠ 0x0A6)
    (hdr : ∀ s rs lo c, ok s rs lo c → ∀ r ∈ rs, s.drained r.g r.t = true)
    (hacts : ∀ s rs lo c, ok s rs lo c → (∀ r ∈ rs, r.T.ld < 63) → s.tw lo.g (f.mod.toNat % 4) = some c →
      act lo s rs = (eff s rs lo c, fun i _ => .done (res s rs lo c i)))
    (hlds : ∀ s rs lo c i, (res s rs lo c i).lds = 1) (hab : ∀ s rs lo c, (eff s rs lo c).absent = s.absent) :
    AllDo i op f (fun s rs => rs = [] ∨ ∃ lo c, twLowest f s rs = some (lo, c) ∧ ok s rs lo c)
      (fun s rs => match twLowest f s rs with | some (lo, c) => eff s rs lo c | none => s)
      (fun s rs r => match twLowest f s rs with | some (lo, c) => res s rs lo c (rs.findIdx (· == r)) | none => {}) := by
  refine allDo_of_room hexec hop (fun s rs hnd hok hroom => ?_) fun s rs _ => ?_
  · obtain rfl | ⟨lo, c, hctx, hok⟩ := hok
    · rfl
    · obtain ⟨hlo, htw⟩ := twLowest_eq_some hctx
      rw [hctx]
      rw [hctx] at hroom
      refine twStep_acts hnd hlo (hdr s rs lo c hok) (hacts s rs lo c hok (fun r hr => ?_) htw)
      have hld := (hroom r hr).1
      rw [hlds] at hld
      omega
  · cases twLowest f s rs with
    | none => rfl
    | some e => exact hab s rs e.1 e.2

end

/-- Settles O33: what an instruction still has to read it asks for; else its one act is that of the context as it stands. -/
theorem twillResults : Obligations.TwillResults := by
  unfold Obligations.TwillResults
  intro f cn ready asked asks D nw W
  refine ⟨?_, ?_, ?_⟩
  · intro s is rs lo hi ha hg hlo hready haligned him hld hport
    obtain ⟨hdr, hcheck⟩ := hready
    exact twHead_asked (act := actTwld f) rfl (by decide) hi ha hg hlo hdr (actTwld_asks rs hcheck haligned (by rw [Ref.imageBytes_none him]; decide)) him hld fun _ => hport rfl
  · refine twStep_allDo (act := actTwld f) rfl (by decide) (fun s rs lo h => ?_) fun s lo => ?_
    · obtain ⟨⟨hdr, hcheck⟩, haligned, hwords, h215, hlow, hhigh, hprog, hfields, hlegal⟩ := h
      exact ⟨hdr, actTwld_loads rs hcheck haligned ⟨hwords, h215, hlow, hhigh, hprog, hfields, hlegal⟩⟩
    · exact twLoaded_absent f s lo
  intro line here table index fine ended after lane ctx entered lined
  have hlines (i : Instr) (code : Nat) (col : Bool) (hexec : Sys2Proof.Machine.exec i = issueAll code f (twStep (actTwline col f)))
      (hop : code ≠ 0x0A6) : lined i code col := by
    refine twLane_allDo (f := f) (ok := fun s rs lo c => ready true s rs lo ∧ s.b32 lo f.b < (if col then c.cols else c.rows) ∧
      (col = true → c.oneWay = none) ∧ fine (entered col s lo c) rs lo) (eff := fun s rs lo c => after s (entered col s lo c) rs lo)
      (res := fun s rs lo c i => (entered col s lo c).laneGets f lo rs.length i) hexec hop (fun s rs lo c h => h.1.1)
      (fun s rs lo c h hld htw => ?_) (fun _ _ _ _ _ => rfl) fun _ _ _ _ => rfl
    obtain ⟨⟨_, hcheck⟩, hline, hway, hread, hindex⟩ := h
    exact (actTwline_enters rs hcheck htw hline hway).trans (twDeliver_delivers ⟨hread, hindex⟩ hld)
  refine ⟨hlines _ _ _ rfl (by decide), hlines _ _ _ rfl (by decide), ?_, fun s a G T d x pd ends h hkind hrem _ => deliver_returns h hkind hrem, ?_⟩
  · refine twLane_allDo (act := actTwnext f) (ok := fun s rs lo c => ready true s rs lo ∧ (c.st = .active → fine c rs lo))
      (eff := fun s rs lo c => if c.st = .active then after s c rs lo else s)
      (res := fun s rs lo c i => if c.st = .active then c.laneGets f lo rs.length i else allOnes f) rfl (by decide) (fun s rs lo c h => h.1.1)
      (fun s rs lo c h hld htw => ?_) (fun _ _ _ c _ => ?_) fun s _ lo c => ?_
    · obtain ⟨⟨_, hcheck⟩, hfine⟩ := h
      by_cases hst : c.st = .active
      · obtain ⟨hread, hindex⟩ := hfine hst
        simp only [if_pos hst]
        exact (actTwnext_goesOn rs hcheck htw hst).trans (twDeliver_delivers ⟨hread, hindex⟩ hld)
      · simp only [if_neg hst]
        exact actTwnext_ends rs hcheck htw hst
    · split <;> rfl
    · split <;> rfl
  intro saved
  refine ⟨?_, ?_, ?_, ?_⟩
  · refine allDo_of_room (fn := twStep (actTwsave f)) rfl (by decide) (fun s rs hnd hok hroom => ?_) fun _ _ _ => rfl
    cases hlo : rs.head? with
    | none =>
      rw [List.head?_eq_none_iff.1 hlo]
      rfl
    | some lo =>
      obtain ⟨⟨hdr, hcheck⟩, haligned⟩ := hok lo hlo
      rw [hlo] at hroom
      refine twStep_acts hnd hlo hdr (actTwsave_saves hcheck haligned fun r hr => ?_)
      obtain ⟨_, hst, _⟩ := hroom r hr
      exact (Nat.add_le_add_left (twSaves_sts f s lo rs _).ge _).trans hst
  · intro s is rs lo hi ha hg hlo hready haligned him hld _
    obtain ⟨hdr, hcheck⟩ := hready
    exact twHead_asked (act := actTwrest f) rfl (by decide) hi ha hg hlo hdr (actTwrest_asks rs hcheck haligned (by rw [Ref.imageBytes_none him]; decide)) him hld fun hnone => nomatch hnone
  · refine twStep_allDo (act := actTwrest f) rfl (by decide) (fun s rs lo h => ?_) fun s lo => rfl
    obtain ⟨⟨hdr, hcheck⟩, haligned, hlen, hempty⟩ := h
    exact ⟨hdr, actTwrest_empties rs hcheck haligned hlen hempty⟩
  · intro c hrows hcols hfmtb hseed hline hpos hcount hwords hfields hlegal
    refine twStep_allDo (act := actTwrest f) rfl (by decide) (fun s rs lo h => ?_) fun s lo => rfl
    obtain ⟨⟨hdr, hcheck⟩, haligned, hbytes⟩ := h
    exact ⟨hdr, actTwrest_restores rs hcheck haligned hbytes ⟨hrows, hcols, hfmtb, hseed, hline, hpos, hcount, hwords⟩ hfields hlegal⟩

end Sys2Proof.Machine
end

section
/-! SUPPORT. An issue group whose threads change by themselves, each in its own way: what stands, and the delivery of traps that return
behind their instruction (R321, R432). O34 and O35. -/

namespace Sys2Proof.Machine

theorem modify_comm {α : Type} (m : Sparse α) (a b : Nat) (f h : α → α) (hfh : ∀ x, f (h x) = h (f x)) :
    Map.modify (Map.modify m a f) b h = Map.modify (Map.modify m b h) a f := by
  induction m with
  | nil => rfl
  | cons e m ih =>
    obtain ⟨k, v⟩ := e
    by_cases ha : a = k <;> by_cases hb : b = k <;> simp [Map.modify, ha, hb, ih, hfh]

/-- The threads of an issue group changed, each in its own way. -/
def State.modRefs (s : State) (rs : List Ref) (k : Ref → Thread → Thread) : State := rs.foldl (fun (s : State) r => s.modT r.g r.t (k r)) s

theorem State.modRefs_thread_others (k : Ref → Thread → Thread) (rs : List Ref) (g t : Nat) : ∀ s : State, (∀ r ∈ rs, ¬ (r.g = g ∧ r.t = t)) →
    (s.modRefs rs k).thread? g t = s.thread? g t := by
  induction rs with
  | nil => exact fun _ _ => rfl
  | cons r rs ih =>
    intro s h
    refine (ih (s.modT r.g r.t (k r)) fun q hq => h q (List.mem_cons_of_mem r hq)).trans ?_
    rw [State.thread?_modT, if_neg fun e => h r List.mem_cons_self ⟨e.1.symm, e.2.symm⟩]
theorem State.modRefs_thread (k : Ref → Thread → Thread) (rs : List Ref) (r : Ref) (hr : r ∈ rs) : ∀ s : State, (rs.map fun r => (r.g, r.t)).Nodup →
    (s.modRefs rs k).thread? r.g r.t = (s.thread? r.g r.t).map (k r) := by
  induction rs with
  | nil => exact nomatch hr
  | cons q rs ih =>
    intro s hnd
    rw [List.map_cons, List.nodup_cons] at hnd
    obtain ⟨hq, hnd⟩ := hnd
    obtain rfl | hr' := List.mem_cons.1 hr
    · refine (State.modRefs_thread_others k rs r.g r.t (s.modT r.g r.t (k r)) fun x hx e => hq (List.mem_map.2 ⟨x, hx, by rw [e.1, e.2]⟩)).trans ?_
      rw [State.thread?_modT, if_pos ⟨rfl, rfl⟩]
    · refine (ih hr' (s.modT q.g q.t (k q)) hnd).trans ?_
      rw [State.thread?_modT, if_neg fun e => hq (List.mem_map.2 ⟨r, hr', by rw [e.1, e.2]⟩)]
theorem State.modRefs_group (k : Ref → Thread → Thread) (rs : List Ref) (g : Nat) : ∀ (s : State) (G : Group), s.group? g = some G →
    ∃ G', (s.modRefs rs k).group? g = some G' ∧ ({ G' with threads := G.threads } : Group) = G := by
  induction rs with
  | nil => exact fun s G hG => ⟨G, hG, rfl⟩
  | cons r rs ih =>
    intro s G hG
    have hstep := State.group?_modG s r.g g (·.modT r.t (k r))
    by_cases hg : g = r.g
    · subst hg
      rw [if_pos rfl, hG] at hstep
      obtain ⟨G', h1, h2⟩ := ih _ _ hstep
      have h3 := congrArg (fun x : Group => ({ x with threads := G.threads } : Group)) h2
      exact ⟨G', h1, h3⟩
    · rw [if_neg hg, hG] at hstep
      exact ih _ _ hstep
theorem State.modRefs_noMore (k : Ref → Thread → Thread) (rs : List Ref) (g : Nat) : ∀ s : State, s.group? g = none → (s.modRefs rs k).group? g = none := by
  induction rs with
  | nil => exact fun _ h => h
  | cons r rs ih =>
    intro s h
    refine ih _ ((State.group?_modG s r.g g _).trans ?_)
    split
    · next hg => rw [← hg, h]; rfl
    · exact h
theorem State.modRefs_rest (k : Ref → Thread → Thread) (rs : List Ref) : ∀ s : State, ({ s.modRefs rs k with groups := s.groups } : State) = s := by
  induction rs with
  | nil => exact fun _ => rfl
  | cons r rs ih =>
    intro s
    have h := congrArg (fun x : State => ({ x with groups := s.groups } : State)) (ih (s.modT r.g r.t (k r)))
    exact h
theorem State.volAt_modT (s : State) (g t h vol : Nat) (f : Thread → Thread) : (s.modT g t f).volAt h vol = (s.volAt h vol).modT g t f := by
  unfold State.volAt
  split
  · rfl
  · exact congrArg (fun l => ({ s with groups := l } : State)) (modify_comm s.groups g h _ _ fun _ => rfl)
theorem State.volAt_modRefs (k : Ref → Thread → Thread) (h vol : Nat) (rs : List Ref) : ∀ s : State,
    (s.modRefs rs k).volAt h vol = (s.volAt h vol).modRefs rs k := by
  induction rs with
  | nil => exact fun _ => rfl
  | cons r rs ih => exact fun s => (ih (s.modT r.g r.t (k r))).trans (congrArg (fun u : State => u.modRefs rs k) (s.volAt_modT r.g r.t h vol (k r)))
/-- The volatility of operands and changes of the threads themselves stand side by side. -/
theorem stir_modRefs (k : Ref → Thread → Thread) (vol : Nat) (rs l : List Ref) : ∀ s : State,
    stir vol (s.modRefs rs k) l = (stir vol s l).modRefs rs k := by
  induction l with
  | nil => exact fun _ => rfl
  | cons r l ih => exact fun s => (congrArg (fun u => stir vol u l) (s.volAt_modRefs k r.g vol rs)).trans (ih (s.volAt r.g vol))

/-! ## Traps that return behind their instruction -/

/-- The PCs of the threads moved. -/
def State.moveOn (u : State) (rs : List Ref) (next : Ref → Addr) : State := u.modRefs rs fun r T => { T with pc := next r }
/-- A thread of the issue group as it stands once the PCs have moved. -/
def Ref.behind (u : State) (next : Ref → Addr) (r : Ref) : Ref := { r with G := (u.group? r.g).getD r.G, T := { r.T with pc := next r } }
/-- The thread of the issue group that such a thread was. -/
def origin (rs : List Ref) (q : Ref) : Ref := (rs.find? fun r => decide (r.g = q.g ∧ r.t = q.t)).getD q

theorem origin_behind (u : State) (next : Ref → Addr) (rs : List Ref) (hnd : (rs.map fun r => (r.g, r.t)).Nodup) (r : Ref) (hr : r ∈ rs) :
    origin rs (r.behind u next) = r := by
  unfold origin
  cases hq : rs.find? fun q => decide (q.g = (r.behind u next).g ∧ q.t = (r.behind u next).t) with
  | none => exact absurd (decide_eq_true ⟨rfl, rfl⟩) (List.find?_eq_none.1 hq r hr)
  | some q =>
    have hkey := List.find?_some hq
    obtain ⟨hg, ht⟩ := of_decide_eq_true hkey
    exact List.inj_on_of_nodup_map hnd (List.mem_of_find?_eq_some hq) hr (Prod.ext hg ht)
theorem mates_behind (u : State) (next : Ref → Addr) (rs : List Ref) (r : Ref) :
    mates (rs.map (Ref.behind u next)) (r.behind u next) = (mates rs r).map (Ref.behind u next) := List.filter_map ..

/-- Threads whose PCs have moved take their traps: they return to where they moved. -/
theorem moveOn_enters (u : State) (rs : List Ref) (trap : Ref → Trap) (next : Ref → Addr)
    (hmem : ∀ r ∈ rs, (∃ G, u.group? r.g = some G ∧ ({ G with trace := r.G.trace } : Group) = r.G) ∧ u.thread? r.g r.t = some r.T)
    (hnd : (rs.map fun r => (r.g, r.t)).Nodup) (hcan : CanTrap rs) (hpre : ∀ r ∈ rs, (trap r).cause ≠ 0x20) :
    Enters u ((u.moveOn rs next).deliver (rs.map fun r => (r.g, r.t, trap r))) rs trap next := by
  have hgroup (r : Ref) (hr : r ∈ rs) : ∃ G, (u.moveOn rs next).group? r.g = some G ∧ (r.behind (u.moveOn rs next) next).G = G ∧
      G.handler = r.G.handler ∧ G.lr = r.G.lr ∧ G.open_ = r.G.open_ ∧ G.heldDel = r.G.heldDel := by
    obtain ⟨⟨G, hG, htrace⟩, _⟩ := hmem r hr
    obtain ⟨G', hG', hthreads⟩ := State.modRefs_group (fun r T => { T with pc := next r }) rs r.g u G hG
    refine ⟨G', hG', by rw [Ref.behind, State.moveOn, hG']; rfl, ?_⟩
    rw [← htrace, ← hthreads]
    exact ⟨rfl, rfl, rfl, rfl⟩
  have hthread (r : Ref) (hr : r ∈ rs) : (u.moveOn rs next).thread? r.g r.t = (u.thread? r.g r.t).map fun T => { T with pc := next r } :=
    State.modRefs_thread _ rs r hr u hnd
  have hback (r : Ref) (hr : r ∈ rs) := origin_behind (u.moveOn rs next) next rs hnd r hr
  obtain ⟨hthreads, hothers, hgroups, hnone, hrest⟩ := deliver_enters (u.moveOn rs next) (rs.map (Ref.behind (u.moveOn rs next) next)) (fun q => trap (origin rs q))
    (fun q hq => by
      obtain ⟨r, hr, rfl⟩ := List.mem_map.1 hq
      obtain ⟨G, hG, hself, _⟩ := hgroup r hr
      exact ⟨⟨G, hG, by rw [hself]⟩, by rw [Ref.behind, hthread r hr, (hmem r hr).2]; rfl⟩)
    (by rw [List.map_map]; exact hnd)
    (fun q hq => by
      obtain ⟨r, hr, rfl⟩ := List.mem_map.1 hq
      obtain ⟨G, _, hself, hhandler, hlr, hopen, hheld⟩ := hgroup r hr
      rw [hself, hhandler, hlr, hopen, hheld]
      exact hcan r hr)
    (fun q hq => by
      obtain ⟨r, hr, rfl⟩ := List.mem_map.1 hq
      rw [hback r hr]
      exact hpre r hr)
  have htraps : ((rs.map (Ref.behind (u.moveOn rs next) next)).map fun r => (r.g, r.t, trap (origin rs r))) = rs.map fun r => (r.g, r.t, trap r) := by
    rw [List.map_map]
    exact List.map_congr_left fun r hr => by rw [Function.comp_apply, hback r hr]; rfl
  rw [htraps] at hthreads hothers hgroups hnone hrest
  refine ⟨fun r hr => ?_, fun g k hne => ?_, fun g G hG => ?_, fun g hg => hnone g (State.modRefs_noMore _ rs g u hg), ?_⟩
  · obtain ⟨G, _, hself, hhandler, hlr, _, _⟩ := hgroup r hr
    have h := hthreads _ (List.mem_map_of_mem hr)
    rw [hback r hr, hself, hhandler, hlr, mates_behind, List.foldl_map] at h
    refine h.trans ?_
    rw [show (r.behind (u.moveOn rs next) next).g = r.g from rfl, show (r.behind (u.moveOn rs next) next).t = r.t from rfl, hthread r hr, Option.map_map]
    have hclock := congrArg State.clock (State.modRefs_rest (fun r T => { T with pc := next r }) rs u)
    rw [show (u.moveOn rs next).clock = u.clock from hclock]
    rfl
  · refine (hothers g k fun q hq => ?_).trans (State.modRefs_thread_others _ rs g k u hne)
    obtain ⟨r, hr, rfl⟩ := List.mem_map.1 hq
    exact hne r hr
  · obtain ⟨G', hG', hsame⟩ := State.modRefs_group (fun r T => { T with pc := next r }) rs g u G hG
    obtain ⟨H, l, hH, hframe, hopen, hall, hof⟩ := hgroups g G' hG'
    have hframe' : ({ H with threads := G.threads, open_ := G.open_ } : Group) = G := by
      have h := congrArg (fun x : Group => ({ x with threads := G.threads, open_ := G.open_ } : Group)) hframe
      have h' := congrArg (fun x : Group => ({ x with open_ := G.open_ } : Group)) hsame
      exact Eq.trans h h'
    have hopen' : G'.open_ = G.open_ := by rw [← hsame]
    refine ⟨H, l, hH, hframe', hopen.trans (by rw [hopen']), fun r hr hg => hall (r.behind _ next) (List.mem_map_of_mem hr) hg, fun d hd => ?_⟩
    obtain ⟨q, hq, hqg, hwarp, htids, hpreempt⟩ := hof d hd
    obtain ⟨r, hr, rfl⟩ := List.mem_map.1 hq
    refine ⟨r, hr, hqg, hwarp, htids.trans ?_, hpreempt⟩
    rw [mates_behind, List.map_map]
    rfl
  · have h := congrArg (fun x : State => ({ x with groups := u.groups } : State)) hrest
    exact Eq.trans h (State.modRefs_rest _ rs u)

end Sys2Proof.Machine
end

section
/-! PROOF. `trap` and `brkpt` (R321, R430 to R434): O34. -/

namespace Sys2Proof.Machine

/-- The threads' own arguments, whatever PCs have moved before them. -/
theorem raise_fold (x : Nat → Trap) (f : Full) {s : State} {is : Issue} (hs : s.issue = some is) (l : List Ref) : ∀ (u : State) (acc : List (Ref × TOut)),
    ({ u with groups := s.groups } : State) = s →
    l.foldl (fun (acc : State × List (Ref × TOut)) r => ((actRaise x f acc.1 r).1, acc.2 ++ [(r, (actRaise x f acc.1 r).2)])) (u, acc) =
      (u.moveOn l fun r => addOff r.T.pc is.len, acc ++ l.map fun r => (r, .trap (x (s.b32 r f.b)))) := by
  induction l with
  | nil => exact fun u acc _ => by simp [State.moveOn, State.modRefs]
  | cons r l ih =>
    intro u acc hu
    have hu' : u = { s with groups := u.groups } := by rw [← hu]
    have hb : u.b32 r f.b = s.b32 r f.b := by rw [hu', State.b32_groups]
    have hnext : u.nextPc r = addOff r.T.pc is.len := by rw [hu', State.nextPc, State.len, hs]
    have hact : actRaise x f u r = (u.modT r.g r.t fun T => { T with pc := addOff r.T.pc is.len }, .trap (x (s.b32 r f.b))) := by
      simp only [actRaise, hb, hnext]
    rw [List.foldl_cons, hact]
    refine (ih (u.modT r.g r.t _) _ hu).trans ?_
    simp only [List.map_cons, List.append_assoc, List.singleton_append]
    rfl
theorem actRaise_turns (x : Nat → Trap) (f : Full) {s : State} {is : Issue} (hs : s.issue = some is) (rs : List Ref) :
    rs.foldl (fun (acc : State × List (Ref × TOut)) r => let (s, o) := actRaise x f acc.1 r; (s, acc.2 ++ [(r, o)])) (s, []) =
      (s.moveOn rs fun r => addOff r.T.pc is.len, rs.map fun r => (r, .trap (x (s.b32 r f.b)))) := by
  simpa using raise_fold x f hs rs s [] rfl
/-- A raised trap of threads that may take it enters the handler and returns behind the instruction (R321). -/
theorem raise_enters {op : Nat} {f : Full} {x : Nat → Trap} {s : State} {is : Issue} {rs : List Ref} (hop : op ≠ 0x0A6) (hi : Issued s is rs)
    (ha : Admits op f rs) (hg : executing f rs = rs) (hcan : CanTrap rs) (hpre : ∀ n, (x n).cause ≠ 0x20) :
    ∃ t, issueTurn op f (actRaise x f) s = .next t ∧
      Enters (stir (clockVol op f) s rs) t rs (fun r => x (s.b32 r f.b)) fun r => addOff r.T.pc is.len := by
  have he := moveOn_enters (stir (clockVol op f) s rs) rs (fun r => x (s.b32 r f.b)) (fun r => addOff r.T.pc is.len) (fun r hr => ⟨by
    obtain ⟨H, h1, h2⟩ := stir_group (clockVol op f) r.g rs s r.G (hi.mem r hr).1
    exact ⟨H, h1, h2⟩, by rw [stir_thread]; exact (hi.mem r hr).2⟩) hi.nodup hcan fun r _ => hpre _
  refine ⟨_, ?_, he⟩
  rw [issueTurn, issueAll_executing op f _ s is rs hop hi ha hg, actRaise_turns x f hi.issue]
  dsimp only
  rw [applyOut_traps, List.nil_append, State.moveOn, stir_modRefs]
  refine finish_of_present _ ?_
  have h := congrArg State.absent he.rest
  exact h.trans ((congrArg State.absent (stir_rest (clockVol op f) rs s)).trans hi.present)

/-! ## A trap that kills -/

/-- A trap without a handler kills the context (R432). -/
theorem deliverWarp_unhandled (u : State) {g w t : Nat} {G : Group} {T : Thread} {y : Trap} (hG : u.group? g = some G)
    (hT : Map.get? G.threads t = some T) (hmode : T.hmode = .none) (hy : y.cause ≠ 0x20) (hh : G.handlerAt = 0) (hopen : ∀ d ∈ G.open_, d.warp ≠ w) :
    u.deliverWarp g w [(t, y)] = u.logKill { cls := 9, sev := 2, ctx := G.ctx, unit := 1, unitNo := G.core, detail := y.cause, addr := T.pc.toNat } := by
  have hin : G.inHandler t = false := by simp [Group.inHandler, hT, hmode]
  have hno : G.open_.find? (·.warp == w) = none := List.find?_eq_none.2 fun d hd => by simpa using hopen d hd
  have hpre : (y.cause == 0x20) = false := by simpa using hy
  unfold State.deliverWarp
  simp only [hG, List.find?_cons, List.find?_nil, hin, Bool.and_false, List.filter_cons, Bool.not_false, if_true, List.filter_nil, Bool.false_eq_true,
    if_false, hno, Group.pend, List.foldl_nil, State.modG_id, reduceCtorEq]
  unfold State.enter
  simp only [hG, hh, List.any_cons, List.any_nil, hpre, Bool.or_self, Bool.false_eq_true, not_false_eq_true, and_self, if_true, List.head?_cons, hT]
/-- A precise trap of a thread in a handler kills the context (R434). -/
theorem deliverWarp_double (u : State) {g w t : Nat} {G : Group} {T : Thread} {y : Trap} (hG : u.group? g = some G)
    (hT : Map.get? G.threads t = some T) (hmode : T.hmode ≠ .none) (hy : y.cls ≠ 2) :
    u.deliverWarp g w [(t, y)] = u.logKill { cls := 10, sev := 2, ctx := G.ctx, unit := 1, unitNo := G.core, detail := y.cause, addr := T.pc.toNat } := by
  have hin : G.inHandler t = true := by simp [Group.inHandler, hT, hmode]
  have hfind : ([(t, y)].find? fun e => e.2.cls != 2 && G.inHandler e.1) = some (t, y) := by simp [hin, hy]
  unfold State.deliverWarp
  rw [hG]
  dsimp only
  rw [hfind]
  simp only [State.doubleFault, hT]

section
variable {op : Nat} {f : Full} {x : Nat → Trap} {s : State} {is : Issue} {r : Ref}

/-- What the trap of one thread is delivered to. -/
def raisedAlone (op : Nat) (f : Full) (s : State) (is : Issue) (r : Ref) : State :=
  (s.modT r.g r.t fun T => { T with pc := addOff r.T.pc is.len }).volAt r.g (clockVol op f)

theorem State.deliver_one (u : State) {g t : Nat} {T : Thread} (y : Trap) (hT : u.thread? g t = some T) :
    u.deliver [(g, t, y)] = u.deliverWarp g T.warp [(t, y)] := by
  unfold State.deliver
  simp only [List.map_cons, List.map_nil, hT, List.eraseDups_cons, List.filter_nil, List.eraseDups_nil, List.foldl_cons, List.foldl_nil,
    List.filter_cons, beq_self_eq_true, if_true]
theorem raisedAlone_thread (hi : Issued s is [r]) :
    (raisedAlone op f s is r).thread? r.g r.t = some { r.T with pc := addOff r.T.pc is.len } := by
  rw [raisedAlone, State.volAt_thread, State.thread?_modT, if_pos ⟨rfl, rfl⟩, (hi.mem r List.mem_cons_self).2, Option.map_some]
theorem raise_alone (hop : op ≠ 0x0A6) (hi : Issued s is [r]) (ha : Admits op f [r]) (hg : executing f [r] = [r]) :
    issueTurn op f (actRaise x f) s = finish ((raisedAlone op f s is r).deliverWarp r.g r.T.warp [(r.t, x (s.b32 r f.b))]) := by
  rw [issueTurn, issueAll_executing op f _ s is [r] hop hi ha hg, actRaise_turns x f hi.issue]
  exact congrArg finish (State.deliver_one (T := { r.T with pc := addOff r.T.pc is.len }) (raisedAlone op f s is r) _ (raisedAlone_thread hi))
/-- The group of a thread whose trap was raised: but for the thread's PC and the trace it stands. -/
theorem raisedAlone_group (hi : Issued s is [r]) :
    ∃ G, (raisedAlone op f s is r).group? r.g = some G ∧ ({ G with threads := r.G.threads, trace := r.G.trace } : Group) = r.G ∧
      Map.get? G.threads r.t = some { r.T with pc := addOff r.T.pc is.len } := by
  have hT := raisedAlone_thread (op := op) (f := f) hi
  have hG : (raisedAlone op f s is r).group? r.g = some (if clockVol op f ≠ 0 ∧ r.g = r.g then
      (r.G.modT r.t fun T => { T with pc := addOff r.T.pc is.len }).vols (clockVol op f) else r.G.modT r.t fun T => { T with pc := addOff r.T.pc is.len }) := by
    rw [raisedAlone, State.volAt_group, State.modT, State.group?_modG, if_pos rfl, (hi.mem r List.mem_cons_self).1, Option.map_some, Option.map_some]
  refine ⟨_, hG, ?_, ?_⟩
  · split <;> rfl
  · rw [State.thread?, hG] at hT
    exact hT
theorem raisedAlone_eq : raisedAlone op f s is r = { s with groups := (raisedAlone op f s is r).groups } := by
  unfold raisedAlone State.volAt
  split <;> rfl
theorem modify_keys {α : Type} (m : Sparse α) (k : Nat) (f : α → α) : (Map.modify m k f).map (·.1) = m.map (·.1) := by
  induction m with
  | nil => rfl
  | cons e m ih =>
    unfold Map.modify
    split <;> simp [ih]
theorem raisedAlone_keys : (raisedAlone op f s is r).groups.map (·.1) = s.groups.map (·.1) := by
  unfold raisedAlone State.volAt
  split
  · exact modify_keys _ _ _
  · exact (modify_keys _ _ _).trans (modify_keys _ _ _)
/-- A kill logged after the trap was raised is one logged before: the raise changes a thread's PC alone. -/
theorem raisedAlone_dies {C : Ctx} {e : ErrRec} (hi : Issued s is [r]) (hl : LogFits s) (hm : Mortal s r.G.ctx C) (hctx : e.ctx = r.G.ctx) :
    Killed s ((raisedAlone op f s is r).logKill e) r.G.ctx ∧ Logged s ((raisedAlone op f s is r).logKill e) e ∧
      ((raisedAlone op f s is r).logKill e).absent = none := by
  have heq := raisedAlone_eq (op := op) (f := f) (s := s) (is := is) (r := r)
  have hfits : LogFits (raisedAlone op f s is r) := by
    rw [heq]
    exact ⟨hl.present, hl.fits, hl.canon, hl.count⟩
  have hmortal : Mortal (raisedAlone op f s is r) e.ctx C := by
    have hkeys := raisedAlone_keys (op := op) (f := f) (s := s) (is := is) (r := r)
    rw [heq, hctx]
    exact ⟨hm.ctx, hm.alive, hm.queues, hm.items, hm.waiting, (congrArg List.Nodup hkeys).mpr hm.groups⟩
  obtain ⟨hlogged, hkilled, habsent, _⟩ := State.logKill_mortal _ e C hfits hmortal
  rw [hctx] at hkilled
  obtain ⟨hgone, hgroups, hitems, hwaiting, hothers⟩ := hkilled
  refine ⟨⟨hgone, hgroups, hitems, hwaiting, fun g G hG hne => hothers g G ?_ hne⟩, ?_, habsent⟩
  · have hg : g ≠ r.g := by
      rintro rfl
      exact hne (congrArg Group.ctx (Option.some.inj (hG.symm.trans (hi.mem r List.mem_cons_self).1)))
    rw [raisedAlone, State.volAt_group, State.modT, State.group?_modG, if_neg hg, hG, Option.map_some, if_neg fun h => hg h.2]
  · generalize (raisedAlone op f s is r).logKill e = t at hlogged ⊢
    rw [heq] at hlogged
    exact ⟨hlogged.seq, hlogged.count, hlogged.msix, hlogged.place, hlogged.off⟩

end

/-- Settles O34: the PCs move behind the instruction first, and the traps are delivered to the threads as they then stand. -/
theorem trapInstructionsEnterHandlers : Obligations.TrapInstructionsEnterHandlers := by
  unfold Obligations.TrapInstructionsEnterHandlers
  intro f s is rs hi hg next
  refine ⟨fun ha hcan => raise_enters (x := fun n => { cause := 0x08, arg := n % 65536 }) (by decide) hi ha hg hcan fun _ => (by decide : (0x08 : Nat) ≠ 0x20),
    fun ha hcan => raise_enters (x := fun _ => { cause := 0x09 }) (by decide) hi ha hg hcan fun _ => by decide, ?_⟩
  rintro r C ha rfl hl hm dies
  obtain ⟨G, hG, hframe, hT⟩ := raisedAlone_group (op := 0x1B0) (f := f) hi
  have hstands : G.ctx = r.G.ctx ∧ G.core = r.G.core ∧ G.handlerAt = r.G.handlerAt ∧ G.open_ = r.G.open_ := by
    rw [← hframe]
    exact ⟨rfl, rfl, rfl, rfl⟩
  obtain ⟨hctx, hcore, hhandler, hopen⟩ := hstands
  have hexec := raise_alone (x := fun n => { cause := 0x08, arg := n % 65536 }) (by decide) hi ha hg
  have hdies (cls : Nat) (h : (raisedAlone 0x1B0 f s is r).deliverWarp r.g r.T.warp [(r.t, { cause := 0x08, arg := s.b32 r f.b % 65536 })] =
      (raisedAlone 0x1B0 f s is r).logKill { cls := cls, sev := 2, ctx := G.ctx, unit := 1, unitNo := G.core, detail := 0x08, addr := (next r).toNat }) :
      dies cls := by
    rw [hctx, hcore] at h
    obtain ⟨hkilled, hlogged, habsent⟩ := raisedAlone_dies (op := 0x1B0) (f := f) hi hl hm
      (e := { cls := cls, sev := 2, ctx := r.G.ctx, unit := 1, unitNo := r.G.core, detail := 0x08, addr := (next r).toNat }) rfl
    refine ⟨_, ?_, hkilled, hlogged⟩
    exact hexec.trans ((congrArg finish h).trans (finish_of_present _ habsent))
  refine ⟨fun hmode hhandler0 hlr0 hfree => hdies 9 ?_, fun hmode => hdies 10 ?_⟩
  · refine deliverWarp_unhandled _ (T := { r.T with pc := next r }) (y := { cause := 0x08, arg := s.b32 r f.b % 65536 }) hG hT hmode (by decide : (0x08 : Nat) ≠ 0x20) ?_ (by rw [hopen]; exact hfree)
    rw [hhandler, Group.handlerAt, hhandler0, hlr0]
    rfl
  · exact deliverWarp_double _ (T := { r.T with pc := next r }) (y := { cause := 0x08, arg := s.b32 r f.b % 65536 }) hG hT hmode (by decide : (0 : Nat) ≠ 2)

end Sys2Proof.Machine
end

section
/-! PROOF. `sethdl`, `rte` and `preemptd` (R322 to R324, R433, R445): O35. -/

namespace Sys2Proof.Machine

/-! ## A thread leaves its handler (R323, R433) -/

/-- A delivery that a thread has left. -/
def Delivery.without (d : Delivery) (t : Nat) : Delivery := { d with tids := d.tids.filter (· != t), undo := [] }
/-- A thread as its return leaves it. -/
def Thread.returned (T : Thread) (now : Nat) : Thread :=
  { T with hmode := .none, pc := T.tpc, wait := .ready, readySince := now, watched := 0, parked := false }
/-- A group whose thread t returned: its open deliveries are without t, and closed where t was the last. -/
def Group.left (G : Group) (now t : Nat) : Group :=
  { G.modT t (·.returned now) with open_ := (G.open_.map (·.without t)).filter (·.tids != []) }
/-- The groups of threads that returned one after another. -/
def State.leaveAll (s : State) (now : Nat) (rs : List Ref) : State := rs.foldl (fun s r => s.modG r.g (·.left now r.t)) s

/-- A thread returns with nothing pending, no delivery held for its group, and no watchdog trap. -/
theorem State.rte_returns {s : State} {g t : Nat} {G : Group} {T : Thread} (hG : s.group? g = some G) (hT : Map.get? G.threads t = some T)
    (hcause : T.tcause.toNat % 256 ≠ 0x21) (hpending : T.pending = []) (hheld : G.heldDel = []) : s.rte g t = s.modG g (·.left s.clock t) := by
  have hnext : (s.modG g (·.left s.clock t)).nextDelivery g T.warp = s.modG g (·.left s.clock t) := by
    unfold State.nextDelivery
    rw [State.group?_modG, if_pos rfl, hG]
    dsimp only [Option.map_some]
    rw [show (G.left s.clock t).heldDel = [] from hheld]
    exact ite_self _
  unfold State.rte
  rw [hG]
  dsimp only
  rw [hT]
  dsimp only
  rw [hpending]
  simp only [if_neg hcause]
  exact hnext

theorem foldl_modG_group (k : Ref → Group → Group) (g : Nat) (rs : List Ref) : ∀ s : State,
    (rs.foldl (fun s r => s.modG r.g (k r)) s).group? g = (s.group? g).map fun G => (rs.filter (·.g == g)).foldl (fun G r => k r G) G := by
  induction rs with
  | nil => exact fun s => by simp
  | cons r rs ih =>
    intro s
    rw [List.foldl_cons, ih, State.group?_modG]
    by_cases hg : r.g = g
    · subst hg
      simp [Option.map_map, Function.comp_def]
    · rw [if_neg (Ne.symm hg), List.filter_cons_of_neg (by simpa using hg)]
theorem foldl_modG_rest (k : Ref → Group → Group) (rs : List Ref) : ∀ s : State,
    ({ rs.foldl (fun s r => s.modG r.g (k r)) s with groups := s.groups } : State) = s := by
  induction rs with
  | nil => exact fun _ => rfl
  | cons r rs ih =>
    intro s
    have h := congrArg (fun x : State => ({ x with groups := s.groups } : State)) (ih (s.modG r.g (k r)))
    exact h

/-! ## Returns of several threads of a group -/

/-- A group after the returns of a list of threads. -/
def Group.leaveAll (G : Group) (now : Nat) (l : List Ref) : Group := l.foldl (fun G r => G.left now r.t) G

theorem Group.leaveAll_frame (now : Nat) (l : List Ref) : ∀ G : Group, ({ G.leaveAll now l with threads := G.threads, open_ := G.open_ } : Group) = G := by
  induction l with
  | nil => exact fun _ => rfl
  | cons r l ih =>
    intro G
    have h := congrArg (fun x : Group => ({ x with threads := G.threads, open_ := G.open_ } : Group)) (ih (G.left now r.t))
    exact h
theorem Group.leaveAll_thread_others (now k : Nat) (l : List Ref) : ∀ G : Group, (∀ r ∈ l, r.t ≠ k) →
    Map.get? (G.leaveAll now l).threads k = Map.get? G.threads k := by
  induction l with
  | nil => exact fun _ _ => rfl
  | cons r l ih =>
    intro G h
    refine (ih (G.left now r.t) fun q hq => h q (List.mem_cons_of_mem r hq)).trans ?_
    exact (Map.get?_modify G.threads r.t k _).trans (if_neg (h r List.mem_cons_self).symm)
theorem Group.leaveAll_thread (now : Nat) (l : List Ref) (r : Ref) (hr : r ∈ l) : ∀ G : Group, (l.map (·.t)).Nodup →
    Map.get? (G.leaveAll now l).threads r.t = (Map.get? G.threads r.t).map (·.returned now) := by
  induction l with
  | nil => exact nomatch hr
  | cons q l ih =>
    intro G hnd
    rw [List.map_cons, List.nodup_cons] at hnd
    obtain ⟨hq, hnd⟩ := hnd
    obtain rfl | hr' := List.mem_cons.1 hr
    · refine (Group.leaveAll_thread_others now r.t l (G.left now r.t) fun x hx e => hq (List.mem_map.2 ⟨x, hx, e⟩)).trans ?_
      exact (Map.get?_modify G.threads r.t r.t _).trans (if_pos rfl)
    · refine (ih hr' (G.left now q.t) hnd).trans (congrArg _ ?_)
      exact (Map.get?_modify G.threads q.t r.t _).trans (if_neg fun e => hq (List.mem_map.2 ⟨r, hr', e⟩))

/-- What shows of a delivery: its warp, its threads and whether it is a PREEMPT. -/
def Delivery.shown (d : Delivery) : Nat × List Nat × Bool := (d.warp, d.tids, d.preempt)
/-- A delivery that is open still once the threads of a list have left it. -/
def Delivery.shownWithout (d : Delivery) (p : Nat → Bool) : Option (Nat × List Nat × Bool) :=
  if d.tids.filter (fun k => !p k) = [] then none else some (d.warp, d.tids.filter fun k => !p k, d.preempt)
theorem Group.left_nonempty (G : Group) (now t : Nat) : ∀ d ∈ (G.left now t).open_, d.tids ≠ [] := fun d hd => by
  simpa using (List.mem_filter.1 hd).2
theorem Delivery.shownWithout_without (d : Delivery) (t : Nat) (p : Nat → Bool) :
    (d.without t).shownWithout p = d.shownWithout fun k => t == k || p k := by
  have htids : (d.without t).tids.filter (fun k => !p k) = d.tids.filter fun k => !(t == k || p k) := by
    refine List.filter_filter.trans (List.filter_congr fun k _ => ?_)
    rw [Bool.not_or, Bool.and_comm, bne, BEq.comm]
  unfold Delivery.shownWithout
  rw [htids]
  rfl
theorem Group.left_open (G : Group) (now t : Nat) (p : Nat → Bool) :
    (G.left now t).open_.filterMap (·.shownWithout p) = G.open_.filterMap (·.shownWithout fun k => t == k || p k) := by
  refine (List.filterMap_filter ..).trans ((List.filterMap_map ..).trans (List.filterMap_congr fun d _ => ?_))
  rw [Function.comp_apply, ← Delivery.shownWithout_without]
  split
  · rfl
  · next h =>
    have hnil : (d.without t).tids = [] := by simpa using h
    rw [Delivery.shownWithout, hnil]
    rfl
theorem Group.leaveAll_shown (now : Nat) (l : List Ref) : ∀ G : Group, (∀ d ∈ G.open_, d.tids ≠ []) →
    (G.leaveAll now l).open_.map Delivery.shown = G.open_.filterMap (·.shownWithout fun k => l.any (·.t == k)) := by
  induction l with
  | nil =>
    intro G h
    have hd : ∀ d ∈ G.open_, d.shownWithout (fun k => ([] : List Ref).any (·.t == k)) = some d.shown := fun d hd => by
      simp [Delivery.shownWithout, h d hd, Delivery.shown]
    exact ((List.filterMap_congr hd).trans (congrFun List.filterMap_eq_map' _)).symm
  | cons r l ih => exact fun G _ => (ih (G.left now r.t) (G.left_nonempty now r.t)).trans (G.left_open now r.t _)
/-- The deliveries that stand open after the returns, as they show: at least one thread returned. -/
theorem Group.leaveAll_open (now : Nat) (l : List Ref) (G : Group) (hl : l ≠ []) :
    (G.leaveAll now l).open_.map Delivery.shown = G.open_.filterMap (·.shownWithout fun k => l.any (·.t == k)) := by
  obtain ⟨r, l, rfl⟩ := List.exists_cons_of_ne_nil hl
  exact (Group.leaveAll_shown now l (G.left now r.t) (G.left_nonempty now r.t)).trans (G.left_open now r.t _)

/-! ## Every thread of an issue group returns -/

/-- The return of one thread leaves the other threads and the deliveries held. -/
theorem State.left_others {u : State} {g t h k : Nat} (now : Nat) (hne : ¬ (h = g ∧ k = t)) :
    (u.modG g (·.left now t)).thread? h k = u.thread? h k := by
  by_cases hg : h = g
  · subst hg
    unfold State.thread?
    rw [State.group?_modG, if_pos rfl]
    cases u.group? h with
    | none => rfl
    | some G => exact (Map.get?_modify G.threads t k _).trans (if_neg fun e => hne ⟨rfl, e⟩)
  · unfold State.thread?
    rw [State.group?_modG, if_neg hg]
theorem State.left_held {u : State} {g t h : Nat} (now : Nat) (hu : ∃ G, u.group? h = some G ∧ G.heldDel = []) :
    ∃ G, (u.modG g (·.left now t)).group? h = some G ∧ G.heldDel = [] := by
  obtain ⟨G, hG, hheld⟩ := hu
  rw [State.group?_modG]
  split
  · next hg => exact ⟨G.left now t, by rw [← hg, hG]; rfl, hheld⟩
  · exact ⟨G, hG, hheld⟩
theorem rte_fold (f : Full) (l : List Ref) : ∀ (u : State) (acc : List (Ref × TOut)), (l.map fun r => (r.g, r.t)).Nodup →
    (∀ r ∈ l, u.thread? r.g r.t = some r.T ∧ ∃ G, u.group? r.g = some G ∧ G.heldDel = []) →
    (∀ r ∈ l, r.T.hmode ≠ .none ∧ r.T.tpc.toNat % 4 = 0 ∧ r.T.pending = [] ∧ r.T.tcause.toNat % 256 ≠ 0x21) →
    l.foldl (fun (acc : State × List (Ref × TOut)) r => ((actRte f acc.1 r).1, acc.2 ++ [(r, (actRte f acc.1 r).2)])) (u, acc) =
      (u.leaveAll u.clock l, acc ++ l.map fun r => (r, .stay)) := by
  induction l with
  | nil => exact fun u acc _ _ _ => by simp [State.leaveAll]
  | cons r l ih =>
    intro u acc hnd hu hr
    rw [List.map_cons, List.nodup_cons] at hnd
    obtain ⟨hfirst, hnd⟩ := hnd
    obtain ⟨hT, G, hG, hheld⟩ := hu r List.mem_cons_self
    obtain ⟨hmode, htpc, hpending, hcause⟩ := hr r List.mem_cons_self
    have hT' : Map.get? G.threads r.t = some r.T := by rwa [State.thread?, hG] at hT
    have hact : actRte f u r = (u.modG r.g (·.left u.clock r.t), .stay) := by
      rw [actRte, if_neg hmode, if_neg (not_not.2 htpc), State.rte_returns hG hT' hcause hpending hheld]
    rw [List.foldl_cons, hact]
    refine (ih (u.modG r.g (·.left u.clock r.t)) _ hnd (fun q hq => ?_) fun q hq => hr q (List.mem_cons_of_mem r hq)).trans ?_
    · obtain ⟨hq1, hq2⟩ := hu q (List.mem_cons_of_mem r hq)
      exact ⟨(State.left_others u.clock fun e => hfirst (List.mem_map.2 ⟨q, hq, by rw [e.1, e.2]⟩)).trans hq1, State.left_held u.clock hq2⟩
    · simp only [List.map_cons, List.append_assoc, List.singleton_append]
      rfl
/-- Threads that stay where their meaning left them: nothing is entered for them. -/
theorem applyOut_stays (len order : Nat) (s : State) (ts : List (Nat × Nat × Trap)) (l : List Ref) :
    (l.map fun r => (r, TOut.stay)).foldl (applyOut len order 0) (s, ts) = (s, ts) := by
  induction l with
  | nil => rfl
  | cons r l ih => exact ih
/-- `rte` of threads with nothing pending. -/
theorem execRte_returns {f : Full} {s : State} {is : Issue} {rs : List Ref} (hi : Issued s is rs) (ha : Admits 0x1B2 f rs) (hg : executing f rs = rs)
    (hr : ∀ r ∈ rs, r.T.hmode ≠ .none ∧ r.T.tpc.toNat % 4 = 0 ∧ r.T.pending = [] ∧ r.G.heldDel = [] ∧ r.T.tcause.toNat % 256 ≠ 0x21) :
    execRte f s = .next (s.leaveAll s.clock rs) := by
  have hfold := rte_fold f rs s [] hi.nodup (fun r hm => ⟨(hi.mem r hm).2, r.G, (hi.mem r hm).1, (hr r hm).2.2.2.1⟩) fun r hm => by
    obtain ⟨hmode, htpc, hpending, _, hcause⟩ := hr r hm
    exact ⟨hmode, htpc, hpending, hcause⟩
  rw [execRte, issueTurn, issueAll_executing 0x1B2 f _ s is rs (by decide) hi ha hg]
  dsimp only
  rw [hfold]
  dsimp only
  rw [List.nil_append, show clockVol 0x1B2 f = 0 from rfl, applyOut_stays]
  exact finish_of_present _ ((congrArg State.absent (foldl_modG_rest _ rs s)).trans hi.present)
theorem State.leaveAll_group (s : State) (now : Nat) (rs : List Ref) (g : Nat) :
    (s.leaveAll now rs).group? g = (s.group? g).map (·.leaveAll now (rs.filter (·.g == g))) := foldl_modG_group (fun r G => G.left now r.t) g rs s
theorem State.leaveAll_thread (s : State) (now : Nat) (rs : List Ref) (hnd : (rs.map fun r => (r.g, r.t)).Nodup) (r : Ref) (hr : r ∈ rs) :
    (s.leaveAll now rs).thread? r.g r.t = (s.thread? r.g r.t).map (·.returned now) := by
  have hnd' : ((rs.filter (·.g == r.g)).map (·.t)).Nodup := by
    refine List.Nodup.map_on (fun x hx y hy e => ?_) (List.Nodup.filter _ (List.Nodup.of_map _ hnd))
    have hxg : x.g = r.g := by simpa using (List.mem_filter.1 hx).2
    have hyg : y.g = r.g := by simpa using (List.mem_filter.1 hy).2
    exact List.inj_on_of_nodup_map hnd (List.mem_filter.1 hx).1 (List.mem_filter.1 hy).1 (Prod.ext (hxg.trans hyg.symm) e)
  unfold State.thread?
  rw [State.leaveAll_group]
  cases s.group? r.g with
  | none => rfl
  | some G => exact Group.leaveAll_thread now (rs.filter (·.g == r.g)) r (List.mem_filter.2 ⟨hr, beq_self_eq_true r.g⟩) G hnd'
theorem State.leaveAll_thread_others (s : State) (now : Nat) (rs : List Ref) (g k : Nat) (h : ∀ r ∈ rs, ¬ (r.g = g ∧ r.t = k)) :
    (s.leaveAll now rs).thread? g k = s.thread? g k := by
  unfold State.thread?
  rw [State.leaveAll_group]
  cases s.group? g with
  | none => rfl
  | some G =>
    refine Group.leaveAll_thread_others now k (rs.filter (·.g == g)) G fun r hr e => ?_
    obtain ⟨hm, hg⟩ := List.mem_filter.1 hr
    exact h r hm ⟨by simpa using hg, e⟩

/-! ## `preemptd` before its group resumes (R324) -/

theorem preemptd_fold (f : Full) {s : State} {is : Issue} (hs : s.issue = some is) (l : List Ref)
    (hl : ∀ r ∈ l, r.T.hmode = .preempt ∧ ∃ d ∈ r.G.open_, d.preempt = true ∧ r.t ∈ d.tids) : ∀ (u : State) (acc : List (Ref × TOut)),
    ({ u with groups := s.groups } : State) = s →
    l.foldl (fun (acc : State × List (Ref × TOut)) r => ((actPreemptd f acc.1 r).1, acc.2 ++ [(r, (actPreemptd f acc.1 r).2)])) (u, acc) =
      (u.modRefs l fun r T => { T with pc := addOff r.T.pc is.len, parked := true }, acc ++ l.map fun r => (r, .wait .preempted)) := by
  induction l with
  | nil => exact fun u acc _ => by simp [State.modRefs]
  | cons r l ih =>
    intro u acc hu
    obtain ⟨hmode, d, hd, hpre, ht⟩ := hl r List.mem_cons_self
    have hu' : u = { s with groups := u.groups } := by rw [← hu]
    have hnext : u.nextPc r = addOff r.T.pc is.len := by rw [hu', State.nextPc, State.len, hs]
    have hopen : (r.G.open_.any fun d => d.preempt && d.tids.contains r.t) = true := List.any_eq_true.2 ⟨d, hd, by simp [hpre, ht]⟩
    have hact : actPreemptd f u r = (u.modT r.g r.t fun T => { T with pc := addOff r.T.pc is.len, parked := true }, .wait .preempted) := by
      rw [actPreemptd, if_neg (not_not.2 hmode), if_neg (not_not.2 hopen), hnext]
    rw [List.foldl_cons, hact]
    refine (ih (fun q hq => hl q (List.mem_cons_of_mem r hq)) (u.modT r.g r.t _) _ hu).trans ?_
    simp only [List.map_cons, List.append_assoc, List.singleton_append]
    rfl
/-- A delivery that a forced save closed no longer names the thread. -/
theorem not_delivering {r : Ref} (h : ∀ d ∈ r.G.open_, d.preempt = true → r.t ∉ d.tids) :
    (r.G.open_.any fun d => d.preempt && d.tids.contains r.t) = false := by
  refine List.any_eq_false.2 fun d hd => ?_
  simpa using h d hd

/-- `preemptd` in a PREEMPT handler whose delivery is open. -/
theorem execPreemptd_waits {f : Full} {s : State} {is : Issue} {rs : List Ref} (hi : Issued s is rs) (ha : Admits 0x1B3 f rs) (hg : executing f rs = rs)
    (hr : ∀ r ∈ rs, r.T.hmode = .preempt ∧ ∃ d ∈ r.G.open_, d.preempt = true ∧ r.t ∈ d.tids) :
    ∃ t, execPreemptd f s = .next t ∧
      Halts (stir (clockVol 0x1B3 f) (s.modRefs rs fun r T => { T with pc := addOff r.T.pc is.len, parked := true }) rs) t rs fun _ => .preempted := by
  rw [execPreemptd, issueTurn]
  exact issueAll_halts 0x1B3 f _ s is rs _ _ (by decide) hi ha hg ((congrArg State.absent (State.modRefs_rest _ rs s)).trans hi.present)
    (preemptd_fold f hi.issue rs hr s [] rfl)

/-- Settles O35: a return takes its thread out of the deliveries, and nothing else of the group changes. -/
theorem handlerResults : Obligations.HandlerResults := by
  unfold Obligations.HandlerResults
  intro f
  refine ⟨⟨?_, fun s is rs hi ha hg hr => ⟨s.leaveAll s.clock rs, execRte_returns hi ha hg hr, State.leaveAll_thread s s.clock rs hi.nodup,
      State.leaveAll_thread_others s s.clock rs, fun g G hG => ⟨G.leaveAll s.clock (rs.filter (·.g == g)), ?_, Group.leaveAll_frame _ _ G, ?_, ?_⟩, ?_,
      foldl_modG_rest _ rs s⟩⟩,
    turnDo_of (act := actPreemptd f) rfl (by decide) (fun s r hok => ?_) fun _ _ _ h => h, fun s is rs hi ha hg hr => ?_⟩
  · refine allDo_of (fn := actSethdl f) rfl (by decide) (fun s rs hok => ?_) fun s rs _ h => (modLeads_absent _ s rs).trans h
    have hfilter : (rs.filter fun r => s.op64 r f.a.toNat % 4 == 0) = rs := List.filter_eq_self.2 fun r hr => by simpa using hok r hr
    rw [actSethdl, hfilter]
    exact congrArg _ (List.map_congr_left fun r hr => by
      exact congrArg (Prod.mk r) (if_pos (beq_iff_eq.2 (hok r hr))))
  · rw [State.leaveAll_group, hG]
    rfl
  · rintro ⟨r, hr, hg'⟩
    have hne : rs.filter (·.g == g) ≠ [] := List.ne_nil_of_mem (List.mem_filter.2 ⟨hr, by simpa using hg'⟩)
    refine (Group.leaveAll_open s.clock _ G hne).trans (List.filterMap_congr fun d _ => ?_)
    simp only [Delivery.shownWithout, List.any_filter]
  · intro hne
    rw [List.filter_eq_nil_iff.2 fun r hr => by simpa using hne r hr]
    rfl
  · intro g hG
    rw [State.leaveAll_group, hG]
    rfl
  · obtain ⟨hmode, hclosed⟩ := hok
    rw [actPreemptd, if_neg (not_not.2 hmode), not_delivering hclosed, if_pos (by decide)]
  · exact execPreemptd_waits hi ha hg hr

end Sys2Proof.Machine
end

section
/-! PROOF. Power leave and eviction phases (R325, R326, R76, R96, R98): O36. -/

namespace Sys2Proof.Machine

/-! ## The entry of a phase (R96, R98) -/

/-- A planar line as a phase's trims leave it (R98). -/
def PlaneLine.trimmed (s : State) (x : Nat) (p : PhaseRead) (l : PlaneLine) : PlaneLine :=
  if l.ctx = x then match s.planarGran x l.handle l.line with
    | some (buf, g) => match p.entries.find? fun e => PhaseRead.covers e buf g with
      | some e => if bitN e 121 = 1 then { l with depth := min l.depth (bitsN e 117 113) } else l
      | none => l
    | none => l
  else l
/-- A context as a phase's entry leaves it. -/
def Ctx.phased (c : Ctx) (k : Nat) (p : PhaseRead) : Ctx :=
  { c with usable := true, phase := k, phaseDone := 0, nphase := p.nphase, advcnt := p.advcnt, entries := p.entries, defclass := p.defclass,
           deffloor := p.deffloor, schedDead := [] }
/-- The state as the entry of phase k leaves it. -/
def State.phased (s : State) (x k : Nat) (p : PhaseRead) : State :=
  ({ s with port := { s.port with planes := s.port.planes.map (PlaneLine.trimmed s x p) } } : State).modCtx x (·.phased k p)

theorem State.trimPlanes_eq (s : State) (x : Nat) (p : PhaseRead) :
    s.trimPlanes x p = { s with port := { s.port with planes := s.port.planes.map (PlaneLine.trimmed s x p) } } := by
  have hline (l : PlaneLine) : (if l.ctx ≠ x then l
      else match s.planarGran x l.handle l.line with
        | none => l
        | some (buf, g) => match p.entries.find? fun e => PhaseRead.covers e buf g with
          | some e => if PhaseRead.trim e then { l with depth := min l.depth (PhaseRead.floor e) } else l
          | none => l) = l.trimmed s x p := by
    unfold PlaneLine.trimmed
    by_cases hx : l.ctx = x
    · rw [if_neg (not_not.2 hx), if_pos hx]
      cases s.planarGran x l.handle l.line with
      | none => rfl
      | some e =>
        dsimp only
        cases p.entries.find? fun y => PhaseRead.covers y e.1 e.2 with
        | none => rfl
        | some y => simp [PhaseRead.trim, PhaseRead.floor]
    · rw [if_pos hx, if_neg hx]
  exact congrArg (fun l => ({ s with port := { s.port with planes := l } } : State)) (List.map_congr_left fun l _ => hline l)
/-- A usable phase that is entered, once the pages it gave up are forgotten. -/
theorem State.enterPhase_usable {s : State} {x k : Nat} {c : Ctx} {p : PhaseRead} (hc : s.ctx? x = some c) (hp : s.schedPhase x c.evs k = .ok p) :
    (s.enterPhase x k).modCtx x (fun c => { c with schedDead := [] }) = s.phased x k p := by
  unfold State.enterPhase
  rw [hc]
  dsimp only
  rw [hp]
  dsimp only
  rw [State.trimPlanes_eq]
  exact congrArg (fun l => ({ s with port := { s.port with planes := s.port.planes.map (PlaneLine.trimmed s x p) }, ctxs := l } : State))
    (Map.modify_modify s.ctxs x _ _)
/-- An entry of the command processor's order that nothing holds back. -/
theorem phaseTry_goes {s : State} {x : Nat} {c : Ctx} {ask : Option Nat} (go : State × TOut) (hasks : c.phaseAsks = []) (hmiss : s.phaseMiss x ask = none) :
    phaseTry s x c ask go = (go.1.modCtx x fun c => { c with schedDead := [] }, go.2) := by
  unfold phaseTry
  rw [if_neg (not_not.2 hasks), hmiss]
theorem State.nextPhase_eq {s : State} {x n : Nat} {a : Addr} {c : Ctx} (hc : s.ctx? x = some c) (hevs : c.evs ≠ 0)
    (hhead : s.schedHeader x c.evs = .ok (n, a)) : s.nextPhase x = s.enterPhase x (if c.usable = true ∧ c.phase + 1 < n then c.phase + 1 else 0) := by
  unfold State.nextPhase
  rw [hc]
  dsimp only
  rw [if_neg hevs, State.phaseOf]
  rw [hhead]
theorem actEvph_enters {f : Full} {s : State} {r : Ref} {n : Nat} {a : Addr} {c : Ctx} {p : PhaseRead} (hc : s.ctx? r.G.ctx = some c) (hevs : c.evs ≠ 0)
    (hasks : c.phaseAsks = []) (hmiss : s.phaseMiss r.G.ctx none = none) (hhead : s.schedHeader r.G.ctx c.evs = .ok (n, a))
    (hp : s.schedPhase r.G.ctx c.evs (if c.usable = true ∧ c.phase + 1 < n then c.phase + 1 else 0) = .ok p) :
    actEvph f s r = (s.phased r.G.ctx (if c.usable = true ∧ c.phase + 1 < n then c.phase + 1 else 0) p, .done {}) := by
  unfold actEvph
  rw [hc]
  dsimp only
  rw [if_neg hevs, phaseTry_goes _ hasks hmiss, State.nextPhase_eq hc hevs hhead, State.enterPhase_usable hc hp]
theorem actEvphSet_enters {f : Full} {s : State} {r : Ref} {n : Nat} {a : Addr} {c : Ctx} {p : PhaseRead} (hc : s.ctx? r.G.ctx = some c)
    (hevs : c.evs ≠ 0) (hasks : c.phaseAsks = []) (hmiss : s.phaseMiss r.G.ctx (some (s.b32 r f.b)) = none)
    (hhead : s.schedHeader r.G.ctx c.evs = .ok (n, a)) (hlt : s.b32 r f.b < n) (hp : s.schedPhase r.G.ctx c.evs (s.b32 r f.b) = .ok p) :
    actEvphSet f s r = (s.phased r.G.ctx (s.b32 r f.b) p, .done {}) := by
  unfold actEvphSet
  dsimp only
  rw [hc]
  dsimp only
  rw [if_neg hevs, phaseTry_goes _ hasks hmiss, hhead]
  dsimp only
  rw [if_neg (Nat.not_le.2 hlt), State.enterPhase_usable hc hp]

/-! ## Leave (R325) -/

theorem actLeave_asks {f : Full} {s : State} {r : Ref} (hlevel : s.b32 r f.b ≤ 3) (hgrant : r.G.grant < s.b32 r f.b) (hwait : r.T.wait ≠ .passed) :
    actLeave f s r = (s.askLeave r.g (s.b32 r f.b), .wait (.leave (s.b32 r f.b))) := by
  unfold actLeave withLeave
  rw [if_neg (by omega), if_neg (by rintro (h | h); exacts [absurd h (Nat.not_le.2 hgrant), hwait h])]
theorem State.askLeave_eq (s : State) (g level : Nat) : s.askLeave g level =
    { s with leaves := if (⟨g, level, s.clock⟩ : LeaveReq) ∈ s.leaves then s.leaves else s.leaves ++ [⟨g, level, s.clock⟩] } := by
  unfold State.askLeave
  dsimp only
  by_cases h : (⟨g, level, s.clock⟩ : LeaveReq) ∈ s.leaves
  · rw [if_pos (List.contains_iff_mem.2 h), if_pos h]
  · rw [if_neg fun h' => h (List.contains_iff_mem.1 h'), if_neg h]
/-- `leave` of a level that the group does not hold asks for it. -/
theorem execLeave_waits {f : Full} {s : State} {is : Issue} {r : Ref} (hi : Issued s is [r]) (ha : Admits 0x1B5 f [r]) (hg : executing f [r] = [r])
    (hlevel : s.b32 r f.b ≤ 3) (hgrant : r.G.grant < s.b32 r f.b) (hwait : r.T.wait ≠ .passed) :
    ∃ t, execLeave f s = .next t ∧ Halts (stir (clockVol 0x1B5 f) { s with leaves := if (⟨r.g, s.b32 r f.b, s.clock⟩ : LeaveReq) ∈ s.leaves then s.leaves
      else s.leaves ++ [⟨r.g, s.b32 r f.b, s.clock⟩] } [r]) t [r] fun q => .leave (s.b32 q f.b) := by
  unfold execLeave
  refine issueAll_halts 0x1B5 f _ s is [r] _ (fun q => .leave (s.b32 q f.b)) (by decide) hi ha hg ?_ ?_
  rotate_left
  · rw [List.foldl_cons, List.foldl_nil, actLeave_asks hlevel hgrant hwait, State.askLeave_eq]
    rfl
  · exact hi.present

/-- Settles O36: a phase's entry is the trims of the planar lines and the context's new phase. -/
theorem leaveAndPhaseResults : Obligations.LeaveAndPhaseResults := by
  unfold Obligations.LeaveAndPhaseResults
  intro f trimmed enters next none_ header phase
  have henters (s : State) (x k : Nat) (c : Ctx) (p : PhaseRead) (hc : s.ctx? x = some c) (hp : s.schedPhase x c.evs k = .ok p) :
      enters s x k = s.phased x k p := by
    simp only [enters, hc, hp]
    rfl
  refine ⟨turnDo_of (act := actLeave f) rfl (by decide) (fun s r h => ?_) fun _ _ _ h => h, fun s is r hi ha hg hlevel hgrant hwait => ?_,
    turnDo_of (act := actEndlv f) rfl (by decide) (fun _ _ _ => rfl) fun _ _ _ h => h,
    turnDo_of (act := actEvph f) rfl (by decide) (fun s r h => ?_) fun _ _ _ h => h,
    turnDo_of (act := actEvph f) rfl (by decide) (fun s r h => ?_) fun s r h hs => ?_,
    turnDo_of (act := actEvphSet f) rfl (by decide) (fun s r h => ?_) fun _ _ _ h => h,
    turnDo_of (act := actEvphSet f) rfl (by decide) (fun s r h => ?_) fun s r h hs => ?_⟩
  · obtain ⟨hone, hthree, hheld⟩ := h
    unfold actLeave
    rw [if_neg (by omega), withLeave_granted _ hheld]
  · exact execLeave_waits hi ha hg hlevel hgrant hwait
  · obtain ⟨c, hc, hevs⟩ := h
    simp [actEvph, hc, hevs]
  · obtain ⟨n, c, ⟨c', a, hc', hevs, hasks, hmiss, hhead⟩, hc, d, p, hd, hp⟩ := h
    cases hc'.symm.trans hc
    cases hd.symm.trans hc
    rw [actEvph_enters hc hevs hasks hmiss hhead hp]
    simp only [hc, hhead]
    rw [henters _ _ _ _ _ hc hp]
  · obtain ⟨n, c, ⟨c', a, hc', hevs, hasks, hmiss, hhead⟩, hc, d, p, hd, hp⟩ := h
    cases hc'.symm.trans hc
    cases hd.symm.trans hc
    simp only [hc, hhead]
    rw [henters _ _ _ _ _ hc hp]
    exact hs
  · obtain ⟨c, hc, hevs⟩ := h
    simp [actEvphSet, hc, hevs]
  · obtain ⟨n, ⟨c, a, hc, hevs, hasks, hmiss, hhead⟩, hlt, d, p, hd, hp⟩ := h
    cases hd.symm.trans hc
    rw [actEvphSet_enters hc hevs hasks hmiss hhead hlt hp]
    exact congrArg (·, _) (henters _ _ _ _ _ hc hp).symm
  · obtain ⟨n, ⟨c, a, hc, hevs, hasks, hmiss, hhead⟩, hlt, d, p, hd, hp⟩ := h
    cases hd.symm.trans hc
    exact (congrArg State.absent (henters _ _ _ _ _ hc hp)).trans hs

end Sys2Proof.Machine
end

section
/-! PROOF. The checks before the guard and the effect (R453 to R455, R75, R449): O37. -/

namespace Sys2Proof.Machine

/-! ## Every instruction is issued over its threads -/

/-- An outcome is that of an issue of opcode op with fields f over the threads in flight; where none of them executes, its meaning does nothing. -/
def IssuedAs (op : Nat) (f : Full) (s : State) (m : Host.Outcome State Fault Refusal) : Prop :=
  ∃ fn, m = issueAll op f fn s ∧ ∀ u, fn u [] = (u, [])

section
variable {op : Nat} {f : Full} {s : State}

theorem IssuedAs.all {fn : State → List Ref → State × List (Ref × TOut)} (h : ∀ u, fn u [] = (u, [])) : IssuedAs op f s (issueAll op f fn s) := ⟨fn, rfl, h⟩
theorem IssuedAs.each {plan : State → Ref → TOut} : IssuedAs op f s (issueEach op f plan s) := .all fun _ => rfl
theorem IssuedAs.turn {act : State → Ref → State × TOut} : IssuedAs op f s (issueTurn op f act s) := .all fun _ => rfl
theorem IssuedAs.tile {plan : State → List Ref → List (Ref × TOut)} (h : ∀ u, plan u [] = []) : IssuedAs op f s (issueTile op f plan s) :=
  .all fun u => congrArg (Prod.mk u) (h u)

end

theorem issuedAs_of_fullOf {i : Instr} {op : Nat} {f : Full} (h : fullOf i = some (op, f)) (s : State) : IssuedAs op f s (Sys2Proof.Machine.exec i s) := by
  cases i with
  | cvt src f => cases src <;> cases h <;> exact .each
  | ld w f | st w f | lds w f | sts w f | ldsG w f | stsG w f => cases w <;> cases h <;> exact .each
  | wrsr | exit | join | yield | waitc | wtany | wtall | ffrdy | fence | binit | barr | bwait | btxIn | btxOut | bplw | rinit | acqs | acqsTry | coms |
    peeks | peeksTry | rels | rinitG | acqsG | acqsTryG | comsG | peeksG | peeksTryG | relsG | launch | relaunch | tspawn | tawait | unhitch | lpf | copy
    | copyIn | copyOut | copySs | copyLs | pcopyIn | pcopyOut | pcopyLs | txfm | lease | leaseQ | unlease | nmc | trap | rte | preemptd | brkpt | leave |
    endlv | evph | evphSet => cases h; delta Machine.exec; dsimp only; exact .turn
  | voteAll | voteAny | voteEq | voteBallot | shflIdx | shflUp | shflDown | shflXor | lred | lredF | lscan | lscanF | selk | selkI | permx | pst |
    pstMerge => cases h; delta Machine.exec; dsimp only; exact .tile fun _ => rfl
  | actsel | plpack | part | sbra | hitch | hitchEach | tld | tldPl | tldS | tldT | tst | tstS | tzero | tzeroPl | mma | mloop | mlsp | mlspT | mrst |
    mrstOff | accz | accld | accldS | accst | accstS | accmv | accmvT | permxT | permxTAdd | twld | twrow | twcol | twnext | twsave | twrest | sethdl => cases h; delta Machine.exec; dsimp only; refine .all ?_; exact fun _ => rfl
  | _ => cases h <;> (delta Machine.exec; dsimp only; exact .each)
theorem issuedAs_of_compactOf {i : Instr} {w : CompactWord} (h : compactOf i = some w) (s : State) :
    IssuedAs w.full.1 w.full.2 s (Sys2Proof.Machine.exec i s) := by
  cases i with
  | yieldCompact c => cases h; exact show IssuedAs _ _ s (issueTurn (cfull 40 c).1 (cfull 40 c).2 (actYield (cfull 40 c).2) s) from .turn
  | fenceCompact c => cases h; exact show IssuedAs _ _ s (issueTurn (cfull 43 c).1 (cfull 43 c).2 (faultPoint (actFence (cfull 43 c).2)) s) from .turn
  | wtanyCompact c => cases h; exact show IssuedAs _ _ s (issueTurn (cfull 44 c).1 (cfull 44 c).2 (faultPoint (actWtany (cfull 44 c).2)) s) from .turn
  | wtallCompact c => cases h; exact show IssuedAs _ _ s (issueTurn (cfull 45 c).1 (cfull 45 c).2 (faultPoint (actWtall (cfull 45 c).2)) s) from .turn
  | shflIdxCompact c => cases h; exact show IssuedAs _ _ s (issueTile (cfull 37 c).1 (cfull 37 c).2 (planShfl srcIdx (cfull 37 c).2) s) from .tile fun _ => rfl
  | shflXorCompact c => cases h; exact show IssuedAs _ _ s (issueTile (cfull 38 c).1 (cfull 38 c).2 (planShfl srcXor (cfull 38 c).2) s) from .tile fun _ => rfl
  | lredCompact c => cases h; exact show IssuedAs _ _ s (issueTile (cfull 39 c).1 (cfull 39 c).2 (planLred (cfull 39 c).2) s) from .tile fun _ => rfl
  | shflUpCompact c => cases h; exact show IssuedAs _ _ s (issueTile (cfull 46 c).1 (cfull 46 c).2 (planShfl srcUp (cfull 46 c).2) s) from .tile fun _ => rfl
  | shflDownCompact c => cases h; exact show IssuedAs _ _ s (issueTile (cfull 47 c).1 (cfull 47 c).2 (planShfl srcDown (cfull 47 c).2) s) from .tile fun _ => rfl
  | _ => cases h <;> (delta Machine.exec; dsimp only; exact .each)
theorem issuedAs_of_formsOf {i : Instr} {op : Nat} {f : Full} (h : formsOf i = [(op, f)]) (s : State) : IssuedAs op f s (Sys2Proof.Machine.exec i s) := by
  unfold formsOf at h
  split at h
  · next hfull =>
    cases List.singleton_inj.1 h
    exact issuedAs_of_fullOf hfull s
  · split at h
    · next w hcop =>
      have hw : w.full = (op, f) := List.singleton_inj.1 h
      have := issuedAs_of_compactOf hcop s
      rwa [hw] at this
    · split at h
      · exact nomatch (List.cons.inj h).2
      · exact nomatch h

/-! ## Checks that every thread fails -/

section
variable {op : Nat} {f : Full} {sh : Shape} {rs : List Ref}

/-- An operand that does not exist (R454). -/
theorem gates_of_badOperand (hsh : shapeOf op f.s f.ext.toNat = some sh) {field num : Nat} (h : ∀ r ∈ rs, badOperand sh f op r.G.lr.nreg = some (field, num)) :
    gates op f rs = rs.map fun r => (r, .trap 3 { cause := 0x02, arg := field + 256 * num }) := by
  unfold gates
  rw [hsh]
  cases rs with
  | nil => dsimp only; split <;> rfl
  | cons r l => simp only [List.head?_cons, h r List.mem_cons_self]
/-- A class that the role of every thread lacks (R75). -/
theorem gates_of_role (hsh : shapeOf op f.s f.ext.toNat = some sh)
    (h : ∀ r ∈ rs, badOperand sh f op r.G.lr.nreg = none ∧ r.G.role.permits sh.cls = false) :
    gates op f rs = rs.map fun r => (r, .trap 4 { cause := 0x06, arg := r.G.role.code + 256 * sh.cls.code }) := by
  unfold gates
  rw [hsh]
  cases rs with
  | nil => dsimp only; split <;> rfl
  | cons q l =>
    have hfirst : ((q :: l).map fun r =>
        if ¬ r.G.role.permits sh.cls then (r, Gate.trap 4 { cause := 0x06, arg := r.G.role.code + 256 * sh.cls.code })
        else if op ≠ 0x0A6 ∧ ¬ r.T.guard f.g f.gn then (r, Gate.skip) else (r, Gate.go)) =
        (q :: l).map fun r => (r, Gate.trap 4 { cause := 0x06, arg := r.G.role.code + 256 * sh.cls.code }) :=
      List.map_congr_left fun r hr => if_pos (Bool.eq_false_iff.1 (h r hr).2)
    have hlead : (((q :: l).map fun r => (r, Gate.trap 4 { cause := 0x06, arg := r.G.role.code + 256 * sh.cls.code })).find? fun e => e.2 == Gate.go) = none :=
      List.find?_eq_none.2 fun e he => by
        obtain ⟨r, _, rfl⟩ := List.mem_map.1 he
        exact Bool.false_ne_true
    simp only [List.head?_cons, (h q List.mem_cons_self).1]
    rw [hfirst, hlead, List.map_map]
    rfl
/-- Poisoned words that the threads would read, in fields that each reads for itself (R449). -/
theorem gates_of_poison (hsh : shapeOf op f.s f.ext.toNat = some sh) {word : Ref → Nat × Nat}
    (h : ∀ r ∈ rs, badOperand sh f op r.G.lr.nreg = none ∧ r.G.role.permits sh.cls = true ∧ r.T.guard f.g f.gn = true ∧
      poisoned sh op f r.T = some (word r) ∧ oneLane sh op (word r).1 = false) :
    gates op f rs = rs.map fun r => (r, .trap 5 { cause := 0x15, arg := (word r).1, addr := (word r).2 }) := by
  unfold gates
  rw [hsh]
  cases rs with
  | nil => dsimp only; split <;> rfl
  | cons q l =>
    have hfirst : ((q :: l).map fun r =>
        if ¬ r.G.role.permits sh.cls then (r, Gate.trap 4 { cause := 0x06, arg := r.G.role.code + 256 * sh.cls.code })
        else if op ≠ 0x0A6 ∧ ¬ r.T.guard f.g f.gn then (r, Gate.skip) else (r, Gate.go)) = (q :: l).map fun r => (r, Gate.go) :=
      List.map_congr_left fun r hr => by
        obtain ⟨_, hrole, hguard, _⟩ := h r hr
        rw [if_neg (not_not.2 hrole), if_neg fun e => e.2 hguard]
    obtain ⟨hoperands, _, _, hpoison, hlane⟩ := h q List.mem_cons_self
    simp only [List.head?_cons, hoperands]
    rw [hfirst]
    simp only [List.map_cons, List.find?_cons, beq_self_eq_true, hpoison, hlane, Bool.false_eq_true, if_false, false_and, List.map_map]
    refine congrArg _ (List.map_congr_left fun r hr => ?_)
    obtain ⟨_, _, _, hpoison, hlane⟩ := h r (List.mem_cons_of_mem q hr)
    simp only [Function.comp_apply, hpoison, hlane, Bool.false_eq_true, false_and, if_false]

end

/-- An instruction at whose gates every thread traps has no effect, and each thread returns to the instruction itself (R453). -/
theorem IssuedAs.traps {i : Instr} {op : Nat} {f : Full} {s : State} {is : Issue} {rs : List Ref} {n : Nat} {trap : Ref → Trap}
    (hx : IssuedAs op f s (Sys2Proof.Machine.exec i s)) (hi : Issued s is rs) (hcan : CanTrap rs) (hpre : ∀ r, (trap r).cause ≠ 0x20)
    (hg : gates op f rs = rs.map fun r => (r, .trap n (trap r))) :
    ∃ t, Sys2Proof.Machine.exec i s = .next t ∧ Enters s t rs trap fun r => r.T.pc := by
  obtain ⟨fn, hexec, hidle⟩ := hx
  have he := deliver_enters s rs trap (fun r hr => ⟨⟨r.G, (hi.mem r hr).1, rfl⟩, (hi.mem r hr).2⟩) hi.nodup hcan fun r _ => hpre r
  refine ⟨_, ?_, he⟩
  have hgo : (rs.map fun r => (r, Gate.trap n (trap r))).filter (·.2 == Gate.go) = [] := List.filter_eq_nil_iff.2 fun e he => by
    obtain ⟨r, _, rfl⟩ := List.mem_map.1 he
    exact Bool.false_ne_true
  have hskip : (rs.map fun r => (r, Gate.trap n (trap r))).filter (·.2 == Gate.skip) = [] := List.filter_eq_nil_iff.2 fun e he => by
    obtain ⟨r, _, rfl⟩ := List.mem_map.1 he
    exact Bool.false_ne_true
  have htraps : (rs.map fun r => (r, Gate.trap n (trap r))).filterMap Gate.trap? = rs.map fun r => (r.g, r.t, trap r) :=
    (List.filterMap_map ..).trans (congrFun List.filterMap_eq_map' rs)
  rw [hexec, issueAll, hi.issue]
  dsimp only
  rw [hi.refs, hg, hgo, hskip, htraps, List.map_nil, List.foldl_nil, hidle]
  exact finish_of_present _ ((congrArg State.absent he.rest).trans hi.present)

/-- Settles O37: where every thread fails a check, the gates let none through, and the meaning of no thread is nothing. -/
theorem checksComeBeforeEffects : Obligations.ChecksComeBeforeEffects := by
  unfold Obligations.ChecksComeBeforeEffects
  intro i op f sh s is rs hforms hsh hi hcan
  have hx := issuedAs_of_formsOf hforms s
  exact ⟨fun _ _ h => hx.traps hi hcan (fun _ => (by decide : (0x02 : Nat) ≠ 0x20)) (gates_of_badOperand hsh h),
    fun h => hx.traps hi hcan (fun _ => (by decide : (0x06 : Nat) ≠ 0x20)) (gates_of_role hsh h),
    fun _ h => hx.traps hi hcan (fun _ => (by decide : (0x15 : Nat) ≠ 0x20)) (gates_of_poison hsh h)⟩

end Sys2Proof.Machine
end

section
/-! SUPPORT. What no write and no page service changes in a group: its exit, the numbers of its threads, its leases, its Twill contexts and its
leave. O14. -/

namespace Sys2Proof.Machine

/-- What stands of a group through the writes that an exit makes. -/
def Group.remains (G : Group) : Bool × List Nat × Sparse Lease × Sparse TwCtx × Nat :=
  (G.exiting, G.threads.map (·.1), G.leases, G.tw, G.grant)
/-- From s to t the groups stand but for what writes and page services change. -/
def Remains (s t : State) : Prop := ∀ g, (t.group? g).map Group.remains = (s.group? g).map Group.remains

theorem Remains.of_groups {s t : State} (h : t.groups = s.groups) : Remains s t := fun g => by rw [State.group?, State.group?, h]
theorem Remains.trans {s t u : State} (h : Remains s t) (k : Remains t u) : Remains s u := fun g => (k g).trans (h g)
theorem Remains.foldl {α : Type} (f : State → α → State) (h : ∀ s a, Remains s (f s a)) (l : List α) : ∀ s, Remains s (l.foldl f s) := by
  induction l with
  | nil => exact fun s => .of_groups rfl
  | cons a l ih => exact fun s => (h s a).trans (ih _)
theorem Remains.map (s : State) (F : Nat × Group → Nat × Group) (hkey : ∀ e, (F e).1 = e.1) (h : ∀ e, (F e).2.remains = e.2.remains) :
    Remains s { s with groups := s.groups.map F } := fun g => by
  have hget : ({ s with groups := s.groups.map F } : State).group? g = (s.group? g).map fun G => (F (g, G)).2 := Map.get?_map s.groups F hkey g
  rw [hget, Option.map_map]
  exact congrArg (fun f => (s.group? g).map f) (funext fun G => h (g, G))
theorem Remains.modG (s : State) (g : Nat) (f : Group → Group) (h : ∀ G, (f G).remains = G.remains) : Remains s (s.modG g f) := fun k => by
  rw [State.group?_modG]
  split
  · next hk =>
    rw [hk, Option.map_map]
    exact congrArg (fun f => (s.group? g).map f) (funext h)
  · rfl
theorem Remains.ite {s t u : State} {p : Prop} [Decidable p] (ht : Remains s t) (hu : Remains s u) : Remains s (if p then t else u) := by
  split
  exacts [ht, hu]

/-! ## Hitch tables -/

theorem homeWrite_foldl_groups (w : Writer) (pts : State → Nat) (l : List Nat) : ∀ s : State,
    (l.foldl (fun (s : State) l => s.homeWrite w (pts s) l) s).groups = s.groups := by
  induction l with
  | nil => exact fun _ => rfl
  | cons a l ih => exact fun s => ih _
theorem ownBytes_groups (s : State) (ctx n : Nat) (a : Addr) : (s.ownBytes ctx a n).groups = s.groups := by
  unfold State.ownBytes
  split
  · exact homeWrite_foldl_groups _ State.topTs _ _
  · rfl
theorem spillAt_groups (s : State) (e : HEntry) (n : Nat) : (s.spillAt e n).groups = s.groups := by
  unfold State.spillAt
  dsimp only
  split
  · split
    · exact ownBytes_groups ..
    · rfl
  · rfl
theorem tableRoom_groups {s t : State} {line : Nat} (h : s.tableRoom line = some t) : t.groups = s.groups := by
  unfold State.tableRoom at h
  split at h
  · cases h; rfl
  · obtain ⟨e, _, he⟩ := List.exists_of_findSome?_eq_some h
    split at he
    · cases he
    · obtain ⟨n, _, rfl⟩ := Option.map_eq_some_iff.1 he
      exact spillAt_groups s e n
theorem unspill_remains (s : State) (line : Nat) : Remains s (s.unspill line) := by
  refine Remains.foldl _ (fun s e => ?_) _ s
  split
  · next t ht => exact .ite (.of_groups (tableRoom_groups ht :)) (.of_groups rfl)
  · exact .of_groups rfl

/-! ## Writes -/

theorem pushLine_remains (s : State) (line : Nat) : Remains s (s.pushLine line) := by
  unfold State.pushLine
  split
  · exact .of_groups rfl
  · exact (unspill_remains s line).trans (.trans (.map _ (fun e => (e.1, e.2.modSlots _)) (fun _ => rfl) fun _ => rfl) (.of_groups rfl))
theorem modThreads_remains (s : State) (f : Thread → Thread) : Remains s (s.modThreads f) :=
  .map s (fun e => (e.1, { e.2 with threads := e.2.threads.map fun x => (x.1, f x.2) })) (fun _ => rfl) fun e => by
    simp [Group.remains, Function.comp_def]
theorem lineWritten_remains (s : State) (w : Writer) (l : Nat) : Remains s (s.lineWritten w l) := by
  have hpush : Remains s ((if w.quiet then s else s.pushLine l).modThreads (·.lineWritten l)) :=
    (Remains.ite (.of_groups rfl) (pushLine_remains s l)).trans (modThreads_remains _ _)
  unfold State.lineWritten
  dsimp only
  split
  · exact hpush.trans (.of_groups rfl)
  · exact hpush.trans (.of_groups rfl)
theorem writeEvent_remains (s : State) (w : Writer) (cells : List (Nat × Byte)) : Remains s (s.writeEvent w cells) := by
  have hcheck : (s.checkAll (cells.map (·.1))).groups = s.groups := by
    unfold State.checkAll
    split <;> rfl
  unfold State.writeEvent
  dsimp only
  refine Remains.trans ?_ (Remains.foldl _ (fun s l => lineWritten_remains s w l) _ _)
  exact .of_groups hcheck
theorem devRoom_groups (s : State) (ps : List Nat) : (s.devRoom ps).1.groups = s.groups := by
  unfold State.devRoom State.noteStall
  split
  · rfl
  · dsimp only
    split_ifs <;> rfl
theorem stampOne_remains (s : State) (ctx buf gran lsn : Nat) (e : BufEntry) : Remains s (s.stampOne ctx buf e gran lsn) := by
  unfold State.stampOne
  split
  · exact (Remains.of_groups (devRoom_groups s _)).trans (writeEvent_remains _ _ _)
  · exact .ite (.of_groups rfl) (.of_groups (State.log_groups s _))
theorem stampRange_remains (s : State) (ctx len lsn : Nat) (a : Addr) : Remains s (s.stampRange ctx a len lsn) := by
  unfold State.stampRange
  split
  · exact .of_groups rfl
  · exact .ite (.of_groups rfl) (Remains.foldl _ (fun s k => stampOne_remains s _ _ _ _ _) _ _)
theorem writeDev_remains (s : State) (w : Writer) (a : Addr) (cells : List (Nat × Byte)) : Remains s (s.writeDev w a cells) := by
  unfold State.writeDev
  dsimp only
  split
  · exact writeEvent_remains s w cells
  · exact (writeEvent_remains s w cells).trans (stampRange_remains _ _ _ _ _)
theorem startPage_groups (s : State) (ctx buf pg : Nat) : (s.startPage ctx buf pg).2.groups = s.groups := by
  unfold State.startPage
  dsimp only
  split <;> rfl
/-- The trace record of an exiting group. -/
theorem writeTrace_remains (s : State) (g : Nat) : Remains s (s.writeTrace g) := by
  have hwait (G : Group) (buf pg : Nat) :
      Remains s ((s.startPage G.ctx buf pg).2.modG g fun H => { H with recWait := some (s.startPage G.ctx buf pg).1 }) :=
    (Remains.of_groups (startPage_groups s G.ctx buf pg)).trans (.modG _ g _ fun _ => rfl)
  have hwritten (t : State) (h : Remains s t) : Remains s (t.modG g fun G => { G with trace := none }) := h.trans (.modG _ g _ fun _ => rfl)
  have hfail (i : Nat) (f : Item → Item) := hwritten (s.modItem i f) (.of_groups rfl)
  unfold State.writeTrace
  split
  · exact .of_groups rfl
  · next G _ =>
    split
    · exact .of_groups rfl
    · dsimp only
      refine .ite (.of_groups rfl) ?_
      split
      · next ps _ =>
        split
        · exact hwait G _ _
        · exact hwritten _ ((Remains.of_groups (devRoom_groups s ps)).trans (writeDev_remains _ _ _ _))
      · exact .ite (hfail _ _) (hwait G _ _)
      · exact hfail _ _

end Sys2Proof.Machine
end

section
/-! PROOF. `exit` (R308): O14. -/

namespace Sys2Proof.Machine

/-- A group whose thread t of a warp ended. -/
def Group.without (G : Group) (t warp now : Nat) : Group :=
  { G with threads := Map.erase G.threads t, lastJoin := Map.set G.lastJoin warp now }

/-- With no delivery open or held, the end of a thread takes it out of its group. -/
theorem State.endThread_eq {s : State} {g t : Nat} {G : Group} {T : Thread} (hG : s.group? g = some G) (hT : s.thread? g t = some T)
    (hopen : G.open_ = []) (hheld : G.heldDel = []) : s.endThread g t =
      if Map.erase G.threads t = [] ∧ G.recs = [] ∧ ¬ G.exiting then (s.modG g (·.without t T.warp s.clock)).groupExit g
      else s.modG g (·.without t T.warp s.clock) := by
  have hmod : ((((s.modG g fun G => { G with threads := Map.erase G.threads t }).noteEnd g T.warp).leaveDeliveries g t T.warp)) =
      s.modG g (·.without t T.warp s.clock) := by
    have hgroup : (((s.modG g fun G => { G with threads := Map.erase G.threads t }).noteEnd g T.warp).modG g fun G =>
        { G with
          open_ := (G.open_.map fun d => { d with tids := d.tids.filter (· != t), undo := [] }).filter (·.tids != []),
          heldDel := (G.heldDel.map fun d => { d with traps := d.traps.filter (·.1 != t) }).filter (·.traps != []) }) =
        s.modG g (·.without t T.warp s.clock) := by
      refine congrArg (fun l => ({ s with groups := l } : State)) ?_
      change Map.modify (Map.modify (Map.modify s.groups g _) g _) g _ = _
      rw [Map.modify_modify, Map.modify_modify]
      refine Map.modify_congr _ _ _ _ fun H hH => ?_
      cases hH.symm.trans hG
      simp [Group.without, hopen, hheld]
    unfold State.leaveDeliveries
    rw [hgroup]
    unfold State.nextDelivery
    rw [State.group?_modG, if_pos rfl, hG]
    simp [Group.without, hheld]
  unfold State.endThread
  rw [hT]
  dsimp only
  rw [hmod, State.group?_modG, if_pos rfl, hG]
  rfl
/-- `exit` of a thread with nothing outstanding. -/
theorem execExit_ends {f : Full} {s : State} {is : Issue} {r : Ref} (hi : Issued s is [r]) (ha : Admits 0x0A5 f [r]) (hg : executing f [r] = [r])
    (hheld : r.T.held = []) (hnone : r.T.ld = 0 ∧ r.T.st = 0 ∧ r.T.cp = 0 ∧ r.T.tl = 0) (habs : (s.endThread r.g r.t).absent = none) :
    execExit f s = .next (s.endThread r.g r.t) := by
  obtain ⟨hld, hst, hcp, htl⟩ := hnone
  have hact : faultPoint (actExit f) s r = (s.endThread r.g r.t, .stay) := by
    rw [faultPoint_free _ s r hheld, actExit, Thread.within, if_pos (by simp [hld, hst, hcp, htl])]
  rw [execExit, issueTurn, issueAll_executing 0x0A5 f _ s is [r] (by decide) hi ha hg, List.foldl_cons, List.foldl_nil, hact]
  exact finish_of_present _ habs
/-- What the exit of a group with no thread leaves of it. -/
theorem State.groupExit_remains {s : State} {g : Nat} {G : Group} (hG : s.group? g = some G) (hthreads : G.threads = []) :
    ∃ H, (s.groupExit g).group? g = some H ∧ H.exiting = true ∧ H.threads = [] ∧ H.leases = [] ∧ H.tw = G.loopTw ∧ H.grant = 0 := by
  have hgroup : ((s.endLeave g).modG g fun G => { (G.modSlots Slot.remove) with exiting := true, leases := [], tw := G.loopTw }).group? g =
      some { ({ G with grant := 0 } : Group).modSlots Slot.remove with exiting := true, leases := [], tw := G.loopTw } := by
    rw [State.group?_modG, if_pos rfl]
    have hleave : (s.endLeave g).group? g = (s.group? g).map fun G => { G with grant := 0 } := (State.group?_modG s g g _).trans (if_pos rfl)
    rw [hleave, hG]
    rfl
  have hremains := writeTrace_remains ((s.endLeave g).modG g fun G => { (G.modSlots Slot.remove) with exiting := true, leases := [], tw := G.loopTw }) g g
  rw [hgroup, Option.map_some] at hremains
  obtain ⟨H, hH, hrem⟩ := Option.map_eq_some_iff.1 hremains
  obtain ⟨hexiting, hkeys, hleases, htw, hgrant⟩ : H.exiting = true ∧ H.threads.map (·.1) = G.threads.map (·.1) ∧ H.leases = [] ∧ H.tw = G.loopTw ∧ H.grant = 0 := by
    simpa [Group.remains, Group.modSlots] using hrem
  refine ⟨H, hH, hexiting, ?_, hleases, htw, hgrant⟩
  rw [hthreads] at hkeys
  exact List.map_eq_nil_iff.1 hkeys

/-- Settles O14: the group without the thread, or what its own exit leaves of it. -/
theorem exitEndsTheThread : Obligations.ExitEndsTheThread := by
  unfold Obligations.ExitEndsTheThread
  intro f s is r hi ha hg hheld hld hst hcp htl habs
  obtain ⟨hG, hT⟩ := hi.mem r List.mem_cons_self
  refine ⟨_, execExit_ends hi ha hg hheld ⟨hld, hst, hcp, htl⟩ habs, fun hopen hdel hkeeps => ?_, fun hopen hdel hlast hrecs hexiting => ?_⟩
  · have hend : s.endThread r.g r.t = s.modG r.g (·.without r.t r.T.warp s.clock) := by
      rw [State.endThread_eq hG hT hopen hdel, if_neg]
      rintro ⟨hthreads, hrecs, _⟩
      exact hkeeps.elim (· hthreads) (· hrecs)
    rw [hend]
    exact ⟨by rw [State.group?_modG, if_pos rfl, hG]; rfl, fun g hne => by rw [State.group?_modG, if_neg hne], rfl⟩
  · rw [State.endThread_eq hG hT hopen hdel, if_pos ⟨hlast, hrecs, by simp [hexiting]⟩]
    have hgroup : (s.modG r.g (·.without r.t r.T.warp s.clock)).group? r.g = some (r.G.without r.t r.T.warp s.clock) := by
      rw [State.group?_modG, if_pos rfl, hG]
      rfl
    obtain ⟨H, hH, hexit, hthreads, hleases, htw, hgrant⟩ := State.groupExit_remains hgroup hlast
    exact ⟨H, hH, hexit, hthreads, hleases, htw, fun hloop => htw.trans (by rw [Group.loopTw, Group.without]; simp [hloop]), hgrant⟩

end Sys2Proof.Machine
end

section
/-! SUPPORT. Bytes by place: tables written byte after byte, tables of lists, and rows laid end to end. O48. -/

namespace Sys2Proof.Machine

/-- Bytes put one after the other from place c on. -/
def putRun (m : Sparse Byte) (c n : Nat) (f : Nat → Byte) : Sparse Byte := (List.range n).foldl (fun m k => Map.put 0 m (c + k) (f k)) m

theorem putRun_succ (m : Sparse Byte) (c n : Nat) (f : Nat → Byte) : putRun m c (n + 1) f = Map.put 0 (putRun m c n f) (c + n) (f n) := by
  simp [putRun, List.range_succ]
theorem putRun_canon (m : Sparse Byte) (c n : Nat) (f : Nat → Byte) (h : Map.canon 0 m = true) : Map.canon 0 (putRun m c n f) = true := by
  induction n with
  | zero => exact h
  | succ n ih => rw [putRun_succ]; exact Map.canon_put 0 _ _ _ ih
theorem getD_putRun (m : Sparse Byte) (c n : Nat) (f : Nat → Byte) (h : Map.canon 0 m = true) (p : Nat) :
    Map.getD (putRun m c n f) 0 p = if c ≤ p ∧ p < c + n then f (p - c) else Map.getD m 0 p := by
  induction n with
  | zero => exact (if_neg (by omega)).symm
  | succ n ih =>
    rw [putRun_succ, Map.getD_put 0 _ _ _ _ (putRun_canon m c n f h), ih]
    by_cases hp : p = c + n
    · rw [if_pos hp, if_pos (by omega), hp, Nat.add_sub_cancel_left]
    · rw [if_neg hp]
      exact if_congr (by omega) rfl rfl

/-- A byte of a table that lists the bytes that are not 0. -/
theorem get?_listed (v : Nat → Byte) (k : Nat) (l : List Nat) :
    Map.get? ((l.map fun p => (p, v p)).filter fun e => e.2 != 0) k = if k ∈ l ∧ v k ≠ 0 then some (v k) else none := by
  induction l with
  | nil => exact (if_neg fun h => nomatch h.1).symm
  | cons q l ih =>
    rw [List.map_cons]
    by_cases hq : v q = 0
    · rw [List.filter_cons_of_neg (by simpa using hq), ih]
      refine if_congr ⟨fun h => ⟨List.mem_cons_of_mem q h.1, h.2⟩, fun h => ⟨?_, h.2⟩⟩ rfl rfl
      exact (List.mem_cons.1 h.1).resolve_left fun e => h.2 (e ▸ hq)
    · rw [List.filter_cons_of_pos (by simpa using hq)]
      by_cases hk : k = q
      · subst hk
        exact (if_pos rfl).trans (if_pos ⟨List.mem_cons_self, hq⟩).symm
      · refine (if_neg hk).trans (ih.trans (if_congr ?_ rfl rfl))
        simp [hk]
theorem getD_sparseOf (v : Nat → Byte) (n k : Nat) (hk : k < n) : Map.getD (sparseOf ((List.range n).map v)) 0 k = v k := by
  rw [Map.getD, sparseOf, List.length_map, List.length_range, range_zip_map, get?_listed]
  by_cases hv : v k = 0
  · rw [if_neg fun h => h.2 hv, hv]
    rfl
  · rw [if_pos ⟨List.mem_range.2 hk, hv⟩]
    rfl
/-- Rows of one length laid end to end. -/
theorem flatMap_rows {β : Type} (n w : Nat) (hw : 0 < w) (f : Nat → Nat → β) :
    ((List.range n).flatMap fun i => (List.range w).map (f i)) = (List.range (w * n)).map fun p => f (p / w) (p % w) := by
  induction n with
  | zero => rfl
  | succ n ih =>
    rw [List.range_succ, List.flatMap_append, ih, Nat.mul_succ, List.range_add, List.map_append, List.map_map, List.flatMap_singleton]
    refine congrArg _ (List.map_congr_left fun k hk => ?_)
    rw [Function.comp_apply, Nat.mul_add_div hw, Nat.mul_add_mod, Nat.div_eq_of_lt (List.mem_range.1 hk), Nat.mod_eq_of_lt (List.mem_range.1 hk), Nat.add_zero]

end Sys2Proof.Machine
end

section
/-! SUPPORT. Loads of tiles from the scratchpad (R380, R382): what each event takes, and the whole tile. O48. -/

namespace Sys2Proof.Machine

/-! ## What changes of the state -/

theorem State.tell_shape (s : State) (g : Nat) : ∃ c, s.tell g = { s with cores := c } := by
  unfold State.tell
  split
  · exact ⟨_, rfl⟩
  · exact ⟨s.cores, rfl⟩
/-- A group with one of its operations changed. -/
def Group.modTile (G : Group) (id : Nat) (f : TileOp → TileOp) : Group :=
  { G with tileOps := G.tileOps.map fun x => if x.id = id then f x else x }
theorem Group.modTile_modTile (G : Group) (id : Nat) (f h : TileOp → TileOp) (hf : ∀ x, (f x).id = x.id) :
    (G.modTile id f).modTile id h = G.modTile id fun x => h (f x) := by
  refine congrArg (fun l => ({ G with tileOps := l } : Group)) ((List.map_map ..).trans (List.map_congr_left fun x _ => ?_))
  rw [Function.comp_apply]
  by_cases hx : x.id = id
  · rw [if_pos hx, if_pos hx, if_pos ((hf x).trans hx)]
  · rw [if_neg hx, if_neg hx, if_neg hx]
theorem Group.modTile_find {G : Group} {id : Nat} {o : TileOp} {f : TileOp → TileOp} (hf : ∀ x, (f x).id = x.id) (ho : G.tileOps.find? (·.id == id) = some o) :
    (G.modTile id f).tileOps.find? (·.id == id) = some (f o) := by
  have hid : (id == o.id) = true := by have h := List.find?_some ho; rwa [BEq.comm] at h
  have hkeys : (fun x : TileOp => ((if x.id = id then f x else x).id == id)) = fun x => x.id == id := funext fun x => by
    split
    · rw [hf]
    · rfl
  refine (List.find?_map ..).trans ?_
  rw [Function.comp_def, hkeys, ho, Option.map_some, if_pos (beq_iff_eq.1 hid).symm]

/-! ## The events of a load from the scratchpad -/

/-- The cut of an event: row, byte and length. -/
def TileOp.cut (o : TileOp) (u : Nat) : Nat × Nat × Nat := o.cuts.getD u (0, 0, 0)
/-- What event u of o reads from the scratchpad of G, beside what was read before. -/
def TileOp.readAt (o : TileOp) (G : Group) (u : Nat) (m : Sparse Byte) : Sparse Byte :=
  putRun m (128 * (o.cut u).1 + (o.cut u).2.1) (o.cut u).2.2 fun k => G.padByte (o.rowOff (o.cut u).1 + (o.cut u).2.1 + k)
/-- An operation x once event u of o has landed. -/
def TileOp.took (o : TileOp) (G : Group) (x : TileOp) (u : Nat) : TileOp := { x with got := o.readAt G u x.got, units := x.units.filter (· != u) }
/-- An operation once a list of events has landed. -/
def TileOp.takes (o : TileOp) (G : Group) (us : List Nat) (x : TileOp) : TileOp := us.foldl (o.took G) x

theorem TileOp.took_eq (o : TileOp) (G : Group) (x : TileOp) (u : Nat) : o.took G x u =
    { x.gain (o.cut u).1 (o.cut u).2.1 (G.padBytes (o.rowOff (o.cut u).1 + (o.cut u).2.1) (o.cut u).2.2) with units := x.units.filter (· != u) } := by
  simp only [TileOp.took, TileOp.readAt, TileOp.gain, Group.padBytes, List.length_map, List.length_range, range_zip_map, List.foldl_map, putRun]
theorem TileOp.takes_cons (o : TileOp) (G : Group) (u : Nat) (us : List Nat) (x : TileOp) : o.takes G (u :: us) x = o.takes G us (o.took G x u) :=
  List.foldl_cons
theorem TileOp.takes_frame (o : TileOp) (G : Group) (us : List Nat) : ∀ x : TileOp,
    ({ o.takes G us x with got := x.got, units := x.units } : TileOp) = x := by
  induction us with
  | nil => exact fun _ => rfl
  | cons u us ih =>
    intro x
    rw [TileOp.takes_cons]
    have h := congrArg (fun y : TileOp => ({ y with got := x.got, units := x.units } : TileOp)) (ih (o.took G x u))
    exact h
theorem TileOp.takes_id (o : TileOp) (G : Group) (us : List Nat) (x : TileOp) : (o.takes G us x).id = x.id := by
  have h := congrArg TileOp.id (o.takes_frame G us x)
  exact h
theorem TileOp.takes_units (o : TileOp) (G : Group) (us : List Nat) : ∀ x : TileOp, (o.takes G us x).units = x.units.filter fun u => !us.contains u := by
  induction us with
  | nil => exact fun x => by simp [TileOp.takes]
  | cons u us ih =>
    intro x
    rw [TileOp.takes_cons, ih, TileOp.took, List.filter_filter]
    refine List.filter_congr fun v _ => ?_
    rw [List.contains_cons, Bool.not_or, Bool.and_comm]
    rfl

section
variable {o : TileOp} {g : Nat} {G : Group} (hplanar : o.planar = none) (hpad : o.pad = true) (hload : o.load = true)
include hplanar hpad hload

theorem State.tileUnit_takes (s : State) {u : Nat} (hu : u < o.cuts.length) : s.tileUnit g G o u = (s.tell g).modTile g o.id fun x => o.took G x u := by
  unfold State.tileUnit
  rw [List.getElem?_eq_getElem hu]
  dsimp only
  rw [hplanar]
  dsimp only
  rw [if_pos hpad, if_pos hload]
  refine congrArg (fun f => (s.tell g).modTile g o.id f) (funext fun x => ?_)
  rw [TileOp.took_eq, TileOp.cut, List.getD_eq_getElem?_getD, List.getElem?_eq_getElem hu, Option.getD_some]
theorem State.tileUnits_take (us : List Nat) : ∀ (s : State), (∀ u ∈ us, u < o.cuts.length) →
    ∃ c, us.foldl (fun (s : State) u => s.tileUnit g G o u) s = { s.modG g (·.modTile o.id (o.takes G us)) with cores := c } := by
  induction us with
  | nil =>
    intro s _
    refine ⟨s.cores, ?_⟩
    have hsame : (·.modTile o.id (o.takes G [])) = fun H : Group => H :=
      funext fun H => congrArg (fun l => ({ H with tileOps := l } : Group)) ((List.map_congr_left fun x _ => ite_self x).trans (List.map_id' _))
    rw [hsame, State.modG_id]
    rfl
  | cons u us ih =>
    intro s hus
    obtain ⟨c, hc⟩ := s.tell_shape g
    have hstep : s.tileUnit g G o u = { s.modG g (·.modTile o.id fun x => o.took G x u) with cores := c } := by
      rw [State.tileUnit_takes hplanar hpad hload s (hus u List.mem_cons_self), hc]
      rfl
    obtain ⟨d, hd⟩ := ih (s.tileUnit g G o u) fun v hv => hus v (List.mem_cons_of_mem u hv)
    refine ⟨d, ?_⟩
    rw [List.foldl_cons, hd, hstep]
    refine congrArg (fun l => ({ s with groups := l, cores := d } : State)) ((Map.modify_modify ..).trans ?_)
    refine congrArg (Map.modify s.groups g) (funext fun H => ?_)
    exact H.modTile_modTile o.id _ _ fun _ => rfl

end

/-! ## The bytes of the tile -/

/-- The byte of a row that an event of the scratchpad reads. -/
def TileOp.padAt (o : TileOp) (G : Group) (p : Nat) : Byte := G.padByte (o.rowOff (p / 128) + p % 128)
/-- The cut covers a byte of the tile. -/
def covers (c : Nat × Nat × Nat) (p : Nat) : Prop := 128 * c.1 + c.2.1 ≤ p ∧ p < 128 * c.1 + c.2.1 + c.2.2

/-- Every byte that an event covers is read, and no byte changes once it is. -/
theorem TileOp.takes_got (o : TileOp) (G : Group) (p : Nat) (us : List Nat) : ∀ x : TileOp, (∀ u ∈ us, (o.cut u).2.1 + (o.cut u).2.2 ≤ 128) →
    Map.canon 0 x.got = true → (Map.getD x.got 0 p = o.padAt G p ∨ ∃ u ∈ us, covers (o.cut u) p) → Map.getD (o.takes G us x).got 0 p = o.padAt G p := by
  induction us with
  | nil => exact fun x _ _ h => h.resolve_right fun ⟨_, hu, _⟩ => nomatch hu
  | cons u us ih =>
    intro x hus hx h
    have hbyte := getD_putRun x.got (128 * (o.cut u).1 + (o.cut u).2.1) (o.cut u).2.2 (fun k => G.padByte (o.rowOff (o.cut u).1 + (o.cut u).2.1 + k)) hx p
    rw [TileOp.takes_cons]
    refine ih (o.took G x u) (fun v hv => hus v (List.mem_cons_of_mem u hv)) (putRun_canon _ _ _ _ hx) ?_
    rw [TileOp.took, TileOp.readAt, hbyte]
    by_cases hc : covers (o.cut u) p
    · left
      refine (if_pos hc).trans ?_
      have hle := hus u List.mem_cons_self
      obtain ⟨h1, h2⟩ := hc
      have hrow : p / 128 = (o.cut u).1 := by omega
      rw [TileOp.padAt, hrow]
      congr 1
      omega
    · refine Or.imp_left (if_neg hc).trans ?_
      refine h.imp_right fun ⟨v, hv, hcov⟩ => ?_
      obtain rfl | hv := List.mem_cons.1 hv
      · exact absurd hcov hc
      · exact ⟨v, hv, hcov⟩

end Sys2Proof.Machine
end

section
/-! SUPPORT. A tile load from the scratchpad, whole (R380, R382). O48. -/

namespace Sys2Proof.Machine

/-! ## The events cover the tile -/

theorem cutsOf_fits {w o n : Nat} {c : Nat × Nat} (hc : c ∈ cutsOf w o n) : c.1 + c.2 ≤ n := by
  obtain ⟨i, hi, hcut⟩ := List.mem_filterMap.1 hc
  have hi := List.mem_range.1 hi
  have hdiv := Nat.div_add_mod (o + i) w
  rw [Nat.mul_comm] at hdiv
  dsimp only at hcut
  split at hcut
  · next hunit =>
    split at hcut
    · next hmod =>
      cases hcut
      dsimp only
      omega
    · cases hcut
  · cases hcut
    dsimp only
    omega
theorem cutsOf_covers {w o n j : Nat} (hw : 0 < w) (hj : j < n) : ∃ c ∈ cutsOf w o n, c.1 ≤ j ∧ j < c.1 + c.2 := by
  have hdiv := Nat.div_add_mod (o + j) w
  have hmod := Nat.mod_lt (o + j) hw
  rw [Nat.mul_comm] at hdiv
  by_cases hunit : o ≤ (o + j) / w * w ∧ (o + j) / w * w + w ≤ o + n
  · have hplace : o + ((o + j) / w * w - o) = (o + j) / w * w := by omega
    refine ⟨((o + j) / w * w - o, w), List.mem_filterMap.2 ⟨(o + j) / w * w - o, List.mem_range.2 (by omega), ?_⟩, by dsimp only; omega, by dsimp only; omega⟩
    dsimp only
    rw [hplace, Nat.mul_div_cancel _ hw, if_pos hunit, if_pos (Nat.mul_mod_left _ _)]
  · exact ⟨(j, 1), List.mem_filterMap.2 ⟨j, List.mem_range.2 hj, if_neg hunit⟩, Nat.le_refl j, Nat.lt_succ_self j⟩

section
variable {o : TileOp} (hplanar : o.planar = none) (hpad : o.pad = true) (hacc : o.isAcc = false) (htrans : o.trans = false)
include hplanar hpad hacc htrans

theorem TileOp.mem_cuts (c : Nat × Nat × Nat) : c ∈ o.cuts ↔ c.1 < 32 ∧ c.2 ∈ cutsOf 16 (o.rowOff c.1) 128 := by
  obtain ⟨i, k, n⟩ := c
  simp [TileOp.cuts, TileOp.rows, hplanar, hpad, hacc, htrans, Prod.ext_iff]
theorem TileOp.cut_fits {u : Nat} (hu : u < o.cuts.length) : (o.cut u).2.1 + (o.cut u).2.2 ≤ 128 := by
  have hmem : o.cut u ∈ o.cuts := by
    rw [TileOp.cut, List.getD_eq_getElem?_getD, List.getElem?_eq_getElem hu]
    exact List.getElem_mem hu
  exact cutsOf_fits ((TileOp.mem_cuts hplanar hpad hacc htrans _).1 hmem).2
theorem TileOp.cuts_cover {p : Nat} (hp : p < 4096) : ∃ u ∈ List.range o.cuts.length, covers (o.cut u) p := by
  obtain ⟨c, hc, hle, hlt⟩ := cutsOf_covers (w := 16) (o := o.rowOff (p / 128)) (n := 128) (j := p % 128) (by decide) (Nat.mod_lt p (by decide))
  obtain ⟨u, hu, hget⟩ := List.mem_iff_getElem.1 ((TileOp.mem_cuts hplanar hpad hacc htrans (p / 128, c)).2 ⟨by dsimp only; omega, hc⟩)
  refine ⟨u, List.mem_range.2 hu, ?_⟩
  rw [TileOp.cut, List.getD_eq_getElem?_getD, List.getElem?_eq_getElem hu, hget]
  dsimp only [covers, Option.getD_some]
  omega

end

/-! ## The end of an operation -/

/-- A thread with one operation of the engine less. -/
def Thread.lessTl (T : Thread) : Thread := { T with tl := T.tl - 1 }
/-- Threads of a group changed alike. -/
def modAll (l : List Nat) (f : Thread → Thread) (m : Sparse Thread) : Sparse Thread := l.foldl (fun m t => Map.modify m t f) m

theorem foldl_modT_eq (g : Nat) (f : Thread → Thread) (l : List Nat) : ∀ s : State,
    l.foldl (fun (s : State) t => s.modT g t f) s = s.modG g fun G => { G with threads := modAll l f G.threads } := by
  induction l with
  | nil => exact fun s => (s.modG_id g).symm
  | cons t l ih =>
    intro s
    rw [List.foldl_cons, ih]
    exact congrArg (fun gs => ({ s with groups := gs } : State)) (Map.modify_modify ..)
theorem get?_modAll_others (f : Thread → Thread) (k : Nat) (l : List Nat) (hk : k ∉ l) : ∀ m, Map.get? (modAll l f m) k = Map.get? m k := by
  induction l with
  | nil => exact fun _ => rfl
  | cons t l ih =>
    intro m
    rw [List.mem_cons, not_or] at hk
    exact (ih hk.2 _).trans ((Map.get?_modify m t k f).trans (if_neg hk.1))
theorem get?_modAll (f : Thread → Thread) (k : Nat) (l : List Nat) (hnd : l.Nodup) (hk : k ∈ l) : ∀ m, Map.get? (modAll l f m) k = (Map.get? m k).map f := by
  induction l with
  | nil => exact nomatch hk
  | cons t l ih =>
    intro m
    rw [List.nodup_cons] at hnd
    obtain rfl | hk' := List.mem_cons.1 hk
    · exact (get?_modAll_others f k l hnd.1 _).trans ((Map.get?_modify m k k f).trans (if_pos rfl))
    · exact (ih hnd.2 hk' _).trans (congrArg _ ((Map.get?_modify m t k f).trans (if_neg fun e => hnd.1 (by rw [← e]; exact hk'))))
/-- A group whose operation o is over. -/
def Group.tileOver (G : Group) (o : TileOp) : Group :=
  { G with tileOps := G.tileOps.filter (·.id != o.id), threads := modAll o.tids Thread.lessTl G.threads }
theorem State.tileOver_eq (s : State) (g : Nat) (o : TileOp) : s.tileOver g o none = s.modG g (·.tileOver o) := by
  have hfold : s.tileOver g o none =
      o.tids.foldl (fun (s : State) t => s.modT g t Thread.lessTl) (s.modG g fun G => { G with tileOps := G.tileOps.filter (·.id != o.id) }) := rfl
  rw [hfold, foldl_modT_eq]
  exact congrArg (fun gs => ({ s with groups := gs } : State)) (Map.modify_modify ..)

/-! ## The whole load -/

/-- An operation whose events have all landed. -/
def TileOp.whole (o : TileOp) (G : Group) : TileOp := o.takes G (List.range o.cuts.length) o
/-- A group in whose tile an operation's load is. -/
def Group.loaded (G : Group) (o : TileOp) : Group :=
  ((G.modTile o.id (o.takes G (List.range o.cuts.length))).putLoad (o.whole G)).tileOver (o.whole G)

theorem TileOp.whole_units {o : TileOp} (G : Group) (hunits : o.units = List.range o.cuts.length) : (o.whole G).units = [] := by
  rw [TileOp.whole, TileOp.takes_units, hunits]
  exact List.filter_eq_nil_iff.2 fun u hu => by simpa using hu
/-- A load from the scratchpad, its events all due, lands at once. -/
theorem State.tileLand_loads {s : State} {g : Nat} {G : Group} {o : TileOp} (hG : s.group? g = some G) (hfrozen : s.frozen G.ctx = false)
    (ho : G.tileOps.find? (·.id == o.id) = some o) (hunits : o.units = List.range o.cuts.length) (hplanar : o.planar = none) (hservice : o.service = none)
    (hload : o.load = true) (hpad : o.pad = true) :
    ∃ c, s.tileLand g o.id (fun _ => true) = { s.modG g fun _ => G.loaded o with cores := c } := by
  have hready : s.tileReady G o = .ok () := by
    unfold State.tileReady
    rw [hplanar]
    exact if_pos hpad
  have hstamp : s.tileStampMiss G o = none := if_pos (.inl hload)
  have hpick : o.units.filter (fun _ => true) = List.range o.cuts.length := (List.filter_true _).trans hunits
  obtain ⟨c, hc⟩ := State.tileUnits_take (g := g) (G := G) hplanar hpad hload (List.range o.cuts.length) s fun u hu => List.mem_range.1 hu
  have hgroup : ({ s.modG g (·.modTile o.id (o.takes G (List.range o.cuts.length))) with cores := c } : State).group? g =
      some (G.modTile o.id (o.takes G (List.range o.cuts.length))) := by
    have h := State.group?_modG s g g (·.modTile o.id (o.takes G (List.range o.cuts.length)))
    rw [if_pos rfl, hG] at h
    exact h
  refine ⟨c, ?_⟩
  unfold State.tileLand
  rw [hG]
  dsimp only
  rw [ho]
  dsimp only
  rw [if_neg (by simp [hservice, hfrozen]), hready, hstamp]
  dsimp only
  rw [hpick, hc, hgroup]
  dsimp only [Option.bind_some]
  rw [Group.modTile_find (o.takes_id G _) ho]
  dsimp only
  have hwhole : (o.whole G).load = true := (congrArg TileOp.load (o.takes_frame G _ o) :).trans hload
  change (if (o.whole G).units ≠ [] then _ else State.tileOver (if (o.whole G).load = true then _ else _) g (o.whole G) none) = _
  rw [if_neg (not_not.2 (o.whole_units G hunits)), if_pos hwhole, State.tileOver_eq]
  refine congrArg (fun gs => ({ s with groups := gs, cores := c } : State)) ?_
  change Map.modify (Map.modify (Map.modify s.groups g _) g _) g _ = _
  rw [Map.modify_modify, Map.modify_modify]
  refine Map.modify_congr _ _ _ _ fun H hH => ?_
  cases hH.symm.trans hG
  rfl

/-! ## What the load leaves (R377, R382) -/

section
variable {o : TileOp} (G : Group) (hplanar : o.planar = none) (hpad : o.pad = true) (hacc : o.isAcc = false) (htrans : o.trans = false)

theorem TileOp.whole_frame (o : TileOp) : ({ o.whole G with got := o.got, units := o.units } : TileOp) = o := o.takes_frame G _ o
include hplanar hacc in
theorem Group.loaded_eq : G.loaded o = ((G.modTile o.id (o.takes G (List.range o.cuts.length))).setTile o.num
    (denseTile o.ty o.ext o.mod (o.whole G).place)).tileOver o := by
  have hframe := o.whole_frame G
  generalize hw : o.whole G = w at hframe ⊢
  have hkeeps : w.planar = none ∧ w.isAcc = false ∧ w.num = o.num ∧ w.ty = o.ty ∧ w.ext = o.ext ∧ w.mod = o.mod ∧ w.tids = o.tids ∧ w.id = o.id := by
    rw [← hframe] at hplanar hacc ⊢
    exact ⟨hplanar, hacc, rfl, rfl, rfl, rfl, rfl, rfl⟩
  obtain ⟨hwplanar, hwacc, hnum, hty, hext, hmod, htids, hid⟩ := hkeeps
  rw [Group.loaded, hw, Group.putLoad, hwplanar, if_neg (by decide), hwacc, if_neg (by decide), hnum, hty, hext, hmod]
  simp only [Group.tileOver, htids, hid]
include hplanar hpad hacc htrans in
/-- The bytes of the tile in order. -/
theorem TileOp.whole_place (hgot : o.got = []) : (o.whole G).place = (List.range 4096).map (o.padAt G) := by
  have hbytes (p : Nat) (hp : p < 4096) : Map.getD (o.whole G).got 0 p = o.padAt G p :=
    o.takes_got G p _ o (fun u hu => TileOp.cut_fits hplanar hpad hacc htrans (List.mem_range.1 hu)) (by rw [hgot]; rfl)
      (.inr (TileOp.cuts_cover hplanar hpad hacc htrans hp))
  have htrans' : (o.whole G).trans = false := (congrArg TileOp.trans (o.whole_frame G) :).trans htrans
  have hrows : (o.whole G).place = (List.range 32).flatMap fun i => (List.range 128).map fun k => Map.getD (o.whole G).got 0 (128 * i + k) := by
    rw [TileOp.place, htrans']
    rfl
  rw [hrows, flatMap_rows 32 128 (by decide)]
  refine List.map_congr_left fun p hp => ?_
  rw [Nat.div_add_mod]
  exact hbytes p (List.mem_range.1 hp)
include hplanar hpad hacc htrans in
/-- A row of the tile is the run of bytes of the scratchpad that R382 names. -/
theorem TileOp.whole_row (hgot : o.got = []) (i : Nat) (hi : i < 32) : (denseTile o.ty o.ext o.mod (o.whole G).place).row i =
    (List.range 128).map fun k => Map.getD G.pad 0 ((truncI (o.off + i * o.stride) 32 + k) % G.lr.alloc) := by
  rw [Tile.row, denseTile, TileOp.whole_place G hplanar hpad hacc htrans hgot]
  refine List.map_congr_left fun k hk => ?_
  have hk := List.mem_range.1 hk
  dsimp only
  rw [getD_sparseOf _ _ _ (by omega)]
  rw [TileOp.padAt, Nat.mul_add_div (by decide), Nat.mul_add_mod, Nat.div_eq_of_lt hk, Nat.mod_eq_of_lt hk]
  rfl

end

end Sys2Proof.Machine
end

section
/-! SUPPORT. The completion of a tile load (R377, R380, R382). O48. -/

namespace Sys2Proof.Machine

theorem Group.modTile_others (G : Group) (id : Nat) (f : TileOp → TileOp) (hf : ∀ x, (f x).id = x.id) :
    (G.modTile id f).tileOps.filter (·.id != id) = G.tileOps.filter (·.id != id) := by
  refine (List.filter_map ..).trans ?_
  have hkeys : ((fun x : TileOp => x.id != id) ∘ fun x => if x.id = id then f x else x) = fun x => x.id != id := funext fun x => by
    rw [Function.comp_apply]
    split
    · rw [hf]
    · rfl
  rw [hkeys]
  refine (List.map_congr_left fun x hx => if_neg ?_).trans (List.map_id' _)
  simpa using (List.mem_filter.1 hx).2
theorem Group.setTile_tile (G : Group) (n k : Nat) (t : Tile) (ht : t.valid = true) : (G.setTile n t).tile k = if k = n then t else G.tile k := by
  have hne : t ≠ {} := fun e => by rw [e] at ht; exact absurd ht (by decide)
  rw [Group.tile, Group.setTile, Map.put, if_neg hne, Map.getD, Map.get?_set]
  split <;> rfl
theorem execTileOpComplete_loads {s : State} {g : Nat} {G : Group} {o : TileOp} (habs : s.absent = none) (hG : s.group? g = some G)
    (hfrozen : s.frozen G.ctx = false) (hfind : s.groups.find? (fun e => e.2.tileOps.any (·.id == o.id)) = some (g, G))
    (ho : G.tileOps.find? (·.id == o.id) = some o) (hunits : o.units = List.range o.cuts.length) (hplanar : o.planar = none) (hservice : o.service = none)
    (hload : o.load = true) (hpad : o.pad = true) :
    ∃ c, execTileOpComplete o.id s = .next { s.modG g fun _ => G.loaded o with cores := c } := by
  obtain ⟨c, hc⟩ := State.tileLand_loads hG hfrozen ho hunits hplanar hservice hload hpad
  refine ⟨c, ?_⟩
  rw [execTileOpComplete, State.tileEvent, hfind]
  dsimp only
  rw [hc]
  exact finish_of_present _ habs
/-- What shows of a group after a tile load. -/
theorem Group.loaded_shows (G : Group) {o : TileOp} (hplanar : o.planar = none) (hacc : o.isAcc = false) :
    (G.loaded o).tileOps = G.tileOps.filter (·.id != o.id) ∧ (G.loaded o).threads = modAll o.tids Thread.lessTl G.threads ∧
      ∀ n, (G.loaded o).tile n = if n = o.num then denseTile o.ty o.ext o.mod (o.whole G).place else G.tile n := by
  rw [Group.loaded_eq G hplanar hacc]
  exact ⟨G.modTile_others o.id _ (o.takes_id G _), rfl, fun n => Group.setTile_tile (G.modTile o.id _) o.num n _ rfl⟩

end Sys2Proof.Machine
end

section
/-! SUPPORT. What the matrix engine reads, and what of the state it leaves (R383, R389). O48. -/

namespace Sys2Proof.Machine

/-- From s to t nothing changed that an operand row or a thread shows, and group g is still there. -/
structure Reads (g : Nat) (s t : State) : Prop where
  mem : t.mem = s.mem
  ctxs : t.ctxs = s.ctxs
  items : t.items = s.items
  poison : t.port.poison = s.port.poison
  absent : t.absent = s.absent
  threads : ∀ h k, t.thread? h k = s.thread? h k
  stays : (s.group? g).isSome → (t.group? g).isSome

theorem Reads.refl (g : Nat) (s : State) : Reads g s s := ⟨rfl, rfl, rfl, rfl, rfl, fun _ _ => rfl, id⟩
theorem Reads.trans {g : Nat} {s t u : State} (h : Reads g s t) (k : Reads g t u) : Reads g s u :=
  ⟨k.mem.trans h.mem, k.ctxs.trans h.ctxs, k.items.trans h.items, k.poison.trans h.poison, k.absent.trans h.absent,
    fun a b => (k.threads a b).trans (h.threads a b), fun x => k.stays (h.stays x)⟩
theorem Reads.foldl {α : Type} {g : Nat} (f : State → α → State) (h : ∀ s a, Reads g s (f s a)) (l : List α) : ∀ s, Reads g s (l.foldl f s) := by
  induction l with
  | nil => exact Reads.refl g
  | cons a l ih => exact fun s => (h s a).trans (ih _)
theorem State.thread?_modG_keeps {s : State} (g : Nat) {f : Group → Group} (hf : ∀ G, (f G).threads = G.threads) (h k : Nat) :
    (s.modG g f).thread? h k = s.thread? h k := by
  unfold State.thread?
  rw [State.group?_modG]
  split
  · next e =>
    subst e
    cases s.group? h with
    | none => rfl
    | some G => exact congrArg (Map.get? · k) (hf G)
  · rfl
theorem Reads.modG (s : State) (g : Nat) {f : Group → Group} (hf : ∀ G, (f G).threads = G.threads) : Reads g s (s.modG g f) := by
  refine ⟨rfl, rfl, rfl, rfl, rfl, State.thread?_modG_keeps g hf, fun h => ?_⟩
  rw [State.group?_modG, if_pos rfl, Option.isSome_map]
  exact h

/-! ## What each event leaves -/

theorem traceNote_reads (s : State) (g : Nat) (w : Bool) (a : Addr) (n : Nat) : Reads g s (s.traceNote g w a n) := by
  unfold State.traceNote
  split
  · exact .refl g s
  · split
    · exact .refl g s
    · refine .modG s g fun G => ?_
      dsimp only
      split <;> rfl
theorem noteReads_reads (s : State) (g : Nat) (l : List (Addr × Nat)) : Reads g s (s.noteReads g l) := .foldl _ (fun s _ => traceNote_reads s ..) l s
theorem planeFill_reads (s : State) (g : Nat) (l1 : Bool) (ctx core h b d parts : Nat) : Reads g s (s.planeFill l1 ctx core h b d parts) :=
  ⟨rfl, rfl, rfl, rfl, rfl, fun _ _ => rfl, id⟩
theorem rowFill_reads (s : State) (g : Nat) (G : Group) (d : MDesc) (st i : Nat) : Reads g s (s.rowFill G d st i) := by
  unfold State.rowFill State.blockFill
  split
  · split
    · split
      · exact planeFill_reads ..
      · exact .refl g s
    · exact .refl g s
  · exact .refl g s
theorem tell_reads (s : State) (g : Nat) : Reads g s (s.tell g) := by
  obtain ⟨c, hc⟩ := s.tell_shape g
  rw [hc]
  exact ⟨rfl, rfl, rfl, rfl, rfl, fun _ _ => rfl, id⟩

/-! ## Operand rows -/

section
variable {g : Nat} {s t : State} (h : Reads g s t)
include h

theorem Reads.poisonedIn (w : Bool) (ps : List Nat) : t.poisonedIn w ps = s.poisonedIn w ps := by simp only [State.poisonedIn, h.poison]
theorem Reads.port_ (ctx : Nat) (ren : List Rename) (k : PKind) (a : Addr) (n : Nat) : t.port_ ctx ren k a n = s.port_ ctx ren k a n := by
  rw [port_congr h.mem h.ctxs]
theorem Reads.renOf (i : Nat) : t.renOf i = s.renOf i := by simp only [State.renOf, State.item?, h.items]
theorem Reads.gather (ps : List Nat) : t.gather ps = s.gather ps := by rw [State.gather, h.mem, State.gather]
theorem Reads.matPorts (G : Group) (k : PKind) (l : List (Addr × Nat)) : t.matPorts G k l = s.matPorts G k l := by
  induction l with
  | nil => rfl
  | cons e l ih => simp only [State.matPorts, State.matPort, h.port_, h.renOf, h.poisonedIn, ih]
theorem Reads.pdeFor (ctx x b : Nat) (w : Bool) : t.pdeFor ctx x b w = s.pdeFor ctx x b w := by
  have hctx (c : Nat) : t.ctx? c = s.ctx? c := by rw [State.ctx?, h.ctxs, State.ctx?]
  have hbuf (C : Ctx) (i : Nat) : t.buf C i = s.buf C i := by simp only [State.buf, h.mem]
  have hpde : t.pde ctx x = s.pde ctx x := by simp only [State.pde, hctx, State.readDev, h.port_, h.gather]
  simp only [State.pdeFor, hpde, hctx, hbuf]
theorem Reads.plWords (ctx : Nat) (ren : List Rename) (k : PKind) (as : List Addr) : t.plWords ctx ren k as = s.plWords ctx ren k as := by
  induction as with
  | nil => rfl
  | cons a as ih => simp only [State.plWords, h.port_, h.poisonedIn, ih]
theorem Reads.planarRow (G : Group) (x b d : Nat) : t.planarRow G x b d = s.planarRow G x b d := by
  simp only [State.planarRow, State.readBlock, State.blockIn, h.pdeFor, h.plWords, h.renOf, h.mem]
/-- A row of an operand. -/
theorem Reads.loopRow (G : Group) (d : MDesc) (K st i : Nat) : t.loopRow G d K st i = s.loopRow G d K st i := by
  have hgather : t.gather = s.gather := funext h.gather
  simp only [State.loopRow, h.planarRow, h.matPorts, hgather]

end

end Sys2Proof.Machine
end

section
/-! SUPPORT. Dense steps of a matrix loop and its end (R165, R166, R389, R390). O48. -/

namespace Sys2Proof.Machine

/-! ## A row of sums -/

theorem Group.sumAt_set (G : Group) (m : Sparse Sum) (isInt : Bool) (a i j k : Nat) (x : Sum) :
    G.sumAt (Map.set m k x) isInt a i j = if 32 * i + j = k then x else G.sumAt m isInt a i j := by
  unfold Group.sumAt
  rw [Map.get?_set]
  split <;> rfl
/-- One row i of sums gains the products of A's row with the rows of B (R164). -/
theorem Group.sumAt_sumRow (G : Group) (isInt : Bool) (a i : Nat) (sums : Sparse Sum) (ra : List FVal) (vb : Nat → List FVal) (p q : Nat) (hq : q < 32) :
    G.sumAt (G.sumRow isInt a i sums ra ((List.range 32).map vb)) isInt a p q =
      if p = i then (G.sumAt sums isInt a p q).dot ra (vb q) else G.sumAt sums isInt a p q := by
  have hprefix (n : Nat) (hn : n ≤ 32) : ∀ p q, q < 32 →
      G.sumAt ((List.range n).foldl (fun m j => Map.set m (32 * i + j) ((G.sumAt m isInt a i j).dot ra (vb j))) sums) isInt a p q =
        if p = i ∧ q < n then (G.sumAt sums isInt a p q).dot ra (vb q) else G.sumAt sums isInt a p q := by
    induction n with
    | zero => exact fun p q _ => (if_neg (by omega)).symm
    | succ n ih =>
      intro p q hq
      rw [List.range_succ, List.foldl_append, List.foldl_cons, List.foldl_nil, Group.sumAt_set, ih (by omega) p q hq, ih (by omega) i n (by omega)]
      by_cases hpq : 32 * p + q = 32 * i + n
      · have hp : p = i := by omega
        have hqn : q = n := by omega
        subst hp hqn
        rw [if_pos rfl, if_neg (by omega), if_pos (by omega)]
      · rw [if_neg hpq]
        exact if_congr (by omega) rfl rfl
  rw [Group.sumRow, List.length_map, List.length_range, range_zip_map, List.foldl_map]
  exact (hprefix 32 (Nat.le_refl 32) p q hq).trans (if_congr (and_iff_left hq) rfl rfl)

/-! ## A dense step -/

theorem State.loopRows_ok {s : State} {G : Group} {d : MDesc} {K st : Nat} {v : Nat → List FVal} {f : Nat → Flg} {x : Nat → List (Addr × Nat)} (is : List Nat)
    (h : ∀ i ∈ is, s.loopRow G d K st i = .ok (v i, f i, x i)) : s.loopRows G d K st is = .ok (is.map fun i => (v i, f i, x i)) := by
  induction is with
  | nil => rfl
  | cons i is ih => rw [State.loopRows, h i List.mem_cons_self, ih fun j hj => h j (List.mem_cons_of_mem i hj)]; rfl
/-- The loop m is the loop l one step on, its sums with the products of the rows `is` of A (R389). -/
structure SteppedOn (G : Group) (va vb : Nat → List FVal) (is : List Nat) (l m : MLoop) : Prop where
  step : m.step = l.step + 1
  rows : m.rows = 0
  steps : m.steps = l.steps
  sums : ∀ i j, j < 32 → G.sumAt m.sums l.isInt l.acc i j =
    if i ∈ is then (G.sumAt l.sums l.isInt l.acc i j).dot (va i) (vb j) else G.sumAt l.sums l.isInt l.acc i j

theorem State.denseRows_run {s : State} {g : Nat} {G : Group} {a : MDesc} {K : Nat} {va vb : Nat → List FVal} {fa : Nat → Flg} {xa : Nat → List (Addr × Nat)}
    (is : List Nat) : ∀ (t : State) (l : MLoop), Reads g s t → is.Nodup → (∀ i ∈ is, s.loopRow G a K l.step i = .ok (va i, fa i, xa i)) →
    ∃ u m, t.denseRows g G a K ((List.range 32).map vb) l is = u.setLoop g m ∧ Reads g s u ∧ SteppedOn G va vb is l m := by
  induction is with
  | nil => exact fun t l ht _ _ => ⟨t, _, rfl, ht, rfl, rfl, rfl, fun i j _ => (if_neg List.not_mem_nil).symm⟩
  | cons r is ih =>
    intro t l ht hnd hrow
    rw [List.nodup_cons] at hnd
    obtain ⟨hr, hnd⟩ := hnd
    obtain ⟨u, m, hrun, hu, hstep, hrows, hsteps, hsums⟩ := ih ((t.noteReads g (xa r)).rowFill G a l.step r)
      { l with sums := G.sumRow l.isInt l.acc r l.sums (va r) ((List.range 32).map vb), rows := r + 1, flags := l.flags ||| fa r }
      ((ht.trans (noteReads_reads t g _)).trans (rowFill_reads ..)) hnd fun i hi => hrow i (List.mem_cons_of_mem r hi)
    refine ⟨u, m, ?_, hu, hstep, hrows, hsteps, fun i j hj => ?_⟩
    · rw [State.denseRows, ht.loopRow, hrow r List.mem_cons_self]
      exact hrun
    · have hsum := hsums i j hj
      dsimp only at hsum
      rw [Group.sumAt_sumRow _ _ _ _ _ _ _ _ _ hj] at hsum
      rw [hsum]
      by_cases hi : i = r
      · subst hi
        rw [if_neg hr, if_pos rfl, if_pos List.mem_cons_self]
      · rw [if_neg hi]
        exact if_congr (by simp [hi]) rfl rfl
/-- A dense step whose operand rows can all be read. -/
theorem State.loopStep_dense {s : State} {g : Nat} {G : Group} {l : MLoop} {a b : MDesc} {isInt : Bool} {K : Nat} {va vb : Nat → List FVal} {fa fb : Nat → Flg}
    {xa xb : Nat → List (Addr × Nat)} (hG : s.group? g = some G) (hfrozen : s.frozen G.ctx = false) (hl : G.loop = some l) (hlt : l.step < l.steps)
    (hservice : l.service = none) (hkind : l.kind = .dense a b) (hpair : pairing a.fmt b.fmt = some (isInt, K))
    (hb : ∀ i, i < 32 → s.loopRow G b K l.step i = .ok (vb i, fb i, xb i))
    (ha : ∀ i, l.rows ≤ i → i < 32 → s.loopRow G a K l.step i = .ok (va i, fa i, xa i)) :
    ∃ u m, s.loopStep g = u.setLoop g m ∧ Reads g s u ∧ SteppedOn G va vb ((List.range 32).drop l.rows) l m := by
  have hrows (i : Nat) (hi : i ∈ (List.range 32).drop l.rows) : s.loopRow G a K l.step i = .ok (va i, fa i, xa i) := by
    obtain ⟨k, hk, rfl⟩ := List.mem_iff_getElem.1 hi
    rw [List.getElem_drop, List.getElem_range]
    rw [List.length_drop, List.length_range] at hk
    exact ha _ (by omega) (by omega)
  have hB := State.loopRows_ok (List.range 32) fun i hi => hb i (List.mem_range.1 hi)
  unfold State.loopStep
  rw [hG]
  dsimp only
  rw [hl]
  dsimp only
  rw [if_neg (by simp [hservice, hfrozen, hlt]), hkind]
  dsimp only
  rw [hpair]
  dsimp only
  rw [hB]
  dsimp only
  rw [List.map_map]
  have hreads := ((noteReads_reads s g (((List.range 32).map fun i => (vb i, fb i, xb i)).flatMap fun r => r.2.2)).trans
    (Reads.foldl _ (fun t i => rowFill_reads t g G b l.step i) (List.range 32) _)).trans (tell_reads _ g)
  obtain ⟨u, m, hrun, hu, hstep, hrows, hsteps, hsums⟩ := State.denseRows_run _ _
    { l with flags := ((List.range 32).map fun i => (vb i, fb i, xb i)).foldl (fun x r => x ||| r.2.1) l.flags } hreads
    (List.nodup_range.sublist (List.drop_sublist l.rows _)) hrows
  rw [hkind] at hrun
  exact ⟨u, m, hrun, hu, hstep, hrows, hsteps, hsums⟩

/-! ## The end of a loop -/

/-- Words put into an accumulator, from the sums with the numbers of their free values. -/
def putWords (isInt sat : Bool) (a free : Nat) (m : Sparse Word) (l : List ((Nat × Sum) × Nat)) : Sparse Word :=
  l.foldl (fun m e => Map.put 0 m (1024 * a + e.1.1) (BitVec.ofNat 32 (sumWord isInt sat e.1.2 (free + e.2)))) m

theorem putWords_others (isInt sat : Bool) (a free k : Nat) (l : List ((Nat × Sum) × Nat)) : ∀ m, Map.canon 0 m = true → (∀ e ∈ l, k ≠ 1024 * a + e.1.1) →
    Map.getD (putWords isInt sat a free m l) 0 k = Map.getD m 0 k := by
  induction l with
  | nil => exact fun _ _ _ => rfl
  | cons e l ih =>
    intro m hm hk
    refine (ih _ (Map.canon_put 0 m _ _ hm) fun x hx => hk x (List.mem_cons_of_mem e hx)).trans ?_
    rw [Map.getD_put 0 m _ _ _ hm, if_neg (hk e List.mem_cons_self)]
theorem putWords_word (isInt sat : Bool) (a free : Nat) (l : List ((Nat × Sum) × Nat)) (e : (Nat × Sum) × Nat) (he : e ∈ l) : ∀ m, Map.canon 0 m = true →
    (l.map fun e => e.1.1).Nodup → Map.getD (putWords isInt sat a free m l) 0 (1024 * a + e.1.1) = BitVec.ofNat 32 (sumWord isInt sat e.1.2 (free + e.2)) := by
  induction l with
  | nil => exact nomatch he
  | cons x l ih =>
    intro m hm hnd
    rw [List.map_cons, List.nodup_cons] at hnd
    obtain ⟨hx, hnd⟩ := hnd
    obtain rfl | he' := List.mem_cons.1 he
    · refine (putWords_others isInt sat a free _ l _ (Map.canon_put 0 m _ _ hm) fun y hy h => hx (List.mem_map.2 ⟨y, hy, by omega⟩)).trans ?_
      rw [Map.getD_put 0 m _ _ _ hm, if_pos rfl]
    · exact ih he' _ (Map.canon_put 0 m _ _ hm) hnd
/-- The accumulator of a group with the sums put into it. -/
theorem foldl_setAcc_eq (isInt sat : Bool) (a free : Nat) (l : List ((Nat × Sum) × Nat)) : ∀ G : Group,
    l.foldl (fun (G : Group) e => G.setAcc a (e.1.1 / 32) (e.1.1 % 32) (sumWord isInt sat e.1.2 (free + e.2))) G =
      { G with accs := putWords isInt sat a free G.accs l } := by
  induction l with
  | nil => exact fun _ => rfl
  | cons e l ih =>
    intro G
    have hplace : 1024 * a + 32 * (e.1.1 / 32) + e.1.1 % 32 = 1024 * a + e.1.1 := by omega
    rw [List.foldl_cons, ih, Group.setAcc, hplace]
    rfl
/-- The sums in order, each with the number of its free value. -/
def numbered (sums : Sparse Sum) : List ((Nat × Sum) × Nat) := sums.zip (List.range sums.length)
theorem numbered_sums (sums : Sparse Sum) : (numbered sums).map (·.1) = sums := by
  rw [numbered, List.map_fst_zip (by simp)]
theorem State.putSums_eq (s : State) (g a : Nat) (isInt sat : Bool) (sums : Sparse Sum) : ∃ n,
    s.putSums g a isInt sat sums = { s.modG g fun G => { G with accs := putWords isInt sat a s.free G.accs (numbered sums) } with free := n } := by
  have hG : (fun G : Group => (numbered sums).foldl (fun (G : Group) e => G.setAcc a (e.1.1 / 32) (e.1.1 % 32) (sumWord isInt sat e.1.2 (s.free + e.2))) G) =
      fun G => { G with accs := putWords isInt sat a s.free G.accs (numbered sums) } := funext fun G => foldl_setAcc_eq ..
  rw [← hG]
  cases isInt
  · exact ⟨s.free + sums.length, rfl⟩
  · exact ⟨s.free, rfl⟩

theorem Group.endSparse_frame (G : Group) (l : MLoop) : ({ G.endSparse l with tw := G.tw } : Group) = G := by
  unfold Group.endSparse
  split <;> rfl
/-- A group as the end of its loop leaves it, the sums in its accumulator. -/
def Group.ended (G : Group) (l : MLoop) (accs : Sparse Word) : Group :=
  (({ G with accs := accs, loop := none, mrow := BitVec.ofNat 32 (l.steps % 2 ^ 24 * 256) } : Group).endSparse l).raise l.flags
theorem Group.ended_frame (G : Group) (l : MLoop) (accs : Sparse Word) : ({ G.ended l accs with tw := G.tw } : Group) =
    { G with accs := accs, loop := none, mrow := BitVec.ofNat 32 (l.steps % 2 ^ 24 * 256), fstat := G.fstat ||| (l.flags &&& 63) } := by
  have h := congrArg (fun x : Group => x.raise l.flags)
    (({ G with accs := accs, loop := none, mrow := BitVec.ofNat 32 (l.steps % 2 ^ 24 * 256) } : Group).endSparse_frame l)
  exact h
theorem Group.ended_threads (G : Group) (l : MLoop) (accs : Sparse Word) : (G.ended l accs).threads = G.threads := by
  have h := congrArg Group.threads (G.ended_frame l accs)
  exact h
/-- The end of a loop that has made its steps. -/
theorem State.loopEnd_ends {s : State} {g : Nat} {G : Group} {l : MLoop} (hG : s.group? g = some G) (hfrozen : s.frozen G.ctx = false)
    (hl : G.loop = some l) (hle : l.steps ≤ l.step) (hexiting : G.exiting = false) :
    ∃ n, s.loopEnd g = { s.modG g fun _ => G.ended l (putWords l.isInt l.sat l.acc s.free G.accs (numbered l.sums)) with free := n } := by
  obtain ⟨n, hput⟩ := s.putSums_eq g l.acc l.isInt l.sat l.sums
  have hmod : (s.putSums g l.acc l.isInt l.sat l.sums).modG g (fun G =>
      (({ G with loop := none, mrow := BitVec.ofNat 32 (l.steps % 2 ^ 24 * 256) } : Group).endSparse l).raise l.flags) =
      { s.modG g fun _ => G.ended l (putWords l.isInt l.sat l.acc s.free G.accs (numbered l.sums)) with free := n } := by
    rw [hput]
    refine congrArg (fun gs => ({ s with groups := gs, free := n } : State)) ((Map.modify_modify ..).trans ?_)
    refine Map.modify_congr _ _ _ _ fun H hH => ?_
    cases hH.symm.trans hG
    rfl
  have hgroup : ({ s.modG g fun _ => G.ended l (putWords l.isInt l.sat l.acc s.free G.accs (numbered l.sums)) with free := n } : State).group? g =
      some (G.ended l (putWords l.isInt l.sat l.acc s.free G.accs (numbered l.sums))) := by
    have h := State.group?_modG s g g fun _ => G.ended l (putWords l.isInt l.sat l.acc s.free G.accs (numbered l.sums))
    rw [if_pos rfl, hG] at h
    exact h
  have hruns (accs : Sparse Word) : (G.ended l accs).exiting = false := (congrArg Group.exiting (G.ended_frame l accs) :).trans hexiting
  refine ⟨n, ?_⟩
  unfold State.loopEnd
  rw [hG]
  dsimp only
  rw [hl]
  dsimp only
  rw [if_neg (by simp [hfrozen, hle]), hmod, State.lateTrace, hgroup]
  dsimp only
  rw [hruns]
  rfl
/-- The word that a sum of the loop leaves (R165, R166). -/
theorem ended_word {G : Group} {l : MLoop} (hd : Distinct l.sums) (hcanon : Map.canon 0 G.accs = true) (free k : Nat) (x : Sum) (hx : Map.get? l.sums k = some x) :
    ∃ n, Map.getD (putWords l.isInt l.sat l.acc free G.accs (numbered l.sums)) 0 (1024 * l.acc + k) = BitVec.ofNat 32 (sumWord l.isInt l.sat x n) := by
  have hmem : (k, x) ∈ (numbered l.sums).map (·.1) := by
    rw [numbered_sums]
    exact mem_of_get? l.sums k x hx
  obtain ⟨e, he, hkx⟩ := List.mem_map.1 hmem
  have hnd : ((numbered l.sums).map fun e => e.1.1).Nodup := by
    rw [show (numbered l.sums).map (fun e => e.1.1) = ((numbered l.sums).map (·.1)).map (·.1) from List.map_map.symm, numbered_sums]
    exact hd
  have hword := putWords_word l.isInt l.sat l.acc free (numbered l.sums) e he G.accs hcanon hnd
  rw [hkx] at hword
  exact ⟨_, hword⟩

end Sys2Proof.Machine
end

section
/-! PROOF. Events of the matrix engine (R377, R380, R382, R389, R390): O48. -/

namespace Sys2Proof.Machine

theorem State.thread?_modG_same {s : State} {g : Nat} {G H : Group} (hG : s.group? g = some G) (hH : H.threads = G.threads) (h k : Nat) :
    (s.modG g fun _ => H).thread? h k = s.thread? h k := by
  unfold State.thread?
  rw [State.group?_modG]
  split
  · next e =>
    rw [e, hG]
    exact congrArg (Map.get? · k) hH
  · rfl

/-- Settles O48: the events of a load cover the tile, the rows of a step read what none of them changes, and each sum has a word of its own. -/
theorem matrixOperationsRun : Obligations.MatrixOperationsRun := by
  unfold Obligations.MatrixOperationsRun
  intro s g G habs hG hfrozen
  have hthread (k : Nat) (T : Thread) (hT : s.thread? g k = some T) : Map.get? G.threads k = some T := by rwa [State.thread?, hG] at hT
  have hset (f : Group → Group) : (s.modG g f).group? g = some (f G) := by rw [State.group?_modG, if_pos rfl, hG]; rfl
  refine ⟨fun o hfind ho hunits hgot hplanar hservice hload hpad hacc htrans hnd => ?_,
    fun l a b isInt K va vb fa fb xa xb hl hlt hservice hkind hpair hb ha => ?_, fun l hl hle hexiting hd hcanon => ?_⟩
  · obtain ⟨c, hexec⟩ := execTileOpComplete_loads habs hG hfrozen hfind ho hunits hplanar hservice hload hpad
    obtain ⟨hops, hthreads, htile⟩ := G.loaded_shows hplanar hacc
    have hrow (i : Nat) (hi : i < 32) := TileOp.whole_row G hplanar hpad hacc htrans hgot i hi
    refine ⟨_, hexec, rfl, fun k T hT => ?_, fun h k hne => ?_, G.loaded o, hset _, hops, fun n hn => (htile n).trans (if_neg hn), ?_⟩
    · have hget : ({ s.modG g fun _ => G.loaded o with cores := c } : State).thread? g k = Map.get? (G.loaded o).threads k := by
        have h := congrArg (fun x : Option Group => x.bind fun G => Map.get? G.threads k) (hset fun _ => G.loaded o)
        exact h
      rw [hget, hthreads]
      by_cases hk : k ∈ o.tids
      · rw [get?_modAll Thread.lessTl k o.tids hnd hk, hthread k T hT, if_pos hk]
        rfl
      · rw [get?_modAll_others Thread.lessTl k o.tids hk, hthread k T hT, if_neg hk]
    · have h := congrArg (fun x : Option Group => x.bind fun G => Map.get? G.threads k) ((State.group?_modG s g h fun _ => G.loaded o).trans (if_neg hne))
      exact h
    · rw [htile o.num, if_pos rfl]
      exact ⟨rfl, rfl, hrow⟩
  · obtain ⟨u, m, hstep, hu, hone, hrows, hsteps, hsums⟩ := State.loopStep_dense hG hfrozen hl hlt hservice hkind hpair hb ha
    obtain ⟨H, hH⟩ := Option.isSome_iff_exists.1 (hu.stays (by rw [hG]; rfl))
    have hloop : (u.setLoop g m).group? g = some { H with loop := some m, mrow := m.mrowWord } := by
      rw [State.setLoop, State.group?_modG, if_pos rfl, hH]
      rfl
    refine ⟨u.setLoop g m, ?_, hu.mem, fun h k => ?_, _, m, hloop, rfl, hone, hrows, hsteps, ?_, fun i j hi hj => ?_⟩
    · exact (congrArg finish hstep).trans (finish_of_present _ (hu.absent.trans habs))
    · have hkeeps : Reads g u (u.setLoop g m) := .modG u g fun _ => rfl
      exact (hu.trans hkeeps).threads h k
    · exact congrArg (BitVec.ofNat 32) (by rw [hone, hrows])
    · refine (hsums i j hj).trans (if_congr ?_ rfl rfl)
      rw [List.range_eq_range', List.drop_range', List.mem_range'_1]
      omega
  · obtain ⟨n, hend⟩ := State.loopEnd_ends hG hfrozen hl hle hexiting
    have hframe := G.ended_frame l (putWords l.isInt l.sat l.acc s.free G.accs (numbered l.sums))
    have haccs : (G.ended l (putWords l.isInt l.sat l.acc s.free G.accs (numbered l.sums))).accs = _ := (congrArg Group.accs hframe :)
    refine ⟨_, (congrArg finish hend).trans (finish_of_present _ habs), rfl, fun h k => ?_,
      G.ended l (putWords l.isInt l.sat l.acc s.free G.accs (numbered l.sums)), hset _, (congrArg Group.loop hframe :), (congrArg Group.mrow hframe :),
      (congrArg Group.fstat hframe :), fun k x hx hk => ?_, fun k hk hkeys => ?_⟩
    · exact State.thread?_modG_same hG (G.ended_threads l _) h k
    · obtain ⟨n, hword⟩ := ended_word hd hcanon s.free k x hx
      have hacc : (G.ended l (putWords l.isInt l.sat l.acc s.free G.accs (numbered l.sums))).acc l.acc (k / 32) (k % 32) = sumWord l.isInt l.sat x n % 2 ^ 32 := by
        rw [Group.acc, show 1024 * l.acc + 32 * (k / 32) + k % 32 = 1024 * l.acc + k by omega, haccs, hword, BitVec.toNat_ofNat]
      rw [hacc]
      unfold sumWord
      split
      · rfl
      · exact ⟨n, rfl⟩
    · rw [haccs]
      refine putWords_others _ _ _ _ k _ G.accs hcanon fun e he => ?_
      have hkey : e.1.1 < 1024 := hkeys e.1 (by rw [← numbered_sums l.sums]; exact List.mem_map_of_mem he)
      omega

end Sys2Proof.Machine
end

section
/-! PROOF. Branches and calls (R306, R307): O13. -/

namespace Sys2Proof.Machine

/-- A branch to an aligned register target, whose target and writes are the thread's own (R307). -/
theorem goReg_does {i : Instr} {op : Nat} {f : Full} {plan : State → Ref → TOut} {x : State → Ref → Nat} {regs : State → Ref → List (Nat × Nat)}
    (hplan : ∀ s r, plan s r = goReg (x s r) (regs s r) := by intros; rfl) (hexec : Sys2Proof.Machine.exec i = issueEach op f plan := by rfl)
    (hop : op ≠ 0x0A6 := by decide) (hx : ∀ s (gs : Sparse Group) r, x { s with groups := gs } r = x s r := by intros; rfl)
    (hregs : ∀ s (gs : Sparse Group) r, regs { s with groups := gs } r = regs s r := by intros; rfl) :
    EachDoes i op f (fun s _ r => x s r % 4 = 0) fun s _ r => { pc := some (BitVec.ofNat 64 (x s r)), regs := regs s r } :=
  eachDoes_of hexec hop fun s u _ r hr hu => by
    rw [hplan, hu.eq, hx, hregs]
    exact if_neg (not_not_intro hr)

/-- Settles O13: each plan goes to the target of its statement. -/
theorem branchResults : Obligations.BranchResults := by
  unfold Obligations.BranchResults
  intro f target
  exact ⟨eachGives_plan (planBra f), goReg_does (plan := planBrx f) (x := fun s r => s.op64 r f.a.toNat) (regs := fun _ _ => []),
    eachGives_plan (planCall f),
    goReg_does (plan := planCalx f) (x := fun s r => s.op64 r f.a.toNat) (regs := fun s r => wr2 f.d.toNat (s.nextPc r).toNat),
    goReg_does (plan := planRet f) (x := fun s r => s.op64 r f.a.toNat) (regs := fun _ _ => [])⟩

end Sys2Proof.Machine
end

section
/-! PROOF. Atomics at their issue (R336, R337, R456): O23. -/

namespace Sys2Proof.Machine

theorem atomLen_eq_eight (t : Ty) : atomLen t = 8 ↔ t.is64 = true := by
  unfold atomLen
  split <;> simp_all
theorem planAtom_misaligned {op : AtomOp} {ret : Bool} {f : Full} {s : State} {r : Ref} (h : (s.ea r f).toNat % atomLen f.ty ≠ 0) :
    planAtom op ret f s r = .trap { cause := 0x04, arg := if f.ty.is64 then 3 else 2, addr := (s.ea r f).toNat } := by
  unfold planAtom
  simp only [if_pos h, atomLen_eq_eight]
  rfl
/-- The access of an aligned atomic, as O23 states it. -/
def atomStarts (op : AtomOp) (ret : Bool) (f : Full) (s : State) (r : Ref) : TRes :=
  let rem := remoteOf s r (if ret then .atomicRet else .atomic) (s.ea r f) (atomLen f.ty)
  { accs := [{ kind := .atom op f.ty (s.opTy r f.ty f.d.toNat)
                 (if op = .cas then (if f.ty.is64 then s.op64 r (f.d.toNat + 2) else s.op32 r (f.d.toNat + 1)) else 0)
                 (if ret then some f.d.toNat else none) f.pd.toNat (s.ea r f) f.mod.toNat,
               parts := [(0, atomLen f.ty)], remote := rem }],
    vol := if ret then (if rem.isSome then 33 else 1) else 0 }
theorem planAtom_aligned {op : AtomOp} {ret : Bool} {f : Full} {s : State} {r : Ref} (h : (s.ea r f).toNat % atomLen f.ty = 0) :
    planAtom op ret f s r = .done (atomStarts op ret f s r) := if_neg (not_not_intro h)
theorem Alike.atomStarts {s u : State} (h : Alike s u) (op : AtomOp) (ret : Bool) (f : Full) (r : Ref) :
    atomStarts op ret f u r = atomStarts op ret f s r := by
  rw [h.eq]
  simp only [Machine.atomStarts, remoteOf_groups, State.ea_groups, State.opTy_groups, State.op64_groups, State.op32_groups]

/-- Settles O23: every atomic has the one plan, which traps on a misaligned address and else starts its access. -/
theorem atomicsStart : Obligations.AtomicsStart := by
  unfold Obligations.AtomicsStart
  intro f len atom
  have hatom (i : Instr) (code : Nat) (op : AtomOp) (ret : Bool)
      (hexec : Sys2Proof.Machine.exec i = issueEach code f (planAtom op ret f) := by rfl) (hop : code ≠ 0x0A6 := by decide) : atom i code op ret :=
    ⟨trapsOn_each hexec hop (fun _ _ _ => by decide : ∀ s r, _ → (4 : Nat) ≠ 0x20) fun _ _ h => planAtom_misaligned h,
      eachDoes_of hexec hop fun s u _ r h hu => by
        have hu' : (u.ea r f).toNat % atomLen f.ty = 0 := by rw [hu.eq, State.ea_groups]; exact h
        rw [planAtom_aligned hu', hu.atomStarts]
        rfl⟩
  exact ⟨hatom _ _ _ _, hatom _ _ _ _, hatom _ _ _ _, hatom _ _ _ _, hatom _ _ _ _, hatom _ _ _ _, hatom _ _ _ _, hatom _ _ _ _,
    hatom _ _ _ _, hatom _ _ _ _, hatom _ _ _ _, hatom _ _ _ _, hatom _ _ _ _, hatom _ _ _ _, hatom _ _ _ _, hatom _ _ _ _,
    hatom _ _ _ _, hatom _ _ _ _, hatom _ _ _ _, hatom _ _ _ _, hatom _ _ _ _, hatom _ _ _ _, hatom _ _ _ _, hatom _ _ _ _⟩

end Sys2Proof.Machine
end

section
/-! REFUTATION. O27 ranges over every table a scratchpad may be, also over one that lists a byte twice: a job whose barrier is written there with 0
removes the first entry alone, and the second one is read afterwards. -/

namespace Sys2Proof.Machine

/-- A scratchpad that lists byte 5, the middle one of `TXIN` of the barrier at 0, twice. -/
def ByteTwice.state : State := { OneBuffer.state {} with groups := [(2, { OneBuffer.group {} with pad := [(5, 0), (5, 1)] })] }
def ByteTwice.ref : Ref := { g := 2, t := 0, G := OneBuffer.group {}, T := {} }
/-- A copy of one sector into the scratchpad, bound to the barrier at 0. -/
def ByteTwice.job : JobReq := { kind := .copy (.pad 2 0) (.dev (mkAddr 1 0)) 32, cin := 1 }

theorem ByteTwice.txin_before : (ByteTwice.state.bar 2 0).txin = 0 := by decide
theorem ByteTwice.txin_after : ((ByteTwice.state.enterJob ByteTwice.ref ByteTwice.job 0 (.bar 2 0) none).bar 2 0).txin = 1 + 2 ^ 12 := by decide

/-- Refutes O27: `TXIN` of the barrier rises by 4,097, where the job counts 1. -/
theorem not_jobEntry : ¬ Obligations.JobEntry := by
  unfold Obligations.JobEntry
  intro h
  obtain ⟨_, _, hbar⟩ := h ByteTwice.state ByteTwice.ref ByteTwice.job 0 (.bar 2 0) none
  obtain ⟨htxin, _⟩ := hbar 2 0 rfl rfl (by decide) (by decide) (.inl (by decide))
  rw [ByteTwice.txin_before] at htxin
  exact absurd (ByteTwice.txin_after.symm.trans htxin) (by decide)

end Sys2Proof.Machine
end

section
/-! REFUTATION. O31 has a sparse loop always end in a next state, but the words of its `ROWPTR` table are read as it starts (R363, R392), and the
table can lie beyond the memory the device has (log 8). -/

namespace Sys2Proof.Machine

/-- `mlsp a0, 0, 0, v4`. -/
def LostTable.fields : Full :=
  { g := 7, gn := false, d := 0, a := 0, b := .imm 0, c := 4, ty := .b32, mod := 0, pd := 7, ext := 0, s := false }
/-- A pattern of one row and one column of FP32, a union of a band with itself, whose table is buffer 1. -/
def LostTable.pattern : TwCtx :=
  { desc := 0, values := 0, rowptr := mkAddr 1 0, rows := 1, cols := 1, fmtb := 11, words := [0x1000000000000000, 0x6000000000000000, 0], seed := 0,
    st := .loaded, dirCol := false, line := 0, pos := 0 }
/-- v4 to v7 hold the descriptor of X: FP32 rows at address 0. -/
def LostTable.thread : Thread := { regs := [(7, 0xB00000)] }
def LostTable.group : Group :=
  { OneBuffer.group LostTable.thread with role := .matrix, lr := { accs := 1, twctx := 1 }, tw := [(0, LostTable.pattern)] }
def LostTable.issue : Issue := { core := 0, refs := [(2, 0)], pc := 0, len := 8 }
/-- The base of buffer 1 is the end of memory. -/
def LostTable.state : State :=
  { OneBuffer.state {} with groups := [(2, LostTable.group)], mem := OneBuffer.memory (0x10044, 0xC0), issue := some LostTable.issue }
def LostTable.ref : Ref := { g := 2, t := 0, G := LostTable.group, T := LostTable.thread }

theorem LostTable.issued : Issued LostTable.state LostTable.issue [LostTable.ref] := ⟨rfl, rfl, rfl, by decide, rfl⟩
theorem LostTable.admits : Admits 0x158 LostTable.fields [LostTable.ref] := ⟨_, rfl, by decide⟩
theorem LostTable.executing : executing LostTable.fields [LostTable.ref] = [LostTable.ref] := by decide
set_option maxRecDepth 2000 in
theorem LostTable.lines : sparseLines LostTable.state LostTable.ref LostTable.pattern false 0 32 =
    .ok ({ LostTable.state with absent := some memSize }, [(0, 0)] :: List.replicate 31 []) := by rfl
set_option maxRecDepth 2000 in
theorem LostTable.faults : Sys2Proof.Machine.exec (.mlsp LostTable.fields) LostTable.state = .fault (.noSuchMemory memSize) := by rfl

/-- Refutes O31: the table's word is read beyond memory, so the instruction stops the machine; its clause gives a next state. -/
theorem not_matrixLoopsStart : ¬ Obligations.MatrixLoopsStart := by
  unfold Obligations.MatrixLoopsStart
  intro h
  obtain ⟨_, hsparse, _⟩ := h LostTable.fields
  have hmay : mayUse { ra := [0], wa := [0], engine := true } LostTable.state [LostTable.ref] := by
    intro lo hlo
    cases hlo
    exact ⟨by decide, by decide, by decide⟩
  obtain ⟨t, hexec, _⟩ := hsparse false 32 LostTable.state LostTable.issue [LostTable.ref] LostTable.issued LostTable.admits
    ⟨hmay, fun lo hlo => by
      cases hlo
      exact ⟨by decide, LostTable.pattern, rfl, by decide, by decide, by decide, by decide, by decide, nofun, by decide, by decide,
        _, _, LostTable.lines, by decide, ⟨_, rfl, rfl⟩, by decide, nofun⟩⟩
    fun r hr => by
      cases List.mem_singleton.1 (LostTable.executing ▸ hr)
      exact ⟨by decide, by decide, by decide⟩
  exact nomatch LostTable.faults.symm.trans hexec

end Sys2Proof.Machine
end

section
/-! REFUTATION. O56 has the loss of a hitch table's entry always end in a next state. The severing push of a subscriber whose group is saved also
writes the group's image in its save area (R80), which can lie beyond the memory the device has (log 8): the machine of `LostImage`. -/

namespace Sys2Proof.Machine

set_option maxRecDepth 1000 in
theorem LostImage.absent_after_entry : (LostImage.state.entryFail 5 0).absent = some memSize := by decide
/-- The scrubber's finding in entry 0 of line 5 stops the machine. -/
theorem LostImage.scrub_faults : Sys2Proof.Machine.exec (.scrubberFinding (.hitch 5 0) false) LostImage.state = .fault (.noSuchMemory memSize) := by
  show finish (LostImage.state.entryFail 5 0) = _
  rw [finish, LostImage.absent_after_entry]

/-- Refutes O56: the entry of a slot whose group is saved beyond the device's memory is lost, and no next state follows; its clause gives one. -/
theorem not_errorsAreContained : ¬ Obligations.ErrorsAreContained := by
  unfold Obligations.ErrorsAreContained
  intro h
  obtain ⟨_, _, _, _, _, _, _, hhitch, _⟩ := h LostImage.state LostImage.logFits
  obtain ⟨t, hexec, _⟩ := hhitch 5 0 { line := 5, ctx := some 0, subs := [.slot 2 0x100] } rfl
  exact nomatch LostImage.scrub_faults.symm.trans hexec

end Sys2Proof.Machine
end
